-- ==== Sys2Proof/Word.lean ====
section
/-! DEFINITION. The word types of the manual (R3, R4) and the plain map from keys to values that holds memory and registers. -/

namespace Sys2Proof

/-- One byte. -/
abbrev Byte := BitVec 8
/-- A 32-bit register (R15). -/
abbrev Word := BitVec 32
/-- A 64-bit value: a pair of registers (R16), an address, a special register. -/
abbrev DWord := BitVec 64
/-- A map from keys to values, listed with strictly rising keys and without the default value. -/
abbrev SMap (α : Type) := List (Nat × α)

end Sys2Proof
end

