-- ==== Sys2Proof/Config.lean ====
section
/-! DEFINITION. What the manual leaves open: constants without a body, so that no proof can see a value of one (log entries 7, 8, 9, 13, 14, 15). Each is applied to the operands it depends on, or to `State.fresh`, a plain counter. -/

namespace Sys2Proof.Config

/-- Output of the TRNG: the 256 bits of the n-th draw (R460). -/
opaque trngBits : Nat → BitVec 256
/-- What a PCIe function answers to the n-th read of a device address (R486): the byte at an offset. -/
opaque deviceByte : Nat → Nat → Byte
/-- A choice that the manual calls not architectural, made from the n-th free value. It is used only when it is one of the allowed choices. -/
opaque pick : Nat → Nat
/-- The result pattern that an approximate operation (R75) gives for an operand: operation number, format code, operand bits. It is used only when it meets the bound of R75. -/
opaque approx : Nat → Nat → Nat → Nat
/-- The 48 bytes of the ECDSA P-384 key and of the ML-DSA-87 key that the Reeve derives at boot (R466, R483). -/
opaque deviceKey : Nat → BitVec 384
/-- ECDSA P-384 over a SHA-384 digest (R466): 96 bytes as a number, from the key, the draw and the digest. -/
opaque ecdsaSign : BitVec 384 → Nat → BitVec 384 → Nat
/-- ML-DSA-87 over a body (R466): 4,627 bytes as a number. -/
opaque mlDsaSign : BitVec 384 → Nat → List Byte → Nat
/-- ML-KEM-1024 decapsulation of a ciphertext to the package's key (R458). -/
opaque mlKemDecap : List Byte → Option (BitVec 256)
/-- The DATA bytes of an Almanac record whose contents the manual calls type-specific and does not give (R484): SEQ and place. -/
opaque almData : Nat → Nat → Byte
/-- The two keys of AES-256-XTS that the 256 bits of a slot's key become (R455): the manual does not say how. -/
opaque xtsKeys : BitVec 256 → BitVec 256 × BitVec 256
/-- Whether the LBAs of a namespace are 4,096 bytes, else 512 (R336): root port and namespace. -/
opaque lbaLarge : Nat → Nat → Bool
/-- The pair key that two Reeves agree with the n-th draw, by ML-KEM-1024 (R462). -/
opaque pairSecret : Nat → BitVec 256
/-- The place that an entry of another package names there: package, entry, and the address of its first byte (R436, R440). -/
opaque originBase : Nat → Nat → Nat
/-- The bytes of the device certificate (R477). -/
opaque certificate : List Byte

end Sys2Proof.Config
end

