-- ==== Sys2Proof/Syntax.lean ====
section
/-! DEFINITION. The abstract syntax: register names (R15), types and modifiers of the instruction chapters, and `Instr`, one constructor per row of spec/opcode_table.json. A row that is an event of an engine, of the dispatcher or of the outside world carries what that event brings. -/

namespace Sys2Proof

/-- The register operand codes of R15. `rsv n` is the reserved code 0x390 + n. -/
inductive Reg where
  | v (n : Fin 768)
  | k (n : Fin 64)
  | q (n : Fin 16)
  | w (n : Fin 16)
  | c (n : Fin 32)
  | kc (n : Fin 16)
  | rsv (n : Fin 111)
  | vz
  deriving DecidableEq, Repr, Inhabited

/-- A predicate name p0..p7 (R19). -/
abbrev Pred := Fin 8

/-- The fields every instruction shares (R41): guard, GNEG, LOOK and the U bit (MOD[13]). -/
structure Hdr where
  guard : Pred
  gneg : Bool
  look : Fin 16
  u : Bool
  deriving DecidableEq, Repr, Inhabited

/-- ITYPE 0-11 (R87), in the order of the codes. -/
inductive IType where
  | b8 | b16 | b32 | b64 | i8 | i16 | i32 | i64 | n8 | n16 | n32 | n64
  deriving DecidableEq, Repr, Inhabited

/-- The widths of MOV (R92): ITYPE 2, 3 and 12. -/
inductive MovW where
  | b32 | b64 | b128
  deriving DecidableEq, Repr, Inhabited

/-- FTYPE 0-5 (R88). -/
inductive FType where
  | f64 | f32 | bf16 | f16 | bf16x2 | f16x2
  deriving DecidableEq, Repr, Inhabited

/-- Rounding modes (R71). -/
inductive Rnd where
  | rn | rz | rd | ru
  deriving DecidableEq, Repr, Inhabited

/-- Format codes 0-12 (R79). -/
inductive Fmt where
  | fp64 | fp32 | bf16 | fp16 | e4m3 | e5m2 | int8 | uint8 | int4 | pp8 | b1 | int16 | int32
  deriving DecidableEq, Repr, Inhabited

/-- MODE of IMUL and IMAD (R95). -/
inductive MulMode where
  | lo | hi | wide
  deriving DecidableEq, Repr, Inhabited

/-- COND of ICMP (R102) and CMP of WAITC (R275). -/
inductive Cond where
  | eq | ne | lt | le | gt | ge
  deriving DecidableEq, Repr, Inhabited

/-- COND of FCMP (R116). -/
inductive FCond where
  | eq | ne | lt | le | gt | ge | num | nan
  deriving DecidableEq, Repr, Inhabited

/-- ORD of the memory forms (R47). -/
inductive MOrd where
  | plain | acquire | release | sc
  deriving DecidableEq, Repr, Inhabited

/-- SCOPE (R47). -/
inductive Scope where
  | clan | group | hamlet | die | package | system
  deriving DecidableEq, Repr, Inhabited

/-- TYPE 0-6 of the memory forms (R47). -/
inductive AType where
  | n8 | i8 | n16 | i16 | b32 | b64 | b128
  deriving DecidableEq, Repr, Inhabited

/-- The address and the shared modifiers of forms M and N (R46, R47). -/
structure MemOp where
  cap : Reg
  idx : Reg
  imm : BitVec 32
  ty : AType
  scale : Fin 4
  ord : MOrd
  scope : Scope
  far : Bool
  strm : Bool
  deriving DecidableEq, Repr, Inhabited

/-- The address of a hint, CFLUSH or PWAIT (R147, R149, R276). -/
structure HintOp where
  cap : Reg
  idx : Reg
  imm : BitVec 32
  scale : Fin 4
  deriving DecidableEq, Repr, Inhabited

/-- AOP of the atomics (R265); `swapOp` is AOP 8. -/
inductive AOp where
  | add | and | or | xor | smin | smax | umin | umax | swapOp | inc | dec | fadd | fmin | fmax
  deriving DecidableEq, Repr, Inhabited

/-- HINT of PREF (R147). -/
inductive PrefHint where
  | l1 | l2 | l2x
  deriving DecidableEq, Repr, Inhabited

/-- HINT of RESID (R147). -/
inductive ResidHint where
  | keep | evict | tlb
  deriving DecidableEq, Repr, Inhabited

/-- FIELD of CGET (R152). -/
inductive CField where
  | addr | base | len | off | perm | otype | tag | flags | lo | hi | top
  deriving DecidableEq, Repr, Inhabited

/-- COND of CTEST (R157). -/
inductive CCond where
  | tag | seal | inb | sub | x
  deriving DecidableEq, Repr, Inhabited

/-- MODE of EMRET (R397); `to` carries the capability register. -/
inductive EmMode where
  | adv | retry | to (a : Reg)
  deriving DecidableEq, Repr, Inhabited

/-- The operands of OBJ (R159). -/
structure ObjOps where
  d : Reg
  obj : Reg
  args : Reg
  narg : Fin 9
  cx : Reg
  deriving DecidableEq, Repr, Inhabited

/-- The message operands of R362: words from `words`, capabilities from `caps`. -/
structure MsgOps where
  d : Reg
  obj : Reg
  words : Reg
  nw : Fin 9
  caps : Reg
  nc : Fin 3
  deriving DecidableEq, Repr, Inhabited

/-- MODE of SHFL (R188). -/
inductive ShflMode where
  | idx | up | down | xor
  deriving DecidableEq, Repr, Inhabited

/-- MODE of VOTE (R189). -/
inductive VoteMode where
  | all | any | uni | ballot
  deriving DecidableEq, Repr, Inhabited

/-- WIDTH of RDFIRST (R191). -/
inductive RdWidth where
  | b32 | b64 | b128
  deriving DecidableEq, Repr, Inhabited

/-- SEL of LRANK (R190). -/
inductive RankSel where
  | rank | count | mask
  deriving DecidableEq, Repr, Inhabited

/-- OP of REDUX and SCAN (R192). -/
inductive RedOp where
  | add | min | max | and | or | xor
  deriving DecidableEq, Repr, Inhabited

/-- RTYPE of REDUX and SCAN (R192). -/
inductive RType where
  | i32 | n32 | i64 | n64 | f32 | f64 | b32 | b64
  deriving DecidableEq, Repr, Inhabited

/-- MODE of BAR and HBAR (R195). -/
inductive BarMode where
  | sync | arrive
  deriving DecidableEq, Repr, Inhabited

/-- Semirings 0-5 (R86, R290). -/
inductive Semiring where
  | plusTimes | minPlus | maxPlus | maxTimes | orAnd | minMax
  deriving DecidableEq, Repr, Inhabited

/-- ASRC of MMA with its operand (R290, R291). -/
inductive ASrc where
  | regs (a : Reg)
  | scratch (desc : Reg) (tidx : Fin 64)
  | acc (tile : Fin 8) (col : Fin 16)
  deriving DecidableEq, Repr, Inhabited

/-- Where a matrix transfer of R288 reads or writes. -/
inductive MLoc where
  | scratch (desc : Reg) (tidx : Fin 64)
  | mem (cap : Reg) (pitch : BitVec 20) (imm : BitVec 32)
  deriving DecidableEq, Repr, Inhabited

/-- SRCK and ENC of MWLD (R295): registers, or a location, or memory through decryption with a KeySlot. -/
inductive WSrc where
  | regs (a : Reg)
  | loc (l : MLoc)
  | enc (cap : Reg) (pitch : BitVec 20) (imm : BitVec 32) (ks : Reg)
  deriving DecidableEq, Repr, Inhabited

/-- OP of MROW (R302). -/
inductive RowOp where
  | max | sum | min
  deriving DecidableEq, Repr, Inhabited

/-- SEL of MSTAT (R304). -/
inductive MStatSel where
  | flags | sb | alloc
  deriving DecidableEq, Repr, Inhabited

/-- DK of MCVT (R301). -/
inductive DKind where
  | f32 | i32 | f64
  deriving DecidableEq, Repr, Inhabited

/-- OP of COLL (R443). -/
inductive CollOp where
  | mcast | reduce | allreduce
  deriving DecidableEq, Repr, Inhabited

/-- ROP of COLL (R443). -/
inductive CollRop where
  | sum | min | max | lsem | msum
  deriving DecidableEq, Repr, Inhabited

/-- TYPE of COLL (R443). -/
inductive CollType where
  | i32 | i64 | f32 | bf16
  deriving DecidableEq, Repr, Inhabited

/-- OP of CFLUSH (R149). -/
inductive FlushOp where
  | wb | inv
  deriving DecidableEq, Repr, Inhabited

/-- ROLE of a queue binding (R317). -/
inductive QRole where
  | push | pop
  deriving DecidableEq, Repr, Inhabited

/-! What events bring from outside the model. -/

/-- A thread of the service firmware as the Reeve starts it (R454, R483). -/
structure FwThread where
  /-- Its service core, its entry capability, and the capabilities that the Reeve delegates to it by c register. -/
  core : Nat
  pcc : BitVec 128
  caps : List (Nat × BitVec 128)
  deriving DecidableEq, Repr, Inhabited

/-- What the Reeve, which is software, decides at boot (R452, R454, R483): the Stile rows, PROT, the digests of the two images, the root Untypeds (world, kind 0 store 1 memory 2 device 3 Cellar, base, log2 size), the Cellar size of every die in MiB, the device space behind each root port (base, size, port), the package identifier, the boot step that fails, if one does, and how often the TRNG fails its start-up tests before it passes them (R461); the same two of the boot of the old bank (R482); the service firmware (R454): the bytes of its image as they are loaded, the pages of the AddressSpace of %ctx 0 (virtual and physical address, permissions R W X in bits 0 to 2), its threads; the ports that do not come up (root ports, Ethernet ports, fabric ports), and the packages with which the Reeves agree a pair key (R462). -/
structure BootPlan where
  rows : List (BitVec 32)
  prot : BitVec 16
  reeveDigest : BitVec 384
  fwDigest : BitVec 384
  roots : List (Nat × Nat × Nat × Nat)
  cellar : List Nat
  bars : List (Nat × Nat × Nat)
  pkg : BitVec 12
  fails : Option Nat
  trngFails : Nat
  failsOld : Option Nat
  trngFailsOld : Nat
  image : List (Nat × List Byte)
  pages : List (Nat × Nat × Nat)
  firmware : List FwThread
  rootDown : List Nat
  ethDown : List Nat
  fabricDown : List Nat
  peers : List Nat
  deriving DecidableEq, Repr, Inhabited

/-- The kinds of access a remote request asks for (R435, R436). -/
inductive RemoteOp where
  | load (n : Nat)
  | store (data : List Byte)
  /-- The masked bytes of a write-combining entry by their place in the line (R440). -/
  | combined (bytes : List (Nat × Byte))
  | atom (aop : AOp) (size : Nat) (operand : Nat)
  | atomx (size : Nat) (cmp new : Nat)
  | send (words : List Word) (caps : List (BitVec 128 × Bool)) (nb : Bool)
  deriving DecidableEq, Repr, Inhabited

/-- A request routed to this package through an X capability (R436). -/
structure RemoteReq where
  src : BitVec 12
  id : Nat
  entry : Nat
  chk : BitVec 20
  off : BitVec 64
  /-- A Carter element, which needs no alignment of its own. -/
  engine : Bool
  /-- It came sealed under the pair key of its source, and authenticated (R462). -/
  sealed : Bool
  op : RemoteOp
  deriving DecidableEq, Repr, Inhabited

/-- The origin's answer to a request of this package (R437): data, a status of a SEND, or a refusal of a class and subclass. -/
inductive RemoteAns where
  | data (bs : List Byte)
  | status (w : Word)
  | refuse (cls sub : Nat)
  deriving DecidableEq, Repr, Inhabited

/-- What a fabric packet brings (R432): the answer to a request, a request, or for a Frame replicated across packages (R430) an atomic for the Bellringer of its home, or a stamped write. -/
inductive Payload where
  | answer (id : Nat) (a : RemoteAns)
  | request (r : RemoteReq)
  | replAtom (src : BitVec 12) (id pa : Nat) (op : RemoteOp)
  /-- A write to a bound Frame: its bytes, and further ones of the same write by their places (R428, R430). -/
  | replWrite (pa : Nat) (data : List Byte) (more : List (Nat × List Byte))
  /-- Every replica of a member, by its rank in the group of a Frame, has applied a write; a member has bound its Frame of a size (R430). -/
  | replApplied (group rank pa : Nat) (data : List Byte)
  | replBound (group rank log2 : Nat)
  | other
  /-- A packet of an ordered class (R432): its source, its class (0 requests, 1 atomics, 2 multicasts of REPL writes), and its number in the order in which that source sent them; `other` stands for one that was lost. -/
  | ordered (src : BitVec 12) (cls : Fin 3) (no : Nat) (p : Payload)
  deriving DecidableEq, Repr, Inhabited

/-- The sources of a fatal error (R485, R487). -/
inductive FatalSource where
  | store (die : Fin 6) | reeve | ring (die : Fin 7)
  deriving DecidableEq, Repr, Inhabited

/-- What every member of a round submits alike (R443): OP, ROP, TYPE, ROOT and COUNT. -/
structure CollHead where
  op : CollOp
  rop : CollRop
  ty : CollType
  root : Nat
  count : Nat
  deriving DecidableEq, Repr, Inhabited

/-- One member's part in a collective round, as the fabric brings it (R443): what it submitted, and its bytes with the leaf switch and the port by which its elements go, element by element in turn (R444); or the status that it gives the round. -/
inductive Contribution where
  | data (head : CollHead) (ports : List (Nat × Nat)) (bs : List Byte)
  | failed (head : CollHead) (status : Nat)
  deriving DecidableEq, Repr, Inhabited

/-- The operations and events of spec/opcode_table.json, one constructor per row. -/
inductive Instr where
  -- class 0 (R91-R113)
  | nop (h : Hdr)
  | mov (h : Hdr) (t : MovW) (d a : Reg)
  | movPush (h : Hdr) (t : MovW) (q : Fin 16) (a : Reg) (nb : Bool) (nbp : Pred)
  | movPop (h : Hdr) (t : MovW) (d : Reg) (q : Fin 16) (nb : Bool) (nbp : Pred)
  | moviI (h : Hdr) (t : IType) (d : Reg) (imm : BitVec 32)
  | moviL (h : Hdr) (t : IType) (d : Reg) (imm : BitVec 64)
  | selB (h : Hdr) (t : IType) (d a b : Reg) (ps : Pred) (pneg : Bool)
  | selI (h : Hdr) (t : IType) (d a : Reg) (imm : BitVec 32) (ps : Pred) (pneg : Bool)
  | iaddB (h : Hdr) (t : IType) (d a b : Reg)
  | iaddI (h : Hdr) (t : IType) (d a : Reg) (imm : BitVec 32)
  | iaddL (h : Hdr) (t : IType) (d a : Reg) (imm : BitVec 64)
  | isubB (h : Hdr) (t : IType) (d a b : Reg)
  | isubI (h : Hdr) (t : IType) (d a : Reg) (imm : BitVec 32)
  | isubL (h : Hdr) (t : IType) (d a : Reg) (imm : BitVec 64)
  | iaddcB (h : Hdr) (t : IType) (d a b : Reg) (cinp : Pred) (cinen : Bool) (coutp : Pred)
  | iaddcI (h : Hdr) (t : IType) (d a : Reg) (imm : BitVec 32) (cinp : Pred) (cinen : Bool) (coutp : Pred)
  | imulB (h : Hdr) (t : IType) (m : MulMode) (d a b : Reg)
  | imulI (h : Hdr) (t : IType) (m : MulMode) (d a : Reg) (imm : BitVec 32)
  | imulL (h : Hdr) (t : IType) (m : MulMode) (d a : Reg) (imm : BitVec 64)
  | imad (h : Hdr) (t : IType) (m : MulMode) (d a b c : Reg)
  | idivB (h : Hdr) (t : IType) (d a b : Reg)
  | idivI (h : Hdr) (t : IType) (d a : Reg) (imm : BitVec 32)
  | iremB (h : Hdr) (t : IType) (d a b : Reg)
  | iremI (h : Hdr) (t : IType) (d a : Reg) (imm : BitVec 32)
  | iminB (h : Hdr) (t : IType) (d a b : Reg)
  | iminI (h : Hdr) (t : IType) (d a : Reg) (imm : BitVec 32)
  | imaxB (h : Hdr) (t : IType) (d a b : Reg)
  | imaxI (h : Hdr) (t : IType) (d a : Reg) (imm : BitVec 32)
  | iabs (h : Hdr) (t : IType) (d a : Reg)
  | ineg (h : Hdr) (t : IType) (d a : Reg)
  | isad (h : Hdr) (t : IType) (d a b c : Reg)
  | idot4 (h : Hdr) (asgn bsgn : Bool) (d a b c : Reg)
  | icmpB (h : Hdr) (t : IType) (cond : Cond) (pd pc : Pred) (a b : Reg)
  | icmpI (h : Hdr) (t : IType) (cond : Cond) (pd pc : Pred) (a : Reg) (imm : BitVec 32)
  | icmpL (h : Hdr) (t : IType) (cond : Cond) (pd pc : Pred) (a : Reg) (imm : BitVec 64)
  | andB (h : Hdr) (t : IType) (d a b : Reg)
  | andI (h : Hdr) (t : IType) (d a : Reg) (imm : BitVec 32)
  | andL (h : Hdr) (t : IType) (d a : Reg) (imm : BitVec 64)
  | orB (h : Hdr) (t : IType) (d a b : Reg)
  | orI (h : Hdr) (t : IType) (d a : Reg) (imm : BitVec 32)
  | orL (h : Hdr) (t : IType) (d a : Reg) (imm : BitVec 64)
  | xorB (h : Hdr) (t : IType) (d a b : Reg)
  | xorI (h : Hdr) (t : IType) (d a : Reg) (imm : BitVec 32)
  | xorL (h : Hdr) (t : IType) (d a : Reg) (imm : BitVec 64)
  | not (h : Hdr) (t : IType) (d a : Reg)
  | lut3 (h : Hdr) (t : IType) (tt : BitVec 8) (d a b c : Reg)
  | shlB (h : Hdr) (t : IType) (wrap : Bool) (d a s : Reg)
  | shlI (h : Hdr) (t : IType) (wrap : Bool) (d a : Reg) (imm : BitVec 32)
  | shrB (h : Hdr) (t : IType) (wrap : Bool) (d a s : Reg)
  | shrI (h : Hdr) (t : IType) (wrap : Bool) (d a : Reg) (imm : BitVec 32)
  | sarB (h : Hdr) (t : IType) (wrap : Bool) (d a s : Reg)
  | sarI (h : Hdr) (t : IType) (wrap : Bool) (d a : Reg) (imm : BitVec 32)
  | fshl (h : Hdr) (t : IType) (d a b s : Reg)
  | fshr (h : Hdr) (t : IType) (d a b s : Reg)
  | popc (h : Hdr) (t : IType) (d a : Reg)
  | clz (h : Hdr) (t : IType) (d a : Reg)
  | ctz (h : Hdr) (t : IType) (d a : Reg)
  | brev (h : Hdr) (t : IType) (d a : Reg)
  | bfx (h : Hdr) (t : IType) (d a pos len : Reg)
  | bfi (h : Hdr) (t : IType) (d a b ctl : Reg)
  | bpermB (h : Hdr) (d a sel : Reg)
  | bpermI (h : Hdr) (d a : Reg) (imm : BitVec 32)
  | plut (h : Hdr) (pd pa pb pc : Pred) (tt : BitVec 8)
  | p2v (h : Hdr) (d : Reg)
  | v2p (h : Hdr) (a : Reg) (mask : BitVec 7)
  -- class 1 (R114-R125)
  | faddB (h : Hdr) (t : FType) (r : Rnd) (ftz : Bool) (d a b : Reg)
  | faddI (h : Hdr) (t : FType) (r : Rnd) (ftz : Bool) (d a : Reg) (imm : BitVec 32)
  | faddL (h : Hdr) (t : FType) (r : Rnd) (ftz : Bool) (d a : Reg) (imm : BitVec 64)
  | fsubB (h : Hdr) (t : FType) (r : Rnd) (ftz : Bool) (d a b : Reg)
  | fsubI (h : Hdr) (t : FType) (r : Rnd) (ftz : Bool) (d a : Reg) (imm : BitVec 32)
  | fsubL (h : Hdr) (t : FType) (r : Rnd) (ftz : Bool) (d a : Reg) (imm : BitVec 64)
  | fmulB (h : Hdr) (t : FType) (r : Rnd) (ftz : Bool) (d a b : Reg)
  | fmulI (h : Hdr) (t : FType) (r : Rnd) (ftz : Bool) (d a : Reg) (imm : BitVec 32)
  | fmulL (h : Hdr) (t : FType) (r : Rnd) (ftz : Bool) (d a : Reg) (imm : BitVec 64)
  | ffma (h : Hdr) (t : FType) (r : Rnd) (ftz : Bool) (d a b c : Reg)
  | fminB (h : Hdr) (t : FType) (ftz : Bool) (d a b : Reg)
  | fminI (h : Hdr) (t : FType) (ftz : Bool) (d a : Reg) (imm : BitVec 32)
  | fmaxB (h : Hdr) (t : FType) (ftz : Bool) (d a b : Reg)
  | fmaxI (h : Hdr) (t : FType) (ftz : Bool) (d a : Reg) (imm : BitVec 32)
  | fcmpB (h : Hdr) (t : FType) (cond : FCond) (pd pc : Pred) (a b : Reg)
  | fcmpI (h : Hdr) (t : FType) (cond : FCond) (pd pc : Pred) (a : Reg) (imm : BitVec 32)
  | fdivB (h : Hdr) (t : FType) (r : Rnd) (ftz : Bool) (d a b : Reg)
  | fdivI (h : Hdr) (t : FType) (r : Rnd) (ftz : Bool) (d a : Reg) (imm : BitVec 32)
  | fsqrt (h : Hdr) (t : FType) (r : Rnd) (ftz : Bool) (d a : Reg)
  | frcp (h : Hdr) (t : FType) (r : Rnd) (ftz cr : Bool) (d a : Reg)
  | frsq (h : Hdr) (t : FType) (ftz : Bool) (d a : Reg)
  | fex2 (h : Hdr) (t : FType) (ftz : Bool) (d a : Reg)
  | flg2 (h : Hdr) (t : FType) (ftz : Bool) (d a : Reg)
  | fsin (h : Hdr) (t : FType) (ftz : Bool) (d a : Reg)
  | fcos (h : Hdr) (t : FType) (ftz : Bool) (d a : Reg)
  | frnd (h : Hdr) (t : FType) (r : Rnd) (ftz : Bool) (d a : Reg)
  | fcvt (h : Hdr) (sf df : Fmt) (r : Rnd) (ftz sat : Bool) (d a : Reg)
  | icvt (h : Hdr) (it : IType) (df : Fmt) (r : Rnd) (d a : Reg)
  | fcvi (h : Hdr) (it : IType) (sf : Fmt) (r : Rnd) (ftz : Bool) (d a : Reg)
  | fclass (h : Hdr) (t : FType) (ftz : Bool) (d a : Reg)
  | fscaleB (h : Hdr) (t : FType) (r : Rnd) (ftz : Bool) (d a b : Reg)
  | fscaleI (h : Hdr) (t : FType) (r : Rnd) (ftz : Bool) (d a : Reg) (imm : BitVec 32)
  | fdot2 (h : Hdr) (t : FType) (r : Rnd) (ftz : Bool) (d a b c : Reg)
  -- class 2 (R128-R140, R397)
  | bra (h : Hdr) (imm : BitVec 32)
  | brx (h : Hdr) (a : Reg)
  | call (h : Hdr) (l : Reg) (imm : BitVec 32)
  | callx (h : Hdr) (l a : Reg)
  | ret (h : Hdr) (a : Reg)
  | meet (h : Hdr) (clr : Bool) (imm : BitVec 32)
  | exit (h : Hdr)
  | trapB (h : Hdr) (a : Reg)
  | trapI (h : Hdr) (imm : BitVec 32)
  | bkpt (h : Hdr)
  | yield (h : Hdr)
  | svc (h : Hdr) (sp : Pred) (nw : Fin 9) (d a : Reg)
  | getsr (h : Hdr) (sel : BitVec 8) (d : Reg)
  | setsr (h : Hdr) (sel : BitVec 8) (a : Reg)
  | emret (h : Hdr) (m : EmMode)
  | fence (h : Hdr) (ord : MOrd) (scope : Scope)
  | napB (h : Hdr) (a : Reg)
  | napI (h : Hdr) (imm : BitVec 32)
  -- class 3 (R141-R149, R264-R279)
  | ldM (h : Hdr) (m : MemOp) (d : Reg)
  | ldN (h : Hdr) (m : MemOp) (rot : Fin 8) (d : Reg)
  | stM (h : Hdr) (m : MemOp) (d : Reg)
  | stN (h : Hdr) (m : MemOp) (rot : Fin 8) (d : Reg)
  | ldc (h : Hdr) (m : MemOp) (d : Reg)
  | stc (h : Hdr) (m : MemOp) (d : Reg)
  | pref (h : Hdr) (hint : PrefHint) (m : HintOp)
  | resid (h : Hdr) (hint : ResidHint) (m : HintOp)
  | cflush (h : Hdr) (op : FlushOp) (m : HintOp)
  | atom (h : Hdr) (m : MemOp) (aop : AOp) (comb hold reassoc ar : Bool) (d a : Reg)
  | atomx (h : Hdr) (m : MemOp) (ar : Bool) (d cmp nv : Reg)
  | red (h : Hdr) (m : MemOp) (aop : AOp) (comb hold reassoc : Bool) (a : Reg)
  | waitc (h : Hdr) (m : MemOp) (cmp : Cond) (sgn : Bool) (d c : Reg)
  | pwait (h : Hdr) (m : HintOp) (len : Reg)
  | bind (h : Hdr) (d so : Reg) (slot : Fin 16) (r : Reg)
  | bindUn (h : Hdr) (d so : Reg) (slot : Fin 16)
  | acq (h : Hdr) (ex : Bool) (d so : Reg)
  | rel (h : Hdr) (d so : Reg)
  -- class 4 (R152-R161, R362-R364, R403, R438, R317)
  | cget (h : Hdr) (f : CField) (d c : Reg)
  | csetaB (h : Hdr) (d c a : Reg)
  | csetaI (h : Hdr) (d c : Reg) (imm : BitVec 32)
  | csetaL (h : Hdr) (d c : Reg) (imm : BitVec 64)
  | cincB (h : Hdr) (d c a : Reg)
  | cincI (h : Hdr) (d c : Reg) (imm : BitVec 32)
  | cincL (h : Hdr) (d c : Reg) (imm : BitVec 64)
  | cbndB (h : Hdr) (exact : Bool) (d c len : Reg)
  | cbndI (h : Hdr) (exact : Bool) (d c : Reg) (imm : BitVec 32)
  | cbndL (h : Hdr) (exact : Bool) (d c : Reg) (imm : BitVec 64)
  | candpB (h : Hdr) (d c m : Reg)
  | candpI (h : Hdr) (d c : Reg) (imm : BitVec 32)
  | cseal (h : Hdr) (d c s : Reg)
  | cunseal (h : Hdr) (d c s : Reg)
  | ctest (h : Hdr) (cond : CCond) (pd : Pred) (c c2 : Reg)
  | cmov (h : Hdr) (d c : Reg)
  | cclr (h : Hdr) (d c : Reg)
  | ceq (h : Hdr) (pd : Pred) (c c2 : Reg)
  | objRetype (h : Hdr) (o : ObjOps)
  | objConfigUntypedReset (h : Hdr) (o : ObjOps)
  | objConfigEndpointMint (h : Hdr) (o : ObjOps)
  | objConfigSenderMask (h : Hdr) (o : ObjOps)
  | objConfigNotificationMint (h : Hdr) (o : ObjOps)
  | objConfigSchedcontext (h : Hdr) (o : ObjOps)
  | objConfigOdt (h : Hdr) (o : ObjOps)
  | objConfigHandler (h : Hdr) (o : ObjOps)
  | objConfigFaultEndpoint (h : Hdr) (o : ObjOps)
  | objConfigServiceEndpoint (h : Hdr) (o : ObjOps)
  | objConfigSaveArea (h : Hdr) (o : ObjOps)
  | objConfigAddressSpace (h : Hdr) (o : ObjOps)
  | objConfigFormatSlot (h : Hdr) (o : ObjOps)
  | objConfigWcAge (h : Hdr) (o : ObjOps)
  | objConfigWatchdog (h : Hdr) (o : ObjOps)
  | objConfigKeyslot (h : Hdr) (o : ObjOps)
  | objConfigLog (h : Hdr) (o : ObjOps)
  | objConfigSealAuthority (h : Hdr) (o : ObjOps)
  | objConfigQueuePair (h : Hdr) (o : ObjOps)
  | objConfigQueueFile (h : Hdr) (o : ObjOps)
  | objConfigCollGroup (h : Hdr) (o : ObjOps)
  | objConfigCollPairKey (h : Hdr) (o : ObjOps)
  | objConfigFilemapSource (h : Hdr) (o : ObjOps)
  | objMap (h : Hdr) (o : ObjOps)
  | objUnmap (h : Hdr) (o : ObjOps)
  | objBind (h : Hdr) (o : ObjOps)
  | objSuspend (h : Hdr) (o : ObjOps)
  | objResume (h : Hdr) (o : ObjOps)
  | objTeardown (h : Hdr) (o : ObjOps)
  | objStatus (h : Hdr) (o : ObjOps)
  | objFreeze (h : Hdr) (o : ObjOps)
  | objAttest (h : Hdr) (o : ObjOps)
  | faultactResume (h : Hdr) (o : ObjOps)
  | faultactSkip (h : Hdr) (o : ObjOps)
  | faultactRetry (h : Hdr) (o : ObjOps)
  | faultactKill (h : Hdr) (o : ObjOps)
  | faultactTeardown (h : Hdr) (o : ObjOps)
  | faultactSave (h : Hdr) (o : ObjOps)
  | send (h : Hdr) (m : MsgOps) (nb : Bool) (nbp : Pred)
  | recv (h : Hdr) (m : MsgOps) (nb : Bool) (nbp : Pred) (info rpl : Reg)
  | ecall (h : Hdr) (m : MsgOps) (info : Reg) (rnw : Fin 9) (rnc : Fin 3)
  | ereply (h : Hdr) (m : MsgOps)
  | signalB (h : Hdr) (d ntf bits : Reg)
  | signalI (h : Hdr) (d ntf : Reg) (imm : BitVec 32)
  | waitn (h : Hdr) (nb : Bool) (d ntf wd : Reg)
  | revoke (h : Hdr) (d r : Reg) (q : Fin 16)
  | exportMake (h : Hdr) (ps : Pred) (d x : Reg) (mask : Option Reg)
  | exportDrop (h : Hdr) (ps : Pred) (d x : Reg) (mask : Option Reg)
  | qbind (h : Hdr) (role : QRole) (d : Reg) (q : Fin 16) (cq : Reg)
  | qbindUnb (h : Hdr) (d : Reg) (q : Fin 16)
  -- class 5 (R187-R198); `m` is the mask register code, k or 0x3FF (R185)
  | shfl (h : Hdr) (mode : ShflMode) (w64 : Bool) (seg : Fin 6) (pv : Pred) (d a b c m : Reg)
  | voteB (h : Hdr) (mode : VoteMode) (pd ps : Pred) (pneg : Bool) (d m : Reg)
  | voteI (h : Hdr) (mode : VoteMode) (pd ps : Pred) (pneg : Bool) (d : Reg) (mask : BitVec 32)
  | rdfirstB (h : Hdr) (w : RdWidth) (d a m : Reg)
  | rdfirstI (h : Hdr) (w : RdWidth) (d a : Reg) (mask : BitVec 32)
  | lrankB (h : Hdr) (sel : RankSel) (d m : Reg)
  | lrankI (h : Hdr) (sel : RankSel) (d : Reg) (mask : BitVec 32)
  | matchB (h : Hdr) (w64 : Bool) (d a m : Reg)
  | matchI (h : Hdr) (w64 : Bool) (d a : Reg) (mask : BitVec 32)
  | reduxB (h : Hdr) (op : RedOp) (t : RType) (d a m : Reg)
  | reduxI (h : Hdr) (op : RedOp) (t : RType) (d a : Reg) (mask : BitVec 32)
  | scanB (h : Hdr) (op : RedOp) (t : RType) (excl : Bool) (d a m : Reg)
  | scanI (h : Hdr) (op : RedOp) (t : RType) (excl : Bool) (d a : Reg) (mask : BitVec 32)
  | gatherB (h : Hdr) (d m : Reg)
  | gatherI (h : Hdr) (d : Reg) (mask : BitVec 32)
  | barB (h : Hdr) (mode : BarMode) (bid : Fin 16) (n m : Reg)
  | barI (h : Hdr) (mode : BarMode) (bid : Fin 16) (n : Reg) (mask : BitVec 32)
  | hbarB (h : Hdr) (mode : BarMode) (bid : Fin 4) (n m : Reg)
  | hbarI (h : Hdr) (mode : BarMode) (bid : Fin 4) (n : Reg) (mask : BitVec 32)
  | launch (h : Hdr) (s lr args off : Reg)
  | launchOne (h : Hdr) (s lr args off m : Reg)
  | qfence (h : Hdr) (mask : BitVec 16)
  -- class 6 (R290-R306, R332, R443)
  | mma (h : Hdr) (sr : Semiring) (slot : Fin 8) (acc : Fin 8) (sb : Fin 2) (src : ASrc) (init : Bool) (sc : Reg)
  | mwld (h : Hdr) (slot : Fin 8) (sb : Fin 2) (src : WSrc)
  | mld (h : Hdr) (slot : Fin 8) (acc : Fin 8) (loc : MLoc)
  | mst (h : Hdr) (df : Fmt) (slot : Fin 8) (acc : Fin 8) (loc : MLoc)
  | mzero (h : Hdr) (tiles : BitVec 8) (bufs : BitVec 2)
  | mrow (h : Hdr) (op : RowOp) (slot : Fin 8) (acc : Fin 8) (d n c0 : Reg)
  | mscale (h : Hdr) (slot : Fin 8) (acc : Fin 8) (s n c0 : Reg)
  | msave (h : Hdr) (m : HintOp) (strm : Bool)
  | mload (h : Hdr) (m : HintOp) (strm : Bool)
  | mstat (h : Hdr) (sel : MStatSel) (idx : Fin 8) (d : Reg)
  | mcvt (h : Hdr) (slot : Fin 8) (accs accd : Fin 8) (dk : DKind)
  | tcopy (h : Hdr) (d blk : Reg) (q : Fin 16)
  | coll (h : Hdr) (op : CollOp) (rop : CollRop) (t : CollType) (d src dst : Reg) (q : Fin 16) (root : BitVec 12) (count : BitVec 32)
  /-- A word of an unassigned slot (R53, R57): its 128 bits, zero above its length. -/
  | unassignedOpcode (h : Hdr) (raw : BitVec 128)
  -- events of threads, groups and the dispatcher
  /-- Results of a pending long-latency instruction land (R49, R50): thread, index of the pending instruction, and which of its outstanding writes. -/
  | longLatencyComplete (gid tid pend : Nat) (which : BitVec 16)
  | napExpire (gid tid : Nat)
  | gatherMismatchDetect (gid clan : Nat)
  | watchdogExpire (gid tid : Nat)
  | launchDequeue (sched : Nat)
  /-- The dispatcher places the next unit of a queue on a hamlet, its groups on the given cores. -/
  | unitPlace (sched hamlet : Nat) (cores : List Nat)
  | startTimeReached (uid : Nat)
  | budgetTick (sched : Nat)
  | periodRefill (sched : Nat)
  | serviceCoreRotate (core : Nat)
  | odtChangeApply (ctx core : Nat)
  | groupSave (uid : Nat)
  | saveSlotWrite (uid : Nat)
  | groupRestore (uid hamlet : Nat) (cores : List Nat)
  | queueBatchEnter (queue : Nat)
  -- events of the engines
  | carterTakeCopycmd (queue : Nat)
  | carterElementWrite (req : Nat)
  | carterCompletion (req : Nat)
  /-- An NVMe page read returns its 131,072 bytes (missing bytes are zero), or fails with a status code type and a status code. -/
  | wellReadComplete (filemap page : Nat) (data : Option (List Byte)) (sct sc : BitVec 8)
  | wellFetch (queue : Nat)
  | wellWriteback (queue : Nat)
  | wellEvict (queue : Nat)
  | wellFlush (queue : Nat)
  | wellTrim (queue : Nat)
  /-- A Well command's NVMe command completes: status code type and status code, both 0 on success. -/
  | wellNvmeComplete (cmd : Nat) (sct sc : BitVec 8)
  | cisternArrive (req : Nat)
  | cisternHoldExpire (req : Nat)
  | cisternSend (req : Nat)
  | atomicHomePerform (req : Nat)
  | cisternReplySplit (req : Nat)
  | gleanerTakeEntry (queue : Nat)
  | sweepStart
  | sweepEnd
  | remoteRequestArrive (r : RemoteReq)
  | remoteResponseTimeout (req : Nat)
  | wcAgeExpire (core : Nat) (svc : Bool) (entry : Nat)
  | replWriteStamp
  | replReplicaApply (die : Fin 7)
  /-- A round ends with the contributions of the other ranks as the fabric brings them. -/
  | collRoundComplete (queue : Nat) (others : List (Nat × Contribution))
  -- events of PCIe, the fabric and the device as a whole
  | inboundPcieRead (port : Nat) (addr : DWord) (len : Nat)
  | inboundPcieWrite (port : Nat) (addr : DWord) (data : List Byte)
  | msiXInterrupt (port vector : Nat)
  | ioCompletionTimeout (acc : Nat)
  | fabricPacketReceive (port : Fin 18) (prot authentic : Bool) (p : Payload)
  /-- One sample: power in W, then (per C-die) rail mV and A, die temperatures in 0.1 C, HBM temperatures, state and errors of every fabric and Ethernet port. -/
  | telemetrySample (power : Nat) (rails : List (Nat × Nat)) (temps hbm : List Nat) (links : List (Bool × Nat))
  | throttleStepDown
  | throttleStepUp
  | thermalLimit (die : Fin 7)
  | trngHealthFail
  | fatalError (src : FatalSource)
  | coldReset (plan : BootPlan)
  | warmReset (plan : BootPlan)
  -- host and management
  /-- A handshake: the world the certificate names and whether authentication succeeds in both directions. -/
  | sessionConnect (port : Fin 4) (world : BitVec 4) (authentic : Bool)
  | cert (sess : Nat) (tag : DWord)
  | context (sess : Nat) (tag : DWord)
  | load (sess : Nat) (tag : DWord) (ctx frame : DWord) (off : Nat) (data : List Byte)
  /-- The 256 record bytes, with the granules at which named handles supply a capability. -/
  | hostLaunch (sess : Nat) (tag : DWord) (bytes : List Byte) (handles : List (Nat × DWord))
  | copy (sess : Nat) (tag : DWord) (queue ctx block : DWord)
  | read (sess : Nat) (tag : DWord) (ctx frame : DWord) (off len : Nat)
  | subscribe (sess : Nat) (tag : DWord) (ep : DWord)
  | attest (sess : Nat) (tag : DWord) (ctx buf : DWord)
  | hostReservedCommand (sess : Nat) (tag : DWord) (code : BitVec 8)
  | mgmtReadTelemetry (i3c : Bool)
  | mgmtReadAlmanac
  | mgmtSetPowerCap (watts : Nat)
  /-- An image with its version and whether both signatures verify. -/
  | mgmtStageFirmware (version : Nat) (digest : BitVec 384) (sigOk : Bool)
  | trngStartUpTestsPass
  /-- A package, and the identifiers of the collective groups that it was a member of. -/
  | packageLeavesFabric (pkg : BitVec 12) (groups : List Nat)
  | pcieLinkDown (port : Nat)
  deriving DecidableEq, Repr, Inhabited

end Sys2Proof
end

