-- ==== Sys2Proof/WellFormed.lean ====
section
/-! DEFINITION. Which instructions are legal encodings as far as the word alone tells (R16, R17, R42-R48, R56 and the descriptions): the register operands of every instruction with the kinds it allows (`operands`), the modifier rules (`modReason`), and `WellFormed`. The reasons are the codes of R392. -/

namespace Sys2Proof

/-- Bits of an integer type (R87). -/
def IType.bits : IType → Nat
  | .b8 | .i8 | .n8 => 8
  | .b16 | .i16 | .n16 => 16
  | .b32 | .i32 | .n32 => 32
  | .b64 | .i64 | .n64 => 64

/-- The .i types (R87). -/
def IType.signed : IType → Bool
  | .i8 | .i16 | .i32 | .i64 => true
  | _ => false

/-- The .n types. -/
def IType.unsignedN : IType → Bool
  | .n8 | .n16 | .n32 | .n64 => true
  | _ => false

/-- The .b types. -/
def IType.plainBits : IType → Bool
  | .b8 | .b16 | .b32 | .b64 => true
  | _ => false

def IType.is64 (t : IType) : Bool := t.bits == 64
def IType.is3264 (t : IType) : Bool := t.bits == 32 || t.bits == 64

/-- A class 1 type held in a pair (R88). -/
def FType.is64 : FType → Bool
  | .f64 => true
  | _ => false

/-- The packed types (R70). -/
def FType.packed : FType → Bool
  | .bf16x2 | .f16x2 => true
  | _ => false

def FType.is16 : FType → Bool
  | .bf16 | .f16 => true
  | _ => false

def RType.is64 : RType → Bool
  | .i64 | .n64 | .f64 | .b64 => true
  | _ => false

/-- The register kinds a description may allow (R393). -/
inductive Kind where
  | v | k | q | c | kc | z
  deriving DecidableEq, Repr

/-- One register operand: the field's register, the kinds the description allows, whether it is a 64-bit pair, how many consecutive registers it names and from what multiple, whether it is a destination, and whether it is the index of a memory operand (R395). -/
structure OpUse where
  r : Reg
  kinds : List Kind
  wide : Bool := false
  count : Nat := 1
  align : Nat := 1
  dst : Bool := false
  idx : Bool := false
  deriving DecidableEq, Repr

/-- An integer source (R87-R89). -/
def OpUse.src (r : Reg) (wide : Bool := false) : OpUse := { r := r, kinds := [.v, .k, .z], wide := wide }
/-- A destination written per thread, or once under U = 1 (R17, R48). -/
def OpUse.dest (h : Hdr) (r : Reg) (wide : Bool := false) : OpUse :=
  { r := r, kinds := if h.u then [.k, .z] else [.v, .z], wide := wide, dst := true }
/-- A status or word destination that R177 lets a U = 0 instruction write in k. -/
def OpUse.status (r : Reg) : OpUse := { r := r, kinds := [.v, .k], dst := true }
/-- A uniform destination of a gathering instruction (R186). -/
def OpUse.uni (r : Reg) (wide : Bool := false) : OpUse := { r := r, kinds := [.v, .k, .z], wide := wide, dst := true }
/-- A 32-bit operand that must be a v or k register. -/
def OpUse.vk (r : Reg) (wide : Bool := false) : OpUse := { r := r, kinds := [.v, .k], wide := wide }
/-- A capability source. -/
def OpUse.cap (r : Reg) : OpUse := { r := r, kinds := [.c, .kc] }
/-- A capability destination (R151). -/
def OpUse.capDest (h : Hdr) (r : Reg) : OpUse := { r := r, kinds := if h.u then [.kc] else [.c], dst := true }
/-- A scalar operand of the uniform kinds (R287). -/
def OpUse.kz (r : Reg) : OpUse := { r := r, kinds := [.k, .z] }
/-- A capability that must be uniform (R287). -/
def OpUse.kcap (r : Reg) : OpUse := { r := r, kinds := [.kc] }
/-- A scratchpad descriptor: an even k pair (R231, R287). -/
def OpUse.desc (r : Reg) : OpUse := { r := r, kinds := [.k], wide := true }
/-- The first v register of a byte image (R285); how many follow is checked where the slot is known. -/
def OpUse.image (r : Reg) : OpUse := { r := r, kinds := [.v] }
/-- A range of word registers of a message or of OBJ (R159, R362). -/
def OpUse.words (r : Reg) (n : Nat) (dst : Bool) : List OpUse :=
  if n = 0 then [{ r := r, kinds := [.z] }] else [{ r := r, kinds := [.v, .k], count := n, dst := dst }]
/-- A range of capability registers of a message (R362). -/
def OpUse.caps (r : Reg) (n : Nat) (dst : Bool) : List OpUse :=
  if n = 0 then [{ r := r, kinds := [.z] }] else [{ r := r, kinds := [.c, .kc], count := n, dst := dst }]

/-- Capability and index of a memory operand (R46). -/
def addrUses (cap idx : Reg) : List OpUse := [.cap cap, { r := idx, kinds := [.v, .k, .z], idx := true }]

/-- The 128-bit side of a queue MOV (R92): a capability, or four v registers from a multiple of 4. -/
def movSide (h : Hdr) (t : MovW) (r : Reg) (dst : Bool) : OpUse :=
  match t with
  | .b128 =>
    match r with
    | .c _ | .kc _ | .w 12 | .w 13 => if dst then .capDest h r else .cap r
    | _ => { r := r, kinds := [.v], count := 4, align := 4, dst := dst }
  | w => if dst then .dest h r (w == .b64) else .src r (w == .b64)

/-- The data register of LD and ST (R141). -/
def dataUse (h : Hdr) (t : AType) (r : Reg) (dst : Bool) : OpUse :=
  -- under U = 1 a source may also be a w register, which stands for v (R395)
  let ks : List Kind := if h.u then (if dst then [.k, .z] else [.v, .k, .z]) else [.v, .z]
  match t with
  | .b64 => { r := r, kinds := ks, wide := true, dst := dst }
  | .b128 => { r := r, kinds := ks, count := 4, align := 4, dst := dst }
  | _ => { r := r, kinds := ks, dst := dst }

/-- The fields of CGET that are 64 bits wide (R152). -/
def CField.wide : CField → Bool
  | .addr | .base | .len | .off | .lo | .hi | .top => true
  | _ => false

/-- The special registers of 64 bits (R22). -/
def srWide (sel : BitVec 8) : Bool :=
  sel = 0x0D || sel = 0x0F || sel = 0x15 || sel = 0x16 || sel = 0x18

/-- The shared fields of an instruction; an event has none. -/
def Instr.hdr? : Instr → Option Hdr
  | .nop h | .mov h .. | .movPush h .. | .movPop h .. | .moviI h .. | .moviL h .. | .selB h .. | .selI h ..
  | .iaddB h .. | .iaddI h .. | .iaddL h .. | .isubB h .. | .isubI h .. | .isubL h .. | .iaddcB h .. | .iaddcI h ..
  | .imulB h .. | .imulI h .. | .imulL h .. | .imad h .. | .idivB h .. | .idivI h .. | .iremB h .. | .iremI h ..
  | .iminB h .. | .iminI h .. | .imaxB h .. | .imaxI h .. | .iabs h .. | .ineg h .. | .isad h .. | .idot4 h ..
  | .icmpB h .. | .icmpI h .. | .icmpL h .. | .andB h .. | .andI h .. | .andL h .. | .orB h .. | .orI h .. | .orL h ..
  | .xorB h .. | .xorI h .. | .xorL h .. | .not h .. | .lut3 h .. | .shlB h .. | .shlI h .. | .shrB h .. | .shrI h ..
  | .sarB h .. | .sarI h .. | .fshl h .. | .fshr h .. | .popc h .. | .clz h .. | .ctz h .. | .brev h .. | .bfx h ..
  | .bfi h .. | .bpermB h .. | .bpermI h .. | .plut h .. | .p2v h .. | .v2p h ..
  | .faddB h .. | .faddI h .. | .faddL h .. | .fsubB h .. | .fsubI h .. | .fsubL h .. | .fmulB h .. | .fmulI h ..
  | .fmulL h .. | .ffma h .. | .fminB h .. | .fminI h .. | .fmaxB h .. | .fmaxI h .. | .fcmpB h .. | .fcmpI h ..
  | .fdivB h .. | .fdivI h .. | .fsqrt h .. | .frcp h .. | .frsq h .. | .fex2 h .. | .flg2 h .. | .fsin h .. | .fcos h ..
  | .frnd h .. | .fcvt h .. | .icvt h .. | .fcvi h .. | .fclass h .. | .fscaleB h .. | .fscaleI h .. | .fdot2 h ..
  | .bra h .. | .brx h .. | .call h .. | .callx h .. | .ret h .. | .meet h .. | .exit h | .trapB h .. | .trapI h ..
  | .bkpt h | .yield h | .svc h .. | .getsr h .. | .setsr h .. | .emret h .. | .fence h .. | .napB h .. | .napI h ..
  | .ldM h .. | .ldN h .. | .stM h .. | .stN h .. | .ldc h .. | .stc h .. | .pref h .. | .resid h .. | .cflush h ..
  | .atom h .. | .atomx h .. | .red h .. | .waitc h .. | .pwait h .. | .bind h .. | .bindUn h .. | .acq h .. | .rel h ..
  | .cget h .. | .csetaB h .. | .csetaI h .. | .csetaL h .. | .cincB h .. | .cincI h .. | .cincL h .. | .cbndB h ..
  | .cbndI h .. | .cbndL h .. | .candpB h .. | .candpI h .. | .cseal h .. | .cunseal h .. | .ctest h .. | .cmov h ..
  | .cclr h .. | .ceq h .. | .objRetype h .. | .objConfigUntypedReset h .. | .objConfigEndpointMint h ..
  | .objConfigSenderMask h .. | .objConfigNotificationMint h .. | .objConfigSchedcontext h .. | .objConfigOdt h ..
  | .objConfigHandler h .. | .objConfigFaultEndpoint h .. | .objConfigServiceEndpoint h .. | .objConfigSaveArea h ..
  | .objConfigAddressSpace h .. | .objConfigFormatSlot h .. | .objConfigWcAge h .. | .objConfigWatchdog h ..
  | .objConfigKeyslot h .. | .objConfigLog h .. | .objConfigSealAuthority h .. | .objConfigQueuePair h ..
  | .objConfigQueueFile h .. | .objConfigCollGroup h .. | .objConfigCollPairKey h .. | .objConfigFilemapSource h ..
  | .objMap h .. | .objUnmap h .. | .objBind h .. | .objSuspend h .. | .objResume h .. | .objTeardown h ..
  | .objStatus h .. | .objFreeze h .. | .objAttest h .. | .faultactResume h .. | .faultactSkip h .. | .faultactRetry h ..
  | .faultactKill h .. | .faultactTeardown h .. | .faultactSave h .. | .send h .. | .recv h .. | .ecall h .. | .ereply h ..
  | .signalB h .. | .signalI h .. | .waitn h .. | .revoke h .. | .exportMake h .. | .exportDrop h .. | .qbind h ..
  | .qbindUnb h .. | .shfl h .. | .voteB h .. | .voteI h .. | .rdfirstB h .. | .rdfirstI h .. | .lrankB h .. | .lrankI h ..
  | .matchB h .. | .matchI h .. | .reduxB h .. | .reduxI h .. | .scanB h .. | .scanI h .. | .gatherB h .. | .gatherI h ..
  | .barB h .. | .barI h .. | .hbarB h .. | .hbarI h .. | .launch h .. | .launchOne h .. | .qfence h ..
  | .mma h .. | .mwld h .. | .mld h .. | .mst h .. | .mzero h .. | .mrow h .. | .mscale h .. | .msave h .. | .mload h ..
  | .mstat h .. | .mcvt h .. | .tcopy h .. | .coll h .. | .unassignedOpcode h _ => some h
  | _ => none

/-- A row of the table that is an event, not an instruction. -/
def Instr.isEvent (i : Instr) : Bool := i.hdr?.isNone

/-- The row of the opcodes that the manual leaves unassigned (R53). -/
def Instr.isUnassigned (i : Instr) : Bool :=
  match i with
  | .unassignedOpcode .. => true
  | _ => false

/-- The OBJ operands, under every sub-operation (R159). -/
def objUses (o : ObjOps) : List OpUse :=
  [.status o.d, .cap o.obj] ++ OpUse.words o.args o.narg true ++ [{ r := o.cx, kinds := [.c, .kc, .z], dst := true }]

/-- The register operands of an instruction. -/
def Instr.operands : Instr → List OpUse
  | .nop _ => []
  | .mov h t d a => [.dest h d (t == .b64), .src a (t == .b64)]
  | .movPush h t _ a _ _ => [movSide h t a false]
  | .movPop h t d _ _ _ => [movSide h t d true]
  | .moviI h t d _ | .moviL h t d _ => [.dest h d t.is64]
  | .selB h t d a b _ _ => [.dest h d t.is64, .src a t.is64, .src b t.is64]
  | .selI h t d a _ _ _ => [.dest h d t.is64, .src a t.is64]
  | .iaddB h t d a b | .isubB h t d a b | .iaddcB h t d a b _ _ _ | .idivB h t d a b | .iremB h t d a b
  | .iminB h t d a b | .imaxB h t d a b | .andB h t d a b | .orB h t d a b | .xorB h t d a b =>
    [.dest h d t.is64, .src a t.is64, .src b t.is64]
  | .iaddI h t d a _ | .iaddL h t d a _ | .isubI h t d a _ | .isubL h t d a _ | .iaddcI h t d a _ _ _ _
  | .idivI h t d a _ | .iremI h t d a _ | .iminI h t d a _ | .imaxI h t d a _ | .andI h t d a _ | .andL h t d a _
  | .orI h t d a _ | .orL h t d a _ | .xorI h t d a _ | .xorL h t d a _ | .iabs h t d a | .ineg h t d a | .not h t d a =>
    [.dest h d t.is64, .src a t.is64]
  | .imulB h t m d a b => [.dest h d (t.is64 || m == .wide), .src a t.is64, .src b t.is64]
  | .imulI h t m d a _ | .imulL h t m d a _ => [.dest h d (t.is64 || m == .wide), .src a t.is64]
  | .imad h t m d a b c => [.dest h d (t.is64 || m == .wide), .src a t.is64, .src b t.is64, .src c (t.is64 || m == .wide)]
  | .isad h t d a b c | .lut3 h t _ d a b c => [.dest h d t.is64, .src a t.is64, .src b t.is64, .src c t.is64]
  | .idot4 h _ _ d a b c => [.dest h d, .src a, .src b, .src c]
  | .icmpB _ t _ _ _ a b => [.src a t.is64, .src b t.is64]
  | .icmpI _ t _ _ _ a _ | .icmpL _ t _ _ _ a _ => [.src a t.is64]
  | .shlB h t _ d a s | .shrB h t _ d a s | .sarB h t _ d a s => [.dest h d t.is64, .src a t.is64, .src s]
  | .shlI h t _ d a _ | .shrI h t _ d a _ | .sarI h t _ d a _ => [.dest h d t.is64, .src a t.is64]
  | .fshl h t d a b s | .fshr h t d a b s => [.dest h d t.is64, .src a t.is64, .src b t.is64, .src s]
  | .popc h t d a | .clz h t d a | .ctz h t d a => [.dest h d, .src a t.is64]
  | .brev h t d a => [.dest h d t.is64, .src a t.is64]
  | .bfx h t d a pos len => [.dest h d t.is64, .src a t.is64, .src pos, .src len]
  | .bfi h t d a b ctl => [.dest h d t.is64, .src a t.is64, .src b t.is64, .src ctl]
  | .bpermB h d a sel => [.dest h d, .src a true, .src sel]
  | .bpermI h d a _ => [.dest h d, .src a true]
  | .plut .. => []
  | .p2v h d => [.dest h d]
  | .v2p _ a _ => [.src a]
  | .faddB h t _ _ d a b | .fsubB h t _ _ d a b | .fmulB h t _ _ d a b | .fdivB h t _ _ d a b
  | .fminB h t _ d a b | .fmaxB h t _ d a b => [.dest h d t.is64, .src a t.is64, .src b t.is64]
  | .faddI h t _ _ d a _ | .faddL h t _ _ d a _ | .fsubI h t _ _ d a _ | .fsubL h t _ _ d a _ | .fmulI h t _ _ d a _
  | .fmulL h t _ _ d a _ | .fdivI h t _ _ d a _ | .fminI h t _ d a _ | .fmaxI h t _ d a _ | .fsqrt h t _ _ d a
  | .frcp h t _ _ _ d a | .frsq h t _ d a | .fex2 h t _ d a | .flg2 h t _ d a | .fsin h t _ d a | .fcos h t _ d a
  | .frnd h t _ _ d a | .fscaleI h t _ _ d a _ => [.dest h d t.is64, .src a t.is64]
  | .ffma h t _ _ d a b c => [.dest h d t.is64, .src a t.is64, .src b t.is64, .src c t.is64]
  | .fcmpB _ t _ _ _ a b => [.src a t.is64, .src b t.is64]
  | .fcmpI _ t _ _ _ a _ => [.src a t.is64]
  | .fcvt h sf df _ _ _ d a => [.dest h d (df == .fp64), .src a (sf == .fp64)]
  | .icvt h it df _ d a => [.dest h d (df == .fp64), .src a it.is64]
  | .fcvi h it sf _ _ d a => [.dest h d it.is64, .src a (sf == .fp64)]
  | .fclass h t _ d a => [.dest h d, .src a t.is64]
  | .fscaleB h t _ _ d a b => [.dest h d t.is64, .src a t.is64, .src b]
  | .fdot2 h _ _ _ d a b c => [.dest h d, .src a, .src b, .src c]
  | .bra .. | .meet .. | .exit _ | .trapI .. | .bkpt _ | .yield _ | .fence .. | .napI .. => []
  | .brx _ a => [match a with | .c _ | .kc _ | .w 12 | .w 13 => .cap a | _ => .vk a true]
  | .call _ l _ => [{ r := l, kinds := [.c], dst := true }]
  | .callx _ l a =>
    [{ r := l, kinds := [.c], dst := true }, match a with | .c _ | .kc _ | .w 12 | .w 13 => .cap a | _ => .vk a true]
  | .ret _ a => [.cap a]
  | .trapB _ a | .napB _ a | .setsr _ _ a => [.vk a]
  | .svc _ _ nw d a => [{ r := d, kinds := [.v], dst := true }, { r := a, kinds := [.v], count := nw }]
  | .getsr h sel d => [.dest h d (srWide sel)]
  | .emret _ m => match m with | .to a => [.cap a] | _ => []
  | .ldM h m d | .ldN h m _ d => dataUse h m.ty d true :: addrUses m.cap m.idx
  | .stM h m d | .stN h m _ d => dataUse h m.ty d false :: addrUses m.cap m.idx
  | .ldc h m d => .capDest h d :: addrUses m.cap m.idx
  | .stc _ m d => .cap d :: addrUses m.cap m.idx
  | .pref _ _ m | .resid _ _ m | .cflush _ _ m => addrUses m.cap m.idx
  | .atom h m _ _ _ _ _ d a => .dest h d (m.ty == .b64) :: .src a (m.ty == .b64) :: addrUses m.cap m.idx
  | .atomx h m _ d cmp nv =>
    .dest h d (m.ty == .b64) :: .src cmp (m.ty == .b64) :: .src nv (m.ty == .b64) :: addrUses m.cap m.idx
  | .red _ m _ _ _ _ a => .src a (m.ty == .b64) :: addrUses m.cap m.idx
  | .waitc h m _ _ d c => .dest h d (m.ty == .b64) :: .src c (m.ty == .b64) :: addrUses m.cap m.idx
  | .pwait _ m len => .src len :: addrUses m.cap m.idx
  | .bind _ d so _ r => [.status d, .cap so, .cap r]
  | .bindUn _ d so _ => [.status d, .cap so]
  | .acq _ _ d so | .rel _ d so => [.status d, .cap so]
  | .cget h f d c => [.dest h d f.wide, .cap c]
  | .csetaB h d c a | .cincB h d c a | .cbndB h _ d c a => [.capDest h d, .cap c, .src a true]
  | .csetaI h d c _ | .csetaL h d c _ | .cincI h d c _ | .cincL h d c _ | .cbndI h _ d c _ | .cbndL h _ d c _
  | .candpI h d c _ | .cmov h d c | .cclr h d c => [.capDest h d, .cap c]
  | .candpB h d c m => [.capDest h d, .cap c, .src m]
  | .cseal h d c s | .cunseal h d c s => [.capDest h d, .cap c, .cap s]
  | .ctest _ cond _ c c2 => [.cap c, if cond == .sub then .cap c2 else { r := c2, kinds := [.z] }]
  | .ceq _ _ c c2 => [.cap c, .cap c2]
  | .objRetype _ o | .objConfigUntypedReset _ o | .objConfigEndpointMint _ o | .objConfigSenderMask _ o
  | .objConfigNotificationMint _ o | .objConfigSchedcontext _ o | .objConfigOdt _ o | .objConfigHandler _ o
  | .objConfigFaultEndpoint _ o | .objConfigServiceEndpoint _ o | .objConfigSaveArea _ o | .objConfigAddressSpace _ o
  | .objConfigFormatSlot _ o | .objConfigWcAge _ o | .objConfigWatchdog _ o | .objConfigKeyslot _ o | .objConfigLog _ o
  | .objConfigSealAuthority _ o | .objConfigQueuePair _ o | .objConfigQueueFile _ o | .objConfigCollGroup _ o
  | .objConfigCollPairKey _ o | .objConfigFilemapSource _ o | .objMap _ o | .objUnmap _ o | .objBind _ o
  | .objSuspend _ o | .objResume _ o | .objTeardown _ o | .objStatus _ o | .objFreeze _ o | .objAttest _ o
  | .faultactResume _ o | .faultactSkip _ o | .faultactRetry _ o | .faultactKill _ o | .faultactTeardown _ o
  | .faultactSave _ o => objUses o
  | .send _ m _ _ => [.status m.d, .cap m.obj] ++ OpUse.words m.words m.nw false ++ OpUse.caps m.caps m.nc false
  | .recv _ m _ _ info rpl =>
    [.status m.d, .cap m.obj] ++ OpUse.words m.words m.nw true ++ OpUse.caps m.caps m.nc true ++
      [.uni info, { r := rpl, kinds := [.c, .kc, .z], dst := true }]
  | .ecall _ m info rnw rnc =>
    [.status m.d, .cap m.obj] ++ OpUse.words m.words (max m.nw.val rnw.val) true ++
      OpUse.caps m.caps (max m.nc.val rnc.val) true ++ [.uni info]
  | .ereply _ m => [.status m.d, .cap m.obj] ++ OpUse.words m.words m.nw false ++ OpUse.caps m.caps m.nc false
  | .signalB _ d ntf bits => [.status d, .cap ntf, .vk bits true]
  | .signalI _ d ntf _ => [.status d, .cap ntf]
  | .waitn _ _ d ntf wd => [.status d, .cap ntf, .uni wd true]
  | .revoke _ d r _ => [.uni d, .cap r]
  | .exportMake h _ d x mask | .exportDrop h _ d x mask =>
    [.capDest h d, .cap x] ++ (match mask with | some m => [.vk m] | none => [])
  | .qbind _ _ d _ cq => [.status d, .cap cq]
  | .qbindUnb _ d _ => [.status d]
  | .shfl h _ w64 _ _ d a b c m => [.dest h d w64, .src a w64, .vk b, .src c w64, .kz m]
  | .voteB _ mode _ _ _ d m => [if mode == .ballot then .uni d else { r := d, kinds := [.z] }, .kz m]
  | .voteI _ mode _ _ _ d _ => [if mode == .ballot then .uni d else { r := d, kinds := [.z] }]
  | .rdfirstB _ w d a m => rdUses w d a ++ [.kz m]
  | .rdfirstI _ w d a _ => rdUses w d a
  | .lrankB h sel d m => [if sel == .rank then .dest h d else .uni d, .kz m]
  | .lrankI h sel d _ => [if sel == .rank then .dest h d else .uni d]
  | .matchB h w64 d a m => [.dest h d, .src a w64, .kz m]
  | .matchI h w64 d a _ => [.dest h d, .src a w64]
  | .reduxB _ _ t d a m => [.uni d t.is64, .src a t.is64, .kz m]
  | .reduxI _ _ t d a _ => [.uni d t.is64, .src a t.is64]
  | .scanB _ _ t _ d a m => [.uni d t.is64, .src a t.is64, .kz m]
  | .scanI _ _ t _ d a _ => [.uni d t.is64, .src a t.is64]
  | .gatherB _ d m => [.uni d, .kz m]
  | .gatherI _ d _ => [.uni d]
  | .barB _ _ _ n m | .hbarB _ _ _ n m => [.kz n, .kz m]
  | .barI _ _ _ n _ | .hbarI _ _ _ n _ => [.kz n]
  | .launch h s lr args off => [.dest h s, .cap lr, { r := args, kinds := [.c, .kc, .z] }, .src off true]
  | .launchOne h s lr args off m => [.dest h s, .cap lr, { r := args, kinds := [.c, .kc, .z] }, .src off true, .kz m]
  | .qfence .. => []
  | .mma _ _ _ _ _ src _ sc =>
    (match src with | .regs a => [.image a] | .scratch d _ => [.desc d] | .acc .. => []) ++
      [{ r := sc, kinds := [.v, .k, .z] }]
  | .mwld _ _ _ src =>
    match src with
    | .regs a => [.image a]
    | .loc (.scratch d _) => [.desc d]
    | .loc (.mem c _ _) => [.kcap c]
    | .enc c _ _ ks => [.kcap c, .kcap ks]
  | .mld _ _ _ loc | .mst _ _ _ _ loc => match loc with | .scratch d _ => [.desc d] | .mem c _ _ => [.kcap c]
  | .mzero .. | .mcvt .. => []
  | .mrow _ _ _ _ d n c0 => [{ r := d, kinds := [.v], count := 2, dst := true }, .kz n, .kz c0]
  | .mscale _ _ _ s n c0 => [{ r := s, kinds := [.v], count := 2 }, .kz n, .kz c0]
  | .msave _ m _ | .mload _ m _ => [.kcap m.cap, .kz m.idx]
  | .mstat _ sel _ d => [{ r := d, kinds := [.v, .k], wide := sel == .flags, dst := true }]
  | .tcopy _ d blk _ => [.uni d, .kcap blk]
  | .coll _ _ _ _ d src dst _ _ _ =>
    [.uni d, { r := src, kinds := [.kc, .z] }, { r := dst, kinds := [.kc, .z] }]
  | _ => []
where
  /-- RDFIRST (R191). -/
  rdUses (w : RdWidth) (d a : Reg) : List OpUse :=
    match w with
    | .b32 => [.uni d, .vk a]
    | .b64 => [.uni d true, .vk a true]
    | .b128 => [{ r := d, kinds := [.c, .kc], dst := true }, .cap a]

/-- A range of n w registers may stand where v registers may (R395): w0-w11, w14 and w15; under U = 1 w0-w7 and w14. -/
def wStands (u : Bool) (i n : Nat) : Bool :=
  (List.range n).all fun j => if u then i + j < 8 || i + j == 14 else i + j < 12 || i + j == 14 || i + j == 15

/-- The lowest reason of R392 that one operand gives, at an emulation depth and for a declared register count; 0 when it is legal (R16-R18, R48, R395). -/
def OpUse.reason (o : OpUse) (u : Bool) (depth regs : Nat) : Nat :=
  let span := o.count * (if o.wide then 2 else 1)
  match o.r with
  | .rsv _ => 4
  | .w n =>
    if depth = 0 then 4
    else if u then (if !o.dst && !o.idx && o.kinds.contains .v && fitsW n then oddW n else 8)
    else if n.val = 12 || n.val = 13 then (if o.kinds.contains .c && n.val + o.count ≤ 14 then 0 else 8)
    else if o.idx then (if 8 ≤ n.val && n.val ≤ 11 then 0 else 8)
    else if o.kinds.contains .v && fitsW n then oddW n else 8
  | .v n =>
    if n.val + span > regs then 5
    else if u || !o.kinds.contains .v then (if o.wide && n.val % 2 = 1 then 6 else 8)
    else if o.wide && n.val % 2 = 1 then 6
    else if n.val % o.align = 0 then 0 else 8
  | .k n =>
    if !o.kinds.contains .k then (if o.dst && !u then 4 else if o.wide && n.val % 2 = 1 then 6 else 8)
    else if o.wide && n.val % 2 = 1 then 6
    else if n.val + span ≤ 64 && n.val % o.align = 0 then 0 else 8
  | .c n => if !u && o.kinds.contains .c && n.val + span ≤ 32 then 0 else 8
  | .kc n =>
    if !o.kinds.contains .kc then (if o.dst && !u then 4 else 8) else if n.val + span ≤ 16 then 0 else 8
  | .q _ => if o.kinds.contains .q then 0 else 8
  | .vz => if o.kinds.contains .z then 0 else 8
where
  /-- R395: a range of w registers stands where the same range of v registers may; the pairs of R16 apply to w0, w2, w4 and w6. -/
  fitsW (n : Fin 16) : Bool :=
    if o.count = 1 then wStands u n.val 1
    else n.val % o.align == 0 && wStands u n.val (o.count * (if o.wide && n.val < 8 then 2 else 1))
  oddW (n : Fin 16) : Nat := if o.wide && n.val < 8 && n.val % 2 = 1 then 6 else 0

/-- The lower of two reasons, 0 meaning none. -/
def minReason (a b : Nat) : Nat := if a = 0 then b else if b = 0 then a else min a b

/-- The lowest reason the register operands of an instruction give. -/
def Instr.operandReason (i : Instr) (u : Bool) (depth regs : Nat) : Nat :=
  i.operands.foldr (fun o acc => minReason (o.reason u depth regs) acc) 0

/-- The opcodes on which U = 1 is permitted (R52); LAUNCH.one, SVC and the matrix instructions gather without it. -/
def Instr.uAllowed : Instr → Bool
  | .bra .. | .brx .. | .call .. | .callx .. | .ret .. | .meet .. | .exit _ | .trapB .. | .trapI .. | .bkpt _ | .yield _
  | .svc .. | .setsr .. | .emret .. | .fence .. | .napB .. | .napI .. | .pwait ..
  | .shfl .. | .voteB .. | .voteI .. | .rdfirstB .. | .rdfirstI .. | .lrankB .. | .lrankI .. | .matchB .. | .matchI ..
  | .reduxB .. | .reduxI .. | .scanB .. | .scanI .. | .gatherB .. | .gatherI .. | .barB .. | .barI .. | .hbarB .. | .hbarI ..
  | .launch .. | .launchOne .. | .qfence .. | .mma .. | .mwld .. | .mld .. | .mst .. | .mzero .. | .mrow .. | .mscale ..
  | .msave .. | .mload .. | .mstat .. | .mcvt .. | .tcopy .. | .coll .. => false
  | _ => true

/-- R45 for a float immediate in form I. -/
def fImmOk (t : FType) (imm : BitVec 32) : Bool := !t.is16 || imm.toNat < 65536
/-- R45 for a float immediate in form L. -/
def fImmLOk (t : FType) (imm : BitVec 64) : Bool :=
  match t with
  | .f64 => true
  | .f32 => imm.toNat < 2 ^ 32
  | _ => false

/-- R47: a plain access names no scope. -/
def MemOp.scopeOk (m : MemOp) : Bool := m.ord != .plain || m.scope == .clan
def MemOp.ty48 (m : MemOp) : Bool := m.ty == .b32 || m.ty == .b64

/-- The destination formats of a float conversion (R68, R120). -/
def Fmt.isFloat : Fmt → Bool
  | .fp64 | .fp32 | .bf16 | .fp16 | .e4m3 | .e5m2 => true
  | _ => false

/-- The types IMUL.wide accepts (R95). -/
def wideOk (t : IType) (m : MulMode) : Bool := m != .wide || t == .i32 || t == .n32

/-- The modifier rules of the descriptions: true when the combination is legal. -/
def Instr.modOk : Instr → Bool
  | .mov _ t _ _ => t != .b128
  | .iaddcB _ t .. | .iaddcI _ t .. => t.is3264
  | .imulB _ t m .. => wideOk t m
  | .imulI _ t m .. => wideOk t m
  | .imulL _ t m .. => wideOk t m
  | .imad _ t m .. => wideOk t m
  | .idivB _ t .. | .idivI _ t .. | .iremB _ t .. | .iremI _ t .. | .isad _ t .. | .bfx _ t .. =>
    t.is3264 && !t.plainBits
  | .iminB _ t .. | .iminI _ t .. | .imaxB _ t .. | .imaxI _ t .. => !t.plainBits
  | .iabs _ t .. | .ineg _ t .. | .sarB _ t .. | .sarI _ t .. => t.signed
  | .andB _ t .. | .andI _ t .. | .andL _ t .. | .orB _ t .. | .orI _ t .. | .orL _ t .. | .xorB _ t .. | .xorI _ t ..
  | .xorL _ t .. | .not _ t .. => t.plainBits
  | .lut3 _ t .. | .fshl _ t .. | .fshr _ t .. | .popc _ t .. | .clz _ t .. | .ctz _ t .. | .brev _ t .. | .bfi _ t .. =>
    t == .b32 || t == .b64
  | .shrB _ t .. | .shrI _ t .. => !t.signed
  | .faddI _ t _ _ _ _ imm | .fsubI _ t _ _ _ _ imm | .fmulI _ t _ _ _ _ imm | .fminI _ t _ _ _ imm
  | .fmaxI _ t _ _ _ imm => fImmOk t imm
  | .faddL _ t _ _ _ _ imm | .fsubL _ t _ _ _ _ imm | .fmulL _ t _ _ _ _ imm => fImmLOk t imm
  | .fcmpB _ t .. | .fclass _ t .. | .fscaleB _ t .. | .fscaleI _ t .. => !t.packed
  | .fcmpI _ t _ _ _ _ imm => !t.packed && fImmOk t imm
  | .fdivB _ t .. | .fsqrt _ t .. => t == .f64 || t == .f32 || t == .f16
  | .fdivI _ t _ _ _ _ imm => (t == .f64 || t == .f32 || t == .f16) && fImmOk t imm
  | .frcp _ t r _ cr _ _ => (t == .f64 || t == .f32 || t == .f16) && (cr || r == .rn)
  | .frsq _ t .. => t == .f64 || t == .f32
  | .fex2 _ t .. | .flg2 _ t .. | .fsin _ t .. | .fcos _ t .. => t == .f32 || t == .f16
  | .fcvt _ sf df .. => (sf.isFloat || sf == .pp8) && df.isFloat
  | .icvt _ it df .. => !it.plainBits && df.isFloat
  | .fcvi _ it sf .. => !it.plainBits && (sf.isFloat || sf == .pp8)
  | .fdot2 _ t .. => t.packed
  | .bra _ imm => imm.toNat % 8 = 0
  | .call _ _ imm => imm.toNat % 8 = 0
  | .meet _ clr imm => !clr || imm == 0
  | .svc _ _ nw _ _ => nw.val != 0
  | .fence _ ord _ => ord != .plain
  | .ldM _ m _ | .ldN _ m _ _ => m.ord != .release && m.scopeOk && !m.far
  | .stM _ m _ | .stN _ m _ _ => m.ord != .acquire && m.scopeOk && !m.far && m.ty != .i8 && m.ty != .i16
  | .ldc _ m _ => m.ord != .release && m.scopeOk && !m.far && m.ty == .b128
  | .stc _ m _ => m.ord != .acquire && m.scopeOk && !m.far && m.ty == .b128
  | .atom _ m aop comb hold reassoc ar _ _ => atomOk m aop comb hold reassoc && (!ar || m.ord == .sc)
  | .atomx _ m ar _ _ _ => m.ty48 && m.scopeOk && (!ar || m.ord == .sc)
  | .red _ m aop comb hold reassoc _ => atomOk m aop comb hold reassoc && (m.ord == .plain || m.ord == .release)
  | .waitc _ m .. => m.ty48 && m.scopeOk && !m.far && m.ord != .release
  | .reduxB _ op t .. | .reduxI _ op t .. | .scanB _ op t .. | .scanI _ op t .. =>
    match op with
    | .add | .min | .max => t != .b32 && t != .b64
    | _ => t == .b32 || t == .b64
  | .mst _ df .. => df != .pp8 && df != .b1
  | .coll _ op rop t _ _ _ _ _ count =>
    1 ≤ count.toNat && count.toNat ≤ 2 ^ 24 && (op != .mcast || rop == .sum) &&
      (rop != .lsem || (t == .f32 && 3 ≤ count.toNat && count.toNat ≤ 258)) && (rop != .msum || t == .i32)
  | _ => true
where
  /-- R264, R265, R280. -/
  atomOk (m : MemOp) (aop : AOp) (comb hold reassoc : Bool) : Bool :=
    m.ty48 && m.scopeOk && (m.ty == .b32 || !(aop == .fadd || aop == .fmin || aop == .fmax)) &&
      (!comb || m.far) && (!hold || comb) && (!reassoc || aop == .fadd) &&
      (!comb || !(aop == .inc || aop == .dec || (aop == .fadd && !reassoc)))

/-- The special-register rules of R23, as far as the word tells. -/
def Instr.srOk : Instr → Bool
  | .getsr _ sel _ => sel.toNat ≤ 0x1B
  | .setsr _ sel _ => sel = 0x1A
  | _ => true

/-- The lowest reason of R392 that the word alone gives: register operands at a depth where w registers may be named and with all 768 v registers, selectors, modifiers and U. -/
def Instr.staticReason (i : Instr) : Nat :=
  match i.hdr? with
  | none => 8
  | some h =>
    minReason (i.operandReason h.u 1 768)
      (minReason (if i.srOk then 0 else 7) (if i.modOk && (!h.u || i.uAllowed) then 0 else 8))

/-- A legal encoding as far as the word alone tells. -/
def Instr.WellFormed (i : Instr) : Bool := i.staticReason = 0

end Sys2Proof
end

