-- ==== Sys2Proof/Decode.lean ====
section
/-! DEFINITION. Instruction words (R39-R53): the raw fields of a word, the decoder from words to `Instr`, total and refusing by the reason of R392, and the encoder written from the same tables. The numbers of the modifier tables are the manual's. -/

namespace Sys2Proof

/-! Codes of the modifier tables, in the order the manual numbers them. -/

def MovW.code : MovW → Nat
  | .b32 => 2 | .b64 => 3 | .b128 => 12
def MovW.ofCode : Nat → Option MovW
  | 2 => some .b32 | 3 => some .b64 | 12 => some .b128 | _ => none
def IType.code : IType → Nat
  | .b8 => 0 | .b16 => 1 | .b32 => 2 | .b64 => 3 | .i8 => 4 | .i16 => 5 | .i32 => 6 | .i64 => 7 | .n8 => 8 | .n16 => 9 | .n32 => 10 | .n64 => 11
def IType.ofCode : Nat → Option IType
  | 0 => some .b8 | 1 => some .b16 | 2 => some .b32 | 3 => some .b64 | 4 => some .i8 | 5 => some .i16 | 6 => some .i32 | 7 => some .i64 | 8 => some .n8 | 9 => some .n16 | 10 => some .n32 | 11 => some .n64 | _ => none
def FType.code : FType → Nat
  | .f64 => 0 | .f32 => 1 | .bf16 => 2 | .f16 => 3 | .bf16x2 => 4 | .f16x2 => 5
def FType.ofCode : Nat → Option FType
  | 0 => some .f64 | 1 => some .f32 | 2 => some .bf16 | 3 => some .f16 | 4 => some .bf16x2 | 5 => some .f16x2 | _ => none
def Rnd.code : Rnd → Nat
  | .rn => 0 | .rz => 1 | .rd => 2 | .ru => 3
def Rnd.ofCode : Nat → Option Rnd
  | 0 => some .rn | 1 => some .rz | 2 => some .rd | 3 => some .ru | _ => none
def Fmt.code : Fmt → Nat
  | .fp64 => 0 | .fp32 => 1 | .bf16 => 2 | .fp16 => 3 | .e4m3 => 4 | .e5m2 => 5 | .int8 => 6 | .uint8 => 7 | .int4 => 8 | .pp8 => 9 | .b1 => 10 | .int16 => 11 | .int32 => 12
def Fmt.ofCode : Nat → Option Fmt
  | 0 => some .fp64 | 1 => some .fp32 | 2 => some .bf16 | 3 => some .fp16 | 4 => some .e4m3 | 5 => some .e5m2 | 6 => some .int8 | 7 => some .uint8 | 8 => some .int4 | 9 => some .pp8 | 10 => some .b1 | 11 => some .int16 | 12 => some .int32 | _ => none
def MulMode.code : MulMode → Nat
  | .lo => 0 | .hi => 1 | .wide => 2
def MulMode.ofCode : Nat → Option MulMode
  | 0 => some .lo | 1 => some .hi | 2 => some .wide | _ => none
def Cond.code : Cond → Nat
  | .eq => 0 | .ne => 1 | .lt => 2 | .le => 3 | .gt => 4 | .ge => 5
def Cond.ofCode : Nat → Option Cond
  | 0 => some .eq | 1 => some .ne | 2 => some .lt | 3 => some .le | 4 => some .gt | 5 => some .ge | _ => none
def FCond.code : FCond → Nat
  | .eq => 0 | .ne => 1 | .lt => 2 | .le => 3 | .gt => 4 | .ge => 5 | .num => 6 | .nan => 7
def FCond.ofCode : Nat → Option FCond
  | 0 => some .eq | 1 => some .ne | 2 => some .lt | 3 => some .le | 4 => some .gt | 5 => some .ge | 6 => some .num | 7 => some .nan | _ => none
def MOrd.code : MOrd → Nat
  | .plain => 0 | .acquire => 1 | .release => 2 | .sc => 3
def MOrd.ofCode : Nat → Option MOrd
  | 0 => some .plain | 1 => some .acquire | 2 => some .release | 3 => some .sc | _ => none
def Scope.code : Scope → Nat
  | .clan => 0 | .group => 1 | .hamlet => 2 | .die => 3 | .package => 4 | .system => 5
def Scope.ofCode : Nat → Option Scope
  | 0 => some .clan | 1 => some .group | 2 => some .hamlet | 3 => some .die | 4 => some .package | 5 => some .system | _ => none
def AType.code : AType → Nat
  | .n8 => 0 | .i8 => 1 | .n16 => 2 | .i16 => 3 | .b32 => 4 | .b64 => 5 | .b128 => 6
def AType.ofCode : Nat → Option AType
  | 0 => some .n8 | 1 => some .i8 | 2 => some .n16 | 3 => some .i16 | 4 => some .b32 | 5 => some .b64 | 6 => some .b128 | _ => none
def AOp.code : AOp → Nat
  | .add => 0 | .and => 1 | .or => 2 | .xor => 3 | .smin => 4 | .smax => 5 | .umin => 6 | .umax => 7 | .swapOp => 8 | .inc => 9 | .dec => 10 | .fadd => 11 | .fmin => 12 | .fmax => 13
def AOp.ofCode : Nat → Option AOp
  | 0 => some .add | 1 => some .and | 2 => some .or | 3 => some .xor | 4 => some .smin | 5 => some .smax | 6 => some .umin | 7 => some .umax | 8 => some .swapOp | 9 => some .inc | 10 => some .dec | 11 => some .fadd | 12 => some .fmin | 13 => some .fmax | _ => none
def PrefHint.code : PrefHint → Nat
  | .l1 => 0 | .l2 => 1 | .l2x => 2
def PrefHint.ofCode : Nat → Option PrefHint
  | 0 => some .l1 | 1 => some .l2 | 2 => some .l2x | _ => none
def ResidHint.code : ResidHint → Nat
  | .keep => 0 | .evict => 1 | .tlb => 2
def ResidHint.ofCode : Nat → Option ResidHint
  | 0 => some .keep | 1 => some .evict | 2 => some .tlb | _ => none
def CField.code : CField → Nat
  | .addr => 0 | .base => 1 | .len => 2 | .off => 3 | .perm => 4 | .otype => 5 | .tag => 6 | .flags => 7 | .lo => 8 | .hi => 9 | .top => 10
def CField.ofCode : Nat → Option CField
  | 0 => some .addr | 1 => some .base | 2 => some .len | 3 => some .off | 4 => some .perm | 5 => some .otype | 6 => some .tag | 7 => some .flags | 8 => some .lo | 9 => some .hi | 10 => some .top | _ => none
def CCond.code : CCond → Nat
  | .tag => 0 | .seal => 1 | .inb => 2 | .sub => 3 | .x => 4
def CCond.ofCode : Nat → Option CCond
  | 0 => some .tag | 1 => some .seal | 2 => some .inb | 3 => some .sub | 4 => some .x | _ => none
def ShflMode.code : ShflMode → Nat
  | .idx => 0 | .up => 1 | .down => 2 | .xor => 3
def ShflMode.ofCode : Nat → Option ShflMode
  | 0 => some .idx | 1 => some .up | 2 => some .down | 3 => some .xor | _ => none
def VoteMode.code : VoteMode → Nat
  | .all => 0 | .any => 1 | .uni => 2 | .ballot => 3
def VoteMode.ofCode : Nat → Option VoteMode
  | 0 => some .all | 1 => some .any | 2 => some .uni | 3 => some .ballot | _ => none
def RdWidth.code : RdWidth → Nat
  | .b32 => 0 | .b64 => 1 | .b128 => 2
def RdWidth.ofCode : Nat → Option RdWidth
  | 0 => some .b32 | 1 => some .b64 | 2 => some .b128 | _ => none
def RankSel.code : RankSel → Nat
  | .rank => 0 | .count => 1 | .mask => 2
def RankSel.ofCode : Nat → Option RankSel
  | 0 => some .rank | 1 => some .count | 2 => some .mask | _ => none
def RedOp.code : RedOp → Nat
  | .add => 0 | .min => 1 | .max => 2 | .and => 3 | .or => 4 | .xor => 5
def RedOp.ofCode : Nat → Option RedOp
  | 0 => some .add | 1 => some .min | 2 => some .max | 3 => some .and | 4 => some .or | 5 => some .xor | _ => none
def RType.code : RType → Nat
  | .i32 => 0 | .n32 => 1 | .i64 => 2 | .n64 => 3 | .f32 => 4 | .f64 => 5 | .b32 => 6 | .b64 => 7
def RType.ofCode : Nat → Option RType
  | 0 => some .i32 | 1 => some .n32 | 2 => some .i64 | 3 => some .n64 | 4 => some .f32 | 5 => some .f64 | 6 => some .b32 | 7 => some .b64 | _ => none
def BarMode.code : BarMode → Nat
  | .sync => 0 | .arrive => 1
def BarMode.ofCode : Nat → Option BarMode
  | 0 => some .sync | 1 => some .arrive | _ => none
def Semiring.code : Semiring → Nat
  | .plusTimes => 0 | .minPlus => 1 | .maxPlus => 2 | .maxTimes => 3 | .orAnd => 4 | .minMax => 5
def Semiring.ofCode : Nat → Option Semiring
  | 0 => some .plusTimes | 1 => some .minPlus | 2 => some .maxPlus | 3 => some .maxTimes | 4 => some .orAnd | 5 => some .minMax | _ => none
def RowOp.code : RowOp → Nat
  | .max => 0 | .sum => 1 | .min => 2
def RowOp.ofCode : Nat → Option RowOp
  | 0 => some .max | 1 => some .sum | 2 => some .min | _ => none
def MStatSel.code : MStatSel → Nat
  | .flags => 0 | .sb => 1 | .alloc => 2
def MStatSel.ofCode : Nat → Option MStatSel
  | 0 => some .flags | 1 => some .sb | 2 => some .alloc | _ => none
def DKind.code : DKind → Nat
  | .f32 => 0 | .i32 => 1 | .f64 => 2
def DKind.ofCode : Nat → Option DKind
  | 0 => some .f32 | 1 => some .i32 | 2 => some .f64 | _ => none
def CollOp.code : CollOp → Nat
  | .mcast => 0 | .reduce => 1 | .allreduce => 2
def CollOp.ofCode : Nat → Option CollOp
  | 0 => some .mcast | 1 => some .reduce | 2 => some .allreduce | _ => none
def CollRop.code : CollRop → Nat
  | .sum => 0 | .min => 1 | .max => 2 | .lsem => 3 | .msum => 4
def CollRop.ofCode : Nat → Option CollRop
  | 0 => some .sum | 1 => some .min | 2 => some .max | 3 => some .lsem | 4 => some .msum | _ => none
def CollType.code : CollType → Nat
  | .i32 => 0 | .i64 => 1 | .f32 => 2 | .bf16 => 3
def CollType.ofCode : Nat → Option CollType
  | 0 => some .i32 | 1 => some .i64 | 2 => some .f32 | 3 => some .bf16 | _ => none
def FlushOp.code : FlushOp → Nat
  | .wb => 0 | .inv => 1
def FlushOp.ofCode : Nat → Option FlushOp
  | 0 => some .wb | 1 => some .inv | _ => none
def QRole.code : QRole → Nat
  | .push => 0 | .pop => 1
def QRole.ofCode : Nat → Option QRole
  | 0 => some .push | 1 => some .pop | _ => none

/-- The operand code of a register (R15). -/
def Reg.code : Reg → Nat
  | .v n => n.val
  | .k n => 0x300 + n.val
  | .q n => 0x340 + n.val
  | .w n => 0x350 + n.val
  | .c n => 0x360 + n.val
  | .kc n => 0x380 + n.val
  | .rsv n => 0x390 + n.val
  | .vz => 0x3FF

/-- The register an operand code names (R15). -/
def Reg.ofCode (x : Nat) : Reg :=
  if h : x < 0x300 then .v ⟨x, by omega⟩
  else if h : x < 0x340 then .k ⟨x - 0x300, by omega⟩
  else if h : x < 0x350 then .q ⟨x - 0x340, by omega⟩
  else if h : x < 0x360 then .w ⟨x - 0x350, by omega⟩
  else if h : x < 0x380 then .c ⟨x - 0x360, by omega⟩
  else if h : x < 0x390 then .kc ⟨x - 0x380, by omega⟩
  else if h : x < 0x3FF then .rsv ⟨x - 0x390, by omega⟩
  else .vz

/-- The raw fields of a word (R41, R43): the first 64 bits and the bits above them. -/
structure Raw where
  len : Nat
  guard : Nat
  gneg : Nat
  op : Nat
  look : Nat
  dst : Nat
  srca : Nat
  srcb : Nat
  mod : Nat
  ext : Nat
  deriving DecidableEq, Repr

/-- Bits [lo+n-1:lo] of a number. -/
def bitsAt (w lo n : Nat) : Nat := w / 2 ^ lo % 2 ^ n

/-- How many bits of the word a LEN covers (R39). -/
def lenBits (len : Nat) : Nat := if len = 0 then 64 else if len = 1 then 96 else 128

/-- The memory footprint of a LEN in bytes (R39). -/
def footOfLen (len : Nat) : Nat := if len = 0 then 8 else 16

/-- The fields of a word; bits above its length are not read (R39). -/
def Raw.ofWord (w : Nat) : Raw :=
  let len := bitsAt w 0 2
  { len := len, guard := bitsAt w 2 3, gneg := bitsAt w 5 1, op := bitsAt w 6 10, look := bitsAt w 16 4,
    dst := bitsAt w 20 10, srca := bitsAt w 30 10, srcb := bitsAt w 40 10, mod := bitsAt w 50 14,
    ext := bitsAt w 64 (lenBits len - 64) }

/-- The word that the fields make. -/
def Raw.word (r : Raw) : Nat :=
  r.len + r.guard * 2 ^ 2 + r.gneg * 2 ^ 5 + r.op * 2 ^ 6 + r.look * 2 ^ 16 + r.dst * 2 ^ 20 + r.srca * 2 ^ 30 +
    r.srcb * 2 ^ 40 + r.mod * 2 ^ 50 + r.ext * 2 ^ 64

def Raw.a (r : Raw) : Reg := Reg.ofCode r.srca
def Raw.b (r : Raw) : Reg := Reg.ofCode r.srcb
def Raw.d (r : Raw) : Reg := Reg.ofCode r.dst
/-- SRCC of form C. -/
def Raw.c (r : Raw) : Reg := Reg.ofCode (bitsAt r.ext 0 10)
/-- MOD2 of form C. -/
def Raw.mod2 (r : Raw) : Nat := bitsAt r.ext 10 22
/-- SRCC, SRCD and MOD3 of form N. -/
def Raw.nc (r : Raw) : Reg := Reg.ofCode (bitsAt r.ext 32 10)
def Raw.nd (r : Raw) : Reg := Reg.ofCode (bitsAt r.ext 42 10)
def Raw.mod3 (r : Raw) : Nat := bitsAt r.ext 52 12
def Raw.imm32 (r : Raw) : BitVec 32 := BitVec.ofNat 32 r.ext
def Raw.imm64 (r : Raw) : BitVec 64 := BitVec.ofNat 64 r.ext
/-- MOD[lo+n-1:lo]. -/
def Raw.m (r : Raw) (lo n : Nat) : Nat := bitsAt r.mod lo n
/-- MOD[lo] as a flag. -/
def Raw.mb (r : Raw) (lo : Nat) : Bool := bitsAt r.mod lo 1 == 1
/-- A predicate named in MOD[lo+2:lo]. -/
def Raw.mp (r : Raw) (lo : Nat) : Pred := Fin.ofNat 8 (bitsAt r.mod lo 3)

def Raw.hdr (r : Raw) : Hdr :=
  { guard := Fin.ofNat 8 r.guard, gneg := r.gneg == 1, look := Fin.ofNat 16 r.look, u := bitsAt r.mod 13 1 == 1 }

/-- The forms of every assigned opcode (R52), by class: bit 0 a 64-bit form, bit 1 a 96-bit form, bit 2 a 128-bit form. -/
def opForms : List (List Nat) :=
  [[1, 1, 6, 3, 7, 7, 3, 7, 2, 3, 3, 3, 3, 1, 1, 2, 7, 7, 7, 7, 1, 2, 3, 3, 3, 2, 2, 1, 1, 1, 1, 2, 2, 3, 1, 1, 1, 2],
   [7, 7, 7, 2, 3, 3, 3, 3, 1, 1, 1, 1, 1, 1, 1, 1, 1, 1, 1, 1, 3, 2],
   [2, 1, 2, 1, 1, 2, 1, 3, 1, 1, 1, 1, 1, 1, 1, 3],
   [6, 6, 2, 2, 2, 2, 4, 4, 4, 4, 1, 1, 1, 2, 2],
   [1, 7, 7, 7, 3, 1, 1, 1, 1, 1, 1, 2, 2, 2, 2, 2, 3, 1, 1, 1, 1],
   [2, 3, 3, 3, 3, 3, 3, 3, 3, 3, 2, 2],
   [4, 4, 4, 4, 1, 2, 2, 2, 2, 1, 1, 1, 4]]

/-- The forms of an opcode; none in an unassigned slot (R53). -/
def opForm? (op : Nat) : Option Nat := (opForms[op / 128]?).bind (fun l => l[op % 128]?)

/-- Whether an opcode has a form of this LEN (R44). -/
def hasForm (op len : Nat) : Bool :=
  match opForm? op with
  | some f => f / 2 ^ len % 2 == 1
  | none => false

def boolNat (b : Bool) : Nat := if b then 1 else 0

/-! The encoder. -/

/-- A word with the shared fields of `h`; `m` is MOD[12:0]. -/
def mkRaw (op len : Nat) (h : Hdr) (d a b m : Nat) (ext : Nat := 0) : Raw :=
  { len := len, guard := h.guard.val, gneg := boolNat h.gneg, op := op, look := h.look.val, dst := d, srca := a, srcb := b,
    mod := boolNat h.u * 8192 + m, ext := ext }

/-- The code of an unused register field (R42). -/
def vzc : Nat := 0x3FF

/-- Bits [95:64] of form C: SRCC and MOD2. -/
def extC (c mod2 : Nat) : Nat := c + mod2 * 2 ^ 10
/-- Bits [127:64] of form N. -/
def extN (imm : BitVec 32) (c d mod3 : Nat) : Nat := imm.toNat + c * 2 ^ 32 + d * 2 ^ 42 + mod3 * 2 ^ 52

/-- MOD[12:0] of the memory forms (R47). -/
def MemOp.mod (m : MemOp) : Nat :=
  m.ty.code * 2 ^ 9 + m.scale.val * 2 ^ 7 + m.ord.code * 2 ^ 5 + m.scope.code * 2 ^ 2 + boolNat m.far * 2 + boolNat m.strm

/-- MOD[12:0] with ITYPE and OPX (R87). -/
def modT (t : IType) (opx : Nat) : Nat := t.code * 2 ^ 9 + opx
/-- MOD[12:0] with FTYPE, RND, FTZ and OPX (R88). -/
def modF (t : FType) (r : Nat) (ftz : Bool) (opx : Nat) : Nat := t.code * 2 ^ 9 + r * 2 ^ 7 + boolNat ftz * 2 ^ 6 + opx

/-- The raw fields of a transfer's location (R288): SRCA and bits [127:64]. -/
def MLoc.enc (l : MLoc) (df : Nat) : Nat × Nat :=
  match l with
  | .scratch d t => (d.code, t.val * 2 ^ 52 + df * 2 ^ 58)
  | .mem c p imm => (c.code, imm.toNat + p.toNat * 2 ^ 32 + df * 2 ^ 58)
def MLoc.kind : MLoc → Nat
  | .scratch .. => 1
  | .mem .. => 2

/-- The word of OBJ (R159). -/
def objRaw (h : Hdr) (sub : Nat) (o : ObjOps) : Raw :=
  mkRaw 0x20B 1 h o.d.code o.obj.code o.args.code (sub * 2 ^ 8) (extC o.cx.code o.narg.val)

/-- The word of a message instruction (R362). -/
def msgRaw (op : Nat) (h : Hdr) (m : MsgOps) (nb nbp mod2 : Nat) : Raw :=
  mkRaw op 1 h m.d.code m.obj.code m.words.code (m.nw.val * 2 ^ 9 + m.nc.val * 2 ^ 7 + nb * 2 ^ 6 + nbp * 2 ^ 3)
    (extC m.caps.code mod2)

/-- The raw fields of an instruction, from the encoding each description gives; none for an event. -/
def toRaw : Instr → Option Raw
  | .nop h => some (mkRaw 0x000 0 h vzc vzc vzc 0)
  | .mov h t d a => some (mkRaw 0x001 0 h d.code a.code vzc (t.code * 2 ^ 9))
  | .movPush h t q a nb nbp => some (mkRaw 0x001 0 h (0x340 + q.val) a.code vzc (t.code * 2 ^ 9 + boolNat nb * 2 ^ 8 + nbp.val * 2 ^ 5))
  | .movPop h t d q nb nbp => some (mkRaw 0x001 0 h d.code (0x340 + q.val) vzc (t.code * 2 ^ 9 + boolNat nb * 2 ^ 8 + nbp.val * 2 ^ 5))
  | .moviI h t d i => some (mkRaw 0x002 1 h d.code vzc vzc (modT t 0) i.toNat)
  | .moviL h t d i => some (mkRaw 0x002 2 h d.code vzc vzc (modT t 0) i.toNat)
  | .selB h t d a b ps pn => some (mkRaw 0x003 0 h d.code a.code b.code (modT t (ps.val * 2 ^ 6 + boolNat pn * 2 ^ 5)))
  | .selI h t d a i ps pn => some (mkRaw 0x003 1 h d.code a.code vzc (modT t (ps.val * 2 ^ 6 + boolNat pn * 2 ^ 5)) i.toNat)
  | .iaddB h t d a b => some (mkRaw 0x004 0 h d.code a.code b.code (modT t 0))
  | .iaddI h t d a i => some (mkRaw 0x004 1 h d.code a.code vzc (modT t 0) i.toNat)
  | .iaddL h t d a i => some (mkRaw 0x004 2 h d.code a.code vzc (modT t 0) i.toNat)
  | .isubB h t d a b => some (mkRaw 0x005 0 h d.code a.code b.code (modT t 0))
  | .isubI h t d a i => some (mkRaw 0x005 1 h d.code a.code vzc (modT t 0) i.toNat)
  | .isubL h t d a i => some (mkRaw 0x005 2 h d.code a.code vzc (modT t 0) i.toNat)
  | .iaddcB h t d a b ci ce co => some (mkRaw 0x006 0 h d.code a.code b.code (modT t (ci.val * 2 ^ 6 + boolNat ce * 2 ^ 5 + co.val * 2 ^ 2)))
  | .iaddcI h t d a i ci ce co => some (mkRaw 0x006 1 h d.code a.code vzc (modT t (ci.val * 2 ^ 6 + boolNat ce * 2 ^ 5 + co.val * 2 ^ 2)) i.toNat)
  | .imulB h t m d a b => some (mkRaw 0x007 0 h d.code a.code b.code (modT t m.code))
  | .imulI h t m d a i => some (mkRaw 0x007 1 h d.code a.code vzc (modT t m.code) i.toNat)
  | .imulL h t m d a i => some (mkRaw 0x007 2 h d.code a.code vzc (modT t m.code) i.toNat)
  | .imad h t m d a b c => some (mkRaw 0x008 1 h d.code a.code b.code (modT t m.code) (extC c.code 0))
  | .idivB h t d a b => some (mkRaw 0x009 0 h d.code a.code b.code (modT t 0))
  | .idivI h t d a i => some (mkRaw 0x009 1 h d.code a.code vzc (modT t 0) i.toNat)
  | .iremB h t d a b => some (mkRaw 0x00A 0 h d.code a.code b.code (modT t 0))
  | .iremI h t d a i => some (mkRaw 0x00A 1 h d.code a.code vzc (modT t 0) i.toNat)
  | .iminB h t d a b => some (mkRaw 0x00B 0 h d.code a.code b.code (modT t 0))
  | .iminI h t d a i => some (mkRaw 0x00B 1 h d.code a.code vzc (modT t 0) i.toNat)
  | .imaxB h t d a b => some (mkRaw 0x00C 0 h d.code a.code b.code (modT t 0))
  | .imaxI h t d a i => some (mkRaw 0x00C 1 h d.code a.code vzc (modT t 0) i.toNat)
  | .iabs h t d a => some (mkRaw 0x00D 0 h d.code a.code vzc (modT t 0))
  | .ineg h t d a => some (mkRaw 0x00E 0 h d.code a.code vzc (modT t 0))
  | .isad h t d a b c => some (mkRaw 0x00F 1 h d.code a.code b.code (modT t 0) (extC c.code 0))
  | .icmpB h t c pd pc a b => some (mkRaw 0x010 0 h vzc a.code b.code (modT t (pd.val * 2 ^ 6 + c.code * 2 ^ 3 + pc.val)))
  | .icmpI h t c pd pc a i => some (mkRaw 0x010 1 h vzc a.code vzc (modT t (pd.val * 2 ^ 6 + c.code * 2 ^ 3 + pc.val)) i.toNat)
  | .icmpL h t c pd pc a i => some (mkRaw 0x010 2 h vzc a.code vzc (modT t (pd.val * 2 ^ 6 + c.code * 2 ^ 3 + pc.val)) i.toNat)
  | .andB h t d a b => some (mkRaw 0x011 0 h d.code a.code b.code (modT t 0))
  | .andI h t d a i => some (mkRaw 0x011 1 h d.code a.code vzc (modT t 0) i.toNat)
  | .andL h t d a i => some (mkRaw 0x011 2 h d.code a.code vzc (modT t 0) i.toNat)
  | .orB h t d a b => some (mkRaw 0x012 0 h d.code a.code b.code (modT t 0))
  | .orI h t d a i => some (mkRaw 0x012 1 h d.code a.code vzc (modT t 0) i.toNat)
  | .orL h t d a i => some (mkRaw 0x012 2 h d.code a.code vzc (modT t 0) i.toNat)
  | .xorB h t d a b => some (mkRaw 0x013 0 h d.code a.code b.code (modT t 0))
  | .xorI h t d a i => some (mkRaw 0x013 1 h d.code a.code vzc (modT t 0) i.toNat)
  | .xorL h t d a i => some (mkRaw 0x013 2 h d.code a.code vzc (modT t 0) i.toNat)
  | .not h t d a => some (mkRaw 0x014 0 h d.code a.code vzc (modT t 0))
  | .lut3 h t tt d a b c => some (mkRaw 0x015 1 h d.code a.code b.code (modT t tt.toNat) (extC c.code 0))
  | .shlB h t w d a s => some (mkRaw 0x016 0 h d.code a.code s.code (modT t (boolNat w)))
  | .shlI h t w d a i => some (mkRaw 0x016 1 h d.code a.code vzc (modT t (boolNat w)) i.toNat)
  | .shrB h t w d a s => some (mkRaw 0x017 0 h d.code a.code s.code (modT t (boolNat w)))
  | .shrI h t w d a i => some (mkRaw 0x017 1 h d.code a.code vzc (modT t (boolNat w)) i.toNat)
  | .sarB h t w d a s => some (mkRaw 0x018 0 h d.code a.code s.code (modT t (boolNat w)))
  | .sarI h t w d a i => some (mkRaw 0x018 1 h d.code a.code vzc (modT t (boolNat w)) i.toNat)
  | .fshl h t d a b s => some (mkRaw 0x019 1 h d.code a.code b.code (modT t 0) (extC s.code 0))
  | .fshr h t d a b s => some (mkRaw 0x01A 1 h d.code a.code b.code (modT t 0) (extC s.code 0))
  | .popc h t d a => some (mkRaw 0x01B 0 h d.code a.code vzc (modT t 0))
  | .clz h t d a => some (mkRaw 0x01C 0 h d.code a.code vzc (modT t 0))
  | .ctz h t d a => some (mkRaw 0x01D 0 h d.code a.code vzc (modT t 0))
  | .brev h t d a => some (mkRaw 0x01E 0 h d.code a.code vzc (modT t 0))
  | .bfx h t d a p l => some (mkRaw 0x01F 1 h d.code a.code p.code (modT t 0) (extC l.code 0))
  | .bfi h t d a b c => some (mkRaw 0x020 1 h d.code a.code b.code (modT t 0) (extC c.code 0))
  | .bpermB h d a s => some (mkRaw 0x021 0 h d.code a.code s.code (modT .b32 0))
  | .bpermI h d a i => some (mkRaw 0x021 1 h d.code a.code vzc (modT .b32 0) i.toNat)
  | .plut h pd pa pb pc tt => some (mkRaw 0x022 0 h vzc tt.toNat vzc (pd.val * 2 ^ 10 + pa.val * 2 ^ 7 + pb.val * 2 ^ 4 + pc.val * 2))
  | .p2v h d => some (mkRaw 0x023 0 h d.code vzc vzc 0)
  | .v2p h a m => some (mkRaw 0x024 0 h vzc a.code vzc m.toNat)
  | .idot4 h x y d a b c => some (mkRaw 0x025 1 h d.code a.code b.code (modT .i32 (boolNat x * 2 + boolNat y)) (extC c.code 0))
  | .faddB h t r z d a b => some (mkRaw 0x080 0 h d.code a.code b.code (modF t r.code z 0))
  | .faddI h t r z d a i => some (mkRaw 0x080 1 h d.code a.code vzc (modF t r.code z 0) i.toNat)
  | .faddL h t r z d a i => some (mkRaw 0x080 2 h d.code a.code vzc (modF t r.code z 0) i.toNat)
  | .fsubB h t r z d a b => some (mkRaw 0x081 0 h d.code a.code b.code (modF t r.code z 0))
  | .fsubI h t r z d a i => some (mkRaw 0x081 1 h d.code a.code vzc (modF t r.code z 0) i.toNat)
  | .fsubL h t r z d a i => some (mkRaw 0x081 2 h d.code a.code vzc (modF t r.code z 0) i.toNat)
  | .fmulB h t r z d a b => some (mkRaw 0x082 0 h d.code a.code b.code (modF t r.code z 0))
  | .fmulI h t r z d a i => some (mkRaw 0x082 1 h d.code a.code vzc (modF t r.code z 0) i.toNat)
  | .fmulL h t r z d a i => some (mkRaw 0x082 2 h d.code a.code vzc (modF t r.code z 0) i.toNat)
  | .ffma h t r z d a b c => some (mkRaw 0x083 1 h d.code a.code b.code (modF t r.code z 0) (extC c.code 0))
  | .fminB h t z d a b => some (mkRaw 0x084 0 h d.code a.code b.code (modF t 0 z 0))
  | .fminI h t z d a i => some (mkRaw 0x084 1 h d.code a.code vzc (modF t 0 z 0) i.toNat)
  | .fmaxB h t z d a b => some (mkRaw 0x085 0 h d.code a.code b.code (modF t 0 z 0))
  | .fmaxI h t z d a i => some (mkRaw 0x085 1 h d.code a.code vzc (modF t 0 z 0) i.toNat)
  | .fcmpB h t c pd pc a b => some (mkRaw 0x086 0 h vzc a.code b.code (t.code * 2 ^ 9 + pd.val * 2 ^ 6 + c.code * 2 ^ 3 + pc.val))
  | .fcmpI h t c pd pc a i => some (mkRaw 0x086 1 h vzc a.code vzc (t.code * 2 ^ 9 + pd.val * 2 ^ 6 + c.code * 2 ^ 3 + pc.val) i.toNat)
  | .fdivB h t r z d a b => some (mkRaw 0x087 0 h d.code a.code b.code (modF t r.code z 0))
  | .fdivI h t r z d a i => some (mkRaw 0x087 1 h d.code a.code vzc (modF t r.code z 0) i.toNat)
  | .fsqrt h t r z d a => some (mkRaw 0x088 0 h d.code a.code vzc (modF t r.code z 0))
  | .frcp h t r z cr d a => some (mkRaw 0x089 0 h d.code a.code vzc (modF t r.code z (boolNat cr)))
  | .frsq h t z d a => some (mkRaw 0x08A 0 h d.code a.code vzc (modF t 0 z 0))
  | .fex2 h t z d a => some (mkRaw 0x08B 0 h d.code a.code vzc (modF t 0 z 0))
  | .flg2 h t z d a => some (mkRaw 0x08C 0 h d.code a.code vzc (modF t 0 z 0))
  | .fsin h t z d a => some (mkRaw 0x08D 0 h d.code a.code vzc (modF t 0 z 0))
  | .fcos h t z d a => some (mkRaw 0x08E 0 h d.code a.code vzc (modF t 0 z 0))
  | .frnd h t r z d a => some (mkRaw 0x08F 0 h d.code a.code vzc (modF t r.code z 0))
  | .fcvt h sf df r z s d a => some (mkRaw 0x090 0 h d.code a.code vzc (sf.code * 2 ^ 9 + r.code * 2 ^ 7 + boolNat z * 2 ^ 6 + df.code * 2 ^ 2 + boolNat s * 2))
  | .icvt h it df r d a => some (mkRaw 0x091 0 h d.code a.code vzc (it.code * 2 ^ 9 + r.code * 2 ^ 7 + df.code * 2 ^ 2))
  | .fcvi h it sf r z d a => some (mkRaw 0x092 0 h d.code a.code vzc (it.code * 2 ^ 9 + r.code * 2 ^ 7 + boolNat z * 2 ^ 6 + sf.code * 2 ^ 2))
  | .fclass h t z d a => some (mkRaw 0x093 0 h d.code a.code vzc (modF t 0 z 0))
  | .fscaleB h t r z d a b => some (mkRaw 0x094 0 h d.code a.code b.code (modF t r.code z 0))
  | .fscaleI h t r z d a i => some (mkRaw 0x094 1 h d.code a.code vzc (modF t r.code z 0) i.toNat)
  | .fdot2 h t r z d a b c => some (mkRaw 0x095 1 h d.code a.code b.code (modF t r.code z 0) (extC c.code 0))
  | .bra h i => some (mkRaw 0x100 1 h vzc vzc vzc 0 i.toNat)
  | .brx h a => some (mkRaw 0x101 0 h vzc a.code vzc 0)
  | .call h l i => some (mkRaw 0x102 1 h l.code vzc vzc 0 i.toNat)
  | .callx h l a => some (mkRaw 0x103 0 h l.code a.code vzc 0)
  | .ret h a => some (mkRaw 0x104 0 h vzc a.code vzc 0)
  | .meet h c i => some (mkRaw 0x105 1 h vzc vzc vzc (boolNat c) i.toNat)
  | .exit h => some (mkRaw 0x106 0 h vzc vzc vzc 0)
  | .trapB h a => some (mkRaw 0x107 0 h vzc a.code vzc 0)
  | .trapI h i => some (mkRaw 0x107 1 h vzc vzc vzc 0 i.toNat)
  | .bkpt h => some (mkRaw 0x108 0 h vzc vzc vzc 0)
  | .yield h => some (mkRaw 0x109 0 h vzc vzc vzc 0)
  | .svc h sp nw d a => some (mkRaw 0x10A 0 h d.code a.code vzc (sp.val * 2 ^ 4 + nw.val))
  | .getsr h s d => some (mkRaw 0x10B 0 h d.code vzc vzc s.toNat)
  | .setsr h s a => some (mkRaw 0x10C 0 h vzc a.code vzc s.toNat)
  | .emret h m =>
    some (match m with
      | .adv => mkRaw 0x10D 0 h vzc vzc vzc 0
      | .retry => mkRaw 0x10D 0 h vzc vzc vzc 1
      | .to a => mkRaw 0x10D 0 h vzc a.code vzc 2)
  | .fence h o s => some (mkRaw 0x10E 0 h vzc vzc vzc (o.code * 2 ^ 5 + s.code * 2 ^ 2))
  | .napB h a => some (mkRaw 0x10F 0 h vzc a.code vzc 0)
  | .napI h i => some (mkRaw 0x10F 1 h vzc vzc vzc 0 i.toNat)
  | .ldM h m d => some (mkRaw 0x180 1 h d.code m.cap.code m.idx.code m.mod m.imm.toNat)
  | .ldN h m r d => some (mkRaw 0x180 2 h d.code m.cap.code m.idx.code m.mod (extN m.imm vzc vzc (r.val * 2 ^ 9)))
  | .stM h m d => some (mkRaw 0x181 1 h d.code m.cap.code m.idx.code m.mod m.imm.toNat)
  | .stN h m r d => some (mkRaw 0x181 2 h d.code m.cap.code m.idx.code m.mod (extN m.imm vzc vzc (r.val * 2 ^ 9)))
  | .ldc h m d => some (mkRaw 0x182 1 h d.code m.cap.code m.idx.code m.mod m.imm.toNat)
  | .stc h m d => some (mkRaw 0x183 1 h d.code m.cap.code m.idx.code m.mod m.imm.toNat)
  | .pref h t m => some (mkRaw 0x184 1 h vzc m.cap.code m.idx.code (t.code * 2 ^ 9 + m.scale.val * 2 ^ 7) m.imm.toNat)
  | .resid h t m => some (mkRaw 0x185 1 h vzc m.cap.code m.idx.code (t.code * 2 ^ 9 + m.scale.val * 2 ^ 7) m.imm.toNat)
  | .atom h m o c hd ra ar d a => some (mkRaw 0x186 2 h d.code m.cap.code m.idx.code m.mod (extN m.imm a.code vzc (o.code * 2 ^ 8 + boolNat c * 2 ^ 7 + boolNat hd * 2 ^ 6 + boolNat ra * 2 ^ 5 + boolNat ar * 2 ^ 4)))
  | .atomx h m ar d c n => some (mkRaw 0x187 2 h d.code m.cap.code m.idx.code m.mod (extN m.imm c.code n.code (boolNat ar * 2 ^ 4)))
  | .red h m o c hd ra a => some (mkRaw 0x188 2 h vzc m.cap.code m.idx.code m.mod (extN m.imm a.code vzc (o.code * 2 ^ 8 + boolNat c * 2 ^ 7 + boolNat hd * 2 ^ 6 + boolNat ra * 2 ^ 5)))
  | .waitc h m cmp sg d c => some (mkRaw 0x189 2 h d.code m.cap.code m.idx.code m.mod (extN m.imm c.code vzc (cmp.code * 2 ^ 9 + boolNat sg * 2 ^ 8)))
  | .bind h d so s r => some (mkRaw 0x18A 0 h d.code so.code r.code (s.val * 2))
  | .bindUn h d so s => some (mkRaw 0x18A 0 h d.code so.code vzc (s.val * 2 + 1))
  | .acq h e d so => some (mkRaw 0x18B 0 h d.code so.code vzc (boolNat e))
  | .rel h d so => some (mkRaw 0x18C 0 h d.code so.code vzc 0)
  | .cflush h o m => some (mkRaw 0x18D 1 h vzc m.cap.code m.idx.code (o.code * 2 ^ 9 + m.scale.val * 2 ^ 7) m.imm.toNat)
  | .pwait h m l => some (mkRaw 0x18E 1 h l.code m.cap.code m.idx.code (m.scale.val * 2 ^ 7) m.imm.toNat)
  | .cget h f d c => some (mkRaw 0x200 0 h d.code c.code vzc f.code)
  | .csetaB h d c a => some (mkRaw 0x201 0 h d.code c.code a.code 0)
  | .csetaI h d c i => some (mkRaw 0x201 1 h d.code c.code vzc 0 i.toNat)
  | .csetaL h d c i => some (mkRaw 0x201 2 h d.code c.code vzc 0 i.toNat)
  | .cincB h d c a => some (mkRaw 0x202 0 h d.code c.code a.code 0)
  | .cincI h d c i => some (mkRaw 0x202 1 h d.code c.code vzc 0 i.toNat)
  | .cincL h d c i => some (mkRaw 0x202 2 h d.code c.code vzc 0 i.toNat)
  | .cbndB h e d c l => some (mkRaw 0x203 0 h d.code c.code l.code (boolNat e))
  | .cbndI h e d c i => some (mkRaw 0x203 1 h d.code c.code vzc (boolNat e) i.toNat)
  | .cbndL h e d c i => some (mkRaw 0x203 2 h d.code c.code vzc (boolNat e) i.toNat)
  | .candpB h d c m => some (mkRaw 0x204 0 h d.code c.code m.code 0)
  | .candpI h d c i => some (mkRaw 0x204 1 h d.code c.code vzc 0 i.toNat)
  | .cseal h d c s => some (mkRaw 0x205 0 h d.code c.code s.code 0)
  | .cunseal h d c s => some (mkRaw 0x206 0 h d.code c.code s.code 0)
  | .ctest h cd pd c c2 => some (mkRaw 0x207 0 h vzc c.code c2.code (pd.val * 2 ^ 10 + cd.code * 2 ^ 7))
  | .cmov h d c => some (mkRaw 0x208 0 h d.code c.code vzc 0)
  | .cclr h d c => some (mkRaw 0x209 0 h d.code c.code vzc 0)
  | .ceq h pd c c2 => some (mkRaw 0x20A 0 h vzc c.code c2.code (pd.val * 2 ^ 10))
  | .objRetype h o => some (objRaw h 0 o)
  | .objConfigUntypedReset h o | .objConfigEndpointMint h o | .objConfigSenderMask h o | .objConfigNotificationMint h o
  | .objConfigSchedcontext h o | .objConfigOdt h o | .objConfigHandler h o | .objConfigFaultEndpoint h o
  | .objConfigServiceEndpoint h o | .objConfigSaveArea h o | .objConfigAddressSpace h o | .objConfigFormatSlot h o
  | .objConfigWcAge h o | .objConfigWatchdog h o | .objConfigKeyslot h o | .objConfigLog h o
  | .objConfigSealAuthority h o | .objConfigQueuePair h o | .objConfigQueueFile h o | .objConfigCollGroup h o
  | .objConfigCollPairKey h o | .objConfigFilemapSource h o => some (objRaw h 1 o)
  | .objMap h o => some (objRaw h 2 o)
  | .objUnmap h o => some (objRaw h 3 o)
  | .objBind h o => some (objRaw h 4 o)
  | .objSuspend h o => some (objRaw h 5 o)
  | .objResume h o => some (objRaw h 6 o)
  | .objTeardown h o => some (objRaw h 7 o)
  | .objStatus h o => some (objRaw h 8 o)
  | .objFreeze h o => some (objRaw h 9 o)
  | .objAttest h o => some (objRaw h 10 o)
  | .faultactResume h o | .faultactSkip h o | .faultactRetry h o | .faultactKill h o | .faultactTeardown h o
  | .faultactSave h o => some (objRaw h 11 o)
  | .send h m nb p => some (msgRaw 0x20C h m (boolNat nb) p.val vzc)
  | .recv h m nb p info rpl => some (msgRaw 0x20D h m (boolNat nb) p.val (info.code + rpl.code * 2 ^ 10))
  | .ecall h m info rnw rnc => some (msgRaw 0x20E h m 0 0 (info.code + rnw.val * 2 ^ 10 + rnc.val * 2 ^ 14))
  | .ereply h m => some (msgRaw 0x20F h m 0 0 vzc)
  | .signalB h d n b => some (mkRaw 0x210 0 h d.code n.code b.code 0)
  | .signalI h d n i => some (mkRaw 0x210 1 h d.code n.code vzc 0 i.toNat)
  | .waitn h nb d n wd => some (mkRaw 0x211 0 h d.code n.code vzc (boolNat nb * 2 ^ 11 + wd.code))
  | .revoke h d r q => some (mkRaw 0x212 0 h d.code r.code (0x340 + q.val) 0)
  | .exportMake h ps d x m => some (mkRaw 0x213 0 h d.code x.code (m.elim vzc Reg.code) (boolNat m.isSome * 2 ^ 5 + ps.val * 2 ^ 2))
  | .exportDrop h ps d x m => some (mkRaw 0x213 0 h d.code x.code (m.elim vzc Reg.code) (boolNat m.isSome * 2 ^ 5 + ps.val * 2 ^ 2 + 1))
  | .qbind h ro d q cq => some (mkRaw 0x214 0 h d.code cq.code (0x340 + q.val) ro.code)
  | .qbindUnb h d q => some (mkRaw 0x214 0 h d.code vzc (0x340 + q.val) 2)
  | .shfl h mo w sg pv d a b c m => some (mkRaw 0x280 1 h d.code a.code b.code (mo.code * 2 ^ 11 + boolNat w * 2 ^ 10 + sg.val * 2 ^ 7 + pv.val * 2 ^ 4) (extC c.code m.code))
  | .voteB h mo pd ps pn d m => some (mkRaw 0x281 0 h d.code vzc m.code (mo.code * 2 ^ 11 + pd.val * 2 ^ 8 + ps.val * 2 ^ 5 + boolNat pn * 2 ^ 4))
  | .voteI h mo pd ps pn d k => some (mkRaw 0x281 1 h d.code vzc vzc (mo.code * 2 ^ 11 + pd.val * 2 ^ 8 + ps.val * 2 ^ 5 + boolNat pn * 2 ^ 4) k.toNat)
  | .rdfirstB h w d a m => some (mkRaw 0x282 0 h d.code a.code m.code (w.code * 2 ^ 11))
  | .rdfirstI h w d a k => some (mkRaw 0x282 1 h d.code a.code vzc (w.code * 2 ^ 11) k.toNat)
  | .lrankB h s d m => some (mkRaw 0x283 0 h d.code vzc m.code (s.code * 2 ^ 11))
  | .lrankI h s d k => some (mkRaw 0x283 1 h d.code vzc vzc (s.code * 2 ^ 11) k.toNat)
  | .matchB h w d a m => some (mkRaw 0x284 0 h d.code a.code m.code (boolNat w * 2 ^ 12))
  | .matchI h w d a k => some (mkRaw 0x284 1 h d.code a.code vzc (boolNat w * 2 ^ 12) k.toNat)
  | .reduxB h o t d a m => some (mkRaw 0x285 0 h d.code a.code m.code (o.code * 2 ^ 10 + t.code * 2 ^ 6))
  | .reduxI h o t d a k => some (mkRaw 0x285 1 h d.code a.code vzc (o.code * 2 ^ 10 + t.code * 2 ^ 6) k.toNat)
  | .scanB h o t e d a m => some (mkRaw 0x286 0 h d.code a.code m.code (o.code * 2 ^ 10 + t.code * 2 ^ 6 + boolNat e * 2 ^ 5))
  | .scanI h o t e d a k => some (mkRaw 0x286 1 h d.code a.code vzc (o.code * 2 ^ 10 + t.code * 2 ^ 6 + boolNat e * 2 ^ 5) k.toNat)
  | .gatherB h d m => some (mkRaw 0x287 0 h d.code vzc m.code 0)
  | .gatherI h d k => some (mkRaw 0x287 1 h d.code vzc vzc 0 k.toNat)
  | .barB h mo b n m => some (mkRaw 0x288 0 h vzc n.code m.code (mo.code * 2 ^ 11 + b.val))
  | .barI h mo b n k => some (mkRaw 0x288 1 h vzc n.code vzc (mo.code * 2 ^ 11 + b.val) k.toNat)
  | .hbarB h mo b n m => some (mkRaw 0x289 0 h vzc n.code m.code (mo.code * 2 ^ 11 + b.val))
  | .hbarI h mo b n k => some (mkRaw 0x289 1 h vzc n.code vzc (mo.code * 2 ^ 11 + b.val) k.toNat)
  | .launch h s lr ar off => some (mkRaw 0x28A 1 h s.code lr.code ar.code 0 (extC off.code vzc))
  | .launchOne h s lr ar off m => some (mkRaw 0x28A 1 h s.code lr.code ar.code 1 (extC off.code m.code))
  | .qfence h k => some (mkRaw 0x28B 1 h vzc vzc vzc 0 k.toNat)
  | .mma h sr sl ac sb src ini sc =>
    let (k, a, e) := match src with
      | .regs a => (0, a.code, 0)
      | .scratch d t => (1, d.code, t.val)
      | .acc t c => (2, vzc, t.val * 2 ^ 6 + c.val * 2 ^ 9)
    some (mkRaw 0x300 2 h vzc a sc.code (sr.code * 2 ^ 10 + sl.val * 2 ^ 7 + ac.val * 2 ^ 4 + sb.val * 2 ^ 3 + k * 2 + boolNat ini) e)
  | .mwld h sl sb src =>
    let (k, a, b, e, enc) := match src with
      | .regs a => (0, a.code, vzc, 0, 0)
      | .loc l => (l.kind, (l.enc 0).1, vzc, (l.enc 0).2, 0)
      | .enc c p i ks => (2, c.code, ks.code, ((MLoc.mem c p i).enc 0).2, 1)
    some (mkRaw 0x301 2 h vzc a b (sl.val * 2 ^ 7 + sb.val * 2 ^ 3 + k * 2 + enc) e)
  | .mld h sl ac l => some (mkRaw 0x302 2 h vzc (l.enc 0).1 vzc (sl.val * 2 ^ 7 + ac.val * 2 ^ 4 + l.kind * 2) (l.enc 0).2)
  | .mst h df sl ac l => some (mkRaw 0x303 2 h vzc (l.enc 0).1 vzc (sl.val * 2 ^ 7 + ac.val * 2 ^ 4 + l.kind * 2) (l.enc df.code).2)
  | .mzero h t b => some (mkRaw 0x304 0 h vzc vzc vzc (b.toNat * 2 ^ 8 + t.toNat))
  | .mrow h o sl ac d n c0 => some (mkRaw 0x305 1 h d.code vzc n.code (sl.val * 2 ^ 7 + ac.val * 2 ^ 4 + o.code * 2 ^ 2) (extC c0.code 0))
  | .mscale h sl ac s n c0 => some (mkRaw 0x306 1 h vzc s.code n.code (sl.val * 2 ^ 7 + ac.val * 2 ^ 4) (extC c0.code 0))
  | .msave h m st => some (mkRaw 0x307 1 h vzc m.cap.code m.idx.code (6 * 2 ^ 9 + m.scale.val * 2 ^ 7 + boolNat st) m.imm.toNat)
  | .mload h m st => some (mkRaw 0x308 1 h vzc m.cap.code m.idx.code (6 * 2 ^ 9 + m.scale.val * 2 ^ 7 + boolNat st) m.imm.toNat)
  | .mstat h s ix d => some (mkRaw 0x309 0 h d.code vzc vzc (s.code * 2 ^ 10 + ix.val * 2 ^ 7))
  | .mcvt h sl x y dk => some (mkRaw 0x30A 0 h vzc vzc vzc (sl.val * 2 ^ 10 + x.val * 2 ^ 7 + y.val * 2 ^ 4 + dk.code * 2 ^ 2))
  | .tcopy h d b q => some (mkRaw 0x30B 0 h d.code b.code (0x340 + q.val) 0)
  | .coll h o ro t d s ds q root n => some (mkRaw 0x30C 2 h d.code s.code ds.code (o.code * 2 ^ 10 + ro.code * 2 ^ 6 + t.code * 2 ^ 3) ((0x340 + q.val) + root.toNat * 2 ^ 16 + n.toNat * 2 ^ 32))
  | .unassignedOpcode _ raw => some (Raw.ofWord raw.toNat)
  | _ => none

/-- The length in bits and the word of an instruction; none for an event. -/
def encode (i : Instr) : Option (Nat × Nat) :=
  match i with
  | .unassignedOpcode _ raw => some (lenBits (bitsAt raw.toNat 0 2), raw.toNat)
  | i => (toRaw i).map (fun r => (lenBits r.len, r.word))

/-! The decoder. -/

/-- The memory operand of forms M and N (R46, R47); none for a reserved TYPE or SCOPE. -/
def Raw.memOp (r : Raw) : Option MemOp := do
  let ty ← AType.ofCode (r.m 9 4)
  let ord ← MOrd.ofCode (r.m 5 2)
  let scope ← Scope.ofCode (r.m 2 3)
  some { cap := r.a, idx := r.b, imm := r.imm32, ty := ty, scale := Fin.ofNat 4 (r.m 7 2), ord := ord, scope := scope,
         far := r.mb 1, strm := r.mb 0 }

def Raw.hintOp (r : Raw) : HintOp := { cap := r.a, idx := r.b, imm := r.imm32, scale := Fin.ofNat 4 (r.m 7 2) }

/-- One of three instructions by form B, I or L. -/
def Raw.bil (r : Raw) (fB fI fL : Instr) : Option Instr :=
  match r.len with
  | 0 => some fB
  | 1 => some fI
  | 2 => some fL
  | _ => none

/-- One of two instructions by form B or I. -/
def Raw.bi (r : Raw) (fB fI : Instr) : Option Instr := if r.len = 0 then some fB else some fI

/-- A queue number of an operand code (R15). -/
def qOf (x : Nat) : Option (Fin 16) := if 0x340 ≤ x ∧ x < 0x350 then some (Fin.ofNat 16 (x - 0x340)) else none

def Raw.objOps (r : Raw) : Option ObjOps :=
  if bitsAt r.mod2 0 4 ≤ 8 then
    some { d := r.d, obj := r.a, args := r.b, narg := Fin.ofNat 9 (bitsAt r.mod2 0 4), cx := r.c }
  else none

def Raw.msgOps (r : Raw) : Option MsgOps :=
  if r.m 9 4 ≤ 8 ∧ r.m 7 2 ≤ 2 then
    some { d := r.d, obj := r.a, words := r.b, nw := Fin.ofNat 9 (r.m 9 4), caps := r.c, nc := Fin.ofNat 3 (r.m 7 2) }
  else none

/-- The location of a transfer (R288): kind 1 scratchpad, 2 memory. -/
def Raw.mloc (r : Raw) (kind : Nat) : Option MLoc :=
  match kind with
  | 1 => some (.scratch r.a (Fin.ofNat 64 (bitsAt r.ext 52 6)))
  | 2 => some (.mem r.a (BitVec.ofNat 20 (bitsAt r.ext 32 20)) (BitVec.ofNat 32 (bitsAt r.ext 0 32)))
  | _ => none

/-- Class 0 (R87-R113). CINP with CINEN = 0, and NBP with NB = 0, are ignored whatever they hold (log entry 71). -/
def parse0 (r : Raw) (sub : Nat) : Option Instr :=
  let h := r.hdr
  let t := IType.ofCode (r.m 9 4)
  let (d, a, b, c, i, l) := (r.d, r.a, r.b, r.c, r.imm32, r.imm64)
  match sub with
  | 0 => some (.nop h)
  | 1 =>
    (MovW.ofCode (r.m 9 4)).bind fun w =>
      match qOf r.dst, qOf r.srca with
      | some q, _ => some (.movPush h w q a (r.mb 8) (r.mp 5))
      | none, some q => some (.movPop h w d q (r.mb 8) (r.mp 5))
      | none, none => some (.mov h w d a)
  | 2 => t.bind fun t => if r.len = 1 then some (.moviI h t d i) else some (.moviL h t d l)
  | 3 => t.bind fun t => r.bi (.selB h t d a b (r.mp 6) (r.mb 5)) (.selI h t d a i (r.mp 6) (r.mb 5))
  | 4 => t.bind fun t => r.bil (.iaddB h t d a b) (.iaddI h t d a i) (.iaddL h t d a l)
  | 5 => t.bind fun t => r.bil (.isubB h t d a b) (.isubI h t d a i) (.isubL h t d a l)
  | 6 => t.bind fun t => r.bi (.iaddcB h t d a b (r.mp 6) (r.mb 5) (r.mp 2)) (.iaddcI h t d a i (r.mp 6) (r.mb 5) (r.mp 2))
  | 7 => t.bind fun t => (MulMode.ofCode (r.m 0 2)).bind fun m => r.bil (.imulB h t m d a b) (.imulI h t m d a i) (.imulL h t m d a l)
  | 8 => t.bind fun t => (MulMode.ofCode (r.m 0 2)).bind fun m => some (.imad h t m d a b c)
  | 9 => t.bind fun t => r.bi (.idivB h t d a b) (.idivI h t d a i)
  | 10 => t.bind fun t => r.bi (.iremB h t d a b) (.iremI h t d a i)
  | 11 => t.bind fun t => r.bi (.iminB h t d a b) (.iminI h t d a i)
  | 12 => t.bind fun t => r.bi (.imaxB h t d a b) (.imaxI h t d a i)
  | 13 => t.bind fun t => some (.iabs h t d a)
  | 14 => t.bind fun t => some (.ineg h t d a)
  | 15 => t.bind fun t => some (.isad h t d a b c)
  | 16 => t.bind fun t => (Cond.ofCode (r.m 3 3)).bind fun cd =>
      r.bil (.icmpB h t cd (r.mp 6) (r.mp 0) a b) (.icmpI h t cd (r.mp 6) (r.mp 0) a i) (.icmpL h t cd (r.mp 6) (r.mp 0) a l)
  | 17 => t.bind fun t => r.bil (.andB h t d a b) (.andI h t d a i) (.andL h t d a l)
  | 18 => t.bind fun t => r.bil (.orB h t d a b) (.orI h t d a i) (.orL h t d a l)
  | 19 => t.bind fun t => r.bil (.xorB h t d a b) (.xorI h t d a i) (.xorL h t d a l)
  | 20 => t.bind fun t => some (.not h t d a)
  | 21 => t.bind fun t => some (.lut3 h t (BitVec.ofNat 8 (r.m 0 8)) d a b c)
  | 22 => t.bind fun t => r.bi (.shlB h t (r.mb 0) d a b) (.shlI h t (r.mb 0) d a i)
  | 23 => t.bind fun t => r.bi (.shrB h t (r.mb 0) d a b) (.shrI h t (r.mb 0) d a i)
  | 24 => t.bind fun t => r.bi (.sarB h t (r.mb 0) d a b) (.sarI h t (r.mb 0) d a i)
  | 25 => t.bind fun t => some (.fshl h t d a b c)
  | 26 => t.bind fun t => some (.fshr h t d a b c)
  | 27 => t.bind fun t => some (.popc h t d a)
  | 28 => t.bind fun t => some (.clz h t d a)
  | 29 => t.bind fun t => some (.ctz h t d a)
  | 30 => t.bind fun t => some (.brev h t d a)
  | 31 => t.bind fun t => some (.bfx h t d a b c)
  | 32 => t.bind fun t => some (.bfi h t d a b c)
  | 33 => r.bi (.bpermB h d a b) (.bpermI h d a i)
  | 34 => some (.plut h (r.mp 10) (r.mp 7) (r.mp 4) (r.mp 1) (BitVec.ofNat 8 r.srca))
  | 35 => some (.p2v h d)
  | 36 => some (.v2p h a (BitVec.ofNat 7 (r.m 0 7)))
  | 37 => some (.idot4 h (r.mb 1) (r.mb 0) d a b c)
  | _ => none

/-- Class 1 (R88, R114-R125). -/
def parse1 (r : Raw) (sub : Nat) : Option Instr :=
  let h := r.hdr
  let ft := FType.ofCode (r.m 9 4)
  let rm := (Rnd.ofCode (r.m 7 2)).getD .rn
  let z := r.mb 6
  let (d, a, b, c, i, l) := (r.d, r.a, r.b, r.c, r.imm32, r.imm64)
  match sub with
  | 0 => ft.bind fun t => r.bil (.faddB h t rm z d a b) (.faddI h t rm z d a i) (.faddL h t rm z d a l)
  | 1 => ft.bind fun t => r.bil (.fsubB h t rm z d a b) (.fsubI h t rm z d a i) (.fsubL h t rm z d a l)
  | 2 => ft.bind fun t => r.bil (.fmulB h t rm z d a b) (.fmulI h t rm z d a i) (.fmulL h t rm z d a l)
  | 3 => ft.bind fun t => some (.ffma h t rm z d a b c)
  | 4 => ft.bind fun t => r.bi (.fminB h t z d a b) (.fminI h t z d a i)
  | 5 => ft.bind fun t => r.bi (.fmaxB h t z d a b) (.fmaxI h t z d a i)
  | 6 => ft.bind fun t => (FCond.ofCode (r.m 3 3)).bind fun cd =>
      r.bi (.fcmpB h t cd (r.mp 6) (r.mp 0) a b) (.fcmpI h t cd (r.mp 6) (r.mp 0) a i)
  | 7 => ft.bind fun t => r.bi (.fdivB h t rm z d a b) (.fdivI h t rm z d a i)
  | 8 => ft.bind fun t => some (.fsqrt h t rm z d a)
  | 9 => ft.bind fun t => some (.frcp h t rm z (r.mb 0) d a)
  | 10 => ft.bind fun t => some (.frsq h t z d a)
  | 11 => ft.bind fun t => some (.fex2 h t z d a)
  | 12 => ft.bind fun t => some (.flg2 h t z d a)
  | 13 => ft.bind fun t => some (.fsin h t z d a)
  | 14 => ft.bind fun t => some (.fcos h t z d a)
  | 15 => ft.bind fun t => some (.frnd h t rm z d a)
  | 16 => (Fmt.ofCode (r.m 9 4)).bind fun sf => (Fmt.ofCode (r.m 2 4)).bind fun df => some (.fcvt h sf df rm z (r.mb 1) d a)
  | 17 => (IType.ofCode (r.m 9 4)).bind fun it => (Fmt.ofCode (r.m 2 4)).bind fun df => some (.icvt h it df rm d a)
  | 18 => (IType.ofCode (r.m 9 4)).bind fun it => (Fmt.ofCode (r.m 2 4)).bind fun sf => some (.fcvi h it sf rm z d a)
  | 19 => ft.bind fun t => some (.fclass h t z d a)
  | 20 => ft.bind fun t => r.bi (.fscaleB h t rm z d a b) (.fscaleI h t rm z d a i)
  | 21 => ft.bind fun t => some (.fdot2 h t rm z d a b c)
  | _ => none

/-- Class 2 (R127-R139, R397). -/
def parse2 (r : Raw) (sub : Nat) : Option Instr :=
  let h := r.hdr
  let (d, a, i) := (r.d, r.a, r.imm32)
  match sub with
  | 0 => some (.bra h i)
  | 1 => some (.brx h a)
  | 2 => some (.call h d i)
  | 3 => some (.callx h d a)
  | 4 => some (.ret h a)
  | 5 => some (.meet h (r.mb 0) i)
  | 6 => some (.exit h)
  | 7 => r.bi (.trapB h a) (.trapI h i)
  | 8 => some (.bkpt h)
  | 9 => some (.yield h)
  | 10 => if r.m 0 4 ≤ 8 then some (.svc h (r.mp 4) (Fin.ofNat 9 (r.m 0 4)) d a) else none
  | 11 => some (.getsr h (BitVec.ofNat 8 (r.m 0 8)) d)
  | 12 => some (.setsr h (BitVec.ofNat 8 (r.m 0 8)) a)
  | 13 =>
    match r.m 0 2 with
    | 0 => some (.emret h .adv)
    | 1 => some (.emret h .retry)
    | 2 => some (.emret h (.to a))
    | _ => none
  | 14 => (MOrd.ofCode (r.m 5 2)).bind fun o => (Scope.ofCode (r.m 2 3)).bind fun s => some (.fence h o s)
  | 15 => r.bi (.napB h a) (.napI h i)
  | _ => none

/-- Class 3 (R141-R149, R264-R277). -/
def parse3 (r : Raw) (sub : Nat) : Option Instr :=
  let h := r.hdr
  let m := r.memOp
  let (d, a, b) := (r.d, r.a, r.b)
  let rot : Fin 8 := Fin.ofNat 8 (bitsAt r.mod3 9 3)
  match sub with
  | 0 => m.bind fun m => if r.len = 1 then some (.ldM h m d) else some (.ldN h m rot d)
  | 1 => m.bind fun m => if r.len = 1 then some (.stM h m d) else some (.stN h m rot d)
  | 2 => m.bind fun m => some (.ldc h m d)
  | 3 => m.bind fun m => some (.stc h m d)
  | 4 => (PrefHint.ofCode (r.m 9 4)).bind fun t => some (.pref h t r.hintOp)
  | 5 => (ResidHint.ofCode (r.m 9 4)).bind fun t => some (.resid h t r.hintOp)
  | 6 => m.bind fun m => (AOp.ofCode (bitsAt r.mod3 8 4)).bind fun o =>
      some (.atom h m o (bitsAt r.mod3 7 1 == 1) (bitsAt r.mod3 6 1 == 1) (bitsAt r.mod3 5 1 == 1) (bitsAt r.mod3 4 1 == 1) d r.nc)
  | 7 => m.bind fun m => some (.atomx h m (bitsAt r.mod3 4 1 == 1) d r.nc r.nd)
  | 8 => m.bind fun m => (AOp.ofCode (bitsAt r.mod3 8 4)).bind fun o =>
      some (.red h m o (bitsAt r.mod3 7 1 == 1) (bitsAt r.mod3 6 1 == 1) (bitsAt r.mod3 5 1 == 1) r.nc)
  | 9 => m.bind fun m => (Cond.ofCode (bitsAt r.mod3 9 3)).bind fun cp => some (.waitc h m cp (bitsAt r.mod3 8 1 == 1) d r.nc)
  | 10 => if r.mb 0 then some (.bindUn h d a (Fin.ofNat 16 (r.m 1 4))) else some (.bind h d a (Fin.ofNat 16 (r.m 1 4)) b)
  | 11 => some (.acq h (r.mb 0) d a)
  | 12 => some (.rel h d a)
  | 13 => (FlushOp.ofCode (r.m 9 4)).bind fun o => some (.cflush h o r.hintOp)
  | 14 => some (.pwait h r.hintOp d)
  | _ => none

/-- The rows of OBJ by SUBOP (R159); .config and .faultact are refined at issue by the words they read. -/
def parseObj (h : Hdr) (sub : Nat) (o : ObjOps) : Option Instr :=
  match sub with
  | 0 => some (.objRetype h o)
  | 1 => some (.objConfigUntypedReset h o)
  | 2 => some (.objMap h o)
  | 3 => some (.objUnmap h o)
  | 4 => some (.objBind h o)
  | 5 => some (.objSuspend h o)
  | 6 => some (.objResume h o)
  | 7 => some (.objTeardown h o)
  | 8 => some (.objStatus h o)
  | 9 => some (.objFreeze h o)
  | 10 => some (.objAttest h o)
  | 11 => some (.faultactResume h o)
  | _ => none

/-- Class 4 (R151-R159, R317, R362-R364, R403, R438). -/
def parse4 (r : Raw) (sub : Nat) : Option Instr :=
  let h := r.hdr
  let (d, a, b, i, l) := (r.d, r.a, r.b, r.imm32, r.imm64)
  match sub with
  | 0 => (CField.ofCode (r.m 0 4)).bind fun f => some (.cget h f d a)
  | 1 => r.bil (.csetaB h d a b) (.csetaI h d a i) (.csetaL h d a l)
  | 2 => r.bil (.cincB h d a b) (.cincI h d a i) (.cincL h d a l)
  | 3 => r.bil (.cbndB h (r.mb 0) d a b) (.cbndI h (r.mb 0) d a i) (.cbndL h (r.mb 0) d a l)
  | 4 => r.bi (.candpB h d a b) (.candpI h d a i)
  | 5 => some (.cseal h d a b)
  | 6 => some (.cunseal h d a b)
  | 7 => (CCond.ofCode (r.m 7 3)).bind fun cd => some (.ctest h cd (r.mp 10) a b)
  | 8 => some (.cmov h d a)
  | 9 => some (.cclr h d a)
  | 10 => some (.ceq h (r.mp 10) a b)
  | 11 => r.objOps.bind fun o => parseObj h (r.m 8 5) o
  | 12 => r.msgOps.bind fun m => some (.send h m (r.mb 6) (r.mp 3))
  | 13 => r.msgOps.bind fun m => some (.recv h m (r.mb 6) (r.mp 3) (Reg.ofCode (bitsAt r.mod2 0 10)) (Reg.ofCode (bitsAt r.mod2 10 10)))
  | 14 => r.msgOps.bind fun m =>
      if bitsAt r.mod2 10 4 ≤ 8 ∧ bitsAt r.mod2 14 2 ≤ 2 then
        some (.ecall h m (Reg.ofCode (bitsAt r.mod2 0 10)) (Fin.ofNat 9 (bitsAt r.mod2 10 4)) (Fin.ofNat 3 (bitsAt r.mod2 14 2)))
      else none
  | 15 => r.msgOps.bind fun m => some (.ereply h m)
  | 16 => r.bi (.signalB h d a b) (.signalI h d a i)
  | 17 => if r.m 11 2 ≤ 1 then some (.waitn h (r.mb 11) d a (Reg.ofCode (r.m 0 10))) else none
  | 18 => (qOf r.srcb).bind fun q => some (.revoke h d a q)
  | 19 =>
    let mask := if r.mb 5 then some b else none
    match r.m 0 2 with
    | 0 => some (.exportMake h (r.mp 2) d a mask)
    | 1 => some (.exportDrop h (r.mp 2) d a mask)
    | _ => none
  | 20 => (qOf r.srcb).bind fun q =>
      match r.m 0 2 with
      | 0 => some (.qbind h .push d q a)
      | 1 => some (.qbind h .pop d q a)
      | 2 => some (.qbindUnb h d q)
      | _ => none
  | _ => none

/-- Class 5 (R187). -/
def parse5 (r : Raw) (sub : Nat) : Option Instr :=
  let h := r.hdr
  let (d, a, b, c, i) := (r.d, r.a, r.b, r.c, r.imm32)
  let mc := Reg.ofCode (bitsAt r.mod2 0 10)
  match sub with
  | 0 => (ShflMode.ofCode (r.m 11 2)).bind fun mo =>
      if r.m 7 3 ≤ 5 then some (.shfl h mo (r.mb 10) (Fin.ofNat 6 (r.m 7 3)) (r.mp 4) d a b c mc) else none
  | 1 => (VoteMode.ofCode (r.m 11 2)).bind fun mo =>
      r.bi (.voteB h mo (r.mp 8) (r.mp 5) (r.mb 4) d b) (.voteI h mo (r.mp 8) (r.mp 5) (r.mb 4) d i)
  | 2 => (RdWidth.ofCode (r.m 11 2)).bind fun w => r.bi (.rdfirstB h w d a b) (.rdfirstI h w d a i)
  | 3 => (RankSel.ofCode (r.m 11 2)).bind fun s => r.bi (.lrankB h s d b) (.lrankI h s d i)
  | 4 => r.bi (.matchB h (r.mb 12) d a b) (.matchI h (r.mb 12) d a i)
  | 5 => (RedOp.ofCode (r.m 10 3)).bind fun o => (RType.ofCode (r.m 6 4)).bind fun t => r.bi (.reduxB h o t d a b) (.reduxI h o t d a i)
  | 6 => (RedOp.ofCode (r.m 10 3)).bind fun o => (RType.ofCode (r.m 6 4)).bind fun t =>
      r.bi (.scanB h o t (r.mb 5) d a b) (.scanI h o t (r.mb 5) d a i)
  | 7 => r.bi (.gatherB h d b) (.gatherI h d i)
  | 8 => (BarMode.ofCode (r.m 11 2)).bind fun mo => r.bi (.barB h mo (Fin.ofNat 16 (r.m 0 4)) a b) (.barI h mo (Fin.ofNat 16 (r.m 0 4)) a i)
  | 9 => (BarMode.ofCode (r.m 11 2)).bind fun mo => r.bi (.hbarB h mo (Fin.ofNat 4 (r.m 0 4)) a b) (.hbarI h mo (Fin.ofNat 4 (r.m 0 4)) a i)
  | 10 => if r.mb 0 then some (.launchOne h d a b c mc) else some (.launch h d a b c)
  | 11 => some (.qfence h (BitVec.ofNat 16 r.ext))
  | _ => none

/-- Class 6 (R290-R305, R332, R443). -/
def parse6 (r : Raw) (sub : Nat) : Option Instr :=
  let h := r.hdr
  let (d, a, b, c) := (r.d, r.a, r.b, r.c)
  let f8 (lo : Nat) : Fin 8 := Fin.ofNat 8 (r.m lo 3)
  let sb : Fin 2 := Fin.ofNat 2 (r.m 3 1)
  match sub with
  | 0 => (Semiring.ofCode (r.m 10 3)).bind fun sr =>
      match r.m 1 2 with
      | 0 => some (.mma h sr (f8 7) (f8 4) sb (.regs a) (r.mb 0) b)
      | 1 => some (.mma h sr (f8 7) (f8 4) sb (.scratch a (Fin.ofNat 64 (bitsAt r.ext 0 6))) (r.mb 0) b)
      | 2 => some (.mma h sr (f8 7) (f8 4) sb (.acc (Fin.ofNat 8 (bitsAt r.ext 6 3)) (Fin.ofNat 16 (bitsAt r.ext 9 4))) (r.mb 0) b)
      | _ => none
  | 1 =>
    if r.mb 0 then
      match r.mloc (r.m 1 2) with
      | some (.mem cp p i) => some (.mwld h (f8 7) sb (.enc cp p i b))
      | _ => none
    else if r.m 1 2 = 0 then some (.mwld h (f8 7) sb (.regs a))
    else (r.mloc (r.m 1 2)).bind fun l => some (.mwld h (f8 7) sb (.loc l))
  | 2 => (r.mloc (r.m 1 2)).bind fun l => some (.mld h (f8 7) (f8 4) l)
  | 3 => (Fmt.ofCode (bitsAt r.ext 58 4)).bind fun df => (r.mloc (r.m 1 2)).bind fun l => some (.mst h df (f8 7) (f8 4) l)
  | 4 => some (.mzero h (BitVec.ofNat 8 (r.m 0 8)) (BitVec.ofNat 2 (r.m 8 2)))
  | 5 => (RowOp.ofCode (r.m 2 2)).bind fun o => some (.mrow h o (f8 7) (f8 4) d b c)
  | 6 => some (.mscale h (f8 7) (f8 4) a b c)
  | 7 => some (.msave h r.hintOp (r.mb 0))
  | 8 => some (.mload h r.hintOp (r.mb 0))
  | 9 => (MStatSel.ofCode (r.m 10 3)).bind fun s => some (.mstat h s (f8 7) d)
  | 10 => (DKind.ofCode (r.m 2 2)).bind fun k => some (.mcvt h (f8 10) (f8 7) (f8 4) k)
  | 11 => (qOf r.srcb).bind fun q => some (.tcopy h d a q)
  | 12 => (CollOp.ofCode (r.m 10 3)).bind fun o => (CollRop.ofCode (r.m 6 4)).bind fun ro => (CollType.ofCode (r.m 3 3)).bind fun t =>
      (qOf (bitsAt r.ext 0 10)).bind fun q => some (.coll h o ro t d a b q (BitVec.ofNat 12 (bitsAt r.ext 16 12)) (BitVec.ofNat 32 (bitsAt r.ext 32 32)))
  | _ => none

/-- The instruction that the fields name, before the checks; none for a reserved modifier value. -/
def parse (r : Raw) : Option Instr :=
  match r.op / 128 with
  | 0 => parse0 r (r.op % 128)
  | 1 => parse1 r (r.op % 128)
  | 2 => parse2 r (r.op % 128)
  | 3 => parse3 r (r.op % 128)
  | 4 => parse4 r (r.op % 128)
  | 5 => parse5 r (r.op % 128)
  | 6 => parse6 r (r.op % 128)
  | _ => none

/-- What the decoder answers: an instruction, an illegal encoding with the lowest reason of R392 that the word alone gives, or the reserved LEN (R40). -/
inductive Decoded where
  | ok (i : Instr)
  | illegal (reason : Nat)
  | badLength
  deriving DecidableEq, Repr

/-- The register fields of a word by its form (R43), for the reserved codes of R17; PLUT's SRCA holds a table (R111). -/
def Raw.regFields (r : Raw) : List Nat :=
  [r.dst, r.srcb] ++ (if r.op = 0x022 then [] else [r.srca]) ++
    (if r.len = 1 ∧ [0x008, 0x00F, 0x015, 0x019, 0x01A, 0x01F, 0x020, 0x025, 0x083, 0x095, 0x20B, 0x20C, 0x20D, 0x20E, 0x20F, 0x280, 0x28A, 0x305, 0x306].contains r.op
     then [bitsAt r.ext 0 10] else []) ++
    (if r.op = 0x30C then [bitsAt r.ext 0 10] else []) ++
    (if r.len = 2 ∧ [0x180, 0x181, 0x186, 0x187, 0x188, 0x189].contains r.op then [bitsAt r.ext 32 10, bitsAt r.ext 42 10] else [])

/-- A code of 0x390-0x3FE (R17). -/
def reservedCode (x : Nat) : Bool := 0x390 ≤ x && x < 0x3FF

/-- The checks on the fields: parsed, no reserved value in an unused field (the encoder gives the same fields back), and well formed. -/
def decodeCore (r : Raw) : Decoded :=
  let r4 := if r.regFields.any reservedCode then 4 else 0
  match parse r with
  | none => .illegal (minReason r4 8)
  | some i =>
    let re := minReason r4 (minReason i.staticReason (if toRaw i = some r then 0 else 8))
    if re = 0 then .ok i else .illegal re

/-- The fields with a legal scope or semiring in place of a reserved one (R392 codes 9 and 10), when the word holds a reserved one. -/
def Raw.rescope (r : Raw) : Option (Raw × Nat) :=
  if ([0x180, 0x181, 0x182, 0x183, 0x186, 0x187, 0x188, 0x189, 0x10E].contains r.op) ∧ 6 ≤ r.m 2 3 then
    some ({ r with mod := r.mod - (r.m 2 3 - 1) * 4 }, 9)
  else if r.op = 0x300 ∧ 6 ≤ r.m 10 3 then some ({ r with mod := r.mod - r.m 10 3 * 1024 }, 10)
  else none

/-- The decoder, total on every word; bits above the word's length are not read. -/
def decodeWord (w : Nat) : Decoded :=
  let r := Raw.ofWord w
  if r.len = 3 then .badLength
  else
    match opForm? r.op with
    | none => .ok (.unassignedOpcode r.hdr (BitVec.ofNat 128 (w % 2 ^ lenBits r.len)))
    | some _ =>
      if !hasForm r.op r.len then .illegal 3
      else
        match r.rescope with
        | none => decodeCore r
        | some (r', re) =>
          match decodeCore r' with
          | .ok _ => .illegal re
          | other => other

/-- Little-endian bytes of a number (R4). -/
def bytesOf (n : Nat) : Nat → List Byte
  | 0 => []
  | k + 1 => BitVec.ofNat 8 n :: bytesOf (n / 256) k

/-- The number that little-endian bytes hold (R4). -/
def ofBytes : List Byte → Nat
  | [] => 0
  | b :: bs => b.toNat + 256 * ofBytes bs

/-- The decoder on bytes in memory order: the instruction and the rest of the bytes, or the refusal. -/
def decodeBytes (bs : List Byte) : Decoded × List Byte :=
  let w := ofBytes (bs.take 16)
  (decodeWord w, bs.drop (footOfLen (bitsAt w 0 2)))

/-- What the decoder reads from an instruction whose bits are numbered as spec/opcode_table.json numbers them, every bit above `nbits` being 0: the word is laid out as bytes in memory order and decoded. -/
def decodeTableWord (nbits w : Nat) : Option Instr :=
  match (decodeBytes (bytesOf (w % 2 ^ nbits) 16)).1 with
  | .ok i => some i
  | _ => none

end Sys2Proof
end

