-- ==== Sys2Proof/Machine/Maps.lean ====
section
/-! DEFINITION. Maps from numbers as lists with strictly rising keys: lookup, setting, deleting; with a default that is never listed, the canonical form of memory and registers. -/

namespace Sys2Proof.Machine

/-- The value at a key. -/
def Map.get? {α : Type} (k : Nat) : List (Nat × α) → Option α
  | [] => none
  | (a, v) :: m => if a = k then some v else Map.get? k m

/-- Sets the value at a key, keeping the keys rising. -/
def Map.set {α : Type} (k : Nat) (v : α) : List (Nat × α) → List (Nat × α)
  | [] => [(k, v)]
  | (a, w) :: m => if k < a then (k, v) :: (a, w) :: m else if a = k then (k, v) :: m else (a, w) :: Map.set k v m

/-- Removes a key. -/
def Map.del {α : Type} (k : Nat) : List (Nat × α) → List (Nat × α)
  | [] => []
  | (a, w) :: m => if a = k then Map.del k m else (a, w) :: Map.del k m

/-- Changes the value at a key that is listed. -/
def Map.modify {α : Type} (k : Nat) (f : α → α) : List (Nat × α) → List (Nat × α)
  | [] => []
  | (a, w) :: m => if a = k then (a, f w) :: m else (a, w) :: Map.modify k f m

/-- The value at a key, `d` when none is listed. -/
def SMap.get {α : Type} (d : α) (k : Nat) (m : SMap α) : α := (Map.get? k m).getD d

/-- Writes a value; the default is never listed. -/
def SMap.put {α : Type} [DecidableEq α] (d : α) (k : Nat) (v : α) (m : SMap α) : SMap α :=
  if v = d then Map.del k m else Map.set k v m

/-- The canonical form: keys strictly rising, the default not listed. -/
def SMap.wf {α : Type} [DecidableEq α] (d : α) : SMap α → Bool
  | [] => true
  | [(_, v)] => decide (v ≠ d)
  | (a, v) :: (b, w) :: m => decide (v ≠ d) && decide (a < b) && SMap.wf d ((b, w) :: m)

/-- The values at n consecutive keys. -/
def SMap.range {α : Type} (d : α) (m : SMap α) (k : Nat) : Nat → List α
  | 0 => []
  | n + 1 => SMap.get d k m :: SMap.range d m (k + 1) n

/-- Writes values at consecutive keys. -/
def SMap.putRange {α : Type} [DecidableEq α] (d : α) (k : Nat) (vs : List α) (m : SMap α) : SMap α :=
  match vs with
  | [] => m
  | v :: vs => SMap.putRange d (k + 1) vs (SMap.put d k v m)

end Sys2Proof.Machine
end

