-- ==== Sys2Proof/Machine/Crypto.lean ====
section
/-! DEFINITION. SHA-384 and AES-256, which the manual names by their standards (R296, R447, R458, R463). PRESUMED from FIPS 180-4, FIPS 197 and SP 800-38D (log entry 14). -/

namespace Sys2Proof.Machine

/-- The integer cube root, by bits from the highest. -/
def cbrtFrom (n : Nat) : Nat → Nat → Nat
  | 0, r => r
  | k + 1, r => let c := r + 2 ^ k; if c * c * c ≤ n then cbrtFrom n k c else cbrtFrom n k r
/-- The integer square root, by bits from the highest. -/
def sqrtFrom (n : Nat) : Nat → Nat → Nat
  | 0, r => r
  | k + 1, r => let c := r + 2 ^ k; if c * c ≤ n then sqrtFrom n k c else sqrtFrom n k r

/-- The first 80 primes. -/
def primes80 : List Nat :=
  (List.range 410).filter fun n => decide (2 ≤ n) && (List.range 21).all fun d => decide (d < 2) || decide (n ≤ d) || n % d != 0

def shaK : List Nat := primes80.map fun p => cbrtFrom (p * 2 ^ 192) 68 0 % 2 ^ 64
/-- The initial hash value of SHA-384: fractions of the square roots of the 9th to 16th primes. -/
def shaInit : List Nat := ((primes80.drop 8).take 8).map fun p => sqrtFrom (p * 2 ^ 128) 69 0 % 2 ^ 64

def rotr64 (x n : Nat) : Nat := x / 2 ^ n + x % 2 ^ n * 2 ^ (64 - n)
def big0 (x : Nat) : Nat := rotr64 x 28 ^^^ rotr64 x 34 ^^^ rotr64 x 39
def big1 (x : Nat) : Nat := rotr64 x 14 ^^^ rotr64 x 18 ^^^ rotr64 x 41
def small0 (x : Nat) : Nat := rotr64 x 1 ^^^ rotr64 x 8 ^^^ x / 2 ^ 7
def small1 (x : Nat) : Nat := rotr64 x 19 ^^^ rotr64 x 61 ^^^ x / 2 ^ 6

/-- The message schedule, newest word first. -/
def schedule : Nat → List Nat → List Nat
  | 0, w => w
  | n + 1, w =>
    let at_ (i : Nat) := w[i]?.getD 0
    schedule n ((small1 (at_ 1) + at_ 6 + small0 (at_ 14) + at_ 15) % 2 ^ 64 :: w)

def shaRound (h : List Nat) (kw : Nat × Nat) : List Nat :=
  match h with
  | [a, b, c, d, e, f, g, hh] =>
    let t1 := hh + big1 e + ((e &&& f) ^^^ ((2 ^ 64 - 1 - e) &&& g)) + kw.1 + kw.2
    let t2 := big0 a + ((a &&& b) ^^^ (a &&& c) ^^^ (b &&& c))
    [(t1 + t2) % 2 ^ 64, a, b, c, (d + t1) % 2 ^ 64, e, f, g]
  | h => h

/-- A number from bytes, most significant first. -/
def ofBytesBE (bs : List Byte) : Nat := bs.foldl (fun acc b => acc * 256 + b.toNat) 0
def bytesBE (n v : Nat) : List Byte := (bytesOf v n).reverse

def shaBlock (h : List Nat) (block : List Byte) : List Nat :=
  let w := (List.range 16).map fun i => ofBytesBE ((block.drop (8 * i)).take 8)
  let ws := (schedule 64 w.reverse).reverse
  let r := (shaK.zip ws).foldl shaRound h
  (h.zip r).map fun p => (p.1 + p.2) % 2 ^ 64

def shaBlocks : Nat → List Nat → List Byte → List Nat
  | 0, h, _ => h
  | n + 1, h, bs => shaBlocks n (shaBlock h (bs.take 128)) (bs.drop 128)

/-- SHA-384: 48 bytes. -/
def sha384 (bs : List Byte) : List Byte :=
  let l := bs.length
  let pad := bs ++ [(0x80 : Byte)] ++ List.replicate ((239 - l % 128) % 128) (0 : Byte) ++ bytesBE 16 (8 * l)
  ((shaBlocks (pad.length / 128) shaInit pad).take 6).flatMap (bytesBE 8)

/-! AES-256. -/

/-- Multiplication in GF(2^8) modulo x^8 + x^4 + x^3 + x + 1. -/
def gfMul (a b : Nat) : Nat :=
  ((List.range 8).foldl (fun (acc : Nat × Nat) i =>
    (if b / 2 ^ i % 2 = 1 then acc.1 ^^^ acc.2 else acc.1, if 128 ≤ acc.2 then (acc.2 * 2) ^^^ 0x11B else acc.2 * 2)) (0, a)).1
def gfPow (a : Nat) : Nat → Nat
  | 0 => 1
  | n + 1 => gfMul a (gfPow a n)
def sboxOf (x : Nat) : Nat :=
  let b := gfPow x 254
  let r (n : Nat) := (b * 2 ^ n + b * 2 ^ n / 256) % 256
  b ^^^ r 1 ^^^ r 2 ^^^ r 3 ^^^ r 4 ^^^ 0x63
def sboxTable : List Nat := (List.range 256).map sboxOf
def subByte (x : Nat) : Nat := sboxTable[x]?.getD 0

def xorList (a b : List Nat) : List Nat := (a.zip b).map fun p => p.1 ^^^ p.2

/-- The key schedule: words of four bytes, newest first. -/
def keyWords : Nat → Nat → List (List Nat) → List (List Nat)
  | 0, _, ws => ws
  | n + 1, i, ws =>
    let last := ws[0]?.getD []
    let t :=
      if i % 8 = 0 then xorList ((last.drop 1 ++ last.take 1).map subByte) [gfPow 2 (i / 8 - 1), 0, 0, 0]
      else if i % 8 = 4 then last.map subByte else last
    keyWords n (i + 1) (xorList (ws[7]?.getD []) t :: ws)

def roundKeys (key : List Nat) : List (List Nat) :=
  let ws := (keyWords 52 8 ((List.range 8).map fun i => (key.drop (4 * i)).take 4).reverse).reverse
  (List.range 15).map fun r => ((ws.drop (4 * r)).take 4).flatten

def shiftRows (s : List Nat) : List Nat := (List.range 16).map fun i => s[(i + 4 * (i % 4)) % 16]?.getD 0
def mixColumns (s : List Nat) : List Nat :=
  (List.range 16).map fun i =>
    let c := i / 4 * 4
    let at_ (j : Nat) := s[c + (i + j) % 4]?.getD 0
    gfMul 2 (at_ 0) ^^^ gfMul 3 (at_ 1) ^^^ at_ 2 ^^^ at_ 3

/-- AES-256 of one block, bytes in order. -/
def aes256 (key block : List Nat) : List Nat :=
  let ks := roundKeys key
  let s := xorList block (ks[0]?.getD [])
  let s := (List.range 13).foldl (fun s r => xorList (mixColumns (shiftRows (s.map subByte))) (ks[r + 1]?.getD [])) s
  xorList (shiftRows (s.map subByte)) (ks[14]?.getD [])

/-- The inverse S-box. -/
def invTable : List Nat := (List.range 256).map fun y => sboxTable.idxOf y
def invByte (y : Nat) : Nat := invTable[y]?.getD 0
def invShiftRows (s : List Nat) : List Nat := (List.range 16).map fun i => s[(i + 12 * (i % 4)) % 16]?.getD 0
def invMixColumns (s : List Nat) : List Nat :=
  (List.range 16).map fun i =>
    let c := i / 4 * 4
    let at_ (j : Nat) := s[c + (i + j) % 4]?.getD 0
    gfMul 14 (at_ 0) ^^^ gfMul 11 (at_ 1) ^^^ gfMul 13 (at_ 2) ^^^ gfMul 9 (at_ 3)

/-- The decryption of one block. -/
def aes256Inv (key block : List Nat) : List Nat :=
  let ks := roundKeys key
  let s := (invShiftRows (xorList block (ks[14]?.getD []))).map invByte
  let s := (List.range 13).foldl (fun s r => (invShiftRows (invMixColumns (xorList s (ks[13 - r]?.getD [])))).map invByte) s
  xorList s (ks[0]?.getD [])

/-- The bytes of a key, the first being bits 7:0 of the number. -/
def keyBytes (k : BitVec 256) : List Nat := (bytesOf k.toNat 32).map BitVec.toNat

/-! AES-256-XTS (R455): data units of 64 bytes, the tweak a unit's physical address. PRESUMED from IEEE 1619 (log entry 14). -/

/-- A tweak times alpha, as a number whose bytes come least significant first. -/
def timesAlpha (t : Nat) : Nat := t * 2 % 2 ^ 128 ^^^ (if 2 ^ 127 ≤ t then 0x87 else 0)
/-- The tweak of a 16-byte block, by its number in memory. -/
def xtsTweak (key : BitVec 256) (g : Nat) : Nat :=
  let t := ofBytes ((aes256 (keyBytes key) ((bytesOf (g / 4 * 64) 16).map BitVec.toNat)).map (BitVec.ofNat 8))
  (List.range (g % 4)).foldl (fun t _ => timesAlpha t) t

/-- One block through AES under the first of the two keys that a slot's key gives, between two sums with its tweak under the second. -/
def xtsBlock (aes : List Nat → List Nat → List Nat) (key : BitVec 256) (g : Nat) (b : BitVec 128) : BitVec 128 :=
  let ks := Config.xtsKeys key
  let t : BitVec 128 := BitVec.ofNat 128 (xtsTweak ks.2 g)
  let y := (aes (keyBytes ks.1) ((bytesOf (b ^^^ t).toNat 16).map BitVec.toNat)).map (BitVec.ofNat 8)
  BitVec.ofNat 128 (ofBytes y) ^^^ t

/-- What a block written under one key, none for plaintext, reads as under another: it is encrypted as it was written, and decrypted as it is read. -/
def recrypt (k0 k : Option (BitVec 256)) (g : Nat) (b : BitVec 128) : BitVec 128 :=
  let c := match k0 with | some k => xtsBlock aes256 k g b | none => b
  match k with | some k => xtsBlock aes256Inv k g c | none => c

/-- GF(2^128) product of GCM, blocks as numbers with the first bit highest. -/
def ghashMul (x y : Nat) : Nat :=
  ((List.range 128).foldl (fun (acc : Nat × Nat) i =>
    (if x / 2 ^ (127 - i) % 2 = 1 then acc.1 ^^^ acc.2 else acc.1,
     if acc.2 % 2 = 1 then acc.2 / 2 ^^^ (0xE1 * 2 ^ 120) else acc.2 / 2)) (0, y)).1

/-- AES-256-GCM decryption of up to two blocks with a 12-byte IV: the plaintext, none when the tag is wrong. -/
def gcmOpen (key : List Nat) (iv aad ct tag : List Byte) : Option (List Byte) :=
  let num (bs : List Byte) := ofBytesBE (bs ++ List.replicate ((16 - bs.length % 16) % 16) (0 : Byte))
  let enc (n : Nat) := ofBytesBE ((aes256 key ((bytesBE 16 n).map BitVec.toNat)).map (BitVec.ofNat 8))
  let h := enc 0
  let j0 := ofBytesBE iv * 2 ^ 32 + 1
  let blocks := (List.range ((ct.length + 15) / 16)).map fun i => (ct.drop (16 * i)).take 16
  let x := ghashMul (num aad) h
  let x := blocks.foldl (fun x b => ghashMul (x ^^^ num b) h) x
  let x := ghashMul (x ^^^ (8 * aad.length * 2 ^ 64 + 8 * ct.length)) h
  if bytesBE 16 (x ^^^ enc j0) = tag then
    some (((blocks.zip (List.range blocks.length)).map fun p =>
      ((p.1.zip (bytesBE 16 (enc (j0 + 1 + p.2)))).map fun q => q.1 ^^^ q.2)).flatten)
  else none

end Sys2Proof.Machine
end

