-- ==== Sys2Proof/Machine/Float.lean ====
section
/-! DEFINITION. Numbers (chapter 4): formats, exact values, one rounding, conversions, minimum and maximum, the operations bounded in ulps. Exact finite values are (−1)^neg × m × 2^e. -/

namespace Sys2Proof

/-- Exponent and fraction bits (R64). -/
def Fmt.ebits : Fmt → Nat
  | .fp64 => 11 | .fp32 => 8 | .bf16 => 8 | .fp16 => 5 | .e4m3 => 4 | .e5m2 => 5 | _ => 8
def Fmt.fbits : Fmt → Nat
  | .fp64 => 52 | .fp32 => 23 | .bf16 => 7 | .fp16 => 10 | .e4m3 => 3 | .e5m2 => 2 | _ => 23
/-- Bits of an element of a format (R64, R69). -/
def Fmt.bits : Fmt → Nat
  | .fp64 => 64 | .fp32 | .int32 => 32 | .bf16 | .fp16 | .int16 => 16
  | .e4m3 | .e5m2 | .int8 | .uint8 | .pp8 => 8 | .int4 => 4 | .b1 => 1
def Fmt.bias (f : Fmt) : Nat := 2 ^ (f.ebits - 1) - 1
/-- The exponent of the least subnormal. -/
def Fmt.qmin (f : Fmt) : Int := 1 - (f.bias : Int) - f.fbits
/-- The pattern of the largest finite value, without sign (R64, R66). -/
def Fmt.maxFin (f : Fmt) : Nat :=
  match f with
  | .e4m3 => 0x7E
  | f => (2 ^ f.ebits - 1) * 2 ^ f.fbits - 1
def Fmt.infBits (f : Fmt) : Nat := (2 ^ f.ebits - 1) * 2 ^ f.fbits
/-- The canonical NaN (R64). -/
def Fmt.nanBits : Fmt → Nat
  | .fp64 => 0x7FF8000000000000 | .fp32 => 0x7FC00000 | .fp16 => 0x7E00 | .bf16 => 0x7FC0 | .e4m3 => 0x7F | .e5m2 => 0x7E
  | _ => 0
def Fmt.signBit (f : Fmt) : Nat := 2 ^ (f.bits - 1)

/-- Format codes as formats and integer formats (R79). -/
def Fmt.isInt : Fmt → Bool
  | .int8 | .uint8 | .int4 | .int16 | .int32 => true
  | _ => false
def Fmt.intSigned : Fmt → Bool
  | .uint8 => false
  | _ => true

end Sys2Proof

namespace Sys2Proof.Machine

/-- A value of a floating-point format (R65). -/
inductive Val where
  | nan
  | inf (neg : Bool)
  | fin (neg : Bool) (m : Nat) (e : Int)
  deriving DecidableEq, Repr

/-- One term of PP8 scaled by 2^6 (R67). -/
def pp8Term (b : Nat) : Int :=
  if b % 8 = 7 then 0 else (if b / 8 % 2 = 1 then -1 else 1) * (2 ^ (6 - b % 8) : Nat)

/-- The exact value of an integer. -/
def Val.ofInt (i : Int) : Val := .fin (decide (i < 0)) i.natAbs 0

/-- Two's complement reading of n bits. -/
def toSigned (n x : Nat) : Int := if x % 2 ^ n < 2 ^ (n - 1) then (x % 2 ^ n : Nat) else (x % 2 ^ n : Nat) - (2 ^ n : Nat)
/-- The low n bits of an integer. -/
def ofSigned (n : Nat) (i : Int) : Nat := (i % (2 ^ n : Nat)).toNat

/-- The value that a pattern of a format has (R65-R69); under .ftz a subnormal is zero of its sign (R72). -/
def decodeF (f : Fmt) (ftz : Bool) (x : Nat) : Val :=
  match f with
  | .pp8 => let i := pp8Term (x / 16) + pp8Term x; .fin (decide (i < 0)) i.natAbs (-6)
  | .int4 => Val.ofInt (toSigned 4 x)
  | .int8 => Val.ofInt (toSigned 8 x)
  | .uint8 => .fin false (x % 256) 0
  | .int16 => Val.ofInt (toSigned 16 x)
  | .int32 => Val.ofInt (toSigned 32 x)
  | .b1 => .fin false (x % 2) 0
  | f =>
    let neg := x / f.signBit % 2 = 1
    let e := x / 2 ^ f.fbits % 2 ^ f.ebits
    let fr := x % 2 ^ f.fbits
    if f = .e4m3 ∧ e = 15 ∧ fr = 7 then .nan
    else if f ≠ .e4m3 ∧ e = 2 ^ f.ebits - 1 then (if fr = 0 then .inf neg else .nan)
    else if e = 0 then (if ftz then .fin neg 0 f.qmin else .fin neg fr f.qmin)
    else .fin neg (2 ^ f.fbits + fr) (f.qmin + (e - 1 : Nat))

/-- m × 2^e as (floor, remainder sign against one half, exact) in units of 2^q. -/
def scaleTo (m : Nat) (e q : Int) : Nat × Nat × Nat :=
  if q ≤ e then (m * 2 ^ (e - q).toNat, 0, 1) else (m / 2 ^ (q - e).toNat, m % 2 ^ (q - e).toNat, 2 ^ (q - e).toNat)

/-- k + r / d rounded to an integer by a mode (R71). -/
def roundUnit (mode : Rnd) (neg : Bool) (k r d : Nat) : Nat :=
  if r = 0 then k
  else
    match mode with
    | .rn => if 2 * r < d then k else if 2 * r = d then k + k % 2 else k + 1
    | .rz => k
    | .rd => if neg then k + 1 else k
    | .ru => if neg then k else k + 1

/-- Overflow (R71, R76): infinity or the largest finite value, by mode; with `sat` the largest finite value. -/
def overflowF (f : Fmt) (mode : Rnd) (sat neg : Bool) : Nat :=
  let toInf := match mode with | .rn => true | .rz => false | .rd => neg | .ru => !neg
  let sg := if neg then f.signBit else 0
  if !toInf || sat then sg + f.maxFin
  else if f = .e4m3 then f.nanBits else sg + f.infBits

/-- An exact finite value rounded once to a format (R71, R72). -/
def roundF (f : Fmt) (mode : Rnd) (ftz sat neg : Bool) (m : Nat) (e : Int) : Nat :=
  let sg := if neg then f.signBit else 0
  if m = 0 then sg
  else
    let top : Int := (Nat.log2 m : Int) + e
    let q := max (top - f.fbits) f.qmin
    let (k, r, d) := scaleTo m e q
    let k' := roundUnit mode neg k r d
    let bits := (q - f.qmin).toNat * 2 ^ f.fbits + k'
    if bits > f.maxFin then overflowF f mode sat neg
    else if ftz && decide (bits < 2 ^ f.fbits) then sg
    else sg + bits

/-- A value in a format: the canonical NaN for NaN (R73); saturation maps an infinity only in E4M3 (R76). -/
def encodeF (f : Fmt) (mode : Rnd) (ftz sat : Bool) : Val → Nat
  | .nan => f.nanBits
  | .inf neg =>
    if f = .e4m3 then (if sat then (if neg then f.signBit else 0) + f.maxFin else f.nanBits)
    else (if neg then f.signBit else 0) + f.infBits
  | .fin neg m e => roundF f mode ftz sat neg m e

/-- Signed mantissas on a common exponent. -/
def signedAt (q : Int) (neg : Bool) (m : Nat) (e : Int) : Int :=
  (if neg then -1 else 1) * ((m * 2 ^ (e - q).toNat : Nat) : Int)

/-- Exact sum; an exact zero of unlike signs is −0 only towards −infinity (R74). -/
def Val.add (mode : Rnd) : Val → Val → Val
  | .nan, _ | _, .nan => .nan
  | .inf a, .inf b => if a = b then .inf a else .nan
  | .inf a, .fin .. => .inf a
  | .fin .., .inf b => .inf b
  | .fin na ma ea, .fin nb mb eb =>
    let q := min ea eb
    let s := signedAt q na ma ea + signedAt q nb mb eb
    if s = 0 then .fin (if na = nb then na else mode == .rd) 0 q else .fin (decide (s < 0)) s.natAbs q

def Val.neg : Val → Val
  | .nan => .nan
  | .inf a => .inf (!a)
  | .fin a m e => .fin (!a) m e

/-- Exact product (R73). -/
def Val.mul : Val → Val → Val
  | .nan, _ | _, .nan => .nan
  | .inf a, .inf b => .inf (a != b)
  | .inf a, .fin b m _ | .fin b m _, .inf a => if m = 0 then .nan else .inf (a != b)
  | .fin a m e, .fin b n g => .fin (a != b) (m * n) (e + g)

/-- Exact quotient to more bits than any format holds, the last one sticky (R75). -/
def Val.div : Val → Val → Val
  | .nan, _ | _, .nan => .nan
  | .inf _, .inf _ => .nan
  | .inf a, .fin b _ _ => .inf (a != b)
  | .fin a _ _, .inf b => .fin (a != b) 0 0
  | .fin a m e, .fin b n g =>
    if n = 0 then (if m = 0 then .nan else .inf (a != b))
    else
      let sh := 66 + Nat.log2 n
      let num := m * 2 ^ sh
      .fin (a != b) (2 * (num / n) + (if num % n = 0 then 0 else 1)) (e - g - sh - 1)

/-- Integer square root from the top bit down. -/
def isqrt (n : Nat) : Nat → Nat → Nat
  | 0, r => r
  | b + 1, r => let c := r + 2 ^ b; isqrt n b (if c * c ≤ n then c else r)

/-- Exact square root to more bits than any format holds, the last one sticky. -/
def Val.sqrt : Val → Val
  | .nan => .nan
  | .inf a => if a then .nan else .inf false
  | .fin a m e =>
    if m = 0 then .fin a 0 e
    else if a then .nan
    else
      let e1 := if e % 2 = 0 then e else e - 1
      let m1 := if e % 2 = 0 then m else 2 * m
      let n := m1 * 2 ^ 132
      let r := isqrt n ((Nat.log2 n) / 2 + 1) 0
      .fin false (2 * r + (if r * r = n then 0 else 1)) (e1 / 2 - 66 - 1)

/-- x ≤ y for values that are not NaN, −0 below +0. -/
def Val.le : Val → Val → Bool
  | .nan, _ | _, .nan => false
  | .inf a, .inf b => a || !b
  | .inf a, .fin .. => a
  | .fin .., .inf b => !b
  | .fin na ma ea, .fin nb mb eb =>
    let q := min ea eb
    let x := signedAt q na ma ea
    let y := signedAt q nb mb eb
    if x = 0 ∧ y = 0 then na || !nb else decide (x ≤ y)

/-- Equal as numbers: +0 = −0. -/
def Val.eqv : Val → Val → Bool
  | .inf a, .inf b => a = b
  | .fin na ma ea, .fin nb mb eb =>
    let q := min ea eb
    decide (signedAt q na ma ea = signedAt q nb mb eb)
  | _, _ => false

/-- Strictly less as numbers. -/
def Val.lt (x y : Val) : Bool := Val.le x y && !Val.eqv x y

/-- minimumNumber and maximumNumber (R74). -/
def Val.minNum (x y : Val) : Val :=
  match x, y with
  | .nan, y => y
  | x, .nan => x
  | x, y => if Val.le x y then x else y
def Val.maxNum (x y : Val) : Val :=
  match x, y with
  | .nan, y => y
  | x, .nan => x
  | x, y => if Val.le x y then y else x

/-- A finite value rounded to an integer. -/
def roundToInt (mode : Rnd) (neg : Bool) (m : Nat) (e : Int) : Int :=
  let (k, r, d) := scaleTo m e 0
  (if neg then -1 else 1) * (roundUnit mode neg k r d : Int)

def clampInt (lo hi i : Int) : Int := if i < lo then lo else if hi < i then hi else i

/-- The range of an integer format of n bits. -/
def intLo (signed : Bool) (n : Nat) : Int := if signed then -(2 ^ (n - 1) : Nat) else 0
def intHi (signed : Bool) (n : Nat) : Int := if signed then (2 ^ (n - 1) : Nat) - 1 else (2 ^ n : Nat) - 1

/-- Conversion to an integer format, saturating (R77). -/
def Val.toInt (signed : Bool) (n : Nat) (mode : Rnd) : Val → Int
  | .nan => 0
  | .inf neg => if neg then intLo signed n else intHi signed n
  | .fin neg m e => clampInt (intLo signed n) (intHi signed n) (roundToInt mode neg m e)

/-- A conversion between formats through a slot or an instruction (R76, R77): by mode, flush and saturation. -/
def convertF (src dst : Fmt) (mode : Rnd) (ftz sat : Bool) (x : Nat) : Nat :=
  let v := decodeF src ftz x
  if dst.isInt then
    if src.isInt then
      match v with
      | .fin neg m _ =>
        let i : Int := (if neg then -1 else 1) * (m : Int)
        if sat then ofSigned dst.bits (clampInt (intLo dst.intSigned dst.bits) (intHi dst.intSigned dst.bits) i)
        else ofSigned dst.bits i
      | _ => 0
    else ofSigned dst.bits (v.toInt dst.intSigned dst.bits mode)
  else
    -- PP8 and integers have no signed zero
    encodeF dst mode ftz sat v

/-- Exact sum of several values, one rounding later (R193, R125). -/
def sumVals (mode : Rnd) (vs : List Val) : Val :=
  match vs with
  | [] => .fin false 0 0
  | v :: vs => vs.foldl (fun a b => Val.add mode a b) v

/-! The operations bounded in ulps (R75). A close rational value is computed; the hardware's own result is a free pattern, used when it lies within the bound and replaced by the rounded value when not. -/

/-- π × 2^320 and ln 2 × 2^192, truncated. -/
def piFix : Nat := 6710401180212168915155840974220003240804194089427148950727106424351713218671805380099500388914039
def ln2Fix : Nat := 4350955369971217654477563090224794165364344896676135745069

/-- Taylor sum of exp(x) for 0 ≤ x < 1 in fixed point of 192 bits. -/
def expFix (x : Nat) : Nat → Nat → Nat → Nat → Nat
  | 0, _, _, acc => acc
  | n + 1, k, t, acc => let t' := t * x / 2 ^ 192 / k; expFix x n (k + 1) t' (acc + t')

/-- 2^(f / 2^192) × 2^192. -/
def exp2Fix (f : Nat) : Nat := expFix (f * ln2Fix / 2 ^ 192) 60 1 (2 ^ 192) (2 ^ 192)

/-- Bits of log2 of x / 2^192 in [1, 2), by squaring. -/
def log2Fix (x : Nat) : Nat → Nat → Nat
  | 0, acc => acc
  | n + 1, acc =>
    let y := x * x / 2 ^ 192
    if 2 ^ 193 ≤ y then log2Fix (y / 2) n (2 * acc + 1) else log2Fix y n (2 * acc)

/-- Alternating Taylor sum for sine (k = 2) and cosine (k = 1) in fixed point of 320 bits. -/
def trigFix (x2 : Nat) : Nat → Nat → Nat → Bool → Int → Int
  | 0, _, _, _, acc => acc
  | n + 1, k, t, sg, acc =>
    let t' := t * x2 / 2 ^ 320 / (k * (k + 1))
    trigFix x2 n (k + 2) t' (!sg) (acc + (if sg then -(t' : Int) else (t' : Int)))

/-- sin (cosine when `cos`) of m × 2^e, as a fixed-point value of 320 bits. -/
def sinFix (cos : Bool) (m : Nat) (e : Int) : Int :=
  -- x in fixed point, exact for the arguments of the formats
  let x := (scaleTo m e (-320)).1
  let quarter := x * 2 / piFix
  let r := x - quarter * piFix / 2
  let r2 := r * r / 2 ^ 320
  -- the sine of a small angle lies below it, by less than a unit here
  let sn := trigFix r2 60 2 r true r - (if r = 0 then 0 else 1)
  let cs := trigFix r2 60 1 (2 ^ 320) true (2 ^ 320)
  let k := (quarter + (if cos then 1 else 0)) % 4
  if k = 0 then sn else if k = 1 then cs else if k = 2 then -sn else -cs

/-- The value of a fixed-point number. -/
def Val.ofFix (i : Int) (e : Int) : Val := .fin (decide (i < 0)) i.natAbs e

/-- Within n ulp of an exact value (R75): the gap between the neighbours that bracket it. -/
def withinUlp (f : Fmt) (n : Nat) (exact cand : Val) : Bool :=
  match exact, cand with
  | .fin ne me ee, .fin nc mc ec =>
    let q := max ((Nat.log2 me : Int) + ee - f.fbits) f.qmin
    let lo := min (min ee ec) q
    decide ((signedAt lo ne me ee - signedAt lo nc mc ec).natAbs ≤ n * 2 ^ (q - lo).toNat)
  | _, _ => false

/-- The pattern that the hardware gives where the manual bounds it. -/
def approxF (opn : Nat) (f : Fmt) (ftz : Bool) (ulps x : Nat) (exact : Val) : Nat :=
  let cand := Config.approx opn (Fmt.bits f) x % 2 ^ f.bits
  let good := withinUlp f ulps exact (decodeF f false cand) && !(ftz && decide (cand % f.signBit < 2 ^ f.fbits) && decide (cand % f.signBit ≠ 0))
  if good then cand else encodeF f .rn ftz false exact

/-- FRCP without a mode (R75). -/
def frcpApprox (f : Fmt) (ftz : Bool) (x : Nat) : Nat :=
  let v := decodeF f ftz x
  let r := Val.div (.fin false 1 0) v
  match v with
  | .fin _ m _ => if m = 0 then encodeF f .rn ftz false r else approxF 0 f ftz 1 x r
  | _ => encodeF f .rn ftz false r

/-- FRSQ (R75). -/
def frsqF (f : Fmt) (ftz : Bool) (x : Nat) : Nat :=
  match decodeF f ftz x with
  | .nan => f.nanBits
  | .inf neg => if neg then f.nanBits else 0
  | .fin neg m e =>
    if m = 0 then encodeF f .rn ftz false (.inf neg)
    else if neg then f.nanBits
    else approxF 1 f ftz 1 x (Val.div (.fin false 1 0) (Val.sqrt (.fin false m e)))

/-- FEX2 (R75): exact for integers whose result is finite and normal. -/
def fex2F (f : Fmt) (ftz : Bool) (x : Nat) : Nat :=
  match decodeF f ftz x with
  | .nan => f.nanBits
  | .inf neg => if neg then 0 else f.infBits
  | .fin neg m e =>
    if 20 < (Nat.log2 m : Int) + e ∧ m ≠ 0 then (if neg then approxF 2 f ftz 2 x (.fin false 1 (-1200)) else f.infBits)
    else
      let fx : Int := signedAt (-192) neg (scaleTo m e (-192)).1 (-192)
      let ip := fx / (2 ^ 192 : Nat)
      let fr := (fx % (2 ^ 192 : Nat)).toNat
      let exactInt := fr = 0 ∧ (scaleTo m e (-192)).2.1 = 0
      if exactInt then
        let r := encodeF f .rn ftz false (.fin false 1 ip)
        if 2 ^ f.fbits ≤ r ∧ r ≤ f.maxFin then r
        else if f.maxFin < r then r else approxF 2 f ftz 2 x (.fin false 1 ip)
      else
        let v := Val.fin false (exp2Fix fr) (ip - 192)
        if f.maxFin < encodeF f .rz false false v + 1 ∧ ip > f.bias then f.infBits else approxF 2 f ftz 2 x v

/-- FLG2 (R75): exact for powers of two. -/
def flg2F (f : Fmt) (ftz : Bool) (x : Nat) : Nat :=
  match decodeF f ftz x with
  | .nan => f.nanBits
  | .inf neg => if neg then f.nanBits else f.infBits
  | .fin neg m e =>
    if m = 0 then f.signBit + f.infBits
    else if neg then f.nanBits
    else
      let l := Nat.log2 m
      let ip : Int := (l : Int) + e
      if m = 2 ^ l then encodeF f .rn ftz false (Val.ofInt ip)
      else
        let fr := log2Fix (m * 2 ^ 192 / 2 ^ l) 160 0
        approxF 3 f ftz 2 x (Val.ofFix (ip * (2 ^ 160 : Nat) + fr) (-160))

/-- FSIN and FCOS (R75). -/
def fsinF (f : Fmt) (ftz cos : Bool) (x : Nat) : Nat :=
  match decodeF f ftz x with
  | .nan | .inf _ => f.nanBits
  | .fin neg m e =>
    if m = 0 then (if cos then encodeF f .rn ftz false (.fin false 1 0) else encodeF f .rn ftz false (.fin neg 0 e))
    else
      let v := sinFix cos m e
      let v := if neg && !cos then -v else v
      approxF (if cos then 5 else 4) f ftz 2 x (Val.ofFix v (-320))

/-- Exp2 of the helpers (R7): what FEX2.f32 gives. -/
def exp2F32 (x : Nat) : Nat := fex2F .fp32 false x

end Sys2Proof.Machine
end

