-- ==== Sys2Proof/Machine/Flags.lean ====
section
/-! DEFINITION. What the instructions of classes 0 and 1 compute from operand values: integer results, carries, comparisons and the predicates they set, logic, shifts, fields, and the floating-point operations by type (R70, R87-R125). Operands are numbers; the low n bits of an n-bit type are read. -/

namespace Sys2Proof.Machine

/-- The value an operand of a type stands for: signed for .i (R95). -/
def ival (t : IType) (x : Nat) : Int := if t.signed then toSigned t.bits x else (x % 2 ^ t.bits : Nat)

/-- A result as it is written: a narrow .i type extends its sign over 32 bits (R70). -/
def narrow (t : IType) (x : Nat) : Nat :=
  if t.signed && decide (t.bits < 32) then ofSigned 32 (toSigned t.bits x) else x % 2 ^ t.bits

/-- Exact integer results narrowed to the type (R78). -/
def narrowI (t : IType) (i : Int) : Nat := narrow t (ofSigned t.bits i)

/-- An immediate widened by R45, as the 64-bit operand. -/
def immI (t : IType) (imm : BitVec 32) : Nat :=
  if t.unsignedN then imm.toNat else (imm.signExtend 64).toNat

/-! Integer arithmetic (R95-R101). -/

def iadd (t : IType) (a b : Nat) : Nat := narrowI t (ival t a + ival t b)
def isub (t : IType) (a b : Nat) : Nat := narrowI t (ival t a - ival t b)

/-- The product by MODE (R95); `.wide` gives 64 bits. -/
def imulP (t : IType) (m : MulMode) (a b : Nat) : Int :=
  let p := ival t a * ival t b
  match m with
  | .lo => p
  | .hi => p / (2 ^ t.bits : Nat)
  | .wide => p
def imul (t : IType) (m : MulMode) (a b : Nat) : Nat :=
  match m with
  | .wide => ofSigned 64 (imulP t m a b)
  | m => narrowI t (imulP t m a b)
def imad (t : IType) (m : MulMode) (a b c : Nat) : Nat :=
  match m with
  | .wide => ofSigned 64 (imulP t m a b + (c : Int))
  | m => narrowI t (imulP t m a b + ival t c)

/-- IADDC: the sum and the carry out (R96). -/
def iaddc (t : IType) (a b : Nat) (cin : Bool) : Nat × Bool :=
  let s := a % 2 ^ t.bits + b % 2 ^ t.bits + cin.toNat
  (s % 2 ^ t.bits, decide (2 ^ t.bits ≤ s))

/-- Division towards zero and its remainder, with the corners of R78. -/
def idiv (t : IType) (a b : Nat) : Nat :=
  let x := ival t a; let y := ival t b
  if y = 0 then narrowI t (-1) else narrowI t (Int.tdiv x y)
def irem (t : IType) (a b : Nat) : Nat :=
  let x := ival t a; let y := ival t b
  if y = 0 then narrow t a else narrowI t (Int.tmod x y)

def imin (t : IType) (a b : Nat) : Nat := if ival t a ≤ ival t b then narrow t a else narrow t b
def imax (t : IType) (a b : Nat) : Nat := if ival t a ≤ ival t b then narrow t b else narrow t a
def iabs (t : IType) (a : Nat) : Nat := narrowI t (ival t a).natAbs
def ineg (t : IType) (a : Nat) : Nat := narrowI t (-(ival t a))
def isad (t : IType) (a b c : Nat) : Nat := narrowI t ((ival t a - ival t b).natAbs + ival t c)

/-- Byte i of a, signed or not (R101). -/
def elem8 (sgn : Bool) (a i : Nat) : Int :=
  let b := a / 2 ^ (8 * i) % 256
  if sgn then toSigned 8 b else (b : Int)
def idot4 (asgn bsgn : Bool) (a b c : Nat) : Nat :=
  ofSigned 32 ((c : Int) + ((List.range 4).map fun i => elem8 asgn a i * elem8 bsgn b i).sum)

/-- ICMP and WAITC (R102, R275). -/
def condI (c : Cond) (x y : Int) : Bool :=
  match c with
  | .eq => decide (x = y)
  | .ne => decide (x ≠ y)
  | .lt => decide (x < y)
  | .le => decide (x ≤ y)
  | .gt => decide (y < x)
  | .ge => decide (y ≤ x)
def icmp (t : IType) (c : Cond) (a b : Nat) : Bool := condI c (ival t a) (ival t b)

/-! Logic, shifts, fields (R103-R113). -/

def bitAt (x i : Nat) : Nat := x / 2 ^ i % 2
def lut3 (t : IType) (tt : BitVec 8) (a b c : Nat) : Nat :=
  (List.range t.bits).foldr (fun j acc => acc + (bitAt tt.toNat (4 * bitAt a j + 2 * bitAt b j + bitAt c j)) * 2 ^ j) 0
/-- A shift amount (R105). -/
def shAmount (t : IType) (wrap : Bool) (s : Nat) : Nat := if wrap then s % 2 ^ 32 % t.bits else s % 2 ^ 32
def ishl (t : IType) (wrap : Bool) (a s : Nat) : Nat :=
  let k := shAmount t wrap s
  narrow t (if t.bits ≤ k then 0 else a % 2 ^ t.bits * 2 ^ k)
def ishr (t : IType) (wrap : Bool) (a s : Nat) : Nat :=
  let k := shAmount t wrap s
  narrow t (if t.bits ≤ k then 0 else a % 2 ^ t.bits / 2 ^ k)
def isar (t : IType) (wrap : Bool) (a s : Nat) : Nat :=
  let k := min (shAmount t wrap s) 64
  narrowI t (toSigned t.bits a / (2 ^ k : Nat))
def fshl (t : IType) (a b s : Nat) : Nat :=
  let n := t.bits
  ((a % 2 ^ n * 2 ^ n + b % 2 ^ n) * 2 ^ (s % 2 ^ 32 % n) / 2 ^ n) % 2 ^ n
def fshr (t : IType) (a b s : Nat) : Nat :=
  let n := t.bits
  (a % 2 ^ n * 2 ^ n + b % 2 ^ n) / 2 ^ (s % 2 ^ 32 % n) % 2 ^ n
def popc (t : IType) (a : Nat) : Nat := ((List.range t.bits).map (bitAt a)).sum
def clz (t : IType) (a : Nat) : Nat :=
  let x := a % 2 ^ t.bits
  if x = 0 then t.bits else t.bits - 1 - Nat.log2 x
def ctz (t : IType) (a : Nat) : Nat := (((List.range t.bits).find? fun i => bitAt a i = 1)).getD t.bits
def brev (t : IType) (a : Nat) : Nat := (List.range t.bits).foldr (fun j acc => acc + bitAt a (t.bits - 1 - j) * 2 ^ j) 0
def bfx (t : IType) (a pos len : Nat) : Nat :=
  let n := t.bits
  let p := pos % 256; let l := len % 256; let e := min (p + l) n
  if l = 0 ∨ n ≤ p then 0
  else
    let f := a % 2 ^ n / 2 ^ p % 2 ^ (e - p)
    if t.signed then narrowI t (toSigned (e - p) f) else f
def bfi (t : IType) (a b ctl : Nat) : Nat :=
  let n := t.bits
  let p := ctl % 256; let l := ctl / 256 % 256; let e := min (p + l) n
  let x := a % 2 ^ n
  if 0 < l ∧ p < n then x - x / 2 ^ p % 2 ^ (e - p) * 2 ^ p + b % 2 ^ (e - p) * 2 ^ p else x
def bperm (a sel : Nat) : Nat :=
  (List.range 4).foldr (fun i acc =>
    let z := sel / 2 ^ (4 * i) % 16
    let x := a / 2 ^ (8 * (z % 8)) % 256
    acc + (if 8 ≤ z then (if 128 ≤ x then 255 else 0) else x) * 2 ^ (8 * i)) 0

/-! Floating point by type (R88, R114-R125). -/

/-- The element format of a type. -/
def elemFmt (t : FType) : Fmt :=
  match t with
  | .f64 => .fp64 | .f32 => .fp32 | .bf16 | .bf16x2 => .bf16 | .f16 | .f16x2 => .fp16

/-- An operation per element: packed types compute each half by itself (R70). -/
def perElem (t : FType) (f : Fmt → Nat → Nat → Nat → Nat) (a b c : Nat) : Nat :=
  let ft := elemFmt t
  if t.packed then f ft (a % 2 ^ 16) (b % 2 ^ 16) (c % 2 ^ 16) + 2 ^ 16 * f ft (a / 2 ^ 16 % 2 ^ 16) (b / 2 ^ 16 % 2 ^ 16) (c / 2 ^ 16 % 2 ^ 16)
  else f ft (a % 2 ^ ft.bits) (b % 2 ^ ft.bits) (c % 2 ^ ft.bits)

/-- A float immediate of form I widened by R45. -/
def immF (t : FType) (imm : BitVec 32) : Nat :=
  match t with
  | .f64 => convertF .fp32 .fp64 .rn false false imm.toNat
  | _ => imm.toNat

def fadd (t : FType) (r : Rnd) (z : Bool) (a b : Nat) : Nat :=
  perElem t (fun f x y _ => encodeF f r z false (Val.add r (decodeF f z x) (decodeF f z y))) a b 0
def fsub (t : FType) (r : Rnd) (z : Bool) (a b : Nat) : Nat :=
  perElem t (fun f x y _ => encodeF f r z false (Val.add r (decodeF f z x) (Val.neg (decodeF f z y)))) a b 0
def fmul (t : FType) (r : Rnd) (z : Bool) (a b : Nat) : Nat :=
  perElem t (fun f x y _ => encodeF f r z false (Val.mul (decodeF f z x) (decodeF f z y))) a b 0
def ffma (t : FType) (r : Rnd) (z : Bool) (a b c : Nat) : Nat :=
  perElem t (fun f x y w => encodeF f r z false (Val.add r (Val.mul (decodeF f z x) (decodeF f z y)) (decodeF f z w))) a b c
def fmin (t : FType) (z : Bool) (a b : Nat) : Nat :=
  perElem t (fun f x y _ => encodeF f .rn z false (Val.minNum (decodeF f z x) (decodeF f z y))) a b 0
def fmax (t : FType) (z : Bool) (a b : Nat) : Nat :=
  perElem t (fun f x y _ => encodeF f .rn z false (Val.maxNum (decodeF f z x) (decodeF f z y))) a b 0
def fdiv (t : FType) (r : Rnd) (z : Bool) (a b : Nat) : Nat :=
  perElem t (fun f x y _ => encodeF f r z false (Val.div (decodeF f z x) (decodeF f z y))) a b 0
def fsqrt (t : FType) (r : Rnd) (z : Bool) (a : Nat) : Nat :=
  perElem t (fun f x _ _ => encodeF f r z false (Val.sqrt (decodeF f z x))) a 0 0
def frcp (t : FType) (r : Rnd) (z cr : Bool) (a : Nat) : Nat :=
  perElem t (fun f x _ _ => if cr then encodeF f r z false (Val.div (.fin false 1 0) (decodeF f z x)) else frcpApprox f z x) a 0 0
def frsq (t : FType) (z : Bool) (a : Nat) : Nat := perElem t (fun f x _ _ => frsqF f z x) a 0 0
def fex2 (t : FType) (z : Bool) (a : Nat) : Nat := perElem t (fun f x _ _ => fex2F f z x) a 0 0
def flg2 (t : FType) (z : Bool) (a : Nat) : Nat := perElem t (fun f x _ _ => flg2F f z x) a 0 0
def fsinv (t : FType) (z cos : Bool) (a : Nat) : Nat := perElem t (fun f x _ _ => fsinF f z cos x) a 0 0
/-- FRND (R119). -/
def frndV (f : Fmt) (r : Rnd) (z : Bool) (x : Nat) : Nat :=
  match decodeF f z x with
  | .fin neg m e =>
    let i := (roundToInt r neg m e).natAbs
    encodeF f r z false (.fin neg i 0)
  | v => encodeF f r z false v
def frnd (t : FType) (r : Rnd) (z : Bool) (a : Nat) : Nat := perElem t (fun f x _ _ => frndV f r z x) a 0 0

/-- FCMP (R116). -/
def fcmp (t : FType) (c : FCond) (a b : Nat) : Bool :=
  let f := elemFmt t
  let x := decodeF f false (a % 2 ^ f.bits); let y := decodeF f false (b % 2 ^ f.bits)
  let un := x == .nan || y == .nan
  match c with
  | .eq => !un && Val.eqv x y
  | .ne => un || !Val.eqv x y
  | .lt => !un && Val.lt x y
  | .le => !un && (Val.lt x y || Val.eqv x y)
  | .gt => !un && Val.lt y x
  | .ge => !un && (Val.lt y x || Val.eqv x y)
  | .num => !un
  | .nan => un

def fcvt (sf df : Fmt) (r : Rnd) (z sat : Bool) (a : Nat) : Nat := convertF sf df r z sat (a % 2 ^ sf.bits)
def icvt (it : IType) (df : Fmt) (r : Rnd) (a : Nat) : Nat := encodeF df r false false (Val.ofInt (ival it a))
def fcvi (it : IType) (sf : Fmt) (r : Rnd) (z : Bool) (a : Nat) : Nat :=
  narrowI it (Val.toInt it.signed it.bits r (decodeF sf z (a % 2 ^ sf.bits)))

/-- FCLASS (R123). -/
def fclass (t : FType) (z : Bool) (a : Nat) : Nat :=
  let f := elemFmt t
  let x := a % 2 ^ f.bits
  match decodeF f z x with
  | .nan => 2 ^ 8
  | .inf neg => if neg then 2 ^ 0 else 2 ^ 7
  | .fin neg m _ =>
    if m = 0 then (if neg then 2 ^ 3 else 2 ^ 4)
    else if x % f.signBit < 2 ^ f.fbits then (if neg then 2 ^ 2 else 2 ^ 5)
    else (if neg then 2 ^ 1 else 2 ^ 6)

/-- FSCALE (R124); the exponent is bounded beyond every format's range before it scales. -/
def fscale (t : FType) (r : Rnd) (z : Bool) (a b : Nat) : Nat :=
  let k := clampInt (-5000) 5000 (toSigned 32 b)
  perElem t (fun f x _ _ =>
    match decodeF f z x with
    | .fin neg m e => encodeF f r z false (.fin neg m (e + k))
    | v => encodeF f r z false v) a 0 0

/-- FDOT2 (R125). -/
def fdot2 (t : FType) (r : Rnd) (z : Bool) (a b c : Nat) : Nat :=
  let f := elemFmt t
  let e (x i : Nat) := decodeF f z (x / 2 ^ (16 * i) % 2 ^ 16)
  encodeF .fp32 r z false
    (Val.add r (Val.add r (Val.mul (e a 0) (e b 0)) (Val.mul (e a 1) (e b 1))) (decodeF .fp32 z (c % 2 ^ 32)))

end Sys2Proof.Machine
end

