-- ==== Sys2Proof/Machine/State.lean ====
section
/-! DEFINITION. The state of the machine as plain data: threads, clans, groups and units, the object store, memory, the engines, the fabric, hosts and management; the reasons a step can stop; and the state after reset. -/

namespace Sys2Proof.Machine

/-- A capability value (R25): 128 bits and the tag beside them. -/
structure Cap where
  bits : BitVec 128
  tag : Bool
  deriving DecidableEq, Repr, Inhabited

/-- 128 zero bits with the tag clear (R24). -/
def Cap.null : Cap := ⟨0, false⟩

/-- One write of a result to a register or predicate (R50: per 32-bit register, whole capability, predicate). -/
inductive RegWrite where
  | w (r : Reg) (x : Word)
  | c (r : Reg) (x : Cap)
  | p (i : Pred) (x : Bool)
  deriving DecidableEq, Repr, Inhabited

/-- A fault as it is raised (R372): class, subclass, the address field and the capability that failed. -/
structure FaultInfo where
  cls : Nat
  sub : Nat
  addr : DWord := 0
  cap : Cap := Cap.null
  deriving DecidableEq, Repr, Inhabited

/-- Where the result of a long-latency instruction comes from: it is here, or a far atomic or a remote request still has it. -/
inductive PendSrc where
  | here
  | far (id : Nat)
  | remote (id : Nat)
  /-- An error found late, with the lanes of its performer: one record names them all (R48, R274). -/
  | failed (f : FaultInfo) (set : List Nat)
  deriving DecidableEq, Repr, Inhabited

/-- A long-latency instruction of a thread that has not completed (R49-R51): its results still to land and the instructions left in its window. -/
structure Pend where
  src : PendSrc
  writes : List RegWrite
  window : Nat
  pc : DWord
  raw : BitVec 128
  /-- The issue that it belongs to (R177, R178). -/
  issue : Nat := 0
  deriving DecidableEq, Repr, Inhabited

/-- Why a thread does not issue (R167), beside a meeting hold. -/
inductive Wait where
  | none
  | gather
  | barrier (hamlet : Bool) (b foot : Nat)
  | queue (q : Nat)
  | room (q : Nat)
  | recv (ep : Nat)
  | send (ep : Nat)
  | reply (r : Nat)
  | notif (n : Nat)
  | hold (so : Nat)
  | monitor
  | line (gid ln : Nat)
  | file (fm page : Nat)
  | nap (till foot : Nat)
  | fence
  | io (acc : Nat)
  | engine
  /-- A TCOPY whose request reads its index list before the Carter accepts it (R329). -/
  | copy (id : Nat)
  | obj (op : Nat)
  | release (foot : Nat)
  deriving DecidableEq, Repr, Inhabited

/-- A return record of the emulation handler (R399). -/
structure RetRec where
  pcc : Cap
  c30 : Cap
  epc : DWord
  emask : BitVec 32
  w4 : Word
  raw : BitVec 128
  slot : DWord
  deriving DecidableEq, Repr, Inhabited

/-- An empty return record. -/
def RetRec.zero : RetRec := ⟨Cap.null, Cap.null, 0, 0, 0, 0, 0⟩

/-- A message (R356): words, capabilities with the tags that the send capability let through, badge, and the Reply object of an ECALL. -/
structure Msg where
  words : List Word
  caps : List Cap
  badge : Nat
  reply : Option Nat
  deriving DecidableEq, Repr, Inhabited

/-- One thread (R163). -/
structure Thread where
  /-- v registers by number (R15, R18); absent ones read zero. -/
  v : SMap Word
  /-- c registers by number. -/
  c : SMap Cap
  /-- p0-p6 (R19). -/
  p : BitVec 7
  pcc : Cap
  meet : DWord
  /-- Released at its meeting address (R168). -/
  released : Bool
  pix : Word
  edepth : Nat
  rr1 : RetRec
  rr2 : RetRec
  live : Bool
  wait : Wait
  /-- %time when it parked (R380). -/
  parkedAt : Option Nat
  pend : List Pend
  /-- The number of the issue that it is in, or last was in, and whether it has yet to leave the instruction: one that is held and goes on is in the same issue (R166). -/
  issue : Nat
  going : Bool
  /-- Issues of its clan at other addresses since it became ready (R167). -/
  passed : Nat
  /-- The FILEMAP page that its access waited for, and whether the read failed, until the access is performed or faults (R337). -/
  paged : Option (Nat × Nat × Bool)
  /-- The parts that an access of several words has brought from another package, by place (R435). -/
  fetched : List (Nat × List Byte)
  /-- Bytes of its lane slice (R224) and their tags. -/
  slice : SMap Byte
  sliceTags : SMap Bool
  /-- 32-byte words of its slice with an uncorrectable error (R234). -/
  sliceEcc : SMap Bool
  deriving DecidableEq, Repr, Inhabited

/-- A binding of a queue register (R317, R383). `uid` names the engine queue of its TCOPY requests (R331). -/
structure Binding where
  q : Nat
  role : QRole
  seq : BitVec 32
  uid : Nat
  /-- The Queue that was bound: `QueueObj.made` of it (R318). -/
  made : Nat
  stage : Bool
  /-- The Queue capability that QBIND read (R382). -/
  cap : Cap
  deriving DecidableEq, Repr, Inhabited

/-- A pending gather (R172, R175). `formed` is set when it formed and its effect still waits (for room, or for the scheduler). -/
structure Gather where
  pc : DWord
  mask : BitVec 32
  waiting : BitVec 32
  excluded : BitVec 32
  formed : Bool
  /-- Its place among the gathers of its clan that formed (R173). -/
  seq : Nat := 0
  /-- The block that a TCOPY has read and waits with, and the format slots as they were then (R332). -/
  held : List Cap × List DWord := ([], [])
  /-- The k and kc registers at its formation, where it is not performed in that step (R173). -/
  src : Option (SMap Word × SMap Cap) := none
  deriving DecidableEq, Repr, Inhabited

/-- The uniform state of one clan (R163). -/
structure Clan where
  k : SMap Word
  kc : SMap Cap
  /-- The issue and the home lane that last wrote k n, at 2 n, and kc n, at 2 n + 1: a result that lands later, of an earlier issue or a lower lane, does not replace theirs (R177, R178, R394). -/
  wrote : SMap (Nat × Nat)
  q : SMap Binding
  gathers : List Gather
  /-- Partition 0-3 of its core (R164). -/
  part : Nat
  /-- Its place in the rotation of its priority (R214). -/
  age : Nat
  /-- The home lane that led its last issue (R167). -/
  lead : Nat
  deriving DecidableEq, Repr, Inhabited

/-- A barrier (R194). -/
structure Barrier where
  count : Nat
  exp : Nat
  phase : Bool
  deriving DecidableEq, Repr, Inhabited

def Barrier.zero : Barrier := ⟨0, 0, false⟩

/-- The descriptor of an ENC stationary buffer (R296, R305). -/
structure EncDesc where
  src : Cap
  ks : Cap
  pitch : Nat
  bf : Nat
  bscale : Nat
  deriving DecidableEq, Repr, Inhabited

/-- A stationary buffer (R282): state 0 EMPTY, 1 PLAIN, 2 ENC, 3 POISON. -/
structure SBuf where
  st : Nat
  bf : Nat
  bscale : Nat
  data : SMap Byte
  enc : Option EncDesc
  deriving DecidableEq, Repr, Inhabited

def SBuf.empty : SBuf := ⟨0, 0, 0, [], none⟩

/-- An accumulator tile (R281): its 16 KiB as 4,096 words, row-major, and its row flags. -/
structure Tile where
  el : SMap Word
  flags : BitVec 64
  deriving DecidableEq, Repr, Inhabited

def Tile.zero : Tile := ⟨[], 0⟩

/-- The fields of a launch record (R201). -/
structure Launch where
  entries : List Cap
  args : Cap
  sched : Nat
  ctx : Nat
  ovlp : Bool
  nstage : Nat
  ngrp : Nat
  shape : Nat × Nat × Nat
  grid : Nat × Nat × Nat
  scratch : Nat
  lanemem : Nat
  regs : Nat
  nqueue : Nat
  nsbuf : Nat
  nacc : Nat
  hambytes : Nat
  start : Nat
  pmode : Nat
  shifts : Nat × Nat × Nat
  slots : List DWord
  /-- REGS of the program header, which bounds the v registers that may be named (R18). -/
  declared : Nat
  /-- The 16 granules of the record as they stand (R382). -/
  granules : List Cap
  deriving DecidableEq, Repr, Inhabited

/-- A fault record (R375) with its answer, when one was accepted while the group was saved (R386). -/
structure FaultRec where
  fid : Nat
  info : FaultInfo
  deferred : Bool
  edepth : Nat
  noins : Bool
  clan : Nat
  imask : BitVec 32
  fmask : BitVec 32
  pc : DWord
  insn : BitVec 128
  time : Nat
  /-- Slot value that the instruction read (R377). -/
  slotv : DWord
  answer : Option (Nat × DWord)
  deriving DecidableEq, Repr, Inhabited

/-- Where a group stands: waiting for START, running, held by a fault, being saved, saved. -/
inductive GStat where
  | start
  | run
  | saving
  | saved
  deriving DecidableEq, Repr, Inhabited

/-- A group (R179). -/
structure Group where
  ctx : Nat
  unit : Nat
  launch : Launch
  /-- One thread on a service core (R165). -/
  service : Bool
  core : Nat
  ham : Nat × Nat × Nat
  rank : Nat
  stage : Nat
  nthreads : Nat
  clans : List (Nat × Clan)
  threads : List (Nat × Thread)
  scratch : SMap Byte
  stags : SMap Bool
  /-- 32-byte words of its scratchpad with an uncorrectable error (R234). -/
  secc : SMap Bool
  /-- Lines whose presence bit is clear (R229). -/
  absent : SMap Bool
  bars : SMap Barrier
  tiles : SMap Tile
  sbufs : SMap SBuf
  /-- Base of its save slot (R381); a slot is taken while a group holds it. -/
  slot : DWord
  stat : GStat
  /-- Pending fault records in FID order (R374). -/
  faults : List FaultRec
  /-- A stage whose threads have all exited and whose resources the next stage has not taken (R209). -/
  done : Bool
  /-- The WAITCs whose monitors its image keeps (R275): clan, lanes, whether of a set. -/
  rewaits : List (Nat × List Nat × Bool)
  /-- A SVC of this group awaits its reply: clan and set (R199). -/
  svcBusy : Option (Nat × BitVec 32)
  /-- Sets whose SVC has formed and waits for the one in progress, in order (R199). -/
  svcWait : List (Nat × BitVec 32)
  deriving DecidableEq, Repr, Inhabited

/-- A unit of placement: one hamlet-group, with all its stages under OVLP (R206). -/
structure UnitRec where
  sched : Nat
  launch : Launch
  ham : Nat × Nat × Nat
  hamlet : Nat
  groups : List Nat
  /-- Hamlet barriers of each stage's hamlet-group (R180, R194): barrier b of stage s at 4 s + b. -/
  hbars : SMap Barrier
  stageQ : List Nat
  saved : Bool
  /-- Its place among the saved units, and while resident among those placed. -/
  order : Nat
  /-- A SAVE action by one of its own threads (R377) has yet to save it. -/
  toSave : Bool
  /-- The highest PRIO that its SchedContext has had while it was resident: no unit is pre-empted for a PRIO lowered (R217). -/
  prio : Nat
  /-- The FILEMAP page that a replay at its restore waits for, and whether the read failed (R238, R297). -/
  paged : Option (Nat × Nat × Bool) := none
  deriving DecidableEq, Repr, Inhabited

/-! Objects (chapter 17). -/

/-- The threads on whose behalf an operation waits: one thread, or a gathered set. -/
structure Who where
  gid : Nat
  clan : Nat
  lanes : List Nat
  uni : Bool
  deriving DecidableEq, Repr, Inhabited

/-- The key that bytes of HBM are encrypted under; none for plaintext (R455). -/
abbrev MemKey := Option (BitVec 256)

/-- A place that holds bytes: a thread's lane slice, a group's scratchpad, physical memory with the memory type and the key of the page that names it (R223, R241, R455). -/
inductive Loc where
  | lane (gid tid off : Nat)
  | pad (gid off : Nat)
  | mem (pa mt : Nat) (key : MemKey := none)
  deriving DecidableEq, Repr, Inhabited

/-- A condition monitor (R262, R275): who waits, the location, the comparison with its comparand, the destination. -/
structure Monitor where
  who : Who
  loc : Loc
  n : Nat
  cmp : Cond
  sgn : Bool
  c : Nat
  d : Reg
  foot : Nat
  deriving DecidableEq, Repr, Inhabited

/-- What a receiver asked for: registers, the maxima, and whether the receive capability keeps tags (R359, R363). -/
structure RecvOp where
  who : Who
  d : Reg
  words : Reg
  nw : Nat
  caps : Reg
  nc : Nat
  info : Reg
  rpl : Reg
  loadcap : Bool
  nb : Option Pred
  foot : Nat
  ctx : Nat
  deriving DecidableEq, Repr, Inhabited

/-- A sender waiting in an Endpoint (R357): a thread in SEND or ECALL, the device with a fault record, a remote request. -/
inductive Sender where
  | thread (who : Who) (d : Reg) (nb : Option Pred) (foot : Nat) (isCall : Bool) (m : Msg)
  /-- With the die, the world and the bytes that the Almanac takes of the record when the Endpoint is torn down (R376). -/
  | device (gid fid : Nat) (m : Msg) (die world : Nat) (bytes : List Byte)
  /-- With the export entry that it passed and the world that it is judged in (R411, R436, R439). -/
  | remote (src id entry world : Nat) (m : Msg)
  deriving DecidableEq, Repr, Inhabited

/-- An entry of a Queue object (R316), with the Context that pushed it and its format slots (R333). -/
structure QEntry where
  bits : BitVec 128
  tag : Bool
  ctx : Nat
  slots : List DWord
  host : Option (Nat × BitVec 64)
  deriving DecidableEq, Repr, Inhabited

/-- A batch waiting to enter a queue (R319, R403), or threads waiting to pop (R320). -/
inductive QWaiter where
  | push (who : Who) (es : List QEntry) (foot : Nat) (revokeD : Option Reg)
  | pop (who : Who) (w : MovW) (d : Reg) (foot : Nat)
  deriving DecidableEq, Repr, Inhabited

/-- A COLL Queue's group (R442) and pair keys (R459). -/
structure CollGroup where
  id : Nat
  rank : Nat
  size : Nat
  keys : List (Nat × Nat)
  deriving DecidableEq, Repr, Inhabited

structure Endpoint where
  depth : Nat
  senderMask : BitVec 16
  msgs : List Msg
  receivers : List RecvOp
  senders : List Sender
  owner : Option Nat
  ring : Option Nat
  ringLoadcap : Bool
  /-- Host sessions that take its messages (R478 SUBSCRIBE), in order: session, tag, whether the capability presented carries LOADCAP. -/
  subs : List (Nat × BitVec 64 × Bool)
  deriving DecidableEq, Repr, Inhabited

structure Notification where
  word : DWord
  /-- Waiting WAITN: who, status register, word register, footprint. -/
  waiters : List (Who × Reg × Reg × Nat)
  deriving DecidableEq, Repr, Inhabited

/-- A SchedContext (R205). Budget is counted in core-microseconds. -/
structure Sched where
  prio : Nat
  budget : Nat
  period : Nat
  affin : BitVec 96
  queue : List Launch
  /-- Index of the head launch's next unit. -/
  nextUnit : Nat
  /-- The head launch has been checked and measured (R203, R463). -/
  taken : Bool
  left : Nat
  periodStart : Nat
  /-- Core-microseconds of the elapsed microseconds that have yet to be consumed, and the cores that held a group in the current one and hold it no more (R211). -/
  owed : Nat
  touched : List (Bool × Nat)
  /-- When it was last served, for the round-robin of R207. -/
  served : Nat
  suspended : Bool
  deriving DecidableEq, Repr, Inhabited

structure AspaceObj where
  root : Nat
  /-- Tables that .map freed beneath a replaced entry (R351). -/
  free : List Nat
  /-- FILEMAP leaves: virtual page address, FileMap, file page. -/
  files : List (Nat × Nat × Nat)
  deriving DecidableEq, Repr, Inhabited

structure ContextObj where
  id : Nat
  odt : List (BitVec 2)
  handler : Cap
  faultEp : Cap
  svcEp : Cap
  save : Cap
  aspace : Option Nat
  slots : List DWord
  wcAge : Nat
  watchdog : Nat
  hintDrops : DWord
  suspended : Bool
  chain : BitVec 384
  count : DWord
  log : Cap
  nextFid : Nat
  /-- Type-2 entries of the chain: Frame and digest (R464). -/
  freezes : List (Nat × BitVec 384)
  deriving DecidableEq, Repr, Inhabited

structure FrameObj where
  pa : Nat
  log2 : Nat
  /-- 1 memory, 2 device, 3 Cellar. -/
  kind : Nat
  frozen : Bool
  /-- Replicated across packages: COLL Queue and home rank (R430). -/
  repl : Option (Nat × Nat)
  /-- The key under which .retype zeroed it (R348, R455). -/
  zkey : MemKey := none
  deriving DecidableEq, Repr, Inhabited

structure UntypedObj where
  base : Nat
  log2 : Nat
  /-- 0 store, 1 memory, 2 device, 3 Cellar. -/
  kind : Nat
  mark : Nat
  deriving DecidableEq, Repr, Inhabited

/-- A page of a FileMap in the Well's table (R337): state 0 READING, 1 CLEAN, 2 DIRTY, 3 WRITING. -/
structure FilePage where
  frame : Nat
  state : Nat
  installed : Nat
  /-- Stored to since the write began (R339). -/
  redirty : Bool
  deriving DecidableEq, Repr, Inhabited

structure FileMapObj where
  port : Nat
  ns : Nat
  lba : Nat
  /-- LBA size of the namespace: 512 or 4,096 bytes (R336). -/
  lbaSize : Nat
  pages : Nat
  src : Option Nat
  cache : List (Nat × FilePage)
  freeFrames : List Nat
  deriving DecidableEq, Repr, Inhabited

structure QueueObj where
  kind : Nat
  width : Nat
  depth : Nat
  hamlet : Nat
  pair : Option Nat
  file : Option Nat
  es : List QEntry
  reserved : Nat
  waiters : List QWaiter
  /-- Names the Queue among all that ever lay at its address. -/
  made : Nat
  /-- Entries pushed since the Queue was created. -/
  pushed : Nat
  /-- Entries that its consumer has taken. -/
  popped : Nat
  coll : Option CollGroup
  round : BitVec 32
  /-- The Endpoint whose ring it is. -/
  ringOf : Option Nat
  deriving DecidableEq, Repr, Inhabited

/-- A holder of a SyncObject (R277). -/
inductive Holder where
  | thread (gid tid : Nat)
  | clan (gid clan : Nat)
  deriving DecidableEq, Repr, Inhabited

/-- A waiting request of a SyncObject: ACQ, exclusive or shared, or BIND of a slot (R278). -/
structure HoldReq where
  holder : Holder
  excl : Bool
  bind : Option (Nat × Option (Nat × Nat))
  who : Who
  d : Reg
  foot : Nat
  deriving DecidableEq, Repr, Inhabited

structure SyncObj where
  slots : SMap (Nat × Nat)
  holds : List (Holder × Bool)
  waiters : List HoldReq
  deriving DecidableEq, Repr, Inhabited

structure GrantObj where
  port : Nat
  rd : Bool
  wr : Bool
  frame : Option Nat
  bus : Nat
  /-- Size of its window: that of its Frame (R340). -/
  size : Nat
  deriving DecidableEq, Repr, Inhabited

structure KeySlotObj where
  index : Nat
  nonce : DWord
  deriving DecidableEq, Repr, Inhabited

/-- What an object is (R347). -/
inductive Body where
  | endpoint (e : Endpoint)
  | notification (n : Notification)
  | sched (s : Sched)
  | aspace (a : AspaceObj)
  | irq (port vec : Nat) (link : Option (Nat × Nat))
  | context (c : ContextObj)
  | frame (f : FrameObj)
  | untyped (u : UntypedObj)
  | keyslot (k : KeySlotObj)
  | filemap (f : FileMapObj)
  | queue (q : QueueObj)
  | sync (s : SyncObj)
  | grant (g : GrantObj)
  deriving DecidableEq, Repr, Inhabited

/-- An object of the store, keyed by the address of its header (R343). -/
structure Obj where
  world : Nat
  torn : Bool
  parent : Option Nat
  /-- The Untyped its storage comes from. -/
  src : Nat
  body : Body
  deriving DecidableEq, Repr, Inhabited

/-- A Reply object (R363): who waits, where the reply goes, whether it is armed, and the Context of the receiver that took the message. -/
structure ReplyObj where
  op : RecvOp
  armed : Bool
  taken : Option Nat
  /-- The reply answers an SVC (R199): predicate and destination. -/
  svc : Option (Pred × Reg)
  deriving DecidableEq, Repr, Inhabited

/-! Engines. -/

/-- The parts of a far atomic request (R264-R274): one requester, with the identifier its result waits under, its destination if it has one, where it stood, the address it gave and the exported capability that it went through, if any; or two merged parts with the operand of the earlier one and the cistern that keeps the split record. -/
inductive FarTree where
  | leaf (who : Who) (id : Nat) (d : Option Reg) (pc : DWord) (raw : BitVec 128) (ea : DWord) (cap : Cap)
  /-- A request of another package for a Frame whose writes a third stamps (R430). -/
  | foreign (src id : Nat) (entry : Option Nat)
  | split (p q : FarTree) (ap cist : Nat)
  deriving DecidableEq, Repr, Inhabited

/-- Where a far request is performed: at the home of its location in this package; at another package, through an export (R267, R435); at the package that stamps the writes of a replicated Frame (R430). -/
inductive FarDest where
  | here
  | away (pkg entry chk : Nat)
  | repl
  deriving DecidableEq, Repr, Inhabited

structure FarReq where
  /-- Its physical address; at another package the offset there. -/
  pa : Nat
  dest : FarDest := .here
  /-- It has gone to the other package. -/
  sent : Bool := false
  aop : AOp
  /-- ATOMX: comparand. -/
  cmp : Option Nat
  size : Nat
  operand : Nat
  tree : FarTree
  comb : Bool
  hold : Bool
  reassoc : Bool
  scope : Nat
  world : Nat
  /-- Cistern it waits in, 0 when it waits in none. -/
  cistern : Nat
  /-- Its hold there has ended. -/
  free : Bool
  arrived : Nat
  /-- Cisterns still to pass. -/
  route : List Nat
  /-- The issue that it came from (R268). -/
  issue : Nat
  /-- The old value, once the home has performed it. -/
  old : Option Nat
  /-- The key of its page (R455). -/
  key : MemKey := none
  deriving DecidableEq, Repr, Inhabited

/-- A Carter request (R323-R331). -/
structure CopyReq where
  hamlet : Nat
  key : Nat
  seq : BitVec 32
  pos : Nat
  ctx : Nat
  who : Option (Nat × Nat)
  /-- The core that submitted it, where a thread did (R440). -/
  core : Option Nat
  /-- The submitting group's unit, stage and rank, and its launch: they outlive it (R342). -/
  home : Nat × Nat × Nat
  launch : Launch
  /-- Not yet accepted: the set whose TCOPY waits, its d, its foot (R332). -/
  opening : Option (Who × Reg × Nat)
  /-- The Carter has accepted it (R328). -/
  accepted : Bool
  /-- The FILEMAP page that it waits for (R342). -/
  paged : Option (Nat × Nat)
  /-- The index list of a SCATTER as acceptance reads it, row by row: status 0 and the bytes, or the status of a read that fails (R328, R329). -/
  list : List (Nat × List Byte)
  slots : List DWord
  blk : List Cap
  comp : Nat
  /-- The next element in canonical order. -/
  next : Nat
  /-- Its index and its source bytes, where they came from another package (R435). -/
  index : Option (List Byte)
  data : Option (List Byte)
  /-- Lines whose presence bit it cleared: group, line. -/
  lines : List (Nat × Nat)
  /-- Status and element when it has ended. -/
  ended : Option (Nat × Nat)
  fromCmd : Bool
  host : Option (Nat × BitVec 64)
  deriving DecidableEq, Repr, Inhabited

/-- A Well command being performed (R339). -/
structure WellCmd where
  queue : Nat
  /-- Its entry's position in its Queue. -/
  pos : Nat
  seq : BitVec 32
  op : Nat
  page : Nat
  fm : Nat
  /-- An NVMe command is outstanding. -/
  nvme : Bool
  deriving DecidableEq, Repr, Inhabited

/-- A closed range of the sieve (R404-R406): base range, world, the PAIR queue and SEQ of its completion, the sweep that covers it; `frame` for OBJ .freeze, which takes only capabilities with STORE or STORECAP. -/
structure Closed where
  base : Nat
  top : Nat
  world : Nat
  comp : Option (Nat × BitVec 32)
  /-- The GLEANER Queue and position of its entry. -/
  queue : Nat
  pos : Nat
  sweep : Nat
  freeze : Bool
  op : Option Nat
  deriving DecidableEq, Repr, Inhabited

/-- An OBJ that completes later: Untyped reset (R348), freeze (R415), ODT change (R400). -/
inductive ObjOp where
  | reset (u : Nat)
  | freeze (frame ctx : Nat) (args : Reg) (uni : Bool)
  | odt (ctx : Nat)
  deriving DecidableEq, Repr, Inhabited

structure PendObj where
  op : ObjOp
  who : Who
  d : Reg
  foot : Nat
  deriving DecidableEq, Repr, Inhabited

/-- An ODT change that a core has yet to apply (R400). -/
structure OdtChange where
  ctx : Nat
  first : Nat
  vals : List (BitVec 2)
  cores : List Nat
  op : Nat
  deriving DecidableEq, Repr, Inhabited

/-- An Export entry (R438). -/
structure ExportEntry where
  src : Cap
  perm : BitVec 16
  chk : BitVec 20
  world : Nat
  ctx : Nat
  aspace : Option Nat
  /-- The performer of an EXPORT .drop that has invalidated it and waits for the requests that had passed the entry check (R439). -/
  dropper : Option Who := none
  deriving DecidableEq, Repr, Inhabited

/-- A request of another package that has arrived and waits, for a page or behind an earlier one of its class and source (R432); the entry with which it has passed the check (R436). -/
structure Inbound where
  req : RemoteReq
  entry : Option ExportEntry
  /-- The page that it waits for. -/
  paged : Option (Nat × Nat) := none
  deriving DecidableEq, Repr, Inhabited

/-- A store of another package to be acknowledged once it is performed (R430): source, request, the writer of its bytes, its export entry and world. -/
structure Ack where
  src : Nat
  id : Nat
  writer : Nat
  entry : Nat
  world : Nat
  deriving DecidableEq, Repr, Inhabited

/-- A write to a bound Frame of this package's agents that members have yet to apply: its writers, its place and bytes, and the ranks of those members (R430). -/
structure ReplOwed where
  gid : Nat
  tids : List Nat
  pa : Nat
  data : List Byte
  ranks : List Nat
  deriving DecidableEq, Repr, Inhabited

/-- A request of this package to another (R435). -/
structure RemoteOut where
  pkg : Nat
  entry : Nat
  chk : Nat
  off : Nat
  op : RemoteOp
  /-- Requester: group, thread, PC, instruction; none for a Carter element or a combined write. -/
  who : Option (Who × DWord × BitVec 128)
  /-- The stores that a combined write holds: their threads, PCs and instructions (R437, R440). -/
  issuers : List (Who × DWord × BitVec 128) := []
  /-- The core whose buffer a combined write left. -/
  core : Option Nat := none
  /-- The world that it acts in (R410). -/
  world : Nat := 0
  d : Reg
  ty : AType
  carter : Option Nat
  status : Option (Reg × Option Pred × Nat)
  /-- The capability that it went through. -/
  cap : Cap
  /-- %time at the request. -/
  born : Nat := 0
  /-- The request has acquire or sc ordering: no later access of its thread is performed before it (R253). -/
  acq : Bool := false
  /-- The far atomic request that it carries (R267, R430). -/
  far : Option Nat := none
  /-- A read of one range of an access of several words: the place of its bytes (R435). -/
  part : Option Nat := none
  deriving DecidableEq, Repr, Inhabited

/-- An entry of a write-combining buffer (R440): the capability it goes through, its 128-byte line at the origin and the offset of that line through the capability, the masked bytes, its time of entry, the age limit, the stores that it holds, their world. -/
structure WcEntry where
  cap : Cap
  line : Nat
  off : Nat
  bytes : SMap Byte
  mask : SMap Bool
  born : Nat
  age : Nat
  issuers : List (Who × DWord × BitVec 128)
  world : Nat
  deriving DecidableEq, Repr, Inhabited

/-- A write to REPL bytes (R428): bytes, the tags of the granules that it writes with one, and its writers, who read it before a replica has it: threads of a group, or with group 0 an engine; `sent` when it has gone to another package's Bellringer (R430). -/
structure ReplWrite where
  pa : Nat
  data : List Byte
  tags : List (Nat × Bool)
  gid : Nat
  tids : List Nat
  sent : Bool := false
  /-- The key of its page (R455). -/
  key : MemKey := none
  /-- Further bytes of the same write, by their places (R440). -/
  more : List (Nat × List Byte) := []
  /-- It came from another package, which hears when every replica here has applied it (R430). -/
  foreign : Bool := false
  deriving DecidableEq, Repr, Inhabited

/-- A collective submitted by this package (R443). -/
structure CollReq where
  queue : Nat
  round : BitVec 32
  op : CollOp
  rop : CollRop
  ty : CollType
  root : Nat
  count : Nat
  src : Option Cap
  dst : Option Cap
  ctx : Nat
  gid : Nat
  /-- The status that a page's failed read gives this member; the status of the round once this member's part in it has been done. -/
  err : Option Nat := none
  ended : Option Nat := none
  deriving DecidableEq, Repr, Inhabited

/-- A QFENCE (R198): for every named engine queue, the position that divides earlier from later entries. -/
structure QFence where
  marks : List (Nat × Nat)
  deriving DecidableEq, Repr, Inhabited

/-- An IO access that its target has yet to answer (R144, R486). -/
structure IoAcc where
  who : Who
  lane : Nat
  pa : Nat
  n : Nat
  wr : Option (List Byte)
  d : Reg
  ty : AType
  port : Nat
  foot : Nat
  cap : Bool
  /-- Bytes still to read after this access, and those read before it: 16 bytes are two accesses (R144). -/
  more : Nat := 0
  got : List Byte := []
  deriving DecidableEq, Repr, Inhabited

/-- A host session (R477). -/
structure Session where
  port : Nat
  world : Nat
  handles : List (Nat × Cap)
  deriving DecidableEq, Repr, Inhabited

/-- A response to a host (R478): session, tag, status and bytes. -/
structure Response where
  sess : Nat
  tag : BitVec 64
  status : Nat
  data : List Byte
  deriving DecidableEq, Repr, Inhabited

/-- What leaves the device otherwise: answers to inbound PCIe requests, doorbell and other device writes, fabric packets. -/
inductive Out where
  | pcieData (port addr : Nat) (bs : List Byte)
  | pcieUnsupported (port addr : Nat)
  | ioWrite (pa : Nat) (bs : List Byte)
  | ioRead (pa n : Nat)
  /-- An NVMe command of a FileMap: operation, page, its first LBA and their number (R336). -/
  | nvme (fm op page lba n : Nat)
  | remoteReq (id : Nat)
  | wcWrite (pkg entry line : Nat) (bs : List Byte)
  | remoteAns (pkg id : Nat) (a : RemoteAns)
  /-- A write to a bound Frame: its bytes, and further ones of the same write by their places. -/
  | replMulticast (pa : Nat) (bs : List Byte) (more : List (Nat × List Byte))
  /-- Every replica here has applied another package's write; this package has bound its Frame of a group, with its rank (R430). -/
  | replApplied (pa : Nat) (bs : List Byte)
  | replBound (group rank log2 : Nat)
  | dropped
  | mgmt (bs : List Byte)
  deriving DecidableEq, Repr, Inhabited

/-- A pair key (R462): the key, and the counters of sealed and of opened packets by plane, from which the IVs come. -/
structure PairKey where
  key : BitVec 256
  sent : SMap Nat
  received : SMap Nat
  deriving DecidableEq, Repr, Inhabited

/-- A record of the Almanac (R484); every field is 0 at reset. -/
structure AlmRec where
  seq : Nat
  time : Nat
  die : Nat
  world : Nat
  plane : Nat
  type : Nat
  data : List Byte
  deriving DecidableEq, Repr, Inhabited

def AlmRec.zero : AlmRec := ⟨0, 0, 0, 0, 0, 0, []⟩

/-- A KeySlot of the package (R456). -/
structure KeySlot where
  world : Nat
  role : Nat
  nonce : DWord
  key : BitVec 256
  deriving DecidableEq, Repr, Inhabited

/-- The readings of one telemetry sample (R480): package power in W; voltage in mV and current in mA of each C-die's rail, the temperature of each die and of each HBM stack in 0.1 °C, the clock step of each C-die, the corrected errors of each die, the state and the errors of each fabric port, then of each Ethernet port. -/
structure Sample where
  watts : Nat
  rails : List (Nat × Nat)
  temps : List Nat
  hbm : List Nat
  steps : List Nat
  ecc : List Nat
  links : List (Bool × Nat)
  /-- %time at the sample. -/
  at_ : Option Nat
  deriving DecidableEq, Repr, Inhabited

/-- Telemetry (R480) and power management (R481). -/
structure Power where
  last : Sample
  /-- Corrected ECC errors of each die (R234). -/
  ecc : SMap Nat
  cap : Nat
  step : SMap Nat
  /-- %time of the last step down for the cap. -/
  lastStep : Option Nat
  belowSince : Option Nat
  throttle : Bool
  deriving DecidableEq, Repr, Inhabited

/-- Firmware banks (R482): versions and digests of the two banks, the active bank, a staged bank to try, the anti-rollback counter. -/
structure Firmware where
  active : Nat
  staged : Bool
  versions : Nat × Nat
  /-- Digests of the images that management has written, by bank. -/
  digests : List (Nat × BitVec 384)
  rollback : Nat
  deriving DecidableEq, Repr, Inhabited

/-- The issue being performed (R166): group, clan, home lanes in ascending order, address, instruction, footprint; whether it is a gathered execution that has formed. -/
structure Cur where
  gid : Nat
  clan : Nat
  lanes : List Nat
  pc : DWord
  raw : BitVec 128
  foot : Nat
  gathered : Bool
  /-- The number of the issue: identifiers given from here on are of this issue or later ones (R268). -/
  no : Nat := 0
  /-- A fault of another issue of the same cycle stops its group (R289, R373). -/
  halt : Bool := false
  deriving DecidableEq, Repr, Inhabited

/-- Who moves next: an event of an engine or of the outside world, or an issue of the threads of one clan; the answer of a device to an IO access; an ECC error. -/
inductive Choice where
  | event (i : Instr)
  | issue (gid clan : Nat) (lanes : List Nat)
  /-- One issue of threads of several clans of a partition (R166): group, clan and lanes of each, in ascending home lane. -/
  | mixed (parts : List (Nat × Nat × List Nat))
  /-- The issues of several partitions in one cycle (R374): group, clan and lanes of each. -/
  | cycle (parts : List (Nat × Nat × List Nat))
  | ioAnswer (acc : Nat) (data : Option (List Byte))
  | eccDouble (pa : Nat)
  | eccPad (gid off : Nat)
  | eccLane (gid tid off : Nat)
  | eccCorrected (die : Nat)
  | tick (ns : Nat)
  /-- A host session's connection ends (R477). -/
  | sessionEnd (sess : Nat)
  /-- A session of the management port opens, under an operator certificate where it is authentic, or ends (R479). -/
  | operator (authentic : Bool)
  | operatorEnd
  /-- A host command that waits for a page or a line is tried again (R478). -/
  | hostRetry (sess : Nat)
  deriving DecidableEq, Repr, Inhabited

/-- The machine. -/
structure State where
  /-- Who moves next, first to last; when empty the model's own policy chooses. -/
  agenda : List Choice
  /-- The issue whose instruction `exec` performs. -/
  cur : Option Cur
  /-- Draws of free values so far. -/
  fresh : Nat
  /-- The turn of the model's own policy: threads, engines, time. -/
  turn : Nat
  /-- Identifiers given so far to groups, units, requests and bindings. -/
  nextId : Nat
  /-- %time in nanoseconds (R12). -/
  time : Nat
  /-- Clock cycles since the cores' last reset, in thousandths, by C-die and, at 6, of the service cores (R12, R22). -/
  clk : SMap Nat
  /-- Physical memory (R235) and its tags; unlisted bytes read 0. -/
  mem : List Host.Cell
  tags : SMap Bool
  /-- ECC words with an uncorrectable error (R234), by address / 32. -/
  ecc : SMap Bool
  /-- The key under which each 16-byte granule of HBM was last written, where it is not the one that its Frame was zeroed under (R455). -/
  cipher : List (Nat × MemKey)
  /-- Resident and saved groups, by identifier (R179). -/
  groups : List (Nat × Group)
  /-- What the core of an ended group holds of it until the next one ends there: its registers and its scratchpad after every thread has exited (R132, R311), by core. -/
  ended : List (Nat × Group)
  /-- Units of placement (R206). -/
  units : List (Nat × UnitRec)
  /-- The object store, by header address (R343). -/
  objs : List (Nat × Obj)
  /-- Reply objects, by the address that names them (R363). -/
  replies : List (Nat × ReplyObj)
  /-- Base of the Reply objects' headers in the object store (R343); the manual does not give it. -/
  replyBase : Nat
  /-- The next %ctx (R22). -/
  nextCtx : Nat
  /-- The Stile matrix of the package (R452). -/
  boundRows : List (BitVec 32)
  /-- Protected worlds, the configuration word of the matrix (R452). -/
  prot : BitVec 16
  /-- LOCK of the Stile matrix (R452). -/
  lock : Bool
  /-- KeySlots by index (R456). -/
  keys : List (Nat × KeySlot)
  /-- The TRNG has passed its tests (R461). -/
  trngOk : Bool
  /-- Far atomic requests in flight (R266-R274). -/
  fars : List (Nat × FarReq)
  /-- Requests that Carters have accepted (R323-R331). -/
  copies : List (Nat × CopyReq)
  /-- Well commands being performed (R339). -/
  wells : List (Nat × WellCmd)
  /-- Closed ranges of the sieve (R404-R407). -/
  closed : List Closed
  /-- Sweeps begun, and whether one is running (R405). -/
  sweepNo : Nat
  sweeping : Bool
  /-- The GLEANER Queue served last (R404). -/
  gleanerLast : Nat
  /-- OBJs that complete later (R348, R400, R415). -/
  pendObjs : List (Nat × PendObj)
  /-- Changes of disposition tables under way (R400). -/
  odtChanges : List OdtChange
  /-- The table of a Context as a core applies it, where it lags (R400): context, core, entries. -/
  odtLag : List (Nat × Nat × List (BitVec 2))
  /-- Export entries (R438). -/
  exports : List (Nat × ExportEntry)
  /-- Requests of other packages that wait here (R432, R436), and stores of theirs to be acknowledged (R430). -/
  inbound : List Inbound
  acks : List Ack
  /-- The ordered packets (R432): the number that is next, by three times the source and the class, and those that came before their turn. -/
  turns : List (Nat × Nat)
  early : List (Nat × Nat × Payload)
  /-- Requests of this package to others (R435). -/
  remotes : List (Nat × RemoteOut)
  /-- Write-combining buffers by core (R440). -/
  wc : List (Nat × List WcEntry)
  /-- Writes to REPL bytes: issued, stamped, and how many each die has applied (R428, R429). -/
  replNew : List ReplWrite
  replLog : List ReplWrite
  replDone : SMap Nat
  /-- The members that have bound a Frame to a group: group, rank, log2 of the size; the writes that members have yet to apply (R430). -/
  bound : List (Nat × Nat × Nat)
  owed : List ReplOwed
  /-- Collective rounds of this package not yet complete (R443). -/
  colls : List CollReq
  /-- Queue fences (R198). -/
  qfences : List QFence
  /-- Condition monitors (R275). -/
  monitors : List Monitor
  /-- Hold slots (R358): the receive operation of a suspended receiver and the message held for it. -/
  held : List (RecvOp × Msg)
  /-- IO accesses that their targets have yet to answer (R144, R486). -/
  ios : List (Nat × IoAcc)
  /-- Inbound writes of each root port that wait for an earlier one of the same function, which another package has yet to stamp: port, bus address, bytes (R341, R430). -/
  posted : List (Nat × Nat × List Byte)
  /-- Device space backed by a BAR or a hub-engine page: base, size, root port. -/
  bars : List (Nat × Nat × Nat)
  /-- Root ports whose link is down (R486). -/
  linkDown : SMap Bool
  /-- Ports that did not come up at boot (R483): Ethernet port p at p, fabric port p at 4 + p. -/
  portDown : SMap Bool
  /-- The pair keys that the Reeves have agreed with other packages, with the packets sealed and opened under each, by plane (R462). -/
  pairs : List (Nat × PairKey)
  /-- %pkg (R22). -/
  pkg : BitVec 12
  /-- Host sessions (R477). -/
  sessions : List (Nat × Session)
  /-- ATTEST commands that wait for a page or a line: session, tag, Context, buffer (R478). -/
  attests : List (Nat × BitVec 64 × DWord × DWord)
  /-- Open sessions of the management port with an operator certificate (R479). -/
  operators : Nat
  /-- What the hosts and the outside have been sent (R478). -/
  responses : List Response
  out : List Out
  /-- The Almanac, a ring of 4,096 records by index, its next sequence number, its freeze, and what it lost while frozen (R484, R485). -/
  almanac : SMap AlmRec
  almSeq : Nat
  frozen : Bool
  lost : BitVec 32
  /-- Telemetry, power and firmware (R480-R482). -/
  power : Power
  fw : Firmware
  /-- The boot: the last step done, the boot record and its length (R463, R483). -/
  bootStep : Nat
  bootRecord : BitVec 384
  bootCount : Nat
  /-- MiB of each die's SRAM given to the Cellar (R232). -/
  cellarMiB : SMap Nat
  deriving DecidableEq, Repr, Inhabited

/-- Why the machine stops: it never does. Every exception of the manual is taken, a boot that fails stops at its step with an Almanac entry (R483), and an event that cannot happen leaves the state as it is. -/
inductive Fault where
  deriving DecidableEq, Repr

/-- Why an instruction is not performed. -/
inductive Refusal where
  /-- Raised by an arm of `exec` that has no meaning yet. Safe. -/
  | notModelled (mnemonic : String)
  deriving DecidableEq, Repr

/-- The readings before the first sample, which the manual does not give (log entry 52). -/
def Sample.zero : Sample :=
  ⟨0, List.replicate 6 (0, 0), List.replicate 7 0, List.replicate 12 0, List.replicate 6 0, List.replicate 7 0, List.replicate 22 (false, 0), none⟩
def Power.reset : Power := ⟨Sample.zero, [], 2400, [], none, none, false⟩
def Firmware.reset : Firmware := ⟨0, false, (0, 0), [], 0⟩

/-- The machine right after cold reset, before step 1 of the boot (R483): no object, no thread, memory with nothing listed, the Stile matrix and LOCK clear (R452), the Almanac empty (R484), the power cap at 2,400 W (R481), the time base at 0 (R12). -/
def State.reset : State where
  agenda := []
  cur := none
  fresh := 0
  turn := 0
  nextId := 1
  time := 0
  clk := []
  mem := []
  tags := []
  ecc := []
  cipher := []
  groups := []
  ended := []
  units := []
  objs := []
  replies := []
  replyBase := 0x6A00000000
  nextCtx := 0
  boundRows := []
  prot := 0
  lock := false
  keys := []
  trngOk := false
  fars := []
  copies := []
  wells := []
  closed := []
  sweepNo := 0
  sweeping := false
  gleanerLast := 0
  pendObjs := []
  odtChanges := []
  odtLag := []
  exports := []
  inbound := []
  acks := []
  turns := []
  early := []
  remotes := []
  wc := []
  replNew := []
  replLog := []
  replDone := []
  bound := []
  owed := []
  colls := []
  qfences := []
  monitors := []
  held := []
  ios := []
  posted := []
  bars := []
  linkDown := []
  portDown := []
  pairs := []
  pkg := 0
  sessions := []
  attests := []
  operators := 0
  responses := []
  out := []
  almanac := []
  almSeq := 0
  frozen := false
  lost := 0
  power := Power.reset
  fw := Firmware.reset
  bootStep := 0
  bootRecord := 0
  bootCount := 0
  cellarMiB := []

end Sys2Proof.Machine
end

