-- ==== Sys2Proof/Machine/Access.lean ====
section
/-! DEFINITION. Reaching the parts of the state: groups, clans, threads, objects, by identifier. A part that does not exist reads as its empty value. -/

namespace Sys2Proof.Machine

/-- The thread of R24, before its first issue. -/
def Thread.empty : Thread :=
  { paged := none, passed := 0, v := [], c := [], p := 0, pcc := Cap.null, meet := 0xFFFFFFFFFFFFFFFF, released := false, pix := 0, edepth := 0,
    rr1 := RetRec.zero, rr2 := RetRec.zero, live := false, wait := .none, parkedAt := none, pend := [], issue := 0, going := false, fetched := [], slice := [],
    sliceTags := [], sliceEcc := [] }

def Clan.empty : Clan := { k := [], kc := [], wrote := [], q := [], gathers := [], part := 0, age := 0, lead := 0 }

def Launch.empty : Launch :=
  { entries := [], args := Cap.null, sched := 0, ctx := 0, ovlp := false, nstage := 1, ngrp := 1, shape := (1, 1, 1),
    grid := (1, 1, 1), scratch := 0, lanemem := 0, regs := 32, nqueue := 0, nsbuf := 0, nacc := 0, hambytes := 0,
    start := 0, pmode := 0, shifts := (0, 0, 0), slots := [], declared := 32, granules := [] }

def Group.empty : Group :=
  { ctx := 0, unit := 0, launch := Launch.empty, service := false, core := 0, ham := (0, 0, 0), rank := 0, stage := 0,
    nthreads := 0, clans := [], threads := [], scratch := [], stags := [], secc := [], absent := [], bars := [], tiles := [],
    sbufs := [], slot := 0, stat := .run, faults := [], done := false, rewaits := [], svcBusy := none, svcWait := [] }

namespace State

def grp? (s : State) (gid : Nat) : Option Group := Map.get? gid s.groups
def grp (s : State) (gid : Nat) : Group := (s.grp? gid).getD Group.empty
def clan (s : State) (gid c : Nat) : Clan := (Map.get? c (s.grp gid).clans).getD Clan.empty
def thr (s : State) (gid tid : Nat) : Thread := (Map.get? tid (s.grp gid).threads).getD Thread.empty
def obj? (s : State) (h : Nat) : Option Obj := Map.get? h s.objs

def modGrp (s : State) (gid : Nat) (f : Group → Group) : State := { s with groups := Map.modify gid f s.groups }
def modClan (s : State) (gid c : Nat) (f : Clan → Clan) : State :=
  s.modGrp gid fun g => { g with clans := Map.modify c f g.clans }
def modThr (s : State) (gid tid : Nat) (f : Thread → Thread) : State :=
  s.modGrp gid fun g => { g with threads := Map.modify tid f g.threads }
def modObj (s : State) (h : Nat) (f : Obj → Obj) : State := { s with objs := Map.modify h f s.objs }
def setBody (s : State) (h : Nat) (b : Body) : State := s.modObj h fun o => { o with body := b }

/-- A new identifier. -/
def newId (s : State) : Nat × State := (s.nextId, { s with nextId := s.nextId + 1 })
/-- A new free value. -/
def draw (s : State) : Nat × State := (s.fresh, { s with fresh := s.fresh + 1 })

/-- The Context object of a header, when it is one. -/
def ctx? (s : State) (h : Nat) : Option ContextObj :=
  match s.obj? h with
  | some ⟨_, _, _, _, .context c⟩ => some c
  | _ => none
def modCtx (s : State) (h : Nat) (f : ContextObj → ContextObj) : State :=
  s.modObj h fun o => match o.body with | .context c => { o with body := .context (f c) } | _ => o
def queue? (s : State) (h : Nat) : Option QueueObj :=
  match s.obj? h with
  | some ⟨_, _, _, _, .queue q⟩ => some q
  | _ => none
def modQueue (s : State) (h : Nat) (f : QueueObj → QueueObj) : State :=
  s.modObj h fun o => match o.body with | .queue c => { o with body := .queue (f c) } | _ => o
def ep? (s : State) (h : Nat) : Option Endpoint :=
  match s.obj? h with
  | some ⟨_, _, _, _, .endpoint e⟩ => some e
  | _ => none
def modEp (s : State) (h : Nat) (f : Endpoint → Endpoint) : State :=
  s.modObj h fun o => match o.body with | .endpoint c => { o with body := .endpoint (f c) } | _ => o
def sched? (s : State) (h : Nat) : Option Sched :=
  match s.obj? h with
  | some ⟨_, _, _, _, .sched e⟩ => some e
  | _ => none
def modSched (s : State) (h : Nat) (f : Sched → Sched) : State :=
  s.modObj h fun o => match o.body with | .sched c => { o with body := .sched (f c) } | _ => o
def sync? (s : State) (h : Nat) : Option SyncObj :=
  match s.obj? h with
  | some ⟨_, _, _, _, .sync e⟩ => some e
  | _ => none
def filemap? (s : State) (h : Nat) : Option FileMapObj :=
  match s.obj? h with
  | some ⟨_, _, _, _, .filemap e⟩ => some e
  | _ => none
def modFm (s : State) (h : Nat) (f : FileMapObj → FileMapObj) : State :=
  s.modObj h fun o => match o.body with | .filemap c => { o with body := .filemap (f c) } | _ => o
def aspace? (s : State) (h : Nat) : Option AspaceObj :=
  match s.obj? h with
  | some ⟨_, _, _, _, .aspace e⟩ => some e
  | _ => none

/-- The world of an object; 16, which is no world, when there is none. -/
def worldOf (s : State) (h : Nat) : Nat :=
  match s.obj? h with
  | some o => o.world
  | none => 16

/-- Torn down, or gone. -/
def dead (s : State) (h : Nat) : Bool :=
  match s.obj? h with
  | some o => o.torn
  | none => true

end State

/-- One executing thread: group, clan, home lane. -/
structure Cx where
  gid : Nat
  cno : Nat
  lane : Nat
  deriving DecidableEq, Repr

/-- %tidlin (R179). -/
def Cx.tid (x : Cx) : Nat := x.cno * 32 + x.lane

/-- The performer of one execution: a thread, or a gathered set with its lowest lane in front (R48, R172). -/
structure Actor where
  cx : Cx
  mem : List Nat
  uni : Bool
  /-- The gather that formed the set. -/
  g : Option Gather := none
  deriving DecidableEq, Repr

/-- The set as a home-lane mask. -/
def laneMask : List Nat → BitVec 32
  | [] => 0
  | l :: ls => (1#32 <<< l) ||| laneMask ls

/-- The home lanes of a mask, ascending. -/
def maskLanes (m : BitVec 32) : List Nat := (List.range 32).filter fun l => m.getLsbD l

/-- The live lanes of a clan (R164). -/
def liveMask (s : State) (gid c : Nat) : BitVec 32 :=
  laneMask ((List.range 32).filter fun l => (s.thr gid (c * 32 + l)).live)

/-- The Context of a thread. -/
def ctxOf (s : State) (x : Cx) : Nat := (s.grp x.gid).ctx
/-- The world of a thread (R450). -/
def worldOfCx (s : State) (x : Cx) : Nat := s.worldOf (ctxOf s x)

/-- The die a group stands on: `%die` (R10). -/
def Group.die (g : Group) : Nat := if g.service then 6 else g.core / 256
def Group.hamletId (g : Group) : Nat := if g.service then 0xFFFFFFFF else g.core / 16
def Group.regs (g : Group) : Nat := if g.service then 256 else g.launch.declared

/-- The registers that may be named: the count that the program header declares, 256 on a service core (R18). -/
def declared (s : State) (x : Cx) : Nat := (s.grp x.gid).regs

end Sys2Proof.Machine
end

