-- ==== Sys2Proof/Machine/Cap.lean ====
section
/-! DEFINITION. Capabilities: fields and bounds (R25-R29), the conditions of a tag (R26), the checks of an access (R7), derivation (R33, R129, R152-R158). -/

namespace Sys2Proof.Machine

/-- Bits of PERM (R30). -/
def permLoad : Nat := 0
def permStore : Nat := 1
def permExec : Nat := 2
def permLoadCap : Nat := 3
def permStoreCap : Nat := 4
def permStoreLocal : Nat := 5
def permSeal : Nat := 6
def permUnseal : Nat := 7
def permInvoke : Nat := 8
def permAtomic : Nat := 9
def permRemote : Nat := 10
def permSysreg : Nat := 11
def permWeight : Nat := 12
def permRevoke : Nat := 13

namespace Cap

def addr (c : Cap) : Nat := (c.bits.extractLsb' 0 64).toNat
def exp (c : Cap) : Nat := (c.bits.extractLsb' 64 6).toNat
def bm (c : Cap) : Nat := (c.bits.extractLsb' 70 13).toNat
def tm (c : Cap) : Nat := (c.bits.extractLsb' 83 13).toNat
def perm (c : Cap) : BitVec 16 := c.bits.extractLsb' 96 16
def otype (c : Cap) : Nat := (c.bits.extractLsb' 112 12).toNat
def x (c : Cap) : Bool := c.bits.getLsbD 124
def g (c : Cap) : Bool := c.bits.getLsbD 125
def has (c : Cap) (p : Nat) : Bool := c.perm.getLsbD p

/-- Writes a field of 128 bits. -/
def setBits (b : BitVec 128) (lo w v : Nat) : BitVec 128 :=
  BitVec.ofNat 128 (b.toNat - (b.toNat / 2 ^ lo % 2 ^ w) * 2 ^ lo + (v % 2 ^ w) * 2 ^ lo)

def withAddrBits (c : Cap) (a : Nat) : Cap := { c with bits := setBits c.bits 0 64 a }
def withPerm (c : Cap) (p : BitVec 16) : Cap := { c with bits := setBits c.bits 96 16 p.toNat }
def withG (c : Cap) (b : Bool) : Cap := { c with bits := setBits c.bits 125 1 b.toNat }
def withOtype (c : Cap) (t : Nat) : Cap := { c with bits := setBits c.bits 112 12 t }
def withBounds (c : Cap) (e b t : Nat) : Cap := { c with bits := setBits (setBits (setBits c.bits 64 6 e) 70 13 b) 83 13 t }
def untag (c : Cap) : Cap := { c with tag := false }

/-- The exponent as it decodes: above 51 as 51 (R27). -/
def e51 (c : Cap) : Nat := min c.exp 51

/-- base of R27, modulo 2^64. -/
def base (c : Cap) : Nat :=
  let m := c.e51 + 13
  let hi : Int := (c.addr / 2 ^ m : Nat)
  let a := c.addr / 2 ^ c.e51 % 2 ^ 13
  let bhi := if a < c.bm then hi - 1 else hi
  ((bhi * 2 ^ m + (c.bm * 2 ^ c.e51 : Nat)) % (2 ^ 64 : Int)).toNat

/-- top of R27, in 65 bits. -/
def top (c : Cap) : Nat :=
  let m := c.e51 + 13
  let hi : Int := (c.addr / 2 ^ m : Nat)
  let a := c.addr / 2 ^ c.e51 % 2 ^ 13
  let bhi := if a < c.bm then hi - 1 else hi
  let thi := if c.tm ≤ c.bm then bhi + 1 else bhi
  ((thi * 2 ^ m + (c.tm * 2 ^ c.e51 : Nat)) % (2 ^ 65 : Int)).toNat

/-- R28: base ≤ ADDR < base + 2^m. -/
def representable (c : Cap) : Bool := c.base ≤ c.addr && c.addr < c.base + 2 ^ (c.e51 + 13)

/-- The conditions of R26 on the 128 bits. -/
def fit (c : Cap) : Bool :=
  c.bits.extractLsb' 126 2 == 0 && c.perm.extractLsb' 14 2 == 0 && c.exp ≤ 51 && (!c.x || c.otype == 13) && c.representable

/-- The value with its tag cleared where R26 is broken. -/
def norm (c : Cap) : Cap := { c with tag := c.tag && c.fit }

def sealed (c : Cap) : Bool := c.otype != 0

/-- WithAddr (R129). -/
def withAddr (c : Cap) (a : Nat) : Cap :=
  let d := c.withAddrBits (a % 2 ^ 64)
  -- representable in c's window: judged with the base of c
  { d with tag := c.tag && !c.sealed && (c.base ≤ a % 2 ^ 64 && a % 2 ^ 64 < c.base + 2 ^ (c.e51 + 13)) }

/-- The smallest exponent at which [b, t) encodes when rounded outwards, with the rounded range; 51 when none does (R154). -/
def fitExp (b t : Nat) : Nat → Nat → Nat × Nat × Nat
  | 0, e => (e, b / 2 ^ e * 2 ^ e, (t + 2 ^ e - 1) / 2 ^ e * 2 ^ e)
  | n + 1, e =>
    let b2 := b / 2 ^ e * 2 ^ e
    let t2 := (t + 2 ^ e - 1) / 2 ^ e * 2 ^ e
    if t2 - b2 ≤ 2 ^ (e + 13) then (e, b2, t2) else fitExp b t n (e + 1)

/-- CBND (R154). -/
def setBounds (c : Cap) (exact : Bool) (len : Nat) : Cap :=
  let b := c.addr
  let t := b + len
  let (e, b2, t2) := fitExp b t 51 0
  let ok := c.tag && !c.sealed && decide (len > 0) && decide (t2 - b2 ≤ 2 ^ (e + 13)) &&
    !(exact && (b2 != b || t2 != t)) && decide (c.base ≤ b2) && decide (t2 ≤ c.top)
  let d := c.withBounds e (b2 / 2 ^ e) (t2 / 2 ^ e)
  { d with tag := ok && d.fit }

/-- An unsealed tagged capability for [b, b + len) with the smallest exact exponent, as the device mints it (R29, R225); null for an empty range. -/
def make (b len : Nat) (perm : BitVec 16) (g : Bool) (addr : Nat) : Cap :=
  if len = 0 then Cap.null
  else
    let (e, b2, t2) := fitExp b (b + len) 51 0
    let c : Cap := ⟨BitVec.ofNat 128 (addr % 2 ^ 64), false⟩
    { ((c.withBounds e (b2 / 2 ^ e) (t2 / 2 ^ e)).withPerm perm).withG g with tag := true }

/-- An object capability (R344): sealed with the type, bounds [h, h + 64), E = 0, badge = ADDR − base. -/
def object (otype h badge : Nat) (perm : BitVec 16) (g : Bool) : Cap :=
  let c := (((Cap.null.withBounds 0 h (h + 64)).withPerm perm).withG g).withOtype otype
  { c.withAddrBits (h + badge) with tag := true }

/-- The badge of an object capability (R344). -/
def badge (c : Cap) : Nat := c.addr - c.base

/-- The X form of R434. -/
def exported (c : Cap) (perm : BitVec 16) (chk : Nat) (pkg entry : Nat) : Cap :=
  let d := ((c.withPerm perm).withOtype 13)
  let e := { d with bits := setBits d.bits 124 1 1 }
  { e.withAddrBits (chk % 2 ^ 20 * 2 ^ 44 + pkg % 2 ^ 12 * 2 ^ 32 + entry % 2 ^ 32) with tag := true }
def xChk (c : Cap) : Nat := c.addr / 2 ^ 44
def xPkg (c : Cap) : Nat := c.addr / 2 ^ 32 % 2 ^ 12
def xEntry (c : Cap) : Nat := c.addr % 2 ^ 32

/-- CANDP (R155). -/
def andPerm (c : Cap) (m : Word) : Cap :=
  let d := (c.withPerm (c.perm &&& m.extractLsb' 0 16)).withG (c.g && m.getLsbD 16)
  { d with tag := c.tag && !c.sealed && d.fit }

/-- The authority of CSEAL and CUNSEAL (R156). -/
def auth (s : Cap) : Bool := s.tag && !s.sealed && decide (s.base ≤ s.addr) && decide (s.addr < s.top)
def sealWith (c s : Cap) : Cap :=
  let d := c.withOtype (s.addr % 2 ^ 12)
  { d with tag := s.auth && s.has permSeal && decide (16 ≤ s.addr) && decide (s.addr ≤ 4095) && c.tag && !c.sealed && d.fit }
def unsealWith (c s : Cap) : Cap :=
  let d := c.withOtype 0
  { d with tag := s.auth && s.has permUnseal && c.tag && decide (16 ≤ c.otype) && decide (s.addr = c.otype) && d.fit }

end Cap

/-- The window ranges (R224): 0 lane, 1 scratchpad, 2 hamlet; none for another address. -/
def windowOf (a : Nat) : Option Nat :=
  if a / 2 ^ 24 = 0xFE00000000 then some 0
  else if a / 2 ^ 24 = 0xFD00000000 then some 1
  else if a / 2 ^ 24 = 0xFC00000000 then some 2
  else none

/-- CapCheck (R7): the first failing check, none when all pass. `align` is the alignment the access needs. -/
def capCheckAlign (c : Cap) (a n align : Nat) (perms : List Nat) : Option FaultInfo :=
  let f (sub : Nat) : Option FaultInfo := some { cls := 1, sub := sub, addr := BitVec.ofNat 64 a, cap := c }
  if !c.tag then f 1
  else if c.sealed then f 2
  else if !(perms.all c.has) then f 3
  else if !(decide (c.base ≤ a) && decide (a + n ≤ c.top)) then f 4
  else if a % align != 0 then f 5
  else none

def capCheck (c : Cap) (a n : Nat) (perms : List Nat) : Option FaultInfo := capCheckAlign c a n n perms

/-- The local checks of an access through an X capability (R435). -/
def xCheck (c : Cap) (a : Nat) (perms : List Nat) : Option FaultInfo :=
  if !c.tag then some { cls := 1, sub := 1, addr := BitVec.ofNat 64 a, cap := c }
  else if !(perms.all c.has) then some { cls := 1, sub := 3, addr := BitVec.ofNat 64 a, cap := c }
  else none

/-- A sieve match (R406, R407): tagged, not exported, base in a closed range of the world; a freeze takes only capabilities that could write, wholly within the Frame (R415). -/
def sieved (s : State) (world : Nat) (c : Cap) : Bool :=
  c.tag && !c.x && s.closed.any fun r =>
    r.world == world &&
      (if r.freeze then (c.has permStore || c.has permStoreCap) && (c.otype == 0 || decide (16 ≤ c.otype)) && decide (r.base ≤ c.base) && decide (c.top ≤ r.top)
       else decide (r.base ≤ c.base) && decide (c.base < r.top))

/-- The value as it may be written into storage of a world (R407). -/
def sieve (s : State) (world : Nat) (c : Cap) : Cap := if sieved s world c then c.untag else c

end Sys2Proof.Machine
end

