-- ==== Sys2Proof/Machine/Operands.lean ====
section
/-! DEFINITION. Every operand form: registers, pairs, ranges, capabilities, predicates, the operand window of the emulation handler, and the special registers (R15-R23, R391-R395). Reads see the state before any write of the instruction (R6). -/

namespace Sys2Proof.Machine

/-- The return record of the depth a thread stands at (R389). -/
def Thread.rr (t : Thread) : RetRec := if t.edepth = 2 then t.rr2 else if t.edepth = 1 then t.rr1 else RetRec.zero
/-- %emask (R22). -/
def Thread.emask (t : Thread) : BitVec 32 := t.rr.emask
def Thread.epc (t : Thread) : DWord := t.rr.epc

/-- A predicate; p7 reads true (R19). -/
def Thread.pred (t : Thread) (p : Pred) : Bool := if p.val = 7 then true else t.p.getLsbD p.val

/-- The guard of an instruction (R19). -/
def Thread.guard (t : Thread) (h : Hdr) : Bool := (t.pred h.guard) != h.gneg

/-- The register fields of the emulated word in the order DST, SRCA, SRCB, SRCC, SRCD, as its opcode's form carries them; an unassigned word is read as B, C or N by its LEN (R393). -/
def windowFields (raw : BitVec 128) : List (Option Nat) :=
  let r := Raw.ofWord raw.toNat
  let f := (opForm? r.op)
  let isC := r.len = 1 && (f.isNone || [0x008, 0x00F, 0x015, 0x019, 0x01A, 0x01F, 0x020, 0x025, 0x083, 0x095, 0x20B, 0x20C, 0x20D, 0x20E, 0x20F, 0x280, 0x28A, 0x305, 0x306].contains r.op)
  let isN := r.len = 2 && (f.isNone || [0x180, 0x181, 0x186, 0x187, 0x188, 0x189].contains r.op)
  [some r.dst, some r.srca, some r.srcb,
   if isC then some (bitsAt r.ext 0 10) else if isN then some (bitsAt r.ext 32 10) else none,
   if isN then some (bitsAt r.ext 42 10) else none]

/-- R393. -/
def kindCode : Option Nat → Nat
  | none => 15
  | some x =>
    if x < 0x300 then 0 else if x < 0x340 then 1 else if x < 0x350 then 2 else if x < 0x360 then 3
    else if x < 0x380 then 4 else if x < 0x390 then 5 else if x < 0x3FF then 6 else 7

/-- The code that alias w8-w11 names. -/
def aliasCode (raw : BitVec 128) (i : Nat) : Option Nat := (windowFields raw)[i]?.join

/-- The capability fields, in order (R394). -/
def aliasCap (raw : BitVec 128) (i : Nat) : Option Nat :=
  ((windowFields raw).filterMap (fun o => o.filter fun x => 0x360 ≤ x && x < 0x390))[i]?

/-- The MOD3 field, zero outside form N (R391). -/
def windowMod3 (raw : BitVec 128) : Nat :=
  let r := Raw.ofWord raw.toNat
  let n := r.len = 2 && ((opForm? r.op).isNone || [0x180, 0x181, 0x186, 0x187, 0x188, 0x189].contains r.op)
  if n then bitsAt r.ext 52 12 else 0

/-- IMM32 in forms I, M and N; IMM64[31:0] in form L (R391). -/
def windowImm (raw : BitVec 128) : Nat :=
  let r := Raw.ofWord raw.toNat
  let isC := r.len = 1 && ((opForm? r.op).isNone || [0x008, 0x00F, 0x015, 0x019, 0x01A, 0x01F, 0x020, 0x025, 0x083, 0x095, 0x20B, 0x20C, 0x20D, 0x20E, 0x20F, 0x280, 0x28A, 0x305, 0x306].contains r.op)
  let isE := r.len = 2 && [0x300, 0x301, 0x302, 0x303, 0x30C].contains r.op
  if r.len = 0 || isC || isE then 0 else bitsAt r.ext 0 32

/-- w0-w7 and w14 of a return record (R391). -/
def windowWord (rr : RetRec) (i : Nat) : Word :=
  match i with
  | 0 => rr.raw.extractLsb' 0 32
  | 1 => rr.raw.extractLsb' 32 32
  | 2 => rr.raw.extractLsb' 64 32
  | 3 => rr.raw.extractLsb' 96 32
  | 4 => rr.w4
  | 5 => BitVec.ofNat 32 ((windowFields rr.raw).foldr (fun o acc => kindCode o + 16 * acc) 0)
  | 6 => BitVec.ofNat 32 ((Raw.ofWord rr.raw.toNat).mod + 2 ^ 14 * windowMod3 rr.raw)
  | 7 => BitVec.ofNat 32 (windowImm rr.raw)
  | 14 => rr.slot.extractLsb' 0 32
  | _ => 0

/-- A v or k code that is within the profile and the declared count. -/
def vkCode (regs x : Nat) : Option Reg :=
  if x < 0x300 then (if x < regs then some (.v (Fin.ofNat 768 x)) else none)
  else if x < 0x340 then some (.k (Fin.ofNat 64 (x - 0x300)))
  else none

/-- The v or k register an operand reaches: itself, or through w8-w11; none where it reads zero. `hi` is the second half of a pair. -/
def resolve (s : State) (x : Cx) (r : Reg) (hi : Bool) : Option Reg :=
  match r with
  | .v n => if hi then some (.v (n + 1)) else some (.v n)
  | .k n => if hi then some (.k (n + 1)) else some (.k n)
  | .w i =>
    if 8 ≤ i.val ∧ i.val ≤ 11 then
      match aliasCode (s.thr x.gid x.tid).rr.raw (i.val - 8) with
      | some c => if c < 0x340 then vkCode (declared s x) (if hi then c + 1 else c) else none
      | none => none
    else none
  | _ => none

/-- The capability register an operand reaches. -/
def resolveCap (s : State) (x : Cx) (r : Reg) : Option Reg :=
  match r with
  | .c n => some (.c n)
  | .kc n => some (.kc n)
  | .w i => if i.val = 12 ∨ i.val = 13 then (aliasCap (s.thr x.gid x.tid).rr.raw (i.val - 12)).map Reg.ofCode else none
  | _ => none

/-- A register that holds a value of its own. -/
def readVK (s : State) (x : Cx) (r : Option Reg) : Word :=
  match r with
  | some (.v n) => SMap.get 0 n.val (s.thr x.gid x.tid).v
  | some (.k n) => SMap.get 0 n.val (s.clan x.gid x.cno).k
  | _ => 0

/-- A 32-bit operand. -/
def rd32 (s : State) (x : Cx) (r : Reg) : Word :=
  match r with
  | .w i =>
    if 8 ≤ i.val ∧ i.val ≤ 11 then readVK s x (resolve s x r false)
    else if i.val = 15 then (s.thr x.gid x.tid).pix
    else windowWord (s.thr x.gid x.tid).rr i.val
  | r => readVK s x (resolve s x r false)

/-- A 64-bit operand: an even pair (R16), or the window's own reading (R391, R394). -/
def rd64 (s : State) (x : Cx) (r : Reg) : DWord :=
  match r with
  | .w i =>
    if 8 ≤ i.val ∧ i.val ≤ 11 then readVK s x (resolve s x r true) ++ readVK s x (resolve s x r false)
    else if i.val = 15 then (s.thr x.gid x.tid).pix.setWidth 64
    else if i.val = 14 then (s.thr x.gid x.tid).rr.slot
    else windowWord (s.thr x.gid x.tid).rr (i.val + 1) ++ windowWord (s.thr x.gid x.tid).rr i.val
  | r => readVK s x (resolve s x r true) ++ readVK s x (resolve s x r false)

/-- An operand of a type of 32 or 64 bits, as a number of that many bits. -/
def rdW (s : State) (x : Cx) (wide : Bool) (r : Reg) : Nat := if wide then (rd64 s x r).toNat else (rd32 s x r).toNat

/-- A capability operand. -/
def rdCap (s : State) (x : Cx) (r : Reg) : Cap :=
  match resolveCap s x r with
  | some (.c n) => SMap.get Cap.null n.val (s.thr x.gid x.tid).c
  | some (.kc n) => SMap.get Cap.null n.val (s.clan x.gid x.cno).kc
  | _ => Cap.null

/-- The register i places after r, of the same kind. -/
def Reg.plus (r : Reg) (i : Nat) : Reg :=
  match r with
  | .v n => .v (Fin.ofNat 768 (n.val + i))
  | .k n => .k (Fin.ofNat 64 (n.val + i))
  | .c n => .c (Fin.ofNat 32 (n.val + i))
  | .kc n => .kc (Fin.ofNat 16 (n.val + i))
  | .w n => .w (Fin.ofNat 16 (n.val + i))
  | r => r

/-- n words from consecutive registers (R159, R362). -/
def rdWords (s : State) (x : Cx) (r : Reg) (n : Nat) : List Word := (List.range n).map fun i => rd32 s x (Reg.plus r i)
def rdCaps (s : State) (x : Cx) (r : Reg) (n : Nat) : List Cap := (List.range n).map fun i => rdCap s x (Reg.plus r i)

/-! Writes: what an instruction writes, as a list, and its effect. -/

/-- The writes of a 32-bit result; vz and read-only window registers discard it. -/
def wr32 (s : State) (x : Cx) (r : Reg) (a : Word) : List RegWrite :=
  match r with
  | .w i => if i.val = 15 then [.w r a] else ((resolve s x r false).map fun q => RegWrite.w q a).toList
  | r => ((resolve s x r false).map fun q => RegWrite.w q a).toList

def wr64 (s : State) (x : Cx) (r : Reg) (a : DWord) : List RegWrite :=
  match r with
  | .w i =>
    if i.val = 15 then [.w r (a.extractLsb' 0 32)]
    else if 8 ≤ i.val ∧ i.val ≤ 11 then
      ((resolve s x r false).map fun q => RegWrite.w q (a.extractLsb' 0 32)).toList ++
        ((resolve s x r true).map fun q => RegWrite.w q (a.extractLsb' 32 32)).toList
    else []
  | r =>
    ((resolve s x r false).map fun q => RegWrite.w q (a.extractLsb' 0 32)).toList ++
      ((resolve s x r true).map fun q => RegWrite.w q (a.extractLsb' 32 32)).toList

/-- A result of 32 or 64 bits given as a number. -/
def wrW (s : State) (x : Cx) (wide : Bool) (r : Reg) (a : Nat) : List RegWrite :=
  if wide then wr64 s x r (BitVec.ofNat 64 a) else wr32 s x r (BitVec.ofNat 32 a)

/-- A capability result; its tag is subject to R26 and to the sieve (R407). -/
def wrCap (s : State) (x : Cx) (r : Reg) (a : Cap) : List RegWrite :=
  ((resolveCap s x r).map fun q => RegWrite.c q (sieve s (worldOfCx s x) a.norm)).toList

/-- Writes a predicate; p7 discards (R19). -/
def wrPred (p : Pred) (b : Bool) : List RegWrite := [.p p b]

/-- The issue that a thread is in, and its lane in it. -/
def State.issueOf (s : State) (x : Cx) : Nat × Nat := ((s.thr x.gid x.tid).issue, x.lane)

/-- One write to a thread's own registers or to its clan's. -/
def applyWrite (s : State) (x : Cx) : RegWrite → State
  | .w (.v n) a => s.modThr x.gid x.tid fun t => { t with v := SMap.put 0 n.val a t.v }
  | .w (.k n) a => s.modClan x.gid x.cno fun c => { c with k := SMap.put 0 n.val a c.k, wrote := SMap.put (0, 0) (2 * n.val) (s.issueOf x) c.wrote }
  | .w (.w _) a => s.modThr x.gid x.tid fun t => { t with pix := a }
  | .w _ _ => s
  | .c (.c n) a => s.modThr x.gid x.tid fun t => { t with c := SMap.put Cap.null n.val a t.c }
  | .c (.kc n) a => s.modClan x.gid x.cno fun c => { c with kc := SMap.put Cap.null n.val a c.kc, wrote := SMap.put (0, 0) (2 * n.val + 1) (s.issueOf x) c.wrote }
  | .c _ _ => s
  | .p i b =>
    if i.val = 7 then s
    else s.modThr x.gid x.tid fun t =>
      { t with p := if b then t.p ||| (1#7 <<< i.val) else t.p &&& ~~~(1#7 <<< i.val) }

def applyWrites (s : State) (x : Cx) (ws : List RegWrite) : State := ws.foldl (fun s w => applyWrite s x w) s

/-- The place of a uniform register in `Clan.wrote`. -/
def RegWrite.uniform : RegWrite → Option Nat
  | .w (.k n) _ => some (2 * n.val)
  | .c (.kc n) _ => some (2 * n.val + 1)
  | _ => none

/-- One write of a result that lands after its issue: a uniform register that a later issue, or a higher lane of the same one, has written keeps that value (R177, R178, R394); a capability meets the sieve as it stands now (R407). -/
def lateWrite (s : State) (x : Cx) (no : Nat) (w : RegWrite) : State :=
  let old := match RegWrite.uniform w with
    | some i => let b := SMap.get (0, 0) i (s.clan x.gid x.cno).wrote; decide (no < b.1) || (no == b.1 && decide (x.lane < b.2))
    | none => false
  if old then s else applyWrite s x (match w with | .c r c => .c r (sieve s (worldOfCx s x) c) | w => w)

def lateWrites (s : State) (x : Cx) (no : Nat) (ws : List RegWrite) : State := ws.foldl (fun s w => lateWrite s x no w) s

/-- The writes of a performer: per thread; for a set, its predicates and per-thread registers in every member and uniform registers once (R48, R177). -/
def applyActor (s : State) (a : Actor) (ws : List RegWrite) : State :=
  a.mem.foldl (fun s l => applyWrites s { a.cx with lane := l } ws) s

/-- The special registers that read alike on every service core (R22). -/
def serviceSR (sel : Nat) : Option Nat :=
  if sel ≤ 0x0C ∨ sel = 0x1A then some 0
  else if sel = 0x0D ∨ sel = 0x0F then some (1 + 2 ^ 16 + 2 ^ 32)
  else if sel = 0x0E then some 1
  else none

/-- A special register as a group's threads read it from their launch, core and thread. -/
def groupSR (s : State) (x : Cx) (sel : Nat) : Nat :=
  let g := s.grp x.gid
  let t := s.thr x.gid x.tid
  let (gx, gy, _) := g.launch.shape
  let tid := x.tid
  let shape3 := fun (p : Nat × Nat × Nat) => p.1 + 2 ^ 16 * p.2.1 + 2 ^ 32 * p.2.2
  match sel with
  | 0x00 => if gx = 0 then 0 else tid % gx
  | 0x01 => if gx * gy = 0 then 0 else tid / gx % gy
  | 0x02 => if gx * gy = 0 then 0 else tid / (gx * gy)
  | 0x03 => tid
  | 0x04 => x.cno
  | 0x05 => x.lane
  | 0x06 => g.ham.1 * g.launch.ngrp + g.rank
  | 0x07 => g.ham.2.1
  | 0x08 => g.ham.2.2
  | 0x09 => g.ham.1
  | 0x0A => g.ham.2.1
  | 0x0B => g.ham.2.2
  | 0x0C => g.stage
  | 0x0D => shape3 g.launch.shape
  | 0x0E => g.launch.ngrp
  | 0x0F => shape3 g.launch.grid
  | 0x10 => g.core
  | 0x11 => g.hamletId
  | 0x12 => g.die
  | 0x13 => s.pkg.toNat
  | 0x14 => ((s.ctx? g.ctx).map ContextObj.id).getD 0
  | 0x15 => s.time
  | 0x16 => SMap.get 0 g.die s.clk / 1000
  | 0x17 => t.emask.toNat
  | 0x18 => t.epc.toNat
  | 0x19 => t.edepth
  | 0x1A => t.pix.toNat
  | 0x1B => min 255 t.pend.length + 256 * min 255 ((t.pend.map Pend.window).foldr min 255 % 255)
  | _ => 0

/-- A special register (R22), as a number. -/
def readSR (s : State) (x : Cx) (sel : Nat) : Nat :=
  match serviceSR sel, (s.grp x.gid).service with
  | some v, true => v
  | _, _ => groupSR s x sel

/-- The format slots of a group: those of its launch record; those of its Context for threads that no record started (R80). -/
def groupSlots (s : State) (gid : Nat) : List DWord :=
  let g := s.grp gid
  if g.launch.granules.isEmpty then ((s.ctx? g.ctx).map ContextObj.slots).getD [] else g.launch.slots
/-- One of them. -/
def fmtSlot (s : State) (gid i : Nat) : DWord := ((groupSlots s gid)[i]?).getD 0

end Sys2Proof.Machine
end

