-- ==== Sys2Proof/Machine/Threads.lean ====
section
/-! DEFINITION. How a thread gets past an instruction, parks and wakes (R49, R167, R168). -/

namespace Sys2Proof.Machine

/-- What holds of a thread once it has left an instruction: it waits for nothing, it may be held at its meeting address again (R168), and every lookahead window is one instruction shorter (R49). -/
def Thread.leave (t : Thread) : Thread :=
  { t with wait := .none, paged := none, parkedAt := none, released := false, going := false, fetched := [], pend := t.pend.map fun p => { p with window := p.window - 1 } }

/-- The next sequential instruction (R20, R39). -/
def Thread.advance (foot : Nat) (t : Thread) : Thread := { t.leave with pcc := t.pcc.withAddr (t.pcc.addr + foot) }

def advance (s : State) (x : Cx) (foot : Nat) : State := s.modThr x.gid x.tid (Thread.advance foot)
def jump (s : State) (x : Cx) (pcc : Cap) : State := s.modThr x.gid x.tid fun t => { t.leave with pcc := pcc }

/-- The waits that are watched (R380). -/
def Wait.watched : Wait → Bool
  | .gather | .barrier .. | .queue _ | .room _ | .recv _ | .send _ | .reply _ | .notif _ | .hold _ | .monitor | .line .. | .engine | .copy _ => true
  | _ => false

/-- Parks a thread; the watchdog counts from the first time that it parked at this instruction in a wait that is watched, and not through one that is not (R380). -/
def park (s : State) (x : Cx) (w : Wait) : State :=
  s.modThr x.gid x.tid fun t => { t with wait := w, parkedAt := if w.watched then some (t.parkedAt.getD s.time) else none }

/-- The threads of a performer, in ascending home lane. -/
def Who.cxs (w : Who) : List Cx := w.lanes.map fun l => ⟨w.gid, w.clan, l⟩
def Actor.who (a : Actor) : Who := ⟨a.cx.gid, a.cx.cno, a.mem, a.uni⟩
def Actor.cxs (a : Actor) : List Cx := a.mem.map fun l => { a.cx with lane := l }

/-- Parks a performer; a formed gather that parks keeps its record and its sources, so that the same set goes on with them, before every gather that formed later (R173). -/
def parkActor (s : State) (a : Actor) (w : Wait) : State :=
  let s1 := match a.g with
    | some g => s.modClan a.cx.gid a.cx.cno fun c => { c with gathers := c.gathers ++ [{ g with formed := true, seq := 0, src := g.src.or (some (c.k, c.kc)) }] }
    | none => s
  a.cxs.foldl (fun s x => park s x w) s1

/-- A waiting instruction completes: every thread takes its writes and goes on past it. -/
def completeWith (s : State) (w : Who) (ws : Cx → List RegWrite) (foot : Nat) : State :=
  w.cxs.foldl (fun s x => advance (lateWrites s x (s.thr x.gid x.tid).issue (ws x)) x foot) s
def complete (s : State) (w : Who) (ws : List RegWrite) (foot : Nat) : State := completeWith s w (fun _ => ws) foot

/-- Every thread whose wait satisfies a test is woken, and issues its instruction again. -/
def wakeAll (s : State) (f : Wait → Bool) : State :=
  { s with groups := s.groups.map fun g =>
      (g.1, { g.2 with threads := g.2.threads.map fun t => (t.1, if f t.2.wait then { t.2 with wait := .none } else t.2) }) }

/-- The status word of OBJ and the message instructions (R160). -/
def stOK : Nat := 0
def stFULL : Nat := 1
def stDEAD : Nat := 2
def stBADCAP : Nat := 3
def stWORLD : Nat := 4
def stKEYFULL : Nat := 5
def stRNGFAIL : Nat := 6
def stBADOP : Nat := 7

/-- The status written by a performer (R48, R177). -/
def wrStatus (s : State) (x : Cx) (d : Reg) (st : Nat) : List RegWrite := wr32 s x d (BitVec.ofNat 32 st)

end Sys2Proof.Machine
end

