-- ==== Sys2Proof/Machine/Memory.lean ====
section
/-! DEFINITION. Memory of every level: the physical map and its tags (R234, R235), the windows and presence bits (R224-R230), translation (R236-R238), the Stiles (R451-R453), inline encryption of HBM (R455), replicated pages (R428, R429), IO pages (R144, R486), and reads and writes of plain memory. -/

namespace Sys2Proof.Machine

/-! Physical memory. -/

def readPhys (s : State) (pa n : Nat) : List Byte := SMap.range 0 s.mem pa n
def readNum (s : State) (pa n : Nat) : Nat := ofBytes (readPhys s pa n)
def physTag (s : State) (pa : Nat) : Bool := SMap.get false (pa / 16) s.tags

/-- The granules that n bytes at a touch. -/
def granules (a n : Nat) : List Nat := if n = 0 then [] else (List.range ((a + n - 1) / 16 - a / 16 + 1)).map (a / 16 + ·)
/-- The 32-byte ECC words that n bytes at a touch, and those they cover whole (R234). -/
def eccWords (a n : Nat) : List Nat := if n = 0 then [] else (List.range ((a + n - 1) / 32 - a / 32 + 1)).map (a / 32 + ·)
def eccWhole (a n : Nat) : List Nat := (eccWords a n).filter fun w => decide (a ≤ 32 * w) && decide (32 * w + 32 ≤ a + n)

def clearTags (a n : Nat) (m : SMap Bool) : SMap Bool := (granules a n).foldl (fun m g => Map.del g m) m
def repairEcc (a n : Nat) (m : SMap Bool) : SMap Bool := (eccWhole a n).foldl (fun m w => Map.del w m) m
def eccHit (a n : Nat) (m : SMap Bool) : Bool := (eccWords a n).any fun w => SMap.get false w m

/-- Writes bytes to physical memory; every granule they touch loses its tag (R34). -/
def writePhys (s : State) (pa : Nat) (bs : List Byte) : State :=
  { s with
    mem := SMap.putRange 0 pa bs s.mem
    tags := clearTags pa bs.length s.tags
    ecc := repairEcc pa bs.length s.ecc }

/-- Writes a granule with its tag (R34, R146). -/
def writePhysCap (s : State) (pa : Nat) (c : Cap) : State :=
  let s := writePhys s pa (bytesOf c.bits.toNat 16)
  { s with tags := SMap.put false (pa / 16) c.tag s.tags }

def readPhysCap (s : State) (pa : Nat) : Cap := ⟨BitVec.ofNat 128 (readNum s pa 16), physTag s pa⟩

/-! Inline encryption of HBM (R455): `State.mem` holds what the bytes of a granule are under the key that they were last written with, and a read through a page of another key brings what the decryption under that key gives. -/

/-- The key that an unlisted granule is under: that of the zeroing of its Frame. -/
def frameKey (s : State) (pa : Nat) : MemKey :=
  (s.objs.findSome? fun o =>
    match o.2.body with
    | .frame f => if f.pa ≤ pa ∧ pa < f.pa + 2 ^ f.log2 then some f.zkey else none
    | _ => none).getD none

/-- The key that a granule, by its number, is under. -/
def cipherOf (s : State) (g : Nat) : MemKey := (Map.get? g s.cipher).getD (frameKey s (16 * g))

/-- No byte of a range is under a key: every read without one is plain. -/
def plainRange (s : State) (pa n : Nat) : Bool :=
  (s.objs.all fun o =>
    match o.2.body with
    | .frame f => f.zkey == none || decide (pa + n ≤ f.pa) || decide (f.pa + 2 ^ f.log2 + 16 ≤ pa)
    | _ => true) &&
  s.cipher.all fun e => e.2 == none || decide (16 * e.1 + 16 ≤ pa) || decide (pa + n ≤ 16 * e.1)

/-- A byte as a page of a key reads it. -/
def byteVia (s : State) (k : MemKey) (a : Nat) : Byte :=
  if cipherOf s (a / 16) = k then SMap.get 0 a s.mem
  else (recrypt (cipherOf s (a / 16)) k (a / 16) (BitVec.ofNat 128 (readNum s (a / 16 * 16) 16))).extractLsb' (8 * (a % 16)) 8

def readVia (s : State) (k : MemKey) (pa n : Nat) : List Byte :=
  if k == none && plainRange s pa n then readPhys s pa n else (List.range n).map fun i => byteVia s k (pa + i)

/-- Puts a granule under a key: its bytes become what that key reads. -/
def rekeyGranule (s : State) (k : MemKey) (g : Nat) : State :=
  if cipherOf s g = k then s
  else { s with mem := SMap.putRange 0 (16 * g) ((List.range 16).map fun i => byteVia s k (16 * g + i)) s.mem, cipher := Map.set g k s.cipher }

/-- Puts the granules that n bytes touch under a key. -/
def rekey (s : State) (pa n : Nat) (k : MemKey) : State :=
  if k == none && plainRange s pa n then s else (granules pa n).foldl (fun st g => rekeyGranule st k g) s

/-- Writes bytes through a page of a key. -/
def writeVia (s : State) (k : MemKey) (pa : Nat) (bs : List Byte) : State := writePhys (rekey s pa bs.length k) pa bs

def hbmSize : Nat := 0x6C00000000
def hbmDie : Nat := 0x1200000000
def deviceBase : Nat := 0x0008000000000000
def deviceSize : Nat := 0x0001000000000000
def cellarBase : Nat := 0x000F000000000000

/-- The Cellar capacity of a die in bytes (R232). -/
def cellarBytes (s : State) (die : Nat) : Nat := SMap.get 0 die s.cellarMiB * 2 ^ 20

/-- R235: 1 HBM, 2 device space, 3 Cellar; none elsewhere. -/
def physKind (s : State) (pa n : Nat) : Option Nat :=
  if pa + n ≤ hbmSize then some 1
  else if deviceBase ≤ pa ∧ pa + n ≤ deviceBase + deviceSize then some 2
  else if cellarBase ≤ pa ∧ (pa - cellarBase) / 2 ^ 26 < 6 ∧
      (pa - cellarBase) % 2 ^ 26 + n ≤ cellarBytes s ((pa - cellarBase) / 2 ^ 26) then some 3
  else none

/-! The Stiles. -/

def protectedWorld (s : State) (w : Nat) : Bool := decide (4 ≤ w) && s.prot.getLsbD w

/-- A packet leaves for another package; one of a protected world is sealed under the pair key of the two packages, with the next IV of its plane, and without that key none leaves (R462). -/
def sendPacket (s : State) (sealed : Bool) (pkg : Nat) (o : Out) : State :=
  match sealed, Map.get? pkg s.pairs with
  | false, _ => { s with out := s.out ++ [o] }
  | true, some k => { s with out := s.out ++ [o], pairs := Map.set pkg { k with sent := SMap.put 0 (pkg % 18) (SMap.get 0 (pkg % 18) k.sent + 1) k.sent } s.pairs }
  | true, none => s

/-- Whether world i may read or write target world t (R452). -/
def stile (s : State) (i t : Nat) (wr : Bool) : Bool :=
  if i = 0 then true
  else
    s.lock && decide (i < 16) &&
      (i == t || (!protectedWorld s t && (s.boundRows[i]?.getD 0).getLsbD (2 * t + wr.toNat)))

/-- The key of a page by its WORLD and KEY (R455): a KeySlot's, the memory key of a protected world, or none; a key that is gone has been zeroized (R457, R459). Only HBM is encrypted. -/
def pageKey (s : State) (world key pa : Nat) : MemKey :=
  if hbmSize ≤ pa then none
  else if key ≠ 0 then some (((Map.get? key s.keys).map KeySlot.key).getD 0)
  else if protectedWorld s world then some (((s.keys.find? fun q => q.2.role == 0 && q.2.world == world).map fun q => q.2.key).getD 0)
  else none

/-! Translation. -/

/-- The kinds of access that R238 tells apart. -/
inductive Acc where
  | rd | wr | rmw | fetch
  deriving DecidableEq, Repr

def Acc.writes : Acc → Bool
  | .wr | .rmw => true
  | _ => false
def Acc.reads : Acc → Bool
  | .rd | .rmw => true
  | _ => false

/-- A page-table entry (R237). -/
structure Pte where
  raw : Nat
  deriving DecidableEq, Repr

namespace Pte
def v (e : Pte) : Bool := bitsAt e.raw 0 1 == 1
def leaf (e : Pte) : Bool := bitsAt e.raw 1 1 == 1
def r (e : Pte) : Bool := bitsAt e.raw 2 1 == 1
def w (e : Pte) : Bool := bitsAt e.raw 3 1 == 1
def x (e : Pte) : Bool := bitsAt e.raw 4 1 == 1
def mtype (e : Pte) : Nat := bitsAt e.raw 5 3
def fabs (e : Pte) : Bool := bitsAt e.raw 8 1 == 1
def addr (e : Pte) : Nat := bitsAt e.raw 13 39 * 2 ^ 13
def world (e : Pte) : Nat := bitsAt e.raw 52 4
def key (e : Pte) : Nat := bitsAt e.raw 56 6
/-- Builds a leaf. -/
def mkLeaf (pa world mtype key : Nat) (r w x fabs : Bool) : Nat :=
  3 + r.toNat * 4 + w.toNat * 8 + x.toNat * 16 + mtype * 2 ^ 5 + fabs.toNat * 2 ^ 8 + pa + world * 2 ^ 52 + key * 2 ^ 56
/-- Builds a non-leaf. -/
def mkTable (pa : Nat) : Nat := 1 + pa
end Pte

/-- Malformed at a level (R237). -/
def Pte.malformed (s : State) (e : Pte) (level : Nat) : Bool :=
  bitsAt e.raw 62 2 != 0 || bitsAt e.raw 9 4 != 0 || decide (6 ≤ e.mtype) ||
  (!e.leaf && (e.key != 0 || e.world != 0 || e.fabs || e.mtype != 0 || e.x || e.w || e.r)) ||
  (level == 4 && e.leaf) || (level == 1 && !e.leaf) ||
  (e.leaf && e.addr % 2 ^ (7 + 10 * level) != 0) ||
  (e.fabs && e.mtype != 3) ||
  (physKind s e.addr (if e.leaf then 2 ^ (7 + 10 * level) else 2 ^ 13)).isNone

/-- How a walk ends: a leaf at a level with the address of its entry, a subclass of R372, or an ECC error. -/
inductive Walk where
  | leaf (e : Pte) (level : Nat) (at_ : Nat)
  | bad (sub : Nat)
  | ecc
  deriving DecidableEq, Repr

/-- A walk from a table of a level (R236), its checks made entry by entry (R238, log entry 17). -/
def walkFrom (s : State) (va : Nat) : Nat → Nat → Walk
  | 0, _ => .bad 4
  | l + 1, tbl =>
    let a := tbl + 8 * (va / 2 ^ (17 + 10 * l) % 1024)
    if eccHit a 8 s.ecc then .ecc
    else
      let e : Pte := ⟨readNum s a 8⟩
      if !e.v then .bad 3
      else if e.malformed s (l + 1) then .bad 4
      else if e.leaf then .leaf e (l + 1) a
      else walkFrom s va l e.addr

/-- The walk of an AddressSpace; with none, nothing is valid. -/
def walk (s : State) (asp : Option Nat) (va : Nat) : Walk :=
  match asp.bind s.aspace? with
  | some a => walkFrom s va 4 a.root
  | none => .bad 3

/-- Where a translated access lands: a physical address with its memory type and key, a fault, or an absent FILEMAP page. -/
inductive Tr where
  | ok (pa : Nat) (mt : Nat) (key : MemKey := none)
  | fault (cls sub : Nat)
  | absent (fm page : Nat)
  deriving DecidableEq, Repr

/-- The FileMap and page behind a virtual page of an AddressSpace (R351). -/
def fileOf (s : State) (asp : Option Nat) (va : Nat) : Option (Nat × Nat) :=
  ((asp.bind s.aspace?).bind fun a => a.files.find? fun f => f.1 == va / 2 ^ 17 * 2 ^ 17).map fun f => (f.2.1, f.2.2)

/-- R238, with the Stile check of R453 after it. -/
def translate (s : State) (asp : Option Nat) (world : Nat) (acc : Acc) (va : Nat) : Tr :=
  if 2 ^ 57 ≤ va then .fault 2 1
  else
    match walk s asp va with
    | .bad sub => .fault 2 sub
    | .ecc => .fault 9 2
    | .leaf e lvl _ =>
      if e.world != world then .fault 2 5
      else if (acc.reads && !e.r) || (acc.writes && !e.w) || (acc == .fetch && !e.x) || (acc.writes && e.mtype == 2) then .fault 2 6
      else if (acc == .rmw || acc == .fetch) && decide (4 ≤ e.mtype) then .fault 2 7
      else if !stile s world e.world acc.writes then .fault 2 5
      else if e.fabs then
        match fileOf s asp va with
        | some (fm, p) => .absent fm p
        | none => .fault 2 8
      else .ok (e.addr + va % 2 ^ (7 + 10 * lvl)) e.mtype (pageKey s e.world e.key e.addr)

/-! Where an access of a thread lands. -/

/-- The outcome of resolving an address. -/
inductive Hit where
  | at_ (l : Loc)
  | fault (cls sub : Nat)
  | absent (fm page : Nat)
  deriving DecidableEq, Repr

def Loc.plus (l : Loc) (i : Nat) : Loc :=
  match l with
  | .lane g t o => .lane g t (o + i)
  | .pad g o => .pad g (o + i)
  | .mem p m k => .mem (p + i) m k

/-- IO-NS or IO-SE. -/
def Loc.io : Loc → Bool
  | .mem _ mt _ => decide (4 ≤ mt)
  | _ => false

/-- The group of a rank in a unit and stage. -/
def rankIn (s : State) (unit stage rank : Nat) : Option Nat :=
  (s.groups.find? fun p => p.2.unit == unit && p.2.stage == stage && p.2.rank == rank && !p.2.done).map (·.1)
/-- The group of a rank in the unit and stage of a group (R224). -/
def peerOf (s : State) (gid rank : Nat) : Option Nat :=
  let g := s.grp gid
  if rank = g.rank then some gid else rankIn s g.unit g.stage rank

/-- The window mapping of R224 and R226 for n bytes. -/
def windowHit (s : State) (x : Cx) (w o n : Nat) : Hit :=
  let g := s.grp x.gid
  if g.service then .fault 2 2
  else
    match w with
    | 0 => if o + n ≤ g.launch.lanemem then .at_ (.lane x.gid x.tid o) else .fault 2 2
    | 1 => if o + n ≤ g.launch.scratch then .at_ (.pad x.gid o) else .fault 2 2
    | _ =>
      let r := o % 2 ^ 19
      if o / 2 ^ 19 < g.launch.ngrp ∧ r + n ≤ g.launch.hambytes then
        match peerOf s x.gid (o / 2 ^ 19) with
        | some p => .at_ (.pad p r)
        | none => .fault 2 2
      else .fault 2 2

def aspaceOf (s : State) (ctx : Nat) : Option Nat := (s.ctx? ctx).bind ContextObj.aspace

/-- The place of an access of n bytes by a thread, after CapCheck (R226, R238); a page whose read failed refuses the accesses that were parked on it (R337). -/
def locate (s : State) (x : Cx) (acc : Acc) (a n : Nat) : Hit :=
  match windowOf a with
  | some w => windowHit s x w (a % 2 ^ 24) n
  | none =>
    match translate s (aspaceOf s (ctxOf s x)) (worldOfCx s x) acc a with
    | .ok pa mt k => .at_ (.mem pa mt k)
    | .fault c u => .fault c u
    | .absent f p => if (s.thr x.gid x.tid).paged = some (f, p, true) then .fault 2 8 else .absent f p

/-- Rotate (R228). -/
def rotate (a c : Nat) : Nat :=
  if c = 0 ∨ (windowOf a ≠ some 1 ∧ windowOf a ≠ some 2) then a
  else
    let sp := a / 2 ^ 8
    a - a % 256 + (a % 256 / 16 ^^^ sp / 2 ^ (c - 1) % 16) * 16 + a % 16

/-- The scratchpad line of a place, when its presence bit is clear (R230). -/
def darkLine (s : State) (l : Loc) : Option (Nat × Nat) :=
  match l with
  | .pad g o => if SMap.get false (o / 64) (s.grp g).absent then some (g, o / 64) else none
  | _ => none

/-! Replicated pages. -/

/-- The tags of granules that a write at `a` covers whole, by their place in it. -/
def putTags (a : Nat) (ts : List (Nat × Bool)) (m : SMap Bool) : SMap Bool := ts.foldl (fun m t => SMap.put false ((a + t.1) / 16) t.2 m) m

/-- One replicated write as it changes memory, with all its bytes and tags at once (R428). -/
def applyRepl (s : State) (w : ReplWrite) : State :=
  let s1 := w.more.foldl (fun s p => writeVia s w.key p.1 p.2) (writeVia s w.key w.pa w.data)
  { s1 with tags := putTags w.pa w.tags s1.tags }

/-- Memory as a thread on a die sees the REPL pages: the writes its replica has applied, then the thread's own later ones (R428, R429). -/
def replView (s : State) (die gid tid : Nat) : State :=
  let k := SMap.get 0 die s.replDone
  let own := (s.replLog.drop k ++ s.replNew).filter fun w => w.gid == gid && w.tids.contains tid
  (s.replLog.take k ++ own).foldl applyRepl s

/-- Memory in the stamp order of the REPL pages, their coherence order (R428). -/
def replHome (s : State) : State := s.replLog.foldl applyRepl s

/-- An engine as the reader or writer of a place: its identifier, and the die whose replica it reads. -/
def engineCx (id die : Nat) : Cx := ⟨0, id, die⟩
/-- The management processor and the dispatcher, on the H-die. -/
def reeveCx : Cx := engineCx 32 6
/-- The collective engine. -/
def collCx : Cx := engineCx 33 6
/-- Requests that come over the fabric. -/
def fabricCx : Cx := engineCx 34 6
/-- A root port's inbound accesses. -/
def portCx (port : Nat) : Cx := engineCx port 6
/-- A request at the Carter of a hamlet. -/
def carterCx (id hamlet : Nat) : Cx := engineCx (64 + id) (hamlet / 16)
/-- The die whose replica serves a reader (R428). -/
def replDie (s : State) (x : Cx) : Nat := if x.gid = 0 then x.lane else (s.grp x.gid).die

/-- The Frame around a place. -/
def frameAt (s : State) (pa : Nat) : Option FrameObj :=
  s.objs.findSome? fun o =>
    match o.2.body with
    | .frame f => if !o.2.torn ∧ f.pa ≤ pa ∧ pa < f.pa + 2 ^ f.log2 then some f else none
    | _ => none

/-- The home rank and the group that the Frame around a REPL write is bound to (R430). -/
def boundGroup (s : State) (pa : Nat) : Option (Nat × CollGroup) :=
  ((frameAt s pa).bind FrameObj.repl).bind fun b => ((s.queue? b.1).bind QueueObj.coll).map fun g => (b.2, g)

/-- A REPL write whose sequencing domain is another package's. -/
def boundAway (s : State) (pa : Nat) : Bool :=
  match boundGroup s pa with
  | some (h, g) => h != g.rank
  | none => false

/-- The ranks of the other members of a group. -/
def CollGroup.others (g : CollGroup) : List Nat := (List.range g.size).filter (· != g.rank)

/-- A REPL write that waits here, at the home of its Frame, until each member has bound its own (R430). -/
def boundWaits (s : State) (pa : Nat) : Bool :=
  match boundGroup s pa with
  | some (h, g) => h == g.rank && g.others.any fun r => !s.bound.any fun b => b.1 == g.id && b.2.1 == r
  | none => false

/-- A REPL write that this package's Bellringer cannot stamp now. -/
def replHeld (s : State) (pa : Nat) : Bool := boundAway s pa || boundWaits s pa

/-- What a stamped write sends to the other members of its group, when this package is its home (R430). -/
def multicast (s : State) (w : ReplWrite) : List Out :=
  if (boundGroup s w.pa).isSome then [.replMulticast w.pa w.data w.more] else []

/-- What a write of this package's own agents to a bound Frame, once stamped, still waits for: each other member's replicas (R430). -/
def owedFor (s : State) (w : ReplWrite) : List ReplOwed :=
  match boundGroup s w.pa with
  | some (_, g) => if w.foreign || g.others.isEmpty then [] else [⟨w.gid, w.tids, w.pa, w.data, g.others⟩]
  | none => []

/-- The applications by every replica here of another package's writes, which that package hears of (R430). -/
def appliedOuts (ws : List ReplWrite) : List Out := (ws.filter ReplWrite.foreign).map fun w => .replApplied w.pa w.data

/-! Plain reads and writes at a place. -/

/-- Memory as a thread sees it at a place. -/
def viewFor (s : State) (x : Cx) (l : Loc) : State :=
  match l with
  | .mem _ 1 _ => replView s (replDie s x) x.gid x.tid
  | _ => s

def readLoc (s : State) (l : Loc) (n : Nat) : List Byte :=
  match l with
  | .lane g t o => SMap.range 0 (s.thr g t).slice o n
  | .pad g o => SMap.range 0 (s.grp g).scratch o n
  | .mem pa _ k => readVia s k pa n

/-- The tag of a granule: never set in a word with an uncorrectable error (R234). -/
def tagLoc (s : State) (l : Loc) : Bool :=
  match l with
  | .lane g t o => SMap.get false (o / 16) (s.thr g t).sliceTags && !eccHit o 1 (s.thr g t).sliceEcc
  | .pad g o => SMap.get false (o / 16) (s.grp g).stags && !eccHit o 1 (s.grp g).secc
  | .mem pa mt _ => if 4 ≤ mt then false else physTag s pa && !eccHit pa 1 s.ecc

/-- An uncorrectable error meets a read (R234). -/
def eccLoc (s : State) (l : Loc) (n : Nat) : Bool :=
  match l with
  | .lane g t o => eccHit o n (s.thr g t).sliceEcc
  | .pad g o => eccHit o n (s.grp g).secc
  | .mem pa mt _ => if 4 ≤ mt then false else eccHit pa n s.ecc

/-- A data access of n bytes as a number (R142), read as the thread sees the place. -/
def readAt (s : State) (x : Cx) (l : Loc) (n : Nat) : Nat := ofBytes (readLoc (viewFor s x l) l n)

/-- The value that is latest in coherence order at a place, as an atomic reads it (R251): on a REPL page, in stamp order. -/
def readHome (s : State) (l : Loc) (n : Nat) : Nat :=
  match l with
  | .mem _ 1 _ => ofBytes (readLoc (replHome s) l n)
  | l => ofBytes (readLoc s l n)

/-- A die's replica: the stamped writes that it has applied (R428). -/
def replica (s : State) (die : Nat) : State := (s.replLog.take (SMap.get 0 die s.replDone)).foldl applyRepl s

/-- The value at a monitor's location: on a REPL page that of the replica of the waiting thread's die (R275). -/
def Monitor.value (s : State) (m : Monitor) : Nat :=
  match m.loc with
  | .mem _ 1 _ => ofBytes (readLoc (replica s (s.grp m.who.gid).die) m.loc m.n)
  | l => ofBytes (readLoc s l m.n)

/-- The value at a monitor's location and whether it satisfies the comparison (R275). -/
def Monitor.test (s : State) (m : Monitor) : Nat × Bool :=
  let v := m.value s
  let b := 8 * m.n
  (v, if m.sgn then condI m.cmp (toSigned b v) (toSigned b m.c) else condI m.cmp (v : Int) (m.c % 2 ^ b : Nat))

/-- After a write: a monitor whose location now satisfies its comparison completes its WAITC with that value (R262). -/
def checkMonitors (s : State) : State :=
  s.monitors.foldl (fun st m =>
    let r := m.test s
    if r.2 then
      completeWith { st with monitors := st.monitors.filter fun o => o != m } m.who (fun x => wrW st x (m.n == 8) m.d r.1) m.foot
    else st) s

/-- A die's replica applies its next stamped write, which wakes the monitors there (R275, R428). -/
def replNext (s : State) (die : Nat) : State :=
  let k := SMap.get 0 die s.replDone
  if k < s.replLog.length then checkMonitors { s with replDone := SMap.put 0 die (k + 1) s.replDone } else s

/-- A die's replica applies every write stamped so far, one after another (R428). -/
def replCatch (s : State) (die : Nat) : State := (List.range (s.replLog.length - SMap.get 0 die s.replDone)).foldl (fun st _ => replNext st die) s

/-- After an atomic has read a REPL page in stamp order, its die's replica holds no older value for the thread's later reads (R250). -/
def catchUp (s : State) (gid : Nat) (l : Loc) : State :=
  match l with
  | .mem _ 1 _ => replCatch s (s.grp gid).die
  | _ => s

/-- The first write through an installed FILEMAP leaf makes its page DIRTY (R337); a write during a writeback leaves it DIRTY (R339). -/
def dirtyPage (s : State) (pa : Nat) : State :=
  { s with objs := s.objs.map fun o =>
      match o.2.body with
      | .filemap f =>
        (o.1, { o.2 with body := .filemap { f with cache := f.cache.map fun p =>
          (p.1, if p.2.frame ≤ pa ∧ pa < p.2.frame + 2 ^ 17 then
            (if p.2.state = 3 then { p.2 with redirty := true } else if p.2.state = 1 then { p.2 with state := 2 } else p.2)
          else p.2) } })
      | _ => o }

/-- The Bellringer stamps a write of the package's own domain: it takes its place in coherence order (R428). -/
def stampWrite (s : State) (w : ReplWrite) : State :=
  { s with replNew := s.replNew.erase w, replLog := s.replLog ++ [w], owed := s.owed ++ owedFor s w, out := s.out ++ multicast s w }

/-- Every write of the package's own domain is stamped, in the order issued. -/
def stampAll (s : State) : State := (s.replNew.filter fun w => !replHeld s w.pa).foldl stampWrite s

/-- No REPL write is under way. -/
def replQuiet (s : State) : Bool := s.replNew.isEmpty && s.replLog.isEmpty

/-- Every REPL write of the package's own domain is stamped and applied on one die: performed at its scope and at every narrower one (R246, R254). -/
def replSettleDie (s : State) (die : Nat) : State := if replQuiet s then s else replCatch (stampAll s) die

/-- The writes of other packages' domains go to the Bellringers of their homes (R430). -/
def sendAway (s : State) : State :=
  { s with
    replNew := s.replNew.map fun w => if boundAway s w.pa then { w with sent := true } else w
    out := s.out ++ (s.replNew.filter fun w => boundAway s w.pa && !w.sent).map fun w => .replMulticast w.pa w.data w.more }

/-- Every REPL write of the package's own domain is stamped and every replica applies it: performed at package scope (R429). Those of another package's domain have been sent there (R430). -/
def replSettle (s : State) : State :=
  if replQuiet s then s
  else
    let s1 := (List.range 7).foldl replCatch (sendAway (stampAll s))
    { replHome s1 with replLog := [], replDone := [], out := s1.out ++ appliedOuts s1.replLog }

/-- REPL writes of one writer, a thread or an engine, that another package has yet to stamp, or that wait for a member to bind (R430). -/
def replAway (s : State) (gid tid : Nat) : Bool := s.replNew.any fun w => w.gid == gid && w.tids.contains tid && replHeld s w.pa
/-- Writes of one writer that a member's replicas have yet to apply: not performed at system scope (R430). -/
def replOwes (s : State) (gid tid : Nat) : Bool := s.owed.any fun o => o.gid == gid && o.tids.contains tid

/-- The key of a core: its identifier, service cores after the compute cores. -/
def coreKey (g : Group) : Nat := if g.service then 1536 + g.core else g.core

/-- A performer has a part in a request. -/
def Who.has (w : Who) (x : Cx) : Bool := w.gid == x.gid && w.clan == x.cno && w.lanes.contains x.lane

/-- An unanswered request of a thread, the buffer's combined writes apart, that a test names: a load, a direct store, an atomic, or a reduction, which no register waits for. -/
def remoteOf (s : State) (x : Cx) (f : RemoteOut → Bool) : Bool :=
  s.remotes.any fun r =>
    match r.2.op, r.2.who with
    | .combined _, _ | .send .., _ => false
    | _, some (w, _, _) => w.has x && f r.2
    | _, none => false

/-- An unanswered load, store or atomic of a thread at another package: it is not performed (R246). -/
def remotePending (s : State) (x : Cx) : Bool := remoteOf s x fun _ => true
/-- One with acquire or sc ordering: nothing later is performed before it (R253). -/
def remoteAcquire (s : State) (x : Cx) : Bool := remoteOf s x RemoteOut.acq
/-- One that reads: nothing that another agent could see is performed before its value is fixed (R252). -/
def remoteReading (s : State) (x : Cx) : Bool := remoteOf s x fun r => match r.op with | .store _ => false | _ => true

/-- Whether a thread has a part in a far request (R266). -/
def FarTree.has (w : Cx) : FarTree → Bool
  | .leaf who .. => who.has w
  | .foreign .. => false
  | .split p q _ _ => p.has w || q.has w

/-- A far request has a part of a group. -/
def FarTree.inGroup (gid : Nat) : FarTree → Bool
  | .leaf who .. => who.gid == gid
  | .foreign .. => false
  | .split p q _ _ => p.inGroup gid || q.inGroup gid

def farPending (s : State) (x : Cx) : Bool := s.fars.any fun f => f.2.old.isNone && f.2.tree.has x

/-- Plain stores to other packages among the issuers of a combined write that a test names. -/
def issuedBy (f : Who → Bool) (l : List (Who × DWord × BitVec 128)) : Bool := l.any fun i => f i.1

/-- A plain store to another package, of performers that a test names, is in a write-combining buffer or has not been answered: it is not performed (R246, R440). -/
def storesOf (s : State) (f : Who → Bool) : Bool :=
  (s.wc.any fun b => b.2.any fun e => issuedBy f e.issuers) || s.remotes.any fun r => issuedBy f r.2.issuers
def storesOpen (s : State) (x : Cx) : Bool := storesOf s (·.has x)

/-- A performer one of whose accesses has not been performed: an edge of happens-before that it makes waits for them (R249, R250): its far requests, its requests to other packages, its plain stores there, its writes that another package has yet to stamp (R430). -/
def edgeHeld (s : State) (a : Actor) : Bool :=
  a.cxs.any fun x => farPending s x || remotePending s x || storesOpen s x || replAway s x.gid x.tid

/-- An edge of happens-before from performers to agents of any die (R249): once their REPL writes are performed at package scope. -/
def edges (s : State) (as : List Actor) (k : State → State) : State :=
  if as.any (edgeHeld s) then as.foldl (fun s a => parkActor s a .fence) (sendAway s) else k (replSettle s)
def edge (s : State) (a : Actor) (k : State → State) : State := edges s [a] k

/-- Accesses of a group that has ended, or ends, have yet to be performed (R249, R279). -/
def groupOpen (s : State) (gid : Nat) : Bool :=
  (s.fars.any fun f => f.2.old.isNone && f.2.tree.inGroup gid) || storesOf s (·.gid == gid) ||
    (s.remotes.any fun r => r.2.who.any fun w => w.1.gid == gid) || s.replNew.any fun w => w.gid == gid && replHeld s w.pa

/-- The device-space region behind an address: its root port, when its link is up (R486). -/
def barOf (s : State) (pa n : Nat) : Option Nat :=
  ((s.bars.find? fun b => decide (b.1 ≤ pa) && decide (pa + n ≤ b.1 + b.2.1) && !SMap.get false b.2.2 s.linkDown)).map fun b => b.2.2

/-- A write to a device page: it leaves the device, or is dropped (R486); 16 bytes are two writes (R144). -/
def ioWrite (s : State) (pa : Nat) (bs : List Byte) : State :=
  match barOf s pa bs.length with
  | some _ => { s with out := s.out ++ (if bs.length = 16 then [.ioWrite pa (bs.take 8), .ioWrite (pa + 8) (bs.drop 8)] else [.ioWrite pa bs]) }
  | none => s

/-- Bytes come to stand at a place. `tags` are the tags of granules written whole, by their place among the bytes; every other granule touched loses its tag (R34). `who` are the writers, for REPL pages: a group and its threads, or 0 and an engine. -/
def putLoc (s : State) (who : Nat × List Nat) (l : Loc) (bs : List Byte) (tags : List (Nat × Bool)) : State :=
  let n := bs.length
  let st (m : SMap Bool) (o : Nat) : SMap Bool := putTags o tags (clearTags o n m)
  match l with
  | .lane g t o => s.modThr g t fun th =>
      { th with slice := SMap.putRange 0 o bs th.slice, sliceTags := st th.sliceTags o, sliceEcc := repairEcc o n th.sliceEcc }
  | .pad g o => s.modGrp g fun gr =>
      { gr with scratch := SMap.putRange 0 o bs gr.scratch, stags := st gr.stags o, secc := repairEcc o n gr.secc }
  | .mem pa mt k =>
    if 4 ≤ mt then ioWrite s pa bs
    else if mt = 1 then { s with replNew := s.replNew ++ [{ pa := pa, data := bs, tags := tags, gid := who.1, tids := who.2, key := k }] }
    else
      let s2 := writeVia s k pa bs
      let s3 := { s2 with tags := st s2.tags pa }
      if mt = 3 then dirtyPage s3 pa else s3

/-- One write at a place, which the monitors see when it is done (R262). -/
def writeLoc (s : State) (who : Nat × List Nat) (l : Loc) (bs : List Byte) (tags : List (Nat × Bool)) : State :=
  checkMonitors (putLoc s who l bs tags)

/-- One write of bytes at several places of a page, each with its bytes (R440): the monitors, and the replicas of a REPL page, see all of it or none. -/
def writeSeveral (s : State) (who : Nat × List Nat) : List (Loc × List Byte) → State
  | [] => s
  | (.mem pa 1 k, bs) :: rest =>
    { s with replNew := s.replNew ++ [{ pa := pa, data := bs, tags := [], gid := who.1, tids := who.2, key := k
                                        more := rest.filterMap fun p => match p.1 with | .mem q _ _ => some (q, p.2) | _ => none }] }
  | ps => checkMonitors (ps.foldl (fun st p => putLoc st who p.1 p.2 []) s)

def readCapAt (s : State) (x : Cx) (l : Loc) : Cap :=
  ⟨BitVec.ofNat 128 (readAt s x l 16), tagLoc (viewFor s x l) l⟩
/-- The writers of an access: every member of its performer (R173). -/
def Actor.writers (a : Actor) : Nat × List Nat := (a.cx.gid, a.cxs.map Cx.tid)
def Cx.writer (x : Cx) : Nat × List Nat := (x.gid, [x.tid])
def writeAt (s : State) (who : Nat × List Nat) (l : Loc) (n v : Nat) : State := writeLoc s who l (bytesOf v n) []
def writeCapAt (s : State) (who : Nat × List Nat) (l : Loc) (c : Cap) : State :=
  writeLoc s who l (bytesOf c.bits.toNat 16) [(0, c.tag)]

/-! Ranges, for engines and the instructions that move more than 16 bytes. -/

/-- Resolves n bytes at `a` page by page through `f`, which gives the place of the bytes from an address to the end of its page or window slot: places with their lengths. -/
def pieces (f : Nat → Nat → Hit) : Nat → Nat → Nat → Except Hit (List (Loc × Nat))
  | 0, _, _ => .ok []
  | fuel + 1, a, n =>
    if n = 0 then .ok []
    else
      let k := min n (2 ^ 17 - a % 2 ^ 17)
      match f a k with
      | .at_ l => (pieces f fuel (a + k) (n - k)).map ((l, k) :: ·)
      | h => .error h

/-- The pieces of a range of a thread. -/
def rangeOf (s : State) (x : Cx) (acc : Acc) (a n : Nat) : Except Hit (List (Loc × Nat)) :=
  pieces (locate s x acc) (n / 2 ^ 17 + 2) a n

def readPieces (s : State) (x : Cx) (ps : List (Loc × Nat)) : List Byte :=
  ps.flatMap fun p => readLoc (viewFor s x p.1) p.1 p.2
/-- What a device answers to a read by an engine or an instruction that moves a range: free bytes where something backs the page, all ones where nothing does (R486). -/
def ioBytes (s : State) (pa n : Nat) : List Byte × State :=
  match barOf s pa n with
  | some _ =>
    let (k, s1) := s.draw
    ((List.range n).map (Config.deviceByte k), { s1 with out := s1.out ++ [.ioRead pa n] })
  | none => (List.replicate n 255, s)

/-- Reads a range, device pages included. -/
def readRange (s : State) (x : Cx) (ps : List (Loc × Nat)) : List Byte × State :=
  ps.foldl (fun (acc : List Byte × State) p =>
    match p.1 with
    | .mem pa mt _ =>
      if 4 ≤ mt then let r := ioBytes acc.2 pa p.2; (acc.1 ++ r.1, r.2) else (acc.1 ++ readLoc (viewFor acc.2 x p.1) p.1 p.2, acc.2)
    | l => (acc.1 ++ readLoc acc.2 l p.2, acc.2)) ([], s)

/-- The 16-byte granuleCuts of a piece that starts at a granule's boundary or within one: each is written at once with its tag (R36, R327). -/
def granuleCuts : Nat → Loc → Nat → Nat → List (Loc × Nat)
  | 0, _, _, _ => []
  | fuel + 1, l, a, n =>
    if n = 0 then []
    else
      let k := min n (16 - a % 16)
      (l, k) :: granuleCuts fuel (l.plus k) (a + k) (n - k)

/-- The parts of a piece that are written one at a time: the granuleCuts on a REPL page, whose replicas take each write for itself; the whole elsewhere. -/
def Loc.parts (p : Loc × Nat) : List (Loc × Nat) :=
  match p.1 with
  | .mem pa 1 _ => granuleCuts (p.2 / 16 + 2) p.1 pa p.2
  | _ => [p]

/-- Writes a range through the write of one place; the granules named by their place in it keep a tag, every other granule touched loses its own. -/
def writeWith (put : State → Loc → List Byte → List (Nat × Bool) → State) (s : State) (ps : List (Loc × Nat)) (bs : List Byte) (ts : List (Nat × Bool)) : State :=
  ((ps.flatMap Loc.parts).foldl (fun (acc : State × Nat) p =>
    (put acc.1 p.1 ((bs.drop acc.2).take p.2) ((ts.filter fun t => decide (acc.2 ≤ t.1) && decide (t.1 < acc.2 + p.2)).map fun t => (t.1 - acc.2, t.2)),
      acc.2 + p.2)) (s, 0)).1
def writeTagged (s : State) (who : Nat × List Nat) (ps : List (Loc × Nat)) (bs : List Byte) (ts : List (Nat × Bool)) : State :=
  writeWith (fun st l b t => writeLoc st who l b t) s ps bs ts

def writePieces (s : State) (who : Nat × List Nat) (ps : List (Loc × Nat)) (bs : List Byte) : State :=
  (ps.foldl (fun (acc : State × List Byte) p => (writeLoc acc.1 who p.1 (acc.2.take p.2) [], acc.2.drop p.2)) (s, bs)).1
def eccPieces (s : State) (ps : List (Loc × Nat)) : Bool := ps.any fun p => eccLoc s p.1 p.2
/-- The lines of a list of pieces whose presence bit is clear. -/
def darkPieces (s : State) (ps : List (Loc × Nat)) : Option (Nat × Nat) :=
  ps.findSome? fun p => (List.range (p.2 / 64 + 2)).findSome? fun i =>
    if 64 * i < p.2 + 64 then darkLine s (p.1.plus (min (64 * i) (p.2 - 1))) else none

/-- n granules as capabilities, read through a capability without LOADCAP untagged (R145). -/
def capsAt (s : State) (x : Cx) (ps : List (Loc × Nat)) (loadcap : Bool) : List Cap :=
  ps.flatMap fun p => (List.range (p.2 / 16)).map fun i =>
    let c := readCapAt s x (p.1.plus (16 * i))
    { c with tag := c.tag && loadcap }.norm

end Sys2Proof.Machine
end

