-- ==== Sys2Proof/Machine/Matrix.lean ====
section
/-! DEFINITION. The matrix state of a group: tiles, stationary buffers, operand images (R281-R288), the load of an encrypted operand and its replay (R295-R297), and the matrix image (R305). -/

namespace Sys2Proof.Machine

/-- K of an MMA by the format of B (R283, R284). -/
def kOf : Fmt → Nat
  | .fp64 => 4
  | .fp32 | .int32 => 8
  | .bf16 | .fp16 | .int16 => 32
  | .e4m3 | .e5m2 | .int8 | .uint8 | .pp8 => 64
  | .int4 => 128
  | .b1 => 512

/-- Bytes of a row of B. -/
def bRow (bf : Fmt) : Nat := 64 * Fmt.bits bf / 8
/-- Bytes of B scales (R286). -/
def bScaleBytes (bf : Fmt) (mode : Nat) : Nat :=
  match mode with
  | 1 => 16
  | 2 => 256
  | 3 => 128 * ((kOf bf + 63) / 64)
  | _ => 0

def Group.tile (g : Group) (m : Nat) : Tile := SMap.get Tile.zero m g.tiles
def Group.sbuf (g : Group) (b : Nat) : SBuf := SMap.get SBuf.empty b g.sbufs
def Group.setTile (g : Group) (m : Nat) (t : Tile) : Group := { g with tiles := SMap.put Tile.zero m t g.tiles }
def Group.setSbuf (g : Group) (b : Nat) (x : SBuf) : Group := { g with sbufs := SMap.put SBuf.empty b x g.sbufs }

/-- The 16,384 bytes of a tile. -/
def Tile.bytes (t : Tile) : List Byte := (List.range 4096).flatMap fun i => bytesOf (SMap.get 0 i t.el).toNat 4
def wordsOf (bs : List Byte) (n : Nat) : List Word := (List.range n).map fun i => BitVec.ofNat 32 (ofBytes ((bs.drop (4 * i)).take 4))
/-- A map from consecutive values, the default left out. -/
def SMap.ofList {α : Type} [DecidableEq α] (d : α) (l : List α) : SMap α :=
  ((List.range l.length).zip l).filter fun p => decide (p.2 ≠ d)

/-- The state word (R282). -/
def SBuf.word (b : SBuf) : Nat := b.st + 16 * b.bf + 256 * b.bscale

/-- The key stream byte at a virtual address (R296). -/
def keyStream (key : BitVec 256) (nonce : DWord) (a : Nat) : Nat :=
  let block := ((bytesBE 8 nonce.toNat) ++ bytesBE 8 (a / 16 * 16)).map BitVec.toNat
  (aes256 (keyBytes key) block)[a % 16]?.getD 0

/-- The addresses that a memory source of MWLD covers: K rows of B and the scale bytes (R285, R286). -/
def bRows (bf : Fmt) (bscale pitch a : Nat) : List (Nat × Nat) :=
  let p := if pitch = 0 then bRow bf else pitch
  (List.range (kOf bf)).map (fun i => (a + i * p, bRow bf)) ++
    (if bScaleBytes bf bscale = 0 then [] else [(a + kOf bf * p, bScaleBytes bf bscale)])

/-- The places in the buffer of the bytes that `bRows` lists: operand region, then scale region (R282). -/
def bPlaces (bf : Fmt) (bscale : Nat) : List Nat :=
  List.range (kOf bf * bRow bf) ++ (List.range (bScaleBytes bf bscale)).map (4096 + ·)

/-- The KeySlot a capability names, when it may be used to decrypt in a world (R296): tag, seal, permission. -/
def keyOf (s : State) (world : Nat) (ks : Cap) : Except FaultInfo (KeySlotObj × KeySlot) :=
  let f (sub : Nat) : Except FaultInfo (KeySlotObj × KeySlot) := .error { cls := 1, sub := sub, addr := BitVec.ofNat 64 ks.addr, cap := ks }
  if !ks.tag || sieved s world ks then f 1
  else if ks.otype != 9 then f 2
  else if !ks.has permInvoke then f 3
  else
    match s.obj? ks.base with
    | some ⟨_, torn, _, _, .keyslot k⟩ =>
      match Map.get? k.index s.keys with
      | some key => if torn || key.world != world then f 3 else .ok (k, key)
      | none => f 3
    | _ => f 3

/-- Where the ciphertext of a replay lies, row by row, once the checks of R295 and R296 hold; else none where one fails, or what it waits for: a page of a file, or a line (R230, R238). -/
def replayPlaces (s : State) (x : Cx) (d : EncDesc) : Except (Option Wait) (List (Loc × Nat)) :=
  match Fmt.ofCode d.bf with
  | none => .error none
  | some bf =>
    let rows := bRows bf d.bscale d.pitch d.src.addr
    let world := worldOfCx s x
    if sieved s world d.src || d.src.addr % 16 != 0 || d.pitch % 16 != 0 || decide (4 ≤ d.bscale) || rows.any (fun r => (capCheckAlign d.src r.1 r.2 1 [permLoad, permWeight]).isSome) then .error none
    else
      match keyOf s world d.ks, (rows.mapM fun r => rangeOf s x .rd r.1 r.2).map List.flatten with
      | .error _, _ => .error none
      | _, .error (.absent f p) => .error (some (.file f p))
      | _, .error _ => .error none
      | _, .ok ps =>
        match darkPieces s ps with
        | some (g, ln) => .error (some (.line g ln))
        | none => if eccPieces s ps then .error none else .ok ps

/-- The replay of R297: the buffer as its descriptor loads it now, POISON when a check of R295 and R296 fails; an uncorrectable error of the ciphertext makes it POISON too, which the manual does not say (log entry 29). -/
def replay (s : State) (x : Cx) (d : EncDesc) : SBuf × State :=
  match replayPlaces s x d, keyOf s (worldOfCx s x) d.ks, Fmt.ofCode d.bf with
  | .ok ps, .ok (k, key), some bf =>
    let (bs, s1) := readRange s x ps
    let vas := (bRows bf d.bscale d.pitch d.src.addr).flatMap fun r => (List.range r.2).map (r.1 + ·)
    let plain := (bs.zip vas).map fun p => BitVec.ofNat 8 (p.1.toNat ^^^ keyStream key.key k.nonce p.2)
    ({ st := 2, bf := d.bf, bscale := d.bscale, data := ((bPlaces bf d.bscale).zip plain).foldl (fun m p => SMap.put 0 p.1 p.2 m) [], enc := some d }, s1)
  | _, _, _ => ({ st := 3, bf := d.bf, bscale := d.bscale, data := [], enc := none }, s)

/-- Length of the matrix image (R305). -/
def imageLen (g : Group) : Nat := 256 + g.launch.nacc * 16384 + g.launch.nsbuf * 8192

/-- The matrix image without the descriptors' capabilities, and those with their offsets. -/
def imageBytes (g : Group) : List Byte :=
  let na := g.launch.nacc
  let nb := g.launch.nsbuf
  let sw (b : Nat) := if b < nb then (g.sbuf b).word else 0
  let desc (b : Nat) : List Byte :=
    match (g.sbuf b).enc with
    | some d => List.replicate 32 0 ++ bytesOf (d.pitch + d.bf * 2 ^ 20 + d.bscale * 2 ^ 24) 8 ++ List.replicate 24 0
    | none => List.replicate 64 0
  bytesOf (na + 256 * nb) 8 ++ bytesOf (sw 0) 4 ++ bytesOf (sw 1) 4 ++ List.replicate 0x30 0 ++
    ((List.range 8).flatMap fun m => bytesOf (if m < na then (g.tile m).flags.toNat else 0) 8) ++
    desc 0 ++ desc 1 ++
    ((List.range na).flatMap fun m => (g.tile m).bytes) ++
    ((List.range nb).flatMap fun b =>
      let x := g.sbuf b
      if x.st = 1 ∨ x.st = 3 then SMap.range 0 x.data 0 8192 else List.replicate 8192 0)

def imageCaps (g : Group) : List (Nat × Cap) :=
  (List.range (min 2 g.launch.nsbuf)).flatMap fun b =>
    match (g.sbuf b).enc with
    | some d => [(0x80 + 0x40 * b, d.src), (0x90 + 0x40 * b, d.ks)]
    | none => []

/-- Whether an image may be loaded into a group (R306): its state words and the fields that R305 has zero. `bs` may end where a read failed. -/
def imageOk (g : Group) (bs : List Byte) : Bool :=
  let num (o n : Nat) := ofBytes ((bs.drop o).take n)
  let na := g.launch.nacc
  let nb := g.launch.nsbuf
  let swOk (b : Nat) :=
    let w := num (8 + 4 * b) 4
    if w % 4 = 0 ∨ nb ≤ b then w == 0
    else bitsAt w 11 21 == 0 && bitsAt w 2 2 == 0 && (Fmt.ofCode (bitsAt w 4 4)).isSome && decide (bitsAt w 8 3 < 4)
  -- the contents of a buffer that is neither PLAIN nor POISON
  let bodyOk (b : Nat) := num (8 + 4 * b) 4 % 2 == 1 || ((bs.drop (0x100 + 0x4000 * na + 0x2000 * b)).take 0x2000).all (· == 0)
  let descOk (b : Nat) :=
    if b < nb ∧ num (8 + 4 * b) 4 % 4 = 2 then num (0xA0 + 0x40 * b) 8 / 2 ^ 27 == 0 && num (0xA8 + 0x40 * b) 24 == 0
    else num (0x80 + 0x40 * b) 64 == 0
  num 0 8 == na + 256 * nb && swOk 0 && swOk 1 && num 0x10 0x30 == 0 &&
    ((List.range 8).all fun m => decide (m < na) || num (0x40 + 8 * m) 8 == 0) && descOk 0 && descOk 1 &&
    (List.range nb).all bodyOk

/-- A field of an image. -/
def imageNum (bs : List Byte) (o n : Nat) : Nat := ofBytes ((bs.drop o).take n)

/-- The descriptor of a buffer in an image whose capabilities are given by offset (R305). -/
def imageDesc (bs : List Byte) (capAt : Nat → Cap) (b : Nat) : EncDesc :=
  let dw := imageNum bs (0xA0 + 0x40 * b) 8
  ⟨capAt (0x80 + 0x40 * b), capAt (0x90 + 0x40 * b), bitsAt dw 0 20, bitsAt dw 20 4, bitsAt dw 24 3⟩

/-- What a replay of an image waits for (R230, R238). -/
def imageWait (s : State) (x : Cx) (bs : List Byte) (capAt : Nat → Cap) (nb : Nat) : Option Wait :=
  (List.range nb).findSome? fun b =>
    if imageNum bs (8 + 4 * b) 4 % 4 = 2 then
      match replayPlaces s x (imageDesc bs capAt b) with
      | .error w => w
      | .ok _ => none
    else none

/-- The tiles, and the buffers that are not ENC, of an image (R306). -/
def imagePlain (bs : List Byte) (g : Group) : Group :=
  let na := g.launch.nacc
  let g1 := (List.range na).foldl (fun g m =>
    g.setTile m ⟨SMap.ofList 0 (wordsOf (bs.drop (0x100 + 0x4000 * m)) 4096), BitVec.ofNat 64 (imageNum bs (0x40 + 8 * m) 8)⟩) g
  (List.range g.launch.nsbuf).foldl (fun g b =>
    let w := imageNum bs (8 + 4 * b) 4
    if w % 4 = 2 then g
    else g.setSbuf b { st := w % 4, bf := bitsAt w 4 4, bscale := bitsAt w 8 3, data := SMap.ofList (0 : Byte) ((bs.drop (0x100 + 0x4000 * na + 0x2000 * b)).take 8192), enc := none }) g1

/-- The group of a performer with the tiles and buffers of an image whose descriptor capabilities are given by offset; an ENC buffer takes the format of its descriptor (R306). -/
def imageLoad (s : State) (x : Cx) (bs : List Byte) (capAt : Nat → Cap) : State :=
  (List.range (s.grp x.gid).launch.nsbuf).foldl (fun s b =>
    if imageNum bs (8 + 4 * b) 4 % 4 = 2 then
      let (u, s1) := replay s x (imageDesc bs capAt b)
      s1.modGrp x.gid fun g => g.setSbuf b u
    else s) (s.modGrp x.gid (imagePlain bs))

end Sys2Proof.Machine
end

