-- ==== Sys2Proof/Machine/Save.lean ====
section
/-! DEFINITION. Save slots (R381): the image of a group (R382, R383, R399), written and read back, and the Crier's redirection (R335). -/

namespace Sys2Proof.Machine

/-- The place of an access by the device itself in a Context's address space: no windows (R226, R238). -/
def locateCtx (s : State) (ctx : Nat) (acc : Acc) (a _n : Nat) : Hit :=
  if (windowOf a).isSome then .fault 2 2
  else
    match translate s (aspaceOf s ctx) (s.worldOf ctx) acc a with
    | .ok pa mt k => .at_ (.mem pa mt k)
    | .fault c u => .fault c u
    | .absent f p => .absent f p

/-- Reads and writes by the device in a Context's address space; bytes that cannot be reached read zero and are not written. -/
def devWrite (s : State) (ctx a : Nat) (bs : List Byte) : State :=
  match pieces (locateCtx s ctx .wr) (bs.length / 2 ^ 17 + 2) a bs.length with
  | .ok ps => writePieces s reeveCx.writer ps bs
  | .error _ => s
def devRead (s : State) (ctx a n : Nat) : List Byte :=
  match pieces (locateCtx s ctx .rd) (n / 2 ^ 17 + 2) a n with
  | .ok ps => readPieces s reeveCx ps
  | .error _ => List.replicate n 0
def devWriteCap (s : State) (ctx a : Nat) (c : Cap) : State :=
  match locateCtx s ctx .wr a 16 with
  | .at_ l => writeCapAt s reeveCx.writer l (sieve s (s.worldOf ctx) c.norm)
  | _ => s
def devReadCap (s : State) (ctx a : Nat) : Cap :=
  match locateCtx s ctx .rd a 16 with
  | .at_ l => sieve s (s.worldOf ctx) (readCapAt s reeveCx l).norm
  | _ => Cap.null

def slotWrite (s : State) (gid off : Nat) (bs : List Byte) : State :=
  devWrite s (s.grp gid).ctx ((s.grp gid).slot.toNat + off) bs
def slotWriteNum (s : State) (gid off n v : Nat) : State := slotWrite s gid off (bytesOf v n)
def slotWriteCap (s : State) (gid off : Nat) (c : Cap) : State :=
  devWriteCap s (s.grp gid).ctx ((s.grp gid).slot.toNat + off) c
def slotRead (s : State) (gid off n : Nat) : Nat := ofBytes (devRead s (s.grp gid).ctx ((s.grp gid).slot.toNat + off) n)
def slotBytes (s : State) (gid off n : Nat) : List Byte := devRead s (s.grp gid).ctx ((s.grp gid).slot.toNat + off) n
def slotCap (s : State) (gid off : Nat) : Cap := devReadCap s (s.grp gid).ctx ((s.grp gid).slot.toNat + off)

/-- The sixteen 128 KiB pages of the slot can all be reached. -/
def slotMapped (s : State) (gid : Nat) : Bool :=
  (List.range 16).all fun i =>
    match locateCtx s (s.grp gid).ctx .rmw ((s.grp gid).slot.toNat + i * 2 ^ 17) 1 with
    | .at_ _ => true
    | _ => false

/-- Bytes and tags of a physical range become zero, as a page of a key reads them; the ECC words within it are written whole (R234, R455). -/
def zeroPhys (s : State) (pa n : Nat) (k : MemKey := none) : State :=
  { s with
    mem := s.mem.filter fun c => decide (c.1 < pa) || decide (pa + n ≤ c.1)
    tags := s.tags.filter fun c => decide (16 * c.1 + 16 ≤ pa) || decide (pa + n ≤ 16 * c.1)
    ecc := s.ecc.filter fun c => decide (32 * c.1 < pa) || decide (pa + n < 32 * c.1 + 32)
    cipher :=
      let kept := s.cipher.filter fun c => decide (16 * c.1 + 16 ≤ pa) || decide (pa + n ≤ 16 * c.1)
      if k == none && plainRange { s with cipher := [] } pa n then kept else (granules pa n).foldl (fun m g => Map.set g k m) kept }

/-- Zeroes the bytes [lo, hi) of the slot; on a REPL page through the Bellringer (R428). -/
def zeroSlot (s : State) (gid lo hi : Nat) : State :=
  (List.range 16).foldl (fun s i =>
    let a := max lo (i * 2 ^ 17)
    let b := min hi ((i + 1) * 2 ^ 17)
    if a < b then
      match locateCtx s (s.grp gid).ctx .wr ((s.grp gid).slot.toNat + a) 1 with
      | .at_ (.mem pa mt k) => if mt = 1 then putLoc s reeveCx.writer (.mem pa mt k) (List.replicate (b - a) 0) [] else zeroPhys s pa (b - a) k
      | _ => s
    else s) s

def Barrier.word (b : Barrier) : Nat := b.count % 2 ^ 16 + b.exp % 2 ^ 16 * 2 ^ 16 + b.phase.toNat * 2 ^ 32
def Barrier.ofWord (w : Nat) : Barrier := ⟨bitsAt w 0 16, bitsAt w 16 16, bitsAt w 32 1 == 1⟩

/-- WAIT of a thread block (R383). -/
def Wait.code : Wait → Nat
  | .gather => 1
  | .barrier .. => 2
  | .release _ => 2
  | .recv _ => 3
  | .reply _ => 4
  | _ => 0

/-- The slot header (R383): STATE, FPEND, NFID; a record answered while the group is saved is no longer pending. -/
def writeHeader (s : State) (gid state : Nat) : State :=
  let n := ((s.grp gid).faults.filter fun r => r.answer.isNone).length
  slotWriteNum (slotWriteNum s gid 0 8 (state + (if n = 0 then 0 else 4))) gid 8 8 n

/-- Writes the clan block of a clan (R382). -/
def storeClan (s : State) (gid c : Nat) : State :=
  let cl := s.clan gid c
  let base := 0x1000 + 0x800 * c
  let s := cl.k.foldl (fun s r => slotWriteNum s gid (base + 4 * r.1) 4 r.2.toNat) s
  let s := cl.kc.foldl (fun s r => slotWriteCap s gid (base + 0x100 + 16 * r.1) r.2) s
  let s := cl.q.foldl (fun s r =>
    slotWriteNum (slotWriteCap s gid (base + 0x200 + 32 * r.1) r.2.cap) gid (base + 0x210 + 32 * r.1) 8
      (r.2.role.code + 4 + r.2.seq.toNat * 2 ^ 32)) s
  ((cl.gathers.zip (List.range 32))).foldl (fun s g =>
    slotWriteNum s gid (base + 0x400 + 32 * g.2) 20
      (g.1.pc.toNat + g.1.mask.toNat * 2 ^ 64 + g.1.waiting.toNat * 2 ^ 96 + g.1.excluded.toNat * 2 ^ 128)) s

def storeRet (s : State) (gid off : Nat) (r : RetRec) : State :=
  let s := slotWriteCap (slotWriteCap s gid off r.pcc) gid (off + 0x10) r.c30
  slotWriteNum s gid (off + 0x20) 40
    (r.epc.toNat + r.emask.toNat * 2 ^ 64 + r.w4.toNat * 2 ^ 96 + r.raw.toNat * 2 ^ 128 + r.slot.toNat * 2 ^ 256)

/-- Writes the block, registers, slice and return records of a thread. -/
def storeThread (s : State) (gid tid : Nat) : State :=
  let t := s.thr gid tid
  let g := s.grp gid
  let base := 0x11000 + 64 * tid
  let s := slotWriteCap s gid base t.pcc
  let s := slotWriteNum s gid (base + 0x10) 24
    (t.meet.toNat + t.pix.toNat * 2 ^ 64 + (t.p.toNat + 128 + t.wait.code * 2 ^ 8 + t.live.toNat * 2 ^ 16 +
      (match t.wait with | .release _ => 2 ^ 17 | _ => 0)) * 2 ^ 96 + t.edepth * 2 ^ 128)
  let s := t.v.foldl (fun s r => slotWriteNum s gid (0x21000 + (tid * g.launch.regs + r.1) * 4) 4 r.2.toNat) s
  let s := t.c.foldl (fun s r => slotWriteCap s gid (0xA1000 + (tid * 32 + r.1) * 16) r.2) s
  let lm := g.launch.lanemem
  let s := (List.range (lm / 16)).foldl (fun s i =>
    slotWriteCap s gid (0x121000 + tid * lm + 16 * i)
      ⟨BitVec.ofNat 128 (ofBytes (SMap.range 0 t.slice (16 * i) 16)), SMap.get false i t.sliceTags && !eccHit (16 * i) 1 t.sliceEcc⟩) s
  storeRet (storeRet s gid (0x1B8000 + tid * 160) t.rr1) gid (0x1B8000 + tid * 160 + 80) t.rr2

/-- Writes the image of a group with the given STATE; fault record, service record and emulation scratch stand as they are, and but for a save the matrix image too. -/
def storeImage (s : State) (gid state : Nat) (matrix : Bool) : State :=
  let s := zeroSlot (zeroSlot s gid 0 0x100) gid 0x200 0x400
  let s := if matrix then zeroSlot s gid 0x880 0x1E0000 else zeroSlot (zeroSlot s gid 0x880 0x192000) gid 0x1B8000 0x1E0000
  let s := writeHeader s gid state
  let g := s.grp gid
  let s := (g.launch.granules.zip (List.range 16)).foldl (fun s c => slotWriteCap s gid (0x200 + 16 * c.2) c.1) s
  let s := g.bars.foldl (fun s b => slotWriteNum s gid (0x880 + 8 * b.1) 8 b.2.word) s
  let s :=
    if g.rank = 0 then
      match Map.get? g.unit s.units with
      | some u => (List.range 4).foldl (fun s b => slotWriteNum s gid (0x900 + 8 * b) 8 (SMap.get Barrier.zero (4 * g.stage + b) u.hbars).word) s
      | none => s
    else s
  let s := g.clans.foldl (fun s c => storeClan s gid c.1) s
  let s := g.threads.foldl (fun s t => storeThread s gid t.1) s
  let s := (List.range (g.launch.scratch / 16)).foldl (fun s i =>
    slotWriteCap s gid (0x141000 + 16 * i)
      ⟨BitVec.ofNat 128 (ofBytes (SMap.range 0 g.scratch (16 * i) 16)), SMap.get false i g.stags && !eccHit (16 * i) 1 g.secc⟩) s
  let lines := g.launch.scratch / 64
  let s := slotWrite s gid 0x191000 ((List.range ((lines + 7) / 8)).map fun i =>
    BitVec.ofNat 8 ((List.range 8).foldl (fun acc j =>
      if 8 * i + j < lines ∧ !SMap.get false (8 * i + j) g.absent then acc + 2 ^ j else acc) 0))
  if !matrix ∨ (g.launch.nacc = 0 ∧ g.launch.nsbuf = 0) then s
  else
    let s := slotWrite s gid 0x192000 (imageBytes g)
    (imageCaps g).foldl (fun s c => slotWriteCap s gid (0x192000 + c.1) c.2) s

/-! Reading the image back. -/

def loadClan (s : State) (gid c : Nat) (cl : Clan) : Clan :=
  let base := 0x1000 + 0x800 * c
  { cl with
    k := SMap.ofList 0 ((List.range 64).map fun r => BitVec.ofNat 32 (slotRead s gid (base + 4 * r) 4))
    kc := SMap.ofList Cap.null ((List.range 16).map fun r => slotCap s gid (base + 0x100 + 16 * r))
    q := cl.q.filterMap fun b =>
      let w := slotRead s gid (base + 0x210 + 32 * b.1) 8
      if bitsAt w 2 1 = 1 then
        some (b.1, { b.2 with seq := BitVec.ofNat 32 (w / 2 ^ 32), role := if bitsAt w 0 2 = 1 then .pop else .push,
                              cap := slotCap s gid (base + 0x200 + 32 * b.1) })
      else none
    gathers := (List.range 32).filterMap fun i =>
      let w := slotRead s gid (base + 0x400 + 32 * i) 20
      if bitsAt w 96 32 = 0 then none
      else some ⟨BitVec.ofNat 64 w, BitVec.ofNat 32 (w / 2 ^ 64), BitVec.ofNat 32 (w / 2 ^ 96), BitVec.ofNat 32 (w / 2 ^ 128), false, 0, ([], []), none⟩ }

def loadRet (s : State) (gid off : Nat) : RetRec :=
  let w := slotRead s gid (off + 0x20) 40
  { pcc := slotCap s gid off, c30 := slotCap s gid (off + 0x10), epc := BitVec.ofNat 64 w,
    emask := BitVec.ofNat 32 (w / 2 ^ 64), w4 := BitVec.ofNat 32 (w / 2 ^ 96), raw := BitVec.ofNat 128 (w / 2 ^ 128),
    slot := BitVec.ofNat 64 (w / 2 ^ 256) }

def loadThread (s : State) (gid tid : Nat) (t : Thread) : Thread :=
  let g := s.grp gid
  let base := 0x11000 + 64 * tid
  let w := slotRead s gid (base + 0x10) 24
  let lm := g.launch.lanemem
  let slice := (List.range (lm / 16)).map fun i => slotCap s gid (0x121000 + tid * lm + 16 * i)
  { t with
    pcc := slotCap s gid base
    meet := BitVec.ofNat 64 w
    pix := BitVec.ofNat 32 (w / 2 ^ 64)
    p := BitVec.ofNat 7 (w / 2 ^ 96)
    wait := if bitsAt w 104 8 = 0 then .none else t.wait
    live := bitsAt w 112 1 == 1
    edepth := min 2 (bitsAt w 128 2)
    v := SMap.ofList 0 ((List.range g.regs).map fun r => BitVec.ofNat 32 (slotRead s gid (0x21000 + (tid * g.launch.regs + r) * 4) 4))
    c := SMap.ofList Cap.null ((List.range 32).map fun r => slotCap s gid (0xA1000 + (tid * 32 + r) * 16))
    slice := SMap.ofList 0 (slice.flatMap fun c => bytesOf c.bits.toNat 16)
    sliceTags := SMap.ofList false (slice.map Cap.tag)
    rr1 := loadRet s gid (0x1B8000 + tid * 160)
    rr2 := loadRet s gid (0x1B8000 + tid * 160 + 80) }

/-- The group as its image holds it, but for its tiles and buffers (R386). -/
def loadGroup (s : State) (gid : Nat) (g : Group) : Group :=
  let pad := (List.range (g.launch.scratch / 16)).map fun i => slotCap s gid (0x141000 + 16 * i)
  let lines := g.launch.scratch / 64
  { g with
    bars := SMap.ofList Barrier.zero ((List.range 16).map fun b => Barrier.ofWord (slotRead s gid (0x880 + 8 * b) 8))
    clans := g.clans.map fun c => (c.1, loadClan s gid c.1 c.2)
    threads := g.threads.map fun t => (t.1, loadThread s gid t.1 t.2)
    scratch := SMap.ofList 0 (pad.flatMap fun c => bytesOf c.bits.toNat 16)
    stags := SMap.ofList false (pad.map Cap.tag)
    absent := SMap.ofList false ((List.range lines).map fun i => bitsAt (slotRead s gid (0x191000 + i / 8) 1) (i % 8) 1 == 0) }

def loadImage (s : State) (gid : Nat) : State :=
  let g := loadGroup s gid (s.grp gid)
  let s1 := s.modGrp gid fun _ => g
  if g.rank = 0 then
    { s1 with units := Map.modify g.unit (fun u =>
        { u with hbars := (List.range 4).foldl (fun m b => SMap.put Barrier.zero (4 * g.stage + b) (Barrier.ofWord (slotRead s gid (0x900 + 8 * b) 8)) m) u.hbars }) s1.units }
  else s1

/-- The bytes of the matrix image in a slot, when they make one that can be loaded. -/
def slotMatrix (s : State) (gid : Nat) : Option (List Byte) :=
  let g := s.grp gid
  if g.launch.nacc = 0 ∧ g.launch.nsbuf = 0 then none
  else
    let bs := slotBytes s gid 0x192000 (imageLen g)
    if imageOk g bs then some bs else none

/-- What the replays of a saved group's image wait for (R230, R238, R297); a page whose read has failed is not waited for. -/
def restoreWait (s : State) (gid : Nat) (paged : Option (Nat × Nat × Bool)) : Option Wait :=
  let s1 := s.modThr gid 0 fun t => { t with paged := paged }
  (slotMatrix s gid).bind fun bs => imageWait s1 ⟨gid, 0, 0⟩ bs (fun o => slotCap s gid (0x192000 + o)) (s.grp gid).launch.nsbuf

/-- The tiles and buffers of a group at its restore, ENC buffers by replay (R297, R386). -/
def restoreMatrix (s : State) (gid : Nat) (paged : Option (Nat × Nat × Bool)) : State :=
  match slotMatrix s gid with
  | none => s
  | some bs =>
    let own := (s.thr gid 0).paged
    (imageLoad (s.modThr gid 0 fun t => { t with paged := paged }) ⟨gid, 0, 0⟩ bs fun o => slotCap s gid (0x192000 + o)).modThr gid 0 fun t => { t with paged := own }

/-- An event for a group: on the group, or through its image while it is saved (R335). -/
def redirect (s : State) (gid : Nat) (f : State → State) : State :=
  if (s.grp gid).stat = .saved ∧ slotMapped s gid then storeImage (f (loadImage s gid)) gid 3 false else f s

end Sys2Proof.Machine
end

