-- ==== Sys2Proof/Machine/Queue.lean ====
section
/-! DEFINITION. Queue objects: entries in one order, batches that enter whole, pops in the order they began to wait, reserved completion entries (R314-R322, R330); the Almanac (R484, R485). -/

namespace Sys2Proof.Machine

/-- Appends a record to the Almanac, over the one 4,096 appends before it; after a fatal record appends are counted and discarded (R484, R485). DATA is the given bytes for type 5 and free for the others (R487). -/
def almanac (s : State) (die world plane type : Nat) (data : List Byte) : State :=
  if s.frozen then { s with lost := if s.lost = 0xFFFFFFFF then s.lost else s.lost + 1 }
  else
    let d := if type = 5 then data.take 40 else (List.range 40).map (Config.almData s.almSeq)
    { s with almanac := SMap.put AlmRec.zero (s.almSeq % 4096) ⟨s.almSeq, s.time, die, world, plane, type, d⟩ s.almanac, almSeq := s.almSeq + 1 }

/-- A response to a session that is open (R477, R478). -/
def hostRespond (s : State) (h : Option (Nat × BitVec 64)) (status : Nat) (data : List Byte) : State :=
  match h with
  | some (sess, tag) => if (Map.get? sess s.sessions).isSome then { s with responses := s.responses ++ [⟨sess, tag, status, data⟩] } else s
  | none => s

/-- The COPY commands among requests that are lost respond DEAD (R478). -/
def hostLost (s : State) (l : List (Option (Nat × BitVec 64))) : State := l.foldl (fun st h => hostRespond st h 2 []) s

def QueueObj.room (q : QueueObj) : Nat := q.depth - (q.es.length + q.reserved)

def mkEntry (bits : BitVec 128) (tag : Bool) (ctx : Nat) (slots : List DWord) : QEntry := ⟨bits, tag, ctx, slots, none⟩

/-- The writes that give an entry to a popping thread (R92); to window registers, four in a row or a capability (log entry 71). -/
def popWrites (s : State) (x : Cx) (w : MovW) (d : Reg) (e : QEntry) : List RegWrite :=
  match w with
  | .b32 => wr32 s x d (e.bits.extractLsb' 0 32)
  | .b64 => wr64 s x d (e.bits.extractLsb' 0 64)
  | .b128 =>
    match d with
    | .c _ | .kc _ => wrCap s x d ⟨e.bits, e.tag⟩
    | .w 12 | .w 13 => wrCap s x d ⟨e.bits, e.tag⟩
    | d => (List.range 4).flatMap fun i => wr32 s x (Reg.plus d i) (e.bits.extractLsb' (32 * i) 32)

/-- Stores entries at the tail; a tag is subject to the sieve of the Queue's world (R407). -/
def appendEntries (s : State) (qh : Nat) (es : List QEntry) : State :=
  s.modQueue qh fun q =>
    { q with es := q.es ++ es.map (fun e => if q.width = 128 then { e with tag := (sieve s (s.worldOf qh) ⟨e.bits, e.tag⟩).tag } else { e with tag := false }),
             pushed := q.pushed + es.length }

/-- The first waiting batch, with its place. -/
def firstPush : List QWaiter → Option QWaiter
  | [] => none
  | .push w es f r :: _ => some (.push w es f r)
  | _ :: l => firstPush l
def firstPop : List QWaiter → Option QWaiter
  | [] => none
  | .pop w m d f :: _ => some (.pop w m d f)
  | _ :: l => firstPop l

/-- The lanes of a batch paired with the position of each one's entry (R403). -/
def seqWrites (s : State) (who : Who) (d : Option Reg) (pos : Nat) (x : Cx) : List RegWrite :=
  match d with
  | none => []
  | some d =>
    let i := if who.uni then 0 else who.lanes.findIdx (· == x.lane)
    wr32 s x d (BitVec.ofNat 32 (pos + i))

/-- One service of a queue: an entry to the earliest waiting pop, or the earliest waiting batch if it fits (R319, R320); none when neither. -/
def serveOnce (s : State) (qh : Nat) : Option State :=
  match s.queue? qh with
  | none => none
  | some q =>
    match q.es, firstPop q.waiters with
    | e :: rest, some (.pop w m d f) =>
      let s1 := s.modQueue qh fun q => { q with es := rest, popped := q.popped + 1 }
      if w.uni then
        let s2 := s1.modQueue qh fun q => { q with waiters := q.waiters.erase (.pop w m d f) }
        some (wakeAll (completeWith s2 w (fun x => popWrites s2 x m d e) f) (· == .room qh))
      else
        match w.lanes with
        | [] => some (s.modQueue qh fun q => { q with waiters := q.waiters.erase (.pop w m d f) })
        | l :: ls =>
          let s2 := s1.modQueue qh fun q =>
            { q with waiters := if ls.isEmpty then q.waiters.erase (.pop w m d f) else q.waiters.map fun o => if o == .pop w m d f then .pop { w with lanes := ls } m d f else o }
          some (wakeAll (completeWith s2 { w with lanes := [l] } (fun x => popWrites s2 x m d e) f) (· == .room qh))
    | _, _ =>
      match firstPush q.waiters with
      | some (.push w es f r) =>
        if es.length ≤ q.room then
          let pos := q.pushed
          let s1 := appendEntries (s.modQueue qh fun q => { q with waiters := q.waiters.erase (.push w es f r) }) qh es
          some (completeWith s1 w (fun x => seqWrites s1 w r pos x) f)
        else none
      | _ => none

def serve (qh : Nat) : Nat → State → State
  | 0, s => s
  | n + 1, s =>
    match serveOnce s qh with
    | some s' => serve qh n s'
    | none => s

/-- Serves a queue until nothing can move: every service completes a lane or a batch. -/
def serveQueue (s : State) (qh : Nat) : State :=
  match s.queue? qh with
  | none => s
  | some q =>
    serve qh ((q.waiters.map fun w => match w with | .push _ es _ _ => es.length + 1 | .pop w _ _ _ => w.lanes.length + 1).foldr (· + ·) 1) s

/-- Entries of the device or of threads enter the queue. -/
def pushEntries (s : State) (qh : Nat) (es : List QEntry) : State := serveQueue (appendEntries s qh es) qh

/-- A batch may enter at once: no earlier batch waits and it fits (R319). -/
def canPush (s : State) (qh n : Nat) : Bool :=
  match s.queue? qh with
  | some q => (firstPush q.waiters).isNone && decide (n ≤ q.room)
  | none => false

/-- Takes the head entry for an engine (R333, R339, R404). -/
def takeEntry (s : State) (qh : Nat) : Option (QEntry × Nat × State) :=
  match s.queue? qh with
  | some q =>
    match q.es with
    | e :: rest => some (e, q.popped, serveQueue (s.modQueue qh fun q => { q with es := rest, popped := q.popped + 1 }) qh)
    | [] => none
  | none => none

/-- Reserves a completion entry (R332); false when the Queue has no free entry. -/
def canReserve (s : State) (qh : Nat) : Bool :=
  match s.queue? qh with
  | some q => decide (0 < q.room) && !s.dead qh
  | none => false
def reserveEntry (s : State) (qh : Nat) : State := s.modQueue qh fun q => { q with reserved := q.reserved + 1 }

def allOnes64 : Nat := 2 ^ 64 - 1
/-- A completion entry (R330). -/
def completionBits (seq : BitVec 32) (status elem : Nat) : BitVec 128 :=
  BitVec.ofNat 128 (seq.toNat + status % 256 * 2 ^ 32 + elem % 2 ^ 64 * 2 ^ 64)

/-- Posts a completion into its reserved entry; a torn-down Queue discards it. -/
def postCompletion (s : State) (qh : Nat) (seq : BitVec 32) (status elem : Nat) : State :=
  let s1 := s.modQueue qh fun q => { q with reserved := q.reserved - 1 }
  if s1.dead qh then s1 else pushEntries s1 qh [mkEntry (completionBits seq status elem) false 0 []]
/-- Gives a reserved entry back. -/
def dropReserve (s : State) (qh : Nat) : State := serveQueue (s.modQueue qh fun q => { q with reserved := q.reserved - 1 }) qh

/-! Bindings (R317, R318). -/

/-- The engine queue of the requests through a binding (R331). -/
def Binding.key (b : Binding) : Nat := 2 * b.uid
/-- The engine queue of the entries of a Queue object: another one than any binding's (R331). -/
def queueKey (q : Nat) : Nat := 2 * q + 1

def bindingOf (s : State) (x : Cx) (q : Nat) : Option Binding := Map.get? q (s.clan x.gid x.cno).q

/-- R315: whether a kind allows a role. -/
def kindAllows (kind : Nat) (r : QRole) : Bool :=
  match kind with
  | 0 | 4 | 6 | 7 => true
  | 1 => r == .pop
  | _ => r == .push

/-- R318: the Queue a binding reaches, or the queue-misuse fault. A Queue whose Untyped has been reset is torn down for ever, whatever lies at its address since. -/
def checkBinding (s : State) (x : Cx) (q : Nat) (role : QRole) (kind : Option Nat) (width : Nat) : Except FaultInfo Nat :=
  match bindingOf s x q with
  | none => .error { cls := 7, sub := 1 }
  | some b =>
    let qo := (s.queue? b.q).filter fun q => q.made == b.made
    if b.role != role || (qo.isSome && kind.isSome && qo.map QueueObj.kind != kind) then .error { cls := 7, sub := 2 }
    else if qo.isSome && qo.map QueueObj.width != some width then .error { cls := 7, sub := 3 }
    else if qo.isNone || s.dead b.q then .error { cls := 7, sub := 4 }
    else .ok b.q

end Sys2Proof.Machine
end

