-- ==== Sys2Proof/Machine/Endpoint.lean ====
section
/-! DEFINITION. Messages: the Endpoint order, delivery, hold slots, rings, replies (R356-R363); Notifications (R364); subscriptions of host sessions (R478). -/

namespace Sys2Proof.Machine

/-- The header of a thread's own Reply object (R363); the manual does not say where it lies. -/
def replyHeader (s : State) (x : Cx) : Nat := s.replyBase + 64 * (x.gid * 1024 + x.tid)
/-- The Reply capability (R363). -/
def replyCap (h : Nat) : Cap := Cap.object 12 h 0 0x0130 false

/-- The INFO word (R359). -/
def infoWord (nwr ncr : Nat) (trunc rply : Bool) (badge : Nat) : Word :=
  BitVec.ofNat 32 (badge % 2 ^ 13 + rply.toNat * 2 ^ 13 + trunc.toNat * 2 ^ 14 + nwr * 2 ^ 16 + ncr * 2 ^ 20)

/-- What delivery writes in a receiver (R359): words, capabilities, RPL, INFO, status OK. -/
def deliverWrites (s : State) (r : RecvOp) (m : Msg) (x : Cx) : List RegWrite :=
  let nw := min m.words.length r.nw
  let nc := min m.caps.length r.nc
  ((List.range r.nw).flatMap fun i => wr32 s x (Reg.plus r.words i) (m.words[i]?.getD 0)) ++
  ((List.range r.nc).flatMap fun i =>
    let c := m.caps[i]?.getD Cap.null
    wrCap s x (Reg.plus r.caps i) { c with tag := c.tag && r.loadcap }) ++
  wrCap s x r.rpl ((m.reply.map replyCap).getD Cap.null) ++
  wr32 s x r.info (infoWord nw nc (decide (r.nw < m.words.length) || decide (r.nc < m.caps.length)) m.reply.isSome m.badge) ++
  wrStatus s x r.d stOK ++ (r.nb.map fun p => RegWrite.p p true).toList

/-- The SVC that formed next in a group goes on (R199). -/
def svcDone (s : State) (gid : Nat) : State :=
  let s1 := s.modGrp gid fun g => { g with svcBusy := none }
  match (s.grp gid).svcWait with
  | [] => s1
  | (c, m) :: _ =>
    (List.range 32).foldl (fun s l =>
      if m.getLsbD l then s.modThr gid (c * 32 + l) fun t => if t.wait = .engine then { t with wait := .gather } else t else s) s1

/-- The end of a call without an answer: DEAD; for a SVC, false and 0 (R138, R199, R363). -/
def failReply (s : State) (h : Nat) : State :=
  match Map.get? h s.replies with
  | none => s
  | some r =>
    let s1 := { s with replies := Map.del h s.replies }
    let gid := r.op.who.gid
    redirect s1 gid fun s =>
      match r.svc with
      | some (p, d) => svcDone (completeWith s r.op.who (fun x => wr32 s x d 0 ++ wrPred p false) r.op.foot) gid
      | none => completeWith s r.op.who (fun x => wrStatus s x r.op.d stDEAD) r.op.foot

/-- The answer to a call (R199, R363). -/
def answerReply (s : State) (h : Nat) (m : Msg) : State :=
  match Map.get? h s.replies with
  | none => s
  | some r =>
    let s1 := { s with replies := Map.del h s.replies }
    let gid := r.op.who.gid
    redirect s1 gid fun s =>
      match r.svc with
      | some (p, d) =>
        let base := (s.grp gid).slot.toNat + 0x800
        svcDone (completeWith s r.op.who (fun x =>
          wr32 s x d (BitVec.ofNat 32 (ofBytes (devRead s (s.grp gid).ctx (base + 4 * x.lane) 4))) ++ wrPred p true) r.op.foot) gid
      | none => completeWith s r.op.who (deliverWrites s r.op m) r.op.foot

/-- The message leaves the Endpoint for a receiver of a Context: a Reply that the receiver discards fails its call, and otherwise records who took it (R363). -/
def replyTaken (s : State) (m : Msg) (rpl : Bool) (ctx : Nat) : State :=
  match m.reply with
  | none => s
  | some h => if rpl then { s with replies := Map.modify h (fun r => { r with taken := some ctx }) s.replies } else failReply s h

def Reg.isVz : Reg → Bool
  | .vz => true
  | _ => false

/-- Delivery to a receiver (R359), resident or saved. -/
def deliver (s : State) (r : RecvOp) (m : Msg) : State :=
  let s1 := redirect s r.who.gid fun s => completeWith s r.who (deliverWrites s r m) r.foot
  replyTaken s1 m (!Reg.isVz r.rpl) r.ctx

/-- Delivery to a host session (R478): the INFO word and the words, as RECV takes them, with handles for the capabilities, whose tags LOADCAP admits (R359). -/
def deliverHost (s : State) (sess : Nat) (tag : BitVec 64) (loadcap : Bool) (m : Msg) : State :=
  let (s1, hs) := m.caps.foldl (fun (acc : State × List Nat) c =>
    let (h, st) := acc.1.newId
    ({ st with sessions := Map.modify sess (fun q => { q with handles := q.handles ++ [(h, { c with tag := c.tag && loadcap })] }) st.sessions }, acc.2 ++ [h])) (s, [])
  let info := infoWord m.words.length m.caps.length false m.reply.isSome m.badge
  let s2 := hostRespond s1 (some (sess, tag)) stOK (bytesOf info.toNat 4 ++ m.words.flatMap (fun w => bytesOf w.toNat 4) ++ hs.flatMap (fun h => bytesOf h 8))
  replyTaken s2 m false 0

def ctxSuspended (s : State) (c : Nat) : Bool := ((s.ctx? c).map ContextObj.suspended).getD false
/-- R357: eligible receivers. -/
def eligible (s : State) (r : RecvOp) : Bool := !s.dead r.ctx && !ctxSuspended s r.ctx

/-- The entries of a ring record (R361). -/
def ringRecord (e : Endpoint) (m : Msg) (ctx : Nat) : List QEntry :=
  let nw := (m.words.length + 3) / 4
  let head := (infoWord m.words.length m.caps.length false false m.badge).toNat + (1 + nw + m.caps.length) * 2 ^ 32
  mkEntry (BitVec.ofNat 128 head) false ctx [] ::
    ((List.range nw).map fun i =>
      mkEntry (BitVec.ofNat 128 (ofBytes (((m.words.drop (4 * i)).take 4).flatMap fun w => bytesOf w.toNat 4))) false ctx []) ++
    m.caps.map fun c => mkEntry c.bits (c.tag && e.ringLoadcap) ctx []

/-- A SEND takes its place in the Endpoint order (R357, R358, R361): the state in which the message has been taken, or none when it must wait. -/
def offer (s : State) (h : Nat) (m : Msg) : Option State :=
  match s.ep? h with
  | none => none
  | some e =>
    match e.receivers.find? (eligible s) with
    | some r => some (deliver (s.modEp h fun e => { e with receivers := e.receivers.erase r }) r m)
    | none =>
      match e.subs with
      | (sess, tag, lc) :: _ => some (deliverHost s sess tag lc m)
      | [] =>
        match (e.receivers.find? fun r => !s.dead r.ctx), e.msgs with
        | some r, [] =>
          some { s.modEp h fun e => { e with receivers := e.receivers.erase r } with held := s.held ++ [(r, m)] }
        | _, _ =>
          let rec_ := ringRecord e m 0
          match e.ring with
          | some q =>
            if m.reply.isNone && canPush s q rec_.length && !s.dead q then some (pushEntries s q rec_)
            else if e.msgs.length < e.depth then some (s.modEp h fun e => { e with msgs := e.msgs ++ [m] }) else none
          | none => if e.msgs.length < e.depth then some (s.modEp h fun e => { e with msgs := e.msgs ++ [m] }) else none

/-- A waiting sender's message has been taken: SEND completes with OK, ECALL goes on waiting for its reply. -/
def senderTaken (s : State) (x : Sender) : State :=
  match x with
  | .thread who d _ foot false _ => completeWith s who (fun c => wrStatus s c d stOK) foot
  | .thread who _ _ _ true m => who.cxs.foldl (fun s c => s.modThr c.gid c.tid fun t => { t with wait := .reply (m.reply.getD 0) }) s
  | .device .. => s
  -- an EXPORT .drop that waits for it looks again (R439)
  | .remote src id _ w _ => wakeAll (sendPacket s (protectedWorld s w) src (.remoteAns src id (.status 0))) (· == .fence)

def Sender.msg : Sender → Msg
  | .thread _ _ _ _ _ m => m
  | .device _ _ m _ _ _ => m
  | .remote _ _ _ _ m => m

/-- A RECV takes a message (R357): the earliest queued, with the earliest sender's moving in; or the earliest sender's. -/
def take (s : State) (h : Nat) : Option (Msg × State) :=
  match s.ep? h with
  | none => none
  | some e =>
    match e.msgs, e.senders with
    | m :: ms, [] => some (m, s.modEp h fun e => { e with msgs := ms })
    | m :: ms, x :: xs => some (m, senderTaken (s.modEp h fun e => { e with msgs := ms ++ [x.msg], senders := xs }) x)
    | [], x :: xs => some (x.msg, senderTaken (s.modEp h fun e => { e with senders := xs }) x)
    | [], [] => none

/-- A thread in a wait list of an Endpoint or a Queue leaves it. -/
def inWho (gid : Nat) (w : Who) : Bool := w.gid == gid

/-- Waiting senders offer their messages again, in order: after a receiver has become eligible or the queue has room. -/
def drainSenders (h : Nat) : Nat → State → State
  | 0, s => s
  | n + 1, s =>
    match s.ep? h with
    | some e =>
      match e.senders with
      | x :: xs =>
        match offer (s.modEp h fun e => { e with senders := xs }) h x.msg with
        | some s' => drainSenders h n (senderTaken s' x)
        | none => s
      | [] => s
    | none => s

/-- The queued messages and waiting senders of an Endpoint go to a session that subscribes (R478). -/
def drainToHost (h sess : Nat) (tag : BitVec 64) (lc : Bool) : Nat → State → State
  | 0, s => s
  | n + 1, s =>
    match take s h with
    | some (m, s') => drainToHost h sess tag lc n (deliverHost s' sess tag lc m)
    | none => s

/-- Held messages of receivers whose Context runs again are delivered (R358). -/
def releaseHeld (s : State) : State :=
  s.held.foldl (fun st p =>
    if eligible st p.1 then deliver { st with held := st.held.erase p } p.1 p.2 else st) s

/-- Teardown of an Endpoint (R354): waiting senders and receivers get DEAD, queued messages go, callers among them get DEAD. -/
def tearEndpoint (s : State) (h : Nat) : State :=
  match s.ep? h with
  | none => s
  | some e =>
    let s1 := s.modObj h fun o => { o with torn := true, body := .endpoint { e with msgs := [], receivers := [], senders := [], subs := [] } }
    let s2 := e.receivers.foldl (fun s r => redirect s r.who.gid fun s => completeWith s r.who (fun x => wrStatus s x r.d stDEAD) r.foot) s1
    let s3 := e.senders.foldl (fun s x =>
      match x with
      | .thread who d _ foot false _ => completeWith s who (fun c => wrStatus s c d stDEAD) foot
      | .thread _ _ _ _ true m => failReply s (m.reply.getD 0)
      | .device .. => s
      | .remote src id _ w _ => wakeAll (sendPacket s (protectedWorld s w) src (.remoteAns src id (.status (BitVec.ofNat 32 stDEAD)))) (· == .fence)) s2
    e.msgs.foldl (fun s m => match m.reply with | some r => failReply s r | none => s) s3

/-! Notifications. -/

/-- SIGNAL (R364): bits enter the word; the earliest waiter takes the whole word. -/
def signal (s : State) (h : Nat) (bits : DWord) : State :=
  match s.obj? h with
  | some ⟨_, _, _, _, .notification n⟩ =>
    let w := n.word ||| bits
    match n.waiters with
    | (who, d, wd, foot) :: rest =>
      if w = 0 then s
      else
        let s1 := s.setBody h (.notification { n with word := 0, waiters := rest })
        completeWith s1 who (fun x => wr64 s1 x wd w ++ wrStatus s1 x d stOK) foot
    | [] => s.setBody h (.notification { n with word := w })
  | _ => s

def tearNotification (s : State) (h : Nat) : State :=
  match s.obj? h with
  | some ⟨_, _, _, _, .notification n⟩ =>
    let s1 := s.modObj h fun o => { o with torn := true, body := .notification { n with waiters := [] } }
    n.waiters.foldl (fun s p => completeWith s p.1 (fun x => wrStatus s x p.2.1 stDEAD) p.2.2.2) s1
  | _ => s

end Sys2Proof.Machine
end

