-- ==== Sys2Proof/Machine/Life.lean ====
section
/-! DEFINITION. The life of groups: how threads start (R24, R204, R225), exits (R132), barriers (R194, R195), holds (R277-R279), gathers that form when a member leaves (R172), the end of a group and its next stage (R209), and kills (R379). -/

namespace Sys2Proof.Machine

/-! Holds. -/

/-- Whether a request may be granted now: no hold at all for an exclusive one or a BIND, no exclusive hold for a shared one (R278). -/
def grantable (so : SyncObj) (r : HoldReq) : Bool :=
  if r.excl then so.holds.isEmpty else so.holds.all fun h => !h.2

/-- Grants the earliest waiting requests, in order (R278). -/
def grantSync (h : Nat) : Nat → State → State
  | 0, s => s
  | n + 1, s =>
    match s.sync? h with
    | some so =>
      match so.waiters with
      | r :: rest =>
        if grantable so r then
          let so1 :=
            match r.bind with
            | some (slot, rng) =>
              { so with waiters := rest, slots := match rng with | some p => Map.set slot p so.slots | none => Map.del slot so.slots }
            | none => { so with waiters := rest, holds := so.holds ++ [(r.holder, r.excl)] }
          let s1 := s.setBody h (.sync so1)
          grantSync h n (completeWith s1 r.who (fun x => wrStatus s1 x r.d stOK) r.foot)
        else s
      | [] => s
    | none => s

def serveSync (s : State) (h : Nat) : State :=
  match s.sync? h with
  | some so => grantSync h so.waiters.length s
  | none => s

/-- Ends the holds and requests of the holders that a test names, on every SyncObject (R279). -/
def endHolds (s : State) (f : Holder → Bool) : State :=
  s.objs.foldl (fun st o =>
    match o.2.body with
    | .sync so =>
      if so.holds.any (fun h => f h.1) || so.waiters.any (fun r => f r.holder) then
        serveSync (st.setBody o.1 (.sync { so with holds := so.holds.filter (fun h => !f h.1), waiters := so.waiters.filter fun r => !f r.holder })) o.1
      else st
    | _ => st) s

/-- A holder is of a group. -/
def Holder.inGroup (gid : Nat) : Holder → Bool
  | .thread g _ => g == gid
  | .clan g _ => g == gid

/-- The holds of killed groups whose accesses have all been performed by now end (R279). -/
def reapHolds (s : State) : State :=
  endHolds s fun h =>
    match h with
    | .thread g _ => (s.grp? g).isNone && !groupOpen s g
    | .clan g _ => (s.grp? g).isNone && !groupOpen s g

/-! Barriers. -/

def liveThreads (g : Group) : Nat := (g.threads.filter fun t => t.2.live).length
/-- The live threads of the hamlet-group of a stage of a unit (R180). -/
def liveOfStage (s : State) (uid stage : Nat) : Nat := ((s.groups.filter fun g => g.2.unit == uid && g.2.stage == stage).map fun g => liveThreads g.2).sum

/-- The phase of a barrier is complete (R195). -/
def Barrier.complete (b : Barrier) (live : Nat) : Bool := if b.exp = 0 then decide (live ≤ b.count) else decide (b.exp ≤ b.count)

/-- A thread leaves a completed phase; a saved one is released at restore (R386). -/
def releaseFrom (saved hamlet : Bool) (b : Nat) (t : Thread) : Thread :=
  match t.wait with
  | .barrier h c foot => if h = hamlet ∧ c = b then (if saved then { t with wait := .release foot } else Thread.advance foot t) else t
  | _ => t

def releaseGroup (s : State) (gid : Nat) (hamlet : Bool) (b : Nat) : State :=
  s.modGrp gid fun g => { g with threads := g.threads.map fun t => (t.1, releaseFrom (g.stat == .saved) hamlet b t.2) }

/-- Completes the phase of a group barrier when it can (R195). -/
def checkBar (s : State) (gid b : Nat) : State :=
  let g := s.grp gid
  let x := SMap.get Barrier.zero b g.bars
  if x.complete (liveThreads g) then
    releaseGroup (s.modGrp gid fun g => { g with bars := SMap.put Barrier.zero b ⟨0, 0, !x.phase⟩ g.bars }) gid false b
  else s

def unitOf? (s : State) (gid : Nat) : Option UnitRec := Map.get? (s.grp gid).unit s.units

/-- The place of hamlet barrier b of a stage's hamlet-group among its unit's (R180, R194). -/
def hbarKey (stage b : Nat) : Nat := 4 * stage + b

/-- Completes the phase of a hamlet barrier of a stage's hamlet-group when it can (R195). -/
def checkHbar (s : State) (uid stage b : Nat) : State :=
  match Map.get? uid s.units with
  | none => s
  | some u =>
    let k := hbarKey stage b
    let x := SMap.get Barrier.zero k u.hbars
    if x.complete (liveOfStage s uid stage) then
      let s1 := { s with units := Map.modify uid (fun u => { u with hbars := SMap.put Barrier.zero k ⟨0, 0, !x.phase⟩ u.hbars }) s.units }
      (u.groups.filter fun g => (s.grp g).stage == stage).foldl (fun s g => releaseGroup s g true b) s1
    else s

/-- An arrival of n at a group barrier with the count nv, 0 when implicit (R195); `engine` arrivals bring no count. -/
def arriveBar (s : State) (gid b n nv : Nat) : State :=
  checkBar (s.modGrp gid fun g =>
    let x := SMap.get Barrier.zero b g.bars
    { g with bars := SMap.put Barrier.zero b { x with exp := if x.exp = 0 then min nv 65535 else x.exp, count := x.count + n } g.bars }) gid b
def arriveHbar (s : State) (gid b n nv : Nat) : State :=
  let g := s.grp gid
  let k := hbarKey g.stage b
  checkHbar { s with units := Map.modify g.unit (fun u =>
    let x := SMap.get Barrier.zero k u.hbars
    { u with hbars := SMap.put Barrier.zero k { x with exp := if x.exp = 0 then min nv 65535 else x.exp, count := x.count + n } u.hbars }) s.units } g.unit g.stage b

/-- After an exit every phase is looked at again (R195). -/
def checkAllBars (s : State) (gid : Nat) : State :=
  let s1 := (List.range 16).foldl (fun s b =>
    if (SMap.get Barrier.zero b (s.grp gid).bars).count = 0 then s else checkBar s gid b) s
  (List.range 4).foldl (fun s b =>
    match unitOf? s gid with
    | some u => if (SMap.get Barrier.zero (hbarKey (s.grp gid).stage b) u.hbars).count = 0 then s else checkHbar s (s.grp gid).unit (s.grp gid).stage b
    | none => s) s1

/-! Gathers. -/

/-- R172: every named live member waits in the gather or is excluded, and some member waits. -/
def Gather.ready (g : Gather) (live : BitVec 32) : Bool :=
  (g.waiting != (0 : BitVec 32)) && (g.mask &&& live &&& ~~~(g.waiting ||| g.excluded)) == (0 : BitVec 32)

/-- A gather once the named threads that are no longer live have left it, marked with its sources when it forms (R173); none when nobody waits in it. -/
def Gather.form (live : BitVec 32) (n : Nat) (src : SMap Word × SMap Cap) (g : Gather) : Option Gather :=
  let h := { g with waiting := g.waiting &&& live }
  if h.waiting = 0 then none
  else if !h.formed && h.ready live then some { h with formed := true, seq := 32 * n + (maskLanes h.waiting).headD 0, src := some src }
  else some h

/-- Marks the gathers that a departure, or an arrival behind others, has completed, in ascending lowest lane (R173); they run at the scheduler's next choices. -/
def formGathers (s : State) (gid c : Nat) : State :=
  let live := liveMask s gid c
  let (n, s1) := s.newId
  s1.modClan gid c fun cl => { cl with gathers := cl.gathers.filterMap (Gather.form live n (cl.k, cl.kc)) }

/-! Start. -/

def padBase : Nat := 0xFD00000000000000
def hamBase : Nat := 0xFC00000000000000
def laneBase : Nat := 0xFE00000000000000
/-- PERM of the presets (R225). -/
def presetPerm : BitVec 16 := 0x023B

def lanePreset (l : Launch) : Cap := Cap.make laneBase l.lanemem presetPerm false laneBase
def padPreset (l : Launch) : Cap := Cap.make padBase l.scratch presetPerm false padBase
def hamPreset (l : Launch) : Cap := Cap.make hamBase (l.ngrp * 2 ^ 19) presetPerm false hamBase

/-- A thread at its start (R24, R204). -/
def startThread (l : Launch) (entry : Cap) : Thread :=
  { Thread.empty with
    live := true, pcc := entry
    c := SMap.put Cap.null 31 (lanePreset l) [] }

/-- A clan at its start: kc0-kc2, each null where its length is 0, and the stage queues of its unit (R204, R225, R322). -/
def startClan (l : Launch) (args : Cap) (q : SMap Binding) (part age : Nat) : Clan :=
  let kc := SMap.put Cap.null 1 (hamPreset l) (SMap.put Cap.null 0 (padPreset l) [])
  { Clan.empty with kc := SMap.put Cap.null 2 args kc, q := q, part := part, age := age }

/-- The stage bindings of R322. -/
def stageBindings (stageQ : List Nat) (stage nstage uid : Nat) : SMap Binding :=
  let b (q : Nat) (r : QRole) : Binding := { q := q, role := r, seq := 0, uid := uid, made := 0, stage := true, cap := Cap.object 11 q 0 0x0939 true }
  (if stage + 1 < nstage then [(14, b (stageQ[stage]?.getD 0) .push)] else []) ++
    (if 0 < stage then [(15, b (stageQ[stage - 1]?.getD 0) .pop)] else [])

/-- A group at dispatch (R179, R201, R227, R281): everything zero but what the launch writes. -/
def startGroup (s : State) (uid : Nat) (u : UnitRec) (l : Launch) (service : Bool) (core rank stage : Nat) (parts : List Nat)
    (slot : DWord) (age : Nat) (stat : GStat) : Group :=
  let n := l.shape.1 * l.shape.2.1 * l.shape.2.2
  let w := s.worldOf l.ctx
  let args := sieve s w l.args.norm
  { Group.empty with
    ctx := l.ctx, unit := uid, launch := l, service := service, core := core, ham := u.ham, rank := rank, stage := stage,
    nthreads := n
    clans := (List.range ((n + 31) / 32)).map fun c => (c, startClan l args (if l.ovlp then stageBindings u.stageQ stage l.nstage (age + c) else []) (parts[c]?.getD 0) age)
    threads := (List.range n).map fun t => (t, startThread l (sieve s w (l.entries[stage]?.getD Cap.null).norm))
    slot := slot, stat := stat }

/-! End. -/

/-- A core that a group leaves has held it in the current microsecond (R211). -/
def touchCore (s : State) (gid : Nat) : State :=
  let g := s.grp gid
  s.modSched g.launch.sched fun q => if q.touched.contains (g.service, g.core) then q else { q with touched := q.touched ++ [(g.service, g.core)] }

/-- Removes a group from its unit: its slot is FREE (R381, R383); a unit without groups ends, and its stage queues are torn down (R322). -/
def dropGroup (s : State) (gid : Nat) : State :=
  let uid := (s.grp gid).unit
  let s0 := slotWriteNum (slotWriteNum (touchCore s gid) gid 0 8 0) gid 8 8 0
  let s1 := { s0 with groups := Map.del gid s0.groups }
  match Map.get? uid s1.units with
  | none => s1
  | some u =>
    let gs := u.groups.erase gid
    if gs.isEmpty then
      let s2 := { s1 with units := Map.del uid s1.units }
      u.stageQ.foldl (fun s q => s.modObj q fun o => { o with torn := true }) s2
    else { s1 with units := Map.modify uid (fun u => { u with groups := gs }) s1.units }

/-- The last thread of a group has exited: under default stage order the next stage takes its resources and its slot (R209); otherwise the group is gone, and its slot with it. -/
def endGroup (s0 : State) (gid : Nat) : State :=
  let g := s0.grp gid
  let l := g.launch
  -- what its core still holds of it (R132, R311)
  let s := { s0 with ended := Map.set (coreKey g) g s0.ended }
  if !l.ovlp ∧ g.stage + 1 < l.nstage then
    match Map.get? g.unit s.units with
    | none => dropGroup s gid
    | some u =>
      let (n, s1) := s.newId
      -- the writes of the stage are performed at package scope (R181)
      let s2 := zeroSlot (replSettle s1) gid 0 (2 ^ 21)
      let g2 := startGroup s2 g.unit u l g.service g.core g.rank (g.stage + 1) (g.clans.map fun c => c.2.part) g.slot n .run
      let s3 := { s2 with groups := Map.set n g2 (Map.del gid s2.groups) }
      writeHeader { s3 with units := Map.modify g.unit (fun u => { u with groups := u.groups.map fun i => if i = gid then n else i }) s3.units } n 1
  else dropGroup s gid

/-- Everything that follows the exit of threads of a clan (R132, R168, R172, R195, R279). -/
def afterExit (s : State) (gid c : Nat) (tids : List Nat) : State :=
  let alive := liveMask s gid c != 0
  let s1 := endHolds s fun h =>
    match h with
    | .thread g t => g == gid && tids.contains t
    | .clan g k => g == gid && k == c && !alive
  let s2 := checkAllBars (formGathers s1 gid c) gid
  if liveThreads (s2.grp gid) = 0 ∧ (s2.grp? gid).isSome then endGroup s2 gid else s2

/-- Threads leave the %emask of their instances at the depths named: both when they exit, one when they return (R388, R397). -/
def dropMask (s : State) (gid c : Nat) (d1 d2 : Bool) (lanes : BitVec 32) : State :=
  (List.range 32).foldl (fun s l => s.modThr gid (c * 32 + l) fun t =>
    { t with
      rr1 := if d1 && decide (1 ≤ t.edepth) then { t.rr1 with emask := t.rr1.emask &&& ~~~lanes } else t.rr1
      rr2 := if d2 && decide (t.edepth = 2) then { t.rr2 with emask := t.rr2.emask &&& ~~~lanes } else t.rr2 }) s

/-- EXIT of threads of one clan (R132). -/
def exitThreads (s : State) (gid c : Nat) (lanes : List Nat) : State :=
  let s1 := lanes.foldl (fun s l => s.modThr gid (c * 32 + l) fun t => { t.leave with live := false, pend := [] }) s
  afterExit (dropMask s1 gid c true true (laneMask lanes)) gid c (lanes.map fun l => c * 32 + l)

/-- TCOPYs that have not taken effect go back: their requests, their reserved entries and their sequence numbers (R332). -/
def cancelCopies (s : State) (gone : Who → Bool) : State :=
  (s.copies.filter fun r => match r.2.opening with | some (w, _, _) => gone w | none => false).foldl (fun st r =>
    match r.2.opening with
    | some (w, _, _) =>
      (dropReserve { st with copies := Map.del r.1 st.copies } r.2.comp).modClan w.gid w.clan fun cl =>
        { cl with q := cl.q.map fun b => (b.1, if b.2.key = r.2.key then { b.2 with seq := b.2.seq - 1 } else b.2) }
    | none => st) s

/-- The waits of performers that end outside their group: a save sets them back to their instruction (R384), keeping RECV and the calls that wait for a reply; a kill ends those too. -/
def unwaitWho (s0 : State) (gone : Who → Bool) (kill : Bool) : State :=
  let keep (w : Who) := !gone w
  let s := cancelCopies s0 gone
  -- an ECALL still in a sender list goes back as a SEND does
  let lost := s.objs.flatMap fun (o : Nat × Obj) =>
    match o.2.body with
    | .endpoint e => e.senders.filterMap fun x => match x with | .thread w _ _ _ true m => if keep w then none else m.reply | _ => none
    | _ => []
  let s1 := { s with
    objs := s.objs.map fun (o : Nat × Obj) =>
      (o.1, { o.2 with body :=
        match o.2.body with
        | .endpoint e => .endpoint { e with
            senders := e.senders.filter (fun x => match x with | .thread w .. => keep w | _ => true)
            receivers := if kill then e.receivers.filter (fun r => keep r.who) else e.receivers }
        | .notification n => .notification { n with waiters := n.waiters.filter fun p => keep p.1 }
        | .queue q => .queue { q with waiters := q.waiters.filter fun w => match w with | .push w _ _ _ => keep w | .pop w _ _ _ => keep w }
        | .sync so => .sync { so with waiters := so.waiters.filter fun r => keep r.who }
        | b => b })
    monitors := s.monitors.filter fun m => keep m.who
    held := if kill then s.held.filter (fun p => keep p.1.who) else s.held
    replies := s.replies.filter fun r => keep r.2.op.who || (!kill && !lost.contains r.1) }
  s1.objs.foldl (fun st (o : Nat × Obj) =>
    match o.2.body with
    | .queue q => if q.waiters.isEmpty then st else serveQueue st o.1
    | .sync so => if so.waiters.isEmpty then st else serveSync st o.1
    | _ => st) s1

def unwait (s : State) (gid : Nat) (kill : Bool) : State := unwaitWho s (fun w => w.gid == gid) kill

/-- The groups of a saved unit as their images hold them, and back (R335). -/
def loadMates (s : State) (gs : List Nat) : State := gs.foldl (fun s g => if slotMapped s g then loadImage s g else s) s
def storeMates (s : State) (gs : List Nat) : State := gs.foldl (fun s g => if (s.grp? g).isSome && slotMapped s g then storeImage s g 3 false else s) s

/-- A killed group ends at once (R379). -/
def killGroup (s : State) (gid : Nat) : State :=
  match s.grp? gid with
  | none => s
  | some g =>
    let mates := match Map.get? g.unit s.units with | some u => if u.saved then u.groups else [] | none => []
    let s1 := replSettle (unwait s gid true)
    -- its holds end as by a REL, when its accesses have been performed (R249, R279)
    let s2 := if groupOpen s1 gid then s1 else endHolds s1 (·.inGroup gid)
    -- every thread counts as an exit at the hamlet barriers
    let s3 := (loadMates s2 mates).modGrp gid fun g => { g with threads := g.threads.map fun t => (t.1, { t.2 with live := false }), clans := g.clans.map fun c => (c.1, { c.2 with gathers := [] }) }
    let s4 := checkAllBars s3 gid
    storeMates (dropGroup s4 gid) (mates.erase gid)

end Sys2Proof.Machine
end

