-- ==== Sys2Proof/Machine/Ops.lean ====
section
/-! DEFINITION. Taking an exception: the fault record and its delivery (R373-R376), entry to the emulation handler (R388-R390) and the return from it (R397). The execution of one issue: the threads whose guard holds, gathers (R170-R174), checks before effects (R8), results that land at once or later (R49-R51). -/

namespace Sys2Proof.Machine

/-! Faults. -/

/-- The format slot that an instruction names by its SLOT field (R391). -/
def slotIndex (raw : BitVec 128) : Option Nat :=
  let r := Raw.ofWord raw.toNat
  if r.op = 0x30A then some (bitsAt r.mod 10 3)
  else if r.op = 0x300 ∨ r.op = 0x301 ∨ r.op = 0x302 ∨ r.op = 0x303 ∨ r.op = 0x305 ∨ r.op = 0x306 then some (bitsAt r.mod 7 3) else none

def slotValue (s : State) (gid : Nat) (raw : BitVec 128) : DWord :=
  match slotIndex raw with
  | some i => fmtSlot s gid i
  | none => 0

/-- The 128 bytes of a fault record (R375). -/
def recordBytes (s : State) (gid : Nat) (r : FaultRec) : List Byte :=
  let g := s.grp gid
  let ctx := ((s.ctx? g.ctx).map ContextObj.id).getD 0
  bytesOf (r.info.cls + r.info.sub * 2 ^ 8 + r.deferred.toNat * 2 ^ 16 + r.noins.toNat * 2 ^ 17 + r.edepth * 2 ^ 18 + ctx * 2 ^ 32) 8 ++
  bytesOf (g.core % 2 ^ 16 + g.die * 2 ^ 24 + r.clan * 2 ^ 32) 8 ++
  bytesOf (r.fmask.toNat + r.imask.toNat * 2 ^ 32) 8 ++ bytesOf r.pc.toNat 8 ++ bytesOf r.info.addr.toNat 8 ++
  bytesOf (readSR s ⟨gid, 0, 0⟩ 0x06 % 2 ^ 32 + readSR s ⟨gid, 0, 0⟩ 0x07 * 2 ^ 32) 8 ++
  bytesOf (g.ham.2.2 % 2 ^ 32 + g.stage * 2 ^ 32) 8 ++ bytesOf r.fid 8 ++ bytesOf r.info.cap.bits.toNat 16 ++
  bytesOf r.insn.toNat 16 ++ bytesOf r.time 8 ++ List.replicate 24 0

/-- The message of R376: eight words from the record. -/
def recordWords (bs : List Byte) (fmask : BitVec 32) : List Word :=
  let w (o : Nat) : Word := BitVec.ofNat 32 (ofBytes ((bs.drop o).take 4))
  [w 0, fmask, w 0x18, w 0x1C, w 0x20, w 0x24, w 0x38, w 0x3C]

/-- A message that the device sends through a configured endpoint capability (R356, R376): it keeps a capability by that capability's permissions. -/
def deviceMsg (s : State) (ep : Cap) (words : List Word) (caps : List Cap) (reply : Option Nat) : Msg :=
  { words := words, badge := ep.badge, reply := reply
    caps := caps.map fun c => sieve s (s.worldOf ep.base) { c with tag := c.tag && ep.has permStoreCap && (c.g || ep.has permStoreLocal) }.norm }

/-- An endpoint capability that the device can send through. -/
def liveEp (s : State) (ep : Cap) : Bool := ep.tag && ep.otype == 1 && (s.ep? ep.base).isSome && !s.dead ep.base

/-- The record as it stands in the slot is the one with the lowest unanswered FID (R383). -/
def writeRecord (s : State) (gid : Nat) : State :=
  let st := match (s.grp gid).stat with | .saved => 3 | .saving => 2 | _ => 1
  match (s.grp gid).faults.filter fun r => r.answer.isNone with
  | r :: _ => writeHeader (slotWrite s gid 0x100 (recordBytes s gid r)) gid st
  | [] => writeHeader s gid st

/-- Raises a fault (R373-R376): the issue has taken no effect; the record is written and sent, and the group is held while it is pending; without a fault endpoint the group is killed and the record goes to the Almanac. -/
def raise (s : State) (gid clan : Nat) (imask fmask : BitVec 32) (pc : DWord) (insn : BitVec 128) (noins deferred : Bool) (f : FaultInfo) : State :=
  let g := s.grp gid
  let c := s.ctx? g.ctx
  let fid := (c.map ContextObj.nextFid).getD 1
  let lane := ((maskLanes fmask)[0]?).getD 0
  let r : FaultRec := { fid := fid, info := f, deferred := deferred, edepth := (s.thr gid (clan * 32 + lane)).edepth, noins := noins, clan := clan, imask := imask, fmask := fmask, pc := pc, insn := insn, time := s.time, slotv := slotValue s gid insn, answer := none }
  let s1 := ((maskLanes imask).foldl (fun s l => s.modThr gid (clan * 32 + l) fun t => { t with paged := none }) s).modCtx g.ctx fun c => { c with nextFid := c.nextFid + 1 }
  let bs := recordBytes s1 gid r
  let ep := (c.map ContextObj.faultEp).getD Cap.null
  if liveEp s1 ep then
    let s2 := s1.modGrp gid fun g => { g with faults := g.faults ++ [r] }
    let s3 := writeRecord s2 gid
    let rc := Cap.make ((s.grp gid).slot.toNat + 0x100) 128 1 false ((s.grp gid).slot.toNat + 0x100)
    let m := deviceMsg s3 ep (recordWords bs fmask) [rc] none
    match offer s3 ep.base m with
    | some s4 => s4
    | none => s3.modEp ep.base fun e => { e with senders := e.senders ++ [.device gid fid m g.die (s.worldOf g.ctx) (bs.take 40)] }
  else killGroup (almanac s1 g.die (s.worldOf g.ctx) 1 5 (bs.take 40)) gid

/-- The record of a refused launch (R203, R376): no group, no slot, FID 0. -/
def refuseLaunch (s : State) (ctx : Nat) (pc : DWord) (code : Nat) : State :=
  let c := s.ctx? ctx
  let ctxId := (c.map ContextObj.id).getD 0
  let bs := bytesOf (3 + 4 * 2 ^ 8 + 2 ^ 17 + ctxId * 2 ^ 32) 8 ++ List.replicate 16 0 ++ bytesOf pc.toNat 8 ++ bytesOf code 8 ++
    List.replicate 56 0 ++ bytesOf s.time 8 ++ List.replicate 24 0
  let ep := (c.map ContextObj.faultEp).getD Cap.null
  if liveEp s ep then
    let m := deviceMsg s ep (recordWords bs 0) [] none
    match offer s ep.base m with
    | some s1 => s1
    | none => s.modEp ep.base fun e => { e with senders := e.senders ++ [.device 0 0 m 6 (s.worldOf ctx) (bs.take 40)] }
  else almanac s 6 (s.worldOf ctx) 1 5 (bs.take 40)

/-- A fault of the issue in progress. -/
def raiseIssue (s : State) (imask fmask : BitVec 32) (f : FaultInfo) : State :=
  match s.cur with
  | some c => raise s c.gid c.clan imask fmask c.pc c.raw false false f
  | none => s

/-! The emulation handler. -/

/-- Scratch(n) (R390). -/
def scratchCap (g : Group) (n tid : Nat) : Cap :=
  let b := g.slot.toNat + 0x1E0000 + ((n - 1) * 1024 + tid) * 64
  Cap.make b 64 0x003B false b

/-- Entry to the handler of the threads of one instance (R389). -/
def enterHandler (s : State) (gid clan : Nat) (lanes : List Nat) (raw : BitVec 128) (reason : Nat) (slot : DWord) : State :=
  let h := ((s.ctx? (s.grp gid).ctx).map ContextObj.handler).getD Cap.null
  lanes.foldl (fun s l =>
    s.modThr gid (clan * 32 + l) fun t =>
      let n := t.edepth + 1
      let r : RetRec := { pcc := t.pcc, c30 := SMap.get Cap.null 30 t.c, epc := BitVec.ofNat 64 t.pcc.addr, emask := laneMask lanes, w4 := BitVec.ofNat 32 (raw.toNat % 2 ^ 20 + reason * 2 ^ 20), raw := raw, slot := slot }
      { t.leave with
        edepth := n
        rr1 := if n = 1 then r else t.rr1
        rr2 := if n = 1 then t.rr2 else r
        c := SMap.put Cap.null 30 (scratchCap (s.grp gid) n (clan * 32 + l)) t.c
        pcc := h }) s

/-- The disposition of an encoding that is not executed natively (R57): handler entry, or the fault that takes its place. -/
def emulate (s : State) (gid clan : Nat) (imask : BitVec 32) (lanes : List Nat) (pc : DWord) (raw : BitVec 128) (reason : Nat) (slot : DWord) : State :=
  let h := ((s.ctx? (s.grp gid).ctx).map ContextObj.handler).getD Cap.null
  if !h.tag then raise s gid clan imask (laneMask lanes) pc raw false false { cls := 3, sub := 1 }
  else
    match lanes with
    | [] => s
    | l :: _ =>
      if (s.thr gid (clan * 32 + l)).edepth = 2 then raise s gid clan imask (laneMask lanes) pc raw false false { cls := 8, sub := 0 }
      else enterHandler s gid clan lanes raw reason slot

/-- The ODT entry of an opcode as the core of a group applies it (R55, R400). -/
def odtEntry (s : State) (gid op : Nat) : Nat :=
  let g := s.grp gid
  let core := if g.service then 1536 + g.core else g.core
  match s.odtLag.find? fun l => l.1 == g.ctx && l.2.1 == core with
  | some l => ((l.2.2[op]?).getD 0).toNat
  | none => (((s.ctx? g.ctx).bind fun c => c.odt[op]?).getD 0).toNat

/-- The fate of an encoding that is illegal or not implemented (R57). -/
def illegalFate (s : State) (gid clan : Nat) (imask : BitVec 32) (lanes : List Nat) (pc : DWord) (raw : BitVec 128) (op reason : Nat) (slot : DWord) : State :=
  if odtEntry s gid op ≤ 1 then emulate s gid clan imask lanes pc raw reason slot
  else raise s gid clan imask (laneMask lanes) pc raw false false { cls := 3, sub := 1 }

/-- EMRET of one thread (R397). `target` is the capability of .to. -/
def returnFrom (s : State) (x : Cx) (mode : Nat) (target : Cap) : State :=
  let t := s.thr x.gid x.tid
  let r := t.rr
  let l := if r.w4.toNat % 4 = 0 then 8 else 16
  let pcc := if mode = 0 then r.pcc.withAddr (r.epc.toNat + l) else if mode = 1 then r.pcc else target
  let s1 := s.modThr x.gid x.tid fun t =>
    { t.leave with pcc := pcc, c := SMap.put Cap.null 30 r.c30 t.c, edepth := t.edepth - 1 }
  dropMask s1 x.gid x.cno (t.edepth == 1) (t.edepth == 2) (laneMask [x.lane])

/-! One issue. -/

def footOf (s : State) : Nat := (s.cur.map Cur.foot).getD 8
def rawOf (s : State) : BitVec 128 := (s.cur.map Cur.raw).getD 0
def pcOf (s : State) : DWord := (s.cur.map Cur.pc).getD 0

/-- A performer goes on to the next instruction. -/
def advanceActor (s : State) (a : Actor) : State := a.cxs.foldl (fun s x => advance s x (footOf s)) s
/-- Results written at once, and on. -/
def retire (s : State) (a : Actor) (ws : List RegWrite) : State := advanceActor (applyActor s a ws) a

/-- A long-latency result still outstanding joins the thread's pending ones (R49). -/
def addPend (s : State) (x : Cx) (p : Pend) : State := s.modThr x.gid x.tid fun t => { t with pend := t.pend ++ [{ p with issue := t.issue }] }

/-- Results of a long-latency instruction: at once, or within its lookahead window (R49). A uniform execution's land at once. -/
def land (s : State) (a : Actor) (h : Hdr) (ws : List RegWrite) : State :=
  if h.look.val = 0 ∨ a.uni then retire s a ws
  else addPend (advanceActor s a) a.cx ⟨.here, ws, h.look.val, pcOf s, rawOf s, 0⟩

/-- Results that another unit will bring (R50): nothing is written yet. -/
def landLater (s : State) (a : Actor) (h : Hdr) (src : PendSrc) : State :=
  a.cxs.foldl (fun s x => addPend s x ⟨src, [], h.look.val, pcOf s, rawOf s, 0⟩) (advanceActor s a)

/-- The first fault of an issue (R375): that of the lowest lane that fails, with every lane that fails the same way. -/
def firstFault (check : Actor → Option FaultInfo) (as : List Actor) : Option (FaultInfo × BitVec 32) :=
  match as.findSome? check with
  | none => none
  | some f =>
    some (f, laneMask ((as.filter fun a =>
      match check a with
      | some g => g.cls == f.cls && g.sub == f.sub && (f.cls != 3 || f.sub != 2 || g.addr == f.addr)
      | none => false).flatMap Actor.mem))

/-- An issue whose threads act each for itself. -/
def perThread (h : Hdr) (s : State) (check : State → Actor → Option FaultInfo) (eff : State → State → Actor → State) : State :=
  match s.cur with
  | none => s
  | some c =>
    let on := fun l => (s.thr c.gid (c.clan * 32 + l)).guard h
    let acts : List Actor := (c.lanes.filter on).map fun l => ⟨⟨c.gid, c.clan, l⟩, [l], false, none⟩
    match firstFault (check s) acts with
    | some (f, m) => raiseIssue s (laneMask c.lanes) m f
    | none =>
      let s1 := (c.lanes.filter fun l => !on l).foldl (fun s l => advance s ⟨c.gid, c.clan, l⟩ c.foot) s
      acts.foldl (fun st a => eff s st a) s1

/-- The implicit mask (R171): all lanes, or %emask inside the handler. -/
def implicitMask (s : State) (x : Cx) : BitVec 32 :=
  let t := s.thr x.gid x.tid
  if t.edepth = 0 then 0xFFFFFFFF else t.emask

/-- One arrival at a gathering instruction (R171, R172), true guards first. -/
def arriveOne (c : Cur) (on : Nat → Bool) (mask : Cx → BitVec 32) (s : State) (l : Nat) : State :=
  let x : Cx := ⟨c.gid, c.clan, l⟩
  let m := mask x
  let here := fun (g : Gather) => g.pc == c.pc && g.mask == m && !g.formed
  if !on l then
    if m.getLsbD l then
      advance (s.modClan c.gid c.clan fun cl => { cl with gathers := cl.gathers.map fun g => if here g then { g with excluded := g.excluded ||| laneMask [l] } else g }) x c.foot
    else advance s x c.foot
  else if !m.getLsbD l then advance s x c.foot
  else
    let s1 := s.modClan c.gid c.clan fun cl =>
      if cl.gathers.any here then { cl with gathers := cl.gathers.map fun g => if here g then { g with waiting := g.waiting ||| laneMask [l] } else g }
      else { cl with gathers := cl.gathers ++ [⟨c.pc, m, laneMask [l], 0, false, 0, ([], []), none⟩] }
    park s1 x .gather

/-- The arrivals of an issue, and the gathers at its PC that now form, lowest lane first. -/
def arrive (s : State) (c : Cur) (h : Hdr) (mask : Cx → BitVec 32) : State × List Gather :=
  let on := fun l => (s.thr c.gid (c.clan * 32 + l)).guard h
  let s1 := (c.lanes.filter on ++ c.lanes.filter fun l => !on l).foldl (arriveOne c on mask) s
  let live := liveMask s1 c.gid c.clan
  let gs := (s1.clan c.gid c.clan).gathers
  let ready := gs.filter fun g => g.pc == c.pc && !g.formed && g.ready live
  -- one at a time, in the order in which they form (R173)
  if gs.any (·.formed) || decide (2 ≤ ready.length) then (formGathers s1 c.gid c.clan, [])
  else
    let s2 := s1.modClan c.gid c.clan fun cl => { cl with gathers := cl.gathers.filter fun g => !ready.contains g }
    (s2, ((List.range 32).filterMap fun l => ready.find? fun g => (maskLanes g.waiting).head? == some l))

/-- The performer of a formed gather. -/
def setActor (c : Cur) (g : Gather) : Actor :=
  let ls := maskLanes g.waiting
  ⟨⟨c.gid, c.clan, ls.headD 0⟩, ls, true, some g⟩

/-- R174: the live members that a full-mask instruction needs are named and waiting. -/
def partialMask (s : State) (c : Cur) (g : Gather) : Bool :=
  let a := setActor c g
  let t := s.thr a.cx.gid a.cx.tid
  let live := liveMask s c.gid c.clan
  let need := if t.edepth = 0 then live else live &&& t.emask
  (need &&& ~~~g.mask) != (0 : BitVec 32) || (g.mask &&& live &&& g.excluded) != (0 : BitVec 32)

/-- A gather whose execution has begun and was parked. -/
def Actor.begun (a : Actor) : Bool := match a.g with | some g => g.formed && g.seq == 0 | none => false

/-- A set that stops waiting for its gather, in one issue (R166): what its members wrote before is seen by all of them (R249). -/
def joined (s : State) (a : Actor) : State :=
  let no := (s.cur.map Cur.no).getD 0
  replSettleDie (a.cxs.foldl (fun s x => s.modThr x.gid x.tid fun t => { t with wait := .none, issue := if a.begun then t.issue else no, going := true }) s) (replDie s a.cx)

/-- The state from which a set reads its operands: the uniform registers as they were at its formation (R173). -/
def sources (s : State) (c : Cur) (g : Gather) : State :=
  match g.src with
  | some p => s.modClan c.gid c.clan fun cl => { cl with k := p.1, kc := p.2 }
  | none => s

/-- A formed gather runs once for its set (R172-R174), once its members' earlier accesses are performed (R249). -/
def runSet (full : Bool) (c : Cur) (check : State → Actor → Option FaultInfo) (eff : State → State → Actor → State) (s : State) (g : Gather) : State :=
  let a := setActor c g
  let s0 := joined s a
  let m := g.waiting
  if edgeHeld s0 a then parkActor (sendAway s0) a .fence
  else if full && partialMask s0 c g then raise s0 c.gid c.clan m m c.pc c.raw false false { cls := 5, sub := 0 }
  else
    match check (sources s0 c g) a with
    | some f => raise s0 c.gid c.clan m m c.pc c.raw false false f
    | none => eff (sources s0 c g) s0 a

/-- A gathering instruction: arrivals, or the execution of a gather that has formed. -/
def gathering (h : Hdr) (s : State) (mask : State → Cx → BitVec 32) (full : Bool) (check : State → Actor → Option FaultInfo) (eff : State → State → Actor → State) : State :=
  match s.cur with
  | none => s
  | some c =>
    if c.gathered then
      let m := laneMask c.lanes
      let g := ((s.clan c.gid c.clan).gathers.find? fun g => g.formed && g.pc == c.pc && g.waiting == m).getD ⟨c.pc, m, m, 0, true, 0, ([], []), none⟩
      runSet full c check eff (s.modClan c.gid c.clan fun cl => { cl with gathers := cl.gathers.erase g }) g
    else
      let (s1, gs) := arrive s c h (mask s)
      gs.foldl (runSet full c check eff) s1

/-- An instruction that may carry U = 1 (R48). -/
def issue (h : Hdr) (s : State) (check : State → Actor → Option FaultInfo) (eff : State → State → Actor → State) : State :=
  if h.u then gathering h s implicitMask false check eff else perThread h s check eff

def noCheck : State → Actor → Option FaultInfo := fun _ _ => none

/-- An instruction that only computes register values. -/
def compute (h : Hdr) (s : State) (f : State → Cx → List RegWrite) : State :=
  issue h s noCheck fun s0 st a => retire st a (f s0 a.cx)
/-- As `compute`, with lookahead. -/
def computeLong (h : Hdr) (s : State) (f : State → Cx → List RegWrite) : State :=
  issue h s noCheck fun s0 st a => land st a h (f s0 a.cx)

end Sys2Proof.Machine
end

