-- ==== Sys2Proof/Machine/Remote.lean ====
section
/-! DEFINITION. Accesses that leave the package: requests through exported capabilities (R435-R437) and the write-combining buffers (R440, R441). -/

namespace Sys2Proof.Machine

/-- Sends a request to another package. -/
def remoteAsk (s : State) (r : RemoteOut) : Nat × State :=
  let (n, s1) := s.newId
  (n, sendPacket { s1 with remotes := Map.set n { r with born := s1.time } s1.remotes } (protectedWorld s r.world) r.pkg (.remoteReq n))

/-- The offset of an access at the origin (R435). -/
def xOff (c : Cap) (a : Nat) : Nat := (a + 2 ^ 64 - c.addr) % 2 ^ 64

/-- The byte of its origin that an access of an exported capability reaches (R436): through this package's own entry the place that it names; what an entry of another package names, only that package knows. -/
def originAt (s : State) (c : Cap) (o : Nat) : Nat :=
  ((if c.xPkg = s.pkg.toNat then ((Map.get? c.xEntry s.exports).map fun e => e.src.addr).getD 0 else Config.originBase c.xPkg c.xEntry) + o) % 2 ^ 64

/-- One entry leaves the buffer as one write of its masked bytes (R440). -/
def wcSend (core : Nat) (s : State) (e : WcEntry) : State :=
  (remoteAsk s {
    pkg := e.cap.xPkg, entry := e.cap.xEntry, chk := e.cap.xChk, off := e.off, op := .combined e.bytes
    who := none, issuers := e.issuers, core := some core, world := e.world, d := .vz, ty := .n8, carter := none, status := none, cap := e.cap }).2

/-- The entries of a core's buffer that a test names are sent, oldest first. -/
def wcDrain (s : State) (core : Nat) (f : WcEntry → Bool) : State :=
  let es := (Map.get? core s.wc).getD []
  (es.filter f).foldl (wcSend core) { s with wc := Map.modify core (fun l => l.filter fun e => !f e) s.wc }

/-- An entry of a line of a package (R440). -/
def sameLine (c : Cap) (line : Nat) (e : WcEntry) : Bool := e.cap.xPkg == c.xPkg && e.line == line
/-- An entry that goes through the same export entry. -/
def sameEntry (c : Cap) (e : WcEntry) : Bool := e.cap.xEntry == c.xEntry && e.cap.xChk == c.xChk

/-- The lines that n bytes of the origin touch. -/
def linesOf (o n : Nat) : List Nat := (List.range ((o + n - 1) / 128 - o / 128 + 1)).map (o / 128 + ·)

/-- One byte of a plain remote store enters the buffer (R440), at its offset through the capability; an entry of its line that goes through another export entry is sent first. -/
def wcByte (a : Actor) (c : Cap) (lim : Nat) (pc : DWord) (raw : BitVec 128) (s0 : State) (ob : Nat × Byte) : State :=
  let core := coreKey (s0.grp a.cx.gid)
  let o := originAt s0 c ob.1
  let line := o / 128
  let s := wcDrain s0 core fun e => sameLine c line e && !sameEntry c e
  let es := (Map.get? core s.wc).getD []
  let put (e : WcEntry) : WcEntry :=
    { e with
      bytes := Map.set (o % 128) ob.2 e.bytes, mask := Map.set (o % 128) true e.mask
      issuers := if e.issuers.contains (a.who, pc, raw) then e.issuers else e.issuers ++ [(a.who, pc, raw)] }
  if es.any (sameLine c line) then
    { s with wc := Map.set core (es.map fun e => if sameLine c line e then put e else e) s.wc }
  else
    let fresh : WcEntry := put
      { cap := c, line := line, off := (ob.1 + 2 ^ 64 - o % 128) % 2 ^ 64, bytes := [], mask := [], born := s.time, age := lim, issuers := [], world := worldOfCx s a.cx }
    match es with
    | e :: rest =>
      if es.length < 64 then { s with wc := Map.set core (es ++ [fresh]) s.wc }
      else wcSend core { s with wc := Map.set core (rest ++ [fresh]) s.wc } e
    | [] => { s with wc := Map.set core [fresh] s.wc }

/-- A plain remote store (R440): bytes by their offset through the capability; an entry whose mask is full is sent. -/
def wcStore (s : State) (a : Actor) (c : Cap) (addr : Nat) (bs : List Byte) : State :=
  let o := xOff c addr
  let lim := ((s.ctx? (ctxOf s a.cx)).map ContextObj.wcAge).getD 1000
  let s1 := ((List.range bs.length).zip bs).foldl
    (fun s p => wcByte a c lim (pcOf s) (rawOf s) s ((o + p.1) % 2 ^ 64, p.2)) s
  wcDrain s1 (coreKey (s.grp a.cx.gid)) fun e => e.mask.length == 128

/-- A request of a core that bypasses the buffer sends first the entries of its lines (R440). -/
def wcFlushCore (s : State) (core : Nat) (c : Cap) (o n : Nat) : State :=
  wcDrain s core fun e => (linesOf (originAt s c o) n).any fun l => sameLine c l e
def wcFlushLines (s : State) (gid : Nat) (c : Cap) (o n : Nat) : State := wcFlushCore s (coreKey (s.grp gid)) c o n

/-- The combined writes of a core's buffer that have not been performed at their origins. -/
def remoteWrites (s : State) (core : Nat) : Bool := s.remotes.any fun r => r.2.core == some core

/-- A remote request of a performer. -/
def askRemote (s : State) (a : Actor) (c : Cap) (addr : Nat) (op : RemoteOp) (d : Reg) (ty : AType) (acq : Bool := false) : Nat × State :=
  remoteAsk s {
    pkg := c.xPkg, entry := c.xEntry, chk := c.xChk, off := xOff c addr, op := op, acq := acq
    who := some (a.who, pcOf s, rawOf s), world := worldOfCx s a.cx, d := d, ty := ty, carter := none, status := none, cap := c }

/-- What a release of a thread at a scope still waits for (R140, R246, R253, R440, R441): its far requests, its unanswered requests to other packages, its writes to Frames that another package stamps; beyond its group, whose threads read through one buffer, the plain stores that its core's buffer combines; at system scope every combined write of its core, and its writes that replicas of other members have yet to apply (R430). -/
def releaseBlocked (s : State) (x : Cx) (scope : Scope) : Bool :=
  farPending s x || remotePending s x || replAway s x.gid x.tid || (scope != .clan && scope != .group && storesOpen s x) ||
    (scope == .system && (remoteWrites s (coreKey (s.grp x.gid)) || replOwes s x.gid x.tid))

/-- A release at a scope: at system scope the core's buffer drains (R440); at package and system scope every replica applies the REPL writes, at a narrower one the die's does (R246, R429). -/
def releaseAt (s : State) (x : Cx) (scope : Scope) : State :=
  let s1 := if scope == .system then wcDrain s (coreKey (s.grp x.gid)) (fun _ => true) else s
  if scope == .package || scope == .system then replSettle s1 else replSettleDie s1 (replDie s1 x)

end Sys2Proof.Machine
end

