-- ==== Sys2Proof/Machine/CapOps.lean ====
section
/-! DEFINITION. Class 4 capability instructions: inspection and derivation (R151-R158), and EXPORT (R438, R439). -/

namespace Sys2Proof.Machine

/-- CGET (R152). -/
def cgetVal (f : CField) (c : Cap) : Nat :=
  match f with
  | .addr => c.addr
  | .base => c.base
  | .len => let n := (c.top + 2 ^ 65 - c.base) % 2 ^ 65; if n = 2 ^ 64 then 2 ^ 64 - 1 else n % 2 ^ 64
  | .off => (c.addr + 2 ^ 64 - c.base) % 2 ^ 64
  | .perm => c.perm.toNat
  | .otype => c.otype
  | .tag => c.tag.toNat
  | .flags => c.x.toNat + 2 * c.g.toNat + 4 * (c.bits.extractLsb' 126 2).toNat
  | .lo => (c.bits.extractLsb' 0 64).toNat
  | .hi => (c.bits.extractLsb' 64 64).toNat
  | .top => c.top % 2 ^ 64

def execCget (h : Hdr) (f : CField) (d c : Reg) (s : State) : Host.Outcome State Fault Refusal :=
  .next (compute h s fun s x => wrW s x (Sys2Proof.CField.wide f) d (cgetVal f (rdCap s x c)))

/-- A derivation that writes one capability. -/
def derive (h : Hdr) (d : Reg) (s : State) (f : State → Cx → Cap) : State := compute h s fun s x => wrCap s x d (f s x)

/-- CSETA (R153). -/
def execCsetaB (h : Hdr) (d c a : Reg) (s : State) : Host.Outcome State Fault Refusal :=
  .next (derive h d s fun s x => (rdCap s x c).withAddr (rd64 s x a).toNat)
def execCsetaI (h : Hdr) (d c : Reg) (imm : BitVec 32) (s : State) : Host.Outcome State Fault Refusal :=
  .next (derive h d s fun s x => (rdCap s x c).withAddr (imm.signExtend 64).toNat)
def execCsetaL (h : Hdr) (d c : Reg) (imm : BitVec 64) (s : State) : Host.Outcome State Fault Refusal :=
  .next (derive h d s fun s x => (rdCap s x c).withAddr imm.toNat)

/-- CINC (R153). -/
def cinc (c : Cap) (a : Nat) : Cap := c.withAddr (c.addr + a)
def execCincB (h : Hdr) (d c a : Reg) (s : State) : Host.Outcome State Fault Refusal :=
  .next (derive h d s fun s x => cinc (rdCap s x c) (rd64 s x a).toNat)
def execCincI (h : Hdr) (d c : Reg) (imm : BitVec 32) (s : State) : Host.Outcome State Fault Refusal :=
  .next (derive h d s fun s x => cinc (rdCap s x c) (imm.signExtend 64).toNat)
def execCincL (h : Hdr) (d c : Reg) (imm : BitVec 64) (s : State) : Host.Outcome State Fault Refusal :=
  .next (derive h d s fun s x => cinc (rdCap s x c) imm.toNat)

/-- CBND (R154). -/
def execCbndB (h : Hdr) (exact : Bool) (d c len : Reg) (s : State) : Host.Outcome State Fault Refusal :=
  .next (derive h d s fun s x => (rdCap s x c).setBounds exact (rd64 s x len).toNat)
def execCbndI (h : Hdr) (exact : Bool) (d c : Reg) (imm : BitVec 32) (s : State) : Host.Outcome State Fault Refusal :=
  .next (derive h d s fun s x => (rdCap s x c).setBounds exact imm.toNat)
def execCbndL (h : Hdr) (exact : Bool) (d c : Reg) (imm : BitVec 64) (s : State) : Host.Outcome State Fault Refusal :=
  .next (derive h d s fun s x => (rdCap s x c).setBounds exact imm.toNat)

/-- CANDP (R155). -/
def execCandpB (h : Hdr) (d c m : Reg) (s : State) : Host.Outcome State Fault Refusal :=
  .next (derive h d s fun s x => (rdCap s x c).andPerm (rd32 s x m))
def execCandpI (h : Hdr) (d c : Reg) (imm : BitVec 32) (s : State) : Host.Outcome State Fault Refusal :=
  .next (derive h d s fun s x => (rdCap s x c).andPerm imm)

/-- CSEAL and CUNSEAL (R156). -/
def execCseal (h : Hdr) (d c sh : Reg) (s : State) : Host.Outcome State Fault Refusal :=
  .next (derive h d s fun s x => (rdCap s x c).sealWith (rdCap s x sh))
def execCunseal (h : Hdr) (d c sh : Reg) (s : State) : Host.Outcome State Fault Refusal :=
  .next (derive h d s fun s x => (rdCap s x c).unsealWith (rdCap s x sh))

/-- CTEST (R157). -/
def ctestVal (cond : CCond) (c c2 : Cap) : Bool :=
  match cond with
  | .tag => c.tag
  | .seal => c.tag && c.sealed
  | .inb => c.tag && !c.sealed && decide (c.base ≤ c.addr) && decide (c.addr < c.top)
  | .sub => c.tag && c2.tag && decide (c.base ≤ c2.base) && decide (c2.top ≤ c.top) && (c2.perm &&& ~~~c.perm) == 0
  | .x => c.tag && c.x

def execCtest (h : Hdr) (cond : CCond) (pd : Pred) (c c2 : Reg) (s : State) : Host.Outcome State Fault Refusal :=
  .next (compute h s fun s x => wrPred pd (ctestVal cond (rdCap s x c) (rdCap s x c2)))
def execCeq (h : Hdr) (pd : Pred) (c c2 : Reg) (s : State) : Host.Outcome State Fault Refusal :=
  .next (compute h s fun s x => wrPred pd (rdCap s x c == rdCap s x c2))

/-- CMOV and CCLR (R158). -/
def execCmov (h : Hdr) (d c : Reg) (s : State) : Host.Outcome State Fault Refusal := .next (derive h d s fun s x => rdCap s x c)
def execCclr (h : Hdr) (d c : Reg) (s : State) : Host.Outcome State Fault Refusal := .next (derive h d s fun s x => (rdCap s x c).untag)

/-! EXPORT. -/

/-- The lowest free index of the export table. -/
def freeExport (es : List (Nat × ExportEntry)) : Nat → Nat → Nat
  | 0, i => i
  | n + 1, i => if (Map.get? i es).isNone then i else freeExport es n (i + 1)

/-- The range of a capability meets a window (R224). -/
def meetsWindow (c : Cap) : Bool :=
  [padBase, hamBase, laneBase].any fun w => decide (c.base < w + 2 ^ 24) && decide (w < c.top)

/-- EXPORT .make of one performer (R438). -/
def exportMakeOne (ps : Pred) (d x : Reg) (mask : Option Reg) (s0 st : State) (a : Actor) : State :=
  let y := a.cx
  let c := sieve st (worldOfCx st y) (rdCap s0 y x)
  let ok := c.tag && !c.x && c.has permRemote && (c.otype == 0 || (c.otype == 1 && c.has permInvoke)) && !meetsWindow c &&
    decide (st.exports.length < 1048576) && st.trngOk
  if ok then
    let i := freeExport st.exports st.exports.length 0
    let perm := match mask with | some m => c.perm &&& (rd32 s0 y m).extractLsb' 0 16 | none => c.perm
    let (k, s1) := st.draw
    let chk := (Config.trngBits k).toNat % 2 ^ 20
    let ctx := ctxOf st y
    let e : ExportEntry := { src := c, perm := perm, chk := BitVec.ofNat 20 chk, world := worldOfCx st y, ctx := ctx, aspace := aspaceOf st ctx }
    let s2 := { s1 with exports := Map.set i e s1.exports }
    retire s2 a (wrCap s2 y d (c.exported perm chk s2.pkg.toNat i) ++ wrPred ps true)
  else retire st a (wrCap st y d Cap.null ++ wrPred ps false)

/-- The export entry of a far request of another package. -/
def FarTree.entry? : FarTree → Option Nat
  | .foreign _ _ e => e
  | .leaf .. => none
  | .split p q _ _ => p.entry?.or q.entry?

/-- A request that has passed the check of an export entry has yet to be performed (R439). -/
def exportOpen (s : State) (i : Nat) : Bool :=
  s.inbound.any (fun q => q.entry.isSome && q.req.entry == i) || s.acks.any (·.entry == i) ||
    s.fars.any (fun f => f.2.old.isNone && f.2.tree.entry? == some i) ||
    s.objs.any fun o => match o.2.body with | .endpoint e => e.senders.any (fun x => match x with | .remote _ _ n _ _ => n == i | _ => false) | _ => false

/-- EXPORT .drop of one performer (R438, R439): the entry is invalid at once, and the instruction goes on when every request that had passed its check has been performed. -/
def exportDropOne (ps : Pred) (x : Reg) (s0 st : State) (a : Actor) : State :=
  let y := a.cx
  let c := rdCap s0 y x
  match if c.tag && c.x && c.xPkg == st.pkg.toNat then Map.get? c.xEntry st.exports else none with
  | none => retire st a (wrPred ps false)
  | some e =>
    if e.chk.toNat != c.xChk || e.world != worldOfCx st y || (e.dropper.isSome && e.dropper != some a.who) then retire st a (wrPred ps false)
    else if exportOpen st c.xEntry then
      parkActor { st with exports := Map.set c.xEntry { e with dropper := some a.who } st.exports } a .fence
    else retire { st with exports := Map.del c.xEntry st.exports } a (wrPred ps true)

def execExportMake (h : Hdr) (ps : Pred) (d x : Reg) (mask : Option Reg) (s : State) : Host.Outcome State Fault Refusal :=
  .next (issue h s noCheck fun s0 st a => exportMakeOne ps d x mask s0 st a)
def execExportDrop (h : Hdr) (ps : Pred) (_d x : Reg) (_mask : Option Reg) (s : State) : Host.Outcome State Fault Refusal :=
  .next (issue h s noCheck fun s0 st a => exportDropOne ps x s0 st a)

end Sys2Proof.Machine
end

