-- ==== Sys2Proof/Machine/Message.lean ====
section
/-! DEFINITION. Messages, Notifications and service calls as instructions: SEND, RECV, ECALL, EREPLY, SIGNAL, WAITN (R362-R364) and SVC (R138, R199). -/

namespace Sys2Proof.Machine

/-- The status that refuses a message operation through a capability (R346, R356, R362); none when it may go on. `mask`: the sender mask may admit another world. -/
def msgRefusal (s : State) (x : Cx) (c : Cap) (otype perm : Nat) (mask : Bool) : Option Nat :=
  if !c.tag || c.otype != otype || !c.has perm then some stBADCAP
  else
    let w := worldOfCx s x
    let admitted := mask && ((s.ep? c.base).map fun e => e.senderMask.getLsbD w).getD false
    match s.obj? c.base with
    | none => some stDEAD
    | some o => if o.world != w && !admitted then some stWORLD else if o.torn then some stDEAD else none

/-- The capability fault of a message send through a capability that the sieve takes (R407), or through an exported one that lacks INVOKE (R435). -/
def sendFault (s : State) (x : Cx) (c : Cap) (xOk : Bool) : Option FaultInfo :=
  if sieved s (worldOfCx s x) c then some { cls := 1, sub := 1, addr := BitVec.ofNat 64 c.addr, cap := c }
  else if xOk && c.tag && c.x && !c.has permInvoke then some { cls := 1, sub := 3, addr := BitVec.ofNat 64 c.addr, cap := c }
  else none

/-- The capabilities of a message as the send capability lets them through (R356). -/
def sentCaps (s : State) (world : Nat) (ep : Cap) (cs : List Cap) : List Cap :=
  cs.map fun c => sieve s world { c with tag := c.tag && ep.has permStoreCap && (c.g || ep.has permStoreLocal) }.norm

def msgOf (s : State) (x : Cx) (ep : Cap) (m : MsgOps) (reply : Option Nat) : Msg :=
  { words := rdWords s x m.words m.nw.val, caps := sentCaps s (s.worldOf ep.base) ep (rdCaps s x m.caps m.nc.val),
    badge := ep.badge, reply := reply }

/-- Status and, with NB, the predicate. -/
def stWrites (s : State) (x : Cx) (d : Reg) (st : Nat) (nb : Option (Pred × Bool)) : List RegWrite :=
  wrStatus s x d st ++ (match nb with | some (p, b) => wrPred p b | none => [])

def parkAll (s : State) (a : Actor) (w : Wait) : State := a.cxs.foldl (fun s x => park s x w) s

/-- SEND of one performer, its registers as they were at the issue (R6, R177, R357, R362); through an X capability the request goes to its origin (R435, R436). -/
def sendOne (m : MsgOps) (nb : Bool) (nbp : Pred) (s0 st : State) (a : Actor) : State :=
  let x := a.cx
  let c := rdCap s0 x m.obj
  let p : Option Pred := if nb then some nbp else none
  if c.tag && c.x then
    let words := rdWords s0 x m.words m.nw.val
    let caps := (sentCaps st (worldOfCx st x) c (rdCaps s0 x m.caps m.nc.val)).map fun k => (k.bits, k.tag)
    let (n, s1) := remoteAsk st {
      pkg := c.xPkg, entry := c.xEntry, chk := c.xChk, off := 0, op := .send words caps nb
      who := some (a.who, pcOf st, rawOf st), world := worldOfCx st x, d := m.d, ty := .b32, carter := none, status := some (m.d, p, footOf st), cap := c }
    a.cxs.foldl (fun s y => addPend s y ⟨.remote n, [], 0, pcOf st, rawOf st, 0⟩) (advanceActor s1 a)
  else
    match msgRefusal st x c 1 permInvoke true with
    | some r => retire st a (stWrites st x m.d r none)
    | none =>
      match offer st c.base (msgOf s0 x c m none) with
      | some s1 => retire s1 a (stWrites st x m.d stOK (p.map fun q => (q, true)))
      | none =>
        if nb then retire st a (stWrites st x m.d stFULL (some (nbp, false)))
        else
          (parkAll st a (.send c.base)).modEp c.base fun e =>
            { e with senders := e.senders ++ [.thread a.who m.d p (footOf st) false (msgOf s0 x c m none)] }

def execSend (h : Hdr) (m : MsgOps) (nb : Bool) (nbp : Pred) (s : State) : Host.Outcome State Fault Refusal :=
  .next (issue h s (fun s a => sendFault s a.cx (rdCap s a.cx m.obj) true) fun s0 st a => edge st a fun st => sendOne m nb nbp s0 st a)

/-- RECV of one performer (R357, R359). -/
def recvOne (m : MsgOps) (nb : Bool) (nbp : Pred) (info rpl : Reg) (s0 st : State) (a : Actor) : State :=
  let x := a.cx
  let c := rdCap s0 x m.obj
  match msgRefusal st x c 1 permLoad false with
  | some r => retire st a (stWrites st x m.d r none)
  | none =>
    let r : RecvOp := {
      who := a.who, d := m.d, words := m.words, nw := m.nw.val, caps := m.caps, nc := m.nc.val, info := info, rpl := rpl
      loadcap := c.has permLoadCap, nb := if nb then some nbp else none, foot := footOf st, ctx := ctxOf st x }
    match take st c.base with
    | some (msg, s1) => deliver s1 r msg
    | none =>
      if nb then retire st a (stWrites st x m.d stFULL (some (nbp, false)))
      else (parkAll st a (.recv c.base)).modEp c.base fun e => { e with receivers := e.receivers ++ [r] }

def execRecv (h : Hdr) (m : MsgOps) (nb : Bool) (nbp : Pred) (info rpl : Reg) (s : State) : Host.Outcome State Fault Refusal :=
  .next (issue h s noCheck fun s0 st a => recvOne m nb nbp info rpl s0 st a)

/-- Arms a Reply and offers its call: taken or queued, or in the sender list (R357, R363). -/
def callOn (st : State) (a : Actor) (ep : Nat) (rh : Nat) (r : ReplyObj) (d : Reg) (m : Msg) : State :=
  let s1 := parkAll { st with replies := Map.set rh r st.replies } a (.reply rh)
  match offer s1 ep m with
  | some s2 => s2
  | none =>
    (parkAll s1 a (.send ep)).modEp ep fun e => { e with senders := e.senders ++ [.thread a.who d none r.op.foot true m] }

/-- ECALL of one performer (R363). -/
def ecallOne (m : MsgOps) (info : Reg) (rnw : Fin 9) (rnc : Fin 3) (s0 st : State) (a : Actor) : State :=
  let x := a.cx
  let c := rdCap s0 x m.obj
  match msgRefusal st x c 1 permInvoke true with
  | some r => retire st a (stWrites st x m.d r none)
  | none =>
    let rh := replyHeader st x
    let op : RecvOp := {
      who := a.who, d := m.d, words := m.words, nw := rnw.val, caps := m.caps, nc := rnc.val, info := info, rpl := .vz
      loadcap := c.has permLoadCap, nb := none, foot := footOf st, ctx := ctxOf st x }
    callOn st a c.base rh { op := op, armed := true, taken := none, svc := none } m.d (msgOf s0 x c m (some rh))

def execEcall (h : Hdr) (m : MsgOps) (info : Reg) (rnw : Fin 9) (rnc : Fin 3) (s : State) : Host.Outcome State Fault Refusal :=
  .next (issue h s (fun s a => sendFault s a.cx (rdCap s a.cx m.obj) false) fun s0 st a => edge st a fun st => ecallOne m info rnw rnc s0 st a)

/-- EREPLY of one performer (R363): no world check. -/
def ereplyOne (m : MsgOps) (s0 st : State) (a : Actor) : State :=
  let x := a.cx
  let c := rdCap s0 x m.obj
  if !c.tag || c.otype != 12 || !c.has permInvoke then retire st a (stWrites st x m.d stBADCAP none)
  else
    match Map.get? c.base st.replies with
    | none => retire st a (stWrites st x m.d stDEAD none)
    | some r =>
      let msg : Msg := {
        words := rdWords s0 x m.words m.nw.val, badge := c.badge, reply := none
        caps := sentCaps st (st.worldOf r.op.ctx) c (rdCaps s0 x m.caps m.nc.val) }
      retire (answerReply st c.base msg) a (stWrites st x m.d stOK none)

def execEreply (h : Hdr) (m : MsgOps) (s : State) : Host.Outcome State Fault Refusal :=
  .next (issue h s (fun s a => sendFault s a.cx (rdCap s a.cx m.obj) false) fun s0 st a => edge st a fun st => ereplyOne m s0 st a)

/-! Notifications. -/

def signalOne (d ntf : Reg) (bits : DWord) (s0 st : State) (a : Actor) : State :=
  let c := rdCap s0 a.cx ntf
  match msgRefusal st a.cx c 2 permInvoke false with
  | some r => retire st a (wrStatus st a.cx d r)
  | none => retire (signal st c.base bits) a (wrStatus st a.cx d stOK)

/-- R364. -/
def execSignalB (h : Hdr) (d ntf bits : Reg) (s : State) : Host.Outcome State Fault Refusal :=
  .next (issue h s noCheck fun s0 st a => edge st a fun st => signalOne d ntf (rd64 s0 a.cx bits) s0 st a)
def execSignalI (h : Hdr) (d ntf : Reg) (imm : BitVec 32) (s : State) : Host.Outcome State Fault Refusal :=
  .next (issue h s noCheck fun s0 st a => edge st a fun st => signalOne d ntf (imm.setWidth 64) s0 st a)

def waitnOne (nb : Bool) (d ntf wd : Reg) (s0 st : State) (a : Actor) : State :=
  let x := a.cx
  let c := rdCap s0 x ntf
  match msgRefusal st x c 2 permLoad false with
  | some r => retire st a (wrStatus st x d r)
  | none =>
    match st.obj? c.base with
    | some ⟨_, _, _, _, .notification n⟩ =>
      if n.word != 0 then retire (st.setBody c.base (.notification { n with word := 0 })) a (wr64 st x wd n.word ++ wrStatus st x d stOK)
      else if nb then retire st a (wr64 st x wd 0 ++ wrStatus st x d stOK)
      else
        (parkAll st a (.notif c.base)).setBody c.base (.notification { n with waiters := n.waiters ++ [(a.who, d, wd, footOf st)] })
    | _ => retire st a (wrStatus st x d stBADCAP)

/-- R364. -/
def execWaitn (h : Hdr) (nb : Bool) (d ntf wd : Reg) (s : State) : Host.Outcome State Fault Refusal :=
  .next (issue h s noCheck fun s0 st a => waitnOne nb d ntf wd s0 st a)

/-! Service calls. -/

/-- The request words of a member in its 32 bytes of the service record (R199). -/
def svcBytes (s : State) (a : Actor) (nw : Nat) (areg : Reg) : List Byte :=
  ((List.range 32).flatMap fun l =>
    if a.mem.contains l then
      (rdWords s { a.cx with lane := l } areg nw).flatMap (fun w => bytesOf w.toNat 4) ++ List.replicate (32 - 4 * nw) 0
    else List.replicate 32 0) ++ List.replicate 128 0

/-- The eight words of a service call (R199). -/
def svcWords (s : State) (a : Actor) (nw : Nat) : List Word :=
  let x := a.cx
  let g := s.grp x.gid
  let pc := pcOf s
  [laneMask a.mem, BitVec.ofNat 32 (nw + x.cno * 256), pc.setWidth 32, (pc >>> 32).setWidth 32,
   BitVec.ofNat 32 (readSR s x 6), BitVec.ofNat 32 (readSR s x 7), BitVec.ofNat 32 (readSR s x 8), BitVec.ofNat 32 g.stage]

/-- A formed SVC (R199): refused without a live service endpoint, queued behind the group's call in progress, or sent. -/
def svcSet (sp : Pred) (nw : Nat) (d areg : Reg) (st : State) (a : Actor) : State :=
  let x := a.cx
  let g := st.grp x.gid
  let me := (x.cno, laneMask a.mem)
  let ep := ((st.ctx? g.ctx).map ContextObj.svcEp).getD Cap.null
  if g.svcBusy.isSome || (!g.svcWait.isEmpty && g.svcWait.head? != some me) then
    parkActor (st.modGrp x.gid fun g => { g with svcWait := if g.svcWait.contains me then g.svcWait else g.svcWait ++ [me] }) a .engine
  else
    let st := st.modGrp x.gid fun g => { g with svcWait := g.svcWait.erase me }
    if !liveEp st ep then svcDone (retire st a (wr32 st x d 0 ++ wrPred sp false)) x.gid
    else
      let s1 := slotWrite st x.gid 0x400 (svcBytes st a nw areg)
      let rh := replyHeader s1 x
      let rec_ := Cap.make (g.slot.toNat + 0x400) 1152 3 false (g.slot.toNat + 0x400)
      let op : RecvOp := {
        who := a.who, d := d, words := .vz, nw := 0, caps := .vz, nc := 0, info := .vz, rpl := .vz
        loadcap := false, nb := none, foot := footOf st, ctx := g.ctx }
      callOn (s1.modGrp x.gid fun g => { g with svcBusy := some me }) a ep.base rh
        { op := op, armed := true, taken := none, svc := some (sp, d) } d
        (deviceMsg s1 ep (svcWords s1 a nw) [rec_] (some rh))

/-- R138, R199. -/
def execSvc (h : Hdr) (sp : Pred) (nw : Fin 9) (d a : Reg) (s : State) : Host.Outcome State Fault Refusal :=
  .next (gathering h s implicitMask false noCheck fun _ st y => edge st y fun st => svcSet sp nw.val d a st y)

end Sys2Proof.Machine
end

