-- ==== Sys2Proof/Machine/Well.lean ====
section
/-! DEFINITION. Storage from Untypeds (R348), frames and pages of FileMaps, and the Well's page cache: reads on demand, installs and evictions (R336-R338). -/

namespace Sys2Proof.Machine

/-- Takes `size` bytes of an Untyped at the lowest aligned offset above its watermark (R348). -/
def allocFrom (s : State) (u size align : Nat) : Option (Nat × State) :=
  match s.obj? u with
  | some ⟨_, false, _, _, .untyped t⟩ =>
    let a := (t.base + t.mark + align - 1) / align * align
    if a + size ≤ t.base + 2 ^ t.log2 then some (a, s.setBody u (.untyped { t with mark := a + size - t.base })) else none
  | _ => none

/-- Rewrites the FILEMAP leaves of one page in every AddressSpace. -/
def setFileLeaves (s : State) (fm page : Nat) (f : Nat → Nat) : State :=
  s.objs.foldl (fun st o =>
    match o.2.body with
    | .aspace a =>
      (a.files.filter fun l => l.2.1 == fm && l.2.2 == page).foldl (fun st l =>
        match walkFrom st l.1 4 a.root with
        | .leaf e _ at_ => writePhys st at_ (bytesOf (f e.raw) 8)
        | _ => st) st
    | _ => st) s

/-- The leaf with its frame present, and absent. -/
def leafPresent (frame raw : Nat) : Nat := raw % 2 ^ 8 + raw / 2 ^ 9 % 2 ^ 4 * 2 ^ 9 + frame + raw / 2 ^ 52 * 2 ^ 52
def leafAbsent (raw : Nat) : Nat := if raw / 2 ^ 8 % 2 = 0 then raw + 2 ^ 8 else raw

/-- The accesses parked on a page issue again, with what the Well found (R337). -/
def wakePage (s : State) (fm page : Nat) (failed : Bool) : State :=
  { s with
    groups := s.groups.map fun g =>
      (g.1, { g.2 with threads := g.2.threads.map fun t =>
        (t.1, if t.2.wait == .file fm page then { t.2 with wait := .none, paged := some (fm, page, failed) } else t.2) })
    units := s.units.map fun u => (u.1, if u.2.paged == some (fm, page, false) then { u.2 with paged := some (fm, page, failed) } else u.2) }

/-- Installs a page's frame in every leaf, and its parked accesses go on (R337). -/
def installPage (s : State) (fm page frame : Nat) : State := wakePage (setFileLeaves s fm page (leafPresent frame)) fm page false

def pageOf? (s : State) (fm page : Nat) : Option FilePage := (s.filemap? fm).bind fun f => Map.get? page f.cache

/-- An access that waited for a page, or a far atomic on its way to the page's frame, has yet to be performed (R240, R338). -/
def pageInUse (s : State) (fm page : Nat) : Bool :=
  (s.groups.any fun g => g.2.threads.any fun t => t.2.live && t.2.paged == some (fm, page, false)) ||
    (s.units.any fun u => u.2.paged == some (fm, page, false)) ||
    ((pageOf? s fm page).any fun p => s.fars.any fun f => f.2.dest == .here && f.2.old.isNone && decide (p.frame ≤ f.2.pa) && decide (f.2.pa < p.frame + 2 ^ 17))

/-- A WAITC that waits at a place of a range issues again, with the translation that it finds then (R240). -/
def reissueWaits (s : State) (pa n : Nat) : State :=
  let hit (m : Monitor) : Bool := match m.loc with | .mem a _ _ => decide (pa ≤ a) && decide (a < pa + n) | _ => false
  (s.monitors.filter hit).foldl (fun st m => m.who.cxs.foldl (fun st x => st.modThr x.gid x.tid fun t => { t with wait := .none }) st)
    { s with monitors := s.monitors.filter fun m => !hit m }

/-- Drops a page that no access uses from the cache: absent in every leaf, with the completion rule of R240, its frame free (R338). -/
def dropPage (s : State) (fm page : Nat) : State :=
  match pageOf? s fm page with
  | none => s
  | some p =>
    (setFileLeaves (reissueWaits s p.frame (2 ^ 17)) fm page leafAbsent).modFm fm fun f => { f with cache := Map.del page f.cache, freeFrames := f.freeFrames ++ [p.frame] }

/-- The CLEAN page that was installed least recently and that no access is using (R338). -/
def oldestClean (s : State) (fm : Nat) (f : FileMapObj) : Option Nat :=
  ((f.cache.filter fun p => p.2.state == 1 && !pageInUse s fm p.1).foldl (fun (b : Option (Nat × Nat)) p =>
    match b with
    | some o => if p.2.installed < o.2 then some (p.1, p.2.installed) else b
    | none => some (p.1, p.2.installed)) none).map (·.1)

/-- A frame for a page: free, new from the frame source, or taken from an evicted page (R336, R338). -/
def takeFrame (s : State) (fm : Nat) : Option (Nat × State) :=
  match s.filemap? fm with
  | none => none
  | some f =>
    match f.freeFrames with
    | x :: rest => some (x, s.modFm fm fun f => { f with freeFrames := rest })
    | [] =>
      match f.src.bind fun u => allocFrom s u (2 ^ 17) (2 ^ 17) with
      | some r => some r
      | none =>
        match oldestClean s fm f with
        | none => none
        | some p =>
          let s1 := dropPage s fm p
          match s1.filemap? fm with
          | some g =>
            match g.freeFrames with
            | x :: rest => some (x, s1.modFm fm fun f => { f with freeFrames := rest })
            | [] => none
          | none => none

/-- The NVMe command of a page: its first LBA, and how many of the namespace's LBAs a 128 KiB page covers (R336); a Flush names none. -/
def nvmeOf (s : State) (fm op page : Nat) : Out :=
  match s.filemap? fm with
  | some f => if op = 3 then .nvme fm op page 0 0 else .nvme fm op page (f.lba + page * (2 ^ 17 / f.lbaSize)) (2 ^ 17 / f.lbaSize)
  | none => .nvme fm op page 0 0

/-- Asks the Well for a page (R337): installs a frame that it has, joins a read, or begins one when a frame can be had. -/
def demandPage (s : State) (fm page : Nat) : State :=
  match pageOf? s fm page with
  | some p => if p.state = 0 then s else installPage s fm page p.frame
  | none =>
    match takeFrame s fm with
    | none => s
    | some (x, s1) =>
      let (n, s2) := s1.newId
      { s2.modFm fm (fun f => { f with cache := Map.set page { frame := x, state := 0, installed := n, redirty := false } f.cache }) with
        out := s2.out ++ [nvmeOf s fm 0 page] }

/-- The pages that threads are parked on and that no read serves are asked for again: a frame may have become free. -/
def retryPages (s : State) : State :=
  let waits := s.groups.flatMap fun g => g.2.threads.filterMap fun t => match t.2.wait with | .file f p => some (f, p) | _ => none
  waits.foldl (fun st w => if (pageOf? st w.1 w.2).isNone then demandPage st w.1 w.2 else st) s

end Sys2Proof.Machine
end

