-- ==== Sys2Proof/Machine/LoadStore.lean ====
section
/-! DEFINITION. Loads, stores, capability loads and stores, hints and cache maintenance (R46, R141-R149, R226, R230, R234, R238, R435, R440, R486). -/

namespace Sys2Proof.Machine

/-- A capability operand as an access takes it: the sieve clears its tag (R407). -/
def useCap (s : State) (x : Cx) (r : Reg) : Cap := sieve s (worldOfCx s x) (rdCap s x r)

/-- The effective address (R46). -/
def addrOf (s : State) (x : Cx) (cap idx : Reg) (scale : Nat) (imm : BitVec 32) : Nat :=
  ((useCap s x cap).addr + (rd32 s x idx).toNat * 2 ^ scale + (imm.signExtend 64).toNat) % 2 ^ 64

def memAddr (s : State) (x : Cx) (m : MemOp) : Nat := addrOf s x m.cap m.idx m.scale.val m.imm
def hintAddr (s : State) (x : Cx) (m : HintOp) : Nat := addrOf s x m.cap m.idx m.scale.val m.imm

def AType.bytes : AType → Nat
  | .n8 | .i8 => 1
  | .n16 | .i16 => 2
  | .b32 => 4
  | .b64 => 8
  | .b128 => 16

/-- What stands in the way of an access, or where it goes. -/
inductive Way where
  | here (l : Loc)
  | away
  | wait (w : Wait)
  | bad (f : FaultInfo)
  deriving DecidableEq, Repr

/-- The fault of a place that cannot be reached: translation faults carry the address (R375). -/
def hitFault (cls sub a : Nat) : FaultInfo := { cls := cls, sub := sub, addr := if cls = 2 then BitVec.ofNat 64 a else 0 }

/-- The checks of an access of n bytes in the order of R7 and R238, the routing of R435, and the waits of R230 and R238. `xOk`: the instruction may go through an exported capability. -/
def wayOf (s : State) (x : Cx) (c : Cap) (a n align : Nat) (perms : List Nat) (acc : Acc) (xOk : Bool) : Way :=
  if c.tag && c.x then
    if xOk then
      match xCheck c a perms with
      | some f => .bad f
      | none => .away
    else .bad { cls := 1, sub := 2, addr := BitVec.ofNat 64 a, cap := c }
  else
    match capCheckAlign c a n align perms with
    | some f => .bad f
    | none =>
      match locate s x acc a n with
      | .fault k u => .bad (hitFault k u a)
      | .absent f p => .wait (.file f p)
      | .at_ l =>
        match darkLine s l with
        | some (g, ln) => .wait (.line g ln)
        | none => .here l

/-- An uncorrectable error that a read meets at once (R51, R234); with a lookahead window it is deferred. -/
def eccNow (s : State) (a : Actor) (h : Hdr) (l : Loc) (n : Nat) : Option FaultInfo :=
  if (h.look.val = 0 ∨ a.uni) ∧ eccLoc s l n then some { cls := 9, sub := 1 } else none

/-- The fault of a way; for a read, with its error check. -/
def wayFault (s : State) (a : Actor) (h : Hdr) (n : Nat) (reads : Bool) : Way → Option FaultInfo
  | .bad f => some f
  | .here l => if reads then eccNow s a h l n else none
  | _ => none

/-- Parks a performer at an access; a page that is absent is asked for (R337). -/
def waitFor (s : State) (a : Actor) (w : Wait) : State :=
  let s1 := parkActor s a w
  match w with
  | .file f p => demandPage s1 f p
  | _ => s1

/-- Where the bytes of an access longer than 16 bytes go, or what stands in its way. -/
inductive RWay where
  | here (ps : List (Loc × Nat))
  | away
  | wait (w : Wait)
  | bad (f : FaultInfo)
  deriving DecidableEq, Repr

/-- The checks and the place of n bytes; `xOk`: they may lie at another package (R435). -/
def rangeWay (s : State) (x : Cx) (c : Cap) (a n align : Nat) (perms : List Nat) (acc : Acc) (xOk : Bool := false) : RWay :=
  if xOk && c.tag && c.x then
    match xCheck c a perms with
    | some f => .bad f
    | none => .away
  else
    match capCheckAlign c a n align perms with
    | some f => .bad f
    | none =>
      match rangeOf s x acc a n with
      | .error (.fault k u) => .bad (hitFault k u a)
      | .error (.absent f p) => .wait (.file f p)
      | .error (.at_ _) => .here []
      | .ok ps =>
        match darkPieces s ps with
        | some (g, ln) => .wait (.line g ln)
        | none => .here ps

/-- The fault of a range; for a read, with its error check. -/
def rangeFault (s : State) (reads : Bool) : RWay → Option FaultInfo
  | .bad f => some f
  | .here ps => if reads && eccPieces s ps then some { cls := 9, sub := 1 } else none
  | .wait _ | .away => none

/-! Ranges at another package (R435). -/

/-- The parts, each of one packet at most (R431), in which ranges are read from another package. -/
def remoteParts (rs : List (Nat × Nat)) : List (Nat × Nat) :=
  rs.flatMap fun r => (List.range ((r.2 + 255) / 256)).map fun i => (r.1 + 256 * i, min 256 (r.2 - 256 * i))

/-- A part that is neither here nor asked for is asked for; entries of its lines leave the buffer first (R440). -/
def askPart (a : Actor) (c : Cap) (s : State) (p : (Nat × Nat) × Nat) : State :=
  if (Map.get? p.2 (s.thr a.cx.gid a.cx.tid).fetched).isSome || s.remotes.any (fun r => r.2.part == some p.2 && r.2.who.any fun w => w.1.has a.cx) then s
  else
    let (i, s1) := askRemote (wcFlushLines s a.cx.gid c (xOff c p.1.1) p.1.2) a c p.1.1 (.load p.1.2) .vz .n8
    { s1 with remotes := Map.modify i (fun r => { r with part := some p.2 }) s1.remotes }

/-- The bytes of ranges at another package, in order, once every part has come; until then the performer waits at its instruction. -/
def bring (st : State) (a : Actor) (c : Cap) (rs : List (Nat × Nat)) (k : List Byte → State → State) : State :=
  let ps := (remoteParts rs).zipIdx
  match ps.mapM fun p => Map.get? p.2 (st.thr a.cx.gid a.cx.tid).fetched with
  | some bss => k bss.flatten (st.modThr a.cx.gid a.cx.tid fun t => { t with fetched := [] })
  | none => parkActor (ps.foldl (askPart a c) st) a .fence

/-- Bytes of another package as capabilities: untagged (R436). -/
def plainCaps (bs : List Byte) : List Cap := (List.range (bs.length / 16)).map fun i => ⟨BitVec.ofNat 128 (ofBytes ((bs.drop (16 * i)).take 16)), false⟩

/-- Plain stores of consecutive bytes to ranges at another package (R440). -/
def wcRanges (st : State) (a : Actor) (c : Cap) (rs : List (Nat × Nat)) (bs : List Byte) : State :=
  (rs.foldl (fun (acc : State × List Byte) r => (wcStore acc.1 a c r.1 (acc.2.take r.2), acc.2.drop r.2)) (st, bs)).1

/-- The parts that performers of a group wait for, those of lanes that a test names, are given up. -/
def dropParts (s : State) (gone : Who → Bool) : State :=
  { s with remotes := s.remotes.filter fun r => !(r.2.part.isSome && r.2.who.any fun w => gone w.1) }

/-! Data registers of an access. -/

/-- The writes of loaded bytes (R142). -/
def loadWrites (s : State) (x : Cx) (ty : AType) (d : Reg) (v : Nat) : List RegWrite :=
  match ty with
  | .n8 => wr32 s x d (BitVec.ofNat 32 (v % 256))
  | .i8 => wr32 s x d ((BitVec.ofNat 8 v).signExtend 32)
  | .n16 => wr32 s x d (BitVec.ofNat 32 (v % 65536))
  | .i16 => wr32 s x d ((BitVec.ofNat 16 v).signExtend 32)
  | .b32 => wr32 s x d (BitVec.ofNat 32 v)
  | .b64 => wr64 s x d (BitVec.ofNat 64 v)
  | .b128 =>
    match d with
    | .vz => []
    | d => (List.range 4).flatMap fun i => wr32 s x (Reg.plus d i) (BitVec.ofNat 32 (v / 2 ^ (32 * i)))

/-- The bytes that a store takes (R142). -/
def storeBytes (s : State) (x : Cx) (ty : AType) (d : Reg) : List Byte :=
  match ty with
  | .b64 => bytesOf (rd64 s x d).toNat 8
  | .b128 => match d with | .vz => List.replicate 16 0 | d => (rdWords s x d 4).flatMap fun w => bytesOf w.toNat 4
  | ty => bytesOf (rd32 s x d).toNat (AType.bytes ty)

/-! IO pages. -/

/-- A read of a device page: all ones where nothing backs it (R486), else the function answers later; 16 bytes are two reads in ascending order, each for itself (R144). -/
def ioRead (st : State) (a : Actor) (l : Loc) (n : Nat) (d : Reg) (ty : AType) (isCap : Bool) (ones : List RegWrite) : State :=
  match l with
  | .mem pa _ _ =>
    let ask (pa n more port : Nat) (got : List Byte) : State :=
      let (i, s1) := st.newId
      parkAll { s1 with
        ios := Map.set i ⟨a.who, a.cx.lane, pa, n, none, d, ty, port, footOf st, isCap, more, got⟩ s1.ios
        out := s1.out ++ [.ioRead pa n] } a (.io i)
    let n1 := min n 8
    match barOf st pa n1, barOf st (pa + 8) 8 with
    | some port, _ => ask pa n1 (n - n1) port []
    | none, some port => if n = 16 then ask (pa + 8) 8 0 port (List.replicate 8 255) else retire st a ones
    | none, none => retire st a ones
  | _ => retire st a ones
where
  parkAll (s : State) (a : Actor) (w : Wait) : State := a.cxs.foldl (fun s x => park s x w) s

/-- The answer of an IO read: the second of two follows it, or the whole reaches its requester (R144). -/
def ioDeliver (s : State) (i : Nat) (bs : List Byte) : State :=
  match Map.get? i s.ios with
  | none => s
  | some q =>
    let got := q.got ++ bs.take q.n
    let done (got : List Byte) : State :=
      let s1 := { s with ios := Map.del i s.ios }
      let v := ofBytes got
      -- an OBJ that waits for the accesses under way goes on (R240)
      wakeAll (completeWith s1 q.who (fun x => if q.cap then wrCap s1 x q.d ⟨BitVec.ofNat 128 v, false⟩ else loadWrites s1 x q.ty q.d v) q.foot) (· == .fence)
    if q.more = 0 then done got
    else
      match barOf s (q.pa + q.n) q.more with
      | some port =>
        { s with
          ios := Map.set i { q with pa := q.pa + q.n, n := q.more, more := 0, port := port, got := got } s.ios
          out := s.out ++ [.ioRead (q.pa + q.n) q.more] }
      | none => done (got ++ List.replicate q.more 255)

def allOnes (n : Nat) : Nat := 2 ^ (8 * n) - 1

/-! Orderings: in one interleaving an acquire needs nothing; a release, and the fences of sc, wait as R140 says. -/

/-- A scope narrowed to the reach of the bytes at a place (R242): the clan for a lane slice, the group or the hamlet for a scratchpad, the die for the Cellar. -/
def Loc.scope (s : State) (l : Loc) (sc : Scope) : Scope :=
  let atMost (r : Scope) : Scope := if sc.code ≤ r.code then sc else r
  match l with
  | .lane .. => atMost .clan
  | .pad g o => atMost (if o < (s.grp g).launch.hambytes then .hamlet else .group)
  | .mem pa _ _ => if cellarBase ≤ pa then atMost .die else sc

/-- The scope of an access; one through an exported capability is never narrowed (R242, R435). -/
def Way.scope (s : State) (w : Way) (sc : Scope) : Scope :=
  match w with
  | .here l => l.scope s sc
  | _ => sc

/-- The part of an access's ordering that comes before it, and whether it must wait. -/
def orderBefore (st : State) (a : Actor) (ord : MOrd) (scope : Scope) : State × Bool :=
  if ord == .release || ord == .sc then
    let s1 := releaseAt st a.cx scope
    (s1, a.cxs.any fun x => releaseBlocked s1 x scope)
  else (st, false)
def orderAfter (st : State) (a : Actor) (ord : MOrd) (scope : Scope) : State := if ord == .sc then releaseAt st a.cx scope else st

def MOrd.acquires (o : MOrd) : Bool := o == .acquire || o == .sc

/-- A remote load or atomic: entries of its lines leave the buffer first (R440); the result lands within the window or later. -/
def remoteRead (st : State) (a : Actor) (h : Hdr) (c : Cap) (addr n : Nat) (op : RemoteOp) (d : Reg) (ty : AType) (ord : MOrd) : State :=
  let s1 := wcFlushLines st a.cx.gid c (xOff c addr) n
  let (i, s2) := askRemote s1 a c addr op d ty (MOrd.acquires ord)
  landLater s2 a { h with look := if a.uni then 0 else h.look } (.remote i)

/-! LD and ST. -/

def ldWay (s : State) (x : Cx) (m : MemOp) (rot : Nat) : Way :=
  wayOf s x (useCap s x m.cap) (rotate (memAddr s x m) rot) (AType.bytes m.ty) (AType.bytes m.ty) [permLoad] .rd true

def load (h : Hdr) (m : MemOp) (rot : Nat) (d : Reg) (s : State) : State :=
  let n := AType.bytes m.ty
  issue h s (fun s a => wayFault s a h n true (ldWay s a.cx m rot)) fun s0 st a =>
    let x := a.cx
    match ldWay s0 x m rot with
    | .bad _ => st
    | .wait w => waitFor st a w
    | way =>
      let (s1, blocked) := orderBefore st a (if m.ord == .sc then .sc else .plain) (way.scope s0 m.scope)
      if blocked then parkActor s1 a .fence
      else
        match way with
        | .away => remoteRead s1 a h (useCap s0 x m.cap) (rotate (memAddr s0 x m) rot) n (.load n) d m.ty m.ord
        | .here l =>
          if l.io then ioRead s1 a l n d m.ty false (loadWrites s0 x m.ty d (allOnes n))
          else if eccLoc s1 l n then
            addPend (advanceActor s1 a) x ⟨.failed { cls := 9, sub := 1 } a.mem, loadWrites s0 x m.ty d 0, h.look.val, pcOf st, rawOf st, 0⟩
          else land s1 a h (loadWrites s0 x m.ty d (readAt s1 x l n))
        | _ => s1

def execLdM (h : Hdr) (m : MemOp) (d : Reg) (s : State) : Host.Outcome State Fault Refusal := .next (load h m 0 d s)
def execLdN (h : Hdr) (m : MemOp) (rot : Fin 8) (d : Reg) (s : State) : Host.Outcome State Fault Refusal := .next (load h m rot.val d s)

def stWay (s : State) (x : Cx) (m : MemOp) (rot : Nat) : Way :=
  wayOf s x (useCap s x m.cap) (rotate (memAddr s x m) rot) (AType.bytes m.ty) (AType.bytes m.ty) [permStore] .wr true

/-- A remote store (R440, R441): plain through the buffer, ordered past it, waiting for its answer. -/
def remoteStore (st : State) (a : Actor) (c : Cap) (addr : Nat) (bs : List Byte) (plain : Bool) : State :=
  if plain then advanceActor (wcStore st a c addr bs) a
  else
    let s1 := wcFlushLines st a.cx.gid c (xOff c addr) bs.length
    let (i, s2) := askRemote s1 a c addr (.store bs) .vz .n8
    a.cxs.foldl (fun s x => addPend s x ⟨.remote i, [], 0, pcOf st, rawOf st, 0⟩) (advanceActor s2 a)

def store (h : Hdr) (m : MemOp) (rot : Nat) (d : Reg) (s : State) : State :=
  let n := AType.bytes m.ty
  issue h s (fun s a => wayFault s a h n false (stWay s a.cx m rot)) fun s0 st a =>
    let x := a.cx
    match stWay s0 x m rot with
    | .bad _ => st
    | .wait w => waitFor st a w
    | way =>
      let sc := way.scope s0 m.scope
      let (s1, blocked) := orderBefore st a m.ord sc
      if blocked then parkActor s1 a .fence
      else
        match way with
        | .away => remoteStore s1 a (useCap s0 x m.cap) (rotate (memAddr s0 x m) rot) (storeBytes s0 x m.ty d) (m.ord == .plain)
        | .here l => advanceActor (orderAfter (writeLoc s1 a.writers l (storeBytes s0 x m.ty d) []) a m.ord sc) a
        | _ => s1

def execStM (h : Hdr) (m : MemOp) (d : Reg) (s : State) : Host.Outcome State Fault Refusal := .next (store h m 0 d s)
def execStN (h : Hdr) (m : MemOp) (rot : Fin 8) (d : Reg) (s : State) : Host.Outcome State Fault Refusal := .next (store h m rot.val d s)

/-! LDC and STC. -/

def ldcWay (s : State) (x : Cx) (m : MemOp) : Way :=
  wayOf s x (useCap s x m.cap) (memAddr s x m) 16 16 [permLoad] .rd false

/-- The value that LDC loads (R145). -/
def loadedCap (c g : Cap) : Cap := { g with tag := g.tag && c.has permLoadCap }.norm

/-- R145. -/
def execLdc (h : Hdr) (m : MemOp) (d : Reg) (s : State) : Host.Outcome State Fault Refusal :=
  .next (issue h s (fun s a => wayFault s a h 16 true (ldcWay s a.cx m)) fun s0 st a =>
    let x := a.cx
    match ldcWay s0 x m with
    | .wait w => waitFor st a w
    | .here l =>
      let (s1, blocked) := orderBefore st a (if m.ord == .sc then .sc else .plain) (l.scope s0 m.scope)
      if blocked then parkActor s1 a .fence
      else if l.io then ioRead s1 a l 16 d .b128 true (wrCap s0 x d ⟨BitVec.ofNat 128 (allOnes 16), false⟩)
      else if eccLoc s1 l 16 then
        addPend (advanceActor s1 a) x ⟨.failed { cls := 9, sub := 1 } a.mem, wrCap s0 x d Cap.null, h.look.val, pcOf st, rawOf st, 0⟩
      else land s1 a h (wrCap s1 x d (loadedCap (useCap s0 x m.cap) (readCapAt s1 x l)))
    | _ => st)

/-- The permissions of a capability store: a tagged source needs STORECAP, and one that is not global STORELOCAL (R32, R38, R146). -/
def stcPerms (v : Cap) : List Nat := [permStore] ++ (if v.tag then [permStoreCap] ++ (if v.g then [] else [permStoreLocal]) else [])

def stcWay (s : State) (x : Cx) (m : MemOp) (d : Reg) : Way :=
  wayOf s x (useCap s x m.cap) (memAddr s x m) 16 16 (stcPerms (rdCap s x d)) .wr false

/-- R146. -/
def execStc (h : Hdr) (m : MemOp) (d : Reg) (s : State) : Host.Outcome State Fault Refusal :=
  .next (issue h s (fun s a => wayFault s a h 16 false (stcWay s a.cx m d)) fun s0 st a =>
    let x := a.cx
    match stcWay s0 x m d with
    | .wait w => waitFor st a w
    | .here l =>
      let sc := l.scope s0 m.scope
      let (s1, blocked) := orderBefore st a m.ord sc
      if blocked then parkActor s1 a .fence
      else advanceActor (orderAfter (writeCapAt s1 a.writers l (sieve s1 (worldOfCx s1 x) (rdCap s0 x d))) a m.ord sc) a
    | _ => st)

/-! Hints. -/

/-- Whether a hint is dropped (R148, R243, R435). -/
def hintDropped (s : State) (x : Cx) (m : HintOp) : Bool :=
  let c := useCap s x m.cap
  let a := hintAddr s x m
  !c.tag || c.sealed || !c.has permLoad || !(decide (c.base ≤ a) && decide (a < c.top)) ||
    match locate s x .rd a 1 with
    | .fault k _ => k == 2
    | .at_ l => l.io
    | .absent .. => false

def countDrop (s : State) (ctx : Nat) : State :=
  s.modCtx ctx fun c => { c with hintDrops := if c.hintDrops = 0xFFFFFFFFFFFFFFFF then c.hintDrops else c.hintDrops + 1 }

def hint (h : Hdr) (m : HintOp) (act : State → Cx → State) (s : State) : State :=
  issue h s noCheck fun s0 st a =>
    advanceActor (if hintDropped s0 a.cx m then countDrop st (ctxOf st a.cx) else act st a.cx) a

/-- PREF brings lines into caches that no program can see (R147, R148, R233). -/
def execPref (h : Hdr) (_hint : PrefHint) (m : HintOp) (s : State) : Host.Outcome State Fault Refusal :=
  .next (hint h m (fun st _ => st) s)

/-- RESID; `.keep` on an absent FILEMAP page asks the Well for it (R147). -/
def execResid (h : Hdr) (hint_ : ResidHint) (m : HintOp) (s : State) : Host.Outcome State Fault Refusal :=
  .next (hint h m (fun st x =>
    match hint_, locate st x .rd (hintAddr st x m) 1 with
    | .keep, .absent f p => demandPage st f p
    | _, _ => st) s)

/-- CFLUSH (R149): the checks of a 1-byte load; HBM and the caches hold one value here. -/
def execCflush (h : Hdr) (_op : FlushOp) (m : HintOp) (s : State) : Host.Outcome State Fault Refusal :=
  let way (s : State) (x : Cx) : Way := wayOf s x (useCap s x m.cap) (hintAddr s x m) 1 1 [permLoad] .rd true
  .next (issue h s (fun s a => wayFault s a h 1 false (way s a.cx)) fun s0 st a =>
    match way s0 a.cx with
    | .wait (.file f p) => waitFor st a (.file f p)
    | .away =>
      -- the origin makes the checks of a 1-byte load (R435, R436)
      let c := useCap s0 a.cx m.cap
      let (i, s1) := askRemote (wcFlushLines st a.cx.gid c (xOff c (hintAddr s0 a.cx m)) 1) a c (hintAddr s0 a.cx m) (.load 1) .vz .n8
      a.cxs.foldl (fun s x => addPend s x ⟨.remote i, [], 0, pcOf st, rawOf st, 0⟩) (advanceActor s1 a)
    | _ => advanceActor st a)

/-! PWAIT. -/

/-- L of R276. -/
def pwaitLen (s : State) (x : Cx) (len : Reg) : Nat :=
  if Reg.isVz len then 1 else let l := (rd32 s x len).toNat; if l = 0 then 1 else min l 327680

/-- The first clear presence bit of the lines that hold a byte of [a, a + n). -/
def darkRange (s : State) (x : Cx) (a n : Nat) : Option (Nat × Nat) :=
  (List.range ((a + n - 1) / 64 - a / 64 + 1)).findSome? fun i =>
    match locate s x .rd (max a ((a / 64 + i) * 64)) 1 with
    | .at_ l => darkLine s l
    | _ => none

/-- R276. -/
def execPwait (h : Hdr) (m : HintOp) (len : Reg) (s : State) : Host.Outcome State Fault Refusal :=
  let side (s : State) (x : Cx) (a : Nat) : Way := wayOf s x (useCap s x m.cap) (a % 2 ^ 64) 1 1 [permLoad] .rd false
  .next (perThread h s (fun s a =>
      let b := hintAddr s a.cx m
      match wayFault s a h 1 false (side s a.cx b) with
      | some f => some f
      | none => wayFault s a h 1 false (side s a.cx (b + pwaitLen s a.cx len - 1))) fun s0 st a =>
    let b := hintAddr s0 a.cx m
    if windowOf b = some 1 ∨ windowOf b = some 2 then
      match darkRange st a.cx b (pwaitLen s0 a.cx len) with
      | some (g, ln) => park st a.cx (.line g ln)
      | none => advanceActor st a
    else
      match side s0 a.cx b with
      | .wait (.file f p) => waitFor st a (.file f p)
      | _ => advanceActor st a)

end Sys2Proof.Machine
end

