-- ==== Sys2Proof/Machine/Atomics.lean ====
section
/-! DEFINITION. Atomics near and far, combining in cisterns, condition monitors, and SyncObjects (R262, R264-R279). -/

namespace Sys2Proof.Machine

/-- New(AOP, v, a) on n bits (R265). -/
def newVal (aop : AOp) (n v a : Nat) : Nat :=
  match aop with
  | .add => (v + a) % 2 ^ n
  | .and => v &&& a
  | .or => v ||| a
  | .xor => v ^^^ a
  | .smin => if toSigned n v ≤ toSigned n a then v else a
  | .smax => if toSigned n v ≤ toSigned n a then a else v
  | .umin => min v a
  | .umax => max v a
  | .swapOp => a
  | .inc => if a ≤ v then 0 else v + 1
  | .dec => if v = 0 ∨ a < v then a else v - 1
  | .fadd => fadd .f32 .rn false v a
  | .fmin => fmin .f32 false v a
  | .fmax => fmax .f32 false v a

/-- What a request leaves at its location: none for an ATOMX whose comparison fails (R266). -/
def atomNew (aop : AOp) (cmp : Option Nat) (n v operand : Nat) : Option Nat :=
  match cmp with
  | some c => if v = c then some operand else none
  | none => some (newVal aop n v operand)

/-- The operand of a merged request, and the reply of its later part (R271). -/
def mergedOperand (aop : AOp) (n ap aq : Nat) : Nat :=
  match aop with
  | .swapOp => aq
  | aop => newVal aop n ap aq
def laterReply (aop : AOp) (n v ap : Nat) : Nat :=
  match aop with
  | .swapOp => ap
  | aop => newVal aop n v ap

/-! Near atomics. -/

/-- Performs a read-modify-write at a place at once: its old value and the state after. On a REPL page it is stamped at the Bellringer, after every write issued before it (R429). -/
def performAtom (s : State) (who : Nat × List Nat) (l : Loc) (aop : AOp) (cmp : Option Nat) (size operand : Nat) : Nat × State :=
  match l with
  | .mem pa 1 k =>
    let s1 := stampAll s
    let v := readHome s1 l size
    match atomNew aop cmp (8 * size) v operand with
    | some y => (v, stampWrite s1 { pa := pa, data := bytesOf y size, tags := [], gid := who.1, tids := who.2, key := k })
    | none => (v, s1)
  | l =>
    let v := readHome s l size
    match atomNew aop cmp (8 * size) v operand with
    | some y => (v, writeAt s who l size y)
    | none => (v, s)

/-! Far atomics. -/

/-- The place of a die on the ring: the H-die, then C-dies 0 to 5 (R9); and the die at a place. -/
def ringPlace (die : Nat) : Nat := if die = 6 then 0 else die + 1
def ringDie (place : Nat) : Nat := if place % 7 = 0 then 6 else place % 7 - 1

/-- The stops that a packet leaves by from one die to another, in order, the shorter way round: clockwise when at most three links lead there, else the other way (R425). -/
def ringStops (src dst : Nat) : List (Nat × Bool) :=
  let n := (ringPlace dst + 7 - ringPlace src) % 7
  if n ≤ 3 then (List.range n).map fun i => (ringDie (ringPlace src + i), true)
  else (List.range (7 - n)).map fun i => (ringDie (ringPlace src + 7 - i), false)

/-- Cisterns by the output port that they stand at (R269): a hamlet's switch towards its die; a die's crossbar towards the slices of its own memory, towards the ring, and towards its fabric ports; a stop's links in the two directions, and its port to its die; a fabric port. -/
inductive Port where
  | hamlet (h : Nat)
  | home (die slice : Nat)
  | toRing (die : Nat)
  | toFabric (die : Nat)
  | link (die : Nat) (up : Bool)
  | fromRing (die : Nat)
  | fabric (port : Nat)
  deriving DecidableEq, Repr

/-- A cistern's number; 0 is none. -/
def Port.num : Port → Nat
  | .hamlet h => 1 + h
  | .home d i => 1000 + 64 * d + i % 64
  | .toRing d => 200 + d
  | .toFabric d => 210 + d
  | .link d up => 220 + 2 * d + up.toNat
  | .fromRing d => 240 + d
  | .fabric p => 300 + p

/-- The die that holds a physical address (R235). -/
def homeDie (pa : Nat) : Nat := if pa < hbmSize then pa / hbmDie else if cellarBase ≤ pa then (pa - cellarBase) / 2 ^ 26 else 6

/-- The slice of a die that a line's requests go to: which one is not architectural (R233). -/
def homeSlice (pa : Nat) : Nat := pa / 128 % 16

/-- From one die to another: the crossbar's port to the ring, the stops left, the port of the last. -/
def ringRoute (src dst : Nat) : List Port :=
  if src = dst then [] else [.toRing src] ++ (ringStops src dst).map (fun q => .link q.1 q.2) ++ [.fromRing dst]

/-- The cisterns from a core to a home in its package: hamlet switch, crossbar, ring stops crossed (R269, R425). -/
def cisternRoute (g : Group) (pa : Nat) : List Nat :=
  ((if g.service then [] else [Port.hamlet (g.core / 16)]) ++ ringRoute g.die (homeDie pa) ++ [Port.home (homeDie pa) (homeSlice pa)]).map Port.num

/-- The cisterns from a core to another package (R269, R431): those to the C-die of a fabric port, and the port; a protected world's requests pass the port uncombined. The manual does not say which of the 18 ports a request takes. -/
def fabricRoute (s : State) (g : Group) (world pkg : Nat) : List Nat :=
  let port := pkg % 18
  ((if g.service then [] else [Port.hamlet (g.core / 16)]) ++ ringRoute g.die (port / 3) ++ [Port.toFabric (port / 3)] ++
    (if protectedWorld s world then [] else [Port.fabric port])).map Port.num

def AOp.combines (aop : AOp) (reassoc : Bool) : Bool :=
  match aop with
  | .inc | .dec => false
  | .fadd => reassoc
  | _ => true

/-- R269, apart from the cistern; two requests through pages of different keys never merge, which the rule does not say (log entry 47). -/
def mayMerge (p q : FarReq) : Bool :=
  p.comb && q.comb && p.dest == q.dest && p.dest != .repl && p.pa == q.pa && p.key == q.key && p.aop == q.aop && p.size == q.size && p.reassoc == q.reassoc && p.scope == q.scope &&
    p.world == q.world && p.cmp.isNone && q.cmp.isNone && AOp.combines p.aop p.reassoc && p.old.isNone && q.old.isNone && !p.sent && !q.sent

/-- Q merges into P (R271, R272). -/
def mergeReq (p q : FarReq) (cist : Nat) : FarReq :=
  { p with
    operand := mergedOperand p.aop (8 * p.size) p.operand q.operand
    tree := .split p.tree q.tree p.operand cist
    hold := p.hold && q.hold }

/-- A new far request of an issue; those of one issue merge at the core as at a cistern (R268). `since`: the first identifier of this issue. -/
def addFar (s : State) (since n : Nat) (q : FarReq) : State :=
  match s.fars.find? fun p => decide (since ≤ p.1) && mayMerge p.2 q with
  | some p => { s with fars := Map.set p.1 (mergeReq p.2 q 0) s.fars }
  | none => { s with fars := Map.set n q s.fars }

/-- A result reaches a thread: its pending instruction holds it (R50), or the image of its saved group (R384, R387); a killed requester's is discarded (R274). -/
def landPend (s : State) (src : PendSrc) (ws : Cx → List RegWrite) (x : Cx) : State :=
  if (s.grp x.gid).stat = .saved then
    let s1 := s.modThr x.gid x.tid fun t => { t with pend := t.pend.filter fun p => p.src != src }
    match (s.thr x.gid x.tid).pend.find? fun p => p.src == src with
    | some p => redirect s1 x.gid fun s => lateWrites s x p.issue (ws x)
    | none => s1
  else s.modThr x.gid x.tid fun t => { t with pend := t.pend.map fun p => if p.src == src then { p with src := .here, writes := ws x } else p }

/-- A failure reaches its requester: it waits in the pending instruction of its threads, or is raised at once where nothing pends or the group is saved (R51, R437). -/
def failPend (s : State) (src : PendSrc) (who : Who) (pc : DWord) (raw : BitVec 128) (f : FaultInfo) : State :=
  if (s.grp? who.gid).isNone then s
  else
    let pends (x : Cx) : Bool := (s.thr x.gid x.tid).pend.any fun p => p.src == src
    if who.cxs.any pends ∧ (s.grp who.gid).stat ≠ .saved then
      who.cxs.foldl (fun st x => st.modThr x.gid x.tid fun t =>
        { t with pend := t.pend.map fun p => if p.src == src then { p with src := .failed f who.lanes } else p }) s
    else
      let m := laneMask who.lanes
      let s1 := who.cxs.foldl (fun st x => st.modThr x.gid x.tid fun t => { t with pend := t.pend.filter fun p => p.src != src }) s
      raise s1 who.gid who.clan m m pc raw false true f

/-- The result of one part reaches its requester. -/
def farReply (s : State) (who : Who) (id : Nat) (d : Option Reg) (size v : Nat) : State :=
  match d with
  | none => s
  | some r => who.cxs.foldl (fun st x => landPend st (.far id) (fun y => wrW s y (size == 8) r v) x) s

/-- A refusal at the home reaches every requester as its own deferred fault, with its own threads, place and address, and for a capability fault its own capability (R274, R437). -/
def farRefuse (f : FaultInfo) (world : Nat) : FarTree → State → State
  | .leaf who id _ pc raw ea cap, s =>
    failPend s (.far id) who pc raw { f with addr := if f.cls = 9 ∧ f.sub ≠ 3 then 0 else ea, cap := if f.cls = 1 then { cap with tag := false } else Cap.null }
  | .foreign src id _, s => sendPacket s (protectedWorld s world) src (.remoteAns src id (.refuse f.cls f.sub))
  | .split p q _ _, s => farRefuse f world q (farRefuse f world p s)

/-- What waits for accesses to be performed looks again: threads, and the holds of killed groups. -/
def wakeFences (s : State) : State := reapHolds (wakeAll s (· == .fence))

/-- Performs a request at its home (R266, R273, R274). -/
def performFar (s : State) (id : Nat) : State :=
  match Map.get? id s.fars with
  | none => s
  | some q =>
    if q.old.isSome then s
    else
      let l : Loc := .mem q.pa 0 q.key
      if eccLoc s l q.size then
        wakeFences (farRefuse { cls := 9, sub := 3 } q.world q.tree { s with fars := Map.del id s.fars })
      else
        let v := ofBytes (readVia s q.key q.pa q.size)
        let s1 := match atomNew q.aop q.cmp (8 * q.size) v q.operand with
          | some y => checkMonitors (dirtyPage (writeVia s q.key q.pa (bytesOf y q.size)) q.pa)
          | none => s
        wakeFences { s1 with fars := Map.set id { q with old := some v, cistern := 0, route := [] } s1.fars }

/-- A performed request's reply goes one step back: to its requester, or split between its two parts (R271). -/
def splitFar (s : State) (id : Nat) : State :=
  match Map.get? id s.fars with
  | none => s
  | some q =>
    match q.old with
    | none => s
    | some v =>
      let s1 := { s with fars := Map.del id s.fars }
      match q.tree with
      | .leaf who lid d _ _ _ _ => farReply s1 who lid d q.size v
      -- it answers once every member has applied it (R430)
      | .foreign src rid _ => if replOwes s 0 fabricCx.tid then s else sendPacket s1 (protectedWorld s q.world) src (.remoteAns src rid (.data (bytesOf v q.size)))
      | .split p r ap _ =>
        let (n, s2) := s1.newId
        let (m, s3) := s2.newId
        { s3 with fars := Map.set m { q with tree := r, old := some (laterReply q.aop (8 * q.size) v ap) } (Map.set n { q with tree := p } s3.fars) }

def FarTree.size : FarTree → Nat
  | .leaf .. | .foreign .. => 1
  | .split p q _ _ => 1 + p.size + q.size

/-- Splits everything beneath a performed request. -/
def splitAll (id : Nat) : Nat → State → State
  | 0, s => s
  | n + 1, s =>
    let before := s.nextId
    let s1 := splitFar s id
    if s1.nextId = before then s1 else splitAll (before + 1) n (splitAll before n s1)

/-- A request runs to its end at once, as a save's drain needs (R384). -/
def finishFar (s : State) (id : Nat) : State :=
  match Map.get? id s.fars with
  | none => s
  | some q => if q.dest = .here then splitAll id q.tree.size (performFar s id) else s

/-! The instructions. -/

def atomWay (s : State) (x : Cx) (m : MemOp) : Way :=
  wayOf s x (useCap s x m.cap) (memAddr s x m) (AType.bytes m.ty) (AType.bytes m.ty) [permLoad, permStore, permAtomic] .rmw true

/-- What an atomic asks for. -/
structure AtomAsk where
  /-- .acqrel: acquire and release without the sc fences (R265). -/
  ar : Bool
  aop : AOp
  comb : Bool
  hold : Bool
  reassoc : Bool
  d : Option Reg
  cmp : Option Reg
  a : Reg
  deriving DecidableEq, Repr

/-- The ordering that follows an atomic: an sc one has a fence after it, .acqrel has none (R248, R265). -/
def AtomAsk.after (q : AtomAsk) (ord : MOrd) : MOrd := if q.ar then .release else ord

/-- A far request of a performer leaves the core (R266-R268). -/
def sendAtom (h : Hdr) (m : MemOp) (q : AtomAsk) (since : Nat) (s0 st : State) (a : Actor) (dest : FarDest) (pa : Nat) (key : MemKey) (cap : Cap) (route : List Nat) : State :=
  let x := a.cx
  let wide := AType.bytes m.ty == 8
  let (i, s1) := st.newId
  let r : FarReq := {
    pa := pa, dest := dest, aop := q.aop, cmp := q.cmp.map (rdW s0 x wide), size := AType.bytes m.ty, operand := rdW s0 x wide q.a
    tree := .leaf a.who i q.d (pcOf st) (rawOf st) (BitVec.ofNat 64 (memAddr s0 x m)) cap, comb := q.comb, hold := q.hold, reassoc := q.reassoc
    scope := m.scope.code, world := worldOfCx s0 x, cistern := 0, free := false, arrived := i
    route := route, issue := since, old := none, key := key }
  let s2 := addFar s1 since i r
  match q.d with
  | some _ => landLater s2 a { h with look := if a.uni then 0 else h.look } (.far i)
  | none => advanceActor s2 a

def atomLocal (h : Hdr) (m : MemOp) (q : AtomAsk) (since : Nat) (s0 st : State) (a : Actor) (l : Loc) : State :=
  let x := a.cx
  let n := AType.bytes m.ty
  let wide := n == 8
  match l with
  | .mem pa 1 k =>
    -- a REPL page of another package's domain, or one that a member has yet to bind (R430)
    if replHeld st pa then sendAtom h m q since s0 st a .repl pa k Cap.null [] else near st x n wide
  | .mem pa _ k =>
    if m.far then sendAtom h m q since s0 st a .here pa k Cap.null (cisternRoute (s0.grp x.gid) pa) else near st x n wide
  | _ => near st x n wide
where
  near (st : State) (x : Cx) (n : Nat) (wide : Bool) : State :=
    if eccLoc st l n then
      addPend (advanceActor st a) x ⟨.failed { cls := 9, sub := 1 } a.mem, [], h.look.val, pcOf st, rawOf st, 0⟩
    else
      let (v, s1) := performAtom st a.writers l q.aop (q.cmp.map (rdW s0 x wide)) n (rdW s0 x wide q.a)
      let s2 := orderAfter (catchUp s1 x.gid l) a (q.after m.ord) (l.scope s0 m.scope)
      match q.d with
      | some d => land s2 a h (wrW s0 x wide d v)
      | none => advanceActor s2 a

/-- ATOM, ATOMX and RED (R266). -/
def atomic (h : Hdr) (m : MemOp) (q : AtomAsk) (s : State) : State :=
  let since := (s.cur.map Cur.no).getD s.nextId
  let n := AType.bytes m.ty
  issue h s (fun s a =>
      match atomWay s a.cx m with
      | .bad f => some f
      | .here l => if m.far then none else eccNow s a h l n
      | _ => none) fun s0 st a =>
    let x := a.cx
    match atomWay s0 x m with
    | .bad _ => st
    | .wait w => waitFor st a w
    | way =>
      let (s1, blocked) := orderBefore st a m.ord (way.scope s0 m.scope)
      if blocked then parkActor s1 a .fence
      else
        match way with
        | .here l => atomLocal h m q since s0 s1 a l
        | .away =>
          let c := useCap s0 x m.cap
          let o := xOff c (memAddr s0 x m)
          -- entries of its line leave the buffer first (R440)
          let s2 := wcFlushLines s1 x.gid c o n
          sendAtom h m q since s0 s2 a (.away c.xPkg c.xEntry c.xChk) o none c (fabricRoute s0 (s0.grp x.gid) (worldOfCx s0 x) c.xPkg)
        | _ => s1

def execAtom (h : Hdr) (m : MemOp) (aop : AOp) (comb hold reassoc ar : Bool) (d a : Reg) (s : State) : Host.Outcome State Fault Refusal :=
  .next (atomic h m ⟨ar, aop, comb, hold, reassoc, some d, none, a⟩ s)
def execAtomx (h : Hdr) (m : MemOp) (ar : Bool) (d cmp nv : Reg) (s : State) : Host.Outcome State Fault Refusal :=
  .next (atomic h m ⟨ar, .swapOp, false, false, false, some d, some cmp, nv⟩ s)
def execRed (h : Hdr) (m : MemOp) (aop : AOp) (comb hold reassoc : Bool) (a : Reg) (s : State) : Host.Outcome State Fault Refusal :=
  .next (atomic h m ⟨false, aop, comb, hold, reassoc, none, none, a⟩ s)

/-! WAITC. -/

def waitcWay (s : State) (x : Cx) (m : MemOp) : Way :=
  match wayOf s x (useCap s x m.cap) (memAddr s x m) (AType.bytes m.ty) (AType.bytes m.ty) [permLoad] .rd false with
  | .here l => if l.io then .bad (hitFault 2 7 (memAddr s x m)) else .here l
  | w => w

/-- R262, R275. An uncorrectable error of its location is always precise, also with a window, where R234 lets it be deferred (log entry 29). -/
def execWaitc (h : Hdr) (m : MemOp) (cmp : Cond) (sgn : Bool) (d c : Reg) (s : State) : Host.Outcome State Fault Refusal :=
  let n := AType.bytes m.ty
  .next (issue h s (fun s a => wayFault s a { h with look := 0 } n true (waitcWay s a.cx m)) fun s0 st a =>
    let x := a.cx
    match waitcWay s0 x m with
    | .wait w => waitFor st a w
    | .here l =>
      let (s1, blocked) := orderBefore st a (if m.ord == .sc then .sc else .plain) (l.scope s0 m.scope)
      -- the performer's own REPL writes reach its die's replica first (R250, R262)
      if blocked || edgeHeld s1 a then parkActor (sendAway s1) a .fence
      else
        let s1 := match l with | .mem _ 1 _ => replSettleDie s1 (replDie s1 x) | _ => s1
        let mon : Monitor := { who := a.who, loc := l, n := n, cmp := cmp, sgn := sgn, c := rdW s0 x (n == 8) c, d := d, foot := footOf st }
        let r := mon.test s1
        if r.2 then land s1 a h (wrW s0 x (n == 8) d r.1)
        else
          let s2 := a.cxs.foldl (fun s y => park s y .monitor) s1
          { s2 with monitors := s2.monitors ++ [mon] }
    | _ => st)

/-! SyncObjects. -/

/-- The status that refuses an operation on a SyncObject (R277, R279). -/
def syncRefusal (s : State) (x : Cx) (c : Cap) : Option Nat :=
  if !c.tag || c.otype != 14 || !c.has permInvoke then some stBADCAP
  else if s.worldOf c.base != worldOfCx s x && (s.obj? c.base).isSome then some stWORLD
  else if s.dead c.base then some stDEAD
  else none

def holderFor (a : Actor) : Holder := if a.uni then .clan a.cx.gid a.cx.cno else .thread a.cx.gid a.cx.tid

/-- A request takes its place in the hold order and is granted when it may be (R278). -/
def requestHold (st : State) (a : Actor) (so : Nat) (excl : Bool) (bind : Option (Nat × Option (Nat × Nat))) (d : Reg) : State :=
  let s1 := a.cxs.foldl (fun s y => park s y (.hold so)) st
  match s1.sync? so with
  | some o =>
    serveSync (s1.setBody so (.sync { o with waiters := o.waiters ++ [⟨holderFor a, excl, bind, a.who, d, footOf st⟩] })) so
  | none => st

def holdsNow (s : State) (so : Nat) (k : Holder) : Bool :=
  match s.sync? so with
  | some o => o.holds.any fun p => p.1 == k
  | none => false

/-- A byte range meets a window range (R224): any overlap counts as lying in a window (R278, log entry 33). -/
def inWindow (c : Cap) : Bool :=
  [padBase, hamBase, laneBase].any fun w => decide (c.base < w + 2 ^ 24) && decide (w < c.top)

/-- BIND (R278): its region capability is taken as the sieve leaves it, which R407 does not name (log entry 33). -/
def bindOne (d so : Reg) (slot : Fin 16) (r : Option Reg) (s0 st : State) (a : Actor) : State :=
  let x := a.cx
  let c := rdCap s0 x so
  match syncRefusal st x c with
  | some e => retire st a (wrStatus st x d e)
  | none =>
    let rng := r.map (useCap s0 x)
    match rng with
    | some k =>
      if !k.tag || k.sealed || inWindow k then retire st a (wrStatus st x d stBADCAP)
      else if holdsNow st c.base (holderFor a) then retire st a (wrStatus st x d stBADOP)
      else requestHold st a c.base true (some (slot.val, some (k.base, k.top))) d
    | none =>
      if holdsNow st c.base (holderFor a) then retire st a (wrStatus st x d stBADOP)
      else requestHold st a c.base true (some (slot.val, none)) d

/-- R278. -/
def execBind (h : Hdr) (d so : Reg) (slot : Fin 16) (r : Reg) (s : State) : Host.Outcome State Fault Refusal :=
  .next (issue h s noCheck fun s0 st a => bindOne d so slot (some r) s0 st a)
def execBindUn (h : Hdr) (d so : Reg) (slot : Fin 16) (s : State) : Host.Outcome State Fault Refusal :=
  .next (issue h s noCheck fun s0 st a => bindOne d so slot none s0 st a)
def execAcq (h : Hdr) (ex : Bool) (d so : Reg) (s : State) : Host.Outcome State Fault Refusal :=
  .next (issue h s noCheck fun s0 st a =>
    let c := rdCap s0 a.cx so
    match syncRefusal st a.cx c with
    | some e => retire st a (wrStatus st a.cx d e)
    | none =>
      if holdsNow st c.base (holderFor a) then retire st a (wrStatus st a.cx d stBADOP)
      else requestHold st a c.base ex none d)
def execRel (h : Hdr) (d so : Reg) (s : State) : Host.Outcome State Fault Refusal :=
  .next (issue h s noCheck fun s0 st a =>
    let c := rdCap s0 a.cx so
    match syncRefusal st a.cx c with
    | some e => retire st a (wrStatus st a.cx d e)
    | none =>
      match st.sync? c.base with
      | some o =>
        if o.holds.any fun p => p.1 == holderFor a then edge st a fun st =>
          retire (serveSync (st.setBody c.base (.sync { o with holds := o.holds.filter fun p => p.1 != holderFor a })) c.base) a
            (wrStatus st a.cx d stOK)
        else retire st a (wrStatus st a.cx d stBADOP)
      | none => retire st a (wrStatus st a.cx d stDEAD))

end Sys2Proof.Machine
end

