-- ==== Sys2Proof/Machine/Fetch.lean ====
section
/-! DEFINITION. Fetch of an instruction's words (R20, R39, R40). -/

namespace Sys2Proof.Machine

/-- What a fetch brings. -/
inductive Fetched where
  | ok (raw : BitVec 128) (foot : Nat)
  | fault (f : FaultInfo) (insn : BitVec 128) (noins : Bool)
  | absent (fm page : Nat)
  deriving DecidableEq, Repr

/-- One part of a fetch: the checks of R20, translation, the bytes. -/
def fetchPart (s : State) (x : Cx) (pcc : Cap) (n : Nat) : Except Fetched Nat :=
  let a := pcc.addr
  let pcc := if sieved s (worldOfCx s x) pcc then pcc.untag else pcc
  match capCheckAlign pcc a n 8 [permExec] with
  | some f => .error (.fault f 0 false)
  | none =>
    match locate s x .fetch a n with
    | .fault c u => .error (.fault { cls := c, sub := u, addr := if c = 2 then BitVec.ofNat 64 a else 0 } 0 false)
    | .absent f p => .error (.absent f p)
    | .at_ l => if eccLoc s l n then .error (.fault { cls := 9, sub := 1 } 0 false) else .ok (readAt s x l n)

/-- R40. -/
def fetch (s : State) (x : Cx) : Fetched :=
  let pcc := (s.thr x.gid x.tid).pcc
  match fetchPart s x pcc 8 with
  | .error e => e
  | .ok w =>
    let len := w % 4
    let foot := footOfLen len
    if len = 3 then .fault { cls := 6, sub := 1 } (BitVec.ofNat 128 w) true
    else if 32 < pcc.addr % 32 + foot then .fault { cls := 6, sub := 2 } (BitVec.ofNat 128 w) true
    else
      match fetchPart s x pcc (lenBits len / 8) with
      -- the words fetched so far stand in the record (R375)
      | .error (.fault f _ _) => .fault f (BitVec.ofNat 128 w) false
      | .error e => e
      | .ok w => .ok (BitVec.ofNat 128 w) foot

/-- The word at a thread's program counter, as far as it can be fetched. -/
def wordAt (s : State) (x : Cx) : BitVec 128 × Nat :=
  match fetch s x with
  | .ok raw foot => (raw, foot)
  | .fault _ insn _ => (insn, footOfLen (bitsAt insn.toNat 0 2))
  | .absent .. => (0, 8)

end Sys2Proof.Machine
end

