-- ==== Sys2Proof/Machine/Suspend.lean ====
section
/-! DEFINITION. Saving the groups of a unit (R213, R384) and taking threads out of what they wait for. -/

namespace Sys2Proof.Machine

/-- A thread that no longer waits stands at its instruction. -/
def Thread.stand (t : Thread) : Thread := { t with wait := .none, parkedAt := none, fetched := [] }

/-- Threads of a clan leave what they wait for, so that their instruction has had no effect (R8, R378): wait lists, gathers, the barrier count. A gather that loses all its members keeps its excluded lanes: the manual does not say (log entry 56). -/
def withdraw (s : State) (gid c : Nat) (m : BitVec 32) : State :=
  let out (w : Who) : Bool := w.gid == gid && w.clan == c && w.lanes.any fun l => m.getLsbD l
  let wasSvc := match (s.grp gid).svcBusy with | some (k, ls) => k == c && (ls &&& m) != 0 | none => false
  let s1 := unwaitWho (dropParts s out) out true
  let s2 := (List.range 32).foldl (fun st l =>
    if m.getLsbD l then
      match (st.thr gid (c * 32 + l)).wait with
      | .barrier false b _ => st.modGrp gid fun g =>
          let x := SMap.get Barrier.zero b g.bars
          { g with bars := SMap.put Barrier.zero b (if x.count ≤ 1 then { x with count := 0, exp := 0 } else { x with count := x.count - 1 }) g.bars }
      | .barrier true b0 _ =>
        let b := hbarKey (st.grp gid).stage b0
        { st with units := Map.modify (st.grp gid).unit (fun u =>
            let x := SMap.get Barrier.zero b u.hbars
            { u with hbars := SMap.put Barrier.zero b (if x.count ≤ 1 then { x with count := 0, exp := 0 } else { x with count := x.count - 1 }) u.hbars }) st.units }
      | _ => st
    else st) s1
  let s3 := s2.modGrp gid fun g => { g with
    threads := g.threads.map fun t => (t.1, if t.1 / 32 = c ∧ m.getLsbD (t.1 % 32) then t.2.stand else t.2)
    svcWait := g.svcWait.filter fun w => !(w.1 == c && (w.2 &&& m) != 0) }
  let less (g : Gather) : Option Gather :=
    if (g.waiting &&& m) == 0 then some g
    else if (g.waiting &&& ~~~m) == 0 && g.excluded == 0 then none
    else some { g with waiting := g.waiting &&& ~~~m, formed := false, seq := 0, src := none }
  let s4 := s3.modClan gid c fun cl => { cl with gathers := cl.gathers.filterMap less }
  if wasSvc then svcDone s4 gid else s4

/-! Saving. -/

/-- The waits that a saved image keeps (R383), and those of an OBJ that goes on without its thread. -/
def Wait.kept : Wait → Bool
  | .gather | .barrier .. | .release _ | .recv _ | .reply _ | .obj _ => true
  | _ => false

/-- Every read that a device has yet to answer for a group is answered. -/
def answerIo (s : State) (gid : Nat) : State :=
  (s.ios.filter fun q => q.2.who.gid == gid).foldl (fun st q =>
    let (k, s1) := st.draw
    ioDeliver s1 q.1 ((List.range q.2.n).map (Config.deviceByte k))) s

/-- The reads that devices have yet to answer for a group are answered now, the second of two after the first (R144), so that the save completes every load (R384). -/
def answerIos (s : State) (gid : Nat) : State := answerIo (answerIo s gid) gid

/-- Every on-package far atomic of a group completes (R384). -/
def drainFars (s : State) (gid : Nat) : State :=
  (s.fars.filter fun q => q.2.tree.inGroup gid).foldl (fun st q => finishFar st q.1) s

/-- Results that are here are written; failures become deferred records; what another package still owes stays pending (R384, R387). -/
def landAll (s : State) (gid : Nat) : State :=
  (s.grp gid).threads.foldl (fun st t =>
    let x : Cx := ⟨gid, t.1 / 32, t.1 % 32⟩
    let s1 := (t.2.pend.filter fun p => p.src == .here).foldl (fun st p => lateWrites st x p.issue p.writes) st
    let s2 := s1.modThr gid t.1 fun t => { t with pend := t.pend.filter fun p => match p.src with | .far _ | .remote _ => true | _ => false }
    t.2.pend.foldl (fun st p =>
      match p.src with
      | .failed f set => if set.headD 32 = x.lane then raise st gid x.cno (laneMask set) (laneMask set) p.pc p.raw false true f else st
      | _ => st) s2) s

/-- Threads are set back to their instructions, but for the waits that the image keeps; pending gathers keep their members (R175, R384). A formed gather whose execution is parked goes with its excluded lanes, and its members arrive anew: the manual does not say (log entry 41). -/
def setBack (s : State) (gid : Nat) : State :=
  s.modGrp gid fun g =>
    let waits (c l : Nat) : Bool := ((Map.get? (c * 32 + l) g.threads).map fun t => t.wait == .gather).getD false
    let back (c : Nat) (q : Gather) : Option Gather := if (maskLanes q.waiting).all (waits c) then some { q with formed := false, seq := 0, src := none } else none
    let clans := g.clans.map fun c => (c.1, { c.2 with gathers := c.2.gathers.filterMap (back c.1) })
    let inGather (t : Nat) : Bool := clans.any fun c => c.1 == t / 32 && c.2.gathers.any fun q => q.waiting.getLsbD (t % 32)
    { g with
      clans := clans
      svcWait := []
      threads := g.threads.map fun t => (t.1,
        { t.2 with
          parkedAt := none
          fetched := []
          wait := if !t.2.wait.kept || (t.2.wait == .gather && !inGather t.1) then .none else t.2.wait }) }

/-- Steps 1 and 2 of a save (R384): what the group's devices and homes owe is completed, its stores are performed at package scope and its remote writes leave, its threads go back. From here its events go to the slot; the group's own record here stands for the slot's contents until they are written. -/
def beginSave (s : State) (gid : Nat) : State :=
  match s.grp? gid with
  | none => s
  | some g =>
    if g.stat = .saved ∨ g.stat = .saving then s
    else
      let s1 := landAll (drainFars (answerIos s gid) gid) gid
      let s2 := replSettle (wcDrain s1 (coreKey g) (fun _ => true))
      let mons := (s2.monitors.filter fun m => m.who.gid == gid).map fun m => (m.who.clan, m.who.lanes, m.who.uni)
      let s3 := (unwait (setBack (dropParts s2 (·.gid == gid)) gid) gid false).modGrp gid fun k => { k with rewaits := mons }
      writeRecord (s3.modGrp gid fun k => { k with stat := .saving }) gid

/-- Steps 3 and 4 of a save (R384): the image is written and the core's resources are free. -/
def writeSave (s : State) (gid : Nat) : State :=
  match s.grp? gid with
  | none => s
  | some g =>
    if g.stat ≠ .saving then s
    else
      let s1 := landAll (touchCore s gid) gid
      let s2 := s1.modGrp gid fun k =>
        { k with
          stat := .saved
          svcBusy := if s1.replies.any fun r => r.2.svc.isSome && r.2.op.who.gid == gid then k.svcBusy else none }
      let s3 := if slotMapped s2 gid then storeImage s2 gid 3 true else s2
      writeRecord s3 gid

/-- A whole save. -/
def saveGroup (s : State) (gid : Nat) : State := writeSave (beginSave s gid) gid

/-- A unit whose groups have all been written is a saved one; an identifier orders it among them (R213). -/
def unitSaved (s : State) (uid : Nat) : State :=
  let (n, s1) := s.newId
  { s1 with units := Map.modify uid (fun u => { u with saved := true, order := n, toSave := false }) s1.units }

/-- Every group of a unit is saved together (R213). -/
def saveUnit (s : State) (uid : Nat) : State :=
  match Map.get? uid s.units with
  | none => s
  | some u => if u.saved then s else unitSaved (u.groups.foldl saveGroup s) uid

/-- Saves every unit with a group that a test names, but for the unit of the performing thread: that one is saved by the dispatcher after the instruction (GROUP_SAVE). -/
def saveOthers (s : State) (self : Nat) (f : Group → Bool) : State :=
  (s.units.filter fun u => !u.2.saved && u.1 != self && u.2.groups.any fun g => f (s.grp g)).foldl (fun st u => saveUnit st u.1) s

end Sys2Proof.Machine
end

