-- ==== Sys2Proof/Machine/Skip.lean ====
section
/-! DEFINITION. The destinations of an instruction as SKIP zeroes them (R377, R378). -/

namespace Sys2Proof.Machine

/-- A field of MOD replaced. -/
def Raw.withMod (r : Raw) (lo n v : Nat) : Raw := { r with mod := r.mod - bitsAt r.mod lo n * 2 ^ lo + v * 2 ^ lo }

/-- The field that must name a q register replaced by q0: SRCC of COLL, SRCB elsewhere. -/
def Raw.withQ (r : Raw) : Raw := if r.op = 0x30C then { r with ext := r.ext - bitsAt r.ext 0 10 + 0x340 } else { r with srcb := 0x340 }

/-- A field of the extension replaced. -/
def Raw.withExt (r : Raw) (lo n v : Nat) : Raw := { r with ext := r.ext - bitsAt r.ext lo n * 2 ^ lo + v * 2 ^ lo }

/-- The modifier fields of an opcode that have reserved values: in MOD, then in the extension, by lowest bit and width. -/
def modFields (op : Nat) : List (Nat × Nat) × List (Nat × Nat) :=
  match op with
  | 0x007 | 0x008 => ([(9, 4), (0, 2)], [])
  | 0x010 | 0x086 => ([(9, 4), (3, 3)], [])
  | 0x090 | 0x091 | 0x092 => ([(9, 4), (2, 4)], [])
  | 0x10A => ([(0, 4)], [])
  | 0x10D | 0x213 | 0x214 => ([(0, 2)], [])
  | 0x10E => ([(5, 2), (2, 3)], [])
  | 0x186 | 0x188 => ([(9, 4), (2, 3)], [(60, 4)])
  | 0x189 => ([(9, 4), (2, 3)], [(61, 3)])
  | 0x200 => ([(0, 4)], [])
  | 0x207 => ([(7, 3)], [])
  | 0x20B => ([(8, 5)], [(10, 4)])
  | 0x20C | 0x20D | 0x20F => ([(9, 4), (7, 2)], [])
  | 0x20E => ([(9, 4), (7, 2)], [(20, 4), (24, 2)])
  | 0x211 | 0x281 | 0x282 | 0x283 | 0x288 | 0x289 => ([(11, 2)], [])
  | 0x280 => ([(11, 2), (7, 3)], [])
  | 0x285 | 0x286 => ([(10, 3), (6, 4)], [])
  | 0x300 => ([(10, 3), (1, 2)], [])
  | 0x301 | 0x302 => ([(1, 2)], [])
  | 0x303 => ([(1, 2)], [(58, 4)])
  | 0x305 | 0x30A => ([(2, 2)], [])
  | 0x309 => ([(10, 3)], [])
  | 0x30C => ([(10, 3), (6, 4), (3, 3)], [])
  | op => if op / 128 = 3 then ([(9, 4), (2, 3)], []) else ([(9, 4)], [])

/-- The instructions that a word with one reserved modifier value, or with no q register where one must stand, names with each legal one in its place. -/
def repairs (r : Raw) : List Instr :=
  let fs := modFields r.op
  (fs.1.flatMap fun f => (List.range (2 ^ f.2)).filterMap fun v => parse (Raw.withMod r f.1 f.2 v)) ++
    (fs.2.flatMap fun f => (List.range (2 ^ f.2)).filterMap fun v => parse (Raw.withExt r f.1 f.2 v)) ++ (parse (Raw.withQ r)).toList

/-- The instruction whose description gives the fields of a word, legal or not: a reserved modifier is read as a 32-bit form (log entry 35). -/
def described (r : Raw) : Option Instr :=
  let r := if hasForm r.op r.len then r else { r with len := if hasForm r.op 0 then 0 else if hasForm r.op 1 then 1 else 2 }
  let plain := if r.op / 128 = 3 then 4 else 2
  (parse r <|> parse (Raw.withMod r 9 4 plain) <|> parse (Raw.withMod (Raw.withMod r 9 4 plain) 0 3 0) <|>
    parse (Raw.withMod r 0 13 (plain * 2 ^ 9)) <|> parse (Raw.withMod r 0 13 0) <|> parse { Raw.withMod r 0 13 0 with ext := 0 } <|> parse (Raw.withQ r))

/-- The predicates that a word's opcode writes, by the fields that name them. -/
def predDests (r : Raw) : List Pred :=
  match r.op with
  | 0x001 => if r.mb 8 && ((qOf r.dst).isSome || (qOf r.srca).isSome) then [r.mp 5] else []
  | 0x006 => [r.mp 2]
  | 0x010 | 0x086 => [r.mp 6, r.mp 0]
  | 0x022 | 0x207 | 0x20A => [r.mp 10]
  | 0x024 => (List.range 7).filterMap fun i => if r.mb i then some (Fin.ofNat 8 i) else none
  | 0x10A | 0x280 => [r.mp 4]
  | 0x20C | 0x20D => if r.mb 6 then [r.mp 3] else []
  | 0x213 => [r.mp 2]
  | 0x281 => [r.mp 8]
  | _ => []

/-- The register destinations, as operands. -/
def regDests (raw : BitVec 128) (slot : DWord) (i : Instr) : List OpUse :=
  let ds := i.operands.filter OpUse.dst
  match i with
  | .mrow .. => ds.map fun o => { o with count := if bitsAt slot.toNat 8 4 = 0 then 4 else 2 }
  | .ecall _ m info rnw rnc =>
    [.status m.d] ++ (OpUse.words m.words rnw true ++ OpUse.caps m.caps rnc true).filter OpUse.dst ++ [.uni info]
  | .exportDrop .. => []
  | _ => if bitsAt raw.toNat 0 2 = 3 then [] else ds

/-- Zero to the registers of one destination (R377). -/
def zeroDest (s : State) (x : Cx) (o : OpUse) : List RegWrite :=
  (List.range o.count).flatMap fun i =>
    let r := Reg.plus o.r i
    match r with
    | .c _ | .kc _ => wrCap s x r Cap.null
    | .w n => if n.val = 12 ∨ n.val = 13 then wrCap s x r Cap.null else if o.wide then wr64 s x r 0 else wr32 s x r 0
    | r => if o.wide then wr64 s x r 0 else wr32 s x r 0

/-- Zero to every destination of a word (R377): fields that name no register the description allows are left. -/
def zeroDests (s : State) (x : Cx) (raw : BitVec 128) (slot : DWord) : List RegWrite :=
  let r := Raw.ofWord raw.toNat
  let t := s.thr x.gid x.tid
  if (opForm? r.op).isNone then []
  else
    match described r with
    | none => []
    | some i =>
      ((regDests raw slot i).filter fun o => o.reason (bitsAt r.mod 13 1 == 1) t.edepth (declared s x) == 0).flatMap (zeroDest s x) ++
        (predDests r).map fun p => RegWrite.p p false

end Sys2Proof.Machine
end

