-- ==== Sys2Proof/Machine/Pages.lean ====
section
/-! DEFINITION. Page tables as the device reads and changes them for OBJ .map, .unmap and .freeze (R236, R237, R240, R351). -/

namespace Sys2Proof.Machine

/-- The places of the entries of a table that are not zero. -/
def tableEntries (s : State) (tbl : Nat) : List Nat :=
  ((s.mem.filter fun c => decide (tbl ≤ c.1) && decide (c.1 < tbl + 8192)).map fun c => (c.1 - tbl) / 8).eraseDups

/-- A valid leaf: its virtual address, level, the address of its entry, and the entry. -/
structure LeafAt where
  va : Nat
  level : Nat
  at_ : Nat
  e : Pte
  deriving DecidableEq, Repr

/-- The valid leaves beneath a table of a level. -/
def leavesFrom (s : State) : Nat → Nat → Nat → List LeafAt
  | 0, _, _ => []
  | l + 1, va, tbl =>
    (tableEntries s tbl).flatMap fun i =>
      let a := tbl + 8 * i
      let e : Pte := ⟨readNum s a 8⟩
      let v := va + i * 2 ^ (17 + 10 * l)
      if !e.v then [] else if e.leaf then [⟨v, l + 1, a, e⟩] else leavesFrom s l v e.addr

/-- The tables beneath a table of a level. -/
def tablesFrom (s : State) : Nat → Nat → List Nat
  | 0, _ => []
  | l + 1, tbl =>
    (tableEntries s tbl).flatMap fun i =>
      let e : Pte := ⟨readNum s (tbl + 8 * i) 8⟩
      if e.v && !e.leaf then e.addr :: tablesFrom s l e.addr else []

/-- Every valid leaf of every AddressSpace, with the AddressSpace. -/
def allLeaves (s : State) : List (Nat × LeafAt) :=
  s.objs.flatMap fun o =>
    match o.2.body with
    | .aspace a => (leavesFrom s 4 0 a.root).map fun l => (o.1, l)
    | _ => []

/-- Bytes of a page of a level. -/
def pageBytes (level : Nat) : Nat := 2 ^ (7 + 10 * level)

/-- A leaf maps a physical address; an absent file page lies nowhere (R237). -/
def LeafAt.maps (l : LeafAt) (pa : Nat) : Bool := !l.e.fabs && decide (l.e.addr ≤ pa) && decide (pa < l.e.addr + pageBytes l.level)

/-- The leaves that map a part of a physical range. -/
def leavesOf (s : State) (pa n : Nat) : List (Nat × LeafAt) :=
  (allLeaves s).filter fun l => !l.2.e.fabs && decide (l.2.e.addr < pa + n) && decide (pa < l.2.e.addr + pageBytes l.2.level)

/-- The key by which HBM is reached that no translation names: that of a leaf that maps it, or that of a KEY 0 page of its Frame's world (R455). -/
def keyAt (s : State) (pa : Nat) : MemKey :=
  match (allLeaves s).find? fun l => l.2.maps pa with
  | some l => pageKey s l.2.e.world l.2.e.key pa
  | none =>
    match s.objs.find? fun o => match o.2.body with | .frame f => decide (f.pa ≤ pa) && decide (pa < f.pa + 2 ^ f.log2) | _ => false with
    | some o => pageKey s o.2.world 0 pa
    | none => none

def writePte (s : State) (at_ raw : Nat) : State := writePhys s at_ (bytesOf raw 8)

/-- A zeroed table for an AddressSpace: one that it keeps, or from its Untyped (R351). -/
def newTable (s : State) (asp : Nat) : Option (Nat × State) :=
  match s.obj? asp with
  | some ⟨_, _, _, src, .aspace a⟩ =>
    match a.free with
    | t :: rest => some (t, zeroPhys (s.setBody asp (.aspace { a with free := rest })) t 8192)
    | [] =>
      match allocFrom s src 8192 8192 with
      | some (t, s1) => some (t, zeroPhys s1 t 8192)
      | none => none
  | _ => none

/-- How a place for a leaf is found (R351): the address of its entry in a state with the missing tables, or a status. -/
def leafPlace (asp level va : Nat) : Nat → Nat → State → Except Nat (Nat × State)
  | 0, _, _ => .error stBADOP
  | l + 1, tbl, s =>
    let a := tbl + 8 * (va / 2 ^ (17 + 10 * l) % 1024)
    if l + 1 = level then .ok (a, s)
    else
      let e : Pte := ⟨readNum s a 8⟩
      if e.v && e.leaf then .error stBADOP
      else if e.v then leafPlace asp level va l e.addr s
      else
        match newTable s asp with
        | some (t, s1) => leafPlace asp level va l t (writePte s1 a (Pte.mkTable t))
        | none => .error stFULL

/-- Writes a leaf in place of what its entry holds (R351): a table with a valid leaf beneath it stays; the tables of an empty one stay with the AddressSpace. -/
def putLeaf (s : State) (asp level at_ raw : Nat) : Except Nat State :=
  let e : Pte := ⟨readNum s at_ 8⟩
  if e.v && !e.leaf then
    if (leavesFrom s (level - 1) 0 e.addr).isEmpty then
      let ts := e.addr :: tablesFrom s (level - 1) e.addr
      match s.aspace? asp with
      | some a => .ok (writePte (s.setBody asp (.aspace { a with free := a.free ++ ts })) at_ raw)
      | none => .error stBADOP
    else .error stBADOP
  else .ok (writePte s at_ raw)

/-- The leaf whose page begins at a virtual address. -/
def leafAt? (s : State) (asp va : Nat) : Option LeafAt :=
  match s.aspace? asp with
  | none => none
  | some a =>
    match walkFrom s va 4 a.root with
    | .leaf e lvl at_ => if va % pageBytes lvl = 0 then some ⟨va, lvl, at_, e⟩ else none
    | _ => none

end Sys2Proof.Machine
end

