-- ==== Sys2Proof/Machine/Teardown.lean ====
section
/-! DEFINITION. The end of objects (R318, R342, R354, R363, R457, R459), and OBJs that complete later. -/

namespace Sys2Proof.Machine

/-- A pending OBJ completes with a status; its thread may be saved or gone. -/
def finishObj (s : State) (n st : Nat) (ws : State → Cx → List RegWrite) : State :=
  match Map.get? n s.pendObjs with
  | none => s
  | some p =>
    let s1 := { s with pendObjs := Map.del n s.pendObjs }
    redirect s1 p.who.gid fun s =>
      let who := { p.who with lanes := p.who.lanes.filter fun l => (s.thr p.who.gid (p.who.clan * 32 + l)).wait == .obj n }
      completeWith s who (fun x => ws s x ++ wrStatus s x p.d st) p.foot

/-! Queues. -/

/-- The queue-misuse fault of threads that wait on a Queue at its teardown (R318). -/
def deadFault (s : State) (w : Who) : State :=
  if (s.grp? w.gid).isNone then s
  else
    let m := laneMask w.lanes
    let x : Cx := ⟨w.gid, w.clan, w.lanes.headD 0⟩
    let pc := BitVec.ofNat 64 (s.thr x.gid x.tid).pcc.addr
    raise (withdraw s w.gid w.clan m) w.gid w.clan m m pc (wordAt s x).1 false false { cls := 7, sub := 4 }

/-- The sets that wait for a free entry of a Queue (R332, R443). -/
def roomWaiters (s : State) (qh : Nat) : List Who :=
  s.groups.flatMap fun g => g.2.clans.flatMap fun c =>
    (c.2.gathers.filter fun q => q.formed && (maskLanes q.waiting).any fun l => (s.thr g.1 (c.1 * 32 + l)).wait == .room qh).map
      fun q => ⟨g.1, c.1, maskLanes q.waiting, true⟩

def QWaiter.who : QWaiter → Who
  | .push w _ _ _ => w
  | .pop w _ _ _ => w

/-- A Queue that is torn down is no Endpoint's ring (R361). -/
def unring (s : State) (qh : Nat) : State :=
  { s with objs := s.objs.map fun o =>
      match o.2.body with
      | .endpoint e => if e.ring = some qh then (o.1, { o.2 with body := .endpoint { e with ring := none } }) else o
      | _ => o }

/-- The completions that were to go to a Queue go nowhere, whatever comes to lie at its address (R318, R342). -/
def unpost (s : State) (qh : Nat) : State :=
  { s with
    copies := s.copies.map fun r => (r.1, if r.2.comp = qh then { r.2 with comp := 0 } else r.2)
    closed := s.closed.map fun c => { c with comp := c.comp.map fun p => if p.1 = qh then (0, p.2) else p }
    objs := s.objs.map fun o =>
      match o.2.body with
      | .queue q => if q.pair = some qh then (o.1, { o.2 with body := .queue { q with pair := none } }) else o
      | _ => o }

/-- The pending rounds of a COLL Queue that is torn down end with MEMBER, whose entries the pops that wait there take (R443, R476). -/
def tearRounds (s : State) (qh : Nat) : State :=
  (s.colls.filter fun c => c.queue == qh).foldl (fun st c => postCompletion st qh c.round 8 allOnes64) { s with colls := s.colls.filter fun c => c.queue != qh }

def tearQueue (s0 : State) (qh : Nat) : State :=
  let s := tearRounds s0 qh
  match s.queue? qh with
  | none => s
  | some q =>
    let ws := q.waiters.map QWaiter.who ++ roomWaiters s qh
    let s1 := unring (unpost s qh |>.modObj qh fun o => { o with torn := true, body := .queue { q with waiters := [], ringOf := none } }) qh
    hostLost (ws.foldl deadFault s1) (q.es.map QEntry.host)

def tearSync (s : State) (h : Nat) : State :=
  match s.sync? h with
  | none => s
  | some so =>
    let s1 := s.modObj h fun o => { o with torn := true, body := .sync { so with holds := [], waiters := [] } }
    so.waiters.foldl (fun st r => completeWith st r.who (fun x => wrStatus st x r.d stDEAD) r.foot) s1

/-! Groups and launches. -/

/-- Messages held for receivers that end are lost; their calls fail (R358, R363). -/
def dropHeld (s : State) (f : RecvOp → Bool) : State :=
  (s.held.filter fun p => f p.1).foldl (fun st p => match p.2.reply with | some r => failReply st r | none => st)
    { s with held := s.held.filter fun p => !f p.1 }

def killWhere (s : State) (f : Group → Bool) : State :=
  (s.groups.filter fun g => f g.2).foldl (fun st g => killGroup (dropHeld st fun r => r.who.gid == g.1) g.1) s

/-- Unplaced launches are discarded (R217). -/
def discardLaunches (s : State) (f : Launch → Bool) : State :=
  { s with objs := s.objs.map fun o =>
      match o.2.body with
      | .sched q =>
        let cut := match q.queue with | l :: _ => f l | [] => false
        (o.1, { o.2 with body := .sched { q with
          queue := q.queue.filter fun l => !f l
          nextUnit := if cut then 0 else q.nextUnit
          taken := if cut then false else q.taken } })
      | _ => o }

/-! The Carter's requests of a Context that ends (R342). -/

/-- Sets the presence bit of a line; accesses parked on it go on (R229, R230). -/
def presentLine (s : State) (gid ln : Nat) : State :=
  wakeAll (redirect s gid fun s => s.modGrp gid fun g => { g with absent := SMap.put false ln false g.absent }) (· == .line gid ln)

def freeLines (s : State) (ls : List (Nat × Nat)) : State := ls.foldl (fun st l => presentLine st l.1 l.2) s

def stopCopies (s : State) (f : CopyReq → Bool) : State :=
  (s.copies.filter fun r => f r.2).foldl (fun st r =>
    let s1 := freeLines { st with copies := Map.del r.1 st.copies } r.2.lines
    hostLost (wakeAll (dropReserve s1 r.2.comp) fun w => match w with | .room _ => true | _ => false) [r.2.host]) s

/-! Objects. -/

/-- A fault record that waits in a sender list when its Endpoint is torn down: it goes to the Almanac, and the group that it holds is killed (R376). -/
def failRecord (s : State) : Sender → State
  | .device gid fid _ die world bs =>
    let s1 := almanac s die world 1 5 bs
    if fid = 0 then s1 else killGroup (dropHeld s1 fun r => r.who.gid == gid) gid
  | _ => s

/-- The end of an Endpoint (R354, R376). -/
def endEndpoint (s : State) (h : Nat) : State :=
  match s.ep? h with
  | none => s
  | some e => e.senders.foldl failRecord (tearEndpoint s h)

/-- The memory key of a protected world ends with its last Context (R457). -/
def dropMemoryKey (s : State) (world : Nat) : State :=
  if s.objs.any fun o => o.2.world == world && !o.2.torn && match o.2.body with | .context _ => true | _ => false then s
  else { s with keys := s.keys.filter fun k => !(k.2.role == 0 && k.2.world == world) }

/-- A Context (R354). -/
def tearContext (s : State) (h : Nat) : State :=
  let s1 := s.modObj h fun o => { o with torn := true }
  let s2 := killWhere (dropHeld s1 fun r => r.ctx == h) fun g => g.ctx == h
  let s3 := discardLaunches s2 fun l => l.ctx == h
  let owned := s3.objs.filterMap fun (o : Nat × Obj) => match o.2.body with | .endpoint e => if e.owner == some h && !o.2.torn then some o.1 else none | _ => none
  let s4 := owned.foldl endEndpoint s3
  let s5 := stopCopies s4 fun r => r.ctx == h
  let s6 := (s5.replies.filter fun r => r.2.taken == some h).foldl (fun st r => failReply st r.1) s5
  let s7 := { s6 with exports := s6.exports.filter fun e => e.2.ctx != h }
  let changes := s7.odtChanges.filter fun c => c.ctx == h
  let s8 := changes.foldl (fun st c => finishObj st c.op stOK fun _ _ => [])
    { s7 with odtChanges := s7.odtChanges.filter (fun c => c.ctx != h), odtLag := s7.odtLag.filter fun l => l.1 != h }
  dropMemoryKey s8 (s.worldOf h)

/-- A SchedContext: its launches and groups as a Context's (R354). -/
def tearSched (s : State) (h : Nat) : State :=
  let s1 := s.modObj h fun o => { o with torn := true }
  discardLaunches (killWhere s1 fun g => g.launch.sched == h) fun l => l.sched == h

/-- A KeySlot that a leaf or a stationary-buffer descriptor names (R459). -/
def keyNamed (s : State) (index h : Nat) : Bool :=
  (allLeaves s).any (fun l => l.2.e.key == index && index != 0) ||
    s.groups.any fun g => g.2.sbufs.any fun b => match b.2.enc with | some d => d.ks.base == h | none => false

def markTorn (s : State) (h : Nat) : State := s.modObj h fun o => { o with torn := true }

/-- OBJ .teardown of a live object (R354): its status and the state after. -/
def teardown (s : State) (h : Nat) : Nat × State :=
  match s.obj? h with
  | none => (stDEAD, s)
  | some o =>
    if o.torn then (stDEAD, s)
    else
      match o.body with
      | .endpoint _ => (stOK, endEndpoint s h)
      | .notification _ => (stOK, tearNotification s h)
      | .context _ => (stOK, tearContext s h)
      | .sched _ => (stOK, tearSched s h)
      | .queue _ => (stOK, tearQueue s h)
      | .sync _ => (stOK, tearSync s h)
      | .keyslot k =>
        if keyNamed s k.index h then (stBADOP, s)
        else (stOK, markTorn { s with keys := Map.del k.index s.keys } h)
      | .grant g => (stOK, s.modObj h fun o => { o with torn := true, body := .grant { g with frame := none } })
      | .frame f => (stOK, s.modObj h fun o => { o with torn := true, body := .frame { f with frozen := false, repl := none } })
      | _ => (stOK, markTorn s h)

end Sys2Proof.Machine
end

