-- ==== Sys2Proof/Machine/FaultAct.lean ====
section
/-! DEFINITION. Answers to fault records (R377, R378): their statuses and effects. -/

namespace Sys2Proof.Machine

/-- A record whose threads stood at instructions of their own: gather mismatch, watchdog (R378). -/
def FaultRec.parked (r : FaultRec) : Bool := r.info.cls == 4 || r.info.cls == 10

/-- SKIP of one thread of F (R377, R378). -/
def skipThread (s : State) (x : Cx) (r : FaultRec) : State :=
  let own := if r.parked then wordAt s x else (r.insn, footOfLen (bitsAt r.insn.toNat 0 2))
  let s1 := applyWrites s x (zeroDests s x own.1 (if r.parked then slotValue s x.gid own.1 else r.slotv))
  if r.deferred then s1 else advance s1 x own.2

/-- RESUME of one thread of F; of a deferred record it also zeroes the destinations (R378). -/
def resumeThread (s : State) (x : Cx) (r : FaultRec) (pc : DWord) : State :=
  let s1 := if r.deferred then applyWrites s x (zeroDests s x r.insn r.slotv) else s
  s1.modThr x.gid x.tid fun t => { t.stand with released := false, pcc := t.pcc.withAddr pc.toNat }

/-- The effect of an accepted RESUME, SKIP or RETRY on a resident group: the record goes, and the group runs on when none is left (R374, R377). -/
def applyAnswer (s : State) (gid : Nat) (r : FaultRec) (act : Nat) (pc : DWord) : State :=
  let fs := (maskLanes r.fmask).filter fun l => (s.thr gid (r.clan * 32 + l)).live
  let each (f : State → Cx → State) (s : State) : State := fs.foldl (fun st l => f st ⟨gid, r.clan, l⟩) s
  let s1 :=
    match act with
    | 0 => each (fun st x => resumeThread st x r pc) (if r.deferred then withdraw s gid r.clan (laneMask fs) else s)
    | 1 => each (fun st x => skipThread st x r) s
    | _ => s
  s1.modGrp gid fun g => { g with faults := g.faults.filter fun q => q.fid != r.fid }

/-- KILL (R377, R379): messages held for the group's receivers go on to others. -/
def killNow (s : State) (gid : Nat) : State := killGroup (dropHeld s fun q => q.who.gid == gid) gid

/-- The answers given while a group was saved take effect at its restore, in FID order (R377, R386). -/
def applyAnswers (s : State) (gid : Nat) : State :=
  (s.grp gid).faults.foldl (fun st r =>
    match r.answer with
    | some (3, _) => if (st.grp? gid).isSome then killNow st gid else st
    | some (4, _) => if (st.grp? gid).isSome then (teardown st (st.grp gid).ctx).2 else st
    | some (a, pc) => if (st.grp? gid).isSome then applyAnswer st gid r a pc else st
    | none => st) s

/-- The pending record of a Context with a FID, and its group. -/
def pendingRecord (s : State) (ctx fid : Nat) : Option (Nat × FaultRec) :=
  (s.groups.filter fun g => g.2.ctx == ctx).findSome? fun g =>
    (g.2.faults.find? fun r => r.fid == fid && r.answer.isNone).map fun r => (g.1, r)

/-- OBJ .faultact past the gate (R377): its status and the state after. -/
def faultact (s : State) (ctx : Nat) (narg : Nat) (w : List Word) : Nat × State :=
  let a (i : Nat) : Nat := (w[i]?.getD 0).toNat
  let act := a 0
  let fid := a 1 + a 2 * 2 ^ 32
  if narg = 0 ∨ 5 < act ∨ narg ≠ (if act = 0 then 5 else 3) ∨ fid = 0 then (stBADOP, s)
  else
    match pendingRecord s ctx fid with
    | none => (stDEAD, s)
    | some (gid, r) =>
      if (act ≤ 2 ∧ r.noins) ∨ (act = 2 ∧ r.deferred) then (stBADOP, s)
      else
        let pc := BitVec.ofNat 64 (a 3 + a 4 * 2 ^ 32)
        let saved := (s.grp gid).stat == .saved
        let answer (s : State) : State :=
          writeRecord (s.modGrp gid fun g => { g with faults := g.faults.map fun q => if q.fid = fid then { q with answer := some (act, pc) } else q }) gid
        match act with
        -- of a saved group, at its restore
        | 3 => (stOK, if saved then answer s else killNow s gid)
        | 4 => (stOK, if saved then answer s else (teardown s ctx).2)
        | 5 =>
          let uid := (s.grp gid).unit
          if s.cur.any fun c => (s.grp c.gid).unit == uid then (stOK, { s with units := Map.modify uid (fun u => { u with toSave := true }) s.units })
          else (stOK, saveUnit s uid)
        | _ => (stOK, if saved then answer s else writeRecord (applyAnswer s gid r act pc) gid)

end Sys2Proof.Machine
end

