-- ==== Sys2Proof/Machine/Chain.lean ====
section
/-! DEFINITION. Measurement chains and receipts (R463-R467). -/

namespace Sys2Proof.Machine

/-- The 48 bytes of a digest or a chain head. -/
def digestBytes (g : BitVec 384) : List Byte := bytesOf g.toNat 48
def digestOf (bs : List Byte) : BitVec 384 := BitVec.ofNat 384 (ofBytes (sha384 bs))

/-- One append to a chain head with its count (R463). -/
def chainNext (h : BitVec 384) (n : Nat) (type : Nat) (g : BitVec 384) : BitVec 384 :=
  digestOf (digestBytes h ++ bytesOf n 8 ++ bytesOf type 1 ++ digestBytes g)

/-- The log entry of an append (R465): written through the log capability, or skipped and reported. -/
def logAppend (s : State) (ctx n type : Nat) (g : BitVec 384) : State :=
  match s.ctx? ctx with
  | none => s
  | some c =>
    if c.log == Cap.null then s
    else
      let log := sieve s (s.worldOf ctx) c.log
      let a := log.addr + 64 * (n % max 1 ((c.log.top - c.log.addr) / 64))
      let bs := bytesOf n 8 ++ bytesOf type 8 ++ digestBytes g
      match capCheckAlign log a 64 1 [permStore], pieces (locateCtx s ctx .wr) 3 a 64 with
      | none, .ok ps => writePieces s reeveCx.writer ps bs
      | _, _ => almanac s 6 (s.worldOf ctx) 0 8 []

/-- An append to the chain of a Context (R463). -/
def chainAppend (s : State) (ctx type : Nat) (g : BitVec 384) : State :=
  match s.ctx? ctx with
  | none => s
  | some c =>
    let n := c.count.toNat
    let s1 := s.modCtx ctx fun c => { c with chain := chainNext c.chain n type g, count := c.count + 1 }
    logAppend s1 ctx n type g

/-! The digest of a launch (R464). -/

/-- Bytes read for a measurement, a FILEMAP page that must be read first, or a byte that cannot be read. -/
inductive Measure where
  | ok (bs : List Byte)
  | absent (fm page : Nat)
  | bad
  deriving DecidableEq, Repr

/-- The bytes of a range as the dispatcher reads them, up to the end of a page at a time. -/
def measure (s : State) (ctx : Nat) : Nat → Nat → Nat → Measure
  | 0, _, _ => .ok []
  | fuel + 1, a, n =>
    if n = 0 then .ok []
    else
      let k := min n (2 ^ 17 - a % 2 ^ 17)
      if 2 ^ 57 ≤ a then .bad
      else
        match walk s (aspaceOf s ctx) a with
        | .leaf e lvl _ =>
          if e.world != s.worldOf ctx || !(e.r || e.x) || decide (4 ≤ e.mtype) then .bad
          else if e.fabs then
            match fileOf s (aspaceOf s ctx) a with
            | some (f, p) => .absent f p
            | none => .bad
          else
            let pa := e.addr + a % pageBytes lvl
            if eccHit pa k s.ecc then .bad
            else
              match measure s ctx fuel (a + k) (n - k) with
              | .ok bs => .ok (readVia s (pageKey s e.world e.key e.addr) pa k ++ bs)
              | m => m
        | _ => .bad

/-- The lowest virtual address at which a Frame stands in an AddressSpace. -/
def frameVa (s : State) (asp : Option Nat) (frame : Nat) : Option Nat :=
  match asp.bind s.aspace?, s.obj? frame with
  | some a, some ⟨_, _, _, _, .frame f⟩ =>
    ((leavesFrom s 4 0 a.root).filter fun l => l.e.addr == f.pa).foldl (fun (b : Option Nat) l => some (min (b.getD l.va) l.va)) none
  | _, _ => none

/-- Inserts by a key, ascending, after equal keys. -/
def insertBy {α : Type} (k : Nat) (v : α) : List (Nat × α) → List (Nat × α)
  | [] => [(k, v)]
  | (a, w) :: l => if k < a then (k, v) :: (a, w) :: l else (a, w) :: insertBy k v l

/-- The digests of the frozen Frames that the AddressSpace maps, in ascending virtual address. -/
def frozenDigests (s : State) (ctx : Nat) (c : ContextObj) : List Byte :=
  (((c.freezes.filterMap fun f => (frameVa s (aspaceOf s ctx) f.1).map fun va => (va, f.2)).foldl
    (fun l p => insertBy p.1 p.2 l) []).map fun p => digestBytes p.2).flatten

/-- How the measurement of a launch ends: a digest, a page to read first, or the code that refuses it. -/
inductive LaunchDigest where
  | ok (g : BitVec 384)
  | absent (fm page : Nat)
  | refuse (code : Nat)
  deriving DecidableEq, Repr

def launchDigest (s : State) (l : Launch) : LaunchDigest :=
  let e := l.entries[0]?.getD Cap.null
  let n := e.top - e.base
  if 0x4000000 < n then .refuse 10
  else
    match measure s l.ctx (n / 2 ^ 17 + 2) e.base n with
    | .bad => .refuse 11
    | .absent f p => .absent f p
    | .ok bs =>
      let rec_ := (l.granules.flatMap fun c => bytesOf c.bits.toNat 16) ++ l.granules.map fun c => BitVec.ofNat 8 c.tag.toNat
      match s.ctx? l.ctx with
      | some c => .ok (digestOf (sha384 bs ++ sha384 rec_ ++ sha384 (frozenDigests s l.ctx c)))
      | none => .refuse 11

/-! Receipts (R466, R467). -/

/-- The signed body of a receipt, 0x040-0x0FF. -/
def receiptBody (s : State) (ctx : Nat) (c : ContextObj) (region : List Byte) (challenge : List Byte) : List Byte :=
  bytesOf (1 + s.worldOf ctx * 2 ^ 16 + s.pkg.toNat * 2 ^ 20 + c.id * 2 ^ 32) 8 ++ bytesOf c.count.toNat 8 ++ digestBytes c.chain ++
    sha384 region ++ bytesOf region.length 8 ++ bytesOf s.time 8 ++ challenge ++ List.replicate 16 0

/-- The signatures that follow the body, 0x100-0x137F. -/
def receiptSigs (k : Nat) (body : List Byte) : List Byte :=
  bytesOf (Config.ecdsaSign (Config.deviceKey 0) k (digestOf body)) 96 ++
    bytesOf (Config.mlDsaSign (Config.deviceKey 1) k body) 4627 ++ List.replicate 13 0

/-- How the reads of a receipt end. -/
inductive Attest where
  | status (st : Nat)
  | wait (w : Wait)
  | done (st : Nat) (s : State)
  deriving DecidableEq, Repr

/-- The status of a range that cannot be reached (R159, R467). -/
def rangeStatus (f : FaultInfo) : Nat := if f.cls = 2 ∧ f.sub = 5 then stWORLD else stBADCAP

/-- OBJ .attest past the gate, for a performer with the buffer capability in cx (R466, R467). -/
def attest (s : State) (x : Cx) (ctx : Nat) (buf : Cap) : Attest :=
  let a := buf.addr
  match rangeWay s x buf a 4992 16 [permLoad, permStore, permLoadCap] .rmw with
  | .bad f => .status (rangeStatus f)
  | .wait w => .wait w
  | .away => .status stBADCAP
  | .here ps =>
    if eccPieces s ps then .status stBADCAP
    else
      let reg := match capsAt s x ps true with | c :: _ => sieve s (worldOfCx s x) c | [] => Cap.null
      if !reg.tag || reg.sealed || reg.x || !reg.has permLoad then .status stBADCAP
      else if 0x40000000 < reg.top - reg.base then .status stBADOP
      else
        match rangeOf s x .rd reg.base (reg.top - reg.base) with
        | .error (.fault k u) => .status (rangeStatus { cls := k, sub := u })
        | .error (.absent f p) => .wait (.file f p)
        | .error (.at_ _) => .status stBADCAP
        | .ok rs =>
          match darkPieces s rs with
          | some (g, ln) => .wait (.line g ln)
          | none =>
            if eccPieces s rs then .status stBADCAP
            else
              match s.ctx? ctx with
              | none => .status stDEAD
              | some c =>
                let bs := readPieces s x ps
                let (region, s1) := readRange s x rs
                let body := receiptBody s1 ctx c region ((bs.drop 16).take 48)
                let put (s : State) (bs : List Byte) : State :=
                  match rangeOf s x .wr (a + 64) bs.length with
                  | .ok ps => writePieces s x.writer ps bs
                  | .error _ => s
                if !s1.trngOk then .done stRNGFAIL (put s1 body)
                else
                  let (k, s2) := s1.draw
                  .done stOK (put s2 (body ++ receiptSigs k body))

end Sys2Proof.Machine
end

