-- ==== Sys2Proof/Machine/ObjGate.lean ====
section
/-! DEFINITION. The gate of OBJ (R159-R161, R345, R346, R349): what an OBJ reads, the order of its checks, how it ends; and the two sub-operations that make objects, .retype (R347, R348, R457) and KeySlot creation (R456, R458). -/

namespace Sys2Proof.Machine

/-- SUBOP (R159). -/
inductive SubOp where
  | retype | config | map | unmap | bind | suspend | resume | teardown | status | freeze | attest | faultact
  deriving DecidableEq, Repr

/-- What an OBJ has read once its object is known: performer, object capability, header, object, NARG, argument words, capability argument. -/
structure ObjCall where
  x : Cx
  c : Cap
  h : Nat
  o : Obj
  narg : Nat
  w : List Word
  cx : Cap
  deriving DecidableEq, Repr

def ObjCall.arg (q : ObjCall) (i : Nat) : Nat := (q.w[i]?.getD 0).toNat
def ObjCall.arg64 (q : ObjCall) (i : Nat) : Nat := q.arg i + q.arg (i + 1) * 2 ^ 32

/-- How an OBJ ends: its status with the state after, its word results, its capability result; or it completes later under an identifier, or waits for a page or a line before it begins. -/
structure ObjRes where
  st : Nat
  s : State
  words : List Word := []
  cap : Option Cap := none
  pend : Option (Nat × ObjOp) := none
  wait : Option Wait := none
  deriving DecidableEq, Repr

/-- Nothing changes but the status word. -/
def ObjRes.refuse (s : State) (st : Nat) : ObjRes := { st := st, s := s }
def ObjRes.ok (s : State) : ObjRes := { st := stOK, s := s }

/-- Whether a sub-operation applies to an object type (R349, R430). -/
def SubOp.applies (op : SubOp) (t : Nat) : Bool :=
  match op with
  | .retype => t == 8
  | .config => [1, 2, 3, 6, 8, 10, 11].contains t
  | .map | .unmap => t == 4
  | .bind => [1, 5, 7, 10, 15].contains t
  | .suspend | .resume => t == 3 || t == 6
  | .teardown | .status => true
  | .freeze => t == 7
  | .attest | .faultact => t == 6

/-- R345. -/
def SubOp.needsSysreg : SubOp → Bool
  | .status | .attest => false
  | _ => true

/-- The Export entry of this package that an exported capability names (R438); one that another thread drops is no more (R439). -/
def exportOf (s : State) (x : Cx) (c : Cap) : Option ExportEntry :=
  if c.x && c.xPkg == s.pkg.toNat then (Map.get? c.xEntry s.exports).filter fun e => e.chk.toNat == c.xChk && e.dropper.all (·.has x) else none

/-- The object behind a header; a Reply object is held by a thread (R363) and has the world of its Context, an Export (R347, R434) that of its entry. -/
def objAt (s : State) (x : Cx) (c : Cap) : Option Obj :=
  if c.otype = 13 then (exportOf s x c).map fun e => { world := e.world, torn := false, parent := none, src := 0, body := .irq 0 0 none }
  else
  if c.otype = 12 then
    let i := (c.base - s.replyBase) / 64
    if (s.grp? (i / 1024)).isSome then
      some { world := s.worldOf (s.grp (i / 1024)).ctx, torn := false, parent := none, src := 0, body := .irq 0 0 none }
    else none
  else s.obj? c.base

/-- The permissions that a sub-operation needs beside INVOKE: SYSREG (R345), and LOAD where an Endpoint takes a ring (R361). -/
def SubOp.needs (op : SubOp) (c cx : Cap) : List Nat :=
  (if op.needsSysreg then [permSysreg] else []) ++ (if op = .bind ∧ c.otype = 1 ∧ cx.otype = 11 then [permLoad] else [])

/-- The gate (R159, steps 1 to 5) of an OBJ with an object capability and a capability argument. -/
def gate (s : State) (x : Cx) (op : SubOp) (c cx : Cap) : Except Nat Obj :=
  if !c.tag || c.otype == 0 || decide (16 ≤ c.otype) || !c.has permInvoke then .error stBADCAP
  else if !op.applies c.otype then .error stBADOP
  else if !(op.needs c cx).all c.has then .error stBADCAP
  else
    match objAt s x c with
    | none => .error stDEAD
    | some o =>
      if o.world != worldOfCx s x then .error stWORLD
      else if o.torn && op != .status then .error stDEAD
      else .ok o

/-- The checks of an object named in cx (R159 step 7, R350). -/
def cxCheck (s : State) (q : ObjCall) (types : List Nat) : Option Nat :=
  let c := q.cx
  if !c.tag || c.otype == 0 || decide (16 ≤ c.otype) || !c.has permInvoke then some stBADCAP
  else if !types.contains c.otype then some stBADOP
  else
    match s.obj? c.base with
    | none => some stDEAD
    | some o => if o.world != q.o.world then some stWORLD else if o.torn then some stDEAD else none

/-- Goes on when cx names a live object of a type and of the same world. -/
def withCx (s : State) (q : ObjCall) (types : List Nat) (k : Nat → ObjRes) : ObjRes :=
  match cxCheck s q types with
  | some st => .refuse s st
  | none => k q.cx.base

/-! Retype. -/

/-- PERM of a new object's capability (R348). -/
def objPerm : BitVec 16 := 0x0939

/-- Base of the headers of objects that take no bytes of a store Untyped at an offset the manual gives, in a part of HBM that belongs to the object store (R343). -/
def headerBase : Nat := 0x6800000000

def pow2Between (n lo hi : Nat) : Bool := decide (lo ≤ n) && decide (n ≤ hi) && 2 ^ Nat.log2 n == n

/-- The bytes that a retype takes from its Untyped, with their alignment (R347); none where a word or the kind of Untyped does not suit the type. -/
def retypeSize (u : UntypedObj) (t : Nat) (q : ObjCall) : Option (Nat × Nat) :=
  let store (n : Nat) (ok : Bool) : Option (Nat × Nat) := if u.kind = 0 ∧ ok then some (n, 64) else none
  match t with
  | 1 => store (256 + 128 * q.arg 1) (decide (q.arg 1 ≤ 256))
  | 2 => store 64 true
  | 3 => store 65792 true
  | 4 => if u.kind = 0 then some (8256, 8192) else none
  | 5 => store 64 (decide (q.arg 1 ≤ 7) && decide (q.arg 2 ≤ 2047))
  | 6 => store 4352 true
  | 7 => if u.kind ≠ 0 ∧ q.arg 1 ≤ 2 then some (2 ^ (17 + 10 * q.arg 1), 2 ^ (17 + 10 * q.arg 1)) else none
  | 8 => if 17 ≤ q.arg 1 ∧ q.arg 1 ≤ 45 then some (2 ^ q.arg 1, 2 ^ q.arg 1) else none
  | 10 => store 128 (decide (q.arg 1 ≤ 7))
  | 11 =>
    store (256 + q.arg 3 * q.arg 2 / 8)
      (decide (q.arg 1 ≤ 7) && (q.arg 2 == 128 || ((q.arg 2 == 32 || q.arg 2 == 64) && q.arg 1 == 0)) &&
        pow2Between (q.arg 3) 32 4096 && decide (q.arg 4 ≤ 95))
  | 14 => store 256 true
  | 15 => store 64 (decide (q.arg 1 ≤ 7) && decide (q.arg 2 ≤ 3))
  | _ => none

/-- The words that a type reads (R347). -/
def retypeWords (t : Nat) : Nat :=
  match t with
  | 1 | 7 | 8 => 2
  | 5 | 15 => 3
  | 10 => 6
  | 11 => 5
  | _ => 1

/-- A Context at its creation (R350, R380, R440, R463). -/
def newContext (id : Nat) : ContextObj :=
  { id := id, odt := List.replicate 1024 0, handler := Cap.null, faultEp := Cap.null, svcEp := Cap.null, save := Cap.null,
    aspace := none, slots := List.replicate 8 0, wcAge := 1000, watchdog := 1000, hintDrops := 0, suspended := false,
    chain := 0, count := 0, log := Cap.null, nextFid := 1, freezes := [] }

def newQueue (made kind width depth hamlet : Nat) : QueueObj :=
  { made := made, kind := kind, width := width, depth := depth, hamlet := hamlet, pair := none, file := none, es := [], reserved := 0,
    waiters := [], pushed := 0, popped := 0, coll := none, round := 0, ringOf := none }

/-- The body of a new object at a place of its Untyped (R348). -/
def newBody (s : State) (u : UntypedObj) (world t at_ : Nat) (q : ObjCall) : Body :=
  match t with
  | 1 => .endpoint { depth := q.arg 1, senderMask := BitVec.ofNat 16 (2 ^ world), msgs := [], receivers := [], senders := [],
                     owner := none, ring := none, ringLoadcap := false, subs := [] }
  | 2 => .notification { word := 0, waiters := [] }
  | 3 => .sched { prio := 0, budget := 0, period := 0, affin := BitVec.allOnes 96, queue := [], nextUnit := 0, taken := false,
                  left := 0, periodStart := s.time, owed := 0, touched := [], served := 0, suspended := false }
  | 4 => .aspace { root := at_, free := [], files := [] }
  | 5 => .irq (q.arg 1) (q.arg 2) none
  | 6 => .context (newContext s.nextCtx)
  | 7 => .frame { pa := at_, log2 := 17 + 10 * q.arg 1, kind := u.kind, frozen := false, repl := none, zkey := pageKey s world 0 at_ }
  | 8 => .untyped { base := at_, log2 := q.arg 1, kind := u.kind, mark := 0 }
  | 10 => .filemap { port := q.arg 1, ns := q.arg 2, lba := q.arg64 3, lbaSize := if Config.lbaLarge (q.arg 1) (q.arg 2) then 4096 else 512, pages := q.arg 5, src := none, cache := [], freeFrames := [] }
  | 11 => .queue (newQueue s.nextId (q.arg 1) (q.arg 2) (q.arg 3) (q.arg 4))
  | 14 => .sync { slots := [], holds := [], waiters := [] }
  | _ => .grant { port := q.arg 1, rd := q.arg 2 % 2 == 1, wr := 2 ≤ q.arg 2, frame := none, bus := 0, size := 0 }

/-- The lowest free KeySlot from a number upwards (R456). -/
def freeKey (s : State) (start : Nat) : Option Nat := (List.range 64).find? fun i => decide (start ≤ i) && (Map.get? i s.keys).isNone

/-- The slot that a request takes (R456): a memory key prefers slot 0, every other key avoids it. -/
def takeKeySlot (s : State) (memory : Bool) : Option Nat :=
  if memory then freeKey s 0 else (freeKey s 1 <|> freeKey s 0)

/-- A memory key for a protected world that has none (R457): the state with it, or the status that refuses. -/
def memoryKey (s : State) (world : Nat) : Except Nat State :=
  if !protectedWorld s world || s.keys.any fun k => k.2.role == 0 && k.2.world == world then .ok s
  else
    match takeKeySlot s true with
    | none => .error stKEYFULL
    | some i =>
      if !s.trngOk then .error stRNGFAIL
      else
        let (n, s1) := s.draw
        .ok { s1 with keys := Map.set i { world := world, role := 0, nonce := 0, key := Config.trngBits n } s1.keys }

/-- Creates an object from an Untyped (R347, R348, R457). -/
def retypeFrom (s : State) (u : Nat) (q : ObjCall) : ObjRes :=
  let t := q.arg 0
  match s.obj? u with
  | some ⟨world, _, _, _, .untyped ut⟩ =>
    if q.narg < max 1 (retypeWords t) then .refuse s stBADOP
    else
      match retypeSize ut t q with
      | none => .refuse s stBADOP
      | some (n, al) =>
        match allocFrom s u n al with
        | none => .refuse s stFULL
        | some (a, s1) =>
          let made (s2 : State) : ObjRes :=
            let (i, s3) := s2.newId
            let own := t == 7 || t == 8
            -- the root table of an AddressSpace is aligned to its size, its header after it (R236)
            let h := if own then headerBase + 64 * i else if t = 4 then a + 8192 else a
            let o : Obj := { world := world, torn := false, parent := some u, src := u, body := newBody s3 ut world t a q }
            let s4 := if t = 4 then zeroPhys s3 a 8192 else if t = 7 ∧ ut.kind ≠ 2 then zeroPhys s3 a n else s3
            let s5 := { s4 with
              objs := Map.set h o s4.objs
              nextCtx := s4.nextCtx + (if t = 6 then 1 else 0) }
            { st := stOK, s := s5, cap := some (Cap.object t h 0 objPerm true) }
          if t = 6 then
            match memoryKey s1 world with
            | .error e => .refuse s e
            | .ok s2 => made s2
          else made s1
  | _ => .refuse s stBADOP

/-- A reset of the Untyped is under way (R348). -/
def resetting (s : State) (u : Nat) : Bool := s.pendObjs.any fun p => p.2.op == .reset u

def objRetype (s : State) (q : ObjCall) : ObjRes := if resetting s q.h then .refuse s stBADOP else retypeFrom s q.h q

/-! KeySlots. -/

/-- A KeySlot object over a new key (R456, R458). -/
def makeKeySlot (s : State) (world role : Nat) (nonce : DWord) (key : BitVec 256) : ObjRes :=
  match takeKeySlot s false with
  | none => .refuse s stKEYFULL
  | some i =>
    let (n, s1) := s.newId
    let h := headerBase + 64 * n
    let o : Obj := { world := world, torn := false, parent := none, src := 0, body := .keyslot { index := i, nonce := nonce } }
    { st := stOK
      s := { s1 with keys := Map.set i { world := world, role := role, nonce := nonce, key := key } s1.keys, objs := Map.set h o s1.objs }
      cap := some (Cap.object 9 h 0 0x0900 true) }

/-- The key of an import blob (R458). -/
def importKey (world : Nat) (nonce : DWord) (blob : List Byte) : Option (BitVec 256) :=
  (Config.mlKemDecap (blob.take 1568)).bind fun secret =>
    (gcmOpen (keyBytes secret) ((blob.drop 0x620).take 12) (bytesOf world 1 ++ bytesOf nonce.toNat 8) ((blob.drop 0x62C).take 32)
      ((blob.drop 0x64C).take 16)).map fun k => BitVec.ofNat 256 (ofBytes k)

/-- Context selector 9 (R458). -/
def objKeySlot (s : State) (q : ObjCall) : ObjRes :=
  let nonce := BitVec.ofNat 64 (q.arg64 2)
  if q.narg ≠ 4 ∨ 1 < q.arg 1 then .refuse s stBADOP
  else if q.arg 1 = 0 then
    if (takeKeySlot s false).isNone then .refuse s stKEYFULL
    else if !s.trngOk then .refuse s stRNGFAIL
    else
      let (n, s1) := s.draw
      makeKeySlot s1 q.o.world 1 nonce (Config.trngBits n)
  else
    match rangeWay s q.x q.cx q.cx.addr 1628 1 [permLoad] .rd with
    | .bad f => .refuse s (rangeStatus f)
    | .wait w => { st := stOK, s := s, wait := some w }
    | .away => .refuse s stBADCAP
    | .here ps =>
      if eccPieces s ps then .refuse s stBADCAP
      else if (takeKeySlot s false).isNone then .refuse s stKEYFULL
      else
        let (bs, s1) := readRange s q.x ps
        match importKey q.o.world nonce bs with
        | some k => makeKeySlot s1 q.o.world 2 nonce k
        | none => .refuse s stBADOP

end Sys2Proof.Machine
end

