-- ==== Sys2Proof/Machine/ObjConfig.lean ====
section
/-! DEFINITION. OBJ .config by object type and selector (R348, R350, R380, R381, R389, R400, R440, R442, R458, R459, R465), and the steps of the operations that complete later. -/

namespace Sys2Proof.Machine

/-! Completion of a reset and of an ODT change. -/

/-- Every object retyped from an Untyped, directly or through Untypeds retyped from it. -/
def descendants (s : State) : Nat → List Nat → List Nat
  | 0, _ => []
  | n + 1, ps =>
    let cs := (s.objs.filter fun o => match o.2.parent with | some p => ps.contains p | none => false).map (·.1)
    if cs.isEmpty then [] else cs ++ descendants s n cs

def allUnder (s : State) (u : Nat) : List Nat := descendants s s.objs.length [u]

/-- The end of a reset: the headers go, and the watermark stands at the base (R346, R348). -/
def endReset (s : State) (u : Nat) : State :=
  let gone := allUnder s u
  let s1 := { s with objs := s.objs.filter fun o => !gone.contains o.1 }
  s1.modObj u fun o => match o.body with | .untyped t => { o with body := .untyped { t with mark := 0 } } | _ => o

/-- A core applies its next ODT change (R400); the OBJ completes with the last one. -/
def applyOdt (s : State) (ctx core : Nat) : State :=
  match s.odtChanges.find? fun c => c.ctx == ctx && c.cores.contains core with
  | none => s
  | some c =>
    let set (t : List (BitVec 2)) : List (BitVec 2) := t.take c.first ++ c.vals ++ t.drop (c.first + c.vals.length)
    let rest := c.cores.erase core
    let changes := s.odtChanges.filterMap fun d => if d.op == c.op then (if rest.isEmpty then none else some { d with cores := rest }) else some d
    let more := changes.any fun d => d.ctx == ctx && d.cores.contains core
    let lag := s.odtLag.filterMap fun l => if l.1 == ctx && l.2.1 == core then (if more then some (ctx, core, set l.2.2) else none) else some l
    let s1 := { s with odtChanges := changes, odtLag := lag }
    if rest.isEmpty then finishObj s1 c.op stOK fun _ _ => [] else s1

/-! Context fields. -/

/-- Cores that hold a resident group of a Context, service cores among them (R400). -/
def coresOf (s : State) (ctx : Nat) : List Nat :=
  ((s.groups.filter fun g => g.2.ctx == ctx && g.2.stat != .saved).map fun g => coreKey g.2).eraseDups

/-- Selector 0 (R400). -/
def configOdt (s : State) (q : ObjCall) (c : ContextObj) : ObjRes :=
  let first := q.arg 1
  if q.narg < 3 ∨ first % 16 ≠ 0 ∨ 1024 ≤ first then .refuse s stBADOP
  else
    let vals := (List.range 16).map fun k => BitVec.ofNat 2 (q.arg 2 / 4 ^ k)
    let new := c.odt.take first ++ vals ++ c.odt.drop (first + 16)
    -- a core that has an earlier change to apply applies this one too, whether or not a group of the Context is still there
    let cores := (coresOf s q.h ++ (s.odtLag.filter fun l => l.1 == q.h).map fun l => l.2.1).eraseDups
    let lag := (cores.filter fun k => !s.odtLag.any fun l => l.1 == q.h && l.2.1 == k).map fun k => (q.h, k, c.odt)
    let s1 := { s.modCtx q.h fun c => { c with odt := new } with odtLag := s.odtLag ++ lag }
    if cores.isEmpty then .ok s1
    else
      let (n, s2) := s1.newId
      { st := stOK, s := { s2 with odtChanges := s2.odtChanges ++ [⟨q.h, first, vals, cores, n⟩] }, pend := some (n, .odt q.h) }

/-- A save area (R350, R381). -/
def saveAreaOk (c : Cap) : Bool :=
  c.tag && !c.sealed && [permLoad, permStore, permLoadCap, permStoreCap, permStoreLocal].all c.has &&
    decide (c.base < c.top) && (c.top - c.base) % 2 ^ 21 == 0 && c.base % 2 ^ 21 == 0

/-- A measurement log (R465). -/
def logOk (c : Cap) : Bool := c.tag && !c.sealed && c.has permStore && decide (c.base ≤ c.addr) && decide (c.addr + 64 ≤ c.top)

/-- Context selectors 1 to 11. -/
def configContext (s : State) (q : ObjCall) (c : ContextObj) : ObjRes :=
  let set (f : ContextObj → ContextObj) : ObjRes := .ok (s.modCtx q.h f)
  match q.arg 0 with
  | 0 => configOdt s q c
  | 1 => set fun c => { c with handler := q.cx }
  | 2 => withCx s q [1] fun _ => set fun c => { c with faultEp := q.cx }
  | 3 => withCx s q [1] fun _ => set fun c => { c with svcEp := q.cx }
  | 4 => if saveAreaOk q.cx then set fun c => { c with save := q.cx } else .refuse s stBADCAP
  | 5 => withCx s q [4] fun h => set fun c => { c with aspace := some h }
  | 6 =>
    if q.narg < 4 ∨ 7 < q.arg 1 ∨ 2 ^ 21 ≤ q.arg64 2 then .refuse s stBADOP
    else set fun c => { c with slots := c.slots.set (q.arg 1) (BitVec.ofNat 64 (q.arg64 2)) }
  | 7 => if q.narg < 2 ∨ q.arg 1 < 250 ∨ 16000 < q.arg 1 then .refuse s stBADOP else set fun c => { c with wcAge := q.arg 1 }
  | 8 => if q.narg < 2 ∨ 60000 < q.arg 1 then .refuse s stBADOP else set fun c => { c with watchdog := q.arg 1 }
  | 9 => objKeySlot s q
  | 10 => if logOk q.cx then set fun c => { c with log := q.cx } else .refuse s stBADCAP
  | 11 =>
    let w := q.arg 1
    let n := q.arg 2
    if q.narg < 3 ∨ w < 16 ∨ 4095 < w ∨ n < 1 ∨ 4080 < n ∨ 4096 < w + n then .refuse s stBADOP
    else { st := stOK, s := s, cap := some (Cap.make w n 0x00C0 true w) }
  | _ => .refuse s stBADOP

/-! Endpoints, Notifications, SchedContexts, Untypeds, Queues, FileMaps. -/

/-- Mint (R350). -/
def configMint (s : State) (q : ObjCall) : ObjRes :=
  if q.narg < 3 ∨ 8191 < q.arg 1 ∨ 2 ^ 17 ≤ q.arg 2 ∨ q.c.badge ≠ 0 then .refuse s stBADOP
  else
    let m := BitVec.ofNat 32 (q.arg 2)
    { st := stOK, s := s
      cap := some (Cap.object q.c.otype q.h (q.arg 1) (q.c.perm &&& m.extractLsb' 0 16) (q.c.g && m.getLsbD 16)) }

/-- R205. -/
def configSched (s : State) (q : ObjCall) : ObjRes :=
  if q.narg ≠ 7 ∨ q.arg 0 ≠ 0 ∨ 15 < q.arg 1 then .refuse s stBADOP
  else
    -- a unit keeps the highest PRIO that it has been resident at (R217)
    let s1 := { s with units := s.units.map fun (u : Nat × UnitRec) => (u.1, if u.2.sched = q.h ∧ !u.2.saved then { u.2 with prio := max u.2.prio (q.arg 1) } else u.2) }
    .ok (s1.modSched q.h fun c =>
    { c with prio := q.arg 1, budget := q.arg 2, period := q.arg 3, left := q.arg 2, periodStart := s.time, owed := 0, touched := []
             affin := BitVec.ofNat 96 (q.arg 4 + q.arg 5 * 2 ^ 32 + q.arg 6 * 2 ^ 64) })

/-- Untyped reset (R348): closes the range; the sweep that covers it completes the OBJ. -/
def configReset (s : State) (q : ObjCall) (u : UntypedObj) : ObjRes :=
  if q.arg 0 ≠ 0 ∨ q.narg < 1 ∨ resetting s q.h ∨ (allUnder s q.h).any (fun h => !s.dead h) then .refuse s stBADOP
  else
    let (n, s1) := s.newId
    let r : Closed := { base := u.base, top := u.base + 2 ^ u.log2, world := q.o.world, comp := none, queue := 0, pos := 0, sweep := s1.sweepNo + 1, freeze := false, op := some n }
    { st := stOK, s := { s1 with closed := s1.closed ++ [r] }, pend := some (n, .reset q.h) }

/-- PAIR, FILE, group and pair keys of a Queue (R314, R350, R442, R459). -/
def configQueue (s : State) (q : ObjCall) (qo : QueueObj) : ObjRes :=
  match q.arg 0 with
  | 0 =>
    if (qo.kind != 2 && qo.kind != 3 && qo.kind != 5) || qo.pushed != 0 then .refuse s stBADOP
    else withCx s q [11] fun h =>
      if (s.queue? h).map QueueObj.kind == some 1 then .ok (s.modQueue q.h fun o => { o with pair := some h }) else .refuse s stBADOP
  | 1 =>
    if qo.kind != 3 || qo.pushed != 0 then .refuse s stBADOP
    else withCx s q [10] fun h => .ok (s.modQueue q.h fun o => { o with file := some h })
  | 2 =>
    if qo.kind != 6 || decide (q.narg < 4) || decide (2 ^ 24 ≤ q.arg 1) || decide (q.arg 3 < 1) || decide (4096 < q.arg 3) || decide (q.arg 3 ≤ q.arg 2) then .refuse s stBADOP
    else .ok (s.modQueue q.h fun o =>
      { o with coll := some { id := q.arg 1, rank := q.arg 2, size := q.arg 3, keys := (o.coll.map CollGroup.keys).getD [] } })
  | 3 =>
    match qo.coll with
    | none => .refuse s stBADOP
    | some g =>
      if qo.kind != 6 || decide (q.narg < 2) || decide (g.size ≤ q.arg 1) || q.arg 1 == g.rank then .refuse s stBADOP
      else withCx s q [9] fun h => .ok (s.modQueue q.h fun o => { o with coll := some { g with keys := Map.set (q.arg 1) h g.keys } })
  | _ => .refuse s stBADOP

/-- The frame source of a FileMap (R336). -/
def configFileMap (s : State) (q : ObjCall) : ObjRes :=
  if q.arg 0 ≠ 0 then .refuse s stBADOP
  else withCx s q [8] fun h =>
    match s.obj? h with
    | some ⟨_, _, _, _, .untyped u⟩ => if u.kind = 1 then .ok (s.modFm q.h fun f => { f with src := some h }) else .refuse s stBADOP
    | _ => .refuse s stBADOP

/-- R350. -/
def objConfig (s : State) (q : ObjCall) : ObjRes :=
  if q.narg = 0 then .refuse s stBADOP
  else
    match q.o.body with
    | .endpoint _ =>
      match q.arg 0 with
      | 0 => configMint s q
      | 1 =>
        if q.narg < 2 ∨ 2 ^ 16 ≤ q.arg 1 then .refuse s stBADOP
        else .ok (s.modEp q.h fun e => { e with senderMask := BitVec.ofNat 16 (q.arg 1) })
      | _ => .refuse s stBADOP
    | .notification _ => if q.arg 0 = 0 then configMint s q else .refuse s stBADOP
    | .sched _ => configSched s q
    | .context c => configContext s q c
    | .untyped u => configReset s q u
    | .queue o => configQueue s q o
    | .filemap _ => configFileMap s q
    | _ => .refuse s stBADOP

end Sys2Proof.Machine
end

