-- ==== Sys2Proof/Machine/Objects.lean ====
section
/-! DEFINITION. OBJ (R159-R161): .map, .unmap, .bind, .suspend, .resume, .teardown, .status, .freeze, .attest and .faultact past the gate (R351-R355, R377, R415, R416, R430, R466), and the meaning of every OBJ row. An OBJ performs what its operands ask for, whichever row of the table names it: the sub-operation is in the word, the row of a .config or .faultact in the object's type and word 0. -/

namespace Sys2Proof.Machine

/-! Mappings. -/

/-- FILEMAP pages of an AddressSpace in a range of virtual addresses are no longer mapped there. -/
def dropFiles (s : State) (asp va n : Nat) : State :=
  s.modObj asp fun o =>
    match o.body with
    | .aspace a => { o with body := .aspace { a with files := a.files.filter fun f => decide (f.1 < va) || decide (va + n ≤ f.1) } }
    | _ => o

/-- Accesses parked on a page of a file are performed again (R240). -/
def wakeFiles (s : State) : State := wakeAll s fun w => match w with | .file _ _ => true | _ => false

/-- PERM of the data capability of a mapping (R351). -/
def mapPerm (r w x weight revoke remote : Bool) : BitVec 16 :=
  let b (c : Bool) (i : Nat) : BitVec 16 := if c then 1#16 <<< i else 0
  b r permLoad ||| b r permLoadCap ||| b w permStore ||| b w permStoreCap ||| b w permStoreLocal ||| b (r && w) permAtomic |||
    b x permExec ||| b weight permWeight ||| b revoke permRevoke ||| b remote permRemote

/-- Writes a leaf at the level of a page size, with the tables it lacks (R351). -/
def placeLeaf (s : State) (asp root level va raw : Nat) : Except Nat State :=
  match leafPlace asp level va 4 root s with
  | .error e => .error e
  | .ok (at_, s1) =>
    match putLeaf s1 asp level at_ raw with
    | .error e => .error e
    | .ok s2 => .ok (wakeFiles (dropFiles s2 asp va (pageBytes level)))

/-- Every write to a range that is under way is performed (R240, R415). -/
def settleWrites (s : State) (pa n : Nat) : State :=
  replSettle ((s.fars.filter fun f => decide (pa ≤ f.2.pa) && decide (f.2.pa < pa + n)).foldl (fun st f => finishFar st f.1) s)

/-- An access to a range that a device or another package has yet to perform. -/
def underWay (s : State) (pa n : Nat) : Bool :=
  let hit (a : Nat) : Bool := decide (pa ≤ a) && decide (a < pa + n)
  s.ios.any (fun q => hit q.2.pa) || s.replNew.any (fun w => hit w.pa) || s.fars.any fun f => f.2.dest == .repl && f.2.old.isNone && hit f.2.pa

/-- A change of the leaf at a virtual address, once every access that used the old one has been performed at its home (R240). -/
def remap (s : State) (asp va : Nat) (k : State → ObjRes) : ObjRes :=
  match leafAt? s asp va with
  | some l =>
    if l.e.fabs then k s
    else
      let s1 := settleWrites s l.e.addr (pageBytes l.level)
      if underWay s1 l.e.addr (pageBytes l.level) then { st := stOK, s := sendAway s1, wait := some .fence }
      else k (reissueWaits s1 l.e.addr (pageBytes l.level))
  | none => k s

/-- R351, R415, R459. -/
def objMap (s : State) (q : ObjCall) : ObjRes :=
  match q.o.body with
  | .aspace a =>
    let va := q.arg64 0
    let m := q.arg 2
    let bit (i : Nat) : Bool := bitsAt m i 1 == 1
    let r := bit 2
    let w := bit 3
    let x := bit 4
    let mt := bitsAt m 5 3
    let key := bitsAt m 8 6
    -- an active key of the world of what is mapped, ROLE 1 or 2 (R459)
    let keyOk (h : Nat) : Bool := key == 0 || match Map.get? key s.keys with | some k => k.world == s.worldOf h && k.role != 0 | none => false
    if q.narg < 3 ∨ (mt = 3 ∧ q.narg < 4) ∨ m % 4 ≠ 0 ∨ 2 ^ 17 ≤ m ∨ mt = 2 ∨ 6 ≤ mt ∨ va % 2 ^ 17 ≠ 0 ∨ 2 ^ 57 ≤ va then .refuse s stBADOP
    else if mt = 3 then
      withCx s q [10] fun h =>
        match s.filemap? h with
        | none => .refuse s stBADOP
        | some f =>
          if f.pages ≤ q.arg 3 ∨ !keyOk h then .refuse s stBADOP
          else remap s q.h va fun s =>
            match placeLeaf s q.h a.root 1 va (Pte.mkLeaf 0 q.o.world 3 key r w x true) with
            | .error e => .refuse s e
            | .ok s1 =>
              let s2 := s1.modObj q.h fun o =>
                match o.body with
                | .aspace a => { o with body := .aspace { a with files := a.files ++ [(va, h, q.arg 3)] } }
                | _ => o
              { st := stOK, s := s2, cap := some Cap.null }
    else
      withCx s q [7] fun h =>
        match s.obj? h with
        | some ⟨_, _, _, _, .frame f⟩ =>
          let level := (f.log2 - 7) / 10
          if !keyOk h || (f.kind == 2) != decide (4 ≤ mt) || (f.kind == 3 && mt != 0) || va % 2 ^ f.log2 != 0 then .refuse s stBADOP
          else remap s q.h va fun s =>
            let w := w && !f.frozen
            match placeLeaf s q.h a.root level va (Pte.mkLeaf f.pa q.o.world (if f.frozen then 2 else mt) key r w x false) with
            | .error e => .refuse s e
            | .ok s1 =>
              { st := stOK, s := s1, cap := some (Cap.make va (2 ^ f.log2) (mapPerm r w x (bit 14) (bit 15) (bit 16)) true va) }
        | _ => .refuse s stBADOP
  | _ => .refuse s stBADOP

/-- R351. -/
def objUnmap (s : State) (q : ObjCall) : ObjRes :=
  let va := q.arg64 0
  if q.narg < 2 ∨ 2 ^ 57 ≤ va then .refuse s stBADOP
  else
    match leafAt? s q.h va with
    | none => .refuse s stBADOP
    | some l => remap s q.h va fun s => .ok (wakeFiles (dropFiles (writePte s l.at_ 0) q.h va (pageBytes l.level)))

/-! Bindings. -/

/-- The bus windows of a root port: base and end. -/
def windowsOf (s : State) (port but : Nat) : List (Nat × Nat) :=
  s.objs.filterMap fun o =>
    match o.2.body with
    | .grant g =>
      if o.1 != but && g.port == port && g.frame.isSome then some (g.bus, g.bus + g.size) else none
    | _ => none

/-- A window for a Grant (R340): a free choice where it is allowed, else the first multiple of the size above every other window. -/
def newWindow (s : State) (port but size : Nat) : Nat × State :=
  let ws := windowsOf s port but
  let (n, s1) := s.draw
  let b := Config.pick n % 2 ^ 20 * size
  if b ≠ 0 ∧ b + size ≤ 2 ^ 64 ∧ ws.all (fun w => decide (w.2 ≤ b) || decide (b + size ≤ w.1)) then (b, s1)
  else (((ws.foldl (fun m w => max m w.2) 1 + size - 1) / size) * size, s1)

/-- Links an Endpoint to its owner or its ring (R352, R361). -/
def bindEndpoint (s : State) (q : ObjCall) : ObjRes :=
  if q.cx.otype = 11 then
    withCx s q [11] fun h =>
      match s.queue? h with
      | some o =>
        if o.kind = 7 ∧ o.width = 128 then
          .ok ((s.modEp q.h fun e => { e with ring := some h, ringLoadcap := q.c.has permLoadCap }).modQueue h fun o => { o with ringOf := some q.h })
        else .refuse s stBADOP
      | none => .refuse s stBADOP
  else withCx s q [6] fun h => .ok (s.modEp q.h fun e => { e with owner := some h })

/-- Links a Frame to a group, of which every member hears (R430). -/
def bindFrame (s : State) (q : ObjCall) (f : FrameObj) : ObjRes :=
  if q.narg < 2 then .refuse s stBADOP
  else withCx s q [11] fun h =>
    match (s.queue? h).bind QueueObj.coll with
    | none => .refuse s stBADOP
    | some g =>
      let other := s.objs.any fun o =>
        match o.2.body with
        | .frame k => !o.2.torn && o.1 != q.h && k.log2 != f.log2 &&
            match k.repl with | some (c, _) => ((s.queue? c).bind QueueObj.coll).map CollGroup.id == some g.id | none => false
        | _ => false
      let other := other || s.bound.any fun b => b.1 == g.id && b.2.2 != f.log2
      if g.size ≤ q.arg 1 ∨ other then .refuse s stBADOP
      else
        let s1 := s.setBody q.h (.frame { f with repl := some (h, q.arg 1) })
        .ok { s1 with out := s1.out ++ [.replBound g.id g.rank f.log2] }

/-- R352. -/
def objBind (s : State) (q : ObjCall) : ObjRes :=
  match q.o.body with
  | .endpoint _ => bindEndpoint s q
  | .irq p v _ =>
    if q.narg < 2 ∨ 63 < q.arg 1 then .refuse s stBADOP
    else withCx s q [2] fun h => .ok (s.setBody q.h (.irq p v (some (h, q.arg 1))))
  | .grant g =>
    withCx s q [7] fun h =>
      match s.obj? h with
      | some ⟨_, _, _, _, .frame f⟩ =>
        let (b, s1) := newWindow s g.port q.h (2 ^ f.log2)
        .ok (s1.setBody q.h (.grant { g with frame := some h, bus := b, size := 2 ^ f.log2 }))
      | _ => .refuse s stBADOP
  | .frame f => bindFrame s q f
  | _ => .refuse s stBADOP

/-! Suspension and the end. -/

/-- R353: the flag, and the save of every resident group but the performer's own, which the dispatcher saves between two of its issues. -/
def objSuspend (s : State) (q : ObjCall) : ObjRes :=
  let mine := (s.grp q.x.gid).unit
  match q.o.body with
  | .context c =>
    if c.suspended then .ok s else .ok (saveOthers (s.modCtx q.h fun c => { c with suspended := true }) mine fun g => g.ctx == q.h)
  | .sched c =>
    if c.suspended then .ok s else .ok (saveOthers (s.modSched q.h fun c => { c with suspended := true }) mine fun g => g.launch.sched == q.h)
  | _ => .refuse s stBADOP

def objResume (s : State) (q : ObjCall) : ObjRes :=
  match q.o.body with
  | .context c => if c.suspended then .ok (releaseHeld (s.modCtx q.h fun c => { c with suspended := false })) else .ok s
  | .sched c => if c.suspended then .ok (s.modSched q.h fun c => { c with suspended := false }) else .ok s
  | _ => .refuse s stBADOP

def objTeardown (s : State) (q : ObjCall) : ObjRes :=
  -- an Export ends as EXPORT .drop ends it (R349, R438, R439)
  if q.c.otype = 13 then
    if exportOpen s q.c.xEntry then
      { st := stOK, wait := some .fence
        s := { s with exports := Map.modify q.c.xEntry (fun e => { e with dropper := some ⟨q.x.gid, q.x.cno, [q.x.lane], false⟩ }) s.exports } }
    else .ok { s with exports := Map.del q.c.xEntry s.exports }
  else
    let (st, s1) := teardown s q.h
    { st := st, s := s1 }

/-- The words of .status (R355). -/
def statusWords (s : State) (q : ObjCall) : List Nat :=
  match q.c.otype, q.o.body with
  | 12, _ | 13, _ => [q.c.otype + 16 * q.o.world]
  | _, .endpoint e => [e.depth, e.msgs.length, e.receivers.length, e.senders.length]
  | _, .notification n => [n.word.toNat % 2 ^ 32, n.word.toNat / 2 ^ 32, n.waiters.length, 0]
  | _, .context c =>
    [c.suspended.toNat + 2 * q.o.torn.toNat + 16 * q.o.world, c.hintDrops.toNat % 2 ^ 32, c.hintDrops.toNat / 2 ^ 32, c.id]
  | _, .queue o => [o.kind, o.width, o.depth, o.es.length]
  | _, .grant g => let b := if g.frame.isSome then g.bus else 0; [b % 2 ^ 32, b / 2 ^ 32, g.rd.toNat + 2 * g.wr.toNat, 0]
  | t, _ => [t + 16 * s.worldOf q.h]

def objStatus (s : State) (q : ObjCall) : ObjRes :=
  { st := stOK, s := s, words := (List.range q.narg).map fun i => BitVec.ofNat 32 ((statusWords s q)[i]?.getD 0) }

/-! Freezing. -/

/-- A Frame bound to a Grant with device write (R416). -/
def grantWrites (s : State) (frame : Nat) : Bool :=
  s.objs.any fun o => !o.2.torn && match o.2.body with | .grant g => g.wr && g.frame == some frame | _ => false

/-- R415, steps 1 and 2; the sweep's end appends the digest (step 3). -/
def objFreeze (s : State) (q : ObjCall) : ObjRes :=
  match q.o.body with
  | .frame f =>
    if f.frozen ∨ f.kind = 2 ∨ grantWrites s q.h ∨ q.narg ≠ 2 then .refuse s stBADOP
    else if q.cx.tag && q.cx.otype != 6 then .refuse s stBADOP
    else withCx s q [6] fun ctx =>
      let n := 2 ^ f.log2
      let s1 := settleWrites s f.pa n
      let ls := leavesOf s1 f.pa n
      let s2 := ls.foldl (fun st l =>
        writePte st l.2.at_ (Pte.mkLeaf l.2.e.addr l.2.e.world 2 l.2.e.key l.2.e.r false l.2.e.x false)) s1
      let s3 := s2.setBody q.h (.frame { f with frozen := true })
      let (id, s4) := s3.newId
      let range (b t : Nat) : Closed := { base := b, top := t, world := q.o.world, comp := none, queue := 0, pos := 0, sweep := s4.sweepNo + 1, freeze := true, op := some id }
      let rs := if ls.isEmpty then [range 1 0] else ls.map fun l => range l.2.va (l.2.va + pageBytes l.2.level)
      { st := stOK, s := { s4 with closed := s4.closed ++ rs }, pend := some (id, .freeze q.h ctx .vz false) }
  | _ => .refuse s stBADOP

/-- Step 3 of R415, at the end of the sweep. -/
def endFreeze (s : State) (n frame ctx : Nat) (args : Reg) : State :=
  match s.obj? frame, s.ctx? ctx with
  | some ⟨_, _, _, _, .frame f⟩, some c =>
    let g := digestOf (readVia s (keyAt s f.pa) f.pa (2 ^ f.log2))
    let i := c.count.toNat
    let s1 := (chainAppend s ctx 2 g).modCtx ctx fun c => { c with freezes := c.freezes ++ [(frame, g)] }
    finishObj s1 n stOK fun s x => wr32 s x args (BitVec.ofNat 32 i) ++ wr32 s x (Reg.plus args 1) (BitVec.ofNat 32 (i / 2 ^ 32))
  | _, _ => finishObj s n stDEAD fun _ _ => []

/-! The whole OBJ. -/

def objAttest (s : State) (q : ObjCall) : ObjRes :=
  if q.narg ≠ 0 then .refuse s stBADOP
  else
    match attest s q.x q.h q.cx with
    | .status st => .refuse s st
    | .wait w => { st := stOK, s := s, wait := some w }
    | .done st s1 => { st := st, s := s1 }

def objFaultact (s : State) (q : ObjCall) : ObjRes :=
  let (st, s1) := faultact s q.h q.narg q.w
  { st := st, s := s1 }

/-- The sub-operation past the gate. -/
def SubOp.run (op : SubOp) (s : State) (q : ObjCall) : ObjRes :=
  match op with
  | .retype => objRetype s q
  | .config => objConfig s q
  | .map => objMap s q
  | .unmap => objUnmap s q
  | .bind => objBind s q
  | .suspend => objSuspend s q
  | .resume => objResume s q
  | .teardown => objTeardown s q
  | .status => objStatus s q
  | .freeze => objFreeze s q
  | .attest => objAttest s q
  | .faultact => objFaultact s q

/-- The pending operation, with the registers that a freeze writes. -/
def ObjOp.withArgs (o : ObjOps) (uni : Bool) : ObjOp → ObjOp
  | .freeze f c _ _ => .freeze f c o.args uni
  | p => p

/-- One OBJ of a performer (R159): its registers as they were at the issue (R6, R177), its object as the OBJs before it left it (R161). -/
def objOne (op : SubOp) (o : ObjOps) (s0 st : State) (a : Actor) : State :=
  let x := a.cx
  let c := rdCap s0 x o.obj
  match gate st x op c (rdCap s0 x o.cx) with
  | .error e => retire st a (wrStatus st x o.d e)
  | .ok ob =>
    let q : ObjCall := { x := x, c := c, h := c.base, o := ob, narg := o.narg.val, w := rdWords s0 x o.args o.narg.val, cx := sieve st (worldOfCx st x) (rdCap s0 x o.cx) }
    let r := op.run st q
    match r.wait, r.pend with
    | some w, _ => waitFor r.s a w
    | none, some (n, p) =>
      parkAll { r.s with pendObjs := Map.set n { op := p.withArgs o a.uni, who := a.who, d := o.d, foot := footOf st } r.s.pendObjs } a (.obj n)
    | none, none =>
      let s1 := r.s
      retire s1 a (((List.range r.words.length).flatMap fun i => wr32 s1 x (Reg.plus o.args i) (r.words[i]?.getD 0)) ++
        (match r.cap with | some k => wrCap s1 x o.cx k | none => []) ++ wrStatus s1 x o.d r.st)

/-- A lower lane of the issue waits in its own OBJ: the lanes above it have yet to begin (R161). -/
def lowerWaits (s : State) (x : Cx) : Bool :=
  ((s.cur.map Cur.lanes).getD []).any fun l => decide (l < x.lane) && (s.thr x.gid (x.cno * 32 + l)).wait != .none

/-- OBJ under U = 0 and U = 1 (R161). -/
def objIssue (op : SubOp) (h : Hdr) (o : ObjOps) (s : State) : State :=
  issue h s noCheck fun s0 st a => if !a.uni && lowerWaits st a.cx then st else objOne op o s0 st a

def execObjRetype (h : Hdr) (o : ObjOps) (s : State) : Host.Outcome State Fault Refusal := .next (objIssue .retype h o s)
def execObjConfigUntypedReset (h : Hdr) (o : ObjOps) (s : State) : Host.Outcome State Fault Refusal := .next (objIssue .config h o s)
def execObjConfigEndpointMint (h : Hdr) (o : ObjOps) (s : State) : Host.Outcome State Fault Refusal := .next (objIssue .config h o s)
def execObjConfigSenderMask (h : Hdr) (o : ObjOps) (s : State) : Host.Outcome State Fault Refusal := .next (objIssue .config h o s)
def execObjConfigNotificationMint (h : Hdr) (o : ObjOps) (s : State) : Host.Outcome State Fault Refusal := .next (objIssue .config h o s)
def execObjConfigSchedcontext (h : Hdr) (o : ObjOps) (s : State) : Host.Outcome State Fault Refusal := .next (objIssue .config h o s)
def execObjConfigOdt (h : Hdr) (o : ObjOps) (s : State) : Host.Outcome State Fault Refusal := .next (objIssue .config h o s)
def execObjConfigHandler (h : Hdr) (o : ObjOps) (s : State) : Host.Outcome State Fault Refusal := .next (objIssue .config h o s)
def execObjConfigFaultEndpoint (h : Hdr) (o : ObjOps) (s : State) : Host.Outcome State Fault Refusal := .next (objIssue .config h o s)
def execObjConfigServiceEndpoint (h : Hdr) (o : ObjOps) (s : State) : Host.Outcome State Fault Refusal := .next (objIssue .config h o s)
def execObjConfigSaveArea (h : Hdr) (o : ObjOps) (s : State) : Host.Outcome State Fault Refusal := .next (objIssue .config h o s)
def execObjConfigAddressSpace (h : Hdr) (o : ObjOps) (s : State) : Host.Outcome State Fault Refusal := .next (objIssue .config h o s)
def execObjConfigFormatSlot (h : Hdr) (o : ObjOps) (s : State) : Host.Outcome State Fault Refusal := .next (objIssue .config h o s)
def execObjConfigWcAge (h : Hdr) (o : ObjOps) (s : State) : Host.Outcome State Fault Refusal := .next (objIssue .config h o s)
def execObjConfigWatchdog (h : Hdr) (o : ObjOps) (s : State) : Host.Outcome State Fault Refusal := .next (objIssue .config h o s)
def execObjConfigKeyslot (h : Hdr) (o : ObjOps) (s : State) : Host.Outcome State Fault Refusal := .next (objIssue .config h o s)
def execObjConfigLog (h : Hdr) (o : ObjOps) (s : State) : Host.Outcome State Fault Refusal := .next (objIssue .config h o s)
def execObjConfigSealAuthority (h : Hdr) (o : ObjOps) (s : State) : Host.Outcome State Fault Refusal := .next (objIssue .config h o s)
def execObjConfigQueuePair (h : Hdr) (o : ObjOps) (s : State) : Host.Outcome State Fault Refusal := .next (objIssue .config h o s)
def execObjConfigQueueFile (h : Hdr) (o : ObjOps) (s : State) : Host.Outcome State Fault Refusal := .next (objIssue .config h o s)
def execObjConfigCollGroup (h : Hdr) (o : ObjOps) (s : State) : Host.Outcome State Fault Refusal := .next (objIssue .config h o s)
def execObjConfigCollPairKey (h : Hdr) (o : ObjOps) (s : State) : Host.Outcome State Fault Refusal := .next (objIssue .config h o s)
def execObjConfigFilemapSource (h : Hdr) (o : ObjOps) (s : State) : Host.Outcome State Fault Refusal := .next (objIssue .config h o s)
def execObjMap (h : Hdr) (o : ObjOps) (s : State) : Host.Outcome State Fault Refusal := .next (objIssue .map h o s)
def execObjUnmap (h : Hdr) (o : ObjOps) (s : State) : Host.Outcome State Fault Refusal := .next (objIssue .unmap h o s)
def execObjBind (h : Hdr) (o : ObjOps) (s : State) : Host.Outcome State Fault Refusal := .next (objIssue .bind h o s)
def execObjSuspend (h : Hdr) (o : ObjOps) (s : State) : Host.Outcome State Fault Refusal := .next (objIssue .suspend h o s)
def execObjResume (h : Hdr) (o : ObjOps) (s : State) : Host.Outcome State Fault Refusal := .next (objIssue .resume h o s)
def execObjTeardown (h : Hdr) (o : ObjOps) (s : State) : Host.Outcome State Fault Refusal := .next (objIssue .teardown h o s)
def execObjStatus (h : Hdr) (o : ObjOps) (s : State) : Host.Outcome State Fault Refusal := .next (objIssue .status h o s)
def execObjFreeze (h : Hdr) (o : ObjOps) (s : State) : Host.Outcome State Fault Refusal := .next (objIssue .freeze h o s)
def execObjAttest (h : Hdr) (o : ObjOps) (s : State) : Host.Outcome State Fault Refusal := .next (objIssue .attest h o s)
def execFaultactResume (h : Hdr) (o : ObjOps) (s : State) : Host.Outcome State Fault Refusal := .next (objIssue .faultact h o s)
def execFaultactSkip (h : Hdr) (o : ObjOps) (s : State) : Host.Outcome State Fault Refusal := .next (objIssue .faultact h o s)
def execFaultactRetry (h : Hdr) (o : ObjOps) (s : State) : Host.Outcome State Fault Refusal := .next (objIssue .faultact h o s)
def execFaultactKill (h : Hdr) (o : ObjOps) (s : State) : Host.Outcome State Fault Refusal := .next (objIssue .faultact h o s)
def execFaultactTeardown (h : Hdr) (o : ObjOps) (s : State) : Host.Outcome State Fault Refusal := .next (objIssue .faultact h o s)
def execFaultactSave (h : Hdr) (o : ObjOps) (s : State) : Host.Outcome State Fault Refusal := .next (objIssue .faultact h o s)

end Sys2Proof.Machine
end

