-- ==== Sys2Proof/Machine/Booted.lean ====
section
/-! DEFINITION. A small machine that runs: the parts that a loaded program needs around one instruction, as boot, a host's commands and a placement would leave them (log entry 12). -/

namespace Sys2Proof.Machine

/-- Where a loaded instruction stands. -/
def probePc : Nat := 0x100000

/-- Its launch: one thread, the most registers, every matrix resource. -/
def probeLaunch : Launch :=
  { Launch.empty with
    sched := 0x40000, ctx := 0x20000, scratch := 4096, lanemem := 16, regs := 768, declared := 768, nqueue := 4, nsbuf := 2, nacc := 8
    slots := List.replicate 8 0
    entries := [Cap.make probePc 0x20000 0x000D true probePc], granules := List.replicate 16 Cap.null }

/-- A Context of world 4 with an AddressSpace and a save area. -/
def probeContext : ContextObj :=
  { newContext 1 with aspace := some 0x30000, save := Cap.make 0x200000 0x200000 0x003B true 0x200000 }

def probeObjs : List (Nat × Obj) :=
  let o (b : Body) : Obj := { world := 4, torn := false, parent := none, src := 0, body := b }
  [(0x20000, o (.context probeContext)), (0x30000, o (.aspace { root := 0x32000, free := [], files := [] })),
   (0x40000, o (.sched { prio := 0, budget := 0, period := 0, affin := BitVec.allOnes 96, queue := [], nextUnit := 0, taken := false, left := 0, periodStart := 0, owed := 0, touched := [], served := 0, suspended := false }))]

def probeUnit : UnitRec :=
  { sched := 0x40000, launch := probeLaunch, ham := (0, 0, 0), hamlet := 0, groups := [0], hbars := [], stageQ := [], saved := false, order := 0, toSave := false, prio := 0 }

/-- One group with one clan of one thread, standing at the instruction. -/
def probeGroup (s : State) : Group := startGroup s 0 probeUnit probeLaunch false 0 0 0 [0] 0x200000 0 .run

/-- A state around an instruction's bytes: booted, with page tables that map the first 128 GiB of HBM one to one, the group, and the choice that issues its thread. -/
def probe (s : State) (bs : List Byte) : State :=
  let s1 := { s with
    lock := true, trngOk := true, cur := none, closed := []
    objs := probeObjs.foldl (fun m o => Map.set o.1 o.2 m) s.objs
    units := Map.set 0 probeUnit s.units
    agenda := [.issue 0 0 [0]] }
  let s2 := writePhys s1 0x32000 (bytesOf (Pte.mkTable 0x34000) 8)
  let s3 := writePhys s2 0x34000 (bytesOf (Pte.mkLeaf 0 4 0 0 true true true false) 8)
  let s4 := writePhys s3 probePc bs
  { s4 with groups := Map.set 0 (probeGroup s4) s4.groups, ecc := [] }

end Sys2Proof.Machine
end

