-- ==== Sys2Proof/Machine/LaunchRec.lean ====
section
/-! DEFINITION. Launch records (R201) and their entry into a launch queue (R184, R197). -/

namespace Sys2Proof.Machine

/-- The 16 granules of 256 bytes read at a range: bytes and tags; without LOADCAP the tags are clear (R197). -/
def granulesOf (s : State) (x : Cx) (ps : List (Loc × Nat)) (loadcap : Bool) : List Cap × State :=
  let (bs, s1) := readRange s x ps
  let tags := ps.flatMap fun p => (List.range (p.2 / 16)).map fun i => tagLoc (viewFor s x p.1) (p.1.plus (16 * i))
  (((List.range 16).map fun i =>
    ({ bits := BitVec.ofNat 128 (ofBytes ((bs.drop (16 * i)).take 16)), tag := tags[i]?.getD false && loadcap } : Cap).norm), s1)

/-- Bits of a record of granules: `off` in bytes. -/
def recBits (gs : List Cap) (off lo n : Nat) : Nat := bitsAt ((gs[off / 16]?.getD Cap.null).bits.toNat / 2 ^ (8 * (off % 16))) lo n

/-- The fields of a record (R201). -/
def parseLaunch (gs : List Cap) : Launch :=
  let g (i : Nat) : Cap := gs[i]?.getD Cap.null
  { entries := [g 0, g 12, g 13, g 14], args := g 1, sched := (g 2).base, ctx := (g 3).base
    ovlp := recBits gs 0x40 60 1 == 1, nstage := recBits gs 0x40 56 4, ngrp := recBits gs 0x40 48 8
    shape := (recBits gs 0x40 0 16, recBits gs 0x40 16 16, recBits gs 0x40 32 16)
    grid := (recBits gs 0x48 0 16, recBits gs 0x48 16 16, recBits gs 0x48 32 16)
    scratch := recBits gs 0x50 32 32, lanemem := recBits gs 0x50 16 16, regs := recBits gs 0x50 0 16
    nqueue := recBits gs 0x58 48 8, nsbuf := recBits gs 0x58 40 8, nacc := recBits gs 0x58 32 8, hambytes := recBits gs 0x58 0 32
    start := recBits gs 0x68 0 64, pmode := recBits gs 0x70 24 2
    shifts := (recBits gs 0x70 0 5, recBits gs 0x70 8 5, recBits gs 0x70 16 5)
    slots := (List.range 8).map fun i => BitVec.ofNat 64 (recBits gs (0x80 + 8 * i) 0 64)
    declared := recBits gs 0x50 0 16, granules := gs }

/-- Whether the fields of a record that must be zero are zero and PMODE is assigned (code 7 of R203). -/
def zeroFieldsOk (gs : List Cap) : Bool :=
  recBits gs 0x40 61 3 == 0 && recBits gs 0x48 48 16 == 0 && recBits gs 0x58 56 8 == 0 && recBits gs 0x60 0 64 == 0 &&
    recBits gs 0x70 26 38 == 0 && recBits gs 0x70 21 3 == 0 && recBits gs 0x70 13 3 == 0 && recBits gs 0x70 5 3 == 0 &&
    recBits gs 0x70 25 1 == 0 && recBits gs 0x78 0 64 == 0 && (gs[15]?.getD Cap.null) == Cap.null

/-- An object capability of a type with INVOKE. -/
def objCap (c : Cap) (otype : Nat) : Bool := c.tag && c.otype == otype && c.has permInvoke

/-- Enqueue of R197, for a launch by a Context of a world. -/
def enqueue (s : State) (world : Nat) (gs0 : List Cap) : Nat × State :=
  let gs := gs0.map (sieve s world)
  let g (i : Nat) : Cap := gs[i]?.getD Cap.null
  let l := parseLaunch gs
  if !((g 0).tag && (g 0).has permExec) || !objCap (g 2) 3 || !objCap (g 3) 6 then (stBADCAP, s)
  else if (s.obj? l.ctx).isSome && s.worldOf l.ctx != world then (stWORLD, s)
  else if s.dead l.sched || s.dead l.ctx then (stDEAD, s)
  else
    match s.sched? l.sched with
    | none => (stBADCAP, s)
    | some q =>
      if 256 ≤ q.queue.length then (stFULL, s)
      else (stOK, s.modSched l.sched fun q => { q with queue := q.queue ++ [l] })

/-- The template with its argument capability (R197). -/
def childRecord (gs : List Cap) (args : Option Cap) (off : Nat) : List Cap :=
  let x := args.getD (gs[1]?.getD Cap.null)
  gs.set 1 (x.withAddr (x.addr + off))

end Sys2Proof.Machine
end

