-- ==== Sys2Proof/Machine/SlotFate.lean ====
section
/-! DEFINITION. Format slots (R80-R82) and the reasons of an illegal encoding that a slot, a tile, a buffer or a scratchpad descriptor gives (R56, R231, R281, R284, R291, R303, R392). -/

namespace Sys2Proof.Machine

/-! Fields of a format slot (R80). -/

def slotAf (n : Nat) : Option Fmt := Fmt.ofCode (bitsAt n 0 4)
def slotBf (n : Nat) : Option Fmt := Fmt.ofCode (bitsAt n 4 4)
def slotAcc (n : Nat) : Option Fmt := Fmt.ofCode (bitsAt n 8 4)
def slotAScale (n : Nat) : Nat := bitsAt n 12 3
def slotBScale (n : Nat) : Nat := bitsAt n 15 3
def slotRnd (n : Nat) : Rnd := match bitsAt n 18 2 with | 0 => .rn | 1 => .rz | 2 => .rd | _ => .ru
def slotSat (n : Nat) : Bool := bitsAt n 20 1 == 1

def slotNum (s : State) (x : Cx) (i : Fin 8) : Nat := (fmtSlot s x.gid i.val).toNat

/-- The accumulate format of a slot, where MMA, MLD, MST, MCVT, MROW and MSCALE take it (R281). -/
def accFmt (n : Nat) : Option Fmt :=
  match slotAcc n with
  | some .fp64 => some .fp64
  | some .fp32 => some .fp32
  | some .int32 => some .int32
  | _ => none

/-- The combinations of R284, scale modes apart; whether the row takes scales. -/
def comboOf (sr : Semiring) (af bf cf : Fmt) : Option Bool :=
  let f8 (f : Fmt) : Bool := f == .e4m3 || f == .e5m2
  let i8 (f : Fmt) : Bool := f == .int8 || f == .uint8
  match sr with
  | .plusTimes =>
    if (af, bf, cf) = (.fp64, .fp64, .fp64) ∨ (af, bf, cf) = (.fp32, .fp32, .fp32) then some false
    else if cf = .fp32 ∧ ((af = bf ∧ (af = .bf16 ∨ af = .fp16 ∨ af = .int4)) ∨ (f8 af ∧ f8 bf) ∨ (i8 af ∧ i8 bf) ∨
        (bf = .pp8 ∧ (af = .bf16 ∨ af = .fp16 ∨ f8 af ∨ i8 af))) then some true
    else if cf = .int32 ∧ ((i8 af ∧ i8 bf) ∨ (af = bf ∧ (af = .int4 ∨ af = .int16))) then some false
    else none
  | .orAnd => if (af, bf, cf) = (.b1, .b1, .int32) then some false else none
  | _ =>
    if af = bf ∧ ((cf = .fp32 ∧ (af = .bf16 ∨ af = .fp16 ∨ af = .fp32)) ∨ (cf = .int32 ∧ (af = .int16 ∨ af = .int32))) then some false
    else none

/-- R284 whole. -/
def mmaAccepts (sr : Semiring) (n : Nat) : Bool :=
  match slotAf n, slotBf n, slotAcc n with
  | some af, some bf, some cf =>
    match comboOf sr af bf cf with
    | some true => decide (slotAScale n ≤ 3) && decide (slotBScale n ≤ 3)
    | some false => slotAScale n == 0 && slotBScale n == 0
    | none => false
  | _, _, _ => false

/-- Bytes of A (R284, R285). -/
def aBytes (af bf : Fmt) : Nat := 64 * kOf bf * Fmt.bits af / 8
/-- Bytes of A scales in registers (R286). -/
def aScaleBytes (bf : Fmt) (mode : Nat) : Nat :=
  match mode with
  | 2 => 256
  | 3 => 128 * ((kOf bf + 63) / 64)
  | _ => 0

/-! Reasons. -/

/-- A tile named with an accumulate format: beyond the allocation 5, odd where a pair is needed 6, the second tile of a pair beyond the allocation 5. -/
def tileReason (nacc t : Nat) (cf : Fmt) : Nat :=
  if nacc ≤ t then 5
  else if cf = .fp64 then (if t % 2 = 1 then 6 else if nacc ≤ t + 1 then 5 else 0)
  else 0

def bufReason (nsbuf b : Nat) : Nat := if nsbuf ≤ b then 5 else 0

/-- A byte image of n bytes from a v register (R285), or from w registers that stand in its place (R395). -/
def imageReason (regs : Nat) (r : Reg) (n : Nat) : Nat :=
  match r with
  | .v i => if regs < i.val + (n + 127) / 128 then 5 else 0
  | .w i => if wStands false i.val ((n + 127) / 128) then 0 else 8
  | _ => 8

/-- R231. -/
def descReason (s : State) (x : Cx) (d : Reg) : Nat := if (rd64 s x d).toNat / 2 ^ 59 = 0 then 0 else 12

def locReason (s : State) (x : Cx) : MLoc → Nat
  | .scratch d _ => descReason s x d
  | .mem .. => 0

def allReasons (rs : List Nat) : Nat := rs.foldr minReason 0

/-- The scale operand of an MMA (R286, R290). -/
def scaleReason (regs : Nat) (mode : Nat) (bf : Fmt) (sc : Reg) : Nat :=
  match mode, sc with
  | 0, .vz => 0
  | 1, .k _ => 0
  | 2, .v i | 3, .v i => imageReason regs (.v i) (aScaleBytes bf mode)
  | 2, .w i | 3, .w i => imageReason regs (.w i) (aScaleBytes bf mode)
  | m, _ => if 4 ≤ m then 0 else 8

def mmaReason (s : State) (x : Cx) (sr : Semiring) (n acc sb : Nat) (src : ASrc) (sc : Reg) : Nat :=
  let g := s.grp x.gid
  let l := g.launch
  let cf := (accFmt n).getD .fp32
  let base := [if mmaAccepts sr n then 0 else 11, tileReason l.nacc acc cf, bufReason l.nsbuf sb]
  let mine :=
    match src with
    | .regs a => match slotAf n, slotBf n with | some af, some bf => [imageReason g.regs a (aBytes af bf)] | _, _ => []
    | .scratch d _ => [descReason s x d]
    | .acc t col =>
      [tileReason l.nacc t.val cf,
       match slotAf n, slotBf n with
       | some af, some bf => if 64 < kOf bf ∨ 64 ≤ col.val * kOf bf ∨ af = .int4 ∨ af = .b1 then 8 else 0
       | _, _ => 0]
  let scale := match slotBf n with | some bf => [scaleReason g.regs (slotAScale n) bf sc] | none => []
  allReasons (base ++ mine ++ scale)

/-- The reasons beyond the word of an instruction (R56): what it reads in its format slot, its group's allocation, its descriptor. -/
def slotReason (s : State) (x : Cx) (i : Instr) : Nat :=
  let g := s.grp x.gid
  let l := g.launch
  match i with
  | .mma _ sr sl acc sb src _ sc => mmaReason s x sr (slotNum s x sl) acc.val sb.val src sc
  | .mwld _ sl sb src =>
    let n := slotNum s x sl
    let fmt := match slotBf n with | some _ => if 4 ≤ slotBScale n then 11 else 0 | none => 11
    let mine :=
      match src with
      | .regs a => match slotBf n with | some bf => imageReason g.regs a (kOf bf * bRow bf + bScaleBytes bf (slotBScale n)) | none => 0
      | .loc c => locReason s x c
      | .enc .. => 0
    allReasons [fmt, bufReason l.nsbuf sb.val, mine]
  | .mld _ sl acc c | .mst _ _ sl acc c =>
    match accFmt (slotNum s x sl) with
    | some cf => allReasons [tileReason l.nacc acc.val cf, locReason s x c]
    | none => allReasons [11, tileReason l.nacc acc.val .fp32, locReason s x c]
  | .mzero _ tiles bufs =>
    if (List.range 8).any (fun t => tiles.getLsbD t && decide (l.nacc ≤ t)) || (List.range 2).any (fun b => bufs.getLsbD b && decide (l.nsbuf ≤ b)) then 5 else 0
  | .mrow _ _ sl acc d _ _ =>
    match accFmt (slotNum s x sl) with
    | some cf => allReasons [tileReason l.nacc acc.val cf, imageReason g.regs d (64 * Fmt.bits cf / 8)]
    | none => allReasons [11, tileReason l.nacc acc.val .fp32]
  | .mscale _ sl acc sv _ _ =>
    match accFmt (slotNum s x sl) with
    | some cf => allReasons [if cf = .int32 then 11 else 0, tileReason l.nacc acc.val cf, imageReason g.regs sv (64 * Fmt.bits cf / 8)]
    | none => allReasons [11, tileReason l.nacc acc.val .fp32]
  | .mstat _ sel ix _ =>
    match sel with
    | .flags => if l.nacc ≤ ix.val then 5 else 0
    | .sb => bufReason l.nsbuf ix.val
    | .alloc => 0
  | .mcvt _ sl src dst dk =>
    match accFmt (slotNum s x sl) with
    | some cf => allReasons [tileReason l.nacc src.val cf, tileReason l.nacc dst.val (match dk with | .f32 => .fp32 | .i32 => .int32 | .f64 => .fp64)]
    | none => allReasons [11, tileReason l.nacc src.val .fp32]
  | _ => 0

end Sys2Proof.Machine
end

