-- ==== Sys2Proof/Machine/Carter.lean ====
section
/-! DEFINITION. The Carter: request blocks (R323-R327), acceptance (R328, R329), elements and completion (R328-R331), TCOPY (R332), COPYCMD queues (R333, R334), QFENCE's order between engine queues (R198, R258). -/

namespace Sys2Proof.Machine

/-! Engine queues. -/

/-- An entry of an engine queue before position m has not been performed: not yet taken, or taken and not ended. -/
def fenceOpen (s : State) (k m : Nat) : Bool :=
  s.copies.any (fun c => c.2.key == k && decide (c.2.pos < m)) ||
    (k % 2 == 1 &&
      ((match s.queue? (k / 2) with | some q => !s.dead (k / 2) && decide (q.popped < m) | none => false) ||
        s.wells.any (fun c => c.2.queue == k / 2 && decide (c.2.pos < m)) ||
        s.closed.any fun c => c.queue == k / 2 && decide (c.pos < m)))

/-- R198: the entry at a position of an engine queue is later than a fence whose earlier entries have not all been performed. -/
def fenceHolds (s : State) (k pos : Nat) : Bool :=
  s.qfences.any fun f => f.marks.any (fun a => a.1 == k && decide (a.2 ≤ pos)) && f.marks.any fun a => fenceOpen s a.1 a.2

/-- Fences whose earlier entries have all been performed hold nothing more. -/
def pruneFences (s : State) : State := { s with qfences := s.qfences.filter fun f => f.marks.any fun a => fenceOpen s a.1 a.2 }

/-! Request blocks. -/

/-- The fields of a block (R323). -/
structure CopyBlk where
  src : Cap
  dst : Cap
  idx : Cap
  target : Nat
  ndim : Nat
  esize : Nat
  idxw : Bool
  slot : Nat
  rot : Nat
  arren : Bool
  arrb : Nat
  op : Nat
  counts : List Nat
  sstr : List Int
  dstr : List Int
  fill : List Byte
  deriving DecidableEq, Repr, Inhabited

def parseCopy (gs : List Cap) : CopyBlk :=
  let g (i : Nat) : Cap := gs[i]?.getD Cap.null
  let ctrl (lo n : Nat) : Nat := recBits gs 0x30 lo n
  { src := g 0, dst := g 1, idx := g 2
    target := ctrl 56 8, ndim := ctrl 48 4, esize := ctrl 32 16, idxw := ctrl 27 1 == 1, slot := ctrl 24 3, rot := ctrl 21 3
    arren := ctrl 20 1 == 1, arrb := ctrl 16 4, op := ctrl 0 4
    counts := (List.range (ctrl 48 4)).map fun d => recBits gs (0x38 + 4 * d) 0 32
    sstr := (List.range (ctrl 48 4)).map fun d => toSigned 64 (recBits gs (0x60 + 8 * d) 0 64)
    dstr := (List.range (ctrl 48 4)).map fun d => toSigned 64 (recBits gs (0xA8 + 8 * d) 0 64)
    fill := bytesOf (g 15).bits.toNat 16 }

def CopyBlk.indexed (c : CopyBlk) : Bool := c.op == 2 || c.op == 3
/-- The number of elements (R324). -/
def CopyBlk.total (c : CopyBlk) : Nat := c.counts.foldl (· * ·) 1
/-- The number of indices. -/
def CopyBlk.rows (c : CopyBlk) : Nat := (c.counts.drop 1).foldl (· * ·) 1

/-- The point of a canonical index (R324). -/
def coordsOf : List Nat → Nat → List Nat
  | [], _ => []
  | k :: ks, n => n % k :: coordsOf ks (n / k)

def strideSum (cs : List Nat) (st : List Int) : Int := ((cs.zip st).map fun p => (p.1 : Int) * p.2).sum
def addr64 (a : Nat) (o : Int) : Nat := (((a : Int) + o) % (2 ^ 64 : Nat)).toNat

/-- The origin offset on an indexed side (R324). -/
def indexedSum (cs : List Nat) (st : List Int) (x : Int) : Int := ((cs[0]?.getD 0 : Nat) : Int) * st[0]?.getD 0 + x * st[1]?.getD 0

def CopyBlk.sa (c : CopyBlk) (n : Nat) (x : Int) : Nat :=
  let cs := coordsOf c.counts n
  addr64 c.src.addr (if c.op = 2 then indexedSum cs c.sstr x else strideSum cs c.sstr)
def CopyBlk.da (c : CopyBlk) (n : Nat) (x : Int) : Nat :=
  let cs := coordsOf c.counts n
  rotate (addr64 c.dst.addr (if c.op = 3 then indexedSum cs c.dstr x else strideSum cs c.dstr)) c.rot

def CopyBlk.iw (c : CopyBlk) : Nat := if c.idxw then 8 else 4
/-- The address of the index of an element (R324). -/
def CopyBlk.ia (c : CopyBlk) (n : Nat) : Nat := addr64 c.idx.addr ((n / c.counts[0]?.getD 1 * c.iw : Nat) : Int)
def CopyBlk.indexOf (c : CopyBlk) (bs : List Byte) : Int := toSigned (8 * c.iw) (ofBytes bs)

/-- The formats of CONVERT, from a slot. -/
def convFmts (slot : Nat) : Fmt × Fmt := ((slotAf slot).getD .fp32, (slotBf slot).getD .fp32)
def reqSlot (r : CopyReq) (c : CopyBlk) : Nat := (r.slots[c.slot]?.getD 0).toNat

/-- Sizes of an element at its source and its destination (R324, R325). -/
def elemSizes (r : CopyReq) (c : CopyBlk) : Nat × Nat :=
  if c.op = 1 then let f := convFmts (reqSlot r c); (Fmt.bits f.1 / 8, Fmt.bits f.2 / 8) else (c.esize, c.esize)

/-! Places. -/

inductive CarterWay where
  | here (ps : List (Loc × Nat))
  /-- The submitting group is gone: its scratchpad is freed (R342). -/
  | freed
  | wait (fm page : Nat)
  | bad
  deriving DecidableEq, Repr

/-- A window address of a submitter that is gone: its own scratchpad is freed, its neighbours' are not (R342). -/
def lateWindow (s : State) (r : CopyReq) (w o n : Nat) : CarterWay :=
  let rank := o / 2 ^ 19
  if w = 1 then (if o + n ≤ r.launch.scratch then .freed else .bad)
  else if r.launch.ngrp ≤ rank ∨ r.launch.hambytes < o % 2 ^ 19 + n then .bad
  else if rank = r.home.2.2 then .freed
  else match rankIn s r.home.1 r.home.2.1 rank with | some p => .here [(.pad p (o % 2 ^ 19), n)] | none => .bad

/-- R328: windows resolve by the submitting group on its compute core, never a lane window; every other address in the Context's AddressSpace. -/
def carterPlace (s : State) (r : CopyReq) (acc : Acc) (a n : Nat) : CarterWay :=
  match windowOf a with
  | some w =>
    match r.who with
    | none => .bad
    | some (gid, c) =>
      if w = 0 then .bad
      else if (s.grp? gid).isNone then lateWindow s r w (a % 2 ^ 24) n
      else
        match windowHit s ⟨gid, c, 0⟩ w (a % 2 ^ 24) n with
        | .at_ l => .here [(l, n)]
        | _ => .bad
  | none =>
    match pieces (locateCtx s r.ctx acc) (n / 2 ^ 17 + 2) a n with
    | .ok ps => .here ps
    | .error (.absent f p) => .wait f p
    | .error _ => .bad

/-- A group as its image holds it while it is saved (R335). -/
def imageView (s : State) (gid : Nat) : State := if (s.grp gid).stat = .saved ∧ slotMapped s gid then loadImage s gid else s

/-- Memory as a request at the Carter of a hamlet reads a place. -/
def carterView (s : State) (id : Nat) (r : CopyReq) (l : Loc) : State :=
  match l with
  | .pad g _ => imageView s g
  | l => viewFor s (carterCx id r.hamlet) l

def carterRead (s : State) (id : Nat) (r : CopyReq) (ps : List (Loc × Nat)) : List Byte × State :=
  ps.foldl (fun (acc : List Byte × State) p =>
    match p.1 with
    | .mem pa mt _ =>
      if 4 ≤ mt then let q := ioBytes acc.2 pa p.2; (acc.1 ++ q.1, q.2) else (acc.1 ++ readLoc (carterView acc.2 id r p.1) p.1 p.2, acc.2)
    | l => (acc.1 ++ readLoc (carterView acc.2 id r l) l p.2, acc.2)) ([], s)

def carterDark (s : State) (id : Nat) (r : CopyReq) (ps : List (Loc × Nat)) : Bool :=
  ps.any fun p => (darkPieces (carterView s id r p.1) [p]).isSome

/-- Writes an element, each granule with its tag at once (R326, R327); through the image of a saved group (R335). -/
def carterWrite (s : State) (id : Nat) (r : CopyReq) (ps : List (Loc × Nat)) (bs : List Byte) (ts : List (Nat × Bool)) : State :=
  let who := (carterCx id r.hamlet).writer
  writeWith (fun st l b t => match l with
    | .pad g _ => redirect st g fun st => writeLoc st who l b t
    | l => writeLoc st who l b t) s ps bs ts

/-! Acceptance. -/

/-- Check 1 of R328. -/
def copyWellFormed (r : CopyReq) (c : CopyBlk) (service : Bool) : Bool :=
  let z (off lo n : Nat) : Bool := recBits r.blk off lo n == 0
  let null (x : Cap) : Bool := x == Cap.null
  z 0x30 52 4 && z 0x30 28 4 && z 0x30 4 12 && z 0x5C 0 32 &&
    ((List.range 9).all fun d => decide (d < c.ndim) || (z (0x38 + 4 * d) 0 32 && z (0x60 + 8 * d) 0 64 && z (0xA8 + 8 * d) 0 64)) &&
    decide (c.op ≤ 4) && decide (1 ≤ c.ndim) && decide (c.ndim ≤ 9) &&
    (if c.op = 1 then c.esize == 0 else decide (1 ≤ c.esize)) && (c.op == 1 || c.slot == 0) &&
    (c.op != 4 || null c.src) && (c.indexed || null c.idx) &&
    (!c.indexed || (decide (2 ≤ c.ndim) && ((if c.op = 2 then c.sstr else c.dstr).drop 2).all (· == 0))) &&
    (if service then decide (c.target < 96) && !c.arren else if r.fromCmd then c.target == 0xFF && !c.arren else c.target == 0xFF)

/-- Check 2 (R325). -/
def copyFormats (r : CopyReq) (c : CopyBlk) : Bool :=
  c.op != 1 ||
    (let n := reqSlot r c
     let ok (f : Option Fmt) (pp : Bool) : Bool := match f with | some .int4 | some .b1 | none => false | some .pp8 => pp | some _ => true
     ok (slotAf n) true && ok (slotBf n) false && slotAScale n == 0 && slotBScale n == 0)

/-- Check 3 of one capability: tag, seal and permission, then the bytes from the lowest to the highest of some addresses; through an exported capability the local checks of R435. -/
def copyCap (s : State) (world : Nat) (c0 : Cap) (perm : Nat) (as : List Nat) (n : Nat) : Bool :=
  let c := sieve s world c0
  if c.tag && c.x then (xCheck c c.addr [perm]).isNone
  else
    match as with
    | [] => (capCheckAlign c c.base 0 1 [perm]).isNone
    | a :: rest =>
      let lo := rest.foldl min a
      let hi := rest.foldl max a
      (capCheckAlign c lo (hi + n - lo) 1 [perm]).isNone

def copyCaps (s : State) (r : CopyReq) (c : CopyBlk) : Bool :=
  let w := s.worldOf r.ctx
  let (ns, nd) := elemSizes r c
  let all := List.range c.total
  (c.op == 4 || copyCap s w c.src permLoad (if c.op = 2 then [] else all.map fun n => c.sa n 0) ns) &&
    copyCap s w c.dst permStore (if c.op = 3 then [] else all.map fun n => c.da n 0) nd &&
    (!c.indexed || copyCap s w c.idx permLoad (if c.total = 0 then [] else all.map c.ia) c.iw)


/-- The status that acceptance gives, none when the request is accepted (R328). -/
def copyRefused (s : State) (r : CopyReq) (c : CopyBlk) (service : Bool) : Option Nat :=
  if !copyWellFormed r c service then some 1
  else if !copyFormats r c then some 2
  else if !copyCaps s r c then some 3
  else none

/-- The row of an element in the index list. -/
def CopyBlk.row (c : CopyBlk) (n : Nat) : Nat := n / c.counts[0]?.getD 1
/-- The bytes of an element's index as acceptance read them (R329). -/
def listed (r : CopyReq) (c : CopyBlk) (n : Nat) : Option (List Byte) := (r.list[c.row n]?).bind fun q => if q.1 = 0 then some q.2 else none

/-- The scratchpad lines of an element's destination (R229); a SCATTER finds them by its index list. -/
def elemLines (s : State) (r : CopyReq) (c : CopyBlk) (n : Nat) : List (Nat × Nat) :=
  let at_ (x : Int) : List (Nat × Nat) :=
    let a := c.da n x
    if (windowOf a).isNone || c.dst.x then []
    else
      match carterPlace s r .wr a (elemSizes r c).2 with
      | .here [(.pad g o, k)] => (List.range ((o + k - 1) / 64 - o / 64 + 1)).map fun i => (g, o / 64 + i)
      | _ => []
  if c.op = 3 then ((listed r c n).map fun bs => at_ (c.indexOf bs)).getD [] else at_ 0

/-- The lines of the elements from one on, each once. -/
def linesFrom (s : State) (r : CopyReq) (c : CopyBlk) (n : Nat) : List (Nat × Nat) :=
  (((List.range c.total).drop n).flatMap (elemLines s r c)).foldl (fun acc l => if acc.contains l then acc else acc ++ [l]) []

def darkenLine (s : State) (gid ln : Nat) : State :=
  redirect s gid fun s => s.modGrp gid fun g => { g with absent := SMap.put false ln true g.absent }

/-- Requests that a Carter holds (R331). -/
def carterFull (s : State) (hamlet : Nat) : Bool := decide (64 ≤ (s.copies.filter fun r => r.2.hamlet == hamlet).length)

/-! Elements. -/

/-- The first of its engine queue, and no fence before it (R198, R258). -/
def copyFirst (s : State) (id : Nat) (r : CopyReq) : Bool :=
  !(s.copies.any fun o => o.2.key == r.key && decide (o.1 < id)) && !fenceHolds s r.key r.pos

def awaitsRemote (s : State) (id : Nat) : Bool := s.remotes.any fun q => q.2.carter == some id

def endCopy (s : State) (id status elem : Nat) : State :=
  match Map.get? id s.copies with
  | none => s
  | some r =>
    let s1 := if status = 0 then s else freeLines s r.lines
    { s1 with copies := Map.set id { r with ended := some (status, elem), paged := none, lines := if status = 0 then r.lines else [] } s1.copies }

/-- What a part of an element gives: bytes, a wait, or the status that ends the request. -/
inductive Got where
  | ok (bs : List Byte) (s : State)
  | later (s : State)
  | bad (status : Nat)

/-- A request to another package goes behind the submitting core's combined writes of its lines (R259, R440). -/
def carterFlush (s : State) (r : CopyReq) (cap : Cap) (a n : Nat) : State :=
  match r.core with | some k => wcFlushCore s k cap (xOff cap a) n | none => s

/-- A part of an element goes to another package. -/
def carterAsk (s : State) (id : Nat) (r : CopyReq) (cap : Cap) (a n : Nat) (op : RemoteOp) : State :=
  (remoteAsk (carterFlush s r cap a n) {
    pkg := cap.xPkg, entry := cap.xEntry, chk := cap.xChk, off := xOff cap a, op := op, who := none, world := s.worldOf r.ctx
    d := .vz, ty := .n8, carter := some id, status := none, cap := cap }).2

/-- A request waits for a page of a file (R328). -/
def carterPage (s : State) (id fm page : Nat) : State :=
  demandPage { s with copies := Map.modify id (fun r => { r with paged := some (fm, page) }) s.copies } fm page

/-- Bytes that an element reads, here or at another package (R328, R435). -/
def carterFetch (s : State) (id : Nat) (r : CopyReq) (cap : Cap) (a n : Nat) (have_ : Option (List Byte)) : Got :=
  match have_ with
  | some bs => .ok bs s
  | none =>
    if cap.x then .later (carterAsk s id r cap a n (.load n))
    else
      match carterPlace s r .rd a n with
      | .bad => .bad 4
      | .wait f p => .later (carterPage s id f p)
      | .freed => let (k, s1) := s.draw; .ok ((List.range n).map (Config.deviceByte k)) s1
      | .here ps =>
        if carterDark s id r ps then .later s
        else if eccPieces s ps then .bad 5
        else let (bs, s1) := carterRead s id r ps; .ok bs s1

/-! Acceptance (R328, R329): its checks; a SCATTER has its index list read; then the lines are cleared, and the TCOPY completes. -/

def needsList (r : CopyReq) (c : CopyBlk) : Bool := c.op == 3 && r.ended.isNone

/-- The lines are cleared, and the TCOPY completes (R329, R332). -/
def admitCopy (s : State) (id : Nat) : State :=
  match Map.get? id s.copies with
  | none => s
  | some r =>
    let ls := if r.ended.isSome then [] else linesFrom s r (parseCopy r.blk) 0
    let s1 := ls.foldl (fun s l => darkenLine s l.1 l.2) { s with copies := Map.set id { r with lines := ls, opening := none, accepted := true } s.copies }
    match r.opening with
    | some (w, d, foot) => completeWith s1 w (fun y => wr32 s1 y d r.seq) foot
    | none => s1

/-- The next row of the index list, or the status of its read. -/
def listRow (s : State) (id status : Nat) (bs : List Byte) : State :=
  { s with copies := Map.modify id (fun r => { r with index := none, paged := none, list := r.list ++ [(status, bs)] }) s.copies }

/-- One step of acceptance: a row of the index list, as a read of the copy and so after the earlier requests of its engine queue (R258), or the rest. -/
def openStep (s : State) (id : Nat) : State :=
  match Map.get? id s.copies with
  | none => s
  | some r =>
    let c := parseCopy r.blk
    if r.accepted then s
    else if needsList r c && decide (r.list.length < c.rows) then
      if awaitsRemote s id || !copyFirst s id r then s
      else if !(sieve s (s.worldOf r.ctx) c.idx).tag then listRow s id 3 []
      else
        match carterFetch s id r c.idx (c.ia (r.list.length * c.counts[0]?.getD 1)) c.iw r.index with
        | .bad st => listRow s id st []
        | .later s1 => s1
        | .ok bs s1 => listRow s1 id 0 bs
    else admitCopy s id

/-- A request reaches the Carter: the checks of acceptance, and as much of the rest as can be done at once. -/
def startCopy (s : State) (id : Nat) (r : CopyReq) (service : Bool) : State :=
  let c := parseCopy r.blk
  let r1 := { r with ended := match copyRefused s r c service with
    | some st => some (st, allOnes64)
    | none => if c.total = 0 then some (0, 0) else none }
  (List.range ((if needsList r1 c then c.rows else 0) + 1)).foldl (fun st _ => openStep st id) { s with copies := Map.set id r1 s.copies }

/-- The capability checks of an element (R328): tags after the sieve, the indexed side's bounds, alignment for CONVERT. -/
def elemCaps (s : State) (r : CopyReq) (c : CopyBlk) (sa da : Nat) : Bool :=
  let w := s.worldOf r.ctx
  let (ns, nd) := elemSizes r c
  let side (k : Cap) (a n : Nat) (perm : Nat) : Bool :=
    let k := sieve s w k
    if k.tag && k.x then (xCheck k a [perm]).isNone else (capCheckAlign k a n 1 [perm]).isNone
  (c.op == 4 || side c.src sa ns permLoad) && side c.dst da nd permStore && (!c.indexed || (sieve s w c.idx).tag) &&
    (c.op != 1 || (sa % ns == 0 && da % nd == 0))

/-- The bytes that an element writes (R324, R325). -/
def elemOut (r : CopyReq) (c : CopyBlk) (bs : List Byte) : List Byte :=
  match c.op with
  | 1 =>
    let n := reqSlot r c
    let f := convFmts n
    bytesOf (convertF f.1 f.2 (slotRnd n) false (slotSat n) (ofBytes bs)) (Fmt.bits f.2 / 8)
  | 4 => (List.range c.esize).map fun b => c.fill[b % 16]?.getD 0
  | _ => bs

/-- The granules of an element that keep their tags, by their place in it (R326). -/
def elemTags (s : State) (id : Nat) (r : CopyReq) (c : CopyBlk) (sa da : Nat) (bs : List Byte) : List (Nat × Bool) :=
  let w := s.worldOf r.ctx
  if c.op = 1 ∨ c.op = 4 ∨ c.esize % 16 ≠ 0 ∨ sa % 16 ≠ 0 ∨ da % 16 ≠ 0 ∨ c.src.x ∨ c.dst.x ∨ !c.src.has permLoadCap ∨ !c.dst.has permStoreCap then []
  else
    match carterPlace s r .rd sa c.esize with
    | .here ps =>
      (ps.flatMap fun p => (List.range (p.2 / 16)).map fun i => tagLoc (carterView s id r p.1) (p.1.plus (16 * i))).zipIdx.filterMap fun t =>
        let k := sieve s w ({ bits := BitVec.ofNat 128 (ofBytes ((bs.drop (16 * t.2)).take 16)), tag := t.1 } : Cap).norm
        if k.tag && (k.g || c.dst.has permStoreLocal) then some (16 * t.2, true) else none
    | _ => []

/-- An element has been written: the lines that no later element touches become present (R229), and the request goes on. -/
def elemDone (s : State) (id : Nat) : State :=
  match Map.get? id s.copies with
  | none => s
  | some r =>
    let c := parseCopy r.blk
    let n := r.next + 1
    let left := if r.lines.isEmpty then [] else linesFrom s r c n
    let done := r.lines.filter fun l => !left.contains l
    let s1 := freeLines s done
    let s2 := { s1 with copies := Map.set id { r with next := n, index := none, data := none, paged := none, lines := r.lines.filter fun l => left.contains l } s1.copies }
    if c.total ≤ n then endCopy s2 id 0 c.total else s2

/-- The write of an element. -/
def elemWrite (s : State) (id : Nat) (r : CopyReq) (c : CopyBlk) (sa da : Nat) (bs : List Byte) : State :=
  let out := elemOut r c bs
  if c.dst.x then carterAsk s id r c.dst da out.length (.store out)
  else
    match carterPlace s r .wr da out.length with
    | .bad => endCopy s id 4 r.next
    | .wait f p => carterPage s id f p
    | .freed => elemDone s id
    | .here ps => elemDone (carterWrite s id r ps out (elemTags s id r c sa da bs)) id

/-- The index of an element: of a SCATTER as acceptance read it, and an element whose row could not be read ends the request; else read now. -/
def elemIndex (s : State) (id : Nat) (r : CopyReq) (c : CopyBlk) : Got :=
  if c.op = 3 then
    match r.list[c.row r.next]? with
    | some (0, bs) => .ok bs s
    | some (st, _) => .bad st
    | none => .bad 4
  else carterFetch s id r c.idx (c.ia r.next) c.iw r.index

/-- The next element of a request, where nothing stands in its way (R324-R328). An element that fails several checks at once takes the status of the first: of its index, of its capabilities and alignment, of its source's translation and data, of its destination's translation; the manual gives no order (log entry 44). -/
def carterStep (s0 : State) (id : Nat) : State :=
  match Map.get? id s0.copies with
  | none => s0
  | some r0 =>
    if !r0.accepted then openStep s0 id
    else if r0.ended.isSome || awaitsRemote s0 id || !copyFirst s0 id r0 then s0
    else
      let r := { r0 with paged := none }
      let s := { s0 with copies := Map.set id r s0.copies }
      let c := parseCopy r.blk
      let keep (s : State) (f : CopyReq → CopyReq) : State := { s with copies := Map.modify id f s.copies }
      let onIndex (x : Int) (s : State) (r : CopyReq) : State :=
        let sa := c.sa r.next x
        let da := c.da r.next x
        if !elemCaps s r c sa da then endCopy s id 3 r.next
        else if c.op = 4 then elemWrite s id r c sa da []
        else
          match carterFetch s id r c.src sa (elemSizes r c).1 r.data with
          | .bad st => endCopy s id st r.next
          | .later s1 => s1
          | .ok bs s1 => elemWrite s1 id r c sa da bs
      if !c.indexed then onIndex 0 s r
      else if !(sieve s (s.worldOf r.ctx) c.idx).tag then endCopy s id 3 r.next
      else
        match elemIndex s id r c with
        | .bad st => endCopy s id st r.next
        | .later s1 => s1
        | .ok bs s1 => onIndex (c.indexOf bs) (keep s1 fun r => { r with index := some bs }) { r with index := some bs }

/-- Another package's answer to a part of an element (R437): its bytes, its acknowledgement, or its refusal. -/
def carterAnswer (s : State) (id : Nat) (op : RemoteOp) (a : RemoteAns) : State :=
  match Map.get? id s.copies with
  | none => s
  | some r =>
    match a with
    | .refuse cls _ =>
      let st := if cls = 2 then 4 else if cls = 9 then 5 else 3
      if r.accepted then endCopy s id st r.next else listRow s id st []
    | .data bs =>
      match op with
      | .load n =>
        let b := (bs ++ List.replicate n 0).take n
        let c := parseCopy r.blk
        let r1 := if c.indexed && r.index.isNone then { r with index := some b } else { r with data := some b }
        { s with copies := Map.set id r1 s.copies }
      | _ => elemDone s id
    | .status _ => elemDone s id

/-- A file read failed: the requests that wait for its page end with XLATE (R342). -/
def failCopies (s : State) (fm page : Nat) : State :=
  (s.copies.filter fun r => r.2.paged == some (fm, page)).foldl (fun st r =>
    if r.2.accepted then endCopy st r.1 4 r.2.next else openStep (listRow st r.1 4 []) r.1) s

/-! Completion. -/

/-- Posts the completion of a request that has ended and whose writes are all performed at package scope, and arrives at its barrier (R258, R260, R330). -/
def carterComplete (s : State) (id : Nat) : State :=
  match Map.get? id s.copies with
  | none => s
  | some r =>
    match r.ended with
    | none => s
    | some (status, elem) =>
      if !copyFirst s id r || !r.accepted then s
      else if replAway s 0 (carterCx id r.hamlet).tid then sendAway s
      else
        let c := parseCopy r.blk
        let s1 := replSettle { s with copies := Map.del id s.copies }
        let s2 := hostRespond (postCompletion s1 r.comp r.seq status elem) r.host stOK []
        let s3 :=
          match r.who with
          | some (gid, _) =>
            if c.arren && status != 1 && (s2.grp? gid).isSome then redirect s2 gid fun s => arriveBar s gid c.arrb 1 0 else s2
          | none => s2
        wakeAll (pruneFences s3) fun w => match w with | .room _ => true | _ => false

def execCarterElementWrite (req : Nat) (s : State) : Host.Outcome State Fault Refusal := .next (carterStep s req)
def execCarterCompletion (req : Nat) (s : State) : Host.Outcome State Fault Refusal := .next (carterComplete s req)

/-! TCOPY. -/

def blkWay (s : State) (x : Cx) (blk : Reg) : RWay :=
  let c := useCap s x blk
  rangeWay s x c c.addr 256 16 [permLoad] .rd true

/-- A set whose TCOPY has read its block before and waits (R332). -/
def Actor.block (a : Actor) : List Cap × List DWord := (a.g.map Gather.held).getD ([], [])

/-- The checks of R332 in its order; a TCOPY that waits has passed those of its block. -/
def tcopyCheck (blk : Reg) (q : Fin 16) (s : State) (a : Actor) : Option FaultInfo :=
  let c := useCap s a.cx blk
  match if a.block.1.isEmpty then (if c.tag && c.x then xCheck c c.addr [permLoad] else capCheckAlign c c.addr 256 16 [permLoad]) else none with
  | some f => some f
  | none =>
    match checkBinding s a.cx q.val .pop (some 1) 128 with
    | .error f => some f
    | .ok _ => if a.block.1.isEmpty then rangeFault s true (blkWay s a.cx blk) else none

/-- A CONVERT whose slot holds a reserved code (R332). -/
def slotReserved (n : Nat) : Bool := (slotAf n).isNone || (slotBf n).isNone || decide (4 ≤ slotAScale n) || decide (4 ≤ slotBScale n)

/-- The request of a TCOPY through a binding with a block and its slots. -/
def tcopyReq (st : State) (a : Actor) (b : Binding) (d : Reg) (id : Nat) (gs : List Cap) (slots : List DWord) : CopyReq :=
  let g := st.grp a.cx.gid
  { hamlet := if g.service then (parseCopy gs).target else g.core / 16, key := b.key, seq := b.seq, pos := id, ctx := g.ctx
    who := if g.service then none else some (a.cx.gid, a.cx.cno), core := some (coreKey g), home := (g.unit, g.stage, g.rank), launch := g.launch
    opening := some (a.who, d, footOf st), accepted := false, paged := none, list := [], slots := slots, blk := gs, comp := b.q, next := 0, index := none, data := none, lines := []
    ended := none, fromCmd := false, host := none }

/-- TCOPY past the read of its block (R332): the slot, the room, the reservation, and acceptance. -/
def tcopyWith (d : Reg) (q : Fin 16) (b : Binding) (gs : List Cap) (slots : List DWord) (st1 : State) (a : Actor) : State :=
  let x := a.cx
  let c := parseCopy gs
  let slot := (slots[c.slot]?).getD 0
  if a.block.1.isEmpty && c.op == 1 && slotReserved slot.toNat then
    illegalFate st1 x.gid x.cno (laneMask a.mem) a.mem (pcOf st1) (rawOf st1) 0x30B 11 slot
  else if !canReserve st1 b.q || carterFull st1 (tcopyReq st1 a b d 0 gs slots).hamlet then
    parkActor st1 { a with g := a.g.map fun g => { g with held := (gs, slots) } } (.room b.q)
  else
    -- the clan's accesses to other packages were performed before its set ran (R249); its REPL writes are now (R259)
    let (id, st2) := (replSettle st1).newId
    let st3 := (reserveEntry st2 b.q).modClan x.gid x.cno fun cl => { cl with q := Map.modify q.val (fun b => { b with seq := b.seq + 1 }) cl.q }
    let st4 := startCopy st3 id (tcopyReq st1 a b d id gs slots) (st1.grp x.gid).service
    if ((Map.get? id st4.copies).bind CopyReq.opening).isSome then parkActor st4 { a with g := none } (.copy id) else st4

def tcopySet (d blk : Reg) (q : Fin 16) (s0 st : State) (a : Actor) : State :=
  match bindingOf s0 a.cx q.val with
  | none => st
  | some b =>
    if !a.block.1.isEmpty then tcopyWith d q b a.block.1 a.block.2 st a
    else
      let c := useCap s0 a.cx blk
      match blkWay s0 a.cx blk with
      | .bad _ => st
      | .wait w => waitFor st a w
      | .here ps =>
        let (gs, st1) := granulesOf st a.cx ps (c.has permLoadCap)
        tcopyWith d q b (gs.map (sieve st (worldOfCx st a.cx))) (groupSlots st a.cx.gid) st1 a
      -- a block at another package comes without tags (R436)
      | .away => bring st a c [(c.addr, 256)] fun bs st => tcopyWith d q b (plainCaps bs) (groupSlots st a.cx.gid) st a

/-- TCOPY (R332). -/
def execTcopy (h : Hdr) (d blk : Reg) (q : Fin 16) (s : State) : Host.Outcome State Fault Refusal :=
  .next (gathering h s implicitMask true (tcopyCheck blk q) (tcopySet d blk q))

/-! COPYCMD queues. -/

/-- The block of an entry, read in its Context's AddressSpace by the Carter of a hamlet; none when the read fails, and a page to wait for (R333). -/
def entryBlock (s : State) (hamlet : Nat) (e : QEntry) : Option (List Cap) × Option (Nat × Nat) × State :=
  let w := s.worldOf e.ctx
  let k := sieve s w ({ bits := e.bits, tag := e.tag } : Cap).norm
  match capCheckAlign k k.addr 256 16 [permLoad] with
  | some _ => (none, none, s)
  | none =>
    match pieces (locateCtx s e.ctx .rd) 3 k.addr 256 with
    | .ok ps =>
      if eccPieces s ps then (none, none, s)
      else
        let (gs, s1) := granulesOf s (carterCx s.nextId hamlet) ps (k.has permLoadCap)
        (some (gs.map (sieve s w)), none, s1)
    | .error (.absent f p) => (none, some (f, p), s)
    | .error _ => (none, none, s)

/-- The Carter takes the next entry of a COPYCMD queue (R333, R334), and reads its block, once the queue's earlier entries, and those before a fence, have been performed (R198, R258); a page whose read failed fails the read of the block. -/
def takeCopycmd (s : State) (qh : Nat) (failed : Option (Nat × Nat)) : State :=
  match s.queue? qh with
  | none => s
  | some q =>
    match q.pair, q.es with
    | some pair, e :: _ =>
      if q.kind ≠ 2 ∨ s.dead qh ∨ !canReserve s pair ∨ carterFull s q.hamlet ∨ s.copies.any (fun r => r.2.key == queueKey qh) ∨ fenceHolds s (queueKey qh) q.popped then s
      else
        let read := entryBlock s q.hamlet e
        match (if read.2.1 = failed then (read.1, none, read.2.2) else read) with
        | (_, some (f, p), _) => demandPage s f p
        | (blk, none, s1) =>
          match takeEntry (reserveEntry s1 pair) qh with
          | none => s
          | some (e, pos, s2) =>
            let (id, s3) := s2.newId
            let r : CopyReq :=
              { hamlet := q.hamlet, key := queueKey qh, seq := BitVec.ofNat 32 pos, pos := pos, ctx := e.ctx, who := none, home := (0, 0, 0), launch := Launch.empty
                core := none, opening := none, accepted := blk.isNone, paged := none, list := [], slots := e.slots
                blk := blk.getD [], comp := pair, next := 0, index := none, data := none, lines := [], ended := none, fromCmd := true, host := e.host }
            wakeAll (if blk.isNone then { s3 with copies := Map.set id { r with ended := some (3, allOnes64) } s3.copies } else startCopy s3 id r false) (· == .room qh)
    | _, _ => s

def execCarterTakeCopycmd (queue : Nat) (s : State) : Host.Outcome State Fault Refusal := .next (takeCopycmd s queue none)

end Sys2Proof.Machine
end

