-- ==== Sys2Proof/Machine/Cisterns.lean ====
section
/-! DEFINITION. The way of a far request: cisterns (R269-R272), the home (R266, R273), the reply's way back (R271). -/

namespace Sys2Proof.Machine

/-- The split records that a request's tree keeps in a cistern. -/
def FarTree.records (c : Nat) : FarTree → Nat
  | .leaf .. | .foreign .. => 0
  | .split p q _ cist => p.records c + q.records c + (if cist = c then 1 else 0)

/-- The entries of a cistern: waiting requests and split records (R270). -/
def cisternUse (s : State) (c : Nat) : Nat := (s.fars.map fun f => f.2.tree.records c + (if f.2.cistern = c then 1 else 0)).sum

/-- The earliest of the waiting requests of a cistern that a test names. -/
def firstWaiting (s : State) (c : Nat) (f : FarReq → Bool) : Option (Nat × FarReq) :=
  (s.fars.filter fun q => q.2.cistern == c && f q.2).foldl (fun (b : Option (Nat × FarReq)) q =>
    match b with
    | some o => if q.2.arrived < o.2.arrived then some q else b
    | none => some q) none

def setFar (s : State) (id : Nat) (f : FarReq → FarReq) : State := { s with fars := Map.modify id f s.fars }

/-- A request arrives at the next cistern of its route: it merges with the earliest partner, waits, or passes a full one (R270, R271). -/
def farArrive (s : State) (id : Nat) : State :=
  match Map.get? id s.fars with
  | none => s
  | some q =>
    match q.route with
    | [] => s
    | c :: rest =>
      if q.cistern ≠ 0 ∨ q.old.isSome then s
      else if 64 ≤ cisternUse s c then setFar s id fun q => { q with route := rest }
      else
        match firstWaiting s c fun p => mayMerge p q with
        | some (k, p) => { s with fars := Map.set k { mergeReq p q c with free := true } (Map.del id s.fars) }
        | none =>
          let (n, s1) := s.newId
          setFar s1 id fun q => { q with cistern := c, route := rest, free := !q.hold, arrived := n }

/-- The hold of a request has lasted 32 cycles (R272). -/
def holdExpire (s : State) (id : Nat) : State := setFar s id fun q => if q.cistern = 0 then q else { q with free := true }

/-- A cistern sends its earliest request that is not held (R270, R272). -/
def farSend (s : State) (id : Nat) : State :=
  match Map.get? id s.fars with
  | none => s
  | some q =>
    if q.cistern ≠ 0 ∧ (firstWaiting s q.cistern FarReq.free).map (·.1) = some id then setFar s id fun q => { q with cistern := 0 } else s

/-- A request has passed its last cistern, and no request of its issue to its location comes before it (R268). -/
def atHome (s : State) (id : Nat) (q : FarReq) : Bool :=
  q.cistern == 0 && q.route.isEmpty && q.old.isNone &&
    !(s.fars.any fun p => decide (p.1 < id) && p.2.issue == q.issue && p.2.pa == q.pa && p.2.old.isNone)

/-- A request whose home is another package's goes there (R267, R430): to its export, or to the Bellringer of the home of a Frame's group. -/
def askHome (s : State) (id : Nat) (q : FarReq) : State :=
  let op : RemoteOp := match q.cmp with | none => .atom q.aop q.size q.operand | some c => .atomx q.size c q.operand
  let dst : Nat × Nat × Nat := match q.dest with | .away p e c => (p, e, c) | _ => (((boundGroup s q.pa).map (·.1)).getD 0, 0, 0)
  (remoteAsk (setFar s id fun q => { q with sent := true }) { pkg := dst.1, entry := dst.2.1, chk := dst.2.2, off := q.pa, op := op, who := none, world := q.world, d := .vz, ty := .n8, carter := none, status := none, cap := Cap.null, far := some id }).2

/-- Whose a request is, as the writers of a REPL page. -/
def FarTree.writer : FarTree → Nat × List Nat
  | .leaf who .. => (who.gid, who.cxs.map Cx.tid)
  | .foreign .. => fabricCx.writer
  | .split p _ _ _ => p.writer

/-- A request to a replicated Frame whose writes this package's Bellringer stamps, once each member has bound it (R429, R430): a frozen one refuses it (R415). -/
def bellPerform (s : State) (id : Nat) (q : FarReq) : State :=
  if boundWaits s q.pa then s
  else if ((frameAt s q.pa).map FrameObj.frozen).getD false then
    wakeFences (farRefuse { cls := 2, sub := 6 } q.world q.tree { s with fars := Map.del id s.fars })
  else
    let (v, s1) := performAtom s q.tree.writer (.mem q.pa 1 q.key) q.aop q.cmp q.size q.operand
    wakeFences (replSettle (setFar s1 id fun q => { q with old := some v }))

/-- A request is performed at its home, or leaves for it. -/
def homePerform (s : State) (id : Nat) : State :=
  match Map.get? id s.fars with
  | none => s
  | some q =>
    if !atHome s id q || q.sent then s
    else if q.dest = .here then performFar s id
    else if q.dest = .repl && !boundAway s q.pa then bellPerform s id q
    else askHome s id q

/-- The home of a request at another package has answered: its old value, or its refusal (R274, R437). A Bellringer's stamped write came before its answer (R430). -/
def farAnswer (s : State) (id : Nat) (a : RemoteAns) : State :=
  match Map.get? id s.fars with
  | none => s
  | some q =>
    match a with
    | .refuse cls sub => wakeFences (farRefuse { cls := cls, sub := sub } q.world q.tree { s with fars := Map.del id s.fars })
    | .data bs => wakeFences ((List.range 7).foldl replCatch (setFar s id fun q => { q with old := some (ofBytes (bs.take q.size)), cistern := 0, route := [] }))
    | .status _ => s

def execCisternArrive (req : Nat) (s : State) : Host.Outcome State Fault Refusal := .next (farArrive s req)
def execCisternHoldExpire (req : Nat) (s : State) : Host.Outcome State Fault Refusal := .next (holdExpire s req)
def execCisternSend (req : Nat) (s : State) : Host.Outcome State Fault Refusal := .next (farSend s req)
def execAtomicHomePerform (req : Nat) (s : State) : Host.Outcome State Fault Refusal := .next (homePerform s req)
def execCisternReplySplit (req : Nat) (s : State) : Host.Outcome State Fault Refusal := .next (splitFar s req)

end Sys2Proof.Machine
end

