-- ==== Sys2Proof/Machine/MatrixMath.lean ====
section
/-! DEFINITION. The arithmetic of the matrix engine on plain values: byte images as elements (R69, R285), scales (R286), special values (R293), the update of one element (R84, R86, R292). -/

namespace Sys2Proof.Machine

/-- The values at keys k, k + 1, … of a canonical map that lists no key below k. -/
def SMap.expand {α : Type} (d : α) : SMap α → Nat → Nat → List α
  | _, _, 0 => []
  | [], k, n + 1 => d :: SMap.expand d [] (k + 1) n
  | (a, v) :: m, k, n + 1 => if a = k then v :: SMap.expand d m (k + 1) n else d :: SMap.expand d ((a, v) :: m) (k + 1) n

/-- A list cut into n pieces of k. -/
def chunks {α : Type} (k : Nat) : Nat → List α → List (List α)
  | 0, _ => []
  | n + 1, l => l.take k :: chunks k n (l.drop k)

/-- The elements of a byte image; narrow ones from the low bits of each byte up (R69). -/
def unpack (bits : Nat) (bs : List Byte) : List Nat :=
  if bits < 8 then bs.flatMap fun b => (List.range (8 / bits)).map fun i => bitsAt b.toNat (bits * i) bits
  else (chunks (bits / 8) (bs.length / (bits / 8)) bs).map ofBytes

/-- The byte image of elements. -/
def pack (bits : Nat) (els : List Nat) : List Byte :=
  if bits < 8 then (chunks (8 / bits) (els.length / (8 / bits)) els).map fun c => BitVec.ofNat 8 (c.foldr (fun e n => e % 2 ^ bits + 2 ^ bits * n) 0)
  else els.flatMap fun e => bytesOf e (bits / 8)

/-- Columns of 64-element rows. -/
def columns {α : Type} (rows : List (List α)) : List (List α) := (List.range 64).map fun j => rows.filterMap fun r => r[j]?

def flagsOf (bs : List Bool) : BitVec 64 := BitVec.ofNat 64 (bs.foldr (fun b n => b.toNat + 2 * n) 0)

/-- A special value of a semiring (R293). -/
def Val.special (sr : Semiring) : Val → Bool
  | .nan => sr != .orAnd
  | .inf _ => sr == .plusTimes
  | .fin .. => false

def Val.zero : Val := .fin false 0 0
def Val.clean (sr : Semiring) (v : Val) : Val := if v.special sr then .zero else v
/-- An integer value. -/
def Val.int : Val → Int
  | .fin n m e => signedAt 0 n m e
  | _ => 0

/-- A row with its scales, one for each block of 64 (R83, R286). -/
def scaleRow (sc row : List Val) : List Val := row.zipIdx.map fun p => Val.mul ((sc[p.2 / 64]?).getD (.fin false 1 0)) p.1

/-- Scales as one list of block scales for each row or column, from a byte image (R286). -/
def scalesOf (mode nb : Nat) (bs : List Byte) (byBlock : Bool) : List (List Val) :=
  match mode with
  | 1 => List.replicate 64 (List.replicate nb (decodeF .fp32 false (ofBytes (bs.take 4))))
  | 2 => (unpack 32 (bs.take 256)).map fun x => List.replicate nb (decodeF .fp32 false x)
  | 3 =>
    let l := (unpack 16 (bs.take (128 * nb))).map (decodeF .bf16 false)
    if byBlock then columns (chunks 64 nb l) else chunks nb 64 l
  | _ => List.replicate 64 (List.replicate nb (.fin false 1 0))

/-- The array writes no −0 (R84). -/
def plusZero (f : Fmt) (x : Nat) : Nat := if x = f.signBit then 0 else x

/-- A candidate of the other semirings (R86). -/
def candidate (sr : Semiring) (a b : Val) : Val :=
  match sr, a, b with
  | .minPlus, .inf x, .inf y => .inf (x && y)
  | .maxPlus, .inf x, .inf y => .inf (x || y)
  | .minPlus, a, b | .maxPlus, a, b => Val.add .rn a b
  | .maxTimes, a, b => match Val.mul a b with | .nan => .zero | v => v
  | .minMax, a, b => Val.maxNum a b
  | _, a, b => Val.mul a b

def takesMin (sr : Semiring) : Bool := sr == .minPlus || sr == .minMax

/-- Identity (R292). -/
def identityOf (sr : Semiring) (cf : Fmt) : Nat :=
  match sr with
  | .plusTimes | .orAnd => 0
  | sr =>
    if cf = .int32 then (if takesMin sr then 0x7FFFFFFF else 0x80000000)
    else if takesMin sr then cf.infBits else cf.infBits + cf.signBit

/-- Update of a float accumulator element (R84, R86, R292). -/
def updateFloat (sr : Semiring) (cf : Fmt) (d : Nat) (as bs : List Val) : Nat :=
  match decodeF cf false d with
  | .nan => cf.nanBits
  | v =>
    match sr with
    | .plusTimes =>
      if cf = .fp64 then
        (as.zip bs).foldl (fun d p => plusZero cf (encodeF cf .rn false false (Val.add .rn (decodeF cf false d) (Val.mul p.1 p.2)))) d
      else plusZero cf (encodeF cf .rn false false (Val.add .rn v ((as.zip bs).foldl (fun t p => Val.add .rn t (Val.mul p.1 p.2)) .zero)))
    | sr =>
      let cs := (as.zip bs).map fun p => decodeF cf false (encodeF cf .rn false false (candidate sr p.1 p.2))
      plusZero cf (encodeF cf .rn false false (cs.foldl (if takesMin sr then Val.minNum else Val.maxNum) v))

/-- Update of an INT32 accumulator element. -/
def updateInt (sr : Semiring) (d : Nat) (as bs : List Val) : Nat :=
  match sr with
  | .plusTimes => ofSigned 32 (toSigned 32 d + (as.zip bs).foldl (fun t p => t + (Val.mul p.1 p.2).int) 0)
  | .orAnd => if d ≠ 0 ∨ (as.zip bs).any fun p => (Val.mul p.1 p.2).int = 1 then 1 else 0
  | sr =>
    let cs := (as.zip bs).map fun p => clampInt (intLo true 32) (intHi true 32) (candidate sr p.1 p.2).int
    let best (x y : Int) : Int := if takesMin sr then min x y else max x y
    ofSigned 32 (cs.foldl best (toSigned 32 d))

def update (sr : Semiring) (cf : Fmt) (d : Nat) (as bs : List Val) : Nat :=
  if cf = .int32 then updateInt sr d as bs else updateFloat sr cf d as bs

/-- The block product of R292: rows of A and columns of B with their scales; the new elements and the flags nf. -/
def blockProduct (sr : Semiring) (cf : Fmt) (init poison : Bool) (d : List Nat) (a : List (List Val)) (ascale : List (List Val)) (b : List (List Val)) (bscale : List (List Val)) : List Nat × BitVec 64 :=
  let rowBad := (a.zip ascale).map fun p => p.1.any (Val.special sr) || p.2.any (Val.special sr)
  let bBad := poison || b.any (fun c => c.any (Val.special sr)) || bscale.any (fun c => c.any (Val.special sr))
  let clean (row sc : List Val) : List Val := (scaleRow (sc.map (Val.clean sr)) (row.map (Val.clean sr)))
  let ar := (a.zip ascale).map fun p => clean p.1 p.2
  let bc := if poison then b.map (fun c => c.map fun _ => Val.zero) else (b.zip bscale).map fun p => clean p.1 p.2
  let start (x : Nat) : Nat := if init then identityOf sr cf else x
  let els := ((chunks 64 64 d).zip ar).flatMap fun r => (r.1.zip bc).map fun e => update sr cf (start e.1) r.2 e.2
  (els, if bBad then 0xFFFFFFFFFFFFFFFF else flagsOf rowBad)

/-! Tiles as elements. -/

def Tile.words (t : Tile) : List Word := SMap.expand 0 t.el 0 4096

/-- The 4,096 elements of a tile, or of the pair it heads (R281), row-major. -/
def Group.elems (g : Group) (cf : Fmt) (t : Nat) : List Nat :=
  if cf = .fp64 then (chunks 2 4096 ((g.tile t).words ++ (g.tile (t + 1)).words)).map fun w => ofBytes (w.flatMap fun x => bytesOf x.toNat 4)
  else (g.tile t).words.map BitVec.toNat

def Group.setElems (g : Group) (cf : Fmt) (t : Nat) (els : List Nat) (flags : BitVec 64) : Group :=
  let words (l : List Nat) : SMap Word := SMap.ofList 0 (l.map (BitVec.ofNat 32))
  if cf = .fp64 then
    let ws := els.flatMap fun e => [e % 2 ^ 32, e / 2 ^ 32]
    (g.setTile t ⟨words (ws.take 4096), flags⟩).setTile (t + 1) ⟨words (ws.drop 4096), (g.tile (t + 1)).flags⟩
  else g.setTile t ⟨words els, flags⟩

end Sys2Proof.Machine
end

