-- ==== Sys2Proof/Machine/Parallel.lean ====
section
/-! DEFINITION. Class 5: the gathering instructions, barriers, device launch and QFENCE (R185-R198). -/

namespace Sys2Proof.Machine

/-- The member mask of a register form (R185) and of an immediate form. -/
def maskReg (m : Reg) (s : State) (x : Cx) : BitVec 32 := if Reg.isVz m then implicitMask s x else rd32 s x m
def maskImm (m : BitVec 32) (_ : State) (_ : Cx) : BitVec 32 := m

/-- A gathering instruction that writes registers of its members, from the values read at formation. -/
def setWrites (h : Hdr) (mask : State → Cx → BitVec 32) (f : State → Actor → Cx → List RegWrite) (s : State) : State :=
  gathering h s mask false noCheck fun s0 st a => completeWith st a.who (f s0 a) (footOf st)

/-- SHFL (R188): the lane a member reads, and whether it is within its segment. -/
def shflLane (mode : ShflMode) (w l bb : Nat) : Int × Bool :=
  let s0 : Nat := l - l % w
  match mode with
  | .idx => ((s0 + bb % w : Nat), true)
  | .up => ((l : Int) - bb, decide ((s0 : Int) ≤ (l : Int) - bb))
  | .down => ((l + bb : Nat), decide (l + bb < s0 + w))
  | .xor => ((l ^^^ (bb % w) : Nat), true)

def execShfl (h : Hdr) (mode : ShflMode) (w64 : Bool) (seg : Fin 6) (pv : Pred) (d a b c m : Reg) (s : State) : Host.Outcome State Fault Refusal :=
  .next (setWrites h (maskReg m) (fun s0 y x =>
    let (j, ok) := shflLane mode (32 / 2 ^ seg.val) x.lane (rd32 s0 x b).toNat
    if ok && y.mem.any fun u => (u : Int) == j then wrW s0 x w64 d (rdW s0 { x with lane := j.toNat } w64 a) ++ wrPred pv true
    else wrW s0 x w64 d (rdW s0 x w64 c) ++ wrPred pv false) s)

/-- VOTE (R189). -/
def vote (h : Hdr) (mode : VoteMode) (pd ps : Pred) (pneg : Bool) (d : Reg) (mask : State → Cx → BitVec 32) (s : State) : State :=
  setWrites h mask (fun s0 y x =>
    let v := fun (u : Nat) => (s0.thr x.gid (x.cno * 32 + u)).pred ps != pneg
    let ballot := laneMask (y.mem.filter v)
    match mode with
    | .all => wrPred pd (y.mem.all v)
    | .any => wrPred pd (y.mem.any v)
    | .uni => wrPred pd (y.mem.all v || !y.mem.any v)
    | .ballot => wrPred pd (ballot != 0) ++ wr32 s0 x d ballot) s

def execVoteB (h : Hdr) (mode : VoteMode) (pd ps : Pred) (pneg : Bool) (d m : Reg) (s : State) : Host.Outcome State Fault Refusal :=
  .next (vote h mode pd ps pneg d (maskReg m) s)
def execVoteI (h : Hdr) (mode : VoteMode) (pd ps : Pred) (pneg : Bool) (d : Reg) (mask : BitVec 32) (s : State) : Host.Outcome State Fault Refusal :=
  .next (vote h mode pd ps pneg d (maskImm mask) s)

/-- RDFIRST (R191). -/
def rdfirst (h : Hdr) (w : RdWidth) (d a : Reg) (mask : State → Cx → BitVec 32) (s : State) : State :=
  setWrites h mask (fun s0 y x =>
    match w with
    | .b32 => wr32 s0 x d (rd32 s0 y.cx a)
    | .b64 => wr64 s0 x d (rd64 s0 y.cx a)
    | .b128 => wrCap s0 x d (rdCap s0 y.cx a)) s

def execRdfirstB (h : Hdr) (w : RdWidth) (d a m : Reg) (s : State) : Host.Outcome State Fault Refusal := .next (rdfirst h w d a (maskReg m) s)
def execRdfirstI (h : Hdr) (w : RdWidth) (d a : Reg) (mask : BitVec 32) (s : State) : Host.Outcome State Fault Refusal :=
  .next (rdfirst h w d a (maskImm mask) s)

/-- LRANK and GATHER (R190). -/
def lrank (h : Hdr) (sel : RankSel) (d : Reg) (mask : State → Cx → BitVec 32) (s : State) : State :=
  setWrites h mask (fun s0 y x =>
    match sel with
    | .rank => wr32 s0 x d (BitVec.ofNat 32 (y.mem.filter (· < x.lane)).length)
    | .count => wr32 s0 x d (BitVec.ofNat 32 y.mem.length)
    | .mask => wr32 s0 x d (laneMask y.mem)) s

def execLrankB (h : Hdr) (sel : RankSel) (d m : Reg) (s : State) : Host.Outcome State Fault Refusal := .next (lrank h sel d (maskReg m) s)
def execLrankI (h : Hdr) (sel : RankSel) (d : Reg) (mask : BitVec 32) (s : State) : Host.Outcome State Fault Refusal :=
  .next (lrank h sel d (maskImm mask) s)
def execGatherB (h : Hdr) (d m : Reg) (s : State) : Host.Outcome State Fault Refusal := .next (lrank h .mask d (maskReg m) s)
def execGatherI (h : Hdr) (d : Reg) (mask : BitVec 32) (s : State) : Host.Outcome State Fault Refusal :=
  .next (lrank h .mask d (maskImm mask) s)

/-- MATCH (R190). -/
def matchSet (h : Hdr) (w64 : Bool) (d a : Reg) (mask : State → Cx → BitVec 32) (s : State) : State :=
  setWrites h mask (fun s0 y x =>
    wr32 s0 x d (laneMask (y.mem.filter fun u => rdW s0 { x with lane := u } w64 a == rdW s0 x w64 a))) s

def execMatchB (h : Hdr) (w64 : Bool) (d a m : Reg) (s : State) : Host.Outcome State Fault Refusal := .next (matchSet h w64 d a (maskReg m) s)
def execMatchI (h : Hdr) (w64 : Bool) (d a : Reg) (mask : BitVec 32) (s : State) : Host.Outcome State Fault Refusal :=
  .next (matchSet h w64 d a (maskImm mask) s)

/-! Reductions (R192, R193). -/

def RType.bits (t : RType) : Nat := if Sys2Proof.RType.is64 t then 64 else 32

/-- The combination of a list of values of a type; the identity for none. -/
def combine (op : RedOp) (t : RType) (vs : List Nat) : Nat :=
  let n := RType.bits t
  let sgn : Bool := match t with | .i32 | .i64 => true | _ => false
  let big := if sgn then 2 ^ (n - 1) - 1 else 2 ^ n - 1
  let small := if sgn then 2 ^ (n - 1) else 0
  let less : Nat → Nat → Bool := fun a b => if sgn then decide (toSigned n a ≤ toSigned n b) else decide (a ≤ b)
  let fl : Option Fmt := match t with | .f32 => some .fp32 | .f64 => some .fp64 | _ => none
  match fl with
  | some f =>
    match op, vs.map (decodeF f false) with
    | .min, [] => f.infBits
    | .max, [] => f.infBits + f.signBit
    | .min, x :: xs => encodeF f .rn false false (xs.foldl Val.minNum x)
    | .max, x :: xs => encodeF f .rn false false (xs.foldl Val.maxNum x)
    | _, xs => encodeF f .rn false false (sumVals .rn xs)
  | none =>
    match op with
    | .add => vs.foldl (fun a b => (a + b) % 2 ^ n) 0
    | .min => vs.foldl (fun (a b : Nat) => if less a b then a else b) big
    | .max => vs.foldl (fun (a b : Nat) => if less a b then b else a) small
    | .and => vs.foldl (fun a b => a &&& b) (2 ^ n - 1)
    | .or => vs.foldl (fun a b => a ||| b) 0
    | .xor => vs.foldl (fun a b => a ^^^ b) 0

def redux (h : Hdr) (op : RedOp) (t : RType) (d a : Reg) (mask : State → Cx → BitVec 32) (s : State) : State :=
  let wide := Sys2Proof.RType.is64 t
  setWrites h mask (fun s0 y x => wrW s0 x wide d (combine op t (y.mem.map fun u => rdW s0 { x with lane := u } wide a))) s

def execReduxB (h : Hdr) (op : RedOp) (t : RType) (d a m : Reg) (s : State) : Host.Outcome State Fault Refusal := .next (redux h op t d a (maskReg m) s)
def execReduxI (h : Hdr) (op : RedOp) (t : RType) (d a : Reg) (mask : BitVec 32) (s : State) : Host.Outcome State Fault Refusal :=
  .next (redux h op t d a (maskImm mask) s)

/-- SCAN (R192): members at or below, or strictly below; a k destination keeps the highest member's value. -/
def scan (h : Hdr) (op : RedOp) (t : RType) (excl : Bool) (d a : Reg) (mask : State → Cx → BitVec 32) (s : State) : State :=
  let wide := Sys2Proof.RType.is64 t
  setWrites h mask (fun s0 y x =>
    let us := y.mem.filter fun u => if excl then decide (u < x.lane) else decide (u ≤ x.lane)
    wrW s0 x wide d (combine op t (us.map fun u => rdW s0 { x with lane := u } wide a))) s

def execScanB (h : Hdr) (op : RedOp) (t : RType) (excl : Bool) (d a m : Reg) (s : State) : Host.Outcome State Fault Refusal :=
  .next (scan h op t excl d a (maskReg m) s)
def execScanI (h : Hdr) (op : RedOp) (t : RType) (excl : Bool) (d a : Reg) (mask : BitVec 32) (s : State) : Host.Outcome State Fault Refusal :=
  .next (scan h op t excl d a (maskImm mask) s)

/-! Barriers (R195). -/

/-- The clan step, then the arrival of the set: its members wait first, so that a completed phase finds them. -/
def barrier (h : Hdr) (hamlet : Bool) (mode : BarMode) (b : Nat) (n : Reg) (mask : State → Cx → BitVec 32) (s : State) : State :=
  gathering h s mask false noCheck fun s0 st a => edge st a fun st =>
    let x := a.cx
    let nv := (rd32 s0 x n).toNat
    let s1 :=
      match mode with
      | .sync => a.cxs.foldl (fun s y => park s y (.barrier hamlet b (footOf st))) st
      | .arrive => advanceActor st a
    if hamlet then arriveHbar s1 x.gid b a.mem.length nv else arriveBar s1 x.gid b a.mem.length nv

def execBarB (h : Hdr) (mode : BarMode) (bid : Fin 16) (n m : Reg) (s : State) : Host.Outcome State Fault Refusal :=
  .next (barrier h false mode bid.val n (maskReg m) s)
def execBarI (h : Hdr) (mode : BarMode) (bid : Fin 16) (n : Reg) (mask : BitVec 32) (s : State) : Host.Outcome State Fault Refusal :=
  .next (barrier h false mode bid.val n (maskImm mask) s)
def execHbarB (h : Hdr) (mode : BarMode) (bid : Fin 4) (n m : Reg) (s : State) : Host.Outcome State Fault Refusal :=
  .next (barrier h true mode bid.val n (maskReg m) s)
def execHbarI (h : Hdr) (mode : BarMode) (bid : Fin 4) (n : Reg) (mask : BitVec 32) (s : State) : Host.Outcome State Fault Refusal :=
  .next (barrier h true mode bid.val n (maskImm mask) s)

/-! Device launch (R197). -/

def launchWay (s : State) (x : Cx) (lr : Reg) : RWay :=
  let c := useCap s x lr
  rangeWay s x c c.addr 256 16 [permLoad] .rd true

def launchSet (d lr args off : Reg) (s0 st : State) (a : Actor) : State :=
  let x := a.cx
  match launchWay s0 x lr with
  | .bad _ => st
  | .wait w => waitFor st a w
  | .here ps => edge st a fun st => let (gs, s1) := granulesOf st x ps ((useCap s0 x lr).has permLoadCap); submit gs s1
  -- a record at another package comes without tags (R436)
  | .away => edge st a fun st => bring st a (useCap s0 x lr) [((useCap s0 x lr).addr, 256)] fun bs =>
      submit (plainCaps bs)
where
  submit (gs : List Cap) (s1 : State) : State :=
    let gs := childRecord gs (if Reg.isVz args then none else some (useCap s0 a.cx args)) (rd64 s0 a.cx off).toNat
    let (code, s2) := enqueue s1 (worldOfCx s1 a.cx) gs
    completeWith s2 a.who (fun y => wr32 s2 y d (BitVec.ofNat 32 code)) (footOf st)

def execLaunch (h : Hdr) (sh lr args off : Reg) (s : State) : Host.Outcome State Fault Refusal :=
  .next (perThread h s (fun s a => rangeFault s true (launchWay s a.cx lr)) (launchSet sh lr args off))
def execLaunchOne (h : Hdr) (sh lr args off m : Reg) (s : State) : Host.Outcome State Fault Refusal :=
  .next (gathering h s (maskReg m) false (fun s a => rangeFault s true (launchWay s a.cx lr)) (launchSet sh lr args off))

/-! QFENCE (R198). -/

/-- The engine queue behind a binding and the position that a fence takes in it: the requests of a COMPLETION binding by their identifiers, the entries of an engine's Queue by their count. -/
def fenceMark (s : State) (b : Binding) : Option (Nat × Nat) :=
  match s.queue? b.q with
  | some q =>
    if q.kind = 1 then some (b.key, s.nextId)
    else if q.kind = 2 ∨ q.kind = 3 ∨ q.kind = 5 then some (queueKey b.q, q.pushed)
    else none
  | none => none

def execQfence (h : Hdr) (mask : BitVec 16) (s : State) : Host.Outcome State Fault Refusal :=
  .next (perThread h s noCheck fun s0 st a =>
    let marks := (s0.clan a.cx.gid a.cx.cno).q.filterMap fun b => if mask.getLsbD b.1 then fenceMark st b.2 else none
    advanceActor (if marks.length < 2 then st else { st with qfences := st.qfences ++ [⟨marks⟩] }) a)

end Sys2Proof.Machine
end

