-- ==== Sys2Proof/Machine/Collective.lean ====
section
/-! DEFINITION. Collectives: COLL (R443), the tree and its operators (R444-R447), the end of a round. -/

namespace Sys2Proof.Machine

def CollType.bytes : CollType → Nat
  | .i32 | .f32 => 4
  | .i64 => 8
  | .bf16 => 2

def collLen (t : CollType) (count : BitVec 32) : Nat := count.toNat * CollType.bytes t

/-- The checks of R443, in its order; an operand that is not named is not checked. -/
def collCheck (t : CollType) (src dst : Reg) (q : Fin 16) (count : BitVec 32) (s : State) (a : Actor) : Option FaultInfo :=
  let side (r : Reg) (perm : Nat) : Option FaultInfo :=
    if Reg.isVz r then none else let c := useCap s a.cx r; capCheckAlign c c.addr (collLen t count) (CollType.bytes t) [perm]
  match checkBinding s a.cx q.val .pop (some 6) 128 with
  | .error f => some f
  | .ok _ => (side src permLoad).or (side dst permStore)

/-- COLL (R443). -/
def execColl (h : Hdr) (op : CollOp) (rop : CollRop) (t : CollType) (d src dst : Reg) (q : Fin 16) (root : BitVec 12) (count : BitVec 32) (s : State) : Host.Outcome State Fault Refusal :=
  .next (gathering h s implicitMask true (collCheck t src dst q count) fun s0 st a =>
    let x := a.cx
    match bindingOf s0 x q.val with
    | none => st
    | some b =>
      if !canReserve st b.q then parkActor st a (.room b.q)
      else
        -- every event before is performed at system scope (R443)
        let (st, blocked) := orderBefore st a .release .system
        if blocked then parkActor st a .fence
        else
          let round := ((st.queue? b.q).map QueueObj.round).getD 0
          let cap (r : Reg) : Option Cap := if Reg.isVz r then none else some (useCap s0 x r)
          let c : CollReq := { queue := b.q, round := round, op := op, rop := rop, ty := t, root := root.toNat, count := count.toNat, src := cap src, dst := cap dst, ctx := ctxOf st x, gid := x.gid }
          let st1 := (reserveEntry st b.q).modQueue b.q fun o => { o with round := o.round + 1 }
          completeWith { st1 with colls := st1.colls ++ [c] } a.who (fun y => wr32 st1 y d round) (footOf st))

/-! Merging (R444-R446). -/

def CollType.fmt : CollType → Option Fmt
  | .f32 => some .fp32
  | .bf16 => some .bf16
  | _ => none

/-- One element of SUM, MIN, MAX and MSUM (R445, R447). -/
def mergeElem (rop : CollRop) (t : CollType) (a b : Nat) : Nat :=
  let n := 8 * CollType.bytes t
  match CollType.fmt t with
  | some f =>
    let x := decodeF f false a
    let y := decodeF f false b
    encodeF f .rn false false (match rop with | .min => Val.minNum x y | .max => Val.maxNum x y | _ => Val.add .rn x y)
  | none =>
    match rop with
    | .min => if toSigned n a ≤ toSigned n b then a else b
    | .max => if toSigned n a ≤ toSigned n b then b else a
    | _ => (a + b) % 2 ^ n

/-- RN(x * a + RN(y * b)), the first product fused (R446). -/
def lsemSum (x a y b : Nat) : Nat :=
  let v (n : Nat) : Val := decodeF .fp32 false n
  let r (z : Val) : Nat := encodeF .fp32 .rn false false z
  r (Val.add .rn (Val.mul (v x) (v a)) (v (r (Val.mul (v y) (v b)))))

/-- The merge of two LSEM triples (R446). -/
def mergeLsem (t1 t2 : List Nat) : List Nat :=
  let v (n : Nat) : Val := decodeF .fp32 false n
  let m1 := v (t1[0]?.getD 0)
  let m2 := v (t2[0]?.getD 0)
  if (t1 ++ t2).any (fun x => v x == .nan) || m1 == .inf false || m2 == .inf false then t1.map fun _ => Fmt.nanBits .fp32
  else
    let m := Val.maxNum m1 m2
    let al (x : Val) : Nat := if x == .inf true then 0 else exp2F32 (encodeF .fp32 .rn false false (Val.add .rn x m.neg))
    let a1 := al m1
    let a2 := al m2
    encodeF .fp32 .rn false false m :: ((t1.drop 1).zip (t2.drop 1)).map fun p => lsemSum p.1 a1 p.2 a2

def mergeParts (rop : CollRop) (t : CollType) (a b : List Nat) : List Nat :=
  match rop with
  | .lsem => mergeLsem a b
  | rop => (a.zip b).map fun p => mergeElem rop t p.1 p.2

/-- One pass over ports in ascending order (R444): the values of ports 2 i and 2 i + 1 merge and go on as i; a value alone passes up. -/
def passUp {α : Type} (f : α → α → α) : List (Nat × α) → List (Nat × α)
  | a :: b :: l => if a.1 / 2 = b.1 / 2 then (a.1 / 2, f a.2 b.2) :: passUp f l else (a.1 / 2, a.2) :: passUp f (b :: l)
  | [a] => [(a.1 / 2, a.2)]
  | [] => []

/-- Passes until one value is left. -/
def treeOf {α : Type} (f : α → α → α) : Nat → List (Nat × α) → Option α
  | _, [] => none
  | _, [a] => some a.2
  | 0, a :: _ => some a.2
  | n + 1, l => treeOf f n (passUp f l)

/-- Insertion by a key. -/
def insertKey {α : Type} (k : α → Nat) (x : α) : List α → List α
  | [] => [x]
  | y :: l => if k x ≤ k y then x :: y :: l else y :: insertKey k x l
def sortKey {α : Type} (k : α → Nat) (l : List α) : List α := l.foldr (insertKey k) []

/-- The value of one switch over its ports; 64 passes bring any port below 2 ^ 64 to one value. -/
def switchOf {α : Type} (f : α → α → α) (l : List (Nat × α)) : Option α := treeOf f 64 (sortKey (·.1) l)

/-- The fixed tree of R444: contributions with the leaf switch and the port that they reach; the spine takes the leaves by its own ports. -/
def collTree (rop : CollRop) (t : CollType) (cs : List (Nat × Nat × List Nat)) : List Nat :=
  let f := mergeParts rop t
  ((switchOf f ((cs.map (·.1)).eraseDups.filterMap fun l => (switchOf f ((cs.filter fun c => c.1 == l).map (·.2))).map fun v => (l, v)))).getD []

/-- One element of the result, by the tree of the plane that carries it (R444): each contribution names its leaf and port element by element, in turn. -/
def collElem (rop : CollRop) (t : CollType) (cs : List (List (Nat × Nat) × List Nat)) (e : Nat) : Nat :=
  let at_ (c : List (Nat × Nat) × List Nat) : Nat × Nat := (c.1[e % c.1.length]?).getD (0, 0)
  match rop with
  | .lsem => ((collTree rop t (cs.map fun c => ((at_ c).1, (at_ c).2, c.2)))[e]?).getD 0
  | _ => ((collTree rop t (cs.map fun c => ((at_ c).1, (at_ c).2, [(c.2[e]?).getD 0])))[0]?).getD 0

/-! Masks (R447). -/

/-- M_ij[e]. -/
def maskWord (key : KeySlot) (nonce : DWord) (round : BitVec 32) (e : Nat) : Nat :=
  let block := (bytesBE 8 nonce.toNat ++ bytesBE 4 round.toNat ++ bytesBE 4 (e / 4)).map BitVec.toNat
  let out := aes256 (keyBytes key.key) block
  ofBytes (((out.drop (4 * (e % 4))).take 4).map (BitVec.ofNat 8))

/-- The active key bound for a peer. -/
def peerKey (s : State) (g : CollGroup) (world j : Nat) : Option (KeySlot × DWord) :=
  match (Map.get? j g.keys).bind s.obj? with
  | some ⟨_, false, _, _, .keyslot k⟩ =>
    match Map.get? k.index s.keys with
    | some key => if key.world = world then some (key, k.nonce) else none
    | none => none
  | _ => none

/-- This member's contribution to MSUM: its elements and its masks. -/
def masked (s : State) (g : CollGroup) (world : Nat) (round : BitVec 32) (els : List Nat) : List Nat :=
  els.zipIdx.map fun p =>
    (List.range g.size).foldl (fun acc j =>
      if j = g.rank then acc
      else
        match peerKey s g world j with
        | some (k, n) =>
          let m := maskWord k n round p.2
          if g.rank < j then (acc + m) % 2 ^ 32 else (acc + 2 ^ 32 - m) % 2 ^ 32
        | none => acc) p.1

/-! The end of a round. -/

/-- How this member stands: its places, or the status that it gives the round, or a page to wait for. -/
inductive Member where
  | ready (src dst : List (Loc × Nat))
  | status (n : Nat)
  | wait (fm page : Nat)
  deriving DecidableEq, Repr

/-- Whether a member must name a source and a destination (R443). -/
def needsSrc (op : CollOp) (isRoot : Bool) : Bool := match op with | .mcast => isRoot | _ => true
def needsDst (op : CollOp) (isRoot : Bool) : Bool := match op with | .reduce => isRoot | _ => true

/-- The elements of this member's operand as the engine checks them, through the sieve and translation. -/
def collSide (s : State) (c : CollReq) (cap : Option Cap) (perm : Nat) (acc : Acc) (need : Bool) : Except Nat (List (Loc × Nat)) ⊕ (Nat × Nat) :=
  if !need then .inl (.ok [])
  else
    match cap with
    | none => .inl (.error 1)
    | some k0 =>
      let k := sieve s (s.worldOf c.ctx) k0
      let n := c.count * CollType.bytes c.ty
      match capCheckAlign k k.addr n (CollType.bytes c.ty) [perm] with
      | some _ => .inl (.error 3)
      | none =>
        match pieces (locateCtx s c.ctx acc) (n / 2 ^ 17 + 2) k.addr n with
        | .ok ps => if acc == .rd && eccPieces s ps then .inl (.error 5) else .inl (.ok ps)
        | .error (.absent f p) => .inr (f, p)
        | .error _ => .inl (.error 4)

/-- What this member's part comes to (R443). -/
def memberOf (s : State) (c : CollReq) (g : CollGroup) : Member :=
  let isRoot := c.root == g.rank
  if g.size ≤ c.root then .status 1
  else if c.rop = .msum ∧ c.op ≠ .mcast ∧ (List.range g.size).any (fun j => j != g.rank && (peerKey s g (s.worldOf c.queue) j).isNone) then .status 1
  else
    match c.err with
    | some n => .status n
    | none =>
      match collSide s c c.src permLoad .rd (needsSrc c.op isRoot), collSide s c c.dst permStore .wr (needsDst c.op isRoot) with
      | .inr (f, p), _ => .wait f p
      | _, .inr (f, p) => .wait f p
      | .inl (.error 1), _ => .status 1
      | _, .inl (.error 1) => .status 1
      | .inl (.error n), _ => .status n
      | _, .inl (.error n) => .status n
      | .inl (.ok a), .inl (.ok b) => .ready a b

def CollReq.head (c : CollReq) : CollHead := ⟨c.op, c.rop, c.ty, c.root, c.count⟩

def contributionHead : Contribution → CollHead
  | .data h .. => h
  | .failed h _ => h

/-- The status of a round that every member has submitted (R443), which the rule does not order: BLOCK first, where members disagree or one finds it; then MEMBER; then the error of the lowest rank. -/
def roundStatus (c : CollReq) (rank : Nat) (own : Member) (others : List (Nat × Contribution)) : Nat :=
  let mine := match own with | .status n => [(rank, n)] | _ => []
  let bad := mine ++ others.filterMap fun o => match o.2 with | .failed _ n => some (o.1, n) | _ => none
  if others.any (fun o => contributionHead o.2 != c.head) || bad.any (·.2 == 1) then 1
  else if bad.any (·.2 == 8) then 8
  else ((sortKey (·.1) bad).map (·.2)).headD 0

/-- The result of a round as the elements that this member's dst receives; `mine` is its own part, `others` the other members' (R443-R447). -/
def roundResult (c : CollReq) (rank : Nat) (mine : List (Nat × Nat) × List Nat) (others : List (Nat × Contribution)) : List Nat :=
  let n := CollType.bytes c.ty
  let els (b : List Byte) : List Nat := unpack (8 * n) ((b ++ List.replicate (c.count * n) 0).take (c.count * n))
  match c.op with
  | .mcast =>
    if c.root = rank then mine.2
    else (others.findSome? fun o => match o.2 with | .data _ _ b => if o.1 = c.root then some (els b) else none | _ => none).getD []
  | _ =>
    let cs := mine :: others.filterMap fun o => match o.2 with | .data _ ps b => some (ps, els b) | _ => none
    (List.range c.count).map (collElem c.rop c.ty cs)

/-- The completion of a round (R443): once the dst writes of the collective engine are performed at system scope (R430). -/
def postRound (s : State) (c : CollReq) (status : Nat) : State :=
  let s1 := replSettle s
  if replAway s1 0 collCx.tid || replOwes s1 0 collCx.tid then
    sendAway { s1 with colls := s1.colls.map fun o => if o == c then { c with ended := some status } else o }
  else
    wakeAll (postCompletion { s1 with colls := s1.colls.erase c } c.queue c.round status (if status = 0 then c.count else allOnes64)) (· == .room c.queue)

/-- The end of the oldest round of a Queue: once every other member's part has come, and this member's own is known (R443). -/
def finishRound (s : State) (qh : Nat) (others : List (Nat × Contribution)) : State :=
  match s.colls.find? fun c => c.queue == qh with
  | none => s
  | some c =>
    let g := ((s.queue? qh).bind QueueObj.coll).getD ⟨0, 0, 0, []⟩
    let theirs := others.filter fun o => o.1 != g.rank
    if s.dead qh then s
    else
      match c.ended with
      | some n => postRound s c n
      | none =>
        match memberOf s c g with
        | .wait f p => demandPage s f p
        | m =>
          if !(g.others.all fun j => theirs.any fun o => o.1 == j) then s
          else
            match m, roundStatus c g.rank m theirs with
            | .ready src dst, 0 =>
              let (bs, s1) := readRange s collCx src
              let own := unpack (8 * CollType.bytes c.ty) bs
              let ports := match others.find? fun o => o.1 == g.rank with | some (_, .data _ ps _) => ps | _ => [(0, g.rank)]
              let mine := if c.rop = .msum then masked s g (s.worldOf qh) c.round own else own
              postRound (writePieces s1 collCx.writer dst (pack (8 * CollType.bytes c.ty) (roundResult c g.rank (ports, mine) theirs))) c 0
            | _, k => postRound s c k

/-- A file read failed: the rounds in which this member waits for its page have XLATE from it (R443). -/
def failRounds (s : State) (fm page : Nat) : State :=
  { s with colls := s.colls.map fun c =>
      match (s.queue? c.queue).bind QueueObj.coll with
      | some g => if memberOf s c g = .wait fm page then { c with err := some 4 } else c
      | none => c }

/-- A member package has left the fabric: the pending rounds of the groups that it was a member of end with MEMBER (R443). -/
def endRounds (s : State) (groups : List Nat) : State :=
  s.colls.foldl (fun st c =>
    match (st.queue? c.queue).bind QueueObj.coll with
    | some g => if groups.contains g.id && c.ended.isNone then postRound st c 8 else st
    | none => st) s

def execPackageLeavesFabric (_pkg : BitVec 12) (groups : List Nat) (s : State) : Host.Outcome State Fault Refusal := .next (endRounds s groups)

def execCollRoundComplete (queue : Nat) (others : List (Nat × Contribution)) (s : State) : Host.Outcome State Fault Refusal :=
  .next (finishRound s queue others)

end Sys2Proof.Machine
end

