-- ==== Sys2Proof/Machine/Integer.lean ====
section
/-! DEFINITION. Class 0: moves, integer arithmetic, comparisons, logic, shifts, fields and predicates (R91-R113). -/

namespace Sys2Proof.Machine

/-- A result of a typed operation. -/
def wrI (s : State) (x : Cx) (t : IType) (d : Reg) (v : Nat) : List RegWrite := wrW s x t.is64 d v
def rdI (s : State) (x : Cx) (t : IType) (r : Reg) : Nat := rdW s x t.is64 r

/-- Two-operand forms: registers, an immediate of form I widened by R45, an immediate of form L. -/
def intB (h : Hdr) (t : IType) (d a b : Reg) (f : Nat → Nat → Nat) (s : State) : State :=
  compute h s fun s x => wrI s x t d (f (rdI s x t a) (rdI s x t b))
def intI (h : Hdr) (t : IType) (d a : Reg) (imm : BitVec 32) (f : Nat → Nat → Nat) (s : State) : State :=
  compute h s fun s x => wrI s x t d (f (rdI s x t a) (immI t imm))
def intL (h : Hdr) (t : IType) (d a : Reg) (imm : BitVec 64) (f : Nat → Nat → Nat) (s : State) : State :=
  compute h s fun s x => wrI s x t d (f (rdI s x t a) imm.toNat)
def int1 (h : Hdr) (t : IType) (d a : Reg) (f : Nat → Nat) (s : State) : State :=
  compute h s fun s x => wrI s x t d (f (rdI s x t a))
def int3 (h : Hdr) (t : IType) (d a b c : Reg) (f : Nat → Nat → Nat → Nat) (s : State) : State :=
  compute h s fun s x => wrI s x t d (f (rdI s x t a) (rdI s x t b) (rdI s x t c))

/-- R91. -/
def execNop (h : Hdr) (s : State) : Host.Outcome State Fault Refusal := .next (compute h s fun _ _ => [])

/-- R92 between registers. -/
def execMov (h : Hdr) (t : MovW) (d a : Reg) (s : State) : Host.Outcome State Fault Refusal :=
  .next (compute h s fun s x => wrW s x (t == .b64) d (rdW s x (t == .b64) a))

/-- The 128-bit entry that a push takes from its source (R92); of window registers, four in a row or a capability (log entry 71). -/
def pushValue (s : State) (x : Cx) (t : MovW) (a : Reg) : QEntry :=
  let ctx := ctxOf s x
  let slots := groupSlots s x.gid
  match t with
  | .b32 => mkEntry ((rd32 s x a).setWidth 128) false ctx slots
  | .b64 => mkEntry ((rd64 s x a).setWidth 128) false ctx slots
  | .b128 =>
    match a with
    | .c _ | .kc _ => mkEntry (rdCap s x a).bits (rdCap s x a).tag ctx slots
    | .w 12 | .w 13 => mkEntry (rdCap s x a).bits (rdCap s x a).tag ctx slots
    | a => mkEntry (BitVec.ofNat 128 (ofBytes ((rdWords s x a 4).flatMap fun w => bytesOf w.toNat 4))) false ctx slots

def MovW.bits : MovW → Nat
  | .b32 => 32 | .b64 => 64 | .b128 => 128

def faultOf {α : Type} : Except FaultInfo α → Option FaultInfo
  | .error f => some f
  | .ok _ => none

/-- The performers of one issue as one batch (R319): the threads of `as` together. -/
def batchWho (as : List Actor) : Who :=
  match as with
  | a :: _ => ⟨a.cx.gid, a.cx.cno, as.flatMap Actor.mem, a.uni⟩
  | [] => ⟨0, 0, [], false⟩

/-- An issue whose performers act together, as a push batch or a pop does: the checks, then one effect for all of them. -/
def together (h : Hdr) (s : State) (check : State → Actor → Option FaultInfo) (eff : State → List Actor → State) : State :=
  if h.u then gathering h s implicitMask false check fun _ st a => eff st [a]
  else
    match s.cur with
    | none => s
    | some c =>
      let on := fun l => (s.thr c.gid (c.clan * 32 + l)).guard h
      let acts : List Actor := (c.lanes.filter on).map fun l => ⟨⟨c.gid, c.clan, l⟩, [l], false, none⟩
      match firstFault (check s) acts with
      | some (f, m) => raiseIssue s (laneMask c.lanes) m f
      | none =>
        let s1 := (c.lanes.filter fun l => !on l).foldl (fun s l => advance s ⟨c.gid, c.clan, l⟩ c.foot) s
        if acts.isEmpty then s1 else eff s1 acts

/-- A blocking push: the batch enters at once or waits its turn (R319). -/
def pushBatch (s : State) (q : Nat) (as : List Actor) (es : List QEntry) (seqTo : Option Reg) : State :=
  let who := batchWho as
  if canPush s q es.length then
    let pos := ((s.queue? q).map QueueObj.pushed).getD 0
    let s1 := appendEntries s q es
    serveQueue (completeWith s1 who (fun x => seqWrites s1 who seqTo pos x) (footOf s)) q
  else
    let s1 := as.foldl (fun s a => a.cxs.foldl (fun s x => park s x (.queue q)) s) s
    s1.modQueue q fun o => { o with waiters := o.waiters ++ [.push who es (footOf s) seqTo] }

/-- R92, R318, R319; the push happens before the pop (R249, R316). -/
def execMovPush (h : Hdr) (t : MovW) (q : Fin 16) (a : Reg) (nb : Bool) (nbp : Pred) (s : State) : Host.Outcome State Fault Refusal :=
  .next (together h s (fun s y => faultOf (checkBinding s y.cx q.val .push none (MovW.bits t))) fun st as =>
    match as with
    | [] => st
    | y :: _ =>
      match checkBinding st y.cx q.val .push none (MovW.bits t) with
      | .error _ => st
      | .ok qh =>
        edges st as fun st =>
          let es := as.map fun y => pushValue st y.cx t a
          if nb then
            let ok := canPush st qh es.length
            let s1 := if ok then appendEntries st qh es else st
            let s2 := completeWith s1 (batchWho as) (fun _ => wrPred nbp ok) (footOf st)
            if ok then serveQueue s2 qh else s2
          else pushBatch st qh as es none)

/-- R92, R318, R320. -/
def execMovPop (h : Hdr) (t : MovW) (d : Reg) (q : Fin 16) (nb : Bool) (nbp : Pred) (s : State) : Host.Outcome State Fault Refusal :=
  .next (together h s (fun s y => faultOf (checkBinding s y.cx q.val .pop none (MovW.bits t))) fun st as =>
    match as with
    | [] => st
    | y :: _ =>
      match checkBinding st y.cx q.val .pop none (MovW.bits t) with
      | .error _ => st
      | .ok qh =>
        let who := batchWho as
        if nb then
          let avail := match st.queue? qh with | some o => if (firstPop o.waiters).isSome then [] else o.es | none => []
          let lanes := if who.uni then [] else who.lanes
          let n := if who.uni then min 1 avail.length else min lanes.length avail.length
          let s1 := st.modQueue qh fun o => { o with es := o.es.drop n, popped := o.popped + n }
          let s2 :=
            if who.uni then
              match avail with
              | e :: _ => completeWith s1 who (fun x => popWrites s1 x t d e ++ wrPred nbp true) (footOf st)
              | [] => completeWith s1 who (fun _ => wrPred nbp false) (footOf st)
            else
              let s2 := ((lanes.take n).zip avail).foldl (fun s p =>
                completeWith s { who with lanes := [p.1] } (fun x => popWrites s x t d p.2 ++ wrPred nbp true) (footOf st)) s1
              completeWith s2 { who with lanes := lanes.drop n } (fun _ => wrPred nbp false) (footOf st)
          wakeAll (serveQueue s2 qh) (· == .room qh)
        else
          let s1 := as.foldl (fun s y => y.cxs.foldl (fun s x => park s x (.queue qh)) s) st
          serveQueue (s1.modQueue qh fun o => { o with waiters := o.waiters ++ [.pop who t d (footOf st)] }) qh)

/-- R93. -/
def execMoviI (h : Hdr) (t : IType) (d : Reg) (imm : BitVec 32) (s : State) : Host.Outcome State Fault Refusal :=
  .next (compute h s fun s x => wrI s x t d (narrow t (immI t imm)))
def execMoviL (h : Hdr) (t : IType) (d : Reg) (imm : BitVec 64) (s : State) : Host.Outcome State Fault Refusal :=
  .next (compute h s fun s x => wrI s x t d (narrow t imm.toNat))

/-- R94. -/
def execSelB (h : Hdr) (t : IType) (d a b : Reg) (ps : Pred) (pneg : Bool) (s : State) : Host.Outcome State Fault Refusal :=
  .next (compute h s fun s x => wrI s x t d (narrow t (if (s.thr x.gid x.tid).pred ps != pneg then rdI s x t a else rdI s x t b)))
def execSelI (h : Hdr) (t : IType) (d a : Reg) (imm : BitVec 32) (ps : Pred) (pneg : Bool) (s : State) : Host.Outcome State Fault Refusal :=
  .next (compute h s fun s x => wrI s x t d (narrow t (if (s.thr x.gid x.tid).pred ps != pneg then rdI s x t a else immI t imm)))

/-- R95. -/
def execIaddB (h : Hdr) (t : IType) (d a b : Reg) (s : State) : Host.Outcome State Fault Refusal := .next (intB h t d a b (iadd t) s)
def execIaddI (h : Hdr) (t : IType) (d a : Reg) (imm : BitVec 32) (s : State) : Host.Outcome State Fault Refusal := .next (intI h t d a imm (iadd t) s)
def execIaddL (h : Hdr) (t : IType) (d a : Reg) (imm : BitVec 64) (s : State) : Host.Outcome State Fault Refusal := .next (intL h t d a imm (iadd t) s)
def execIsubB (h : Hdr) (t : IType) (d a b : Reg) (s : State) : Host.Outcome State Fault Refusal := .next (intB h t d a b (isub t) s)
def execIsubI (h : Hdr) (t : IType) (d a : Reg) (imm : BitVec 32) (s : State) : Host.Outcome State Fault Refusal := .next (intI h t d a imm (isub t) s)
def execIsubL (h : Hdr) (t : IType) (d a : Reg) (imm : BitVec 64) (s : State) : Host.Outcome State Fault Refusal := .next (intL h t d a imm (isub t) s)

/-- R96. -/
def addc (h : Hdr) (t : IType) (d a : Reg) (b : State → Cx → Nat) (cinp : Pred) (cinen : Bool) (coutp : Pred) (s : State) : State :=
  compute h s fun s x =>
    let r := iaddc t (rdI s x t a) (b s x) (cinen && (s.thr x.gid x.tid).pred cinp)
    wrI s x t d r.1 ++ wrPred coutp r.2
def execIaddcB (h : Hdr) (t : IType) (d a b : Reg) (cinp : Pred) (cinen : Bool) (coutp : Pred) (s : State) : Host.Outcome State Fault Refusal :=
  .next (addc h t d a (fun s x => rdI s x t b) cinp cinen coutp s)
def execIaddcI (h : Hdr) (t : IType) (d a : Reg) (imm : BitVec 32) (cinp : Pred) (cinen : Bool) (coutp : Pred) (s : State) : Host.Outcome State Fault Refusal :=
  .next (addc h t d a (fun _ _ => immI t imm) cinp cinen coutp s)

/-- R95: the width of a product by MODE. -/
def mulWide (t : IType) (m : MulMode) : Bool := match m with | .wide => true | _ => t.is64
def execImulB (h : Hdr) (t : IType) (m : MulMode) (d a b : Reg) (s : State) : Host.Outcome State Fault Refusal :=
  .next (compute h s fun s x => wrW s x (mulWide t m) d (imul t m (rdI s x t a) (rdI s x t b)))
def execImulI (h : Hdr) (t : IType) (m : MulMode) (d a : Reg) (imm : BitVec 32) (s : State) : Host.Outcome State Fault Refusal :=
  .next (compute h s fun s x => wrW s x (mulWide t m) d (imul t m (rdI s x t a) (immI t imm)))
def execImulL (h : Hdr) (t : IType) (m : MulMode) (d a : Reg) (imm : BitVec 64) (s : State) : Host.Outcome State Fault Refusal :=
  .next (compute h s fun s x => wrW s x (mulWide t m) d (imul t m (rdI s x t a) imm.toNat))
def execImad (h : Hdr) (t : IType) (m : MulMode) (d a b c : Reg) (s : State) : Host.Outcome State Fault Refusal :=
  .next (compute h s fun s x => wrW s x (mulWide t m) d (imad t m (rdI s x t a) (rdI s x t b) (rdW s x (mulWide t m) c)))

/-- R97. -/
def execIdivB (h : Hdr) (t : IType) (d a b : Reg) (s : State) : Host.Outcome State Fault Refusal := .next (intB h t d a b (idiv t) s)
def execIdivI (h : Hdr) (t : IType) (d a : Reg) (imm : BitVec 32) (s : State) : Host.Outcome State Fault Refusal := .next (intI h t d a imm (idiv t) s)
def execIremB (h : Hdr) (t : IType) (d a b : Reg) (s : State) : Host.Outcome State Fault Refusal := .next (intB h t d a b (irem t) s)
def execIremI (h : Hdr) (t : IType) (d a : Reg) (imm : BitVec 32) (s : State) : Host.Outcome State Fault Refusal := .next (intI h t d a imm (irem t) s)
def execIminB (h : Hdr) (t : IType) (d a b : Reg) (s : State) : Host.Outcome State Fault Refusal := .next (intB h t d a b (imin t) s)
def execIminI (h : Hdr) (t : IType) (d a : Reg) (imm : BitVec 32) (s : State) : Host.Outcome State Fault Refusal := .next (intI h t d a imm (imin t) s)
def execImaxB (h : Hdr) (t : IType) (d a b : Reg) (s : State) : Host.Outcome State Fault Refusal := .next (intB h t d a b (imax t) s)
def execImaxI (h : Hdr) (t : IType) (d a : Reg) (imm : BitVec 32) (s : State) : Host.Outcome State Fault Refusal := .next (intI h t d a imm (imax t) s)
def execIabs (h : Hdr) (t : IType) (d a : Reg) (s : State) : Host.Outcome State Fault Refusal := .next (int1 h t d a (iabs t) s)
def execIneg (h : Hdr) (t : IType) (d a : Reg) (s : State) : Host.Outcome State Fault Refusal := .next (int1 h t d a (ineg t) s)
def execIsad (h : Hdr) (t : IType) (d a b c : Reg) (s : State) : Host.Outcome State Fault Refusal := .next (int3 h t d a b c (isad t) s)
/-- R101. -/
def execIdot4 (h : Hdr) (asgn bsgn : Bool) (d a b c : Reg) (s : State) : Host.Outcome State Fault Refusal :=
  .next (compute h s fun s x => wrW s x false d (idot4 asgn bsgn (rdW s x false a) (rdW s x false b) (rdW s x false c)))

/-- R102: p[PD] and its complement in p[PC]. -/
def setCond (pd pc : Pred) (r : Bool) : List RegWrite := wrPred pd r ++ wrPred pc (!r)
def execIcmpB (h : Hdr) (t : IType) (cond : Cond) (pd pc : Pred) (a b : Reg) (s : State) : Host.Outcome State Fault Refusal :=
  .next (compute h s fun s x => setCond pd pc (icmp t cond (rdI s x t a) (rdI s x t b)))
def execIcmpI (h : Hdr) (t : IType) (cond : Cond) (pd pc : Pred) (a : Reg) (imm : BitVec 32) (s : State) : Host.Outcome State Fault Refusal :=
  .next (compute h s fun s x => setCond pd pc (icmp t cond (rdI s x t a) (immI t imm)))
def execIcmpL (h : Hdr) (t : IType) (cond : Cond) (pd pc : Pred) (a : Reg) (imm : BitVec 64) (s : State) : Host.Outcome State Fault Refusal :=
  .next (compute h s fun s x => setCond pd pc (icmp t cond (rdI s x t a) imm.toNat))

/-- R103. -/
def bitOp (t : IType) (f : Nat → Nat → Nat) (a b : Nat) : Nat := narrow t (f (a % 2 ^ t.bits) (b % 2 ^ t.bits))
def execAndB (h : Hdr) (t : IType) (d a b : Reg) (s : State) : Host.Outcome State Fault Refusal := .next (intB h t d a b (bitOp t Nat.land) s)
def execAndI (h : Hdr) (t : IType) (d a : Reg) (imm : BitVec 32) (s : State) : Host.Outcome State Fault Refusal := .next (intI h t d a imm (bitOp t Nat.land) s)
def execAndL (h : Hdr) (t : IType) (d a : Reg) (imm : BitVec 64) (s : State) : Host.Outcome State Fault Refusal := .next (intL h t d a imm (bitOp t Nat.land) s)
def execOrB (h : Hdr) (t : IType) (d a b : Reg) (s : State) : Host.Outcome State Fault Refusal := .next (intB h t d a b (bitOp t Nat.lor) s)
def execOrI (h : Hdr) (t : IType) (d a : Reg) (imm : BitVec 32) (s : State) : Host.Outcome State Fault Refusal := .next (intI h t d a imm (bitOp t Nat.lor) s)
def execOrL (h : Hdr) (t : IType) (d a : Reg) (imm : BitVec 64) (s : State) : Host.Outcome State Fault Refusal := .next (intL h t d a imm (bitOp t Nat.lor) s)
def execXorB (h : Hdr) (t : IType) (d a b : Reg) (s : State) : Host.Outcome State Fault Refusal := .next (intB h t d a b (bitOp t Nat.xor) s)
def execXorI (h : Hdr) (t : IType) (d a : Reg) (imm : BitVec 32) (s : State) : Host.Outcome State Fault Refusal := .next (intI h t d a imm (bitOp t Nat.xor) s)
def execXorL (h : Hdr) (t : IType) (d a : Reg) (imm : BitVec 64) (s : State) : Host.Outcome State Fault Refusal := .next (intL h t d a imm (bitOp t Nat.xor) s)
def execNot (h : Hdr) (t : IType) (d a : Reg) (s : State) : Host.Outcome State Fault Refusal :=
  .next (int1 h t d a (fun a => narrow t (2 ^ t.bits - 1 - a % 2 ^ t.bits)) s)
/-- R104. -/
def execLut3 (h : Hdr) (t : IType) (tt : BitVec 8) (d a b c : Reg) (s : State) : Host.Outcome State Fault Refusal :=
  .next (int3 h t d a b c (lut3 t tt) s)

/-- R105: the shift amount is a 32-bit operand. -/
def shiftB (h : Hdr) (t : IType) (d a b : Reg) (f : Nat → Nat → Nat) (s : State) : State :=
  compute h s fun s x => wrI s x t d (f (rdI s x t a) (rdW s x false b))
def shiftI (h : Hdr) (t : IType) (d a : Reg) (imm : BitVec 32) (f : Nat → Nat → Nat) (s : State) : State :=
  compute h s fun s x => wrI s x t d (f (rdI s x t a) imm.toNat)
def execShlB (h : Hdr) (t : IType) (wrap : Bool) (d a k : Reg) (s : State) : Host.Outcome State Fault Refusal := .next (shiftB h t d a k (ishl t wrap) s)
def execShlI (h : Hdr) (t : IType) (wrap : Bool) (d a : Reg) (imm : BitVec 32) (s : State) : Host.Outcome State Fault Refusal := .next (shiftI h t d a imm (ishl t wrap) s)
def execShrB (h : Hdr) (t : IType) (wrap : Bool) (d a k : Reg) (s : State) : Host.Outcome State Fault Refusal := .next (shiftB h t d a k (ishr t wrap) s)
def execShrI (h : Hdr) (t : IType) (wrap : Bool) (d a : Reg) (imm : BitVec 32) (s : State) : Host.Outcome State Fault Refusal := .next (shiftI h t d a imm (ishr t wrap) s)
def execSarB (h : Hdr) (t : IType) (wrap : Bool) (d a k : Reg) (s : State) : Host.Outcome State Fault Refusal := .next (shiftB h t d a k (isar t wrap) s)
def execSarI (h : Hdr) (t : IType) (wrap : Bool) (d a : Reg) (imm : BitVec 32) (s : State) : Host.Outcome State Fault Refusal := .next (shiftI h t d a imm (isar t wrap) s)
/-- R106. -/
def funnel (h : Hdr) (t : IType) (d a b k : Reg) (f : Nat → Nat → Nat → Nat) (s : State) : State :=
  compute h s fun s x => wrI s x t d (f (rdI s x t a) (rdI s x t b) (rdW s x false k))
def execFshl (h : Hdr) (t : IType) (d a b k : Reg) (s : State) : Host.Outcome State Fault Refusal := .next (funnel h t d a b k (fshl t) s)
def execFshr (h : Hdr) (t : IType) (d a b k : Reg) (s : State) : Host.Outcome State Fault Refusal := .next (funnel h t d a b k (fshr t) s)

/-- R107: a 32-bit result from an operand of the type. -/
def count (h : Hdr) (t : IType) (d a : Reg) (f : Nat → Nat) (s : State) : State :=
  compute h s fun s x => wrW s x false d (f (rdI s x t a))
def execPopc (h : Hdr) (t : IType) (d a : Reg) (s : State) : Host.Outcome State Fault Refusal := .next (count h t d a (popc t) s)
def execClz (h : Hdr) (t : IType) (d a : Reg) (s : State) : Host.Outcome State Fault Refusal := .next (count h t d a (clz t) s)
def execCtz (h : Hdr) (t : IType) (d a : Reg) (s : State) : Host.Outcome State Fault Refusal := .next (count h t d a (ctz t) s)
def execBrev (h : Hdr) (t : IType) (d a : Reg) (s : State) : Host.Outcome State Fault Refusal := .next (int1 h t d a (brev t) s)
/-- R108, R109. -/
def execBfx (h : Hdr) (t : IType) (d a pos len : Reg) (s : State) : Host.Outcome State Fault Refusal :=
  .next (compute h s fun s x => wrI s x t d (bfx t (rdI s x t a) (rdW s x false pos) (rdW s x false len)))
def execBfi (h : Hdr) (t : IType) (d a b ctl : Reg) (s : State) : Host.Outcome State Fault Refusal :=
  .next (compute h s fun s x => wrI s x t d (bfi t (rdI s x t a) (rdI s x t b) (rdW s x false ctl)))
/-- R110. -/
def execBpermB (h : Hdr) (d a sel : Reg) (s : State) : Host.Outcome State Fault Refusal :=
  .next (compute h s fun s x => wrW s x false d (bperm (rdW s x true a) (rdW s x false sel)))
def execBpermI (h : Hdr) (d a : Reg) (imm : BitVec 32) (s : State) : Host.Outcome State Fault Refusal :=
  .next (compute h s fun s x => wrW s x false d (bperm (rdW s x true a) imm.toNat))
/-- R111. -/
def execPlut (h : Hdr) (pd pa pb pc : Pred) (tt : BitVec 8) (s : State) : Host.Outcome State Fault Refusal :=
  .next (compute h s fun s x =>
    let t := s.thr x.gid x.tid
    wrPred pd (tt.getLsbD (4 * (t.pred pa).toNat + 2 * (t.pred pb).toNat + (t.pred pc).toNat)))
/-- R112. -/
def execP2v (h : Hdr) (d : Reg) (s : State) : Host.Outcome State Fault Refusal :=
  .next (compute h s fun s x => wrW s x false d ((s.thr x.gid x.tid).p.toNat + 128))
/-- R113. -/
def execV2p (h : Hdr) (a : Reg) (mask : BitVec 7) (s : State) : Host.Outcome State Fault Refusal :=
  .next (compute h s fun s x => (List.range 7).filterMap fun i =>
    if mask.getLsbD i then some (.p (Fin.ofNat 8 i) ((rd32 s x a).getLsbD i)) else none)

end Sys2Proof.Machine
end

