-- ==== Sys2Proof/Machine/Control.lean ====
section
/-! DEFINITION. Class 2: transfers of control, meeting, exit, traps, naps, special registers, fences, and the return from the emulation handler (R127-R140, R397). SVC is in Machine/Message.lean. -/

namespace Sys2Proof.Machine

def pccOf (s : State) (x : Cx) : Cap := (s.thr x.gid x.tid).pcc

/-- The target of BRA and CALL (R129). -/
def relTarget (pcc : Cap) (imm : BitVec 32) : Cap := pcc.withAddr (pcc.addr + (imm.signExtend 64).toNat)

/-- The target of BRX and CALLX (R129). -/
def regTarget (s : State) (x : Cx) (a : Reg) : Cap :=
  match a with
  | .c _ | .kc _ => rdCap s x a
  | .w i => if i.val = 12 ∨ i.val = 13 then rdCap s x a else (pccOf s x).withAddr (rd64 s x a).toNat
  | a => (pccOf s x).withAddr (rd64 s x a).toNat

/-- The link of CALL and CALLX (R129). -/
def linkOf (s : State) (x : Cx) : Cap := (pccOf s x).withAddr ((pccOf s x).addr + footOf s)

/-- An issue whose threads each jump, writing a link if there is one. -/
def transfer (h : Hdr) (s : State) (link : Option Reg) (target : State → Cx → Cap) : State :=
  perThread h s noCheck fun s0 st a =>
    let ws := match link with | some l => wrCap s0 a.cx l (linkOf s0 a.cx) | none => []
    jump (applyWrites st a.cx ws) a.cx (target s0 a.cx)

def execBra (h : Hdr) (imm : BitVec 32) (s : State) : Host.Outcome State Fault Refusal :=
  .next (transfer h s none fun s x => relTarget (pccOf s x) imm)
def execBrx (h : Hdr) (a : Reg) (s : State) : Host.Outcome State Fault Refusal :=
  .next (transfer h s none fun s x => regTarget s x a)
def execCall (h : Hdr) (l : Reg) (imm : BitVec 32) (s : State) : Host.Outcome State Fault Refusal :=
  .next (transfer h s (some l) fun s x => relTarget (pccOf s x) imm)
def execCallx (h : Hdr) (l a : Reg) (s : State) : Host.Outcome State Fault Refusal :=
  .next (transfer h s (some l) fun s x => regTarget s x a)
def execRet (h : Hdr) (a : Reg) (s : State) : Host.Outcome State Fault Refusal :=
  .next (transfer h s none fun s x => rdCap s x a)

/-- R131. -/
def execMeet (h : Hdr) (clr : Bool) (imm : BitVec 32) (s : State) : Host.Outcome State Fault Refusal :=
  .next (perThread h s noCheck fun s0 st a =>
    let m : DWord := if clr then 0xFFFFFFFFFFFFFFFF else BitVec.ofNat 64 (relTarget (pccOf s0 a.cx) imm).addr
    advanceActor (st.modThr a.cx.gid a.cx.tid fun t => { t with meet := m }) a)

/-- R132; a stage's events happen before those of the next (R181, R249). -/
def execExit (h : Hdr) (s : State) : Host.Outcome State Fault Refusal :=
  .next (together h s noCheck fun st as =>
    match as with
    | [] => st
    | a :: _ => edges st as fun st => exitThreads st a.cx.gid a.cx.cno (as.flatMap Actor.mem))

/-- A trap of every executing thread (R133). -/
def trap (h : Hdr) (s : State) (sub : Nat) (value : State → Cx → Word) : State :=
  perThread h s (fun s a => some { cls := 3, sub := sub, addr := (value s a.cx).setWidth 64 }) fun _ st _ => st

def execTrapB (h : Hdr) (a : Reg) (s : State) : Host.Outcome State Fault Refusal := .next (trap h s 2 fun s x => rd32 s x a)
def execTrapI (h : Hdr) (imm : BitVec 32) (s : State) : Host.Outcome State Fault Refusal := .next (trap h s 2 fun _ _ => imm)
def execBkpt (h : Hdr) (s : State) : Host.Outcome State Fault Refusal := .next (trap h s 3 fun _ _ => 0)

/-- R134, R214: the clan moves to the end of its priority's rotation. -/
def execYield (h : Hdr) (s : State) : Host.Outcome State Fault Refusal :=
  .next (together h s noCheck fun st as =>
    match as with
    | [] => st
    | a :: _ =>
      let (n, s1) := st.newId
      as.foldl advanceActor (s1.modClan a.cx.gid a.cx.cno fun c => { c with age := n }))

/-- R135. -/
def nap (h : Hdr) (s : State) (n : State → Cx → Word) : State :=
  perThread h s noCheck fun s0 st a =>
    let k := (n s0 a.cx).toNat
    if k = 0 then advanceActor st a
    else st.modThr a.cx.gid a.cx.tid fun t => { t with wait := .nap (st.time + k) (footOf st) }

def execNapB (h : Hdr) (a : Reg) (s : State) : Host.Outcome State Fault Refusal := .next (nap h s fun s x => rd32 s x a)
def execNapI (h : Hdr) (imm : BitVec 32) (s : State) : Host.Outcome State Fault Refusal := .next (nap h s fun _ _ => imm)

/-- R136. -/
def execGetsr (h : Hdr) (sel : BitVec 8) (d : Reg) (s : State) : Host.Outcome State Fault Refusal :=
  .next (compute h s fun s x => wrW s x (srWide sel) d (readSR s x sel.toNat))

/-- R137; naming %pix at depth 0 is an illegal encoding (R23). -/
def execSetsr (h : Hdr) (sel : BitVec 8) (a : Reg) (s : State) : Host.Outcome State Fault Refusal :=
  .next (perThread h s noCheck fun s0 st y =>
    if (s0.thr y.cx.gid y.cx.tid).edepth = 0 ∨ sel ≠ 0x1A then
      illegalFate st y.cx.gid y.cx.cno (laneMask y.mem) y.mem (pcOf st) (rawOf st) 0x10C 7 0
    else advanceActor (st.modThr y.cx.gid y.cx.tid fun t => { t with pix := rd32 s0 y.cx a }) y)

/-- R397; at depth 0 an illegal encoding of reason 8. -/
def execEmret (h : Hdr) (m : EmMode) (s : State) : Host.Outcome State Fault Refusal :=
  .next (perThread h s noCheck fun s0 st a =>
    if (s0.thr a.cx.gid a.cx.tid).edepth = 0 then
      illegalFate st a.cx.gid a.cx.cno (laneMask a.mem) a.mem (pcOf st) (rawOf st) 0x10D 8 0
    else
      match m with
      | .adv => returnFrom st a.cx 0 Cap.null
      | .retry => returnFrom st a.cx 1 Cap.null
      | .to r => returnFrom st a.cx 2 (rdCap s0 a.cx r))

/-- R139, R140: what the fence waits for is awaited; with release, what must be performed at the scope is. -/
def execFence (h : Hdr) (ord : MOrd) (scope : Scope) (s : State) : Host.Outcome State Fault Refusal :=
  .next (perThread h s noCheck fun _ st a =>
    let rel := ord == .release || ord == .sc
    let s1 := if rel then releaseAt st a.cx scope else st
    if (if rel then releaseBlocked s1 a.cx scope else farPending s1 a.cx) then park s1 a.cx .fence
    else advanceActor s1 a)

end Sys2Proof.Machine
end

