-- ==== Sys2Proof/Machine/Device.lean ====
section
/-! DEFINITION. The device as a whole: inbound PCIe requests and interrupts (R340, R341, R352), IO accesses that nothing completes (R486), telemetry and power (R480, R481), the TRNG's health (R461), fatal errors (R485), firmware banks and boot (R482, R483), management (R479). -/

namespace Sys2Proof.Machine

/-! PCIe. -/

/-- A byte that an uncorrectable error keeps from an agent that has no way to be told: free. -/
def freeBytes (s : State) (n : Nat) : List Byte × State := let (k, s1) := s.draw; ((List.range n).map (Config.deviceByte k), s1)

/-- The memory type by which physical memory is reached that no translation names: that of a leaf that maps it. -/
def mtypeAt (s : State) (pa : Nat) : Nat :=
  match (allLeaves s).find? fun l => l.2.maps pa with
  | some l => l.2.e.mtype
  | none => 0

/-- The Grant of a port whose window holds an address: its object and the physical place. -/
def grantAt (s : State) (port addr n : Nat) : Option (Nat × GrantObj × FrameObj × Nat) :=
  s.objs.findSome? fun o =>
    match o.2.body with
    | .grant g =>
      match g.frame with
      | none => none
      | some h =>
        match s.obj? h with
        | some ⟨_, _, _, _, .frame f⟩ =>
          if g.port = port ∧ !o.2.torn ∧ g.bus ≤ addr ∧ addr + n ≤ g.bus + 2 ^ f.log2 then some (o.1, g, f, f.pa + (addr - g.bus)) else none
        | _ => none
    | _ => none

/-- An inbound request that is refused: Unsupported Request, and the Almanac (R340, R453). -/
def refuseInbound (s : State) (port addr n : Nat) : State :=
  let w := match grantAt s port addr (min n 1) with | some (h, _) => s.worldOf h | none => 0
  almanac { s with out := s.out ++ [.pcieUnsupported port addr] } 6 w 1 3 []

/-- The grant that admits a request: its permission, its Frame alive and, for a write, not frozen, and the Stile of its world. -/
def admitted (s : State) (port addr n : Nat) (wr : Bool) : Option (FrameObj × Nat) :=
  match grantAt s port addr n with
  | some (h, g, f, pa) =>
    let alive := match g.frame with | some k => !s.dead k && stile s (s.worldOf h) (s.worldOf k) wr | none => false
    if alive && (if wr then g.wr && !f.frozen else g.rd) then some (f, pa) else none
  | none => none

/-- A read at package scope, performed when it arrives (R341). -/
def inboundRead (s : State) (port addr n : Nat) : State :=
  match admitted s port addr n false with
  | none => refuseInbound s port addr n
  | some (f, pa) =>
    let (bs, s1) :=
      if f.kind = 2 then ioBytes s pa n
      else if eccHit pa n s.ecc then freeBytes s n
      else (readVia (replView s (portCx port).lane 0 (portCx port).tid) (keyAt s pa) pa n, s)
    { s1 with out := s1.out ++ [.pcieData port addr bs] }

/-- An inbound write of a port's function has yet to be performed: its later ones wait (R341). -/
def postedHeld (s : State) (port : Nat) : Bool := s.posted.any (fun p => p.1 == port) || replAway s 0 (portCx port).tid

/-- A write at the location's home: tags go, monitors wake; a function's writes are performed at package scope in their order of arrival (R341), one that another package stamps once it has (R430). -/
def inboundWrite (s : State) (port addr : Nat) (data : List Byte) : State :=
  if postedHeld s port then { s with posted := s.posted ++ [(port, addr, data)] }
  else
    match admitted s port addr data.length true with
    | none => refuseInbound s port addr data.length
    | some (f, pa) => replSettle (writeLoc s (portCx port).writer (.mem pa (if f.kind = 2 then 5 else mtypeAt s pa) (keyAt s pa)) data [])

/-- The inbound writes that wait are tried again, in their order. -/
def drainPosted (s : State) : State := s.posted.foldl (fun st p => inboundWrite st p.1 p.2.1 p.2.2) { s with posted := [] }

def execInboundPcieRead (port : Nat) (addr : DWord) (len : Nat) (s : State) : Host.Outcome State Fault Refusal := .next (inboundRead s port addr.toNat len)
def execInboundPcieWrite (port : Nat) (addr : DWord) (data : List Byte) (s : State) : Host.Outcome State Fault Refusal := .next (inboundWrite s port addr.toNat data)

/-- An interrupt (R352): a SIGNAL of the bound bit, or discarded and reported. -/
def interrupt (s : State) (port vec : Nat) : State :=
  match s.objs.find? fun o => match o.2.body with | .irq p v _ => p == port && v == vec && !o.2.torn | _ => false with
  | some (_, ⟨w, _, _, _, .irq _ _ (some (h, bit))⟩) => if s.dead h then almanac s 6 w 1 4 [] else signal s h (BitVec.ofNat 64 (2 ^ bit))
  | some (_, o) => almanac s 6 o.world 1 4 []
  | none => almanac s 6 0 1 4 []

def execMsiXInterrupt (port vector : Nat) (s : State) : Host.Outcome State Fault Refusal := .next (interrupt s port vector)

/-- R486: all ones. -/
def ioTimeout (s : State) (acc : Nat) : State :=
  match Map.get? acc s.ios with
  | some q => ioDeliver s acc (List.replicate q.n 255)
  | none => s

def execIoCompletionTimeout (acc : Nat) (s : State) : Host.Outcome State Fault Refusal := .next (ioTimeout s acc)
def execPcieLinkDown (port : Nat) (s : State) : Host.Outcome State Fault Refusal := .next { s with linkDown := SMap.put false port true s.linkDown }

/-! Telemetry and power (R480, R481). -/

/-- The power-throttle signal and the time since which the average has stayed 5% below the cap, as the last sample and the cap give them (R481). -/
def Power.judge (p : Power) (time : Nat) : Power :=
  { p with
    throttle := decide (p.cap < p.last.watts)
    belowSince := if 100 * p.last.watts ≤ 95 * p.cap then some (p.belowSince.getD time) else none }

/-- One reading per unit: a list of exactly n. -/
def fit {α : Type} (z : α) (n : Nat) (l : List α) : List α := (List.range n).map fun i => l[i]?.getD z

/-- A sample is due 1 ms after the last one (R480). -/
def Power.due (p : Power) (time : Nat) : Bool := match p.last.at_ with | some t => decide (t + 1000000 ≤ time) | none => true

/-- One sample of every reading (R480); before the next is due nothing is sampled. -/
def sample (s : State) (watts : Nat) (rails : List (Nat × Nat)) (temps hbm : List Nat) (links : List (Bool × Nat)) : State :=
  let p := s.power
  if p.due s.time then
    { s with power := ({ p with last :=
        { watts := watts, rails := fit (0, 0) 6 rails, temps := fit 0 7 temps, hbm := fit 0 12 hbm
          steps := (List.range 6).map fun d => SMap.get 0 d p.step
          ecc := (List.range 7).map fun d => SMap.get 0 d p.ecc
          links := fit (false, 0) 22 links, at_ := some s.time } } : Power).judge s.time }
  else s

def execTelemetrySample (power : Nat) (rails : List (Nat × Nat)) (temps hbm : List Nat) (links : List (Bool × Nat)) (s : State) : Host.Outcome State Fault Refusal :=
  .next (sample s power rails temps hbm links)

/-- A change of the clock step of every C-die, not beyond 0 and 8; a die at 105 °C stays at 8. -/
def stepClocks (p : Power) (f : Nat → Nat) : SMap Nat :=
  (List.range 6).foldl (fun m d => if 1050 ≤ p.last.temps[d]?.getD 0 then m else SMap.put 0 d (min 8 (f (SMap.get 0 d m))) m) p.step

/-- While the average exceeds the cap, one step at most every 100 µs. -/
def throttleDown (s : State) : State :=
  let p := s.power
  let free := match p.lastStep with | some t => decide (t + 100000 ≤ s.time) | none => true
  if p.throttle && free then { s with power := { p with step := stepClocks p (· + 1), lastStep := some s.time } } else s

/-- After 10 ms at least 5% below the cap. -/
def throttleUp (s : State) : State :=
  let p := s.power
  match p.belowSince with
  | some t => if t + 10000000 ≤ s.time then { s with power := { p with step := stepClocks p (· - 1), belowSince := some s.time } } else s
  | none => s

/-- A die reaches 105 °C. -/
def thermal (s : State) (die : Nat) : State :=
  if 1050 ≤ s.power.last.temps[die]?.getD 0 then
    almanac { s with power := { s.power with step := if die < 6 then SMap.put 0 die 8 s.power.step else s.power.step } } die 3 2 7 []
  else s

def execThrottleStepDown (s : State) : Host.Outcome State Fault Refusal := .next (throttleDown s)
def execThrottleStepUp (s : State) : Host.Outcome State Fault Refusal := .next (throttleUp s)
def execThermalLimit (die : Fin 7) (s : State) : Host.Outcome State Fault Refusal := .next (thermal s die.val)

/-! The TRNG (R461) and fatal errors (R485). -/

/-- Memory that holds the object store: a store Untyped's, or that of the headers (R343, R346). -/
def inStore (s : State) (pa : Nat) : Bool :=
  (decide (headerBase ≤ pa) && decide (pa < hbmSize)) ||
    s.objs.any fun o => match o.2.body with | .untyped u => u.kind == 0 && decide (u.base ≤ pa) && decide (pa < u.base + 2 ^ u.log2) | _ => false

def execTrngHealthFail (s : State) : Host.Outcome State Fault Refusal := .next (almanac { s with trngOk := false } 6 0 0 2 [])
def execTrngStartUpTestsPass (s : State) : Host.Outcome State Fault Refusal := .next { s with trngOk := true }

def fatal (s : State) (src : FatalSource) : State :=
  let s1 := match src with
    | .store die => almanac s die.val 0 0 9 []
    | .reeve => almanac s 6 0 0 9 []
    | .ring die => almanac s die.val 0 1 9 []
  { s1 with frozen := true }

/-- An uncorrectable error in memory (R234); in the object store it is fatal (R485), at the die where it lies (R235, R487). -/
def eccDouble (s : State) (pa : Nat) : State :=
  let s1 := { s with ecc := SMap.put false (pa / 32) true s.ecc }
  if inStore s pa then fatal s1 (.store ⟨homeDie pa % 6, Nat.mod_lt _ (by decide)⟩) else s1

def execFatalError (src : FatalSource) (s : State) : Host.Outcome State Fault Refusal := .next (fatal s src)

/-! Management (R479, R481, R482, R485). -/

/-- The 64 bytes of an Almanac record (R484). -/
def almBytes (r : AlmRec) : List Byte :=
  bytesOf r.seq 8 ++ bytesOf r.time 8 ++ bytesOf (r.type % 2 ^ 16 + r.plane * 2 ^ 16 + r.world * 2 ^ 20 + r.die * 2 ^ 24) 8 ++ (r.data ++ List.replicate 40 0).take 40

/-- The readings of R480 as last sampled, one after another. -/
def telemetryBytes (p : Sample) : List Byte :=
  bytesOf p.watts 4 ++ (p.rails.flatMap fun r => bytesOf r.1 4 ++ bytesOf r.2 4) ++ (p.temps.flatMap fun t => bytesOf t 4) ++ (p.hbm.flatMap fun t => bytesOf t 4) ++
    (p.steps.flatMap fun n => bytesOf n 1) ++ (p.ecc.flatMap fun n => bytesOf n 4) ++ p.links.flatMap fun l => bytesOf l.1.toNat 1 ++ bytesOf l.2 4

/-- A command of the management port, in world 3: of an open session with an operator certificate only (R479). -/
def managed (s : State) (run : State) : State := if 0 < s.operators then run else s

/-- A management session opens, authenticated by an operator certificate, or is refused (R479). -/
def operatorOpen (s : State) (authentic : Bool) : State := if authentic then { s with operators := s.operators + 1 } else s
def operatorEnd (s : State) : State := { s with operators := s.operators - 1 }

/-- Telemetry is read through I3C too (R479). -/
def execMgmtReadTelemetry (i3c : Bool) (s : State) : Host.Outcome State Fault Refusal :=
  let run := { s with out := s.out ++ [.mgmt (telemetryBytes s.power.last)] }
  .next (if i3c then run else managed s run)

/-- The 4,096 records of the ring in the order of their index, and the counter of discarded appends. -/
def almanacBytes (s : State) : List Byte :=
  ((List.range 4096).flatMap fun i => almBytes (SMap.get AlmRec.zero i s.almanac)) ++ bytesOf s.lost.toNat 4

/-- The ring and the counter; the freeze ends. -/
def execMgmtReadAlmanac (s : State) : Host.Outcome State Fault Refusal :=
  .next (managed s { s with out := s.out ++ [.mgmt (almanacBytes s)], frozen := false })

/-- R481: a cap in range, at which the last sample is judged anew; the average has stayed below a lower cap only since it was set. -/
def setPowerCap (s : State) (watts : Nat) : State :=
  let p := s.power
  if 1200 ≤ watts ∧ watts ≤ 2400 then
    { s with power := ({ p with cap := watts, belowSince := if p.cap ≤ watts then p.belowSince else none } : Power).judge s.time }
  else s

def execMgmtSetPowerCap (watts : Nat) (s : State) : Host.Outcome State Fault Refusal := .next (managed s (setPowerCap s watts))

/-- R482: an image whose signatures and version pass goes to the inactive bank. -/
def stageFirmware (s : State) (version : Nat) (digest : BitVec 384) (sigOk : Bool) : State :=
  if !sigOk || decide (version < s.fw.rollback) then s
  else
    let b := 1 - s.fw.active
    { s with fw := { s.fw with
        staged := true, digests := Map.set b digest s.fw.digests
        versions := if b = 0 then (version, s.fw.versions.2) else (s.fw.versions.1, version) } }

def execMgmtStageFirmware (version : Nat) (digest : BitVec 384) (sigOk : Bool) (s : State) : Host.Outcome State Fault Refusal :=
  .next (managed s (stageFirmware s version digest sigOk))

/-! Boot (R454, R483). -/

/-- A root Untyped that the store can have: aligned, in HBM below the headers, in device space, or within its die's Cellar (R232, R235). -/
def rootOk (s : State) (kind base log2 : Nat) : Bool :=
  let n := 2 ^ log2
  base % n == 0 &&
    (match kind with
    | 0 | 1 => decide (base + n ≤ headerBase)
    | 2 => physKind s base n == some 2
    | 3 => physKind s base n == some 3
    | _ => false)

/-- The roots of a plan that the store can have, each disjoint from those before it. -/
def storeRoots (s : State) (plan : BootPlan) : List (Nat × Nat × Nat × Nat) :=
  plan.roots.foldl (fun l r =>
    if rootOk s r.2.1 r.2.2.1 r.2.2.2 && l.all (fun q => decide (r.2.2.1 + 2 ^ r.2.2.2 ≤ q.2.2.1) || decide (q.2.2.1 + 2 ^ q.2.2.2 ≤ r.2.2.1)) then l ++ [r] else l) []

/-- A new object of the boot. -/
def bootPut (s : State) (world : Nat) (b : Body) : Nat × State :=
  let (n, s1) := s.newId
  (headerBase + 64 * n, { s1 with objs := Map.set (headerBase + 64 * n) { world := world, torn := false, parent := none, src := 0, body := b } s1.objs })

/-- The root table of the AddressSpace of %ctx 0; its header and its other tables follow it. -/
def fwRoot : Nat := 0x6B00000000

/-- The AddressSpace in which the service firmware runs, with the pages of the plan (R454). -/
def bootSpace (s : State) (pages : List (Nat × Nat × Nat)) : State :=
  let free := (List.range 64).map fun i => fwRoot + 16384 + 8192 * i
  let o : Obj := { world := 2, torn := false, parent := none, src := 0, body := .aspace { root := fwRoot, free := free, files := [] } }
  pages.foldl (fun st p =>
    match placeLeaf st (fwRoot + 8192) fwRoot 1 p.1 (Pte.mkLeaf p.2.1 2 0 0 (p.2.2.testBit 0) (p.2.2.testBit 1) (p.2.2.testBit 2) false) with
    | .ok st1 => st1
    | .error _ => st) { zeroPhys s fwRoot 8192 with objs := Map.set (fwRoot + 8192) o s.objs }

/-- A thread of the service firmware on its service core, in %ctx 0, with the capabilities delegated to it (R454). -/
def bootThread (s : State) (ctx : Nat) (f : FwThread) : State :=
  let (n, s1) := s.newId
  let t := startThread { Launch.empty with declared := 256 } ⟨f.pcc, true⟩
  let c := f.caps.foldl (fun m p => SMap.put Cap.null (p.1 % 32) ⟨p.2, true⟩ m) t.c
  let g : Group := { Group.empty with
    ctx := ctx, launch := { Launch.empty with ctx := ctx, declared := 256 }, service := true, core := f.core % 32, nthreads := 1
    clans := [(0, startClan Launch.empty Cap.null [] 0 n)], threads := [(0, { t with c := c })], slot := BitVec.ofNat 64 (2 ^ 57) }
  { s1 with groups := Map.set n g s1.groups }

/-- Step 4: the root Untypeds, Context %ctx 0, which takes the boot record as its chain, and the service firmware with its capabilities. -/
def makeStore (s : State) (plan : BootPlan) : State :=
  let s1 := (storeRoots s plan).foldl (fun s r => (bootPut s r.1 (.untyped { base := r.2.2.1, log2 := r.2.2.2, kind := r.2.1, mark := 0 })).2) s
  let s2 := if plan.pages.isEmpty then s1 else bootSpace s1 plan.pages
  let (c, s3) := bootPut s2 2 (.context { newContext 0 with
    chain := s.bootRecord, count := BitVec.ofNat 64 s.bootCount, aspace := if plan.pages.isEmpty then none else some (fwRoot + 8192) })
  plan.firmware.foldl (fun st f => bootThread st c f) { s3 with nextCtx := 1 }

/-- The pair keys that the Reeves agree over the fabric ports that came up (R462). -/
def agreePairs (s : State) (plan : BootPlan) : State :=
  if (List.range 18).all plan.fabricDown.contains then s
  else plan.peers.foldl (fun st p => let (k, st1) := st.draw; { st1 with pairs := Map.set p { key := Config.pairSecret k, sent := [], received := [] } st1.pairs }) s

/-- Steps 4 to 6: a port that fails stays down. -/
def bootRest (s : State) (plan : BootPlan) : State :=
  let s1 := { s with cellarMiB := SMap.ofList 0 (plan.cellar.map fun n => min 64 (n / 16 * 16)) }
  let down (l : List Nat) (m : SMap Bool) : SMap Bool := l.foldl (fun m p => SMap.put false p true m) m
  let s2 := { makeStore s1 plan with
    bars := plan.bars, pkg := plan.pkg, linkDown := down plan.rootDown []
    portDown := down ((plan.ethDown.filter (· < 4)) ++ ((plan.fabricDown.filter (· < 18)).map (· + 4))) [] }
  { agreePairs s2 plan with bootStep := 6 }

/-- The start-up tests of the TRNG (R460, R461), which fail n times before they pass: every failure is appended; eight in a row end the wait. -/
def bootTrng (s : State) (n : Nat) : State := { (List.range (min n 8)).foldl (fun st _ => almanac st 6 0 0 2 []) s with trngOk := decide (n < 8) }

/-- Step 2: the digests of the Reeve's image and of the service firmware enter the boot record, and the service firmware is loaded. -/
def bootMeasure (s : State) (plan : BootPlan) (fw : BitVec 384) : State :=
  let s1 := plan.image.foldl (fun st p => if p.1 + p.2.length ≤ headerBase then writePhys st p.1 p.2 else st) s
  { s1 with bootRecord := chainNext (chainNext 0 0 3 plan.reeveDigest) 1 3 fw, bootCount := 2, bootStep := 2 }

/-- Step 3: the Stile matrix and LOCK. -/
def bootStiles (s : State) (plan : BootPlan) : State :=
  { s with boundRows := plan.rows, prot := plan.prot &&& 0xFFF0, lock := true, bootStep := 3 }

/-- A boot that stops at a step, with its Almanac entry. -/
def bootStop (s : State) (step : Nat) : State := almanac { s with bootStep := step - 1 } 6 0 0 1 []

/-- A boot of one bank: it ends, or stops at step 1, 2 or 4, the steps that can fail. -/
def bootBank (s : State) (plan : BootPlan) (fw : BitVec 384) (fails : Option Nat) (trng : Nat) : State :=
  let s1 := bootTrng s trng
  if 8 ≤ trng then bootStop s1 1
  else if fails = some 2 then bootStop s1 2
  else
    let s3 := bootStiles (bootMeasure s1 plan fw) plan
    if fails = some 4 then bootStop s3 4 else bootRest s3 plan

/-- What a cold reset leaves: the state of reset; the flash banks; the sessions of the always-on management plane; what the outside will bring. -/
def coldBase (s : State) : State :=
  { State.reset with agenda := s.agenda, fresh := s.fresh, turn := s.turn, nextId := s.nextId, fw := s.fw, out := s.out, responses := s.responses, operators := s.operators }

/-- Cold reset: a staged bank is tried once; when that boot ends before step 6 the old bank boots, and the failure is appended (R482). -/
def coldReset (s : State) (plan : BootPlan) : State :=
  let b := coldBase s
  let image (bank : Nat) : BitVec 384 := (Map.get? bank s.fw.digests).getD plan.fwDigest
  if s.fw.staged then
    let next := 1 - s.fw.active
    let t := bootBank { b with fw := { s.fw with staged := false, active := next } } plan (image next) plan.fails plan.trngFails
    if t.bootStep = 6 then t
    else
      let old := { b with fw := { s.fw with staged := false }, fresh := t.fresh, almanac := t.almanac, almSeq := t.almSeq }
      bootBank (almanac old 6 0 0 10 []) plan (image s.fw.active) plan.failsOld plan.trngFailsOld
  else bootBank b plan (image s.fw.active) plan.fails plan.trngFails

/-- The boot record as it stands: the chain of %ctx 0 once that exists (R454). -/
def bootChain (s : State) : BitVec 384 × Nat :=
  (s.objs.findSome? fun o => match o.2.body with | .context c => if c.id = 0 then some (c.chain, c.count.toNat) else none | _ => none).getD (s.bootRecord, s.bootCount)

/-- Warm reset: steps 4 to 6 of a boot that had come past step 3; LOCK, the Almanac, the boot record, time and memory stay, every object is lost, the cores' clocks restart (R12, R483), the TRNG tests itself (R460). The power cap, the throttle signal and the clock steps stay as they are: the manual does not say (log entry 54). -/
def warmReset (s : State) (plan : BootPlan) : State :=
  let b := { coldBase s with
    time := s.time, mem := s.mem, tags := s.tags, ecc := s.ecc, cipher := s.cipher, boundRows := s.boundRows, prot := s.prot, lock := s.lock
    almanac := s.almanac, almSeq := s.almSeq, frozen := s.frozen, lost := s.lost, power := s.power
    bootRecord := (bootChain s).1, bootCount := (bootChain s).2, bootStep := min 3 s.bootStep }
  let b1 := bootTrng b plan.trngFails
  if s.bootStep < 3 then b1
  else if 8 ≤ plan.trngFails ∨ plan.fails = some 4 then bootStop b1 4
  else bootRest b1 plan

def execColdReset (plan : BootPlan) (s : State) : Host.Outcome State Fault Refusal := .next (coldReset s plan)
def execWarmReset (plan : BootPlan) (s : State) : Host.Outcome State Fault Refusal := .next (warmReset s plan)

end Sys2Proof.Machine
end

