-- ==== Sys2Proof/Machine/Dispose.lean ====
section
/-! DEFINITION. The disposition of an encoding that is not executed natively (R57, R388), and the words of unassigned slots (R53). -/

namespace Sys2Proof.Machine

/-- R170: opcodes whose emulated encodings gather first (R388). -/
def gathersOp (op : Nat) (mod : Nat) : Bool :=
  (decide (0x280 ≤ op) && decide (op ≤ 0x289)) || (op == 0x28A && bitsAt mod 0 1 == 1) || op == 0x10A || (decide (0x300 ≤ op) && decide (op ≤ 0x30C)) || bitsAt mod 13 1 == 1

/-- The disposition of an issue that is not native (R57, R388): a gathering encoding gathers before it enters the handler. -/
def dispose (s : State) (c : Cur) (h : Hdr) (r : Raw) (lanes : List Nat) (odt reason : Nat) : State :=
  let handler := ((s.ctx? (s.grp c.gid).ctx).map ContextObj.handler).getD Cap.null
  let x : Cx := ⟨c.gid, c.clan, lanes.headD 0⟩
  let im := laneMask c.lanes
  let slot := slotValue s c.gid c.raw
  let gather : State := gathering h s implicitMask false noCheck fun _ st a => enterHandler st c.gid c.clan a.mem c.raw reason slot
  -- every guard is false: the threads pass, as excluded members of a gather that is pending (R172)
  if lanes.isEmpty then (if gathersOp r.op r.mod then gather else c.lanes.foldl (fun s l => advance s ⟨c.gid, c.clan, l⟩ c.foot) s)
  else if 2 ≤ odt ∨ !handler.tag then raise s c.gid c.clan im (laneMask lanes) c.pc c.raw false false { cls := 3, sub := 1 }
  else if (s.thr x.gid x.tid).edepth = 2 then raise s c.gid c.clan im (laneMask lanes) c.pc c.raw false false { cls := 8, sub := 0 }
  else
    if gathersOp r.op r.mod then gather
    else
      let s1 := (c.lanes.filter fun l => !lanes.contains l).foldl (fun s l => advance s ⟨c.gid, c.clan, l⟩ c.foot) s
      enterHandler s1 c.gid c.clan lanes c.raw reason slot

/-- A word of an unassigned slot takes the opcode's disposition, with REASON 1 (R53, R57, R392). -/
def execUnassignedOpcode (h : Hdr) (raw : BitVec 128) (s : State) : Host.Outcome State Fault Refusal :=
  match s.cur with
  | none => .next s
  | some c =>
    let r := Raw.ofWord raw.toNat
    .next (dispose s c h r (c.lanes.filter fun l => c.gathered || (s.thr c.gid (c.clan * 32 + l)).guard h) (odtEntry s c.gid r.op) 1)

end Sys2Proof.Machine
end

