-- ==== Sys2Proof/Machine/Fabric.lean ====
section
/-! DEFINITION. Packets from other packages: answers (R437), requests through this package's exports (R436), replicated writes (R428-R430), authentication (R462); the write-combining buffer's age (R440). -/

namespace Sys2Proof.Machine

/-! Answers (R437). -/

/-- The effective address of a remote access. -/
def RemoteOut.addr (r : RemoteOut) : DWord := BitVec.ofNat 64 (r.cap.addr + r.off)

/-- The deferred fault of a refusal at the origin: class, subclass, and for a capability fault the capability. -/
def RemoteOut.fault (r : RemoteOut) (cls sub : Nat) : FaultInfo :=
  { cls := cls, sub := sub, addr := if cls = 1 ∨ cls = 2 then r.addr else 0, cap := if cls = 1 then { r.cap with tag := false } else Cap.null }

/-- What an answer writes in a requester. -/
def remoteWritesOf (s : State) (r : RemoteOut) (a : RemoteAns) (x : Cx) : List RegWrite :=
  match r.status, a with
  | some (d, nbp, _), .status w =>
    wr32 s x d w ++ (match nbp with
      | some p => if w.toNat = stOK then wrPred p true else if w.toNat = stFULL then wrPred p false else []
      | none => [])
  | none, .data bs =>
    let v (n : Nat) : Nat := ofBytes ((bs ++ List.replicate n 0).take n)
    match r.op with
    | .load n => loadWrites s x r.ty r.d (v n)
    | .atom _ n _ | .atomx n _ _ => loadWrites s x r.ty r.d (v n)
    | _ => []
  | _, _ => []

/-- A refused part of an access of several words (R435, R437): the access ends with nothing done, its performers go on past it, and the failure is a deferred fault of theirs. -/
def failPart (s : State) (who : Who) (pc : DWord) (raw : BitVec 128) (f : FaultInfo) : State :=
  let m := laneMask who.lanes
  let s1 := (dropParts s (· == who)).modClan who.gid who.clan fun c =>
    { c with gathers := c.gathers.filter fun g => !(g.formed && g.pc == pc && g.waiting == m) }
  let s2 := who.cxs.foldl (fun st x => advance st x (footOfLen (bitsAt raw.toNat 0 2))) s1
  raise s2 who.gid who.clan m m pc raw false true f

/-- A part of an access of several words has come: its bytes wait in the first thread of the performer, which looks whether it was the last. -/
def takePart (s : State) (who : Who) (i : Nat) (bs : List Byte) : State :=
  match who.cxs with
  | x :: _ => s.modThr x.gid x.tid fun t => { t with fetched := Map.set i bs t.fetched }
  | [] => s

/-- The answer to a request of this package; one that came too late finds no request (R437). A refused combined write is reported against every thread whose store it held. -/
def remoteAnswer (s : State) (id : Nat) (a : RemoteAns) : State :=
  match Map.get? id s.remotes with
  | none => s
  | some r =>
    let s1 := { s with remotes := Map.del id s.remotes }
    wakeFences (match r.far, r.carter, r.who with
      | some f, _, _ => farAnswer s1 f a
      | none, some c, _ => carterAnswer s1 c r.op a
      | none, none, some (who, pc, raw) =>
        match a, r.part with
        | .refuse cls sub, none => failPend s1 (.remote id) who pc raw (r.fault cls sub)
        | .refuse cls sub, some _ => failPart s1 who pc raw (r.fault cls sub)
        | .data bs, some i => takePart s1 who i bs
        | a, _ => who.cxs.foldl (fun st x => landPend st (.remote id) (remoteWritesOf st r a) x) s1
      | none, none, none =>
        match a with
        | .refuse cls sub => r.issuers.foldl (fun st i => failPend st (.remote id) i.1 i.2.1 i.2.2 (r.fault cls sub)) s1
        | _ => s1)

/-- No response within 50 ms (R437). -/
def remoteTimeout (s : State) (id : Nat) : State :=
  match Map.get? id s.remotes with
  | some r => if r.born + 50000000 ≤ s.time then remoteAnswer s id (.refuse 2 3) else s
  | none => s

def execRemoteResponseTimeout (req : Nat) (s : State) : Host.Outcome State Fault Refusal := .next (remoteTimeout s req)

/-! Requests of other packages (R436). -/

/-- The bytes that a request touches: offset from its base, count; alignment, which a range of more than 16 bytes takes from its length; permissions; kind of access. -/
def RemoteOp.access : RemoteOp → List (Nat × Nat) × Nat × List Nat × Acc
  | .load n => ([(0, n)], Nat.gcd n 16, [permLoad], .rd)
  | .store bs => ([(0, bs.length)], Nat.gcd bs.length 16, [permStore], .wr)
  | .combined bs => (bs.map fun b => (b.1, 1), 1, [permStore], .wr)
  | .atom _ n _ => ([(0, n)], n, [permLoad, permStore, permAtomic], .rmw)
  | .atomx n _ _ => ([(0, n)], n, [permLoad, permStore, permAtomic], .rmw)
  | .send .. => ([], 1, [permInvoke], .rd)

/-- The atomic that a request asks for: operation, comparand, size, operand. -/
def RemoteOp.atomic? : RemoteOp → Option (AOp × Option Nat × Nat × Nat)
  | .atom aop n a => some (aop, none, n, a)
  | .atomx n c v => some (.swapOp, some c, n, v)
  | _ => none

/-- The origin's outcome: an answer, a page to read first, or an answer that comes later. -/
inductive Served where
  | ans (a : RemoteAns) (s : State)
  | absent (fm page : Nat)
  | waits (s : State)

/-- Where bytes of an export lie: never a window. -/
def exportPlace (s : State) (e : ExportEntry) (acc : Acc) (a _n : Nat) : Hit :=
  if (windowOf a).isSome then .fault 2 2
  else
    match translate s e.aspace e.world acc a with
    | .ok pa mt k => .at_ (.mem pa mt k)
    | .fault c u => .fault c u
    | .absent f p => .absent f p

/-- All the pieces of a request, or the first that cannot be reached. -/
def exportPieces (s : State) (e : ExportEntry) (acc : Acc) : List (Nat × Nat) → Except Hit (List (List (Loc × Nat)))
  | [] => .ok []
  | (a, n) :: rest => do
    let ps ← pieces (exportPlace s e acc) (n / 2 ^ 17 + 2) a n
    let more ← exportPieces s e acc rest
    .ok (ps :: more)

/-- The writer of the bytes of another package's store, whose acknowledgement waits for them: the fabric, under a number of the store's own. -/
def storeCx (n : Nat) : Cx := engineCx (2 ^ 60 + n) 6

/-- A store at its home (R436): acknowledged once it is performed there, which on a bound Frame is at every member (R430). -/
def serveStore (s : State) (r : RemoteReq) (e : ExportEntry) (put : Nat × List Nat → State → State) : Served :=
  let (n, s1) := s.newId
  let x := storeCx n
  let s2 := replSettle (put x.writer s1)
  if replAway s2 0 x.tid || replOwes s2 0 x.tid then
    .waits (sendAway { s2 with acks := s2.acks ++ [⟨r.src.toNat, r.id, x.tid, r.entry, e.world⟩] })
  else .ans (.data []) s2

/-- An atomic of another package on a Frame that is bound across packages goes to the Bellringer of its home, as the package's own do (R429, R430). -/
def foreignAtom (s : State) (src id : Nat) (entry : Option Nat) (world pa : Nat) (key : MemKey) (q : AOp × Option Nat × Nat × Nat) : State :=
  let (n, s1) := s.newId
  let f : FarReq := {
    pa := pa, dest := .repl, aop := q.1, cmp := q.2.1, size := q.2.2.1, operand := q.2.2.2, tree := .foreign src id entry, comb := false, hold := false
    reassoc := false, scope := 0, world := world, cistern := 0, free := false, arrived := n, route := [], issue := n, old := none, key := key }
  splitFar (homePerform { s1 with fars := Map.set n f s1.fars } n) n

/-- An atomic at its home. -/
def serveAtomic (s : State) (r : RemoteReq) (e : ExportEntry) (l : Loc) (q : AOp × Option Nat × Nat × Nat) : Served :=
  let near : Served :=
    if eccLoc s l q.2.2.1 then .ans (.refuse 9 3) s
    else let (v, s1) := performAtom s fabricCx.writer l q.1 q.2.1 q.2.2.1 q.2.2.2; .ans (.data (bytesOf v q.2.2.1)) (replSettle s1)
  match l with
  | .mem pa 1 k => if (boundGroup s pa).isSome then .waits (foreignAtom s r.src.toNat r.id (some r.entry) e.world pa k q) else near
  | _ => near

/-- The access itself, at its home (R436). No tag enters memory; a combined write is one write (R440). -/
def serveAt (s : State) (r : RemoteReq) (e : ExportEntry) (pss : List (List (Loc × Nat))) : Served :=
  let ps := pss.flatten
  match r.op with
  | .load _ => if eccPieces s ps then .ans (.refuse 9 1) s else let (bs, s1) := readRange s fabricCx ps; .ans (.data bs) s1
  | .store bs => serveStore s r e fun w st => writePieces st w ps bs
  | .combined bs => serveStore s r e fun w st => writeSeveral st w ((ps.zip bs).map fun p => (p.1.1, [p.2.2]))
  | .send .. => .ans (.status 0) s
  | op =>
    match ps, RemoteOp.atomic? op with
    | (l, _) :: _, some q => serveAtomic s r e l q
    | _, _ => .ans (.data []) s

/-- A remote SEND (R436): judged in the entry's world, words, and of the capabilities only X ones with their tags. -/
def serveSend (s : State) (r : RemoteReq) (e : ExportEntry) (words : List Word) (caps : List (BitVec 128 × Bool)) (nb : Bool) : Served :=
  let st (n : Nat) : Served := .ans (.status (BitVec.ofNat 32 n)) s
  let h := e.src.base
  if e.src.otype ≠ 1 then st stBADCAP
  else if (s.ep? h).isNone then st stDEAD
  else if s.worldOf h ≠ e.world then st stWORLD
  else if s.dead h then st stDEAD
  else
    let m : Msg := { words := words, badge := e.src.badge, reply := none, caps := caps.map fun c => let k : Cap := ⟨c.1, c.2⟩; { k with tag := k.tag && k.x } }
    match offer s h m with
    | some s1 => .ans (.status 0) s1
    | none => if nb then st stFULL else .waits (s.modEp h fun q => { q with senders := q.senders ++ [.remote r.src.toNat r.id r.entry e.world m] })

/-- The check of the export entry (R436): the entry as the request goes through it, its capability as the sieve takes it now (R407); an entry that is being dropped is invalid (R439). -/
def entryCheck (s : State) (r : RemoteReq) : Except RemoteAns ExportEntry :=
  match Map.get? r.entry s.exports with
  | none => .error (.refuse 1 1)
  | some e =>
    if e.chk ≠ r.chk ∨ e.dropper.isSome then .error (.refuse 1 1)
    else if !((RemoteOp.access r.op).2.2.1.all fun p => e.perm.getLsbD p) then .error (.refuse 1 3)
    else .ok { e with src := sieve s e.world e.src }

/-- A request that has passed the entry check (R436). -/
def serveEntry (s : State) (r : RemoteReq) (e : ExportEntry) : Served :=
  let (parts, align, perms, acc) := RemoteOp.access r.op
  let ao (o : Nat) : Nat := (e.src.addr + r.off.toNat + o) % 2 ^ 64
  match r.op with
  | .send words caps nb => if e.src.tag then serveSend s r e words caps nb else .ans (.refuse 1 1) s
  | _ =>
    match parts.findSome? fun p => capCheckAlign e.src (ao p.1) p.2 (if r.engine then 1 else align) perms with
    | some f => .ans (.refuse f.cls f.sub) s
    | none =>
      match exportPieces s e acc (parts.map fun p => (ao p.1, p.2)) with
      | .error (.absent f p) => .absent f p
      | .error (.fault c u) => .ans (.refuse c u) s
      | .error (.at_ _) => .ans (.refuse 2 3) s
      | .ok pss => serveAt s r e pss

/-- Requests of one ordered class of one source (R432). -/
def sameClass (r q : RemoteReq) : Bool := r.src == q.src && (RemoteOp.atomic? r.op).isSome == (RemoteOp.atomic? q.op).isSome

def answerReq (s : State) (r : RemoteReq) (a : RemoteAns) : State := sendPacket s r.sealed r.src.toNat (.remoteAns r.src.toNat r.id a)

/-- A routed request is presented (R436, R437), with the entry whose check it has passed, if it has: behind an earlier one of its class that waits, it waits too (R432); one that needs a page that is not in memory goes on when the page has been read. -/
def presentReq (s : State) (r : RemoteReq) (passed : Option ExportEntry) : State :=
  if s.inbound.any (fun q => sameClass q.req r) then { s with inbound := s.inbound ++ [⟨r, passed, none⟩] }
  else
    match passed.map Except.ok |>.getD (entryCheck s r) with
    | .error a => answerReq s r a
    | .ok e =>
      match serveEntry s r e with
      | .ans a s1 => answerReq s1 r a
      | .waits s1 => s1
      | .absent f p => demandPage { s with inbound := s.inbound ++ [⟨r, some e, some (f, p)⟩] } f p

/-- An entry of a protected world takes only requests that came sealed: any other is dropped, and reported (R462). -/
def unsealedFor (s : State) (r : RemoteReq) : Bool := !r.sealed && ((Map.get? r.entry s.exports).map fun e => protectedWorld s e.world).getD false

/-- A routed request arrives at a die. -/
def remoteArrive (s : State) (die : Nat) (r : RemoteReq) : State :=
  if unsealedFor s r then almanac s die 0 1 6 [] else presentReq s r none

def execRemoteRequestArrive (r : RemoteReq) (s : State) : Host.Outcome State Fault Refusal := .next (remoteArrive s (r.src.toNat % 18 / 3) r)

/-- The requests that wait are presented again, in their order; entries whose dropper has gone and that nothing waits for leave the table (R439). -/
def drainInbound (s : State) : State :=
  let s1 := s.inbound.foldl (fun st q => presentReq st q.req q.entry) { s with inbound := [] }
  let s2 := { s1 with exports := s1.exports.filter fun e => !(e.2.dropper.any (fun w => (s1.grp? w.gid).isNone) && !exportOpen s1 e.1) }
  if s1.inbound.length < s.inbound.length then wakeFences s2 else s2

/-- A page's read failed: the requests that wait for it are refused (R436, R437). -/
def failInbound (s : State) (fm page : Nat) : State :=
  let gone (q : Inbound) : Bool := q.paged == some (fm, page)
  drainInbound ((s.inbound.filter gone).foldl (fun st q => answerReq st q.req (.refuse 2 8)) { s with inbound := s.inbound.filter fun q => !gone q })

/-- The stores of other packages that have been performed are acknowledged (R430, R437). -/
def answerAcks (s : State) : State :=
  let done (a : Ack) : Bool := !replAway s 0 a.writer && !replOwes s 0 a.writer
  if s.acks.any done then
    wakeFences ((s.acks.filter done).foldl (fun st a => sendPacket st (protectedWorld s a.world) a.src (.remoteAns a.src a.id (.data []))) { s with acks := s.acks.filter fun a => !done a })
  else s

/-- R440: an entry of a core's buffer has reached its age limit. -/
def wcExpire (s : State) (core : Nat) (svc : Bool) (n : Nat) : State :=
  let k := if svc then 1536 + core else core
  match ((Map.get? k s.wc).getD [])[n]? with
  | some e => if e.born + e.age ≤ s.time then wcDrain s k (· == e) else s
  | none => s

def execWcAgeExpire (core : Nat) (svc : Bool) (entry : Nat) (s : State) : Host.Outcome State Fault Refusal := .next (wcExpire s core svc entry)

/-! Replicated pages (R428-R430). -/

/-- The Bellringer stamps the oldest write of the package's domain that every member can take; one of another package's domain is sent there. -/
def replStamp (s : State) : State :=
  match s.replNew.find? fun w => !boundWaits s w.pa && !(w.sent && boundAway s w.pa) with
  | none => s
  | some w =>
    if boundAway s w.pa then
      { s with replNew := s.replNew.map (fun v => if v == w then { v with sent := true } else v), out := s.out ++ [.replMulticast w.pa w.data w.more] }
    else drainPosted (stampWrite s w)

/-- Writes that every replica has applied leave the log; the home hears of another package's (R430). -/
def replPrune : Nat → State → State
  | 0, s => s
  | n + 1, s =>
    match s.replLog with
    | [] => s
    | w :: rest =>
      if (List.range 7).all fun d => decide (0 < SMap.get 0 d s.replDone) then
        replPrune n { applyRepl s w with
          replLog := rest, replDone := (List.range 7).foldl (fun m d => SMap.put 0 d (SMap.get 0 d m - 1) m) s.replDone, out := s.out ++ appliedOuts [w] }
      else s

/-- A die's replica applies the next stamped write. -/
def replApply (s : State) (die : Nat) : State :=
  let s1 := replNext s die
  replPrune s1.replLog.length s1

def execReplWriteStamp (s : State) : Host.Outcome State Fault Refusal := .next (replStamp s)
def execReplReplicaApply (die : Fin 7) (s : State) : Host.Outcome State Fault Refusal := .next (replApply s die.val)

/-- A write to a Frame that is bound across packages arrives (R430): at the home, another member's to stamp; elsewhere, one that the home has stamped, the package's own coming back or another member's. A frozen Frame takes none (R415). -/
def replArrive (s : State) (pa : Nat) (data : List Byte) (more : List (Nat × List Byte)) : State :=
  let w : ReplWrite := { pa := pa, data := data, tags := [], gid := 0, tids := [], key := keyAt s pa, more := more, foreign := true }
  let frozen := ((frameAt s pa).map FrameObj.frozen).getD false
  let applied := { s with out := s.out ++ [.replApplied pa data] }
  if (boundGroup s pa).isNone then applied
  else if !boundAway s pa then (if frozen then applied else { s with replNew := s.replNew ++ [w] })
  else
    match s.replNew.find? fun v => v.sent && v.pa == pa && v.data == data && v.more == more with
    | some v =>
      let s1 := { s with replNew := s.replNew.erase v }
      drainPosted (wakeFences (if frozen then s1 else { s1 with replLog := s.replLog ++ [v], owed := s.owed ++ owedFor s v }))
    | none => if frozen then applied else drainPosted (wakeFences { s with replLog := s.replLog ++ [w] })

/-- An atomic of another member for this package's Bellringer (R429, R430). -/
def replAtom (s : State) (src id pa : Nat) (op : RemoteOp) : State :=
  if boundAway s pa || (boundGroup s pa).isNone then s
  else
    match RemoteOp.atomic? op with
    | some q => foreignAtom s src id none 0 pa (keyAt s pa) q
    | none => s

/-- Every replica of a member has applied a write of this package (R430); a home whose Frame is frozen answers so for one that it does not stamp. -/
def replApplied (s : State) (rank pa : Nat) (data : List Byte) : State :=
  match s.owed.find? fun o => o.pa == pa && o.data == data && o.ranks.contains rank with
  | some o =>
    let rest := { o with ranks := o.ranks.erase rank }
    wakeFences { s with owed := if rest.ranks.isEmpty then s.owed.erase o else s.owed.map fun v => if v == o then rest else v }
  | none =>
    match s.replNew.find? fun v => v.sent && v.pa == pa && v.data == data with
    | some v => drainPosted (wakeFences { s with replNew := s.replNew.erase v })
    | none => s

/-- A member has bound its Frame of a size (R430). -/
def replBound (s : State) (group rank log2 : Nat) : State :=
  wakeFences { s with bound := (s.bound.filter fun b => !(b.1 == group && b.2.1 == rank)) ++ [(group, rank, log2)] }

/-! Packets (R432, R462). -/

/-- The package that a packet comes from, as far as it names one. -/
def Payload.source (s : State) : Payload → Option Nat
  | .answer id _ => (Map.get? id s.remotes).map RemoteOut.pkg
  | .request r => some r.src.toNat
  | .replAtom src _ _ _ | .ordered src _ _ _ => some src.toNat
  | _ => none

/-- A request says whether its packet came sealed. -/
def Payload.sealedAs (b : Bool) : Payload → Payload
  | .request r => .request { r with sealed := b }
  | p => p

/-- An answer that came unsealed for a request of a protected world (R462). -/
def unsealedAnswer (s : State) (sealed : Bool) : Payload → Bool
  | .answer id _ => !sealed && ((Map.get? id s.remotes).map fun r => protectedWorld s r.world).getD false
  | _ => false

/-- What a packet brings is presented. -/
def present (s : State) (port : Nat) (p : Payload) : State :=
  answerAcks (match p with
    | .answer id a => remoteAnswer s id a
    | .request r => remoteArrive s (port / 3) r
    | .replAtom src id pa op => replAtom s src.toNat id pa op
    | .replWrite pa data more => replArrive s pa data more
    | .replApplied _ rank pa data => replApplied s rank pa data
    | .replBound group rank log2 => replBound s group rank log2
    | .ordered .. | .other => s)

/-- The packets of an ordered class whose turn has come are presented, in the order sent (R432). -/
def presentTurns (port key : Nat) : Nat → State → State
  | 0, s => s
  | n + 1, s =>
    let t := (Map.get? key s.turns).getD 0
    match s.early.find? fun e => e.1 == key && e.2.1 == t with
    | none => s
    | some e => presentTurns port key n (present { s with early := s.early.erase e, turns := Map.set key (t + 1) s.turns } port e.2.2)

/-- A packet of an ordered class takes its turn; one whose turn has passed is dropped. -/
def takeTurn (s : State) (port key no : Nat) (p : Payload) : State :=
  if no < (Map.get? key s.turns).getD 0 then s
  else
    let s1 := { s with early := s.early ++ [(key, no, p)] }
    presentTurns port key s1.early.length s1

/-- A packet has been opened under the pair key of its source: the next IV of its port's plane (R462). -/
def countOpened (s : State) (port : Nat) (src : Option Nat) : State :=
  match src with
  | some p => { s with pairs := Map.modify p (fun k => { k with received := SMap.put 0 port (SMap.get 0 port k.received + 1) k.received }) s.pairs }
  | none => s

/-- A packet arrives at a port, if the port came up (R483). One of a protected world that fails authentication, or that comes unsealed, is dropped and reported (R462). -/
def packetArrive (s : State) (port : Fin 18) (prot authentic : Bool) (p : Payload) : State :=
  let src := Payload.source s p
  let opens := authentic && src.any fun k => (Map.get? k s.pairs).isSome
  if SMap.get false (4 + port.val) s.portDown then s
  else if (prot && !opens) || unsealedAnswer s prot p then almanac s (port.val / 3) 0 1 6 []
  else
    let s1 := if prot then countOpened s port.val src else s
    match p with
    | .ordered k cls no q => takeTurn s1 port.val (k.toNat * 3 + cls.val) no (Payload.sealedAs prot q)
    | p => present s1 port.val (Payload.sealedAs prot p)

def execFabricPacketReceive (port : Fin 18) (prot authentic : Bool) (p : Payload) (s : State) : Host.Outcome State Fault Refusal :=
  .next (packetArrive s port prot authentic p)

end Sys2Proof.Machine
end

