-- ==== Sys2Proof/Machine/FloatOps.lean ====
section
/-! DEFINITION. Class 1: floating-point arithmetic, comparison and conversion (R114-R125). -/

namespace Sys2Proof.Machine

def wrF (s : State) (x : Cx) (t : FType) (d : Reg) (v : Nat) : List RegWrite := wrW s x t.is64 d v
def rdF (s : State) (x : Cx) (t : FType) (r : Reg) : Nat := rdW s x t.is64 r

/-- Two-operand forms (R45, R114). -/
def fltB (h : Hdr) (t : FType) (d a b : Reg) (f : Nat → Nat → Nat) (s : State) : State :=
  compute h s fun s x => wrF s x t d (f (rdF s x t a) (rdF s x t b))
def fltI (h : Hdr) (t : FType) (d a : Reg) (imm : BitVec 32) (f : Nat → Nat → Nat) (s : State) : State :=
  compute h s fun s x => wrF s x t d (f (rdF s x t a) (immF t imm))
def fltL (h : Hdr) (t : FType) (d a : Reg) (imm : BitVec 64) (f : Nat → Nat → Nat) (s : State) : State :=
  compute h s fun s x => wrF s x t d (f (rdF s x t a) imm.toNat)
def flt1 (h : Hdr) (t : FType) (d a : Reg) (f : Nat → Nat) (s : State) : State :=
  compute h s fun s x => wrF s x t d (f (rdF s x t a))
/-- One operand, long-latency (R49). -/
def flt1Long (h : Hdr) (t : FType) (d a : Reg) (f : Nat → Nat) (s : State) : State :=
  computeLong h s fun s x => wrF s x t d (f (rdF s x t a))

/-- R114. -/
def execFaddB (h : Hdr) (t : FType) (r : Rnd) (ftz : Bool) (d a b : Reg) (s : State) : Host.Outcome State Fault Refusal := .next (fltB h t d a b (fadd t r ftz) s)
def execFaddI (h : Hdr) (t : FType) (r : Rnd) (ftz : Bool) (d a : Reg) (imm : BitVec 32) (s : State) : Host.Outcome State Fault Refusal := .next (fltI h t d a imm (fadd t r ftz) s)
def execFaddL (h : Hdr) (t : FType) (r : Rnd) (ftz : Bool) (d a : Reg) (imm : BitVec 64) (s : State) : Host.Outcome State Fault Refusal := .next (fltL h t d a imm (fadd t r ftz) s)
/-- R114. -/
def execFsubB (h : Hdr) (t : FType) (r : Rnd) (ftz : Bool) (d a b : Reg) (s : State) : Host.Outcome State Fault Refusal := .next (fltB h t d a b (fsub t r ftz) s)
def execFsubI (h : Hdr) (t : FType) (r : Rnd) (ftz : Bool) (d a : Reg) (imm : BitVec 32) (s : State) : Host.Outcome State Fault Refusal := .next (fltI h t d a imm (fsub t r ftz) s)
def execFsubL (h : Hdr) (t : FType) (r : Rnd) (ftz : Bool) (d a : Reg) (imm : BitVec 64) (s : State) : Host.Outcome State Fault Refusal := .next (fltL h t d a imm (fsub t r ftz) s)
/-- R114. -/
def execFmulB (h : Hdr) (t : FType) (r : Rnd) (ftz : Bool) (d a b : Reg) (s : State) : Host.Outcome State Fault Refusal := .next (fltB h t d a b (fmul t r ftz) s)
def execFmulI (h : Hdr) (t : FType) (r : Rnd) (ftz : Bool) (d a : Reg) (imm : BitVec 32) (s : State) : Host.Outcome State Fault Refusal := .next (fltI h t d a imm (fmul t r ftz) s)
def execFmulL (h : Hdr) (t : FType) (r : Rnd) (ftz : Bool) (d a : Reg) (imm : BitVec 64) (s : State) : Host.Outcome State Fault Refusal := .next (fltL h t d a imm (fmul t r ftz) s)
/-- R114. -/
def execFfma (h : Hdr) (t : FType) (r : Rnd) (ftz : Bool) (d a b c : Reg) (s : State) : Host.Outcome State Fault Refusal :=
  .next (compute h s fun s x => wrF s x t d (ffma t r ftz (rdF s x t a) (rdF s x t b) (rdF s x t c)))
/-- R115. -/
def execFminB (h : Hdr) (t : FType) (ftz : Bool) (d a b : Reg) (s : State) : Host.Outcome State Fault Refusal := .next (fltB h t d a b (fmin t ftz) s)
def execFminI (h : Hdr) (t : FType) (ftz : Bool) (d a : Reg) (imm : BitVec 32) (s : State) : Host.Outcome State Fault Refusal := .next (fltI h t d a imm (fmin t ftz) s)
/-- R115. -/
def execFmaxB (h : Hdr) (t : FType) (ftz : Bool) (d a b : Reg) (s : State) : Host.Outcome State Fault Refusal := .next (fltB h t d a b (fmax t ftz) s)
def execFmaxI (h : Hdr) (t : FType) (ftz : Bool) (d a : Reg) (imm : BitVec 32) (s : State) : Host.Outcome State Fault Refusal := .next (fltI h t d a imm (fmax t ftz) s)
/-- R116. -/
def execFcmpB (h : Hdr) (t : FType) (cond : FCond) (pd pc : Pred) (a b : Reg) (s : State) : Host.Outcome State Fault Refusal :=
  .next (compute h s fun s x => setCond pd pc (fcmp t cond (rdF s x t a) (rdF s x t b)))
def execFcmpI (h : Hdr) (t : FType) (cond : FCond) (pd pc : Pred) (a : Reg) (imm : BitVec 32) (s : State) : Host.Outcome State Fault Refusal :=
  .next (compute h s fun s x => setCond pd pc (fcmp t cond (rdF s x t a) (immF t imm)))
/-- R117, long-latency. -/
def execFdivB (h : Hdr) (t : FType) (r : Rnd) (ftz : Bool) (d a b : Reg) (s : State) : Host.Outcome State Fault Refusal :=
  .next (computeLong h s fun s x => wrF s x t d (fdiv t r ftz (rdF s x t a) (rdF s x t b)))
def execFdivI (h : Hdr) (t : FType) (r : Rnd) (ftz : Bool) (d a : Reg) (imm : BitVec 32) (s : State) : Host.Outcome State Fault Refusal :=
  .next (computeLong h s fun s x => wrF s x t d (fdiv t r ftz (rdF s x t a) (immF t imm)))
def execFsqrt (h : Hdr) (t : FType) (r : Rnd) (ftz : Bool) (d a : Reg) (s : State) : Host.Outcome State Fault Refusal := .next (flt1Long h t d a (fsqrt t r ftz) s)
/-- R118. -/
def execFrcp (h : Hdr) (t : FType) (r : Rnd) (ftz cr : Bool) (d a : Reg) (s : State) : Host.Outcome State Fault Refusal := .next (flt1 h t d a (frcp t r ftz cr) s)
def execFrsq (h : Hdr) (t : FType) (ftz : Bool) (d a : Reg) (s : State) : Host.Outcome State Fault Refusal := .next (flt1 h t d a (frsq t ftz) s)
def execFex2 (h : Hdr) (t : FType) (ftz : Bool) (d a : Reg) (s : State) : Host.Outcome State Fault Refusal := .next (flt1Long h t d a (fex2 t ftz) s)
def execFlg2 (h : Hdr) (t : FType) (ftz : Bool) (d a : Reg) (s : State) : Host.Outcome State Fault Refusal := .next (flt1Long h t d a (flg2 t ftz) s)
def execFsin (h : Hdr) (t : FType) (ftz : Bool) (d a : Reg) (s : State) : Host.Outcome State Fault Refusal := .next (flt1Long h t d a (fsinv t ftz false) s)
def execFcos (h : Hdr) (t : FType) (ftz : Bool) (d a : Reg) (s : State) : Host.Outcome State Fault Refusal := .next (flt1Long h t d a (fsinv t ftz true) s)
/-- R119. -/
def execFrnd (h : Hdr) (t : FType) (r : Rnd) (ftz : Bool) (d a : Reg) (s : State) : Host.Outcome State Fault Refusal := .next (flt1 h t d a (frnd t r ftz) s)
/-- Whether a format takes a register pair. -/
def fmtWide (f : Fmt) : Bool := f == .fp64
/-- R120. -/
def execFcvt (h : Hdr) (sf df : Fmt) (r : Rnd) (ftz sat : Bool) (d a : Reg) (s : State) : Host.Outcome State Fault Refusal :=
  .next (compute h s fun s x => wrW s x (fmtWide df) d (fcvt sf df r ftz sat (rdW s x (fmtWide sf) a)))
/-- R121. -/
def execIcvt (h : Hdr) (it : IType) (df : Fmt) (r : Rnd) (d a : Reg) (s : State) : Host.Outcome State Fault Refusal :=
  .next (compute h s fun s x => wrW s x (fmtWide df) d (icvt it df r (rdI s x it a)))
/-- R122. -/
def execFcvi (h : Hdr) (it : IType) (sf : Fmt) (r : Rnd) (ftz : Bool) (d a : Reg) (s : State) : Host.Outcome State Fault Refusal :=
  .next (compute h s fun s x => wrI s x it d (fcvi it sf r ftz (rdW s x (fmtWide sf) a)))
/-- R123: one 32-bit register. -/
def execFclass (h : Hdr) (t : FType) (ftz : Bool) (d a : Reg) (s : State) : Host.Outcome State Fault Refusal :=
  .next (compute h s fun s x => wrW s x false d (fclass t ftz (rdF s x t a)))
/-- R124. -/
def execFscaleB (h : Hdr) (t : FType) (r : Rnd) (ftz : Bool) (d a b : Reg) (s : State) : Host.Outcome State Fault Refusal :=
  .next (compute h s fun s x => wrF s x t d (fscale t r ftz (rdF s x t a) (rdW s x false b)))
def execFscaleI (h : Hdr) (t : FType) (r : Rnd) (ftz : Bool) (d a : Reg) (imm : BitVec 32) (s : State) : Host.Outcome State Fault Refusal :=
  .next (compute h s fun s x => wrF s x t d (fscale t r ftz (rdF s x t a) imm.toNat))
/-- R125: the accumulator and the result are 32-bit. -/
def execFdot2 (h : Hdr) (t : FType) (r : Rnd) (ftz : Bool) (d a b c : Reg) (s : State) : Host.Outcome State Fault Refusal :=
  .next (compute h s fun s x => wrW s x false d (fdot2 t r ftz (rdW s x false a) (rdW s x false b) (rdW s x false c)))

end Sys2Proof.Machine
end

