-- ==== Sys2Proof/Machine/Gleaner.lean ====
section
/-! DEFINITION. The Gleaner: taking a revocation entry (R402, R404), and its sweeps (R405, R408-R411, R413, R415). -/

namespace Sys2Proof.Machine

/-! Acceptance. -/

/-- A GLEANER Queue whose next entry may be taken (R404). -/
def gleanable (s : State) (qh : Nat) : Bool :=
  match s.queue? qh with
  | some q =>
    q.kind == 5 && !s.dead qh && !q.es.isEmpty && decide (s.closed.length < 8192) && !fenceHolds s (queueKey qh) q.popped &&
      (match q.pair with | some p => canReserve s p | none => false)
  | none => false

/-- The Queue that the Gleaner serves next, round-robin by header. -/
def gleanNext (s : State) : Option Nat :=
  let qs := (s.objs.map (·.1)).filter (gleanable s)
  match qs.find? fun q => decide (s.gleanerLast < q) with
  | some q => some q
  | none => qs.head?

/-- R402: CAP first, then BLOCK. -/
def gleanStatus (c : Cap) : Nat :=
  if !c.tag || c.sealed || !c.has permRevoke then 3
  else if c.x || (windowOf c.base).isSome then 1
  else 0

def gleanerTake (s : State) (qh : Nat) : State :=
  if gleanNext s ≠ some qh then s
  else
    match ((s.queue? qh).bind QueueObj.pair) with
    | none => s
    | some pair =>
      match takeEntry (reserveEntry s pair) qh with
      | none => s
      | some (e, pos, s1) =>
        let s2 := wakeAll { s1 with gleanerLast := qh } (· == .room qh)
        let w := s.worldOf qh
        -- as the entry holds it: a range that is closed already takes no request from it (R404, R413)
        let c := ({ bits := e.bits, tag := e.tag } : Cap).norm
        let seq := BitVec.ofNat 32 pos
        match gleanStatus c with
        | 0 =>
          let r : Closed := { base := c.base, top := c.top, world := w, comp := some (pair, seq), queue := qh, pos := pos, sweep := s.sweepNo + 1, freeze := false, op := none }
          { s2 with closed := s2.closed ++ [r] }
        | st => pruneFences (postCompletion s2 pair seq st 0)

def execGleanerTakeEntry (queue : Nat) (s : State) : Host.Outcome State Fault Refusal := .next (gleanerTake s queue)

/-- A sweep starts over every request that joined it (R413). -/
def sweepStart (s : State) : State :=
  if !s.sweeping && s.closed.any (fun r => r.sweep == s.sweepNo + 1) then { s with sweeping := true, sweepNo := s.sweepNo + 1 } else s

def execSweepStart (s : State) : Host.Outcome State Fault Refusal := .next (sweepStart s)

/-! The sweep. `f w c` is a capability held in storage of world w, after the sweep. -/

def sweepRegs (f : Cap → Cap) (m : SMap Cap) : SMap Cap := (m.map fun r => (r.1, f r.2)).filter fun r => r.2 != Cap.null

def sweepWrite (f : Cap → Cap) : RegWrite → RegWrite
  | .c r x => .c r (f x)
  | w => w

def sweepRet (f : Cap → Cap) (r : RetRec) : RetRec := { r with pcc := f r.pcc, c30 := f r.c30 }

/-- The granules of a byte map that keep their tags. -/
def sweepTags (f : Cap → Cap) (bytes : SMap Byte) (tags ecc : SMap Bool) : SMap Bool :=
  tags.filter fun t => (f ⟨BitVec.ofNat 128 (ofBytes (SMap.range 0 bytes (16 * t.1) 16)), t.2⟩).tag && !eccHit (16 * t.1) 16 ecc

def sweepThread (f : Cap → Cap) (t : Thread) : Thread :=
  { t with
    c := sweepRegs f t.c, pcc := f t.pcc, rr1 := sweepRet f t.rr1, rr2 := sweepRet f t.rr2
    pend := t.pend.map fun p => { p with writes := p.writes.map (sweepWrite f) }
    sliceTags := sweepTags f t.slice t.sliceTags t.sliceEcc }

def sweepLaunch (f : Cap → Cap) (l : Launch) : Launch :=
  { l with entries := l.entries.map f, args := f l.args, granules := l.granules.map f }

def sweepGroup (f : Cap → Cap) (g : Group) : Group :=
  { g with
    launch := sweepLaunch f g.launch
    threads := g.threads.map fun t => (t.1, sweepThread f t.2)
    clans := g.clans.map fun c => (c.1,
      { c.2 with
        kc := sweepRegs f c.2.kc
        q := c.2.q.map fun b => (b.1, { b.2 with cap := f b.2.cap })
        gathers := c.2.gathers.map fun y => { y with held := (y.held.1.map f, y.held.2), src := y.src.map fun p => (p.1, sweepRegs f p.2) } })
    stags := sweepTags f g.scratch g.stags g.secc
    sbufs := g.sbufs.map fun b => (b.1, { b.2 with enc := b.2.enc.map fun d => { d with src := f d.src, ks := f d.ks } }) }

def sweepMsg (f : Cap → Cap) (m : Msg) : Msg := { m with caps := m.caps.map f }
def sweepEntry (f : Cap → Cap) (e : QEntry) : QEntry := { e with tag := (f ⟨e.bits, e.tag⟩).tag }

def sweepBody (f : Cap → Cap) : Body → Body
  | .endpoint e => .endpoint { e with
      msgs := e.msgs.map (sweepMsg f)
      senders := e.senders.map fun x => match x with
        | .thread w d nb ft c m => .thread w d nb ft c (sweepMsg f m)
        | .device g i m d w b => .device g i (sweepMsg f m) d w b
        | .remote p i e w m => .remote p i e w (sweepMsg f m) }
  | .context c => .context { c with handler := f c.handler, faultEp := f c.faultEp, svcEp := f c.svcEp, save := f c.save, log := f c.log }
  | .queue q => .queue { q with
      es := q.es.map (sweepEntry f)
      waiters := q.waiters.map fun w => match w with
        | .push who es ft d => .push who (es.map (sweepEntry f)) ft d
        | w => w }
  | .sched q => .sched { q with queue := q.queue.map (sweepLaunch f) }
  | b => b

/-- The worlds of the pages that hold a physical granule, of the Frames that contain it, and of the FileMaps of whose pages it is, mapped or not (R337, R405). -/
def worldsOfPa (s : State) (leaves : List (Nat × LeafAt)) (pa : Nat) : List Nat :=
  ((leaves.filter fun l => l.2.maps pa).map fun l => l.2.e.world) ++
    s.objs.filterMap fun o =>
      match o.2.body with
      | .frame k => if k.pa ≤ pa ∧ pa < k.pa + 2 ^ k.log2 then some o.2.world else none
      | .filemap m => if m.cache.any (fun p => decide (p.2.frame ≤ pa) && decide (pa < p.2.frame + 2 ^ 17)) then some o.2.world else none
      | _ => none

/-- Tagged memory: a granule of a swept world that cannot be read loses its tag (R408, R409). -/
def sweepMemory (s : State) (f : Nat → Cap → Cap) (swept : Nat → Bool) : SMap Bool :=
  let leaves := allLeaves s
  s.tags.filter fun t =>
    let pa := 16 * t.1
    let ws := (worldsOfPa s leaves pa).filter swept
    !(ws.any fun w => eccHit pa 16 s.ecc || !(f w ⟨BitVec.ofNat 128 (readNum s pa 16), t.2⟩).tag)

/-- Every place of R408. -/
def sweepAll (s : State) (f : Nat → Cap → Cap) (swept : Nat → Bool) : State :=
  let ofCtx (c : Nat) : Cap → Cap := f (s.worldOf c)
  { s with
    groups := s.groups.map fun g => (g.1, sweepGroup (ofCtx g.2.ctx) g.2)
    ended := s.ended.map fun g => (g.1, sweepGroup (ofCtx g.2.ctx) g.2)
    units := s.units.map fun u => (u.1, { u.2 with launch := sweepLaunch (ofCtx u.2.launch.ctx) u.2.launch })
    objs := s.objs.map fun o => (o.1, { o.2 with body := sweepBody (f o.2.world) o.2.body })
    tags := sweepMemory s f swept
    held := s.held.map fun p => (p.1, sweepMsg (ofCtx p.1.ctx) p.2)
    copies := s.copies.map fun r => (r.1, { r.2 with blk := r.2.blk.map (ofCtx r.2.ctx) })
    colls := s.colls.map fun c => { c with src := c.src.map (ofCtx c.ctx), dst := c.dst.map (ofCtx c.ctx) }
    sessions := s.sessions.map fun q => (q.1, { q.2 with handles := q.2.handles.map fun h => (h.1, f q.2.world h.2) })
    exports := s.exports.filter fun e => !(e.2.src.tag && !(f e.2.world e.2.src).tag) }

/-- The accesses that passed their checks are performed: far atomics, replicated writes, and the write-combining buffers are sent (R410). -/
def sweepDrain (s : State) : State :=
  let s1 := s.fars.foldl (fun st q => finishFar st q.1) s
  replSettle (s1.wc.foldl (fun st b => wcDrain st b.1 fun _ => true) s1)

/-- An access of a world is still in flight (R410, R411): a request to another package, an atomic or a REPL write that another package has yet to perform, an IO access; a request of another package that has passed the check of its export entry. -/
def inFlight (s : State) (w : Nat) : Bool :=
  (s.remotes.any fun r => r.2.world == w) ||
    (s.fars.any fun q => q.2.dest != .here && q.2.old.isNone && q.2.world == w) ||
    (s.replNew.any fun v => replHeld s v.pa && (worldsOfPa s (allLeaves s) v.pa).contains w) ||
    (s.inbound.any fun q => q.entry.any fun e => e.world == w) || (s.acks.any fun a => a.world == w) ||
    (s.objs.any fun o => match o.2.body with | .endpoint e => e.senders.any (fun x => match x with | .remote _ _ _ v _ => v == w | _ => false) | _ => false) ||
    s.ios.any fun a => s.worldOf (s.grp a.2.who.gid).ctx == w

/-- The end of one request of a sweep: its completion, or the OBJ that waits for it (R348, R410, R415). -/
def sweepPost (n : Nat) (s : State) (r : Closed) : State :=
  let s1 := match r.comp with | some (pair, seq) => postCompletion s pair seq 0 n | none => s
  match r.op with
  | none => s1
  | some k =>
    match (Map.get? k s1.pendObjs).map PendObj.op with
    | some (.reset u) => finishObj (endReset s1 u) k stOK fun _ _ => []
    | some (.freeze frame ctx args _) => endFreeze s1 k frame ctx args
    | _ => s1

/-- A sweep ends (R410, R413): once nothing of its worlds is in flight, the tags go, and its requests complete in order. -/
def sweepEnd (s : State) : State :=
  if !s.sweeping then s
  else
    let s1 := sweepDrain s
    let rs := s1.closed.filter fun r => r.sweep == s.sweepNo
    let swept (w : Nat) : Bool := rs.any fun r => r.world == w
    if rs.any fun r => inFlight s1 r.world then s1
    else
      let only := { s1 with closed := rs }
      let s2 := sweepAll s1 (sieve only) swept
      let s3 := { s2 with closed := s2.closed.filter (fun r => r.sweep != s.sweepNo), sweeping := false }
      wakeAll (pruneFences (rs.foldl (sweepPost s.sweepNo) s3)) fun w => match w with | .room _ => true | _ => false

def execSweepEnd (s : State) : Host.Outcome State Fault Refusal := .next (sweepEnd s)

end Sys2Proof.Machine
end

