-- ==== Sys2Proof/Machine/HostOps.lean ====
section
/-! DEFINITION. Host sessions and their commands (R477, R478). -/

namespace Sys2Proof.Machine

/-- A handshake on an Ethernet port that is up (R477, R483). -/
def connect (s : State) (port world : Nat) (authentic : Bool) : State :=
  if s.bootStep = 6 ∧ SMap.get false port s.portDown = false ∧ authentic ∧ 4 ≤ world ∧ s.sessions.length < 256 then
    let (n, s1) := s.newId
    { s1 with sessions := Map.set n { port := port, world := world, handles := [] } s1.sessions }
  else s

def execSessionConnect (port : Fin 4) (world : BitVec 4) (authentic : Bool) (s : State) : Host.Outcome State Fault Refusal :=
  .next (connect s port.val world.toNat authentic)

/-- A session's connection ends: with it its handles, its subscriptions and the commands that have yet to respond (R477). -/
def sessionEnd (s : State) (sess : Nat) : State :=
  { s with
    sessions := Map.del sess s.sessions
    attests := Map.del sess s.attests
    objs := s.objs.map fun o =>
      match o.2.body with
      | .endpoint e => (o.1, { o.2 with body := .endpoint { e with subs := e.subs.filter fun b => b.1 != sess } })
      | _ => o }

/-- A COPY of the session has yet to respond. -/
def copyPending (s : State) (sess : Nat) : Bool :=
  let mine (h : Option (Nat × BitVec 64)) : Bool := match h with | some (k, _) => k == sess | none => false
  (s.copies.any fun r => mine r.2.host) ||
    s.objs.any fun o => match o.2.body with | .queue q => !o.2.torn && q.es.any fun e => mine e.host | _ => false

def respond (s : State) (sess : Nat) (tag : BitVec 64) (status : Nat) (data : List Byte) : State :=
  replSettle (hostRespond s (some (sess, tag)) status data)

/-- A command of a session, once the response to the one before it has been made (R478). -/
def command (s : State) (sess : Nat) (run : Session → State) : State :=
  match Map.get? sess s.sessions with
  | some q => if copyPending s sess || (Map.get? sess s.attests).isSome then s else run q
  | none => s

/-- The capability behind a handle that this session received. -/
def Session.cap? (q : Session) (h : DWord) : Option Cap := Map.get? h.toNat q.handles

/-- An object named by a handle: its header, or the status that refuses (R159, R478). -/
def named (s : State) (q : Session) (h : DWord) (otype : Nat) (perms : List Nat) : Except Nat Nat :=
  match q.cap? h with
  | none => .error stBADCAP
  | some c =>
    if !c.tag || !(perms.all c.has) then .error stBADCAP
    else if c.otype ≠ otype then .error stBADOP
    else
      match s.obj? c.base with
      | none => .error stDEAD
      | some o => if o.world ≠ q.world then .error stWORLD else if o.torn then .error stDEAD else .ok c.base

/-- A capability arrives at the session as a handle. -/
def newHandle (s : State) (sess : Nat) (c : Cap) : Nat × State :=
  let (n, s1) := s.newId
  (n, { s1 with sessions := Map.modify sess (fun q => { q with handles := q.handles ++ [(n, c)] }) s1.sessions })

def execCert (sess : Nat) (tag : DWord) (s : State) : Host.Outcome State Fault Refusal :=
  .next (command s sess fun _ => respond s sess tag stOK (Config.certificate ++ digestBytes (bootChain s).1))

/-- The root Untyped of a world from which objects are made. -/
def rootStore (s : State) (world : Nat) : Option Nat :=
  (s.objs.find? fun o => match o.2.body with | .untyped u => u.kind == 0 && o.2.world == world && o.2.parent.isNone && !o.2.torn | _ => false).map (·.1)

/-- CONTEXT. -/
def hostContext (s : State) (sess : Nat) (tag : BitVec 64) (q : Session) : State :=
  match rootStore s q.world with
  | none => respond s sess tag stDEAD []
  | some u =>
    match s.obj? u with
    | none => s
    | some o =>
      if resetting s u then respond s sess tag stBADOP []
      else
        let r := retypeFrom s u { x := ⟨0, 0, 0⟩, c := Cap.null, h := u, o := o, narg := 1, w := [6], cx := Cap.null }
        match r.cap with
        | some c => let (n, s1) := newHandle r.s sess c; respond s1 sess tag stOK (bytesOf n 8)
        | none => respond s sess tag r.st []

def execContext (sess : Nat) (tag : DWord) (s : State) : Host.Outcome State Fault Refusal := .next (command s sess (hostContext s sess tag))

/-- The leaf by which a Frame is mapped in a Context's AddressSpace with a permission. -/
def hostLeaf (s : State) (ctx : Nat) (f : FrameObj) (wr : Bool) : Option Pte :=
  match (aspaceOf s ctx).bind s.aspace? with
  | none => none
  | some a => ((leavesFrom s 4 0 a.root).find? fun l => l.e.addr == f.pa && (if wr then l.e.w || l.e.mtype == 2 else l.e.r)).map LeafAt.e

/-- LOAD and READ: the Frame, the leaf and the place, or a status. -/
def hostFrame (s : State) (q : Session) (ctx frame : DWord) (off n : Nat) (wr : Bool) : Except Nat (Nat × Nat × MemKey) :=
  match named s q ctx 6 [permInvoke], named s q frame 7 [permInvoke] with
  | .error e, _ => .error e
  | _, .error e => .error e
  | .ok c, .ok h =>
    match s.obj? h with
    | some ⟨_, _, _, _, .frame f⟩ =>
      match hostLeaf s c f wr with
      | none => .error stBADOP
      | some e => if 2 ^ f.log2 < off + n ∨ (wr ∧ (f.frozen ∨ e.mtype = 2)) then .error stBADOP else .ok (f.pa + off, e.mtype, pageKey s e.world e.key e.addr)
    | _ => .error stBADOP

def hostLoad (s : State) (sess : Nat) (tag : BitVec 64) (ctx frame : DWord) (off : Nat) (data : List Byte) (q : Session) : State :=
  match hostFrame s q ctx frame off data.length true with
  | .error e => respond s sess tag e []
  | .ok (pa, mt, k) => respond (replSettle (writeLoc s reeveCx.writer (.mem pa mt k) data [])) sess tag stOK []

/-- READ; bytes that an uncorrectable error hides are free. -/
def hostRead (s : State) (sess : Nat) (tag : BitVec 64) (ctx frame : DWord) (off n : Nat) (q : Session) : State :=
  match hostFrame s q ctx frame off n false with
  | .error e => respond s sess tag e []
  | .ok (pa, mt, key) =>
    if 4 ≤ mt then let (bs, s1) := ioBytes s pa n; respond s1 sess tag stOK bs
    else if eccHit pa n s.ecc then let (k, s1) := s.draw; respond s1 sess tag stOK ((List.range n).map (Config.deviceByte k))
    else respond s sess tag stOK (readVia (replView s reeveCx.lane 0 reeveCx.tid) key pa n)

def execLoad (sess : Nat) (tag : DWord) (ctx frame : DWord) (off : Nat) (data : List Byte) (s : State) : Host.Outcome State Fault Refusal :=
  .next (command s sess (hostLoad s sess tag ctx frame off data))
def execRead (sess : Nat) (tag : DWord) (ctx frame : DWord) (off len : Nat) (s : State) : Host.Outcome State Fault Refusal :=
  .next (command s sess (hostRead s sess tag ctx frame off len))

/-- A handle names an object of another world than the session's (R478). -/
def foreign (s : State) (q : Session) (h : DWord) : Bool :=
  match q.cap? h with
  | some c => c.tag && c.otype != 0 && match s.obj? c.base with | some o => o.world != q.world | none => false
  | none => false

/-- LAUNCH: a record whose tags are rebuilt from handles, enqueued as LAUNCH does (R197). -/
def hostEnqueue (s : State) (sess : Nat) (tag : BitVec 64) (bytes : List Byte) (handles : List (Nat × DWord)) (q : Session) : State :=
  if handles.any fun h => (q.cap? h.2).isNone then respond s sess tag stBADCAP []
  else if handles.any fun h => foreign s q h.2 then respond s sess tag stWORLD []
  else
    let gs := (List.range 16).map fun i =>
      match handles.find? fun h => h.1 == i with
      | some h => (q.cap? h.2).getD Cap.null
      | none => ⟨BitVec.ofNat 128 (ofBytes ((bytes.drop (16 * i)).take 16)), false⟩
    let r := enqueue s q.world gs
    respond r.2 sess tag r.1 []

def execHostLaunch (sess : Nat) (tag : DWord) (bytes : List Byte) (handles : List (Nat × DWord)) (s : State) : Host.Outcome State Fault Refusal :=
  .next (command s sess (hostEnqueue s sess tag bytes handles))

/-- COPY: an entry for the COPYCMD Queue, which responds at its completion, or FULL (R333, R478). -/
def hostCopy (s : State) (sess : Nat) (tag : BitVec 64) (queue ctx block : DWord) (q : Session) : State :=
  match named s q queue 11 [permInvoke], named s q ctx 6 [permInvoke], q.cap? block with
  | .error e, _, _ => respond s sess tag e []
  | _, .error e, _ => respond s sess tag e []
  | _, _, none => respond s sess tag stBADCAP []
  | .ok qh, .ok c, some b =>
    if (s.queue? qh).map QueueObj.kind ≠ some 2 then respond s sess tag stBADOP []
    else if !canPush s qh 1 then respond s sess tag stFULL []
    else
      let e : QEntry := { bits := b.bits, tag := b.tag, ctx := c, slots := ((s.ctx? c).map ContextObj.slots).getD [], host := some (sess, tag) }
      pushEntries s qh [e]

def execCopy (sess : Nat) (tag : DWord) (queue ctx block : DWord) (s : State) : Host.Outcome State Fault Refusal :=
  .next (command s sess (hostCopy s sess tag queue ctx block))

/-- SUBSCRIBE: what the Endpoint holds goes to the session at once, and every later message. -/
def hostSubscribe (s : State) (sess : Nat) (tag : BitVec 64) (ep : DWord) (q : Session) : State :=
  match named s q ep 1 [permLoad] with
  | .error e => respond s sess tag e []
  | .ok h =>
    let lc := match q.cap? ep with | some c => c.has permLoadCap | none => false
    let s1 := (respond s sess tag stOK []).modEp h fun e => { e with subs := e.subs ++ [(sess, tag, lc)] }
    let n := match s.ep? h with | some e => e.msgs.length + e.senders.length | none => 0
    drainToHost h sess tag lc n s1

def execSubscribe (sess : Nat) (tag : DWord) (ep : DWord) (s : State) : Host.Outcome State Fault Refusal :=
  .next (command s sess (hostSubscribe s sess tag ep))

/-- ATTEST: OBJ .attest in the address space of the named Context, and the receipt. A group of that Context without threads stands for the command while its addresses are resolved; a command that waits for a page or a line is kept, and goes on later. -/
def hostAttest (s : State) (sess : Nat) (tag : BitVec 64) (ctx buf : DWord) (q : Session) : State :=
  match named s q ctx 6 [permInvoke], q.cap? buf with
  | .error e, _ => respond s sess tag e []
  | _, none => respond s sess tag stBADCAP []
  | .ok c, some b =>
    let (g, s1) := s.newId
    let s2 := { s1 with groups := Map.set g { Group.empty with ctx := c, service := true } s1.groups }
    let gone (s : State) : State := { s with groups := Map.del g s.groups }
    let later := { s with attests := Map.set sess (tag, ctx, buf) s.attests }
    match attest s2 ⟨g, 0, 0⟩ c b with
    | .status st => respond s sess tag st []
    | .wait (.file f p) => demandPage later f p
    | .wait _ => later
    | .done st s3 =>
      let receipt := match rangeOf s3 ⟨g, 0, 0⟩ .rd b.addr 4992 with | .ok ps => readPieces s3 ⟨g, 0, 0⟩ ps | .error _ => []
      respond (gone s3) sess tag st (if st = stOK then receipt else [])

/-- An ATTEST that waits is tried again. -/
def hostRetry (s : State) (sess : Nat) : State :=
  match Map.get? sess s.attests with
  | some (tag, ctx, buf) => command { s with attests := Map.del sess s.attests } sess (hostAttest { s with attests := Map.del sess s.attests } sess tag ctx buf)
  | none => s

def execAttest (sess : Nat) (tag : DWord) (ctx buf : DWord) (s : State) : Host.Outcome State Fault Refusal :=
  .next (command s sess (hostAttest s sess tag ctx buf))

def execHostReservedCommand (sess : Nat) (tag : DWord) (code : BitVec 8) (s : State) : Host.Outcome State Fault Refusal :=
  .next (command s sess fun _ => if 8 ≤ code.toNat then respond s sess tag stBADOP [] else s)

end Sys2Proof.Machine
end

