-- ==== Sys2Proof/Machine/Placement.lean ====
section
/-! DEFINITION. The dispatcher: what it checks of a launch (R202, R203), the order in which it serves queues (R207), where a unit fits and goes (R206, R210), budget (R211), pre-emption (R212), slots (R381), placement (R204, R208, R322), saves (R384). -/

namespace Sys2Proof.Machine

/-! Refusal (R202, R203). -/

/-- The program header, through ENTRY0: its 128 bytes, a page to read first, or unreadable (R202). -/
def programHeader (s : State) (l : Launch) : Measure :=
  let e := sieve s (s.worldOf l.ctx) (l.entries[0]?.getD Cap.null).norm
  let a := (e.addr + 2 ^ 64 - 0x80) % 2 ^ 64
  match capCheckAlign e a 128 128 [permExec] with
  | some _ => .bad
  | none =>
    match pieces (locateCtx s l.ctx .fetch) 3 a 128 with
    | .ok ps => if eccPieces s ps then .bad else .ok (ps.flatMap fun p => readLoc s p.1 p.2)
    | .error (.absent f p) => .absent f p
    | .error _ => .bad

/-- A field of the header. -/
def headBits (h : List Byte) (off lo n : Nat) : Nat := bitsAt (ofBytes ((h.drop off).take 8)) lo n

/-- The threads and the clans of a group. -/
def Launch.threads (l : Launch) : Nat := l.shape.1 * l.shape.2.1 * l.shape.2.2
def Launch.clans (l : Launch) : Nat := (l.threads + 31) / 32

/-- The clans of a launch that one empty partition holds (R206). -/
def Launch.perPartition (l : Launch) : Nat :=
  min 16 (min (if l.regs = 0 then 16 else 1024 / l.regs) (if l.lanemem = 0 then 16 else 1024 / l.lanemem))

/-- The counts of R201 in their ranges, and one group fits on an empty core (code 4). -/
def countsOk (l : Launch) : Bool :=
  l.scratch % 64 == 0 && decide (l.scratch ≤ 327680) && l.lanemem % 16 == 0 && decide (l.lanemem ≤ 1024) && l.regs % 32 == 0 &&
    decide (32 ≤ l.regs) && decide (l.regs ≤ 768) && decide (l.nqueue ≤ 16) && decide (l.nsbuf ≤ 2) && decide (l.nacc ≤ 8) &&
    l.hambytes % 64 == 0 && decide (l.hambytes ≤ l.scratch) && decide (l.clans ≤ 4 * l.perPartition)

/-- The record's counts reach the header's (code 5). -/
def headerCovered (l : Launch) (h : List Byte) : Bool :=
  decide (headBits h 0x08 0 16 ≤ l.regs) && decide (headBits h 0x08 16 16 ≤ l.lanemem) && decide (headBits h 0x08 32 32 ≤ l.scratch) &&
    decide (headBits h 0x10 0 32 ≤ l.hambytes) && decide (headBits h 0x10 32 8 ≤ l.nacc) && decide (headBits h 0x10 40 8 ≤ l.nsbuf) &&
    decide (headBits h 0x10 48 8 ≤ l.nqueue)

/-- The header's fields marked zero (R202); the counts' byte above NQUEUE is zero as in the record (R201). -/
def headerZeros (h : List Byte) : Bool :=
  headBits h 0 8 56 == 0 && headBits h 0x10 56 8 == 0 && ((h.drop 0x18).take 0x28).all (· == 0)

/-- Whether the check of a code fails (R203). -/
def launchFails (s : State) (l : Launch) (h : Option (List Byte)) : Nat → Bool
  | 1 => l.slots.any fun w => decide (2 ^ 21 ≤ w.toNat)
  | 2 => match h with
    | some b => (List.range 8).any fun i => headBits b 0 i 1 == 1 && (l.slots[i]?.getD 0).toNat != headBits b (0x40 + 8 * i) 0 64
    | none => false
  | 3 => l.threads == 0 || decide (1024 < l.threads) || l.ngrp == 0 || decide (16 < l.ngrp) || l.nstage == 0 || decide (4 < l.nstage) ||
      l.grid.1 == 0 || l.grid.2.1 == 0 || l.grid.2.2 == 0
  | 4 => !countsOk l
  | 5 => match h with | some b => !headerCovered l b | none => true
  | 6 => (List.range l.nstage).any fun i =>
      let e := sieve s (s.worldOf l.ctx) (l.entries[i]?.getD Cap.null).norm
      !(e.tag && !e.sealed && e.has permExec)
  | 7 => !zeroFieldsOk l.granules || match h with | some b => !headerZeros b | none => false
  | 8 => match s.sched? l.sched with | some q => q.affin == 0 | none => true
  | 9 => match s.ctx? l.ctx with | some c => !(sieve s (s.worldOf l.ctx) c.save).tag | none => true
  | _ => false

/-- The lowest failing code among 1 to 9. -/
def launchCode (s : State) (l : Launch) (h : Option (List Byte)) : Option Nat := [1, 2, 3, 4, 5, 6, 7, 8, 9].find? (launchFails s l h)

/-- The head launch leaves its queue. -/
def popLaunch (s : State) (h : Nat) : State :=
  s.modSched h fun q => { q with queue := q.queue.drop 1, nextUnit := 0, taken := false }

/-! Who is served (R207, R211, R213). -/

/-- PRIO of a SchedContext (R205). -/
def schedPrio (s : State) (h : Nat) : Nat := ((s.sched? h).map Sched.prio).getD 0

def Sched.budgetOk (q : Sched) : Bool := q.budget == 0 || q.period == 0 || decide (0 < q.left)

/-- The dispatcher takes the head launch of a queue that may be served: it is refused, or measured and ready to be placed (R203, R463). -/
def dequeueLaunch (s : State) (h : Nat) : State :=
  match s.sched? h with
  | none => s
  | some q =>
    match q.queue with
    | [] => s
    | l :: _ =>
      if q.taken || q.suspended || !q.budgetOk || s.dead h then s
      else
        let pc := BitVec.ofNat 64 (l.entries[0]?.getD Cap.null).addr
        let refuse (code : Nat) : State := refuseLaunch (popLaunch s h) l.ctx pc code
        match programHeader s l with
        | .absent f p => demandPage s f p
        | .ok b =>
          match launchCode s l (some b) with
          | some c => refuse c
          | none =>
            match launchDigest s l with
            | .absent f p => demandPage s f p
            | .refuse c => refuse c
            | .ok g =>
              (chainAppend s l.ctx 1 g).modSched h fun q =>
                { q with taken := true, queue := { l with declared := headBits b 0x08 0 16 } :: q.queue.drop 1 }
        | .bad =>
          match launchCode s l none with
          | some c => refuse c
          | none => s

def execLaunchDequeue (sched : Nat) (s : State) : Host.Outcome State Fault Refusal := .next (dequeueLaunch s sched)

/-- The coordinate of a unit, HX fastest (R207). -/
def hamOf (l : Launch) (n : Nat) : Nat × Nat × Nat := (n % l.grid.1, n / l.grid.1 % l.grid.2.1, n / (l.grid.1 * l.grid.2.1))
def Launch.units (l : Launch) : Nat := l.grid.1 * l.grid.2.1 * l.grid.2.2

/-- All the records of a unit's groups have been answered (R386). -/
def answered (s : State) (u : UnitRec) : Bool := u.groups.all fun g => (s.grp g).faults.all fun r => r.answer.isSome

/-- The saved unit of a queue that re-enters placement first (R213): of several the one saved first, which the manual leaves open (log entry 40). -/
def savedHead (s : State) (h : Nat) : Option Nat :=
  ((s.units.filter fun u => u.2.sched == h && u.2.saved && answered s u.2 && !ctxSuspended s u.2.launch.ctx &&
      !replAway s 0 reeveCx.tid).foldl
    (fun (b : Option (Nat × Nat)) u =>
      match b with
      | some o => if u.2.order < o.2 then some (u.1, u.2.order) else b
      | none => some (u.1, u.2.order)) none).map (·.1)

/-- The work at the head of a queue: a saved unit, or the next unit of its head launch. -/
inductive Work where
  | saved (uid : Nat)
  | fresh (l : Launch) (n : Nat)
  deriving DecidableEq, Repr

/-- The work of a queue that is eligible (R207); `head`: one whose head launch the dispatcher has yet to take. -/
def workBy (head : Bool) (s : State) (h : Nat) : Option Work :=
  match s.sched? h with
  | none => none
  | some q =>
    if q.suspended || !q.budgetOk || s.dead h then none
    else
      match savedHead s h with
      | some u => some (.saved u)
      | none =>
        match q.queue with
        | l :: _ => if (q.taken || head) && decide (q.nextUnit < l.units) && !ctxSuspended s l.ctx then some (.fresh l q.nextUnit) else none
        | [] => none

def workOf (s : State) (h : Nat) : Option Work := workBy false s h

/-- Launch, coordinate and the stages and ranks of the groups of a work. -/
def Work.shape (s : State) : Work → Launch × (Nat × Nat × Nat) × List (Nat × Nat)
  | .fresh l n =>
    (l, hamOf l n, (List.range (if l.ovlp then l.nstage else 1)).flatMap fun st => (List.range l.ngrp).map fun r => (st, r))
  | .saved u =>
    match Map.get? u s.units with
    | some u => (u.launch, u.ham, u.groups.map fun g => ((s.grp g).stage, (s.grp g).rank))
    | none => (Launch.empty, (0, 0, 0), [])

/-! Where it fits (R206). -/

/-- What a core's resident groups hold: clans, registers and lane-slice bytes by partition, scratchpad, tiles, buffers. -/
structure CoreUse where
  parts : List (Nat × Nat × Nat)
  scratch : Nat
  tiles : Nat
  sbufs : Nat
  deriving DecidableEq, Repr

def CoreUse.empty : CoreUse := ⟨List.replicate 4 (0, 0, 0), 0, 0, 0⟩

/-- Adds clans in given partitions. Every clan has a thread at home lane 0, so that lane's slice bytes bound every lane's. -/
def CoreUse.add (u : CoreUse) (l : Launch) (ps : List Nat) : CoreUse :=
  { parts := u.parts.zipIdx.map fun p => let k := (ps.filter (· == p.2)).length; (p.1.1 + k, p.1.2.1 + k * l.regs, p.1.2.2 + k * l.lanemem)
    scratch := u.scratch + l.scratch, tiles := u.tiles + l.nacc, sbufs := u.sbufs + l.nsbuf }

/-- The resident groups of a core, but for those of units left out. -/
def coreUse (s : State) (core : Nat) (out : Nat → Bool) : CoreUse :=
  (s.groups.filter fun g => !g.2.service && g.2.core == core && g.2.stat != .saved && !out g.2.unit).foldl
    (fun u g => u.add g.2.launch (g.2.clans.map fun c => c.2.part)) CoreUse.empty

/-- Partitions for the clans of a group, each in the first that has room. -/
def partsFor (l : Launch) : Nat → CoreUse → Option (List Nat)
  | 0, _ => some []
  | n + 1, u =>
    match (List.range 4).find? fun p =>
        let x := u.parts[p]?.getD (0, 0, 0)
        decide (x.1 < 16) && decide (x.2.1 + l.regs ≤ 1024) && decide (x.2.2 + l.lanemem ≤ 1024) with
    | none => none
    | some p =>
      let u1 : CoreUse := { u with parts := u.parts.zipIdx.map fun x => if x.2 = p then (x.1.1 + 1, x.1.2.1 + l.regs, x.1.2.2 + l.lanemem) else x.1 }
      (partsFor l n u1).map (p :: ·)

/-- The partitions of one group on a core, when it fits. -/
def groupFits (l : Launch) (u : CoreUse) : Option (List Nat) :=
  if u.scratch + l.scratch ≤ 327680 ∧ u.tiles + l.nacc ≤ 16 ∧ u.sbufs + l.nsbuf ≤ 8 then partsFor l l.clans u else none

/-- How many groups of a launch a core takes, at most n. -/
def groupRoom (l : Launch) : Nat → CoreUse → Nat
  | 0, _ => 0
  | n + 1, u =>
    match groupFits l u with
    | some ps => 1 + groupRoom l n (u.add l ps)
    | none => 0

/-- The sublists of a length, earlier elements first. -/
def combos {α : Type} : Nat → List α → List (List α)
  | 0, _ => [[]]
  | _ + 1, [] => []
  | n + 1, a :: l => (combos n l).map (a :: ·) ++ combos (n + 1) l

/-- A unit fits on a hamlet: its groups can be spread with those of one stage on distinct cores (R206). By the theorem of Gale and Ryser they can when the groups of any k stages are no more than the cores take, each at most k. -/
def fitsHamlet (s : State) (out : Nat → Bool) (l : Launch) (gs : List (Nat × Nat)) (hamlet : Nat) : Bool :=
  let stages := (gs.map (·.1)).eraseDups
  let room := (List.range 16).map fun c => groupRoom l stages.length (coreUse s (hamlet * 16 + c) out)
  (List.range (stages.length + 1)).all fun k => (combos k stages).all fun ss =>
    decide ((gs.filter fun g => ss.contains g.1).length ≤ (room.map fun r => min r k).sum)

/-- Given cores take the groups in order: partitions for each. -/
def assignCores (s : State) (l : Launch) (hamlet : Nat) : List ((Nat × Nat) × Nat) → List (Nat × Nat × List Nat) → Option (List (List Nat))
  | [], _ => some []
  | ((st, _), core) :: rest, done =>
    if core / 16 ≠ hamlet ∨ done.any (fun d => d.1 == st && d.2.1 == core) then none
    else
      let u := (done.filter fun d => d.2.1 == core).foldl (fun u d => u.add l d.2.2) (coreUse s core fun _ => false)
      match groupFits l u with
      | none => none
      | some ps => (assignCores s l hamlet rest (done ++ [(st, core, ps)])).map (ps :: ·)

/-- R210. -/
def hamletOrder (l : Launch) (ham : Nat × Nat × Nat) : List Nat :=
  if l.pmode = 1 then List.range 96
  else
    let h := ((ham.1 / 2 ^ l.shifts.1 * 40503) ^^^ (ham.2.1 / 2 ^ l.shifts.2.1 * 34283) ^^^ (ham.2.2 / 2 ^ l.shifts.2.2 * 49843)) % 65536
    let d := h % 96 / 16
    let i := h % 96 % 16
    (d :: (List.range 6).filter (· != d)).flatMap fun e => (List.range 16).map fun k => 16 * e + (i + k) % 16

def searchOrder (s : State) (l : Launch) (ham : Nat × Nat × Nat) : List Nat :=
  (hamletOrder l ham).filter fun h => match s.sched? l.sched with | some q => q.affin.getLsbD h | none => false

/-- Save slots (R381). -/
def slotBases (s : State) (ctx : Nat) : List Nat :=
  match s.ctx? ctx with
  | none => []
  | some c => (List.range ((c.save.top - c.save.base) / 2 ^ 21)).map fun i => c.save.base + i * 2 ^ 21
def freeSlots (s : State) (ctx : Nat) : List Nat :=
  (slotBases s ctx).filter fun b => !(s.groups.any fun g => g.2.ctx == ctx && g.2.slot.toNat == b)

/-- A work has the slots that it needs. -/
def slotsOk (s : State) : Work → Bool
  | .fresh l _ => decide (l.ngrp * (if l.ovlp then l.nstage else 1) ≤ (freeSlots s l.ctx).length)
  | .saved _ => true

/-- The first hamlet of the search order that a work fits on, units left out. -/
def firstFit (s : State) (out : Nat → Bool) (w : Work) : Option Nat :=
  let sh := w.shape s
  if slotsOk s w then (searchOrder s sh.1 sh.2.1).find? (fitsHamlet s out sh.1 sh.2.2) else none

/-- A launch whose groups a service core can hold: one thread, none of the resources of compute cores (R18, R165). -/
def serviceLaunch (l : Launch) : Bool :=
  l.threads == 1 && l.ngrp == 1 && l.scratch == 0 && l.lanemem == 0 && l.nacc == 0 && l.nsbuf == 0 && !l.ovlp

/-- A work that could be placed now: on a hamlet, or on a service core where its Context is of a world of service firmware. -/
def placeable (s : State) (w : Work) : Bool :=
  (firstFit s (fun _ => false) w).isSome ||
    match w with
    | .fresh l _ => serviceLaunch l && decide (s.worldOf l.ctx < 4) && slotsOk s w
    | .saved u => (((Map.get? u s.units).map UnitRec.groups).getD []).any fun g => (s.grp g).service

/-- R207: no other eligible queue comes first, whether or not the dispatcher has taken its head launch. -/
def turnOf (s : State) (h : Nat) : Bool :=
  match s.sched? h with
  | none => false
  | some q =>
    s.objs.all fun o =>
      match o.2.body with
      | .sched p =>
        o.1 == h || decide (p.prio < q.prio) || (p.prio == q.prio && decide (q.served ≤ p.served)) ||
          match workBy true s o.1 with
          | some w => !placeable s w
          | none => true
      | _ => true

/-! Placement. -/

/-- Headers of the stage queues that the device makes (R322), in the object store's part of HBM (R343): the manual does not say where they lie. -/
def stageQueueBase : Nat := 0x6900000000

def makeStageQueue (acc : State × List Nat) (world hamlet : Nat) : State × List Nat :=
  let (n, s1) := acc.1.newId
  let h := stageQueueBase + 64 * n
  ({ s1 with objs := Map.set h { world := world, torn := false, parent := none, src := 0, body := .queue (newQueue 0 4 128 1024 hamlet) } s1.objs }, acc.2 ++ [h])

def startStat (s : State) (l : Launch) : GStat := if s.time < l.start then .start else .run

/-- The unit's groups are made, each with its core, partitions and slot (R204, R206, R381). -/
def makeGroups (s : State) (uid : Nat) (l : Launch) (service : Bool) (gs : List (((Nat × Nat) × Nat) × (List Nat × Nat))) : State :=
  gs.foldl (fun st g =>
    let (gid, s1) := st.newId
    let (age, s2) := s1.newId
    match Map.get? uid s2.units with
    | none => s2
    | some u =>
      let grp := startGroup s2 uid u l service g.1.2 g.1.1.2 g.1.1.1 g.2.1 (BitVec.ofNat 64 g.2.2) age (startStat s2 l)
      let s3 := { s2 with groups := Map.set gid grp s2.groups, units := Map.set uid { u with groups := u.groups ++ [gid] } s2.units }
      writeHeader (zeroSlot s3 gid 0 (2 ^ 21)) gid 1) s

/-- Placing a unit whole (R206): unit, stage queues, groups; the launch leaves its queue with its last unit. -/
def placeUnit (s : State) (h : Nat) (l : Launch) (n hamlet : Nat) (service : Bool) (gs : List ((Nat × Nat) × Nat)) (ps : List (List Nat)) : State :=
  let (uid, s1) := s.newId
  let nq := if l.ovlp then l.nstage - 1 else 0
  let (s2, qs) := (List.range nq).foldl (fun acc _ => makeStageQueue acc (s.worldOf l.ctx) hamlet) (s1, [])
  let u : UnitRec := { sched := h, launch := l, ham := hamOf l n, hamlet := hamlet, groups := [], hbars := [], stageQ := qs, saved := false, order := uid, toSave := false, prio := schedPrio s h }
  let s3 := makeGroups { s2 with units := Map.set uid u s2.units } uid l service (gs.zip (ps.zip (freeSlots s2 l.ctx)))
  let (k, s4) := s3.newId
  let s5 := s4.modSched h fun q => { q with nextUnit := q.nextUnit + 1, served := k }
  if l.units ≤ n + 1 then popLaunch s5 h else s5

def onService : Nat := 0xFFFFFFFF

def unitPlace (s : State) (h hamlet : Nat) (cores : List Nat) : State :=
  match workOf s h with
  | some (.fresh l n) =>
    let sh := (Work.fresh l n).shape s
    let gs := sh.2.2.zip cores
    if hamlet = onService then
      if serviceLaunch l && turnOf s h && slotsOk s (.fresh l n) && cores.length == 1 && cores.all (fun c => decide (c < 32)) then placeUnit s h l n hamlet true gs [[0]] else s
    else if firstFit s (fun _ => false) (.fresh l n) ≠ some hamlet || !turnOf s h || cores.length != sh.2.2.length then s
    else
      match assignCores s l hamlet gs [] with
      | some ps => placeUnit s h l n hamlet false gs ps
      | none => s
  | _ => s

def execUnitPlace (sched hamlet : Nat) (cores : List Nat) (s : State) : Host.Outcome State Fault Refusal := .next (unitPlace s sched hamlet cores)

/-- R208. -/
def startUnit (s : State) (uid : Nat) : State :=
  match Map.get? uid s.units with
  | none => s
  | some u =>
    if s.time < u.launch.start then s
    else u.groups.foldl (fun st g => st.modGrp g fun g => if g.stat = .start then { g with stat := .run } else g) s

def execStartTimeReached (uid : Nat) (s : State) : Host.Outcome State Fault Refusal := .next (startUnit s uid)

/-! Budget (R211). -/

/-- Cores that hold a resident group of a SchedContext. -/
def coresHeld (s : State) (h : Nat) : List (Bool × Nat) :=
  ((s.groups.filter fun g => g.2.launch.sched == h && g.2.stat != .saved).map fun g => (g.2.service, g.2.core)).eraseDups

/-- The start of the period that a time lies in (R211). -/
def Sched.startOf (q : Sched) (t : Nat) : Nat := q.periodStart + (t - q.periodStart) / (q.period * 1000) * (q.period * 1000)

/-- The core-microseconds that a SchedContext consumes as time passes (R211): in the current microsecond each core that holds a group of it or has held one, in the later ones each that holds one. What lies before the start of a new period needs no account. -/
def Sched.pass (held : List (Bool × Nat)) (t u : Nat) (q : Sched) : Sched :=
  let k := u / 1000 - t / 1000
  if 0 < q.period ∧ t < q.startOf u then { q with owed := (u / 1000 - q.startOf u / 1000) * held.length, touched := [] }
  else if k = 0 then q
  else { q with owed := q.owed + (held ++ q.touched).eraseDups.length + (k - 1) * held.length, touched := [] }

def countBudgets (s : State) (ns : Nat) : State :=
  { s with objs := s.objs.map fun o =>
      match o.2.body with
      | .sched q => (o.1, { o.2 with body := .sched (q.pass (coresHeld s o.1) s.time (s.time + ns)) })
      | _ => o }

/-- A period has ended and the budget has yet to be refilled. -/
def Sched.refillDue (q : Sched) (t : Nat) : Bool := decide (0 < q.period) && decide (q.periodStart + q.period * 1000 ≤ t)

/-- The microseconds that have elapsed are consumed. -/
def budgetTick (s : State) (h : Nat) : State :=
  s.modSched h fun q =>
    if q.refillDue s.time then q
    else { q with owed := 0, left := if q.budget = 0 ∨ q.period = 0 then q.left else q.left - q.owed }

def periodRefill (s : State) (h : Nat) : State :=
  s.modSched h fun q => if q.refillDue s.time then { q with left := q.budget, periodStart := q.startOf s.time } else q

def execBudgetTick (sched : Nat) (s : State) : Host.Outcome State Fault Refusal := .next (budgetTick s sched)
def execPeriodRefill (sched : Nat) (s : State) : Host.Outcome State Fault Refusal := .next (periodRefill s sched)

/-! Saving. -/

/-- A unit's priority for pre-emption: the highest that its SchedContext has had since it was placed (R217). -/
def prioOfUnit (s : State) (u : UnitRec) : Nat := max u.prio (schedPrio s u.sched)

/-- A unit that is being saved. -/
def unitSaving (s : State) (u : UnitRec) : Bool := u.groups.any fun g => (s.grp g).stat == .saving

/-- Resident units of a hamlet below a priority, lowest priority first and, within one, the latest placed first. -/
def victimsOf (s : State) (hamlet p : Nat) : List Nat :=
  let us := (s.units.filter fun u => u.2.hamlet == hamlet && !u.2.saved && !unitSaving s u.2 && decide (prioOfUnit s u.2 < p)).foldl
    (fun (l : List (Nat × Nat)) u => insertBy u.2.order u.1 l) []
  (List.range 16).flatMap fun k => (us.reverse.filter fun u => ((Map.get? u.2 s.units).map (prioOfUnit s)).getD 0 == k).map (·.2)

/-- The units that a work of a priority pre-empts (R212, case 1): none when it fits, or could fit nowhere. -/
def preempted (s : State) (p : Nat) (w : Work) : List Nat :=
  let going (u : Nat) : Bool := ((Map.get? u s.units).map (unitSaving s)).getD false
  let sh := w.shape s
  if !slotsOk s w || (firstFit s going w).isSome then []
  else
    match (searchOrder s sh.1 sh.2.1).find? fun h => fitsHamlet s (fun u => going u || (victimsOf s h p).contains u) sh.1 sh.2.2 h with
    | none => []
    | some h =>
      let vs := victimsOf s h p
      (((List.range (vs.length + 1)).flatMap fun k => combos k vs).find? fun c =>
        fitsHamlet s (fun u => going u || c.contains u) sh.1 sh.2.2 h).getD []

/-- The cases in which a unit is saved (R212, R377). -/
def mustSave (s : State) (uid : Nat) (u : UnitRec) : Bool :=
  u.toSave || ctxSuspended s u.launch.ctx ||
    (match s.sched? u.sched with | some q => q.suspended || !q.budgetOk | none => false) ||
    s.objs.any fun o =>
      match o.2.body with
      | .sched q => match workOf s o.1 with | some w => (preempted s q.prio w).contains uid | none => false
      | _ => false

/-- A save begins for every group of a unit (R213, R384). -/
def groupSave (s : State) (uid : Nat) : State :=
  match Map.get? uid s.units with
  | none => s
  | some u => if u.saved || unitSaving s u || !mustSave s uid u then s else u.groups.foldl beginSave s

/-- The images are written and the cores freed (R384). -/
def saveSlotWrite (s : State) (uid : Nat) : State :=
  match Map.get? uid s.units with
  | none => s
  | some u => if u.saved || !unitSaving s u then s else unitSaved (u.groups.foldl writeSave s) uid

def execGroupSave (uid : Nat) (s : State) : Host.Outcome State Fault Refusal := .next (groupSave s uid)
def execSaveSlotWrite (uid : Nat) (s : State) : Host.Outcome State Fault Refusal := .next (saveSlotWrite s uid)

end Sys2Proof.Machine
end

