-- ==== Sys2Proof/Machine/MatrixOps.lean ====
section
/-! DEFINITION. The matrix instructions (R290-R306). -/

namespace Sys2Proof.Machine

/-! Byte images. -/

/-- The n bytes of an image from a v register; lanes outside the set read as zero (R285). -/
def regImage (s : State) (a : Actor) (r : Reg) (n : Nat) : List Byte :=
  ((List.range ((n + 127) / 128)).flatMap fun m => (List.range 32).flatMap fun l =>
    bytesOf (if a.mem.contains l then (rd32 s { a.cx with lane := l } (Reg.plus r m)).toNat else 0) 4).take n

/-- The writes of one member of an image into v registers. -/
def imageWrites (s : State) (x : Cx) (r : Reg) (bs : List Byte) : List RegWrite :=
  (List.range (bs.length / 128)).flatMap fun m => wr32 s x (Reg.plus r m) (BitVec.ofNat 32 (ofBytes ((bs.drop (128 * m + 4 * x.lane)).take 4)))

/-- Rows of an operand: row number and length. -/
def rowsFor (n len : Nat) : List (Nat × Nat) := (List.range n).map fun i => (i, len)
/-- Rows of a stationary operand with its scales (R286). -/
def bRowsFor (bf : Fmt) (bscale : Nat) : List (Nat × Nat) :=
  rowsFor (kOf bf) (bRow bf) ++ (if bScaleBytes bf bscale = 0 then [] else [(kOf bf, bScaleBytes bf bscale)])

/-- The pieces of at most 16 bytes of a scratchpad operand (R231). -/
def padChunks (s : State) (x : Cx) (d : Reg) (t : Nat) (rows : List (Nat × Nat)) : List (Nat × Nat) :=
  let w := (rd64 s x d).toNat
  let pitch := if bitsAt w 24 8 = 0 then 4096 else 16 * bitsAt w 24 8
  rows.flatMap fun r => (List.range ((r.2 + 15) / 16)).map fun c =>
    (rotate (padBase + bitsAt w 0 24 + t * bitsAt w 32 24 + r.1 * pitch + 16 * c) (bitsAt w 56 3), min 16 (r.2 - 16 * c))

/-- The first failing capability check of some ranges; `odd` is a misalignment of the whole operand, last in R7's order. -/
def checkRanges (c : Cap) (rs : List (Nat × Nat)) (perms : List Nat) (odd : Bool) : Option FaultInfo :=
  match rs.findSome? fun r => capCheckAlign c r.1 r.2 1 perms with
  | some f => some f
  | none => if odd then some { cls := 1, sub := 5, addr := BitVec.ofNat 64 ((rs.head?.map (·.1)).getD 0), cap := c } else none

/-- The places of some ranges in order, or what stands in the way. -/
def placesOf (s : State) (x : Cx) (acc : Acc) : List (Nat × Nat) → RWay
  | [] => .here []
  | r :: rs =>
    match rangeOf s x acc r.1 r.2 with
    | .error (.fault k u) => .bad (hitFault k u r.1)
    | .error (.absent f p) => .wait (.file f p)
    | .error (.at_ _) => .here []
    | .ok ps =>
      match placesOf s x acc rs with
      | .here qs => .here (ps ++ qs)
      | w => w

/-- The places of ranges after their checks and the presence bits of their lines (R230, R289). -/
def checkedPlaces (s : State) (x : Cx) (c : Cap) (rs : List (Nat × Nat)) (perms : List Nat) (odd : Bool) (acc : Acc) : RWay :=
  if c.tag && c.x then
    -- at another package, which makes the other checks (R435, R436)
    match rs.findSome? fun r => xCheck c r.1 perms with
    | some f => .bad f
    | none => .away
  else
    match checkRanges c rs perms odd with
    | some f => .bad f
    | none =>
      match placesOf s x acc rs with
      | .here ps => match darkPieces s ps with | some (g, ln) => .wait (.line g ln) | none => .here ps
      | w => w

/-- A scratchpad operand (R231, R285). -/
def padWay (s : State) (x : Cx) (d : Reg) (t : Nat) (rows : List (Nat × Nat)) (perms : List Nat) (acc : Acc) : RWay :=
  let w := (rd64 s x d).toNat
  checkedPlaces s x (padPreset (s.grp x.gid).launch) (padChunks s x d t rows) perms (bitsAt w 0 24 % 16 != 0 || bitsAt w 32 24 % 16 != 0) acc

/-- The address of a memory operand (R288). -/
def matrixAddr (s : State) (x : Cx) (cap : Reg) (imm : BitVec 32) : Nat := ((useCap s x cap).addr + (imm.signExtend 64).toNat) % 2 ^ 64

/-- The ranges of a memory operand: its rows a pitch apart (R285, R288). -/
def memRanges (s : State) (x : Cx) (cap : Reg) (pitch : BitVec 20) (imm : BitVec 32) (rows : List (Nat × Nat)) : List (Nat × Nat) :=
  let p := if pitch = 0 then (rows.head?.map (·.2)).getD 0 else pitch.toNat
  rows.map fun r => (matrixAddr s x cap imm + r.1 * p, r.2)

/-- A memory operand. -/
def memRows (s : State) (x : Cx) (cap : Reg) (pitch : BitVec 20) (imm : BitVec 32) (rows : List (Nat × Nat)) (perms : List Nat) (acc : Acc) : RWay :=
  checkedPlaces s x (useCap s x cap) (memRanges s x cap pitch imm rows) perms (matrixAddr s x cap imm % 16 != 0 || pitch.toNat % 16 != 0) acc

def mlocWay (s : State) (x : Cx) (l : MLoc) (rows : List (Nat × Nat)) (perms : List Nat) (acc : Acc) : RWay :=
  match l with
  | .scratch d t => padWay s x d t.val rows perms acc
  | .mem cap pitch imm => memRows s x cap pitch imm rows perms acc

/-- The capability and the ranges of an operand that may lie at another package (R435). -/
def mlocAway (s : State) (x : Cx) (l : MLoc) (rows : List (Nat × Nat)) : Cap × List (Nat × Nat) :=
  match l with
  | .scratch .. => (Cap.null, [])
  | .mem cap pitch imm => (useCap s x cap, memRanges s x cap pitch imm rows)

/-- A part of some places: from byte o, k bytes. -/
def slicePlaces : List (Loc × Nat) → Nat → Nat → List (Loc × Nat)
  | [], _, _ => []
  | (l, n) :: ps, o, k =>
    if k = 0 then []
    else if o < n then (l.plus o, min k (n - o)) :: slicePlaces ps 0 (k - min k (n - o))
    else slicePlaces ps (o - n) k

/-- An uncorrectable error in an operand: the instruction is past, and a deferred fault is raised (R51, R307). -/
def deferEcc (st : State) (a : Actor) : State :=
  raise (advanceActor st a) a.cx.gid a.cx.cno (laneMask a.mem) (laneMask a.mem) (pcOf st) (rawOf st) false true { cls := 9, sub := 1 }

/-- The fault that a way gives at issue; errors of the data come later. -/
def wayBad : RWay → Option FaultInfo
  | .bad f => some f
  | _ => none

def modMine (st : State) (a : Actor) (f : Group → Group) : State := st.modGrp a.cx.gid f

/-! Progress (R289). -/

/-- Chunks already done: %pix of the lowest member. -/
def pixOf (s : State) (a : Actor) : Nat := (s.thr a.cx.gid a.cx.tid).pix.toNat
/-- On completion every member's %pix is 0. -/
def clearPix (st : State) (a : Actor) : State := a.cxs.foldl (fun s x => s.modThr x.gid x.tid fun t => { t with pix := 0 }) st

/-- A save of the unit of a performer is due. -/
def saveDue (st : State) (a : Actor) : Bool :=
  let uid := (st.grp a.cx.gid).unit
  match Map.get? uid st.units with
  | some u => mustSave st uid u
  | none => false

/-- The chunks of n after which an execution from chunk p on ends: n, or a free number where a save of the unit is due, or a fault of the same cycle stops the group, which then stops it there. -/
def chunkStop (st : State) (a : Actor) (p n : Nat) : Nat × State :=
  if p < n ∧ (saveDue st a || (st.cur.map Cur.halt).getD false) then
    let (k, st1) := st.draw
    (p + Config.pick k % (n - p + 1), st1)
  else (n, st)

/-- The end of an execution that has moved the chunks before q of n: stopped (`stopped`), with %pix and the PC for the reissue, and saved where that is due; at a chunk with an error; or complete. -/
def endChunks (st : State) (a : Actor) (q n : Nat) (stopped : Bool) : State :=
  if stopped then
    let st1 := a.cxs.foldl (fun s x => s.modThr x.gid x.tid fun t => { t with pix := BitVec.ofNat 32 q }) st
    if saveDue st a then groupSave st1 (st.grp a.cx.gid).unit else st1
  else if q < n then deferEcc (clearPix st a) a
  else advanceActor (clearPix st a) a

/-- The 256-byte chunks of n bytes that a read may deliver, from chunk p on: up to the first with an error. -/
def goodChunks (s : State) (ps : List (Loc × Nat)) (p n : Nat) : Nat :=
  (((List.range ((n + 255) / 256)).drop p).find? fun c => eccPieces s (slicePlaces ps (256 * c) 256)).getD (max p ((n + 255) / 256))

/-! MMA. -/

def matrixState : FaultInfo := { cls := 3, sub := 5 }

structure MmaFmt where
  n : Nat
  af : Fmt
  bf : Fmt
  cf : Fmt

def mmaFmt (s : State) (x : Cx) (sl : Fin 8) : MmaFmt :=
  let n := slotNum s x sl
  ⟨n, (slotAf n).getD .fp32, (slotBf n).getD .fp32, (accFmt n).getD .fp32⟩

/-- Bytes of a row of A. -/
def aRow (f : MmaFmt) : Nat := kOf f.bf * Fmt.bits f.af / 8

def mmaWay (s : State) (x : Cx) (f : MmaFmt) : ASrc → RWay
  | .scratch d t => padWay s x d t.val (rowsFor 64 (aRow f)) [permLoad] .rd
  | _ => .here []

def mmaCheck (sl : Fin 8) (sb : Fin 2) (src : ASrc) (s : State) (a : Actor) : Option FaultInfo :=
  let f := mmaFmt s a.cx sl
  let b := (s.grp a.cx.gid).sbuf sb.val
  if b.st = 0 ∨ b.bf ≠ bitsAt f.n 4 4 ∨ b.bscale ≠ slotBScale f.n then some matrixState
  else wayBad (mmaWay s a.cx f src)

/-- Operand A (R291) as rows of values, and the flags that an accumulator source brings. -/
def mmaA (s : State) (a : Actor) (f : MmaFmt) (src : ASrc) (ps : List (Loc × Nat)) : List (List Val) × BitVec 64 :=
  let rows (bs : List Byte) : List (List Val) := (chunks (aRow f) 64 bs).map fun r => (unpack (Fmt.bits f.af) r).map (decodeF f.af false)
  match src with
  | .regs r => (rows (regImage s a r (64 * aRow f)), 0)
  | .scratch .. => (rows (readPieces s a.cx ps), 0)
  | .acc t col =>
    let g := s.grp a.cx.gid
    let conv (x : Nat) : Val := decodeF f.af false (if f.af = f.cf then x else convertF f.cf f.af .rn false (slotSat f.n) x)
    ((chunks 64 64 (g.elems f.cf t.val)).map fun r => ((r.drop (col.val * kOf f.bf)).take (kOf f.bf)).map conv, (g.tile t.val).flags)

/-- The A scales (R286). -/
def mmaScales (s : State) (a : Actor) (f : MmaFmt) (sc : Reg) : List (List Val) :=
  let mode := slotAScale f.n
  let bs := if mode = 1 then bytesOf (rd32 s a.cx sc).toNat 4 else regImage s a sc (aScaleBytes f.bf mode)
  scalesOf mode ((kOf f.bf + 63) / 64) bs false

/-- R292. -/
def mmaEffect (s : State) (a : Actor) (sr : Semiring) (f : MmaFmt) (acc : Nat) (sb : Nat) (src : ASrc) (init : Bool) (sc : Reg) (ps : List (Loc × Nat)) : Group → Group := fun g =>
  let b := g.sbuf sb
  let body := SMap.expand 0 b.data 0 8192
  let (rows, af) := mmaA s a f src ps
  let nb := (kOf f.bf + 63) / 64
  let bcols := columns ((chunks (bRow f.bf) (kOf f.bf) body).map fun r => (unpack (Fmt.bits f.bf) r).map (decodeF f.bf false))
  let (els, nf) := blockProduct sr f.cf init (b.st == 3) (g.elems f.cf acc) rows (mmaScales s a f sc) bcols (scalesOf (slotBScale f.n) nb (body.drop 4096) true)
  let nf := nf ||| af
  g.setElems f.cf acc els (if init then nf else (g.tile acc).flags ||| nf)

/-- MMA (R290-R294). -/
def execMma (h : Hdr) (sr : Semiring) (sl acc : Fin 8) (sb : Fin 2) (src : ASrc) (init : Bool) (sc : Reg) (s : State) : Host.Outcome State Fault Refusal :=
  .next (gathering h s implicitMask true (mmaCheck sl sb src) fun s0 st a =>
    let f := mmaFmt s0 a.cx sl
    match mmaWay s0 a.cx f src with
    | .wait w => waitFor st a w
    | .bad _ | .away => st
    | .here ps =>
      if eccPieces s0 ps then deferEcc st a
      else advanceActor (modMine st a (mmaEffect s0 a sr f acc.val sb.val src init sc ps)) a)

/-! MWLD. -/

def mwldWay (s : State) (x : Cx) (bf : Fmt) (bscale : Nat) : WSrc → RWay
  | .regs _ => .here []
  | .loc l => mlocWay s x l (bRowsFor bf bscale) [permLoad] .rd
  | .enc cap pitch imm _ => memRows s x cap pitch imm (bRowsFor bf bscale) [permLoad, permWeight] .rd

/-- The KeySlot of an encrypted load (R296). -/
def mwldKey (s : State) (x : Cx) : WSrc → Option (Except FaultInfo (KeySlotObj × KeySlot))
  | .enc _ _ _ ks => some (keyOf s (worldOfCx s x) (rdCap s x ks))
  | _ => none

def mwldFmt (s : State) (x : Cx) (sl : Fin 8) : Fmt × Nat :=
  let n := slotNum s x sl
  ((slotBf n).getD .fp32, slotBScale n)

/-- Where both the source and the KeySlot fail, the source's fault comes first: the manual gives no order (log entry 42). -/
def mwldCheck (sl : Fin 8) (src : WSrc) (s : State) (a : Actor) : Option FaultInfo :=
  let f := mwldFmt s a.cx sl
  match wayBad (mwldWay s a.cx f.1 f.2 src) with
  | some e => some e
  | none => match mwldKey s a.cx src with | some (.error e) => some e | _ => none

/-- The bytes that the load port delivers of those that it reads: decrypted where the load is (R296). -/
def mwldClear (s : State) (a : Actor) (bf : Fmt) (bscale : Nat) (src : WSrc) (bs : List Byte) : List Byte :=
  match src with
  | .regs r => regImage s a r (kOf bf * bRow bf + bScaleBytes bf bscale)
  | .loc _ => bs
  | .enc cap pitch imm _ =>
    let vas := (bRows bf bscale pitch.toNat (matrixAddr s a.cx cap imm)).flatMap fun r => (List.range r.2).map (r.1 + ·)
    match mwldKey s a.cx src with
    | some (.ok (k, key)) => (bs.zip vas).map fun p => BitVec.ofNat 8 (p.1.toNat ^^^ keyStream key.key k.nonce p.2)
    | _ => bs

/-- The capability and the ranges of a source that may lie at another package (R435). -/
def mwldAway (s : State) (x : Cx) (bf : Fmt) (bscale : Nat) : WSrc → Cap × List (Nat × Nat)
  | .regs _ => (Cap.null, [])
  | .loc l => mlocAway s x l (bRowsFor bf bscale)
  | .enc cap pitch imm _ => (useCap s x cap, memRanges s x cap pitch imm (bRowsFor bf bscale))

/-- The descriptor of R296. -/
def mwldDesc (s : State) (x : Cx) (n : Nat) : WSrc → Option EncDesc
  | .enc cap pitch imm ks => some ⟨(useCap s x cap).withAddr (matrixAddr s x cap imm), rdCap s x ks, pitch.toNat, bitsAt n 4 4, slotBScale n⟩
  | _ => none

/-- Fills a stationary buffer with the chunks of a source's bytes from the progress index on, before the q-th: the state word and the descriptor first; a plaintext load over decrypted contents leaves none of them. -/
def mwldFill (s0 st : State) (a : Actor) (sl : Fin 8) (sb : Fin 2) (src : WSrc) (bs : List Byte) (p q : Nat) : State :=
  let (bf, bscale) := mwldFmt s0 a.cx sl
  let n := slotNum s0 a.cx sl
  let desc := mwldDesc s0 a.cx n src
  let places := ((bPlaces bf bscale).zip (mwldClear st a bf bscale src bs)).take (256 * q) |>.drop (256 * p)
  modMine st a fun g =>
    let old := g.sbuf sb.val
    let base := if old.st = 2 ∧ desc.isNone then [] else old.data
    g.setSbuf sb.val { st := if desc.isSome then 2 else 1, bf := bitsAt n 4 4, bscale := bscale, data := places.foldl (fun m e => SMap.put 0 e.1 e.2 m) base, enc := desc }

/-- The chunks of an MWLD from p on, once its bytes can be read: those up to an error or a stop. -/
def mwldChunks (s0 st : State) (a : Actor) (sl : Fin 8) (sb : Fin 2) (src : WSrc) (good : Nat) (read : State → List Byte × State) : State :=
  let (bf, bscale) := mwldFmt s0 a.cx sl
  let n := (kOf bf * bRow bf + bScaleBytes bf bscale + 255) / 256
  let p := pixOf s0 a
  let (lim, st0) := chunkStop st a p n
  let (bs, st1) := read st0
  endChunks (mwldFill s0 st1 a sl sb src bs p (min lim good)) a (min lim good) n (decide (lim < n ∧ lim ≤ good))

/-- MWLD (R295-R297). -/
def execMwld (h : Hdr) (sl : Fin 8) (sb : Fin 2) (src : WSrc) (s : State) : Host.Outcome State Fault Refusal :=
  .next (gathering h s implicitMask true (mwldCheck sl src) fun s0 st a =>
    let (bf, bscale) := mwldFmt s0 a.cx sl
    let n := kOf bf * bRow bf + bScaleBytes bf bscale
    match mwldWay s0 a.cx bf bscale src with
    | .wait w => waitFor st a w
    | .bad _ => st
    | .here ps => mwldChunks s0 st a sl sb src (goodChunks s0 ps (pixOf s0 a) n) fun st => readRange st a.cx ps
    | .away =>
      let q := mwldAway s0 a.cx bf bscale src
      bring st a q.1 (if (n + 255) / 256 ≤ pixOf s0 a then [] else q.2) fun bs st => mwldChunks s0 st a sl sb src (max (pixOf s0 a) ((n + 255) / 256)) fun st => (bs, st))

/-! MLD and MST. -/

def accOf (s : State) (x : Cx) (sl : Fin 8) : Fmt := (accFmt (slotNum s x sl)).getD .fp32
def tileRows (f : Fmt) : List (Nat × Nat) := rowsFor 64 (64 * Fmt.bits f / 8)

/-- Row flags of loaded elements: a NaN in the row of a float format (R298). -/
def nanRows (cf : Fmt) (els : List Nat) : BitVec 64 :=
  if cf.isInt then 0 else flagsOf ((chunks 64 64 els).map fun r => r.any fun e => decodeF cf false e == .nan)

/-- MLD (R298). -/
def execMld (h : Hdr) (sl acc : Fin 8) (l : MLoc) (s : State) : Host.Outcome State Fault Refusal :=
  let way (s : State) (x : Cx) : RWay := mlocWay s x l (tileRows (accOf s x sl)) [permLoad] .rd
  .next (gathering h s implicitMask true (fun s a => wayBad (way s a.cx)) fun s0 st a =>
    let cf := accOf s0 a.cx sl
    let put (bs : List Byte) (st : State) : State :=
      let els := unpack (Fmt.bits cf) bs
      advanceActor (modMine st a fun g => g.setElems cf acc.val els (nanRows cf els)) a
    match way s0 a.cx with
    | .wait w => waitFor st a w
    | .bad _ => st
    | .here ps => if eccPieces s0 ps then deferEcc st a else let (bs, st1) := readRange st a.cx ps; put bs st1
    | .away => let q := mlocAway s0 a.cx l (tileRows cf); bring st a q.1 q.2 put)

/-- An element as MST writes it (R299). -/
def drain (cf df : Fmt) (rnd : Rnd) (sat flagged : Bool) (x : Nat) : Nat :=
  if flagged then df.nanBits
  else if cf = df then x
  else convertF cf df rnd false sat x

/-- The drained elements of a tile, row by row. -/
def drainTile (g : Group) (cf df : Fmt) (t : Nat) (rnd : Rnd) (sat : Bool) : List Nat :=
  let fl := (g.tile t).flags
  (chunks 64 64 (g.elems cf t)).zipIdx.flatMap fun r => r.1.map (drain cf df rnd sat (fl.getLsbD r.2))

/-- MST (R298, R299). -/
def execMst (h : Hdr) (df : Fmt) (sl acc : Fin 8) (l : MLoc) (s : State) : Host.Outcome State Fault Refusal :=
  let way (s : State) (x : Cx) : RWay := mlocWay s x l (tileRows df) [permStore] .wr
  .next (gathering h s implicitMask true (fun s a => wayBad (way s a.cx)) fun s0 st a =>
    let n := slotNum s0 a.cx sl
    let bs := pack (Fmt.bits df) (drainTile (s0.grp a.cx.gid) (accOf s0 a.cx sl) df acc.val (slotRnd n) (slotSat n))
    match way s0 a.cx with
    | .wait w => waitFor st a w
    | .bad _ => st
    | .here ps => advanceActor (writePieces st a.writers ps bs) a
    | .away => let q := mlocAway s0 a.cx l (tileRows df); advanceActor (wcRanges st a q.1 q.2 bs) a)

/-! Maintenance, reduction, status. -/

/-- MZERO (R300). -/
def execMzero (h : Hdr) (tiles : BitVec 8) (bufs : BitVec 2) (s : State) : Host.Outcome State Fault Refusal :=
  .next (gathering h s implicitMask false noCheck fun _ st a =>
    let zeroTiles (g : Group) : Group := (List.range 8).foldl (fun g t => if tiles.getLsbD t then g.setTile t Tile.zero else g) g
    let zeroBufs (g : Group) : Group := (List.range 2).foldl (fun g b => if bufs.getLsbD b then g.setSbuf b SBuf.empty else g) g
    advanceActor (modMine st a fun g => zeroBufs (zeroTiles g)) a)

/-- The columns that n and c0 select (R302). -/
def colRange (s : State) (x : Cx) (n c0 : Reg) : Nat × Nat :=
  let lo := (rd32 s x c0).toNat
  (lo, min 64 (lo + (if Reg.isVz n then 64 else (rd32 s x n).toNat)))

/-- The reduction of one row (R302). -/
def reduceRow (cf : Fmt) (op : RowOp) (flagged : Bool) (els : List Nat) : Nat :=
  let t : RType := if cf = .int32 then .i32 else if cf = .fp64 then .f64 else .f32
  if flagged then cf.nanBits
  else combine (match op with | .max => .max | .min => .min | .sum => .add) t els

/-- MROW (R302). -/
def execMrow (h : Hdr) (op : RowOp) (sl acc : Fin 8) (d n c0 : Reg) (s : State) : Host.Outcome State Fault Refusal :=
  .next (gathering h s implicitMask true noCheck fun s0 st a =>
    let cf := accOf s0 a.cx sl
    let g := s0.grp a.cx.gid
    let (lo, hi) := colRange s0 a.cx n c0
    let res := (chunks 64 64 (g.elems cf acc.val)).zipIdx.map fun r => reduceRow cf op ((g.tile acc.val).flags.getLsbD r.2) ((r.1.take hi).drop lo)
    let bs := pack (Fmt.bits cf) res
    completeWith st a.who (fun x => imageWrites s0 x d bs) (footOf st))

/-- One row of MSCALE: the new elements and whether its flag is set (R303). -/
def scaleOne (cf : Fmt) (lo hi : Nat) (row : List Nat) (sv : Nat) : List Nat × Bool :=
  let mulBy (v x : Val) : Nat := plusZero cf (encodeF cf .rn false false (Val.mul x v))
  match decodeF cf false sv with
  | .fin neg m e =>
    let v := Val.fin neg m e
    let bad (x : Nat) : Bool := Val.mul (decodeF cf false x) v == .nan
    let inside (i : Nat) : Bool := decide (lo ≤ i) && decide (i < hi)
    (row.zipIdx.map fun p => if inside p.2 then (if bad p.1 then 0 else mulBy v (decodeF cf false p.1)) else p.1,
     row.zipIdx.any fun p => inside p.2 && bad p.1)
  | _ => (row, true)

/-- MSCALE (R303). -/
def execMscale (h : Hdr) (sl acc : Fin 8) (sv n c0 : Reg) (s : State) : Host.Outcome State Fault Refusal :=
  .next (gathering h s implicitMask true noCheck fun s0 st a =>
    let cf := accOf s0 a.cx sl
    let (lo, hi) := colRange s0 a.cx n c0
    let ss := unpack (Fmt.bits cf) (regImage s0 a sv (64 * Fmt.bits cf / 8))
    advanceActor (modMine st a fun g =>
      let rows := ((chunks 64 64 (g.elems cf acc.val)).zip ss).map fun p => scaleOne cf lo hi p.1 p.2
      g.setElems cf acc.val (rows.flatMap (·.1)) ((g.tile acc.val).flags ||| flagsOf (rows.map (·.2)))) a)

/-- MSTAT (R304). -/
def execMstat (h : Hdr) (sel : MStatSel) (ix : Fin 8) (d : Reg) (s : State) : Host.Outcome State Fault Refusal :=
  .next (setWrites h implicitMask (fun s0 _ x =>
    let g := s0.grp x.gid
    match sel with
    | .flags => wr64 s0 x d (g.tile ix.val).flags
    | .sb => wr32 s0 x d (BitVec.ofNat 32 (g.sbuf ix.val).word)
    | .alloc => wr32 s0 x d (BitVec.ofNat 32 (g.launch.nacc + 256 * g.launch.nsbuf))) s)

def DKind.fmt : DKind → Fmt
  | .f32 => .fp32
  | .i32 => .int32
  | .f64 => .fp64

/-- MCVT (R301). -/
def execMcvt (h : Hdr) (sl accs accd : Fin 8) (dk : DKind) (s : State) : Host.Outcome State Fault Refusal :=
  .next (gathering h s implicitMask false noCheck fun s0 st a =>
    let cf := accOf s0 a.cx sl
    let n := slotNum s0 a.cx sl
    advanceActor (modMine st a fun g =>
      g.setElems (DKind.fmt dk) accd.val ((g.elems cf accs.val).map (convertF cf (DKind.fmt dk) (slotRnd n) false (slotSat n))) (g.tile accs.val).flags) a)

/-! MSAVE and MLOAD (R305, R306). -/

def imageWay (s : State) (x : Cx) (m : HintOp) (perm : Nat) (acc : Acc) : RWay :=
  rangeWay s x (useCap s x m.cap) (hintAddr s x m) (imageLen (s.grp x.gid)) 16 [perm] acc true

/-- What a tagged descriptor capability needs (R146, R306). -/
def msaveCheck (m : HintOp) (s : State) (a : Actor) : Option FaultInfo :=
  match wayBad (imageWay s a.cx m permStore .wr) with
  | some f => some f
  | none =>
    let c := useCap s a.cx m.cap
    (imageCaps (s.grp a.cx.gid)).findSome? fun p =>
      -- as STC does: not through an exported capability (R435)
      if p.2.tag && c.tag && c.x then some { cls := 1, sub := 2, addr := BitVec.ofNat 64 (hintAddr s a.cx m + p.1), cap := c }
      else if p.2.tag && (!c.has permStoreCap || (!p.2.g && !c.has permStoreLocal)) then
        some { cls := 1, sub := 3, addr := BitVec.ofNat 64 (hintAddr s a.cx m + p.1), cap := c }
      else none

/-- An image with a capability's 16 bytes at an offset. -/
def putCapBytes (bs : List Byte) (e : Nat × Cap) : List Byte := bs.take e.1 ++ bytesOf e.2.bits.toNat 16 ++ bs.drop (e.1 + 16)

/-- The chunks of an image from p up to q, each granule with its tag at once (R36); the capabilities' granules lie in chunk 0. -/
def saveChunks (st : State) (a : Actor) (ps : List (Loc × Nat)) (img : List Byte) (ts : List (Nat × Bool)) (p q : Nat) : State :=
  let bs := (img.take (256 * q)).drop (256 * p)
  writeTagged st a.writers (slicePlaces ps (256 * p) bs.length) bs (if p = 0 then ts.filter fun t => decide (t.1 < bs.length) else [])

/-- MSAVE. -/
def execMsave (h : Hdr) (m : HintOp) (_strm : Bool) (s : State) : Host.Outcome State Fault Refusal :=
  .next (gathering h s implicitMask true (msaveCheck m) fun s0 st a =>
    let g := s0.grp a.cx.gid
    let n := (imageLen g + 255) / 256
    let p := pixOf s0 a
    let caps := (imageCaps g).map fun e => (e.1, sieve s0 (worldOfCx s0 a.cx) e.2)
    let img := caps.foldl putCapBytes (imageBytes g)
    let chunksBy (put : State → Nat → State) : State :=
      let (q, st1) := chunkStop st a p n
      endChunks (put st1 q) a q n (decide (q < n))
    match imageWay s0 a.cx m permStore .wr with
    | .wait w => waitFor st a w
    | .bad _ => st
    | .here ps => chunksBy fun st q => saveChunks st a ps img (caps.map fun e => (e.1, e.2.tag)) p q
    | .away => chunksBy fun st q =>
        let bs := (img.take (256 * q)).drop (256 * p)
        wcRanges st a (useCap s0 a.cx m.cap) [(hintAddr s0 a.cx m + 256 * p, bs.length)] bs)

/-- The image as MLOAD leaves it: chunks before the progress index as they stand, those it reads, those after an error as they stand. -/
def loadedImage (g : Group) (bs : List Byte) (p q : Nat) : List Byte :=
  let own := imageBytes g
  own.take (256 * p) ++ ((bs.take (256 * q)).drop (256 * p)) ++ own.drop (256 * max p q)

def mloadCheck (m : HintOp) (s : State) (a : Actor) : Option FaultInfo :=
  wayBad (imageWay s a.cx m permLoad .rd)

/-- MLOAD refuses an image (R306). -/
def refuseImage (st : State) (a : Actor) : State :=
  raise st a.cx.gid a.cx.cno (laneMask a.mem) (laneMask a.mem) (pcOf st) (rawOf st) false false matrixState

/-- The chunks of an MLOAD from p on, once its bytes are here: those before the progress index and after an error or a stop as they stand. An image that R306 refuses has no effect; a replay may have to wait first (R297). -/
def mloadChunks (s0 st : State) (a : Actor) (good : Nat) (capIn : Nat → Cap) (read : State → List Byte × State) : State :=
  let g := s0.grp a.cx.gid
  let n := (imageLen g + 255) / 256
  let p := pixOf s0 a
  let (lim, st0) := chunkStop st a p n
  let q := min lim good
  let (img, st1) := read st0
  let capAt (o : Nat) : Cap := if p = 0 then capIn o else (((imageCaps g).find? fun e => e.1 == o).map (·.2)).getD Cap.null
  let whole := loadedImage g img p q
  if p = 0 ∧ 0 < good ∧ !imageOk g (img.take (256 * good)) then refuseImage st1 a
  else if q ≤ p then endChunks st1 a q n (decide (lim < n ∧ lim ≤ good))
  else
    match imageWait s0 a.cx whole capAt g.launch.nsbuf with
    | some w => waitFor st1 a w
    | none => endChunks (imageLoad st1 a.cx whole capAt) a q n (decide (lim < n ∧ lim ≤ good))

/-- MLOAD. -/
def execMload (h : Hdr) (m : HintOp) (_strm : Bool) (s : State) : Host.Outcome State Fault Refusal :=
  .next (gathering h s implicitMask true (mloadCheck m) fun s0 st a =>
    let c := useCap s0 a.cx m.cap
    let n := imageLen (s0.grp a.cx.gid)
    match imageWay s0 a.cx m permLoad .rd with
    | .wait w => waitFor st a w
    | .bad _ => st
    | .here ps =>
      let capIn (o : Nat) : Cap := match slicePlaces ps o 16 with | (l, _) :: _ => loadedCap c (readCapAt s0 a.cx l) | [] => Cap.null
      mloadChunks s0 st a (goodChunks s0 ps (pixOf s0 a) n) capIn fun st => readRange st a.cx ps
    | .away => bring st a c (if (n + 255) / 256 ≤ pixOf s0 a then [] else [(hintAddr s0 a.cx m, n)]) fun img st =>
        mloadChunks s0 st a (max (pixOf s0 a) ((n + 255) / 256)) (fun o => ⟨BitVec.ofNat 128 (ofBytes ((img.drop o).take 16)), false⟩) fun st => (img, st))

end Sys2Proof.Machine
end

