-- ==== Sys2Proof/Machine/QueueOps.lean ====
section
/-! DEFINITION. QBIND (R317) and REVOKE (R403). -/

namespace Sys2Proof.Machine

/-- The most bindings a clan may hold, beside stage bindings (R317). -/
def bindLimit (g : Group) : Nat := if g.service then 16 else g.launch.nqueue

/-- QBIND of one performer (R317). -/
def qbindOne (role : QRole) (d : Reg) (qn : Nat) (cq : Reg) (s0 st : State) (a : Actor) : State :=
  let x := a.cx
  let c := rdCap s0 x cq
  let cl := st.clan x.gid x.cno
  let done (s : State) (r : Nat) : State := retire s a (wrStatus s x d r)
  if !c.tag || c.otype != 11 || !c.has permInvoke then done st stBADCAP
  else
    match st.obj? c.base with
    | none => done st stDEAD
    | some o =>
      if o.world != worldOfCx st x then done st stWORLD
      else if o.torn then done st stDEAD
      else
        let kind := ((st.queue? c.base).map QueueObj.kind).getD 0
        if !kindAllows kind role then done st stBADOP
        else if (Map.get? qn cl.q).isNone && decide (bindLimit (st.grp x.gid) ≤ (cl.q.filter fun b => !b.2.stage).length) then done st stFULL
        else
          let (n, s1) := st.newId
          let b : Binding := { q := c.base, role := role, seq := 0, uid := n, made := ((st.queue? c.base).map QueueObj.made).getD 0, stage := false, cap := sieve st (worldOfCx st x) c }
          done (s1.modClan x.gid x.cno fun cl => { cl with q := Map.set qn b cl.q }) stOK

def execQbind (h : Hdr) (role : QRole) (d : Reg) (q : Fin 16) (cq : Reg) (s : State) : Host.Outcome State Fault Refusal :=
  .next (issue h s noCheck fun s0 st a => qbindOne role d q.val cq s0 st a)

/-- QBIND .unb (R317). -/
def execQbindUnb (h : Hdr) (d : Reg) (q : Fin 16) (s : State) : Host.Outcome State Fault Refusal :=
  .next (issue h s noCheck fun _ st a =>
    let s1 := st.modClan a.cx.gid a.cx.cno fun cl => { cl with q := Map.del q.val cl.q }
    retire s1 a (wrStatus s1 a.cx d stOK))

/-- REVOKE (R403): a batch of range capabilities into a GLEANER Queue. -/
def execRevoke (h : Hdr) (d r : Reg) (q : Fin 16) (s : State) : Host.Outcome State Fault Refusal :=
  .next (together h s (fun s y => faultOf (checkBinding s y.cx q.val .push (some 5) 128)) fun st as =>
    match as with
    | [] => st
    | y :: _ =>
      match checkBinding st y.cx q.val .push (some 5) 128 with
      | .error _ => st
      | .ok qh =>
        let es := as.map fun y => mkEntry (rdCap st y.cx r).bits (rdCap st y.cx r).tag (ctxOf st y.cx) []
        edges st as fun st => pushBatch st qh as es (some d))

end Sys2Proof.Machine
end

