-- ==== Sys2Proof/Machine/Restore.lean ====
section
/-! DEFINITION. Restoring a saved unit (R213, R386) and the rotation of a service core (R216). -/

namespace Sys2Proof.Machine

/-- A thread after the restore: one that was released from a barrier phase goes on, and the watchdog of one that waits counts from now (R380, R386). -/
def restoredThread (time : Nat) (t : Thread) : Thread :=
  match t.wait with
  | .release foot => Thread.advance foot t
  | w => if w.watched then { t with parkedAt := some time } else t

/-- A pending WAITC registers its monitor again, with the restore as its registration point (R262, R386). -/
def reregister (gid : Nat) (s : State) (m : Nat × List Nat × Bool) : State :=
  let x : Cx := ⟨gid, m.1, m.2.1.headD 0⟩
  match fetch s x with
  | .ok raw foot =>
    match decodeWord raw.toNat with
    | .ok (.waitc h op cmp sgn d c) =>
      match execWaitc h op cmp sgn d c { s with cur := some { gid := gid, clan := m.1, lanes := m.2.1, pc := BitVec.ofNat 64 (s.thr gid x.tid).pcc.addr, raw := raw, foot := foot, gathered := m.2.2, no := s.nextId } } with
      | .next t => { t with cur := none }
      | _ => s
    | _ => s
  | _ => s

/-- One group is back on a core (R386): its image is loaded, answers given meanwhile take effect, its gathers form as they would have. -/
def restoreGroup (s : State) (gid core : Nat) (parts : List Nat) : State :=
  let s0 := replSettle s
  let s1 := if slotMapped s0 gid then restoreMatrix (loadImage s0 gid) gid ((Map.get? (s.grp gid).unit s.units).bind UnitRec.paged) else s0
  let (age, s2) := s1.newId
  let s3 := s2.modGrp gid fun g => { g with
    core := core
    stat := if g.stage = 0 ∨ g.launch.ovlp then startStat s2 g.launch else .run
    clans := g.clans.map fun c => (c.1, { c.2 with part := parts[c.1]?.getD 0, age := age })
    threads := g.threads.map fun t => (t.1, restoredThread s2.time t.2) }
  let s4 := applyAnswers s3 gid
  let s5 := (s4.grp gid).clans.foldl (fun st c => formGathers st gid c.1) s4
  let ms := (s5.grp gid).rewaits
  let s6 := ms.foldl (reregister gid) (s5.modGrp gid fun g => { g with rewaits := [] })
  writeRecord s6 gid

/-- What a replay of a unit's images waits for (R238, R297). -/
def unitWait (s : State) (u : UnitRec) : Option Wait := u.groups.findSome? fun g => if slotMapped s g then restoreWait s g u.paged else none

/-- A restore whose replays wait for a page asks for it (R238, R297). -/
def awaitReplay (s : State) (uid : Nat) (w : Wait) : State :=
  match w with
  | .file f p => demandPage { s with units := Map.modify uid (fun u => { u with paged := some (f, p, false) }) s.units } f p
  | _ => s

def groupRestore (s : State) (uid hamlet : Nat) (cores : List Nat) : State :=
  match Map.get? uid s.units with
  | none => s
  | some u =>
    if workOf s u.sched ≠ some (.saved uid) then s
    else
      let sh := (Work.saved uid).shape s
      let gs := sh.2.2.zip cores
      let service := u.groups.any fun g => (s.grp g).service
      let back (ps : List (List Nat)) : State :=
        match unitWait s u with
        | some w => awaitReplay s uid w
        | none =>
        let s1 := (u.groups.zip (cores.zip ps)).foldl (fun st g => restoreGroup st g.1 g.2.1 g.2.2) s
        let (k, s2) := s1.newId
        { s2 with units := Map.modify uid (fun u => { u with saved := false, paged := none, hamlet := hamlet, order := k, prio := schedPrio s u.sched }) s2.units }.modSched u.sched fun q => { q with served := k }
      if service then
        if hamlet = onService ∧ turnOf s u.sched ∧ cores.length = 1 ∧ cores.all (fun c => decide (c < 32)) then back [[0]] else s
      else if firstFit s (fun _ => false) (.saved uid) ≠ some hamlet || !turnOf s u.sched || cores.length != sh.2.2.length then s
      else
        match assignCores s u.launch hamlet gs [] with
        | some ps => back ps
        | none => s

def execGroupRestore (uid hamlet : Nat) (cores : List Nat) (s : State) : Host.Outcome State Fault Refusal := .next (groupRestore s uid hamlet cores)

/-- R216: among the ready threads of the highest priority on a service core, the one whose turn it is goes to the end of the rotation. -/
def rotateService (s : State) (core : Nat) : State :=
  let ready := s.groups.filter fun g => g.2.service && g.2.core == core && g.2.stat == .run && g.2.faults.isEmpty && g.2.threads.any fun t => t.2.live && t.2.wait == .none
  let prio (g : Nat × Group) : Nat := ((s.sched? g.2.launch.sched).map Sched.prio).getD 0
  let top := (ready.map prio).foldl max 0
  let age (g : Nat × Group) : Nat := (s.clan g.1 0).age
  match (ready.filter fun g => prio g == top).foldl (fun (b : Option (Nat × Group)) g => match b with | some o => if age g < age o then some g else b | none => some g) none with
  | none => s
  | some g =>
    let (n, s1) := s.newId
    s1.modClan g.1 0 fun c => { c with age := n }

def execServiceCoreRotate (core : Nat) (s : State) : Host.Outcome State Fault Refusal := .next (rotateService s core)

end Sys2Proof.Machine
end

