-- ==== Sys2Proof/Machine/Ready.lean ====
section
/-! DEFINITION. The threads that are ready (R167), meetings (R168), lookahead windows that close and late failures (R49, R51). -/

namespace Sys2Proof.Machine

/-- R168: whether a thread of a clan stands at its meeting address while a live sibling with the same meeting register does not. -/
def meetHeld (s : State) (gid c l : Nat) : Bool :=
  let t := s.thr gid (c * 32 + l)
  t.pcc.addr == t.meet.toNat &&
    (List.range 32).any fun u =>
      let o := s.thr gid (c * 32 + u)
      u != l && o.live && o.meet == t.meet && o.pcc.addr != t.meet.toNat

def atMeet (t : Thread) : Bool := t.live && t.pcc.addr == t.meet.toNat

/-- Releases the threads whose siblings have all arrived; the others are held from now (R168, R380). -/
def settleMeet (s : State) (gid c : Nat) : State :=
  (List.range 32).foldl (fun st l =>
    let t := s.thr gid (c * 32 + l)
    if atMeet t && !t.released && t.wait == .none then
      if meetHeld s gid c l then st.modThr gid (c * 32 + l) fun t => { t with parkedAt := some (t.parkedAt.getD s.time) }
      else st.modThr gid (c * 32 + l) fun t => { t with released := true, parkedAt := none }
    else st) s

/-- A thread that may issue once its lookahead windows allow (R167). -/
def canIssue (s : State) (gid c l : Nat) : Bool :=
  let t := s.thr gid (c * 32 + l)
  t.live && t.wait == .none && (!atMeet t || t.released) &&
    !((s.clan gid c).gathers.any fun g => g.waiting.getLsbD l)

/-- A group whose threads may issue: placed and started, not held by a fault, not being saved (R208, R373). -/
def groupRuns (s : State) (gid : Nat) : Bool :=
  match s.grp? gid with
  | some g => g.stat == .run && g.faults.isEmpty && !g.done
  | none => false

def PendSrc.pending : PendSrc → Bool
  | .far _ | .remote _ => true
  | _ => false

/-- The pending instructions that must have completed before the next instruction issues: those whose window is used up, or all when it closes windows (R49). -/
def due (closing : Bool) (p : Pend) : Bool := closing || p.window == 0

/-- Lands the results that are due and here. -/
def landDue (s : State) (x : Cx) (closing : Bool) : State :=
  let t := s.thr x.gid x.tid
  let now := t.pend.filter fun p => due closing p && p.src == .here
  now.foldl (fun s p => lateWrites s x p.issue p.writes)
    (s.modThr x.gid x.tid fun t => { t with pend := t.pend.filter fun p => !(due closing p && p.src == .here) })

/-- A late failure that is due (R51). -/
def lateFault (s : State) (x : Cx) (closing : Bool) : Option Pend :=
  (s.thr x.gid x.tid).pend.find? fun p => due closing p && match p.src with | .failed .. => true | _ => false
def stillDue (s : State) (x : Cx) (closing : Bool) : Bool :=
  (s.thr x.gid x.tid).pend.any fun p => due closing p && p.src.pending

/-- A thread no longer has a pending instruction that failed. -/
def dropFailed (p : Pend) (s : State) (x : Cx) : State :=
  s.modThr x.gid x.tid fun t => { t with pend := t.pend.eraseP fun q => q.src == p.src && q.pc == p.pc && q.raw == p.raw }

/-- Delivers a late failure as a deferred record, one for the set that performed the instruction (R48, R51, R274, R378). -/
def raiseLate (s : State) (x : Cx) (p : Pend) : State :=
  match p.src with
  | .failed f set =>
    let m := laneMask set
    raise (set.foldl (fun s l => dropFailed p s { x with lane := l }) s) x.gid x.cno m m p.pc p.raw false true f
  | _ => s

end Sys2Proof.Machine
end

