-- ==== Sys2Proof/Machine/Waiting.lean ====
section
/-! DEFINITION. Events of threads that wait: results that arrive (R49-R51), naps that end (R135), gather mismatch (R176), the watchdog (R380), a core's change of disposition table (R400), a batch that enters its queue (R319). -/

namespace Sys2Proof.Machine

/-! Results. -/

/-- The writes of a pending result that a mask names, and the others. -/
def splitWrites (which : BitVec 16) (ws : List RegWrite) : List RegWrite × List RegWrite :=
  let on := fun (p : RegWrite × Nat) => which.getLsbD (p.2 % 16)
  ((ws.zipIdx.filter on).map (·.1), (ws.zipIdx.filter fun p => !on p).map (·.1))

/-- A thread's pending result arrives: the writes that the mask names land now, each 32-bit register, capability or predicate whole (R50); a failure is delivered, beside the records that may hold the group already (R51, R373, R374). -/
def completeLate (s : State) (gid tid n : Nat) (which : BitVec 16) : State :=
  let t := s.thr gid tid
  let x : Cx := ⟨gid, tid / 32, tid % 32⟩
  match t.pend[n]? with
  | none => s
  | some p =>
    match p.src with
    | .here =>
      let (now, later) := splitWrites which p.writes
      let left := if later.isEmpty then t.pend.eraseIdx n else t.pend.set n { p with writes := later }
      lateWrites (s.modThr gid tid fun t => { t with pend := left }) x p.issue now
    | .failed .. => if (s.grp gid).stat == .run then raiseLate s x p else s
    | _ => s

def execLongLatencyComplete (gid tid pend : Nat) (which : BitVec 16) (s : State) : Host.Outcome State Fault Refusal :=
  .next (completeLate s gid tid pend which)

/-- R135. -/
def napExpire (s : State) (gid tid : Nat) : State :=
  match (s.thr gid tid).wait with
  | .nap till foot => if till ≤ s.time then advance s ⟨gid, tid / 32, tid % 32⟩ foot else s
  | _ => s

def execNapExpire (gid tid : Nat) (s : State) : Host.Outcome State Fault Refusal := .next (napExpire s gid tid)

/-! Gather mismatch (R176). -/

/-- The lanes that a parked thread waits on; none when it is not parked. -/
def waitsOn (s : State) (gid c l : Nat) : Option (BitVec 32) :=
  let t := s.thr gid (c * 32 + l)
  if !t.live then none
  else
    match (s.clan gid c).gathers.find? fun g => !g.formed && g.waiting.getLsbD l with
    | some g => some (g.mask &&& liveMask s gid c &&& ~~~(g.waiting ||| g.excluded))
    | none =>
      if t.wait == .none && atMeet t && !t.released && meetHeld s gid c l then
        some (laneMask ((List.range 32).filter fun u =>
          let o := s.thr gid (c * 32 + u)
          u != l && o.live && o.meet == t.meet && o.pcc.addr != t.meet.toNat))
      else none

/-- Threads that wait on a thread outside the set leave it. -/
def closeSet (s : State) (gid c : Nat) (m : BitVec 32) : BitVec 32 :=
  laneMask ((List.range 32).filter fun l =>
    m.getLsbD l && match waitsOn s gid c l with | some w => (w &&& ~~~m) == 0 | none => false)

/-- The largest closed set of parked threads of a clan: at most 32 threads leave it. -/
def stuckSet (s : State) (gid c : Nat) : BitVec 32 := (List.range 33).foldl (fun m _ => closeSet s gid c m) (BitVec.allOnes 32)

/-- A fault of parked threads of one clan, which leave what they wait for (R176, R380). -/
def raiseParked (s : State) (gid c : Nat) (m : BitVec 32) (cls : Nat) : State :=
  let x : Cx := ⟨gid, c, ((maskLanes m)[0]?).getD 0⟩
  let pc := BitVec.ofNat 64 (s.thr gid x.tid).pcc.addr
  raise (withdraw s gid c m) gid c m m pc (wordAt s x).1 false false { cls := cls, sub := 0 }

def gatherMismatch (s : State) (gid c : Nat) : State :=
  let m := stuckSet s gid c
  if !groupRuns s gid || m == 0 then s else raiseParked s gid c m 4

def execGatherMismatchDetect (gid clan : Nat) (s : State) : Host.Outcome State Fault Refusal := .next (gatherMismatch s gid clan)

/-! The watchdog (R380). -/

/-- A watched thread that has been parked for the limit of its Context. -/
def pastLimit (s : State) (gid tid : Nat) : Bool :=
  let t := s.thr gid tid
  let limit := ((s.ctx? (s.grp gid).ctx).map ContextObj.watchdog).getD 0
  limit != 0 && t.live && (t.wait.watched || (t.wait == .none && atMeet t && !t.released && meetHeld s gid (tid / 32) (tid % 32))) &&
    match t.parkedAt with
    | some a => decide (a + limit * 1000000 ≤ s.time)
    | none => false

def watchdog (s : State) (gid tid : Nat) : State :=
  if !groupRuns s gid || !pastLimit s gid tid then s
  else
    let c := tid / 32
    let pc := (s.thr gid tid).pcc.addr
    raiseParked s gid c (laneMask ((List.range 32).filter fun l => pastLimit s gid (c * 32 + l) && (s.thr gid (c * 32 + l)).pcc.addr == pc)) 10

def execWatchdogExpire (gid tid : Nat) (s : State) : Host.Outcome State Fault Refusal := .next (watchdog s gid tid)

/-! Others. -/

def execOdtChangeApply (ctx core : Nat) (s : State) : Host.Outcome State Fault Refusal := .next (applyOdt s ctx core)
def execQueueBatchEnter (queue : Nat) (s : State) : Host.Outcome State Fault Refusal := .next (serveQueue s queue)

end Sys2Proof.Machine
end

