-- ==== Sys2Proof/Machine/WellOps.lean ====
section
/-! DEFINITION. The Well's events: the end of a page read (R337), the commands of WELLCMD queues and the end of their NVMe commands (R338, R339). -/

namespace Sys2Proof.Machine

/-! Commands. -/

/-- Posts the completion of a Well command; what waited for its page, its frame or its completion entry goes on. -/
def wellPost (s : State) (pair : Nat) (seq : BitVec 32) (status elem : Nat) : State :=
  wakeAll (pruneFences (retryPages (postCompletion s pair seq status elem))) fun w => match w with | .room _ => true | _ => false

/-- ELEM where the manual states none for a Well command: a free value (R339). -/
def openElem (s : State) : Nat × State := let (k, s1) := s.draw; (Config.pick k, s1)

/-- ELEM of IOERR (R339): the status code type and the status code; the bits above them are not stated. -/
def ioErrElem (s : State) (sct sc : BitVec 8) : Nat × State :=
  let (k, s1) := openElem s
  (sc.toNat + sct.toNat * 2 ^ 8 + k % 2 ^ 48 * 2 ^ 16, s1)

/-- A command that has been taken ends (R339). -/
def endWell (s : State) (id status elem : Nat) : State :=
  match Map.get? id s.wells with
  | none => s
  | some c =>
    let pair := ((s.queue? c.queue).bind QueueObj.pair).getD 0
    wellPost { s with wells := Map.del id s.wells } pair c.seq status elem

def endWellErr (s : State) (id : Nat) (sct sc : BitVec 8) : State :=
  let (e, s1) := ioErrElem s sct sc
  endWell s1 id 7 e

/-- A WELLCMD entry that may be taken now: Queue, its PAIR, its FILE, operation, page, and whether a zero field is not zero. -/
structure WellHead where
  pair : Nat
  fm : Nat
  file : FileMapObj
  op : Nat
  page : Nat
  bad : Bool
  deriving DecidableEq, Repr

/-- The head entry of a WELLCMD queue: one at a time, in entry order (R258, R339), behind every fence (R198), with a completion entry to reserve. -/
def wellHead (s : State) (qh : Nat) : Option WellHead :=
  match s.queue? qh with
  | none => none
  | some q =>
    match q.es, q.pair, q.file with
    | e :: _, some pair, some fm =>
      match s.filemap? fm with
      | none => none
      | some f =>
        if q.kind = 3 ∧ !s.dead qh ∧ canReserve s pair ∧ !(s.wells.any fun w => w.2.queue == qh) ∧ !fenceHolds s (queueKey qh) q.popped then
          let n := e.bits.toNat
          some { pair := pair, fm := fm, file := f, op := bitsAt n 64 8, page := bitsAt n 0 64, bad := bitsAt n 72 56 != 0 || decide (4 < bitsAt n 64 8) }
        else none
    | _, _, _ => none

/-- Takes the head entry: its SEQ and the state (R333). -/
def wellTake (s : State) (qh pair : Nat) : Option (Nat × State) :=
  match takeEntry (reserveEntry s pair) qh with
  | some (_, pos, s1) => some (pos, wakeAll s1 (· == .room qh))
  | none => none

/-- Takes an entry that is complete at once. -/
def wellNow (s : State) (qh pair status : Nat) : State :=
  match wellTake s qh pair with
  | none => s
  | some (pos, s1) =>
    if status = 0 then wellPost s1 pair (BitVec.ofNat 32 pos) 0 0
    else
      let (e, s2) := openElem s1
      wellPost s2 pair (BitVec.ofNat 32 pos) status e

/-- Takes an entry that goes on: the command joins the Well's, with an NVMe command when there is one. -/
def wellBegin (s : State) (qh : Nat) (h : WellHead) (nvme : Option Nat) : State :=
  match wellTake s qh h.pair with
  | none => s
  | some (pos, s1) =>
    let (id, s2) := s1.newId
    let s3 := { s2 with wells := Map.set id { queue := qh, pos := pos, seq := BitVec.ofNat 32 pos, op := h.op, page := h.page, fm := h.fm, nvme := nvme.isSome } s2.wells }
    match nvme with
    | some op => { s3 with out := s3.out ++ [nvmeOf s3 h.fm op h.page] }
    | none => s3

/-- The Well's next entry of a queue, for the event of one operation: malformed entries and pages beyond the file end at once (R339). -/
def wellEntry (s : State) (qh op : Nat) (run : WellHead → State) : State :=
  match wellHead s qh with
  | none => s
  | some h =>
    if h.bad then wellNow s qh h.pair 1
    else if h.op ≠ op then s
    else if op ≠ 3 ∧ h.file.pages ≤ h.page then wellNow s qh h.pair 6
    else run h

def setPage (s : State) (fm page : Nat) (f : FilePage → FilePage) : State := s.modFm fm fun m => { m with cache := Map.modify page f m.cache }

/-- FETCH (R339). -/
def wellFetch (s : State) (qh : Nat) : State :=
  wellEntry s qh 0 fun h =>
    match Map.get? h.page h.file.cache with
    | some p => if p.state = 0 then wellBegin s qh h none else wellNow (installPage s h.fm h.page p.frame) qh h.pair 0
    | none =>
      let s1 := demandPage s h.fm h.page
      if (pageOf? s1 h.fm h.page).isSome then wellBegin s1 qh h none else s

/-- WRITEBACK (R339). -/
def wellWriteback (s : State) (qh : Nat) : State :=
  wellEntry s qh 1 fun h =>
    match Map.get? h.page h.file.cache with
    | some p =>
      if p.state = 2 then wellBegin (setPage s h.fm h.page fun p => { p with state := 3, redirty := false }) qh h (some 1) else wellNow s qh h.pair 0
    | none => wellNow s qh h.pair 0

/-- The eviction that a queue has begun: written, it goes when no access uses the page. -/
def evictNow (s : State) (id : Nat) (c : WellCmd) : State :=
  match pageOf? s c.fm c.page with
  | none => endWell s id 0 0
  | some p =>
    if p.state = 2 then
      { setPage s c.fm c.page (fun p => { p with state := 3, redirty := false }) with
        wells := Map.modify id (fun c => { c with nvme := true }) s.wells, out := s.out ++ [nvmeOf s c.fm 1 c.page] }
    else if p.state = 1 ∧ !pageInUse s c.fm c.page then endWell (dropPage s c.fm c.page) id 0 0
    else s

/-- EVICT (R338, R339). -/
def wellEvict (s : State) (qh : Nat) : State :=
  match s.wells.find? fun w => w.2.queue == qh && w.2.op == 2 && !w.2.nvme with
  | some w => evictNow s w.1 w.2
  | none =>
    wellEntry s qh 2 fun h =>
      match Map.get? h.page h.file.cache with
      | none => wellNow s qh h.pair 0
      | some p =>
        if p.state = 2 then wellBegin (setPage s h.fm h.page fun p => { p with state := 3, redirty := false }) qh h (some 1)
        else if p.state = 1 ∧ !pageInUse s h.fm h.page then wellNow (dropPage s h.fm h.page) qh h.pair 0
        else s

/-- FLUSH: the queue's earlier commands have completed (R339). -/
def wellFlush (s : State) (qh : Nat) : State := wellEntry s qh 3 fun h => wellBegin s qh h (some 3)

/-- TRIM (R339): a page that is being read or written, or used by an access, is dropped when that has ended. -/
def wellTrim (s : State) (qh : Nat) : State :=
  wellEntry s qh 4 fun h =>
    match Map.get? h.page h.file.cache with
    | some p => if p.state = 0 ∨ p.state = 3 ∨ pageInUse s h.fm h.page then s else wellBegin (dropPage s h.fm h.page) qh h (some 4)
    | none => wellBegin s qh h (some 4)

def execWellFetch (queue : Nat) (s : State) : Host.Outcome State Fault Refusal := .next (wellFetch s queue)
def execWellWriteback (queue : Nat) (s : State) : Host.Outcome State Fault Refusal := .next (wellWriteback s queue)
def execWellEvict (queue : Nat) (s : State) : Host.Outcome State Fault Refusal := .next (wellEvict s queue)
def execWellFlush (queue : Nat) (s : State) : Host.Outcome State Fault Refusal := .next (wellFlush s queue)
def execWellTrim (queue : Nat) (s : State) : Host.Outcome State Fault Refusal := .next (wellTrim s queue)

/-! The ends of NVMe commands. -/

/-- The NVMe command of a WRITEBACK, EVICT, FLUSH or TRIM completes (R339). -/
def wellNvme (s : State) (id : Nat) (sct sc : BitVec 8) : State :=
  match Map.get? id s.wells with
  | none => s
  | some c =>
    if !c.nvme then s
    else
      let ok := sct == 0 && sc == 0
      let s1 := { s with wells := Map.modify id (fun c => { c with nvme := false }) s.wells }
      let written := if c.op = 1 ∨ c.op = 2 then setPage s1 c.fm c.page fun p => if p.state = 3 then { p with state := if ok && !p.redirty then 1 else 2, redirty := false } else p else s1
      if !ok then endWellErr written id sct sc
      else if c.op = 2 then evictNow written id { c with nvme := false }
      else endWell written id 0 0

def execWellNvmeComplete (cmd : Nat) (sct sc : BitVec 8) (s : State) : Host.Outcome State Fault Refusal := .next (wellNvme s cmd sct sc)

/-- The FETCH commands that wait for a page. -/
def fetchesOf (s : State) (fm page : Nat) : List Nat :=
  (s.wells.filter fun w => w.2.op == 0 && w.2.fm == fm && w.2.page == page).map (·.1)

/-- The queues whose head launch waits for a page: its header, or its measured bytes, cannot be read (R203). -/
def failLaunches (s : State) (fm page : Nat) : State :=
  s.objs.foldl (fun st o =>
    match o.2.body with
    | .sched q =>
      match q.queue with
      | l :: _ =>
        let pc := BitVec.ofNat 64 (l.entries[0]?.getD Cap.null).addr
        let no (code : Nat) : State := refuseLaunch (popLaunch st o.1) l.ctx pc code
        if q.taken then st
        else if programHeader s l = .absent fm page then no ((launchCode s l none).getD 5)
        else if launchDigest s l = .absent fm page then no 11
        else st
      | [] => st
    | _ => st) s

/-- The COPYCMD queues whose next block lies on a page whose read failed. -/
def failBlocks (s : State) (fm page : Nat) : State :=
  s.objs.foldl (fun st o =>
    match o.2.body with
    | .queue q =>
      match q.es with
      | e :: _ => if q.kind = 2 ∧ (entryBlock s q.hamlet e).2.1 = some (fm, page) then takeCopycmd st o.1 (some (fm, page)) else st
      | [] => st
    | _ => st) s

/-- The key of a file page: that of a leaf that maps it, or of a KEY 0 page of its FileMap's world (R455). -/
def fileKey (s : State) (fm page frame : Nat) : MemKey :=
  (s.objs.findSome? fun o =>
    match o.2.body with
    | .aspace a => (a.files.find? fun l => l.2.1 == fm && l.2.2 == page).bind fun l =>
        match walkFrom s l.1 4 a.root with
        | .leaf e _ _ => some (pageKey s e.world e.key frame)
        | _ => none
    | _ => none).getD (pageKey s (s.worldOf fm) 0 frame)

/-- The end of a page's NVMe Read (R337): its bytes are in the frame, which every leaf of the page takes, or every access parked on it fails. -/
def wellRead (s : State) (fm page : Nat) (data : Option (List Byte)) (sct sc : BitVec 8) : State :=
  match pageOf? s fm page with
  | none => s
  | some p =>
    if p.state ≠ 0 then s
    else
      match data with
      | some bs =>
        let k := fileKey s fm page p.frame
        let s1 := writeVia (zeroPhys s p.frame (2 ^ 17) k) k p.frame (bs.take (2 ^ 17))
        let (n, s2) := { s1 with ecc := s1.ecc.filter fun e => !(decide (p.frame ≤ 32 * e.1) && decide (32 * e.1 < p.frame + 2 ^ 17)) }.newId
        let s3 := installPage (setPage s2 fm page fun p => { p with state := 1, installed := n }) fm page p.frame
        -- the page is CLEAN now: an access that waits for a frame may have it (R338)
        retryPages (drainInbound ((fetchesOf s3 fm page).foldl (fun st id => endWell st id 0 0) s3))
      | none =>
        let s1 := s.modFm fm fun f => { f with cache := Map.del page f.cache, freeFrames := f.freeFrames ++ [p.frame] }
        let s2 := failInbound (failBlocks (failLaunches (failRounds (failCopies (wakePage s1 fm page true) fm page) fm page) fm page) fm page) fm page
        retryPages ((fetchesOf s2 fm page).foldl (fun st id => endWellErr st id sct sc) s2)

def execWellReadComplete (filemap page : Nat) (data : Option (List Byte)) (sct sc : BitVec 8) (s : State) : Host.Outcome State Fault Refusal :=
  .next (wellRead s filemap page data sct sc)

end Sys2Proof.Machine
end

