-- ==== Sys2Proof/Machine/Dispatch.lean ====
section
/-! DEFINITION. One arm per operation or event of spec/opcode_table.json. -/

namespace Sys2Proof.Machine

def exec (i : Instr) (s : State) : Host.Outcome State Fault Refusal :=
  match i with
  | .nop h => Sys2Proof.Machine.execNop h s
  | .mov h t d a => Sys2Proof.Machine.execMov h t d a s
  | .movPush h t q a nb nbp => Sys2Proof.Machine.execMovPush h t q a nb nbp s
  | .movPop h t d q nb nbp => Sys2Proof.Machine.execMovPop h t d q nb nbp s
  | .moviI h t d imm => Sys2Proof.Machine.execMoviI h t d imm s
  | .moviL h t d imm => Sys2Proof.Machine.execMoviL h t d imm s
  | .selB h t d a b ps pneg => Sys2Proof.Machine.execSelB h t d a b ps pneg s
  | .selI h t d a imm ps pneg => Sys2Proof.Machine.execSelI h t d a imm ps pneg s
  | .iaddB h t d a b => Sys2Proof.Machine.execIaddB h t d a b s
  | .iaddI h t d a imm => Sys2Proof.Machine.execIaddI h t d a imm s
  | .iaddL h t d a imm => Sys2Proof.Machine.execIaddL h t d a imm s
  | .isubB h t d a b => Sys2Proof.Machine.execIsubB h t d a b s
  | .isubI h t d a imm => Sys2Proof.Machine.execIsubI h t d a imm s
  | .isubL h t d a imm => Sys2Proof.Machine.execIsubL h t d a imm s
  | .iaddcB h t d a b cinp cinen coutp => Sys2Proof.Machine.execIaddcB h t d a b cinp cinen coutp s
  | .iaddcI h t d a imm cinp cinen coutp => Sys2Proof.Machine.execIaddcI h t d a imm cinp cinen coutp s
  | .imulB h t m d a b => Sys2Proof.Machine.execImulB h t m d a b s
  | .imulI h t m d a imm => Sys2Proof.Machine.execImulI h t m d a imm s
  | .imulL h t m d a imm => Sys2Proof.Machine.execImulL h t m d a imm s
  | .imad h t m d a b c => Sys2Proof.Machine.execImad h t m d a b c s
  | .idivB h t d a b => Sys2Proof.Machine.execIdivB h t d a b s
  | .idivI h t d a imm => Sys2Proof.Machine.execIdivI h t d a imm s
  | .iremB h t d a b => Sys2Proof.Machine.execIremB h t d a b s
  | .iremI h t d a imm => Sys2Proof.Machine.execIremI h t d a imm s
  | .iminB h t d a b => Sys2Proof.Machine.execIminB h t d a b s
  | .iminI h t d a imm => Sys2Proof.Machine.execIminI h t d a imm s
  | .imaxB h t d a b => Sys2Proof.Machine.execImaxB h t d a b s
  | .imaxI h t d a imm => Sys2Proof.Machine.execImaxI h t d a imm s
  | .iabs h t d a => Sys2Proof.Machine.execIabs h t d a s
  | .ineg h t d a => Sys2Proof.Machine.execIneg h t d a s
  | .isad h t d a b c => Sys2Proof.Machine.execIsad h t d a b c s
  | .idot4 h asgn bsgn d a b c => Sys2Proof.Machine.execIdot4 h asgn bsgn d a b c s
  | .icmpB h t cond pd pc a b => Sys2Proof.Machine.execIcmpB h t cond pd pc a b s
  | .icmpI h t cond pd pc a imm => Sys2Proof.Machine.execIcmpI h t cond pd pc a imm s
  | .icmpL h t cond pd pc a imm => Sys2Proof.Machine.execIcmpL h t cond pd pc a imm s
  | .andB h t d a b => Sys2Proof.Machine.execAndB h t d a b s
  | .andI h t d a imm => Sys2Proof.Machine.execAndI h t d a imm s
  | .andL h t d a imm => Sys2Proof.Machine.execAndL h t d a imm s
  | .orB h t d a b => Sys2Proof.Machine.execOrB h t d a b s
  | .orI h t d a imm => Sys2Proof.Machine.execOrI h t d a imm s
  | .orL h t d a imm => Sys2Proof.Machine.execOrL h t d a imm s
  | .xorB h t d a b => Sys2Proof.Machine.execXorB h t d a b s
  | .xorI h t d a imm => Sys2Proof.Machine.execXorI h t d a imm s
  | .xorL h t d a imm => Sys2Proof.Machine.execXorL h t d a imm s
  | .not h t d a => Sys2Proof.Machine.execNot h t d a s
  | .lut3 h t tt d a b c => Sys2Proof.Machine.execLut3 h t tt d a b c s
  | .shlB h t wrap d a sh => Sys2Proof.Machine.execShlB h t wrap d a sh s
  | .shlI h t wrap d a imm => Sys2Proof.Machine.execShlI h t wrap d a imm s
  | .shrB h t wrap d a sh => Sys2Proof.Machine.execShrB h t wrap d a sh s
  | .shrI h t wrap d a imm => Sys2Proof.Machine.execShrI h t wrap d a imm s
  | .sarB h t wrap d a sh => Sys2Proof.Machine.execSarB h t wrap d a sh s
  | .sarI h t wrap d a imm => Sys2Proof.Machine.execSarI h t wrap d a imm s
  | .fshl h t d a b sh => Sys2Proof.Machine.execFshl h t d a b sh s
  | .fshr h t d a b sh => Sys2Proof.Machine.execFshr h t d a b sh s
  | .popc h t d a => Sys2Proof.Machine.execPopc h t d a s
  | .clz h t d a => Sys2Proof.Machine.execClz h t d a s
  | .ctz h t d a => Sys2Proof.Machine.execCtz h t d a s
  | .brev h t d a => Sys2Proof.Machine.execBrev h t d a s
  | .bfx h t d a pos len => Sys2Proof.Machine.execBfx h t d a pos len s
  | .bfi h t d a b ctl => Sys2Proof.Machine.execBfi h t d a b ctl s
  | .bpermB h d a sel => Sys2Proof.Machine.execBpermB h d a sel s
  | .bpermI h d a imm => Sys2Proof.Machine.execBpermI h d a imm s
  | .plut h pd pa pb pc tt => Sys2Proof.Machine.execPlut h pd pa pb pc tt s
  | .p2v h d => Sys2Proof.Machine.execP2v h d s
  | .v2p h a mask => Sys2Proof.Machine.execV2p h a mask s
  | .faddB h t r ftz d a b => Sys2Proof.Machine.execFaddB h t r ftz d a b s
  | .faddI h t r ftz d a imm => Sys2Proof.Machine.execFaddI h t r ftz d a imm s
  | .faddL h t r ftz d a imm => Sys2Proof.Machine.execFaddL h t r ftz d a imm s
  | .fsubB h t r ftz d a b => Sys2Proof.Machine.execFsubB h t r ftz d a b s
  | .fsubI h t r ftz d a imm => Sys2Proof.Machine.execFsubI h t r ftz d a imm s
  | .fsubL h t r ftz d a imm => Sys2Proof.Machine.execFsubL h t r ftz d a imm s
  | .fmulB h t r ftz d a b => Sys2Proof.Machine.execFmulB h t r ftz d a b s
  | .fmulI h t r ftz d a imm => Sys2Proof.Machine.execFmulI h t r ftz d a imm s
  | .fmulL h t r ftz d a imm => Sys2Proof.Machine.execFmulL h t r ftz d a imm s
  | .ffma h t r ftz d a b c => Sys2Proof.Machine.execFfma h t r ftz d a b c s
  | .fminB h t ftz d a b => Sys2Proof.Machine.execFminB h t ftz d a b s
  | .fminI h t ftz d a imm => Sys2Proof.Machine.execFminI h t ftz d a imm s
  | .fmaxB h t ftz d a b => Sys2Proof.Machine.execFmaxB h t ftz d a b s
  | .fmaxI h t ftz d a imm => Sys2Proof.Machine.execFmaxI h t ftz d a imm s
  | .fcmpB h t cond pd pc a b => Sys2Proof.Machine.execFcmpB h t cond pd pc a b s
  | .fcmpI h t cond pd pc a imm => Sys2Proof.Machine.execFcmpI h t cond pd pc a imm s
  | .fdivB h t r ftz d a b => Sys2Proof.Machine.execFdivB h t r ftz d a b s
  | .fdivI h t r ftz d a imm => Sys2Proof.Machine.execFdivI h t r ftz d a imm s
  | .fsqrt h t r ftz d a => Sys2Proof.Machine.execFsqrt h t r ftz d a s
  | .frcp h t r ftz cr d a => Sys2Proof.Machine.execFrcp h t r ftz cr d a s
  | .frsq h t ftz d a => Sys2Proof.Machine.execFrsq h t ftz d a s
  | .fex2 h t ftz d a => Sys2Proof.Machine.execFex2 h t ftz d a s
  | .flg2 h t ftz d a => Sys2Proof.Machine.execFlg2 h t ftz d a s
  | .fsin h t ftz d a => Sys2Proof.Machine.execFsin h t ftz d a s
  | .fcos h t ftz d a => Sys2Proof.Machine.execFcos h t ftz d a s
  | .frnd h t r ftz d a => Sys2Proof.Machine.execFrnd h t r ftz d a s
  | .fcvt h sf df r ftz sat d a => Sys2Proof.Machine.execFcvt h sf df r ftz sat d a s
  | .icvt h it df r d a => Sys2Proof.Machine.execIcvt h it df r d a s
  | .fcvi h it sf r ftz d a => Sys2Proof.Machine.execFcvi h it sf r ftz d a s
  | .fclass h t ftz d a => Sys2Proof.Machine.execFclass h t ftz d a s
  | .fscaleB h t r ftz d a b => Sys2Proof.Machine.execFscaleB h t r ftz d a b s
  | .fscaleI h t r ftz d a imm => Sys2Proof.Machine.execFscaleI h t r ftz d a imm s
  | .fdot2 h t r ftz d a b c => Sys2Proof.Machine.execFdot2 h t r ftz d a b c s
  | .bra h imm => Sys2Proof.Machine.execBra h imm s
  | .brx h a => Sys2Proof.Machine.execBrx h a s
  | .call h l imm => Sys2Proof.Machine.execCall h l imm s
  | .callx h l a => Sys2Proof.Machine.execCallx h l a s
  | .ret h a => Sys2Proof.Machine.execRet h a s
  | .meet h clr imm => Sys2Proof.Machine.execMeet h clr imm s
  | .exit h => Sys2Proof.Machine.execExit h s
  | .trapB h a => Sys2Proof.Machine.execTrapB h a s
  | .trapI h imm => Sys2Proof.Machine.execTrapI h imm s
  | .bkpt h => Sys2Proof.Machine.execBkpt h s
  | .yield h => Sys2Proof.Machine.execYield h s
  | .svc h sp nw d a => Sys2Proof.Machine.execSvc h sp nw d a s
  | .getsr h sel d => Sys2Proof.Machine.execGetsr h sel d s
  | .setsr h sel a => Sys2Proof.Machine.execSetsr h sel a s
  | .emret h m => Sys2Proof.Machine.execEmret h m s
  | .fence h ord scope => Sys2Proof.Machine.execFence h ord scope s
  | .napB h a => Sys2Proof.Machine.execNapB h a s
  | .napI h imm => Sys2Proof.Machine.execNapI h imm s
  | .ldM h m d => Sys2Proof.Machine.execLdM h m d s
  | .ldN h m rot d => Sys2Proof.Machine.execLdN h m rot d s
  | .stM h m d => Sys2Proof.Machine.execStM h m d s
  | .stN h m rot d => Sys2Proof.Machine.execStN h m rot d s
  | .ldc h m d => Sys2Proof.Machine.execLdc h m d s
  | .stc h m d => Sys2Proof.Machine.execStc h m d s
  | .pref h hint m => Sys2Proof.Machine.execPref h hint m s
  | .resid h hint m => Sys2Proof.Machine.execResid h hint m s
  | .cflush h op m => Sys2Proof.Machine.execCflush h op m s
  | .atom h m aop comb hold reassoc ar d a => Sys2Proof.Machine.execAtom h m aop comb hold reassoc ar d a s
  | .atomx h m ar d cmp nv => Sys2Proof.Machine.execAtomx h m ar d cmp nv s
  | .red h m aop comb hold reassoc a => Sys2Proof.Machine.execRed h m aop comb hold reassoc a s
  | .waitc h m cmp sgn d c => Sys2Proof.Machine.execWaitc h m cmp sgn d c s
  | .pwait h m len => Sys2Proof.Machine.execPwait h m len s
  | .bind h d so slot r => Sys2Proof.Machine.execBind h d so slot r s
  | .bindUn h d so slot => Sys2Proof.Machine.execBindUn h d so slot s
  | .acq h ex d so => Sys2Proof.Machine.execAcq h ex d so s
  | .rel h d so => Sys2Proof.Machine.execRel h d so s
  | .cget h f d c => Sys2Proof.Machine.execCget h f d c s
  | .csetaB h d c a => Sys2Proof.Machine.execCsetaB h d c a s
  | .csetaI h d c imm => Sys2Proof.Machine.execCsetaI h d c imm s
  | .csetaL h d c imm => Sys2Proof.Machine.execCsetaL h d c imm s
  | .cincB h d c a => Sys2Proof.Machine.execCincB h d c a s
  | .cincI h d c imm => Sys2Proof.Machine.execCincI h d c imm s
  | .cincL h d c imm => Sys2Proof.Machine.execCincL h d c imm s
  | .cbndB h exact d c len => Sys2Proof.Machine.execCbndB h exact d c len s
  | .cbndI h exact d c imm => Sys2Proof.Machine.execCbndI h exact d c imm s
  | .cbndL h exact d c imm => Sys2Proof.Machine.execCbndL h exact d c imm s
  | .candpB h d c m => Sys2Proof.Machine.execCandpB h d c m s
  | .candpI h d c imm => Sys2Proof.Machine.execCandpI h d c imm s
  | .cseal h d c sh => Sys2Proof.Machine.execCseal h d c sh s
  | .cunseal h d c sh => Sys2Proof.Machine.execCunseal h d c sh s
  | .ctest h cond pd c c2 => Sys2Proof.Machine.execCtest h cond pd c c2 s
  | .cmov h d c => Sys2Proof.Machine.execCmov h d c s
  | .cclr h d c => Sys2Proof.Machine.execCclr h d c s
  | .ceq h pd c c2 => Sys2Proof.Machine.execCeq h pd c c2 s
  | .objRetype h o => Sys2Proof.Machine.execObjRetype h o s
  | .objConfigUntypedReset h o => Sys2Proof.Machine.execObjConfigUntypedReset h o s
  | .objConfigEndpointMint h o => Sys2Proof.Machine.execObjConfigEndpointMint h o s
  | .objConfigSenderMask h o => Sys2Proof.Machine.execObjConfigSenderMask h o s
  | .objConfigNotificationMint h o => Sys2Proof.Machine.execObjConfigNotificationMint h o s
  | .objConfigSchedcontext h o => Sys2Proof.Machine.execObjConfigSchedcontext h o s
  | .objConfigOdt h o => Sys2Proof.Machine.execObjConfigOdt h o s
  | .objConfigHandler h o => Sys2Proof.Machine.execObjConfigHandler h o s
  | .objConfigFaultEndpoint h o => Sys2Proof.Machine.execObjConfigFaultEndpoint h o s
  | .objConfigServiceEndpoint h o => Sys2Proof.Machine.execObjConfigServiceEndpoint h o s
  | .objConfigSaveArea h o => Sys2Proof.Machine.execObjConfigSaveArea h o s
  | .objConfigAddressSpace h o => Sys2Proof.Machine.execObjConfigAddressSpace h o s
  | .objConfigFormatSlot h o => Sys2Proof.Machine.execObjConfigFormatSlot h o s
  | .objConfigWcAge h o => Sys2Proof.Machine.execObjConfigWcAge h o s
  | .objConfigWatchdog h o => Sys2Proof.Machine.execObjConfigWatchdog h o s
  | .objConfigKeyslot h o => Sys2Proof.Machine.execObjConfigKeyslot h o s
  | .objConfigLog h o => Sys2Proof.Machine.execObjConfigLog h o s
  | .objConfigSealAuthority h o => Sys2Proof.Machine.execObjConfigSealAuthority h o s
  | .objConfigQueuePair h o => Sys2Proof.Machine.execObjConfigQueuePair h o s
  | .objConfigQueueFile h o => Sys2Proof.Machine.execObjConfigQueueFile h o s
  | .objConfigCollGroup h o => Sys2Proof.Machine.execObjConfigCollGroup h o s
  | .objConfigCollPairKey h o => Sys2Proof.Machine.execObjConfigCollPairKey h o s
  | .objConfigFilemapSource h o => Sys2Proof.Machine.execObjConfigFilemapSource h o s
  | .objMap h o => Sys2Proof.Machine.execObjMap h o s
  | .objUnmap h o => Sys2Proof.Machine.execObjUnmap h o s
  | .objBind h o => Sys2Proof.Machine.execObjBind h o s
  | .objSuspend h o => Sys2Proof.Machine.execObjSuspend h o s
  | .objResume h o => Sys2Proof.Machine.execObjResume h o s
  | .objTeardown h o => Sys2Proof.Machine.execObjTeardown h o s
  | .objStatus h o => Sys2Proof.Machine.execObjStatus h o s
  | .objFreeze h o => Sys2Proof.Machine.execObjFreeze h o s
  | .objAttest h o => Sys2Proof.Machine.execObjAttest h o s
  | .faultactResume h o => Sys2Proof.Machine.execFaultactResume h o s
  | .faultactSkip h o => Sys2Proof.Machine.execFaultactSkip h o s
  | .faultactRetry h o => Sys2Proof.Machine.execFaultactRetry h o s
  | .faultactKill h o => Sys2Proof.Machine.execFaultactKill h o s
  | .faultactTeardown h o => Sys2Proof.Machine.execFaultactTeardown h o s
  | .faultactSave h o => Sys2Proof.Machine.execFaultactSave h o s
  | .send h m nb nbp => Sys2Proof.Machine.execSend h m nb nbp s
  | .recv h m nb nbp info rpl => Sys2Proof.Machine.execRecv h m nb nbp info rpl s
  | .ecall h m info rnw rnc => Sys2Proof.Machine.execEcall h m info rnw rnc s
  | .ereply h m => Sys2Proof.Machine.execEreply h m s
  | .signalB h d ntf bits => Sys2Proof.Machine.execSignalB h d ntf bits s
  | .signalI h d ntf imm => Sys2Proof.Machine.execSignalI h d ntf imm s
  | .waitn h nb d ntf wd => Sys2Proof.Machine.execWaitn h nb d ntf wd s
  | .revoke h d r q => Sys2Proof.Machine.execRevoke h d r q s
  | .exportMake h ps d x mask => Sys2Proof.Machine.execExportMake h ps d x mask s
  | .exportDrop h ps d x mask => Sys2Proof.Machine.execExportDrop h ps d x mask s
  | .qbind h role d q cq => Sys2Proof.Machine.execQbind h role d q cq s
  | .qbindUnb h d q => Sys2Proof.Machine.execQbindUnb h d q s
  | .shfl h mode w64 seg pv d a b c m => Sys2Proof.Machine.execShfl h mode w64 seg pv d a b c m s
  | .voteB h mode pd ps pneg d m => Sys2Proof.Machine.execVoteB h mode pd ps pneg d m s
  | .voteI h mode pd ps pneg d mask => Sys2Proof.Machine.execVoteI h mode pd ps pneg d mask s
  | .rdfirstB h w d a m => Sys2Proof.Machine.execRdfirstB h w d a m s
  | .rdfirstI h w d a mask => Sys2Proof.Machine.execRdfirstI h w d a mask s
  | .lrankB h sel d m => Sys2Proof.Machine.execLrankB h sel d m s
  | .lrankI h sel d mask => Sys2Proof.Machine.execLrankI h sel d mask s
  | .matchB h w64 d a m => Sys2Proof.Machine.execMatchB h w64 d a m s
  | .matchI h w64 d a mask => Sys2Proof.Machine.execMatchI h w64 d a mask s
  | .reduxB h op t d a m => Sys2Proof.Machine.execReduxB h op t d a m s
  | .reduxI h op t d a mask => Sys2Proof.Machine.execReduxI h op t d a mask s
  | .scanB h op t excl d a m => Sys2Proof.Machine.execScanB h op t excl d a m s
  | .scanI h op t excl d a mask => Sys2Proof.Machine.execScanI h op t excl d a mask s
  | .gatherB h d m => Sys2Proof.Machine.execGatherB h d m s
  | .gatherI h d mask => Sys2Proof.Machine.execGatherI h d mask s
  | .barB h mode bid n m => Sys2Proof.Machine.execBarB h mode bid n m s
  | .barI h mode bid n mask => Sys2Proof.Machine.execBarI h mode bid n mask s
  | .hbarB h mode bid n m => Sys2Proof.Machine.execHbarB h mode bid n m s
  | .hbarI h mode bid n mask => Sys2Proof.Machine.execHbarI h mode bid n mask s
  | .launch h sh lr args off => Sys2Proof.Machine.execLaunch h sh lr args off s
  | .launchOne h sh lr args off m => Sys2Proof.Machine.execLaunchOne h sh lr args off m s
  | .qfence h mask => Sys2Proof.Machine.execQfence h mask s
  | .mma h sr slot acc sb src init sc => Sys2Proof.Machine.execMma h sr slot acc sb src init sc s
  | .mwld h slot sb src => Sys2Proof.Machine.execMwld h slot sb src s
  | .mld h slot acc loc => Sys2Proof.Machine.execMld h slot acc loc s
  | .mst h df slot acc loc => Sys2Proof.Machine.execMst h df slot acc loc s
  | .mzero h tiles bufs => Sys2Proof.Machine.execMzero h tiles bufs s
  | .mrow h op slot acc d n c0 => Sys2Proof.Machine.execMrow h op slot acc d n c0 s
  | .mscale h slot acc sh n c0 => Sys2Proof.Machine.execMscale h slot acc sh n c0 s
  | .msave h m strm => Sys2Proof.Machine.execMsave h m strm s
  | .mload h m strm => Sys2Proof.Machine.execMload h m strm s
  | .mstat h sel idx d => Sys2Proof.Machine.execMstat h sel idx d s
  | .mcvt h slot accs accd dk => Sys2Proof.Machine.execMcvt h slot accs accd dk s
  | .tcopy h d blk q => Sys2Proof.Machine.execTcopy h d blk q s
  | .coll h op rop t d src dst q root count => Sys2Proof.Machine.execColl h op rop t d src dst q root count s
  | .unassignedOpcode h raw => Sys2Proof.Machine.execUnassignedOpcode h raw s
  | .longLatencyComplete gid tid pend which => Sys2Proof.Machine.execLongLatencyComplete gid tid pend which s
  | .napExpire gid tid => Sys2Proof.Machine.execNapExpire gid tid s
  | .gatherMismatchDetect gid clan => Sys2Proof.Machine.execGatherMismatchDetect gid clan s
  | .watchdogExpire gid tid => Sys2Proof.Machine.execWatchdogExpire gid tid s
  | .launchDequeue sched => Sys2Proof.Machine.execLaunchDequeue sched s
  | .unitPlace sched hamlet cores => Sys2Proof.Machine.execUnitPlace sched hamlet cores s
  | .startTimeReached uid => Sys2Proof.Machine.execStartTimeReached uid s
  | .budgetTick sched => Sys2Proof.Machine.execBudgetTick sched s
  | .periodRefill sched => Sys2Proof.Machine.execPeriodRefill sched s
  | .serviceCoreRotate core => Sys2Proof.Machine.execServiceCoreRotate core s
  | .odtChangeApply ctx core => Sys2Proof.Machine.execOdtChangeApply ctx core s
  | .groupSave uid => Sys2Proof.Machine.execGroupSave uid s
  | .saveSlotWrite uid => Sys2Proof.Machine.execSaveSlotWrite uid s
  | .groupRestore uid hamlet cores => Sys2Proof.Machine.execGroupRestore uid hamlet cores s
  | .queueBatchEnter queue => Sys2Proof.Machine.execQueueBatchEnter queue s
  | .carterTakeCopycmd queue => Sys2Proof.Machine.execCarterTakeCopycmd queue s
  | .carterElementWrite req => Sys2Proof.Machine.execCarterElementWrite req s
  | .carterCompletion req => Sys2Proof.Machine.execCarterCompletion req s
  | .wellReadComplete filemap page data sct sc => Sys2Proof.Machine.execWellReadComplete filemap page data sct sc s
  | .wellFetch queue => Sys2Proof.Machine.execWellFetch queue s
  | .wellWriteback queue => Sys2Proof.Machine.execWellWriteback queue s
  | .wellEvict queue => Sys2Proof.Machine.execWellEvict queue s
  | .wellFlush queue => Sys2Proof.Machine.execWellFlush queue s
  | .wellTrim queue => Sys2Proof.Machine.execWellTrim queue s
  | .wellNvmeComplete cmd sct sc => Sys2Proof.Machine.execWellNvmeComplete cmd sct sc s
  | .cisternArrive req => Sys2Proof.Machine.execCisternArrive req s
  | .cisternHoldExpire req => Sys2Proof.Machine.execCisternHoldExpire req s
  | .cisternSend req => Sys2Proof.Machine.execCisternSend req s
  | .atomicHomePerform req => Sys2Proof.Machine.execAtomicHomePerform req s
  | .cisternReplySplit req => Sys2Proof.Machine.execCisternReplySplit req s
  | .gleanerTakeEntry queue => Sys2Proof.Machine.execGleanerTakeEntry queue s
  | .sweepStart => Sys2Proof.Machine.execSweepStart s
  | .sweepEnd => Sys2Proof.Machine.execSweepEnd s
  | .remoteRequestArrive r => Sys2Proof.Machine.execRemoteRequestArrive r s
  | .remoteResponseTimeout req => Sys2Proof.Machine.execRemoteResponseTimeout req s
  | .wcAgeExpire core svc entry => Sys2Proof.Machine.execWcAgeExpire core svc entry s
  | .replWriteStamp => Sys2Proof.Machine.execReplWriteStamp s
  | .replReplicaApply die => Sys2Proof.Machine.execReplReplicaApply die s
  | .collRoundComplete queue others => Sys2Proof.Machine.execCollRoundComplete queue others s
  | .inboundPcieRead port addr len => Sys2Proof.Machine.execInboundPcieRead port addr len s
  | .inboundPcieWrite port addr data => Sys2Proof.Machine.execInboundPcieWrite port addr data s
  | .msiXInterrupt port vector => Sys2Proof.Machine.execMsiXInterrupt port vector s
  | .ioCompletionTimeout acc => Sys2Proof.Machine.execIoCompletionTimeout acc s
  | .fabricPacketReceive port prot authentic p => Sys2Proof.Machine.execFabricPacketReceive port prot authentic p s
  | .telemetrySample power rails temps hbm links => Sys2Proof.Machine.execTelemetrySample power rails temps hbm links s
  | .throttleStepDown => Sys2Proof.Machine.execThrottleStepDown s
  | .throttleStepUp => Sys2Proof.Machine.execThrottleStepUp s
  | .thermalLimit die => Sys2Proof.Machine.execThermalLimit die s
  | .trngHealthFail => Sys2Proof.Machine.execTrngHealthFail s
  | .fatalError src => Sys2Proof.Machine.execFatalError src s
  | .coldReset plan => Sys2Proof.Machine.execColdReset plan s
  | .warmReset plan => Sys2Proof.Machine.execWarmReset plan s
  | .sessionConnect port world authentic => Sys2Proof.Machine.execSessionConnect port world authentic s
  | .cert sess tag => Sys2Proof.Machine.execCert sess tag s
  | .context sess tag => Sys2Proof.Machine.execContext sess tag s
  | .load sess tag ctx frame off data => Sys2Proof.Machine.execLoad sess tag ctx frame off data s
  | .hostLaunch sess tag bytes handles => Sys2Proof.Machine.execHostLaunch sess tag bytes handles s
  | .copy sess tag queue ctx block => Sys2Proof.Machine.execCopy sess tag queue ctx block s
  | .read sess tag ctx frame off len => Sys2Proof.Machine.execRead sess tag ctx frame off len s
  | .subscribe sess tag ep => Sys2Proof.Machine.execSubscribe sess tag ep s
  | .attest sess tag ctx buf => Sys2Proof.Machine.execAttest sess tag ctx buf s
  | .hostReservedCommand sess tag code => Sys2Proof.Machine.execHostReservedCommand sess tag code s
  | .mgmtReadTelemetry i3c => Sys2Proof.Machine.execMgmtReadTelemetry i3c s
  | .mgmtReadAlmanac => Sys2Proof.Machine.execMgmtReadAlmanac s
  | .mgmtSetPowerCap watts => Sys2Proof.Machine.execMgmtSetPowerCap watts s
  | .mgmtStageFirmware version digest sigOk => Sys2Proof.Machine.execMgmtStageFirmware version digest sigOk s
  | .trngStartUpTestsPass => Sys2Proof.Machine.execTrngStartUpTestsPass s
  | .packageLeavesFabric pkg groups => Sys2Proof.Machine.execPackageLeavesFabric pkg groups s
  | .pcieLinkDown port => Sys2Proof.Machine.execPcieLinkDown port s

end Sys2Proof.Machine
end

