-- ==== Sys2Proof/Machine/Policy.lean ====
section
/-! DEFINITION. The model's own choices where no agenda is given (log entry 3): which issue, which step of an engine. Every order that the rules allow can be had by an agenda. -/

namespace Sys2Proof.Machine

/-! Issues. -/

/-- A gather of the clan that has formed and may go on with exactly these lanes: none that formed before it has yet to begin (R173), and no far atomic or remote read of a member is pending, so that each thread's accesses stay in program order. -/
def formedSet (s : State) (gid c : Nat) (lanes : List Nat) : Bool :=
  let gs := (s.clan gid c).gathers
  gs.any fun g => g.formed && g.waiting == laneMask lanes && (gs.all fun o => !o.formed || decide (g.seq ≤ o.seq)) &&
    lanes.all fun l => ((s.thr gid (c * 32 + l)).wait == .gather || (s.thr gid (c * 32 + l)).wait == .none) && !farPending s ⟨gid, c, l⟩ && !remoteReading s ⟨gid, c, l⟩

/-- The priority of a group's SchedContext (R214). -/
def prioOf (s : State) (gid : Nat) : Nat := ((s.sched? (s.grp gid).launch.sched).map Sched.prio).getD 0

/-! Engines. -/

/-- The n indices of the largest entries of a list, earlier ones first. -/
def largest (room : List Nat) (n : Nat) : List Nat :=
  let most := room.foldl max 0
  ((List.range (most + 1)).reverse.flatMap fun v => (room.zipIdx.filter fun r => r.1 == v).map (·.2)).take n

/-- Cores for the groups of a work on a hamlet: stage by stage, the stages with most groups first, the cores with most room. -/
def pickCores (s : State) (l : Launch) (hamlet : Nat) (gs : List (Nat × Nat)) : List Nat :=
  let stages := (gs.map (·.1)).eraseDups
  let size (st : Nat) : Nat := (gs.filter fun g => g.1 == st).length
  let room := (List.range 16).map fun c => groupRoom l stages.length (coreUse s (hamlet * 16 + c) fun _ => false)
  let order := (List.range 17).reverse.flatMap fun n => stages.filter fun st => size st == n
  let cores := (order.foldl (fun (acc : List Nat × List (Nat × List Nat)) st =>
    let cs := largest acc.1 (size st)
    (acc.1.zipIdx.map fun r => if cs.contains r.2 then r.1 - 1 else r.1, acc.2 ++ [(st, cs)])) (room, [])).2
  gs.zipIdx.map fun g =>
    let i := ((gs.take g.2).filter fun o => o.1 == g.1.1).length
    hamlet * 16 + (((Map.get? g.1.1 cores).getD [])[i]?.getD 0)

/-- A service core with the fewest groups. -/
def idleService (s : State) : Nat :=
  let load (c : Nat) : Nat := (s.groups.filter fun g => g.2.service && g.2.core == c && g.2.stat != .saved).length
  (List.range 32).foldl (fun b c => if load c < load b then c else b) 0

/-- Where the policy places the work at the head of a queue: a hamlet of the compute cores, and for a launch that they do not take, from a world below 4, a service core. -/
def placements (s : State) (h : Nat) : List (State → State) :=
  match workOf s h with
  | none => []
  | some w =>
    let sh := w.shape s
    let on := match firstFit s (fun _ => false) w with | some ham => [(ham, pickCores s sh.1 ham sh.2.2)] | none => []
    match w with
    | .fresh l _ =>
      let svc := if s.worldOf l.ctx < 4 then [(onService, [idleService s])] else []
      (on ++ svc).map fun p => fun (s : State) => unitPlace s h p.1 p.2
    | .saved u => (on ++ [(onService, [idleService s])]).map fun p => fun (s : State) => groupRestore s u p.1 p.2

/-- Steps of engines over threads and clans. -/
def threadSteps (s : State) : List (State → State) :=
  s.groups.flatMap fun g =>
    (g.2.threads.flatMap fun t =>
      [(completeLate · g.1 t.1 0 (BitVec.allOnes 16)), (napExpire · g.1 t.1), (watchdog · g.1 t.1)]) ++
      g.2.clans.map fun c => (gatherMismatch · g.1 c.1)

/-- Steps of the engines over objects: SchedContexts and queues of every kind. -/
def objectSteps (s : State) : List (State → State) :=
  s.objs.flatMap fun o =>
    match o.2.body with
    | .sched _ => [(periodRefill · o.1), (budgetTick · o.1), (dequeueLaunch · o.1)] ++ placements s o.1
    | .queue _ =>
      [(serveQueue · o.1), (takeCopycmd · o.1 none), (wellFetch · o.1), (wellWriteback · o.1), (wellEvict · o.1), (wellFlush · o.1),
        (wellTrim · o.1), (gleanerTake · o.1), (finishRound · o.1 [])]
    | _ => []

/-- Steps that the machine's own engines may take next, in the order the policy tries them; each is the meaning of an event row. What devices, the host, other packages and sensors do comes by the agenda alone. -/
def engineSteps (s : State) : List (State → State) :=
  threadSteps s ++
    (s.units.flatMap fun u => [(startUnit · u.1), (groupSave · u.1), (saveSlotWrite · u.1)]) ++
    (s.fars.flatMap fun f => [(farArrive · f.1), (farSend · f.1), (holdExpire · f.1), (homePerform · f.1), (splitFar · f.1)]) ++
    (s.copies.flatMap fun c => [(carterStep · c.1), (carterComplete · c.1)]) ++
    (s.odtLag.map fun c => (applyOdt · c.1 c.2.1)) ++
    objectSteps s ++
    (s.wc.flatMap fun b => b.2.zipIdx.map fun e => (wcExpire · (b.1 % 1536) (decide (1536 ≤ b.1)) e.2)) ++
    [drainInbound, answerAcks, sweepStart, sweepEnd, replStamp] ++ (List.range 7).map fun d => (replApply · d)

/-- The engines' next step: the first that changes something. -/
def engineStep (s : State) : Option State := (engineSteps s).findSome? fun f => let t := f s; if t = s then none else some t

end Sys2Proof.Machine
end

