-- ==== Sys2Proof/Machine/Schedule.lean ====
section
/-! DEFINITION. How the machine moves: the fate of an encoding (R55-R57), and the model's own choice of who moves next (log entry 3). -/

namespace Sys2Proof.Machine

/-! Fate. -/

/-- The lowest reason that the core and the thread's state give an encoding that its word alone allows (R392). -/
def contextReason (s : State) (x : Cx) (i : Instr) (op : Nat) (u : Bool) : Nat :=
  let g := s.grp x.gid
  let t := s.thr x.gid x.tid
  let disabled := if g.service ∧ 0x300 ≤ op ∧ op ≤ 0x30A then 2 else 0
  let em := if t.edepth = 0 then (if op = 0x10C then 7 else if op = 0x10D then 8 else 0) else 0
  minReason disabled (minReason (i.operandReason u t.edepth g.regs) (minReason em (slotReason s x i)))

/-- For an encoding illegal by its word: the lower reasons that the core and the thread's state give its fields (R392). An instruction that its fields name whole is judged whole; a word with one reserved modifier value by what every legal value in its place gives, and by its registers alone where there is none. -/
def rawReason (s : State) (x : Cx) (r : Raw) : Nat :=
  let g := s.grp x.gid
  let t := s.thr x.gid x.tid
  let u := r.hdr.u
  let disabled := if g.service ∧ 0x300 ≤ r.op ∧ r.op ≤ 0x30A then 2 else 0
  let w := if t.edepth = 0 ∧ r.regFields.any (fun c => decide (0x350 ≤ c) && decide (c < 0x360)) then 4 else 0
  let v := if r.regFields.any (fun c => decide (g.regs ≤ c) && decide (c < 0x300)) then 5 else 0
  let whole :=
    match hasForm r.op r.len, parse r with
    | true, some i => contextReason s x i r.op u
    | true, none =>
      match (repairs r).map fun i => contextReason s x i r.op u with
      | n :: ns => if (n :: ns).all (· != 0) then ns.foldl max n else 0
      | [] =>
        match described r with
        | some i => let n := contextReason s x i r.op u; if n ≤ 5 then n else 0
        | none => 0
    | _, _ => 0
  minReason disabled (minReason w (minReason v whole))

/-- R49: instructions that close a lookahead window. -/
def closes (i : Instr) (op : Nat) (mod : Nat) : Bool :=
  (match i with | .bra .. => false | _ => true) &&
    (op / 128 == 2 || op / 128 == 5 || op / 128 == 6 || gathersOp op mod)

/-- OBJ .config and .faultact name their row by the object's type and word 0 (R349, R350). -/
def refine (s : State) (x : Cx) (i : Instr) : Instr :=
  match i with
  | .objConfigUntypedReset h o =>
    let w := if o.narg.val = 0 then 0 else (rd32 s x o.args).toNat
    match (rdCap s x o.obj).otype with
    | 1 => if w = 1 then .objConfigSenderMask h o else .objConfigEndpointMint h o
    | 2 => .objConfigNotificationMint h o
    | 3 => .objConfigSchedcontext h o
    | 6 =>
      match w with
      | 0 => .objConfigOdt h o
      | 1 => .objConfigHandler h o
      | 2 => .objConfigFaultEndpoint h o
      | 3 => .objConfigServiceEndpoint h o
      | 4 => .objConfigSaveArea h o
      | 5 => .objConfigAddressSpace h o
      | 6 => .objConfigFormatSlot h o
      | 7 => .objConfigWcAge h o
      | 8 => .objConfigWatchdog h o
      | 9 => .objConfigKeyslot h o
      | 10 => .objConfigLog h o
      | 11 => .objConfigSealAuthority h o
      | _ => i
    | 10 => .objConfigFilemapSource h o
    | 11 =>
      match w with
      | 0 => .objConfigQueuePair h o
      | 1 => .objConfigQueueFile h o
      | 2 => .objConfigCollGroup h o
      | 3 => .objConfigCollPairKey h o
      | _ => i
    | _ => i
  | .faultactResume h o =>
    match (if o.narg.val = 0 then 0 else (rd32 s x o.args).toNat) with
    | 1 => .faultactSkip h o
    | 2 => .faultactRetry h o
    | 3 => .faultactKill h o
    | 4 => .faultactTeardown h o
    | 5 => .faultactSave h o
    | _ => i
  | i => i

/-- What an issue does once its word is known (R57). -/
inductive Fate where
  | skip
  | native (i : Instr)
  | other (h : Hdr) (odt reason : Nat)
  deriving DecidableEq, Repr

/-- The lane whose state decides the fate of an issue: the lowest with a true guard; where no guard is true, the lowest that waits in a gather that is pending at the instruction, which the others pass as excluded (R172). -/
def fateLane (s : State) (c : Cur) (r : Raw) : Option Nat :=
  match c.lanes.filter fun l => c.gathered || (s.thr c.gid (c.clan * 32 + l)).guard r.hdr with
  | l :: _ => some l
  | [] =>
    if gathersOp r.op r.mod then
      ((s.clan c.gid c.clan).gathers.find? fun g => g.pc == c.pc && !g.formed).bind fun g => (maskLanes g.waiting).head?
    else none

def fateOf (s : State) (c : Cur) : Fate :=
  let r := Raw.ofWord c.raw.toNat
  let h := r.hdr
  match fateLane s c r with
  | none => .skip
  | some l =>
    let x : Cx := ⟨c.gid, c.clan, l⟩
    -- the entry of EMRET is not consulted inside the handler (R397)
    let odt := if r.op = 0x10D ∧ 1 ≤ (s.thr x.gid x.tid).edepth then 0 else odtEntry s c.gid r.op
    let reason :=
      match decodeWord c.raw.toNat with
      | .ok i => if i.isUnassigned then 1 else contextReason s x i r.op h.u
      | .illegal n => minReason n (rawReason s x r)
      | .badLength => 3
    match decodeWord c.raw.toNat with
    | .ok i => if odt = 0 ∧ reason = 0 then .native (refine s x i) else .other h odt reason
    | _ => .other h odt reason

/-- A word that closes windows whatever its guards are (R49). -/
def wordCloses (raw : BitVec 128) : Bool :=
  let r := Raw.ofWord raw.toNat
  match decodeWord raw.toNat with
  | .ok i => closes i r.op r.mod
  | _ => r.op / 128 == 2 || r.op / 128 == 5 || r.op / 128 == 6 || gathersOp r.op r.mod

def Fate.closing (c : Cur) : Fate → Bool
  | .other .. => true
  | _ => wordCloses c.raw

/-- A thread whose next instruction waits for a long-latency instruction of its own (R49, R167). -/
def waitsLong (s : State) (gid c l : Nat) : Bool :=
  let x : Cx := ⟨gid, c, l⟩
  (s.thr gid x.tid).pend.any (fun p => p.src.pending) &&
    match fetch s x with
    | .ok raw foot =>
      let cur : Cur := ⟨gid, c, [l], BitVec.ofNat 64 (s.thr gid x.tid).pcc.addr, raw, foot, false, 0, false⟩
      stillDue s x ((fateOf s cur).closing cur)
    | _ => stillDue s x false

/-- A ready thread (R167). -/
def isReady (s : State) (gid c l : Nat) : Bool := canIssue s gid c l && !waitsLong s gid c l

/-- The issue leaves the machine. -/
def endIssue (s : State) (gid c : Nat) : State := settleMeet { s with cur := none } gid c

def finish (o : Host.Outcome State Fault Refusal) (gid c : Nat) : Host.Outcome State Fault Refusal :=
  match o with
  | .next s => .next (endIssue s gid c)
  | .fault f => .fault f
  | .refused r => .refused r

/-- An instruction that touches memory, queues, objects or other threads: it follows its thread's pending far atomics. -/
def touches (i : Instr) (op : Nat) : Bool :=
  decide (0x180 ≤ op) ||
    match i with
    | .movPush .. | .movPop .. | .svc .. | .exit _ => true
    | _ => false

/-- An instruction that only reads memory. -/
def loadsOnly : Instr → Bool
  | .ldM .. | .ldN .. | .ldc .. => true
  | _ => false

/-- The lanes of an issue that an access of their own holds: a pending far atomic, a remote access with acquire ordering, and for anything but a load a remote read whose value is open (R252, R253). -/
def heldByFar (s : State) (c : Cur) : List Nat :=
  match fateOf s c with
  | .native i =>
    if !c.gathered && touches i (Raw.ofWord c.raw.toNat).op then
      c.lanes.filter fun l =>
        let x : Cx := ⟨c.gid, c.clan, l⟩
        farPending s x || remoteAcquire s x || (!loadsOnly i && remoteReading s x)
    else []
  | _ => []

/-- An issue of threads at one PC with one program-counter capability, whose word has been fetched. -/
def runIssue (s : State) (c : Cur) : Host.Outcome State Fault Refusal :=
  match fateOf s c with
  | .skip => .next (endIssue (c.lanes.foldl (fun s l => advance s ⟨c.gid, c.clan, l⟩ c.foot) s) c.gid c.clan)
  | .native i => finish (exec i { s with cur := some c }) c.gid c.clan
  | .other h odt reason =>
    let r := Raw.ofWord c.raw.toNat
    let lanes := c.lanes.filter fun l => c.gathered || (s.thr c.gid (c.clan * 32 + l)).guard h
    .next (endIssue (dispose { s with cur := some c } c h r lanes odt reason) c.gid c.clan)

/-- The threads of a choice that issue together: ready, at the PC of the first, with its program-counter capability and handler instance. -/
def chooseLanes (s : State) (gid c : Nat) (lanes : List Nat) : List Nat :=
  match lanes.filter (isReady s gid c) with
  | [] => []
  | l :: ls =>
    let t := s.thr gid (c * 32 + l)
    (List.range 32).filter fun u =>
      (u == l || ls.contains u) &&
        (let o := s.thr gid (c * 32 + u); o.pcc == t.pcc && o.edepth == t.edepth && o.emask == t.emask)

/-- Threads enter an issue; one that was held in an instruction is in the issue that it was in (R166). -/
def enterIssue (s : State) (no gid c : Nat) (lanes : List Nat) : State :=
  lanes.foldl (fun s l => s.modThr gid (c * 32 + l) fun t => { t with issue := if t.going then t.issue else no, going := true }) s

/-- Fetches for a set of lanes and runs the issue of a number; `halt`: a fault of another issue of the cycle stops the group (R373). -/
def issueLanes (s : State) (no : Nat) (halt : Bool) (gid c : Nat) (lanes : List Nat) (gathered : Bool) : Host.Outcome State Fault Refusal :=
  match lanes with
  | [] => .next s
  | l :: _ =>
    let x : Cx := ⟨gid, c, l⟩
    let pc := BitVec.ofNat 64 (s.thr gid x.tid).pcc.addr
    let m := laneMask lanes
    match fetch s x with
    | .fault f insn noins => .next (raise s gid c m m pc insn noins false f)
    | .absent f p => .next (demandPage (lanes.foldl (fun s l => park s ⟨gid, c, l⟩ (.file f p)) s) f p)
    | .ok raw foot =>
      let cur : Cur := ⟨gid, c, lanes, pc, raw, foot, gathered, no, halt⟩
      let closing := (fateOf s cur).closing cur
      let lates := lanes.filterMap fun l => (lateFault s ⟨gid, c, l⟩ closing).map fun p => (l, p)
      match lates with
      | (l, p) :: _ => .next (raiseLate s ⟨gid, c, l⟩ p)
      | [] =>
        let go := lanes.filter fun l => !stillDue s ⟨gid, c, l⟩ closing
        let s1 := go.foldl (fun s l => landDue s ⟨gid, c, l⟩ closing) s
        match go with
        | [] => .next s1
        | _ =>
          let s2 := s1.modClan gid c fun k => { k with lead := l }
          let held := heldByFar s2 { cur with lanes := go }
          let s3 := held.foldl (fun s l => park s ⟨gid, c, l⟩ .fence) s2
          match go.filter fun l => !held.contains l with
          | [] => .next s3
          | on => runIssue (if gathered then s3 else enterIssue s3 no gid c on) { cur with lanes := on }

/-! Who may issue. -/

/-- The threads of a clan that the bundler rotates among, and how often each has been passed (R167): an issue at one address passes the ready threads at the others. -/
def countPassed (s : State) (gid c : Nat) (lanes : List Nat) : State :=
  let pc := (s.thr gid (c * 32 + lanes.headD 0)).pcc.addr
  (List.range 32).foldl (fun st l =>
    let t := s.thr gid (c * 32 + l)
    let n := if lanes.contains l || !isReady s gid c l then 0 else if t.pcc.addr == pc then t.passed else t.passed + 1
    if n = t.passed then st else st.modThr gid (c * 32 + l) fun t => { t with passed := n }) s

/-- An issue that leaves no ready thread of its clan waiting for more than 32 issues at other addresses (R167): near the bound, those that have waited longest go first. -/
def fairPick (s : State) (gid c : Nat) (lanes : List Nat) : Bool :=
  let passed (l : Nat) : Nat := (s.thr gid (c * 32 + l)).passed
  let pc := (s.thr gid (c * 32 + lanes.headD 0)).pcc.addr
  let ready := (List.range 32).filter (isReady s gid c)
  let most := (lanes.map passed).foldl max 0
  ready.all fun l => (s.thr gid (c * 32 + l)).pcc.addr == pc || decide (passed l + ready.length ≤ 32) || decide (passed l ≤ most)

/-- A clan with something to issue: a ready thread, or a gather that has formed. -/
def clanReady (s : State) (gid c : Nat) : Bool :=
  groupRuns s gid &&
    ((s.clan gid c).gathers.any (fun g => formedSet s gid c (maskLanes g.waiting)) || (List.range 32).any (isReady (settleMeet s gid c) gid c))

/-- Two clans that share a bundler: of one partition, or of one service core (R214, R216). -/
def sameBundler (s : State) (gid c k d : Nat) : Bool :=
  let g := s.grp gid
  let o := s.grp k
  g.service == o.service && g.core == o.core && (g.service || (s.clan gid c).part == (s.clan k d).part)

/-- The clan that the bundler chooses (R214, R216): one with something to issue, while no other of its partition has it with a higher PRIO, or with the same and has waited longer. -/
def mayLead (s : State) (gid c : Nat) : Bool :=
  clanReady s gid c && s.groups.all fun o => o.2.clans.all fun k =>
    (o.1 == gid && k.1 == c) || !sameBundler s gid c o.1 k.1 ||
      !(decide (prioOf s gid < prioOf s o.1) || (prioOf s gid == prioOf s o.1 && decide (k.2.age < (s.clan gid c).age))) || !clanReady s o.1 k.1

/-- A clan that issues takes a new number, and goes to the end of its partition's rotation (R214); on a service core the rotation moves by time and YIELD (R216). -/
def rotateClan (s : State) (gid c : Nat) : State :=
  let (n, s1) := s.newId
  if (s.grp gid).service then s1 else s1.modClan gid c fun k => { k with age := n }

/-- An access that used a page has been performed: one that waits for a frame may have it (R338). -/
def freePages (used : Bool) (o : Host.Outcome State Fault Refusal) : Host.Outcome State Fault Refusal :=
  match o with
  | .next s => .next (if used then retryPages s else s)
  | o => o

/-- A thread of a clan has yet to use a page that it waited for. -/
def usesPage (s : State) (gid c : Nat) : Bool := (List.range 32).any fun l => (s.thr gid (c * 32 + l)).paged.isSome

/-- An issue of threads of one clan: a gather that has formed, or ready threads at one address (R166, R167); the clan takes its turn only when one is made. -/
def issueClan (s : State) (no : Nat) (halt : Bool) (gid c : Nat) (lanes : List Nat) : Host.Outcome State Fault Refusal :=
  let s1 := settleMeet s gid c
  let formed := formedSet s1 gid c lanes
  let on := if formed then lanes else chooseLanes s1 gid c lanes
  freePages (usesPage s1 gid c)
    (if !on.isEmpty && fairPick s1 gid c on then issueLanes (rotateClan (countPassed s1 gid c on) gid c) no halt gid c on formed else .next s1)

/-- An issue of the clan that its bundler chooses. -/
def issueStep (s : State) (gid c : Nat) (lanes : List Nat) : Host.Outcome State Fault Refusal :=
  if groupRuns s gid && mayLead s gid c then issueClan s s.nextId false gid c lanes else .next s

/-- Issues one after another, under one number. -/
def issueAll (no : Nat) (s : State) (ps : List (Nat × Nat × List Nat)) : Host.Outcome State Fault Refusal :=
  ps.foldl (fun o p => match o with | .next st => issueClan st no false p.1 p.2.1 p.2.2 | o => o) (.next s)

/-- Whether an issue of a clan raises a fault. -/
def faults (s : State) (p : Nat × Nat × List Nat) : Bool :=
  let ctx := (s.grp p.1).ctx
  match issueClan s s.nextId false p.1 p.2.1 p.2.2 with
  | .next t => (t.ctx? ctx).map ContextObj.nextFid != (s.ctx? ctx).map ContextObj.nextFid
  | _ => false

/-! Issues that mix clans (R166). -/

/-- A part of a mixed issue: group, clan, the lanes of it that may issue together. -/
def partOf (s : State) (p : Nat × Nat × List Nat) : Nat × Nat × List Nat := (p.1, p.2.1, chooseLanes (settleMeet s p.1 p.2.1) p.1 p.2.1 p.2.2)

/-- Parts that may issue together: of one partition, at one address with one word, in ascending home lane, at most one thread a lane; one of them is of the clan that the bundler chooses. -/
def mixes (s : State) (ps : List (Nat × Nat × List Nat)) : Bool :=
  match ps with
  | [] => false
  | p :: _ =>
    let at_ (q : Nat × Nat × List Nat) : Nat × BitVec 128 :=
      let x : Cx := ⟨q.1, q.2.1, q.2.2.headD 0⟩
      ((s.thr x.gid x.tid).pcc.addr, (wordAt s x).1)
    ps.all (fun q => groupRuns s q.1 && !q.2.2.isEmpty && sameBundler s p.1 p.2.1 q.1 q.2.1 && at_ q == at_ p) &&
      decide ((ps.flatMap fun q => q.2.2).Pairwise (· < ·)) && ps.any fun q => mayLead s q.1 q.2.1

/-- A mixed issue: when threads of it fault, nothing is written for any other (R8), and each clan that has some has its record (R374); else every part is performed, in ascending home lane. -/
def mixedStep (s : State) (parts : List (Nat × Nat × List Nat)) : Host.Outcome State Fault Refusal :=
  let ps := parts.map (partOf s)
  if mixes s ps then
    match ps.filter (faults s) with
    | [] => issueAll s.nextId s ps
    | bad => issueAll s.nextId s bad
  else .next s

/-- The issues of one cycle, of partitions that differ, each by the clan that its bundler chooses. Two of one group that fault have their two records (R374); where one faults, another of its group stops as the fault stops it (R289, R373). -/
def cycleStep (s : State) (parts : List (Nat × Nat × List Nat)) : Host.Outcome State Fault Refusal :=
  let ps := parts.filter fun p => groupRuns s p.1 && mayLead s p.1 p.2.1
  if ps.Pairwise fun p q => sameBundler s p.1 p.2.1 q.1 q.2.1 = false then
    let bad := ps.filter (faults s)
    ps.foldl (fun o p =>
      match o with
      | .next st => issueClan st st.nextId (!bad.contains p && bad.any fun q => q.1 == p.1) p.1 p.2.1 p.2.2
      | o => o) (.next s)
  else .next s

/-! The policy's issues. -/

/-- The issues that could be made: group, clan, lanes. Of the ready threads of a clan the one that has been passed most often leads (R167). -/
def runnable (s : State) : List (Nat × Nat × List Nat) :=
  s.groups.flatMap fun g =>
    if !groupRuns s g.1 then []
    else g.2.clans.flatMap fun c =>
      let s1 := settleMeet s g.1 c.1
      let formed := (c.2.gathers.filter fun q => let ls := maskLanes q.waiting; formedSet s1 g.1 c.1 ls && fairPick s1 g.1 c.1 ls).map fun q => (g.1, c.1, maskLanes q.waiting)
      let order := ((List.range 32).map fun i => (c.2.lead + 1 + i) % 32).filter (isReady s1 g.1 c.1)
      let passed (l : Nat) : Nat := (s1.thr g.1 (c.1 * 32 + l)).passed
      formed ++
        match order.find? fun l => order.all fun u => decide (passed u ≤ passed l) with
        | some l => [(g.1, c.1, l :: (List.range 32).filter (· != l))]
        | none => []

/-- The issue that the model's own policy chooses: highest priority, then the clan that has waited longest (R214). -/
def bestIssue (s : State) : Option (Nat × Nat × List Nat) :=
  (runnable s).foldl (fun best r =>
    match best with
    | none => some r
    | some b =>
      let pb := prioOf s b.1
      let pr := prioOf s r.1
      if pb < pr ∨ (pb = pr ∧ (s.clan r.1 r.2.1).age < (s.clan b.1 b.2.1).age) then some r else best) none

/-! Choices. -/

/-- Meeting holds as they stand at this time (R168, R380). -/
def settleAll (s : State) : State :=
  s.groups.foldl (fun st g => if groupRuns s g.1 then g.2.clans.foldl (fun st c => settleMeet st g.1 c.1) st else st) s

/-- One tick of time (R12): the clocks of the C-dies at their steps, the service cores at 2.4 GHz. -/
def tick (s0 : State) (ns : Nat) : State :=
  let s := countBudgets (settleAll s0) ns
  { s with
    time := s.time + ns
    clk := (List.range 6).foldl (fun m d => SMap.put 0 d (SMap.get 0 d m + ns * (800 - 50 * SMap.get 0 d s.power.step)) m)
      (SMap.put 0 6 (SMap.get 0 6 s.clk + 2400 * ns) s.clk) }

/-- What the world outside does to memory: an uncorrectable or corrected error (R234). -/
def eccEvent (s : State) (c : Choice) : State :=
  match c with
  | .eccDouble pa => eccDouble s pa
  | .eccPad gid off => s.modGrp gid fun g => { g with secc := SMap.put false (off / 32) true g.secc }
  | .eccLane gid tid off => s.modThr gid tid fun t => { t with sliceEcc := SMap.put false (off / 32) true t.sliceEcc }
  | .eccCorrected die => { s with power := { s.power with ecc := SMap.put 0 die (SMap.get 0 die s.power.ecc + 1) s.power.ecc } }
  | _ => s

/-- A device answers a read; bytes that it does not give are free (log entry 9). -/
def ioAnswer (s : State) (acc : Nat) (data : Option (List Byte)) : State :=
  match Map.get? acc s.ios with
  | none => s
  | some q =>
    let (k, s1) := s.draw
    ioDeliver s1 acc ((List.range q.n).map fun j => ((data.getD [])[j]?).getD (Config.deviceByte k j))

/-- One move. An event row runs through `exec`; an issue through its word. -/
def move (s : State) (ch : Choice) : Host.Outcome State Fault Refusal :=
  match ch with
  | .event i => if i.isEvent then exec i { s with cur := none } else .next s
  | .issue gid c lanes => issueStep s gid c lanes
  | .mixed parts => mixedStep s parts
  | .cycle parts => cycleStep s parts
  | .ioAnswer acc data => .next (ioAnswer s acc data)
  | .tick ns => .next (tick s ns)
  | .sessionEnd sess => .next (sessionEnd s sess)
  | .operator authentic => .next (operatorOpen s authentic)
  | .operatorEnd => .next (operatorEnd s)
  | .hostRetry sess => .next (hostRetry s sess)
  | ch => .next (eccEvent s ch)

/-- The issue of the policy. -/
def policyIssue (s : State) : Option (Host.Outcome State Fault Refusal) := (bestIssue s).map fun r => issueStep s r.1 r.2.1 r.2.2

/-- A step of the machine's own: an answer to a device read, or a step of an engine. -/
def policyEngine (s : State) : Option (Host.Outcome State Fault Refusal) :=
  match s.ios with
  | a :: _ => some (.next (ioAnswer s a.1 none))
  | [] =>
    match s.attests.find? fun a => (Map.get? a.1 (hostRetry s a.1).attests).isNone with
    | some a => some (.next (hostRetry s a.1))
    | none => (engineStep s).map .next

/-- A move of the model's own policy: threads, engines and time in turn. -/
def policyMove (s : State) : Host.Outcome State Fault Refusal :=
  let s1 := { s with turn := s.turn + 1 }
  let o :=
    match s.turn % 3 with
    | 0 => policyIssue s1 <|> policyEngine s1
    | 1 => policyEngine s1 <|> policyIssue s1
    | _ => none
  o.getD (.next (tick s1 1))

/-- The agenda's first choice, or a move of the model's own policy. -/
def stepOnce (s : State) : Host.Outcome State Fault Refusal :=
  match s.agenda with
  | c :: rest => move { s with agenda := rest } c
  | [] => policyMove s

end Sys2Proof.Machine
end

