-- ==== Sys2Proof/Machine/Step.lean ====
section
/-! DEFINITION. The step, and a state whose next step runs a given instruction. -/

namespace Sys2Proof.Machine

/-- One step: the next choice of the agenda, or of the model's own policy, is made. -/
def step (s : State) : Host.Outcome State Fault Refusal := stepOnce s

/-- The state with an instruction stored where the next step fetches. -/
def State.withFetchWord (s : State) (nbits w : Nat) : State := probe s (bytesOf (w % 2 ^ nbits) 16)

end Sys2Proof.Machine
end

