-- ==== Sys2Proof/Safety.lean ====
section
/-! DEFINITION. What counts as a safe run, and the words that claims are stated in: who performs an issue, what every thread of an issue holds afterwards, the canonical form of memory. -/

namespace Sys2Proof.Machine

/-! Runs. -/

/-- A run is safe as far as it is followed: every one of its steps answers a next state. -/
def SafeFor (n : Nat) (s : State) : Prop := ∃ t, Sys2Proof.core.run n s = .next t

/-! Memory. -/

/-- The canonical form of physical memory, its tags and its ECC marks: addresses strictly rising, and no entry equal to what an unlisted address reads as. -/
def Memory.wf (s : State) : Bool := SMap.wf 0 s.mem && SMap.wf false s.tags && SMap.wf false s.ecc

/-- One byte of physical memory. -/
def byteAt (s : State) (a : Nat) : Byte := SMap.get 0 a s.mem

/-! Who performs an issue. -/

/-- The thread is one of its group's. -/
def Present (s : State) (x : Cx) : Prop := (Map.get? x.tid (s.grp x.gid).threads).isSome

/-- The issue in progress is of one thread, and its guard holds. -/
def Solo (s : State) (h : Hdr) (a : Actor) : Prop :=
  ∃ c, s.cur = some c ∧ c.lanes = [a.cx.lane] ∧ a = ⟨⟨c.gid, c.clan, a.cx.lane⟩, [a.cx.lane], false, none⟩ ∧
    (s.thr a.cx.gid a.cx.tid).guard h = true

/-- The issue in progress is of a gathered set that has formed, no REPL write of its members waits for another package's stamp (R430), and the uniform registers stand as they were when it formed (R173; `sources` says what a set reads where they do not); `s0` is the state in which the set acts once. -/
def Formed (s s0 : State) (a : Actor) : Prop :=
  ∃ c g, s.cur = some c ∧ c.gathered = true ∧
    (s.clan c.gid c.clan).gathers.find? (fun g => g.formed && g.pc == c.pc && g.waiting == laneMask c.lanes) = some g ∧
    a = setActor c g ∧
    s0 = joined (s.modClan c.gid c.clan fun cl => { cl with gathers := cl.gathers.erase g }) a ∧
    edgeHeld s0 a = false ∧ sources s0 c g = s0

/-- Who performs an instruction that may carry U = 1 (R48): one thread, or a formed set. `s0` is the state it acts in. -/
def Performs (s : State) (h : Hdr) (s0 : State) (a : Actor) : Prop :=
  (h.u = false ∧ Solo s h a ∧ s0 = s) ∨ (h.u = true ∧ Formed s s0 a)

/-- A formed set that the instruction finds complete (R174), or any formed set where the instruction takes partial ones. -/
def Gathers (full : Bool) (s s0 : State) (a : Actor) : Prop :=
  Formed s s0 a ∧ (full = false ∨ ∃ c g, s.cur = some c ∧ a = setActor c g ∧ partialMask s0 c g = false)

/-! What every thread of an issue holds afterwards. -/

/-- One write to a thread's own registers. -/
def RegWrite.onThread (w : RegWrite) (t : Thread) : Thread :=
  match w with
  | .w (.v n) a => { t with v := SMap.put 0 n.val a t.v }
  | .w (.w _) a => { t with pix := a }
  | .c (.c n) a => { t with c := SMap.put Cap.null n.val a t.c }
  | .p i b => if i.val = 7 then t else { t with p := if b then t.p ||| (1#7 <<< i.val) else t.p &&& ~~~(1#7 <<< i.val) }
  | _ => t

/-- A write that reaches only the thread. -/
def RegWrite.isOwn (w : RegWrite) : Bool :=
  match w with
  | .w (.v _) _ | .w (.w _) _ | .c (.c _) _ | .p _ _ => true
  | _ => false

/-- Several writes, in their order. -/
def putAll (ws : List RegWrite) (t : Thread) : Thread := ws.foldl (fun t w => w.onThread t) t

/-- An issue in progress: different lanes, each a thread of the group. -/
def Issues (s : State) (c : Cur) : Prop :=
  s.cur = some c ∧ c.lanes.Nodup ∧ ∀ l ∈ c.lanes, Present s ⟨c.gid, c.clan, l⟩

/-- After an issue that does `F` to every thread whose guard holds: those threads are as `F` says, the others of the issue stand at the next instruction with nothing written, and nothing else of the machine has changed. -/
def EachThread (s t : State) (c : Cur) (h : Hdr) (F : Cx → Thread → Thread) : Prop :=
  (∀ l ∈ c.lanes, (t.thr c.gid (c.clan * 32 + l)) =
    if (s.thr c.gid (c.clan * 32 + l)).guard h then F ⟨c.gid, c.clan, l⟩ (s.thr c.gid (c.clan * 32 + l))
    else (s.thr c.gid (c.clan * 32 + l)).advance c.foot) ∧
  (∀ g u, (g ≠ c.gid ∨ ∀ l ∈ c.lanes, u ≠ c.clan * 32 + l) → t.thr g u = s.thr g u) ∧
  (∀ g, { t.grp g with threads := (s.grp g).threads } = s.grp g) ∧
  { t with groups := s.groups } = s

/-- After an issue that computes `ws` for every thread whose guard holds: those threads have the results and stand at the next instruction. -/
def EachLane (s t : State) (c : Cur) (h : Hdr) (ws : Cx → List RegWrite) : Prop :=
  EachThread s t c h fun x q => (putAll (ws x) q).advance c.foot

/-- The machine after every thread of an issue whose guard holds has written its results `ws` and gone on, the lowest lane first (R177); the others of the issue have gone on. -/
def inLaneOrder (s : State) (c : Cur) (h : Hdr) (ws : Cx → List RegWrite) : State :=
  let on (l : Nat) : Bool := (s.thr c.gid (c.clan * 32 + l)).guard h
  (c.lanes.filter on).foldl (fun s l => retire s ⟨⟨c.gid, c.clan, l⟩, [l], false, none⟩ (ws ⟨c.gid, c.clan, l⟩))
    ((c.lanes.filter fun l => !on l).foldl (fun s l => advance s ⟨c.gid, c.clan, l⟩ c.foot) s)

/-- An instruction completes with the results `ws`, computed from `s`: with U = 0 for every thread of the issue whose guard holds, in lane order, and where those are registers of its own each thread has exactly its results; with U = 1 (R48) once, for a formed set issued in any state from which it comes to act in `s`, from its lowest thread's operands. -/
def Yields (i : Instr) (s : State) (c : Cur) (h : Hdr) (ws : Cx → List RegWrite) : Prop :=
  (h.u = false → exec i s = .next (inLaneOrder s c h ws) ∧
    ((∀ l ∈ c.lanes, (ws ⟨c.gid, c.clan, l⟩).all RegWrite.isOwn = true) → EachLane s (inLaneOrder s c h ws) c h ws)) ∧
  (h.u = true → ∀ r a, Formed r s a → exec i r = .next (retire s a (ws a.cx)))

/-- An instruction completes for every thread of an issue by doing `F` to it. -/
def Does (i : Instr) (s : State) (c : Cur) (h : Hdr) (F : Cx → Thread → Thread) : Prop :=
  ∃ t, exec i s = .next t ∧ EachThread s t c h F

/-! Encodings. -/

/-- The row that the word alone gives: every .config and every .faultact row has one word each, and the words it reads at issue say which row it is (R159, R349). -/
def rowOfWord (i : Instr) : Instr :=
  match i with
  | .objConfigEndpointMint h o | .objConfigSenderMask h o | .objConfigNotificationMint h o | .objConfigSchedcontext h o
  | .objConfigOdt h o | .objConfigHandler h o | .objConfigFaultEndpoint h o | .objConfigServiceEndpoint h o
  | .objConfigSaveArea h o | .objConfigAddressSpace h o | .objConfigFormatSlot h o | .objConfigWcAge h o
  | .objConfigWatchdog h o | .objConfigKeyslot h o | .objConfigLog h o | .objConfigSealAuthority h o
  | .objConfigQueuePair h o | .objConfigQueueFile h o | .objConfigCollGroup h o | .objConfigCollPairKey h o
  | .objConfigFilemapSource h o => .objConfigUntypedReset h o
  | .faultactSkip h o | .faultactRetry h o | .faultactKill h o | .faultactTeardown h o | .faultactSave h o => .faultactResume h o
  | i => i

/-- An instruction whose opcode the manual assigns. -/
def assigned (i : Instr) : Bool := !i.isUnassigned

/-! Objects. -/

/-- What an OBJ has read once its gate has let it through (R159): performer, object, argument words, capability argument. -/
def objCall (s : State) (x : Cx) (o : ObjOps) (ob : Obj) : ObjCall :=
  { x := x, c := rdCap s x o.obj, h := (rdCap s x o.obj).base, o := ob, narg := o.narg.val, w := rdWords s x o.args o.narg.val, cx := useCap s x o.cx }

/-- The gate of an OBJ with the operands that it reads (R159). -/
def passes (s : State) (x : Cx) (op : SubOp) (o : ObjOps) : Except Nat Obj := gate s x op (rdCap s x o.obj) (rdCap s x o.cx)

/-- Whether a change of the leaf at a virtual address waits for a device or another package that has yet to perform an access through the old one (R240). -/
def remapWaits (s : State) (asp va : Nat) : Bool :=
  match leafAt? s asp va with
  | some l => !l.e.fabs && underWay (settleWrites s l.e.addr (pageBytes l.level)) l.e.addr (pageBytes l.level)
  | none => false

/-- The state in which the leaf at a virtual address changes: every access through the old one has been performed at its home (R240). -/
def remapped (s : State) (asp va : Nat) : State :=
  match leafAt? s asp va with
  | some l =>
    if l.e.fabs then s
    else reissueWaits (settleWrites s l.e.addr (pageBytes l.level)) l.e.addr (pageBytes l.level)
  | none => s

/-- An OBJ that completes (R159, R160): its word results from the first argument register up, its capability result in cx, its status in d, and the performer stands at the next instruction. -/
def objDone (s : State) (a : Actor) (o : ObjOps) (words : List Word) (cap : Option Cap) (st : Nat) : State :=
  retire s a (((List.range words.length).flatMap fun i => wr32 s a.cx (Reg.plus o.args i) (words[i]?.getD 0)) ++
    (match cap with | some k => wrCap s a.cx o.cx k | none => []) ++ wrStatus s a.cx o.d st)

/-- An OBJ that completes later: the performer waits under an identifier. -/
def objWaits (s : State) (a : Actor) (o : ObjOps) (n : Nat) (op : ObjOp) (foot : Nat) : State :=
  parkAll { s with pendObjs := Map.set n { op := op, who := a.who, d := o.d, foot := foot } s.pendObjs } a (.obj n)

/-- A capability names an object of one of the types, live and of a world, and may invoke it. -/
def namesLive (s : State) (c : Cap) (types : List Nat) (world : Nat) : Prop :=
  c.tag = true ∧ types.contains c.otype = true ∧ c.otype < 16 ∧ c.otype ≠ 0 ∧ c.has permInvoke = true ∧
    ∃ o, s.obj? c.base = some o ∧ o.world = world ∧ o.torn = false

end Sys2Proof.Machine
end

