-- ==== Sys2Proof/Certificates/Slice0/Obligations.lean ====
section
/-! DEFINITION. The statements for the provers. -/

open Sys2Proof Sys2Proof.Machine

/-! Registers and class 0. -/

/-- Reads of operands (R15, R16, R17): a v register of the thread, a k register of its clan, zero for vz; a 64-bit operand is an even pair with the low half in the lower register; a capability register of the thread or of its clan; p7 reads true. Writes of results: the register or pair reads back, of a thread or of its clan, a capability as its tag may be kept; vz and p7 discard, and no other register, predicate or capability changes. -/
def Obligations.RegistersHoldOperandsAndResults : Prop :=
  (∀ (s : State) (x : Cx) (n : Fin 768) (m : Fin 64) (j : Fin 32) (l : Fin 16) (p : Pred),
    rd32 s x (.v n) = SMap.get 0 n.val (s.thr x.gid x.tid).v ∧
    rd32 s x (.k m) = SMap.get 0 m.val (s.clan x.gid x.cno).k ∧
    rd32 s x .vz = 0 ∧ rd64 s x .vz = 0 ∧
    (n.val % 2 = 0 → rd64 s x (.v n) = SMap.get 0 (n.val + 1) (s.thr x.gid x.tid).v ++ SMap.get 0 n.val (s.thr x.gid x.tid).v) ∧
    (m.val % 2 = 0 → rd64 s x (.k m) = SMap.get 0 (m.val + 1) (s.clan x.gid x.cno).k ++ SMap.get 0 m.val (s.clan x.gid x.cno).k) ∧
    rdCap s x (.c j) = SMap.get Cap.null j.val (s.thr x.gid x.tid).c ∧
    rdCap s x (.kc l) = SMap.get Cap.null l.val (s.clan x.gid x.cno).kc ∧
    (s.thr x.gid x.tid).pred p = if p.val = 7 then true else (s.thr x.gid x.tid).p.getLsbD p.val) ∧
  (∀ (s : State) (x : Cx) (t : Thread) (n : Fin 768) (m : Fin 64) (a : Word) (b : DWord) (j : Fin 32) (q : Cap) (i p : Pred) (v : Bool),
    let w32 (d : Reg) : Thread := putAll (wr32 s x d a) t
    let w64 (d : Reg) : Thread := putAll (wr64 s x d b) t
    let cap : Thread := putAll (wrCap s x (.c j) q) t
    let flag : Thread := putAll (wrPred i v) t
    let uni : State := applyWrites s x (wr32 s x (.k m) a)
    (∀ k, SMap.get 0 k (w32 (.v n)).v = if k = n.val then a else SMap.get 0 k t.v) ∧
    (n.val % 2 = 0 → ∀ k, SMap.get 0 k (w64 (.v n)).v =
      if k = n.val then b.extractLsb' 0 32 else if k = n.val + 1 then b.extractLsb' 32 32 else SMap.get 0 k t.v) ∧
    w32 .vz = t ∧ w64 .vz = t ∧ (∀ d, w32 d = { t with v := (w32 d).v, pix := (w32 d).pix }) ∧ (∀ d, w64 d = { t with v := (w64 d).v, pix := (w64 d).pix }) ∧
    (∀ k, SMap.get Cap.null k cap.c = if k = j.val then sieve s (worldOfCx s x) q.norm else SMap.get Cap.null k t.c) ∧ cap = { t with c := cap.c } ∧
    flag.pred p = (if p.val = 7 then true else if p = i then v else t.pred p) ∧ flag = { t with p := flag.p } ∧
    ((Map.get? x.cno (s.grp x.gid).clans).isSome →
      ∀ k, SMap.get 0 k (uni.clan x.gid x.cno).k = if k = m.val then a else SMap.get 0 k (s.clan x.gid x.cno).k))

/-- The frame of results: an instruction that writes the registers of its performers leaves everything else of the machine, of their group, of their clan and of every other thread as it was, and in its performers every register that it does not name; what computes results is one such writing, by a thread or by a formed set. A set acts on what its threads held before it formed; only REPL writes that land when it forms come between (R173, R428): they fill the log, and may end the wait of a monitor. It reads its clan's registers as they were when it formed (R173), acts once its members' earlier accesses are performed, and until then it waits (R249). -/
def Obligations.ResultsStayWithTheirPerformers : Prop :=
  (∀ (s : State) (w : Who) (f : Cx → List RegWrite) (foot : Nat) (a : Actor) (ws : List RegWrite),
    let kept (t : State) (gid cno : Nat) (lanes : List Nat) (out : RegWrite → Prop) : Prop :=
      { t with groups := s.groups } = s ∧ (∀ g, g ≠ gid → t.grp g = s.grp g) ∧
      (∀ g, { t.grp g with threads := (s.grp g).threads, clans := (s.grp g).clans } = s.grp g) ∧
      (∀ k, k ≠ cno → t.clan gid k = s.clan gid k) ∧
      { t.clan gid cno with k := (s.clan gid cno).k, kc := (s.clan gid cno).kc, wrote := (s.clan gid cno).wrote } = s.clan gid cno ∧
      (∀ u, (∀ l ∈ lanes, u ≠ cno * 32 + l) → t.thr gid u = s.thr gid u) ∧
      (∀ u, let q := s.thr gid u
        { (t.thr gid u) with v := q.v, c := q.c, p := q.p, pix := q.pix, pcc := q.pcc, wait := q.wait, paged := q.paged, parkedAt := q.parkedAt, released := q.released, pend := q.pend,
                                going := q.going, fetched := q.fetched } = q) ∧
      (∀ n, (∀ b, ¬ out (.w (.v n) b)) → ∀ u, SMap.get 0 n.val (t.thr gid u).v = SMap.get 0 n.val (s.thr gid u).v) ∧
      (∀ n, (∀ b, ¬ out (.c (.c n) b)) → ∀ u, SMap.get Cap.null n.val (t.thr gid u).c = SMap.get Cap.null n.val (s.thr gid u).c) ∧
      (∀ i, (∀ b, ¬ out (.p i b)) → ∀ u, (t.thr gid u).pred i = (s.thr gid u).pred i) ∧
      (∀ n, (∀ b, ¬ out (.w (.k n) b)) → SMap.get 0 n.val (t.clan gid cno).k = SMap.get 0 n.val (s.clan gid cno).k) ∧
      (∀ n, (∀ b, ¬ out (.c (.kc n) b)) → SMap.get Cap.null n.val (t.clan gid cno).kc = SMap.get Cap.null n.val (s.clan gid cno).kc) ∧
      ((∀ i b, ¬ out (.w (.w i) b)) → ∀ u, (t.thr gid u).pix = (s.thr gid u).pix)
    kept (retire s a ws) a.cx.gid a.cx.cno a.mem (fun q => q ∈ ws) ∧
    kept (completeWith s w f foot) w.gid w.clan w.lanes (fun q => ∃ l ∈ w.lanes, q ∈ f ⟨w.gid, w.clan, l⟩)) ∧
  (∀ (s s0 : State) (h : Hdr) (a : Actor) (f : State → Cx → List RegWrite), Performs s h s0 a →
    compute h s f = retire s0 a (f s0 a.cx) ∧ computeLong h s f = land s0 a h (f s0 a.cx) ∧
    { s0 with groups := s.groups, replNew := s.replNew, replLog := s.replLog, replDone := s.replDone, owed := s.owed, out := s.out, monitors := s.monitors } = s ∧
    (∀ g, { s0.grp g with threads := (s.grp g).threads, clans := (s.grp g).clans } = s.grp g) ∧
    (h.u = false ∨ replQuiet s = true →
      { s0 with groups := s.groups } = s ∧ (∀ g u, { s0.thr g u with wait := (s.thr g u).wait, issue := (s.thr g u).issue, going := (s.thr g u).going } = s.thr g u) ∧
      (∀ g k, { s0.clan g k with gathers := (s.clan g k).gathers } = s.clan g k))) ∧
  (∀ (s : State) (c : Cur) (g : Gather) (h : Hdr) (f : State → Cx → List RegWrite), h.u = true → s.cur = some c → c.gathered = true →
    (s.clan c.gid c.clan).gathers.find? (fun g => g.formed && g.pc == c.pc && g.waiting == laneMask c.lanes) = some g →
    let a := setActor c g
    let s0 := joined (s.modClan c.gid c.clan fun cl => { cl with gathers := cl.gathers.erase g }) a
    let r := sources s0 c g
    (edgeHeld s0 a = false → compute h s f = retire s0 a (f r a.cx) ∧ computeLong h s f = land s0 a h (f r a.cx)) ∧
    (edgeHeld s0 a = true → compute h s f = parkActor (sendAway s0) a .fence) ∧
    (∀ p, g.src = some p → (Map.get? c.clan (s0.grp c.gid).clans).isSome → (r.clan c.gid c.clan).k = p.1 ∧ (r.clan c.gid c.clan).kc = p.2) ∧
    (g.src = none → r = s0))

/-- Integer arithmetic (R95, R97-R101): the exact result of signed operands for .i types and unsigned ones for the others, narrowed to the type; form I widens its immediate by R45. `ival` is the number that an operand of a type stands for, `narrowI` the register pattern of a number narrowed to the type (R70). -/
def Obligations.IntegerArithmeticResults : Prop :=
  ∀ (s : State) (c : Cur) (h : Hdr) (t : IType) (d a b e : Reg) (imm : BitVec 32) (lmm : BitVec 64),
    Issues s c →
    let A (x : Cx) : Int := ival t (rdW s x t.is64 a)
    let B (x : Cx) : Int := ival t (rdW s x t.is64 b)
    let I : Int := ival t (immI t imm)
    let L : Int := ival t lmm.toNat
    let out (f : Cx → Int) (x : Cx) := wrW s x t.is64 d (narrowI t (f x))
    let quot (y z : Int) : Int := if z = 0 then -1 else y.tdiv z
    let rem (y z : Int) : Int := if z = 0 then y else y.tmod z
    Yields (.iaddB h t d a b) s c h (out fun x => A x + B x) ∧
    Yields (.iaddI h t d a imm) s c h (out fun x => A x + I) ∧
    Yields (.iaddL h t d a lmm) s c h (out fun x => A x + L) ∧
    Yields (.isubB h t d a b) s c h (out fun x => A x - B x) ∧
    Yields (.isubI h t d a imm) s c h (out fun x => A x - I) ∧
    Yields (.isubL h t d a lmm) s c h (out fun x => A x - L) ∧
    Yields (.iminB h t d a b) s c h (out fun x => min (A x) (B x)) ∧
    Yields (.iminI h t d a imm) s c h (out fun x => min (A x) I) ∧
    Yields (.imaxB h t d a b) s c h (out fun x => max (A x) (B x)) ∧
    Yields (.imaxI h t d a imm) s c h (out fun x => max (A x) I) ∧
    Yields (.idivB h t d a b) s c h (out fun x => quot (A x) (B x)) ∧
    Yields (.idivI h t d a imm) s c h (out fun x => quot (A x) I) ∧
    Yields (.iremB h t d a b) s c h (out fun x => rem (A x) (B x)) ∧
    Yields (.iremI h t d a imm) s c h (out fun x => rem (A x) I) ∧
    Yields (.iabs h t d a) s c h (out fun x => (A x).natAbs) ∧
    Yields (.ineg h t d a) s c h (out fun x => -(A x)) ∧
    Yields (.isad h t d a b e) s c h (out fun x => (A x - B x).natAbs + ival t (rdW s x t.is64 e))

/-- Products (R95, R97, R101): P is exact; .lo keeps its low n bits, .hi the n bits above them, .wide all 64; IMAD adds c; IDOT4 adds four byte products to c. What a narrowed result is (R70, R78): congruent to the exact number modulo 2^n, and in the register either the n low bits alone, or, for .i8 and .i16, the sign extension over 32 bits. -/
def Obligations.ProductAndNarrowedResults : Prop :=
  (∀ (s : State) (c : Cur) (h : Hdr) (t : IType) (m : MulMode) (u v : Bool) (d a b e : Reg) (imm : BitVec 32) (lmm : BitVec 64),
    Issues s c →
    let A (x : Cx) : Int := ival t (rdW s x t.is64 a)
    let B (x : Cx) : Int := ival t (rdW s x t.is64 b)
    let wide := m == .wide
    let prod (x : Cx) (p q : Int) : List RegWrite :=
      match m with
      | .lo => wrW s x t.is64 d (narrowI t (p + q))
      | .hi => wrW s x t.is64 d (narrowI t (p / 2 ^ t.bits + q))
      | .wide => wr64 s x d (BitVec.ofInt 64 (p + q))
    Yields (.imulB h t m d a b) s c h (fun x => prod x (A x * B x) 0) ∧
    Yields (.imulI h t m d a imm) s c h (fun x => prod x (A x * ival t (immI t imm)) 0) ∧
    Yields (.imulL h t m d a lmm) s c h (fun x => prod x (A x * ival t lmm.toNat) 0) ∧
    Yields (.imad h t m d a b e) s c h (fun x => prod x (A x * B x)
      (if wide then ((rd64 s x e).toNat : Int) else ival t (rdW s x t.is64 e))) ∧
    Yields (.idot4 h u v d a b e) s c h (fun x => wr32 s x d (BitVec.ofInt 32 ((rd32 s x e).toNat +
      (elem8 u (rd32 s x a).toNat 0 * elem8 v (rd32 s x b).toNat 0 + elem8 u (rd32 s x a).toNat 1 * elem8 v (rd32 s x b).toNat 1 +
       elem8 u (rd32 s x a).toNat 2 * elem8 v (rd32 s x b).toNat 2 + elem8 u (rd32 s x a).toNat 3 * elem8 v (rd32 s x b).toNat 3))))) ∧
  (∀ (t : IType) (i : Int),
    ((narrowI t i : Int) - i) % 2 ^ t.bits = 0 ∧
    (t.signed = false ∨ 32 ≤ t.bits → narrowI t i < 2 ^ t.bits) ∧
    (t.signed = true → t.bits < 32 → BitVec.ofNat 32 (narrowI t i) = (BitVec.ofNat t.bits (narrowI t i)).signExtend 32) ∧
    ival t (narrowI t i) = if t.signed then (BitVec.ofInt t.bits i).toInt else ((BitVec.ofInt t.bits i).toNat : Int))

/-- Comparison and carry (R96, R102): ICMP writes the outcome and then its complement; IADDC adds with a carry formed on unsigned values whatever the type, and writes the carry out. Moves, selections and predicates (R91-R94, R111-R113): NOP writes nothing; MOV copies 32 or 64 bits; MOVI writes its immediate narrowed to the type; SEL chooses by pS xor PNEG; PLUT looks its table up; P2V writes the eight predicates; V2P writes the predicates that MASK names. -/
def Obligations.CarriesComparisonsAndMoves : Prop :=
  (∀ (s : State) (c : Cur) (h : Hdr) (t : IType) (k : Cond) (d a b : Reg) (pd pc pi po : Pred) (en : Bool) (imm : BitVec 32) (lmm : BitVec 64),
    Issues s c →
    let A (x : Cx) : Int := ival t (rdW s x t.is64 a)
    let U (x : Cx) (r : Reg) : Nat := rdW s x t.is64 r % 2 ^ t.bits
    let holds (y z : Int) : Bool :=
      match k with
      | .eq => y == z | .ne => y != z | .lt => decide (y < z) | .le => decide (y ≤ z) | .gt => decide (y > z) | .ge => decide (y ≥ z)
    let cin (x : Cx) : Nat := (en && (s.thr x.gid x.tid).pred pi).toNat
    Yields (.icmpB h t k pd pc a b) s c h (fun x => let r := holds (A x) (ival t (rdW s x t.is64 b)); [.p pd r, .p pc (!r)]) ∧
    Yields (.icmpI h t k pd pc a imm) s c h (fun x => let r := holds (A x) (ival t (immI t imm)); [.p pd r, .p pc (!r)]) ∧
    Yields (.icmpL h t k pd pc a lmm) s c h (fun x => let r := holds (A x) (ival t lmm.toNat); [.p pd r, .p pc (!r)]) ∧
    Yields (.iaddcB h t d a b pi en po) s c h (fun x =>
      let w := U x a + U x b + cin x
      wrW s x t.is64 d (w % 2 ^ t.bits) ++ [.p po (decide (2 ^ t.bits ≤ w))]) ∧
    Yields (.iaddcI h t d a imm pi en po) s c h (fun x =>
      let w := U x a + immI t imm % 2 ^ t.bits + cin x
      wrW s x t.is64 d (w % 2 ^ t.bits) ++ [.p po (decide (2 ^ t.bits ≤ w))])) ∧
  (∀ (s : State) (c : Cur) (h : Hdr) (t : IType) (d a b : Reg) (pa pb pc pd ps : Pred) (neg : Bool) (tt : BitVec 8) (mask : BitVec 7)
    (imm : BitVec 32) (lmm : BitVec 64),
    Issues s c →
    let P (x : Cx) (p : Pred) : Bool := (s.thr x.gid x.tid).pred p
    Yields (.nop h) s c h (fun _ => []) ∧
    Yields (.plut h pd pa pb pc tt) s c h (fun x => [.p pd (tt.getLsbD ((P x pa).toNat * 4 + (P x pb).toNat * 2 + (P x pc).toNat))]) ∧
    Yields (.v2p h a mask) s c h (fun x => ((List.finRange 7).filter fun i => mask.getLsbD i.val).map fun i =>
      .p ⟨i.val, by omega⟩ ((rd32 s x a).getLsbD i.val)) ∧
    Yields (.mov h .b32 d a) s c h (fun x => wr32 s x d (rd32 s x a)) ∧
    Yields (.mov h .b64 d a) s c h (fun x => wr64 s x d (rd64 s x a)) ∧
    Yields (.moviI h t d imm) s c h (fun x => wrW s x t.is64 d (narrowI t (ival t (immI t imm)))) ∧
    Yields (.moviL h t d lmm) s c h (fun x => wrW s x t.is64 d (narrowI t (ival t lmm.toNat))) ∧
    Yields (.selB h t d a b ps neg) s c h (fun x => wrW s x t.is64 d (narrowI t (ival t (rdW s x t.is64 (if (P x ps ^^ neg) then a else b))))) ∧
    Yields (.selI h t d a imm ps neg) s c h (fun x => wrW s x t.is64 d (narrowI t (ival t (if (P x ps ^^ neg) then rdW s x t.is64 a else immI t imm)))) ∧
    Yields (.p2v h d) s c h (fun x => wr32 s x d ((1#1 ++ (s.thr x.gid x.tid).p).setWidth 32)))

/-- Logic (R103, R104), for the types those instructions accept: bit j of the result is the function of bit j of the sources; LUT3 takes it from its table. Shifts and funnel shifts (R105, R106): the amount is a 32-bit operand, taken modulo n under WRAP; SHL and SHR shift zeros in, so that n or more gives 0; SAR rounds down; FSHL and FSHR take one half of the shifted pair of sources. Bit counts, fields and bytes (R107-R110), for the types those instructions accept: the count of set bits, of leading and of trailing zeros (n for zero); the bits in the other order; the field from pos of length len, cut at the width, zero- or sign-extended; a field put in place; four bytes chosen by selectors, whose bit 3 copies the sign. -/
def Obligations.LogicShiftAndFieldResults : Prop :=
  (∀ (s : State) (c : Cur) (h : Hdr) (t : IType) (tt : BitVec 8) (d a b e : Reg) (imm : BitVec 32) (lmm : BitVec 64),
    Issues s c → t.plainBits = true →
    let bit (x : Cx) (r : Reg) (j : Nat) : Bool := (rdW s x t.is64 r).testBit j
    let by_ (i : Instr) (f : Cx → Nat → Bool) : Prop :=
      ∃ r : Cx → Nat, Yields i s c h (fun x => wrW s x t.is64 d (r x)) ∧ ∀ x j, (r x).testBit j = (decide (j < t.bits) && f x j)
    by_ (.andB h t d a b) (fun x j => bit x a j && bit x b j) ∧
    by_ (.andI h t d a imm) (fun x j => bit x a j && (immI t imm).testBit j) ∧
    by_ (.andL h t d a lmm) (fun x j => bit x a j && lmm.getLsbD j) ∧
    by_ (.orB h t d a b) (fun x j => bit x a j || bit x b j) ∧
    by_ (.orI h t d a imm) (fun x j => bit x a j || (immI t imm).testBit j) ∧
    by_ (.orL h t d a lmm) (fun x j => bit x a j || lmm.getLsbD j) ∧
    by_ (.xorB h t d a b) (fun x j => bit x a j ^^ bit x b j) ∧
    by_ (.xorI h t d a imm) (fun x j => bit x a j ^^ (immI t imm).testBit j) ∧
    by_ (.xorL h t d a lmm) (fun x j => bit x a j ^^ lmm.getLsbD j) ∧
    by_ (.not h t d a) (fun x j => !bit x a j) ∧
    by_ (.lut3 h t tt d a b e) (fun x j => tt.getLsbD ((bit x a j).toNat * 4 + (bit x b j).toNat * 2 + (bit x e j).toNat))) ∧
  (∀ (s : State) (c : Cur) (h : Hdr) (t : IType) (wrap : Bool) (d a b e : Reg) (imm : BitVec 32),
    Issues s c →
    let A (x : Cx) : Int := ival t (rdW s x t.is64 a)
    let U (x : Cx) : Nat := rdW s x t.is64 a % 2 ^ t.bits
    let amount (k : Word) : Nat := if wrap then k.toNat % t.bits else k.toNat
    let out (i : Instr) (f : Cx → Int) : Prop := Yields i s c h (fun x => wrW s x t.is64 d (narrowI t (f x)))
    let k32 (x : Cx) : Nat := (rd32 s x e).toNat % 32
    let k64 (x : Cx) : Nat := (rd32 s x e).toNat % 64
    out (.shlB h t wrap d a b) (fun x => A x * 2 ^ amount (rd32 s x b)) ∧
    out (.shlI h t wrap d a imm) (fun x => A x * 2 ^ amount imm) ∧
    out (.shrB h t wrap d a b) (fun x => (U x / 2 ^ amount (rd32 s x b) : Nat)) ∧
    out (.shrI h t wrap d a imm) (fun x => (U x / 2 ^ amount imm : Nat)) ∧
    (t.signed = true → out (.sarB h t wrap d a b) (fun x => A x / 2 ^ amount (rd32 s x b)) ∧
      out (.sarI h t wrap d a imm) (fun x => A x / 2 ^ amount imm)) ∧
    Yields (.fshl h .b32 d a b e) s c h (fun x => wr32 s x d (((rd32 s x a ++ rd32 s x b) <<< k32 x).extractLsb' 32 32)) ∧
    Yields (.fshl h .b64 d a b e) s c h (fun x => wr64 s x d (((rd64 s x a ++ rd64 s x b) <<< k64 x).extractLsb' 64 64)) ∧
    Yields (.fshr h .b32 d a b e) s c h (fun x => wr32 s x d (((rd32 s x a ++ rd32 s x b) >>> k32 x).extractLsb' 0 32)) ∧
    Yields (.fshr h .b64 d a b e) s c h (fun x => wr64 s x d (((rd64 s x a ++ rd64 s x b) >>> k64 x).extractLsb' 0 64))) ∧
  (∀ (s : State) (c : Cur) (h : Hdr) (t : IType) (d a b e : Reg) (imm : BitVec 32),
    Issues s c → t.is3264 = true →
    let n := t.bits
    let A (x : Cx) : Nat := rdW s x t.is64 a
    let B (x : Cx) : Nat := rdW s x t.is64 b
    let gives (wide : Bool) (i : Instr) (post : Cx → Nat → Prop) : Prop :=
      ∃ r : Cx → Nat, Yields i s c h (fun x => wrW s x wide d (r x)) ∧ ∀ x, post x (r x)
    let pos (x : Cx) : Nat := (rd32 s x b).toNat % 256
    let len (x : Cx) : Nat := (rd32 s x e).toNat % 256
    let top (x : Cx) : Nat := min (pos x + len x) n
    let cp (x : Cx) : Nat := (rd32 s x e).toNat % 256
    let cl (x : Cx) : Nat := (rd32 s x e).toNat / 256 % 256
    let bytes (x : Cx) (sel r : Nat) : Prop := r < 2 ^ 32 ∧ ∀ i < 4,
      let z := sel / 2 ^ (4 * i) % 16
      let y := (rd64 s x a).toNat / 2 ^ (8 * (z % 8)) % 256
      r / 2 ^ (8 * i) % 256 = if 8 ≤ z then (if 128 ≤ y then 255 else 0) else y
    gives false (.popc h t d a) (fun x r => r = (List.range n).countP fun i => (A x).testBit i) ∧
    gives false (.clz h t d a) (fun x r => r ≤ n ∧ (∀ i < r, (A x).testBit (n - 1 - i) = false) ∧ (r < n → (A x).testBit (n - 1 - r) = true)) ∧
    gives false (.ctz h t d a) (fun x r => r ≤ n ∧ (∀ i < r, (A x).testBit i = false) ∧ (r < n → (A x).testBit r = true)) ∧
    gives t.is64 (.brev h t d a) (fun x r => ∀ j, r.testBit j = (decide (j < n) && (A x).testBit (n - 1 - j))) ∧
    Yields (.bfx h t d a b e) s c h (fun x => wrW s x t.is64 d
      (if len x = 0 ∨ n ≤ pos x then 0
       else
        let f : BitVec (top x - pos x) := BitVec.ofNat (top x - pos x) (A x / 2 ^ pos x)
        if t.signed then narrowI t f.toInt else f.toNat)) ∧
    gives t.is64 (.bfi h t d a b e) (fun x r => ∀ j, r.testBit j = (decide (j < n) &&
      (if cl x ≠ 0 ∧ cp x ≤ j ∧ j < cp x + cl x then (B x).testBit (j - cp x) else (A x).testBit j))) ∧
    gives false (.bpermB h d a b) (fun x r => bytes x (rd32 s x b).toNat r) ∧
    gives false (.bpermI h d a imm) (fun x r => bytes x imm.toNat r))

/-- P2V (R112): its encoding, and the predicates in its result. -/
def Obligations.PredicatesGoToARegister : Prop :=
  (∀ w : Nat, w / 2 ^ 6 % 2 ^ 10 = 0x023 →
    (∀ i, decodeWord w = .ok i → ∃ h, i = .p2v h (Reg.ofCode (w / 2 ^ 20 % 2 ^ 10)) ∧
      w % 4 = 0 ∧ w / 2 ^ 30 % 2 ^ 10 = 0x3FF ∧ w / 2 ^ 40 % 2 ^ 10 = 0x3FF ∧ w / 2 ^ 50 % 2 ^ 9 = 0) ∧
    (w % 4 = 0 → w / 2 ^ 50 % 2 ^ 9 = 0 → w / 2 ^ 30 % 2 ^ 10 = 0x3FF → w / 2 ^ 40 % 2 ^ 10 = 0x3FF → w / 2 ^ 16 % 2 ^ 4 = 0 → w / 2 ^ 59 % 2 ^ 5 = 0 →
      ∀ n, w / 2 ^ 20 % 2 ^ 10 = n → n < 0x300 → ∃ h, decodeWord w = .ok (.p2v h (Reg.ofCode n)))) ∧
  (∀ (s : State) (c : Cur) (h : Hdr) (d : Reg), Issues s c →
    let P (x : Cx) (i : Nat) : Bool := (s.thr x.gid x.tid).pred (Fin.ofNat 8 i)
    ∃ r : Cx → Word, Yields (.p2v h d) s c h (fun x => wr32 s x d (r x)) ∧
      ∀ x j, (r x).getLsbD j = if j < 8 then P x j else false)

/-- V2P (R113): its encoding, and the bits that become predicates. -/
def Obligations.ARegisterGoesToPredicates : Prop :=
  (∀ w : Nat, w / 2 ^ 6 % 2 ^ 10 = 0x024 →
    (∀ i, decodeWord w = .ok i → ∃ h, i = .v2p h (Reg.ofCode (w / 2 ^ 30 % 2 ^ 10)) (BitVec.ofNat 7 (w / 2 ^ 50 % 2 ^ 7)) ∧
      w % 4 = 0 ∧ w / 2 ^ 20 % 2 ^ 10 = 0x3FF ∧ w / 2 ^ 40 % 2 ^ 10 = 0x3FF ∧ w / 2 ^ 57 % 2 ^ 2 = 0) ∧
    (w % 4 = 0 → w / 2 ^ 20 % 2 ^ 10 = 0x3FF → w / 2 ^ 40 % 2 ^ 10 = 0x3FF → w / 2 ^ 16 % 2 ^ 4 = 0 → w / 2 ^ 57 % 2 ^ 7 = 0 →
      ∀ n, w / 2 ^ 30 % 2 ^ 10 = n → n < 0x300 → ∃ h, decodeWord w = .ok (.v2p h (Reg.ofCode n) (BitVec.ofNat 7 (w / 2 ^ 50 % 2 ^ 7))))) ∧
  (∀ (s : State) (c : Cur) (h : Hdr) (a : Reg) (mask : BitVec 7), Issues s c →
    ∃ ws : Cx → List RegWrite, Yields (.v2p h a mask) s c h ws ∧
      ∀ x (t : Thread) (i : Pred), (putAll (ws x) t).pred i =
        if i.val < 7 ∧ mask.getLsbD i.val = true then (rd32 s x a).getLsbD i.val else t.pred i)

/-- LUT3 (R104): its encoding, with ITYPE 2 for .b32 and 3 for .b64, both ways: what a word of its opcode decodes to, and that such words decode; and every bit of its result from the table. -/
def Obligations.LookupTableDecidesEachBit : Prop :=
  (∀ w : Nat, w / 2 ^ 6 % 2 ^ 10 = 0x015 →
    let reg (lo : Nat) : Reg := Reg.ofCode (w / 2 ^ lo % 2 ^ 10)
    (∀ i, decodeWord w = .ok i → ∃ h t, i = .lut3 h t (BitVec.ofNat 8 (w / 2 ^ 50 % 2 ^ 8)) (reg 20) (reg 30) (reg 40) (reg 64) ∧
      (t = .b32 ∨ t = .b64) ∧ w / 2 ^ 59 % 2 ^ 4 = (if t = .b32 then 2 else 3) ∧ w % 4 = 1 ∧ w / 2 ^ 58 % 2 = 0 ∧ w / 2 ^ 74 % 2 ^ 22 = 0) ∧
    (∀ t : IType, w % 4 = 1 → w / 2 ^ 16 % 2 ^ 4 = 0 → w / 2 ^ 58 % 2 = 0 → w / 2 ^ 63 % 2 = 0 → w / 2 ^ 74 % 2 ^ 22 = 0 →
      (t = .b32 ∧ w / 2 ^ 59 % 2 ^ 4 = 2) ∨ (t = .b64 ∧ w / 2 ^ 59 % 2 ^ 4 = 3) →
      (∀ lo ∈ [20, 30, 40, 64], w / 2 ^ lo % 2 ^ 10 < 0x300 ∧ (t = .b64 → w / 2 ^ lo % 2 = 0)) →
      ∃ h, decodeWord w = .ok (.lut3 h t (BitVec.ofNat 8 (w / 2 ^ 50 % 2 ^ 8)) (reg 20) (reg 30) (reg 40) (reg 64)))) ∧
  (∀ (s : State) (c : Cur) (h : Hdr) (t : IType) (tt : BitVec 8) (d a b e : Reg), Issues s c → t = .b32 ∨ t = .b64 →
    let bit (x : Cx) (r : Reg) (j : Nat) : Nat := ((rdW s x t.is64 r).testBit j).toNat
    ∃ r : Cx → Nat, Yields (.lut3 h t tt d a b e) s c h (fun x => wrW s x t.is64 d (r x)) ∧
      ∀ x j, (r x).testBit j = (decide (j < t.bits) && tt.getLsbD (bit x a j * 4 + bit x b j * 2 + bit x e j)))

/-! Class 1. -/

/-- Floating-point arithmetic (R114, R115, R119, R124, R125): the exact result of the operands, rounded once by the instruction's mode; packed types element by element (`perElem`, R70). `decodeF` is the value of a pattern, subnormals as zeros under .ftz; `encodeF` rounds a value to a pattern. -/
def Obligations.FloatArithmeticResults : Prop :=
  ∀ (s : State) (c : Cur) (h : Hdr) (t : FType) (r : Rnd) (z : Bool) (d a b e : Reg) (imm : BitVec 32) (lmm : BitVec 64),
    Issues s c →
    let A (x : Cx) : Nat := rdW s x t.is64 a
    let B (x : Cx) : Nat := rdW s x t.is64 b
    let C (x : Cx) : Nat := rdW s x t.is64 e
    let I : Nat := immF t imm
    let out (x : Cx) (g : Fmt → Nat → Nat → Nat → Nat) (u v w : Nat) : List RegWrite := wrW s x t.is64 d (perElem t g u v w)
    let one (g : Val → Val) (f : Fmt) (x _ _ : Nat) : Nat := encodeF f r z false (g (decodeF f z x))
    let two (g : Val → Val → Val) (f : Fmt) (x y _ : Nat) : Nat := encodeF f r z false (g (decodeF f z x) (decodeF f z y))
    let sum := two (Val.add r)
    let diff := two fun x y => Val.add r x (Val.neg y)
    let prod := two Val.mul
    let low (f : Fmt) (x y _ : Nat) : Nat := encodeF f .rn z false (Val.minNum (decodeF f z x) (decodeF f z y))
    let high (f : Fmt) (x y _ : Nat) : Nat := encodeF f .rn z false (Val.maxNum (decodeF f z x) (decodeF f z y))
    let fma (f : Fmt) (x y w : Nat) : Nat := encodeF f r z false (Val.add r (Val.mul (decodeF f z x) (decodeF f z y)) (decodeF f z w))
    Yields (.faddB h t r z d a b) s c h (fun x => out x sum (A x) (B x) 0) ∧
    Yields (.faddI h t r z d a imm) s c h (fun x => out x sum (A x) I 0) ∧
    Yields (.faddL h t r z d a lmm) s c h (fun x => out x sum (A x) lmm.toNat 0) ∧
    Yields (.fsubB h t r z d a b) s c h (fun x => out x diff (A x) (B x) 0) ∧
    Yields (.fsubI h t r z d a imm) s c h (fun x => out x diff (A x) I 0) ∧
    Yields (.fsubL h t r z d a lmm) s c h (fun x => out x diff (A x) lmm.toNat 0) ∧
    Yields (.fmulB h t r z d a b) s c h (fun x => out x prod (A x) (B x) 0) ∧
    Yields (.fmulI h t r z d a imm) s c h (fun x => out x prod (A x) I 0) ∧
    Yields (.fmulL h t r z d a lmm) s c h (fun x => out x prod (A x) lmm.toNat 0) ∧
    Yields (.ffma h t r z d a b e) s c h (fun x => out x fma (A x) (B x) (C x)) ∧
    Yields (.fminB h t z d a b) s c h (fun x => out x low (A x) (B x) 0) ∧
    Yields (.fminI h t z d a imm) s c h (fun x => out x low (A x) I 0) ∧
    Yields (.fmaxB h t z d a b) s c h (fun x => out x high (A x) (B x) 0) ∧
    Yields (.fmaxI h t z d a imm) s c h (fun x => out x high (A x) I 0) ∧
    Yields (.frcp h t r z true d a) s c h (fun x => out x (one fun v => Val.div (.fin false 1 0) v) (A x) 0 0) ∧
    Yields (.frnd h t r z d a) s c h (fun x => out x (fun f y _ _ =>
      match decodeF f z y with
      | .fin neg m q => encodeF f r z false (.fin neg (roundToInt r neg m q).natAbs 0)
      | v => encodeF f r z false v) (A x) 0 0) ∧
    Yields (.fdot2 h t r z d a b e) s c h (fun x =>
      let el (y : Word) (i : Nat) : Val := decodeF (elemFmt t) z (y.toNat / 2 ^ (16 * i) % 2 ^ 16)
      wr32 s x d (BitVec.ofNat 32 (encodeF .fp32 r z false
        (Val.add r (Val.add r (Val.mul (el (rd32 s x a) 0) (el (rd32 s x b) 0)) (Val.mul (el (rd32 s x a) 1) (el (rd32 s x b) 1)))
          (decodeF .fp32 z (rd32 s x e).toNat)))))

/-- Conversions, comparisons and classes (R116, R120-R124). Each of the eight forms completes: in every state with an issue and for every operand, `exec` answers a next state, which holds the result. FCMP compares values, −0 equal to +0, and a NaN satisfies .ne and .nan alone; FCVT, ICVT and FCVI take one value from one format to another, integers saturating; FCLASS sets the one bit of its operand's class; FSCALE multiplies by a power of two before the one rounding (a power beyond ±5000 is beyond every format's range). -/
def Obligations.FloatConversionResults : Prop :=
  ∀ (s : State) (c : Cur) (h : Hdr) (t : FType) (it : IType) (sf df : Fmt) (r : Rnd) (k : FCond) (z sat : Bool) (pd pc : Pred) (d a b : Reg) (imm : BitVec 32),
    Issues s c →
    let f := elemFmt t
    let A (x : Cx) : Nat := rdW s x t.is64 a
    let V (y : Nat) : Val := decodeF f false (y % 2 ^ f.bits)
    let from_ (x : Cx) : Val := decodeF sf z (rdW s x (sf == .fp64) a % 2 ^ sf.bits)
    let holds (u v : Nat) : Bool :=
      let un := decide (V u = .nan) || decide (V v = .nan)
      match k with
      | .eq => !un && Val.eqv (V u) (V v)
      | .ne => un || !Val.eqv (V u) (V v)
      | .lt => !un && Val.lt (V u) (V v)
      | .le => !un && (Val.lt (V u) (V v) || Val.eqv (V u) (V v))
      | .gt => !un && Val.lt (V v) (V u)
      | .ge => !un && (Val.lt (V v) (V u) || Val.eqv (V u) (V v))
      | .num => !un
      | .nan => un
    let scaled (n : Word) (g : Fmt) (y _ _ : Nat) : Nat :=
      match decodeF g z y with
      | .fin neg m e => encodeF g r z false (.fin neg m (e + clampInt (-5000) 5000 n.toInt))
      | v => encodeF g r z false v
    Yields (.fcmpB h t k pd pc a b) s c h (fun x => let q := holds (A x) (rdW s x t.is64 b); [.p pd q, .p pc (!q)]) ∧
    Yields (.fcmpI h t k pd pc a imm) s c h (fun x => let q := holds (A x) (immF t imm); [.p pd q, .p pc (!q)]) ∧
    (sf.isFloat = true ∨ sf = .pp8 → df.isFloat = true →
      Yields (.fcvt h sf df r z sat d a) s c h (fun x => wrW s x (df == .fp64) d (encodeF df r z sat (from_ x)))) ∧
    Yields (.icvt h it df r d a) s c h (fun x => wrW s x (df == .fp64) d (encodeF df r false false (Val.ofInt (ival it (rdW s x it.is64 a))))) ∧
    Yields (.fcvi h it sf r z d a) s c h (fun x => wrW s x it.is64 d (narrowI it ((from_ x).toInt it.signed it.bits r))) ∧
    Yields (.fclass h t z d a) s c h (fun x => wr32 s x d
      (match decodeF f z (A x % 2 ^ f.bits) with
       | .inf true => 0x001
       | .fin true m _ => if m = 0 then 0x008 else if A x % f.signBit < 2 ^ f.fbits then 0x004 else 0x002
       | .fin false m _ => if m = 0 then 0x010 else if A x % f.signBit < 2 ^ f.fbits then 0x020 else 0x040
       | .inf false => 0x080
       | .nan => 0x100)) ∧
    Yields (.fscaleB h t r z d a b) s c h (fun x => wrW s x t.is64 d (perElem t (scaled (rd32 s x b)) (A x) 0 0)) ∧
    Yields (.fscaleI h t r z d a imm) s c h (fun x => wrW s x t.is64 d (perElem t (scaled imm) (A x) 0 0))

/-- FDIV, FSQRT and the operations bounded in ulps (R75, R117, R118): without lookahead the result is in its register when the instruction is left. A long-latency result under lookahead (R49): the thread goes on at once, nothing is written, and the result is pending with a window of LOOK instructions. FRCP without a mode (R75, R117): of a finite non-zero operand the result is within one ulp, unless it overflows. FRSQ, FLG2, FEX2, FSIN and FCOS (R75): of a finite non-zero operand the result is within one ulp, or two, of the number that `Val.sqrt` and `Val.div`, `log2Fix`, `exp2Fix` and `sinFix` compute to more bits than any format holds, unless it overflows. What rests on a choice of the model: log entries 7 and 11. -/
def Obligations.FloatDivisionAndLookahead : Prop :=
  (∀ (s : State) (c : Cur) (h : Hdr) (t : FType) (r : Rnd) (z : Bool) (d a b : Reg) (imm : BitVec 32),
    Issues s c → h.look = 0 →
    let A (x : Cx) : Nat := rdW s x t.is64 a
    let f := elemFmt t
    let V (y : Nat) : Val := decodeF f z (y % 2 ^ f.bits)
    t.packed = false →
    Yields (.fdivB h t r z d a b) s c h (fun x => wrW s x t.is64 d (encodeF f r z false (Val.div (V (A x)) (V (rdW s x t.is64 b))))) ∧
    Yields (.fdivI h t r z d a imm) s c h (fun x => wrW s x t.is64 d (encodeF f r z false (Val.div (V (A x)) (V (immF t imm))))) ∧
    Yields (.fsqrt h t r z d a) s c h (fun x => wrW s x t.is64 d (encodeF f r z false (Val.sqrt (V (A x))))) ∧
    Yields (.frcp h t r z false d a) s c h (fun x => wrW s x t.is64 d (frcpApprox f z (A x % 2 ^ f.bits))) ∧
    Yields (.frsq h t z d a) s c h (fun x => wrW s x t.is64 d (frsqF f z (A x % 2 ^ f.bits))) ∧
    Yields (.fex2 h t z d a) s c h (fun x => wrW s x t.is64 d (fex2F f z (A x % 2 ^ f.bits))) ∧
    Yields (.flg2 h t z d a) s c h (fun x => wrW s x t.is64 d (flg2F f z (A x % 2 ^ f.bits))) ∧
    Yields (.fsin h t z d a) s c h (fun x => wrW s x t.is64 d (fsinF f z false (A x % 2 ^ f.bits))) ∧
    Yields (.fcos h t z d a) s c h (fun x => wrW s x t.is64 d (fsinF f z true (A x % 2 ^ f.bits)))) ∧
  (∀ (s : State) (c : Cur) (l : Nat) (h : Hdr) (t : FType) (r : Rnd) (z : Bool) (d a b : Reg),
    Issues s c → h.u = false → c.lanes = [l] → (s.thr c.gid (c.clan * 32 + l)).guard h = true → h.look ≠ 0 →
    let x : Cx := ⟨c.gid, c.clan, l⟩
    ∃ s', exec (.fdivB h t r z d a b) s = .next s' ∧
      s'.thr c.gid (c.clan * 32 + l) =
        { (s.thr c.gid (c.clan * 32 + l)).advance c.foot with
          pend := ((s.thr c.gid (c.clan * 32 + l)).advance c.foot).pend ++
            [⟨.here, wrW s x t.is64 d (fdiv t r z (rdW s x t.is64 a) (rdW s x t.is64 b)), h.look.val, c.pc, c.raw, (s.thr c.gid (c.clan * 32 + l)).issue⟩] } ∧
      { s' with groups := s.groups } = s) ∧
  (∀ (f : Fmt) (x m : Nat) (neg : Bool) (q : Int),
    f = .fp64 ∨ f = .fp32 ∨ f = .fp16 → x < 2 ^ f.bits → decodeF f false x = .fin neg m q → m ≠ 0 →
    (∀ g, decodeF f false (frcpApprox f false x) ≠ .inf g) →
    withinUlp f 1 (Val.div (.fin false 1 0) (.fin neg m q)) (decodeF f false (frcpApprox f false x)) = true) ∧
  (∀ (f : Fmt) (x m : Nat) (neg : Bool) (q : Int),
    x < 2 ^ f.bits → decodeF f false x = .fin neg m q → m ≠ 0 →
    let near (n : Nat) (exact : Val) (r : Nat) : Prop := (∀ g, decodeF f false r ≠ .inf g) → withinUlp f n exact (decodeF f false r) = true
    (f = .fp64 ∨ f = .fp32 → neg = false → near 1 (Val.div (.fin false 1 0) (Val.sqrt (.fin false m q))) (frsqF f false x)) ∧
    (f = .fp32 ∨ f = .fp16 →
    (neg = false → near 2 (Val.ofFix (((Nat.log2 m : Int) + q) * (2 ^ 160 : Nat) + log2Fix (m * 2 ^ 192 / 2 ^ Nat.log2 m) 160 0) (-160)) (flg2F f false x)) ∧
    ((Nat.log2 m : Int) + q ≤ 20 →
      let fx : Int := signedAt (-192) neg (scaleTo m q (-192)).1 (-192)
      near 2 (.fin false (exp2Fix (fx % (2 ^ 192 : Nat)).toNat) (fx / (2 ^ 192 : Nat) - 192)) (fex2F f false x)) ∧
    near 2 (Val.ofFix (if neg then -sinFix false m q else sinFix false m q) (-320)) (fsinF f false false x) ∧
    near 2 (Val.ofFix (sinFix true m q) (-320)) (fsinF f false true x)))

/-- The number that a finite value is. -/
def valueQ : Val → ℚ
  | .fin neg m e => (if neg then -1 else 1) * (m : ℚ) * (2 : ℚ) ^ e
  | _ => 0

/-- Every pattern that is not a NaN is the encoding of its own value in every mode, and every NaN becomes the canonical one (R64-R66, R73). Rounding (R71): of a finite exact value whose rounded result is finite, .rn gives a nearest value of the format, .rd a value not above it, .ru one not below it, .rz one not farther from zero; and no value of the format lies strictly between the exact value and a directed result. -/
def Obligations.RoundingIsCorrect : Prop :=
  (∀ (f : Fmt) (r : Rnd) (x : Nat), f.isFloat = true → x < 2 ^ f.bits →
    encodeF f r false false (decodeF f false x) = (if decodeF f false x = .nan then f.nanBits else x) ∧
    decodeF f false f.nanBits = .nan) ∧
  (∀ (f : Fmt) (r : Rnd) (neg : Bool) (m : Nat) (e : Int), f.isFloat = true →
    let X := valueQ (.fin neg m e)
    let y := encodeF f r false false (.fin neg m e)
    let Y := valueQ (decodeF f false y)
    y % f.signBit ≤ f.maxFin →
    ∀ w, w < 2 ^ f.bits → w % f.signBit ≤ f.maxFin →
      let W := valueQ (decodeF f false w)
      (r = .rn → |Y - X| ≤ |W - X|) ∧
      (r = .rd → Y ≤ X ∧ (W ≤ X → W ≤ Y)) ∧
      (r = .ru → X ≤ Y ∧ (X ≤ W → Y ≤ W)) ∧
      (r = .rz → |Y| ≤ |X| ∧ (|W| ≤ |X| → 0 ≤ W * X → |W| ≤ |Y|)))

/-! Words and steps. -/

/-- Decode and encode agree (R39-R53): the word of every well-formed instruction with an assigned opcode decodes to the instruction, with every operand, modifier and immediate. The rows of .config and .faultact share one word each. What rests on a choice of the model: log entry 63. -/
def Obligations.EncodedInstructionsDecode : Prop :=
  ∀ i : Instr, i.WellFormed = true → assigned i = true →
    ∃ n w, encode i = some (n, w) ∧ w < 2 ^ n ∧ decodeTableWord n w = some (rowOfWord i)

/-- Every word has one meaning (R39, R41, R42, R53): what decodes is encoded as the word it was read from, so no bit of a legal word is ignored, and bits above the word's length are not read. -/
def Obligations.DecodedWordsEncodeBack : Prop :=
  ∀ (w : Nat) (i : Instr), decodeWord w = .ok i →
    encode i = some (lenBits (w % 4), w % 2 ^ lenBits (w % 4)) ∧ decodeWord (w % 2 ^ lenBits (w % 4)) = .ok i ∧ i.isEvent = false ∧
    (assigned i = true → i.WellFormed = true)

/-- Words that the manual writes out to the bit decode to the instructions they stand for, an instruction or more of every class. -/
def Obligations.SpecWordsDecode : Prop :=
  let p : Hdr := ⟨7, false, 0, false⟩
  decodeTableWord 64 0x0003_FFFF_FFF0_001C = some (.nop p) ∧
  decodeTableWord 96 0x3_1258_0200_40A0_055D = some (.lut3 p .b32 0x96 (.v 10) (.v 1) (.v 2) (.v 3)) ∧
  decodeTableWord 96 0x80_0003_FFFF_F7E0_4089 = some (.call ⟨2, false, 0, false⟩ (.c 30) 0x80) ∧
  decodeTableWord 96 0x10_2400_07D8_8042_6005 = some (.ldM ⟨1, false, 2, false⟩ ⟨.c 2, .v 7, 0x10, .b32, 2, .plain, .clan, false, false⟩ (.v 4)) ∧
  decodeTableWord 128 0x0C0F_FC05_0000_0000_200B_FFE0_C040_619E =
    some (.atom p ⟨.kc 3, .vz, 0, .b32, 0, .plain, .clan, true, false⟩ .add true true false false (.v 4) (.v 5)) ∧
  decodeTableWord 96 0x000F_FF66_1200_08D9_4030_831D = some (.send p ⟨.v 3, .c 5, .v 8, 2, .c 6, 1⟩ false 0) ∧
  decodeTableWord 64 0x0003_44E0_F080_849C = some (.revoke p (.k 8) (.kc 3) 4) ∧
  decodeTableWord 64 0x0023_FFD8_F650_84DC = some (.exportMake p 2 (.c 5) (.c 3) none) ∧
  decodeTableWord 64 0x0403_FF01_B040_A15C = some (.reduxB p .add .f32 (.k 4) (.v 6) .vz) ∧
  decodeTableWord 128 0x40_0653_FFFF_FFF0_C01E = some (.mma p .plusTimes 3 1 0 (.acc 1 0) false .vz) ∧
  decodeTableWord 64 0x0003_42E0_F080_C2DC = some (.tcopy p (.k 8) (.kc 3) 2) ∧
  decodeTableWord 128 0x0000_0012_0000_0346_2343_85E1_3080_C31E = some (.coll p .allreduce .lsem .f32 (.k 8) (.kc 4) (.kc 5) 6 0 18) ∧
  decodeTableWord 64 0x0003_FFFF_FFF0_435C = some (.emret p .adv) ∧
  decodeTableWord 64 0x0007_FFFF_FFF0_435C = some (.emret p .retry)

/-- Three lengths, and a reserved one (R39, R40): the word says its length in its two low bits, and LEN = 3 is no instruction. A slot of the opcode map that the manual leaves unassigned decodes as such with any fields (R53). Fetch (R20, R39, R40): eight bytes first; a reserved length or an instruction that crosses its 32-byte block is a fetch-format fault whatever else the word holds; then the rest of the word, and where that part faults the record holds the eight bytes (R375). -/
def Obligations.FetchReadsWholeInstructions : Prop :=
  ((∀ w, w % 4 = 3 → decodeWord w = .badLength) ∧
  (∀ w, w % 4 ≠ 3 →
    let o := w / 2 ^ 6 % 2 ^ 10
    (0x026 ≤ o ∧ o ≤ 0x07F) ∨ (0x096 ≤ o ∧ o ≤ 0x0FF) ∨ (0x110 ≤ o ∧ o ≤ 0x17F) ∨ (0x18F ≤ o ∧ o ≤ 0x1FF) ∨
      (0x215 ≤ o ∧ o ≤ 0x27F) ∨ (0x28C ≤ o ∧ o ≤ 0x2FF) ∨ 0x30D ≤ o →
    decodeWord w = .ok (.unassignedOpcode (Raw.ofWord w).hdr (BitVec.ofNat 128 (w % 2 ^ lenBits (w % 4)))))) ∧
  (∀ (s : State) (x : Cx) (w : Nat),
    let pcc := (s.thr x.gid x.tid).pcc
    fetchPart s x pcc 8 = .ok w →
    (w % 4 = 3 → fetch s x = .fault { cls := 6, sub := 1 } (BitVec.ofNat 128 w) true) ∧
    (w % 4 ≠ 3 → 32 < pcc.addr % 32 + footOfLen (w % 4) → fetch s x = .fault { cls := 6, sub := 2 } (BitVec.ofNat 128 w) true) ∧
    (w % 4 ≠ 3 → pcc.addr % 32 + footOfLen (w % 4) ≤ 32 → 
      (∀ v, fetchPart s x pcc (lenBits (w % 4) / 8) = .ok v → fetch s x = .ok (BitVec.ofNat 128 v) (footOfLen (w % 4))) ∧
      (∀ f n b, fetchPart s x pcc (lenBits (w % 4) / 8) = .error (.fault f n b) → fetch s x = .fault f (BitVec.ofNat 128 w) false)))

/-- A step runs the decoded instruction (R40, R57, R166, R167, R214): the agenda names threads that may issue together; their clan is the one that its bundler chooses and no ready thread of it has been passed too often; their word is fetched and decodes to an instruction that their core executes natively, none of them has a result or a request of its own outstanding, and the step is `exec` of that instruction for that issue; then the issue is over and meeting holds are looked at. Before it, meeting holds are looked at, the threads passed over are counted, the clan's turn passes, and the threads enter an issue of a new number; a page that a thread of the clan had waited for may be evicted after it. A word that says only its row's family is refined by the words it reads. A step whose choice is an event runs the event's meaning, for no issue. What rests on a choice of the model: log entries 2 and 3. -/
def Obligations.StepRunsDecodedInstruction : Prop :=
  (∀ (s : State) (gid c l m foot : Nat) (lanes on ms : List Nat) (rest : List Choice) (raw : BitVec 128) (i : Instr),
    let s0 := { s with agenda := rest }
    let s1 := settleMeet s0 gid c
    let s2 := rotateClan (countPassed s1 gid c (l :: on)) gid c
    s.agenda = .issue gid c lanes :: rest → groupRuns s0 gid = true → mayLead s0 gid c = true → formedSet s1 gid c lanes = false →
    chooseLanes s1 gid c lanes = l :: on → fairPick s1 gid c (l :: on) = true →
    (∀ u ∈ l :: on, (s2.thr gid (c * 32 + u)).pend = [] ∧ farPending s2 ⟨gid, c, u⟩ = false ∧ remotePending s2 ⟨gid, c, u⟩ = false) →
    fetch s2 ⟨gid, c, l⟩ = .ok raw foot → decodeWord raw.toNat = .ok i → assigned i = true →
    let s3 := enterIssue (s2.modClan gid c fun k => { k with lead := l }) s.nextId gid c (l :: on)
    let cur : Cur := ⟨gid, c, l :: on, BitVec.ofNat 64 (s2.thr gid (c * 32 + l)).pcc.addr, raw, foot, false, s.nextId, false⟩
    (l :: on).filter (fun u => (s3.thr gid (c * 32 + u)).guard (Raw.ofWord raw.toNat).hdr) = m :: ms →
    odtEntry s3 gid (Raw.ofWord raw.toNat).op = 0 ∨ ((Raw.ofWord raw.toNat).op = 0x10D ∧ (s3.thr gid (c * 32 + m)).edepth ≠ 0) →
    contextReason s3 ⟨gid, c, m⟩ i (Raw.ofWord raw.toNat).op (Raw.ofWord raw.toNat).hdr.u = 0 →
    step s = freePages (usesPage s1 gid c) (finish (exec (refine s3 ⟨gid, c, m⟩ i) { s3 with cur := some cur }) gid c)) ∧
  (∀ (s : State) (i : Instr) (rest : List Choice), s.agenda = .event i :: rest → i.isEvent = true →
    step s = exec i { s with agenda := rest, cur := none })

/-- No step stops the machine: every exception is taken, so each step of every state answers a next state, and so does every instruction and event in every state with every operand. What rests on a choice of the model: log entries 21 and 22. -/
def Obligations.EveryStepAnswersNext : Prop := (∀ s : State, ∃ t, step s = .next t) ∧ ∀ (i : Instr) (s : State), ∃ t, exec i s = .next t

/-- What reset leaves (R12, R452, R481, R484): the time base at 0, LOCK and the protection matrix clear, the power cap at 2,400 W, the Almanac empty; no thread, no object, no memory listed, no engine at work. What rests on a choice of the model: log entries 5 and 19. -/
def Obligations.ResetState : Prop :=
  let r := Sys2Proof.core.reset
  r.time = 0 ∧ r.lock = false ∧ r.prot = 0 ∧ r.power.cap = 2400 ∧ r.power.throttle = false ∧ r.almanac = [] ∧ r.groups = [] ∧
    r.units = [] ∧ r.objs = [] ∧ (∀ a, byteAt r a = 0) ∧ r.cur = none ∧ r.agenda = [] ∧ r.bootStep = 0

/-- Memory at reset is in canonical form. What rests on a choice of the model: log entries 5 and 69. -/
def Obligations.ResetMemoryIsCanonical : Prop := Memory.wf Sys2Proof.core.reset = true

/-- Every step keeps physical memory, its tags and its ECC marks in canonical form, whatever runs: a thread's instruction, a fault, an engine, the host, a reset. What rests on a choice of the model: log entries 5 and 69. -/
def Obligations.MemoryStaysCanonical : Prop :=
  ∀ s t : State, Memory.wf s = true → step s = .next t → Memory.wf t = true

/-- Memories that read alike are equal: the canonical form leaves one listing for what the addresses hold. Physical memory (R4, R34, R234): bytes written are the bytes read, every other address keeps its byte; each granule that the write touches loses its tag and every other keeps its own; nothing else of the machine changes but the marks of the ECC words that the write covers. Inline encryption (R455): through pages of one key, bytes written are the bytes read and every other byte keeps its value; a granule that a write does not touch keeps what it gives through any key; a page's key is that of its KeySlot, the memory key of a protected world, or none. What rests on a choice of the model: log entry 15. -/
def Obligations.StoresReadBack : Prop :=
  (∀ s t : State, Memory.wf s = true → Memory.wf t = true → (∀ a, byteAt s a = byteAt t a) → s.mem = t.mem) ∧
  (∀ (s : State) (a : Nat) (bs : List Byte), Memory.wf s = true →
    (∀ j, j < bs.length → byteAt (writePhys s a bs) (a + j) = bs.getD j 0) ∧
    (∀ b, b < a ∨ a + bs.length ≤ b → byteAt (writePhys s a bs) b = byteAt s b) ∧
    (∀ b, physTag (writePhys s a bs) b = if ∃ j, j < bs.length ∧ (a + j) / 16 = b / 16 then false else physTag s b) ∧
    { writePhys s a bs with mem := s.mem, tags := s.tags, ecc := s.ecc } = s ∧
    Memory.wf (writePhys s a bs) = true) ∧
  (∀ (s : State) (k q : MemKey) (a n : Nat) (bs : List Byte),
    readVia s k a n = (List.range n).map (fun j => byteVia s k (a + j)) ∧
    (∀ b, cipherOf s (b / 16) = k → byteVia s k b = byteAt s b) ∧
    readVia (writeVia s k a bs) k a bs.length = bs ∧
    (∀ j, j < bs.length → cipherOf (writeVia s k a bs) ((a + j) / 16) = k) ∧
    (∀ b, b < a ∨ a + bs.length ≤ b → byteVia (writeVia s k a bs) k b = byteVia s k b) ∧
    (∀ b, b / 16 ∉ granules a bs.length → byteVia (writeVia s k a bs) q b = byteVia s q b)) ∧
  (∀ (s : State) (w key pa : Nat),
    (hbmSize ≤ pa → pageKey s w key pa = none) ∧
    (pa < hbmSize → key = 0 → protectedWorld s w = false → pageKey s w key pa = none) ∧
    (pa < hbmSize → key ≠ 0 → ∀ e, Map.get? key s.keys = some e → pageKey s w key pa = some e.key) ∧
    (pa < hbmSize → key = 0 → protectedWorld s w = true →
      ∀ e, s.keys.find? (fun q => q.2.role == 0 && q.2.world == w) = some e → pageKey s w key pa = some e.2.key))

/-! Class 2 and faults. -/

/-- Transfers (R20, R127-R130): BRA and CALL go to the instruction's address plus their signed immediate, BRX and CALLX to a 64-bit register or to a capability, RET to a capability; CALL and CALLX leave the capability of the next instruction in their link, a register of the thread or, in lane order, one of its clan. A target in registers keeps the thread's own program-counter capability with that address. Meeting, napping, yielding, leaving (R131, R132, R134, R135, R214): MEET sets or clears the meeting address; NAP of 0 goes on at once and any other stands for its nanoseconds; YIELD sends the clan to the end of its rotation and goes on; EXIT ends the threads whose guard holds, once their accesses are performed (R181, R249, R430), and what waited for them is looked at again; while one is not, all of them wait. -/
def Obligations.TransfersMeetingsAndExits : Prop :=
  (∀ (s : State) (c : Cur) (h : Hdr) (a l : Reg) (imm : BitVec 32), Issues s c → (∀ x k, (wrCap s x l k).all RegWrite.isOwn = true) →
    let pcc (x : Cx) : Cap := (s.thr x.gid x.tid).pcc
    let near (x : Cx) : Cap := (pcc x).withAddr ((pcc x).addr + (imm.signExtend 64).toNat)
    let goes (tgt : Cx → Cap) (x : Cx) (t : Thread) : Thread := { t.leave with pcc := tgt x }
    let linked (tgt : Cx → Cap) (x : Cx) (t : Thread) : Thread :=
      { (putAll (wrCap s x l ((pcc x).withAddr ((pcc x).addr + c.foot))) t).leave with pcc := tgt x }
    let far (x : Cx) : Cap :=
      match a with
      | .c _ | .kc _ | .w 12 | .w 13 => rdCap s x a
      | _ => (pcc x).withAddr (rd64 s x a).toNat
    Does (.bra h imm) s c h (goes near) ∧
    Does (.call h l imm) s c h (linked near) ∧
    Does (.brx h a) s c h (goes far) ∧ Does (.callx h l a) s c h (linked far) ∧
    Does (.ret h a) s c h (goes fun x => rdCap s x a)) ∧
  (∀ (s : State) (c : Cur) (h : Hdr) (a l : Reg) (imm : BitVec 32), s.cur = some c → h.u = false →
    let pcc (x : Cx) : Cap := (s.thr x.gid x.tid).pcc
    let past := (c.lanes.filter fun l => !(s.thr c.gid (c.clan * 32 + l)).guard h).foldl (fun s l => advance s ⟨c.gid, c.clan, l⟩ c.foot) s
    let linked (tgt : Cx → Cap) : State := (c.lanes.filter fun l => (s.thr c.gid (c.clan * 32 + l)).guard h).foldl (fun st n =>
      let x : Cx := ⟨c.gid, c.clan, n⟩
      jump (applyWrites st x (wrCap s x l ((pcc x).withAddr ((pcc x).addr + c.foot)))) x (tgt x)) past
    exec (.call h l imm) s = .next (linked fun x => (pcc x).withAddr ((pcc x).addr + (imm.signExtend 64).toNat)) ∧
    exec (.callx h l a) s = .next (linked fun x =>
      match a with
      | .c _ | .kc _ | .w 12 | .w 13 => rdCap s x a
      | _ => (pcc x).withAddr (rd64 s x a).toNat)) ∧
  (∀ (s : State) (c : Cur) (h : Hdr) (a : Reg) (imm : BitVec 32), Issues s c →
    let pcc (x : Cx) : Cap := (s.thr x.gid x.tid).pcc
    let naps (k : Word) (t : Thread) : Thread := if k = 0 then t.advance c.foot else { t with wait := .nap (s.time + k.toNat) c.foot }
    let on := c.lanes.filter fun l => (s.thr c.gid (c.clan * 32 + l)).guard h
    let past := (c.lanes.filter fun l => !(s.thr c.gid (c.clan * 32 + l)).guard h).foldl (fun s l => advance s ⟨c.gid, c.clan, l⟩ c.foot) s
    Does (.meet h true imm) s c h (fun _ t => { t with meet := 0xFFFFFFFFFFFFFFFF }.advance c.foot) ∧
    Does (.meet h false imm) s c h (fun x t =>
      { t with meet := BitVec.ofNat 64 ((pcc x).withAddr ((pcc x).addr + (imm.signExtend 64).toNat)).addr }.advance c.foot) ∧
    Does (.napB h a) s c h (fun x t => naps (rd32 s x a) t) ∧
    Does (.napI h imm) s c h (fun _ t => naps imm t) ∧
    (h.u = false → on ≠ [] →
      exec (.yield h) s = .next (on.foldl (fun s l => advance s ⟨c.gid, c.clan, l⟩ c.foot)
        ({ past with nextId := past.nextId + 1 }.modClan c.gid c.clan fun k => { k with age := s.nextId })) ∧
      ((∀ l ∈ on, edgeHeld past ⟨⟨c.gid, c.clan, l⟩, [l], false, none⟩ = false) → exec (.exit h) s = .next (afterExit
        (dropMask (on.foldl (fun s l => s.modThr c.gid (c.clan * 32 + l) fun t => { t.leave with live := false, pend := [] }) (replSettle past))
          c.gid c.clan true true (laneMask on)) c.gid c.clan (on.map fun l => c.clan * 32 + l))) ∧
      ((∃ l ∈ on, edgeHeld past ⟨⟨c.gid, c.clan, l⟩, [l], false, none⟩ = true) →
        exec (.exit h) s = .next (on.foldl (fun s l => park s ⟨c.gid, c.clan, l⟩ .fence) (sendAway past)))))

/-- Special registers (R22, R136, R137). GETSR completes in every state with an issue and for every operand: `exec` answers a next state that holds the register that its selector names; the table of selectors, on a compute core and on a service core, whose launch and group registers read as those of one thread. SETSR writes %pix inside the emulation handler (R23, R137): it completes when every thread of the issue stands there; outside, the encoding is illegal and each thread meets its disposition. -/
def Obligations.SpecialRegisters : Prop :=
  (∀ (s : State) (c : Cur) (h : Hdr) (d a : Reg) (sel : BitVec 8), Issues s c →
    (Yields (.getsr h sel d) s c h fun x => wrW s x (srWide sel) d (readSR s x sel.toNat)) ∧
    ((∀ l ∈ c.lanes, (s.thr c.gid (c.clan * 32 + l)).edepth ≠ 0) →
      Does (.setsr h 0x1A a) s c h fun x t => { t with pix := rd32 s x a }.advance c.foot)) ∧
  (∀ (s : State) (h : Hdr) (x : Actor) (a : Reg) (sel : BitVec 8), Solo s h x → (s.thr x.cx.gid x.cx.tid).edepth = 0 →
    exec (.setsr h sel a) s = .next (illegalFate s x.cx.gid x.cx.cno (laneMask x.mem) x.mem (pcOf s) (rawOf s) 0x10C 7 0)) ∧
  (∀ (s : State) (x : Cx),
    let g := s.grp x.gid
    let t := s.thr x.gid x.tid
    let l := g.launch
    let sr := readSR s x
    (g.service = false →
      (∀ gx gy gz, l.shape = (gx, gy, gz) → 0 < gx → 0 < gy →
        sr 0x00 = x.tid % gx ∧ sr 0x01 = x.tid / gx % gy ∧ sr 0x02 = x.tid / (gx * gy) ∧ sr 0x0D = gx + 2 ^ 16 * gy + 2 ^ 32 * gz) ∧
      sr 0x03 = x.tid ∧ sr 0x04 = x.cno ∧ sr 0x05 = x.lane ∧
      sr 0x06 = g.ham.1 * l.ngrp + g.rank ∧ sr 0x07 = g.ham.2.1 ∧ sr 0x08 = g.ham.2.2 ∧
      sr 0x09 = g.ham.1 ∧ sr 0x0A = g.ham.2.1 ∧ sr 0x0B = g.ham.2.2 ∧ sr 0x0C = g.stage ∧ sr 0x0E = l.ngrp ∧
      (∀ hx hy hz, l.grid = (hx, hy, hz) → sr 0x0F = hx + 2 ^ 16 * hy + 2 ^ 32 * hz) ∧
      sr 0x11 = g.core / 16 ∧ sr 0x12 = g.core / 256 ∧ sr 0x1A = t.pix.toNat) ∧
    (g.service = true →
      (∀ k, k ≤ 0x0C ∨ k = 0x1A → sr k = 0) ∧ sr 0x0D = 1 + 2 ^ 16 + 2 ^ 32 ∧ sr 0x0E = 1 ∧ sr 0x0F = 1 + 2 ^ 16 + 2 ^ 32 ∧
      sr 0x11 = 0xFFFFFFFF ∧ sr 0x12 = 6) ∧
    sr 0x10 = g.core ∧ sr 0x13 = s.pkg.toNat ∧ sr 0x14 = ((s.ctx? g.ctx).map ContextObj.id).getD 0 ∧ sr 0x15 = s.time ∧
    sr 0x17 = t.emask.toNat ∧ sr 0x18 = t.epc.toNat ∧ sr 0x19 = t.edepth)

/-- FENCE (R139, R140, R429): an acquire waits for the thread's own far atomics; a release also for the thread's requests to other packages, its replicated writes that another package stamps, beyond its group the plain stores that a buffer combines, and at system scope every combined write of its core and its writes that other members have yet to apply, the replicated writes having been applied on its die, at package scope on all; then the thread goes on, and until then it is parked. WAITC (R262, R275): where the location satisfies the comparison its value is the result at once; otherwise the thread is parked and a monitor watches the location; on a replicated page the die's replica has by then every write that the thread made (R250). SyncObjects (R277-R279): through a live SyncObject of the thread's world, with nobody waiting, ACQ takes a hold that the holds in being allow and BIND records or clears the range of a slot; each completes with status OK. REL ends the holder's hold, and the earliest requests are looked at, once the performer's replicated writes are performed (R249, R256). What rests on a choice of the model: log entry 66. -/
def Obligations.FencesConditionsAndHolds : Prop :=
  (∀ (s : State) (h : Hdr) (a : Actor) (o : MOrd) (sc : Scope), Solo s h a →
    let rel := o == .release || o == .sc
    let r := if rel then releaseAt s a.cx sc else s
    let waits := if rel then releaseBlocked r a.cx sc else farPending r a.cx
    (waits = false → exec (.fence h o sc) s = .next (advanceActor r a)) ∧
    (waits = true → exec (.fence h o sc) s = .next (park r a.cx .fence))) ∧
  (∀ (s : State) (x : Cx) (sc : Scope),
    (releaseBlocked s x sc = false ↔ farPending s x = false ∧ remotePending s x = false ∧ replAway s x.gid x.tid = false ∧
      (sc ≠ .clan → sc ≠ .group → storesOpen s x = false) ∧
      (sc = .system → remoteWrites s (coreKey (s.grp x.gid)) = false ∧ replOwes s x.gid x.tid = false)) ∧
    (sc ≠ .package → sc ≠ .system → releaseAt s x sc = replSettleDie s (replDie s x)) ∧
    releaseAt s x .package = replSettle s ∧ releaseAt s x .system = replSettle (wcDrain s (coreKey (s.grp x.gid)) fun _ => true)) ∧
  (∀ (s s0 s1 : State) (h : Hdr) (a : Actor) (m : MemOp) (cmp : Cond) (sgn : Bool) (d c : Reg) (l : Loc), Performs s h s0 a →
    let x := a.cx
    let n := AType.bytes m.ty
    let mon : Monitor := { who := a.who, loc := l, n := n, cmp := cmp, sgn := sgn, c := rdW s0 x (n == 8) c, d := d, foot := footOf s0 }
    waitcWay s0 x m = .here l → orderBefore s0 a (if m.ord == .sc then .sc else .plain) (l.scope s0 m.scope) = (s1, false) → eccLoc s0 l n = false →
    edgeHeld s1 a = false →
    let s2 := match l with | .mem _ 1 _ => replSettleDie s1 (replDie s1 x) | _ => s1
    ((mon.test s2).2 = true → exec (.waitc h m cmp sgn d c) s = .next (land s2 a h (wrW s0 x (n == 8) d (mon.test s2).1))) ∧
    ((mon.test s2).2 = false → exec (.waitc h m cmp sgn d c) s =
      .next { a.cxs.foldl (fun s y => park s y .monitor) s2 with monitors := s2.monitors ++ [mon] })) ∧
  (∀ (s s0 : State) (h : Hdr) (a : Actor) (ex : Bool) (d so r : Reg) (slot : Fin 16) (o : SyncObj), Performs s h s0 a →
    let x := a.cx
    let k := rdCap s0 x so
    let rng := useCap s0 x r
    let stand := a.cxs.foldl (fun s y => park s y (.hold k.base)) s0
    let done (o' : SyncObj) : State :=
      let t := stand.setBody k.base (.sync o')
      completeWith t a.who (fun y => wrStatus t y d stOK) (footOf s0)
    syncRefusal s0 x k = none → s0.sync? k.base = some o →
    ((o.holds.any fun p => p.1 == holderFor a) = false → o.waiters = [] →
      ((if ex then o.holds = [] else ∀ p ∈ o.holds, p.2 = false) →
        exec (.acq h ex d so) s = .next (done { o with holds := o.holds ++ [(holderFor a, ex)] })) ∧
      (o.holds = [] → rng.tag = true → rng.sealed = false → inWindow rng = false →
        exec (.bind h d so slot r) s = .next (done { o with slots := Map.set slot.val (rng.base, rng.top) o.slots })) ∧
      (o.holds = [] → exec (.bindUn h d so slot) s = .next (done { o with slots := Map.del slot.val o.slots }))) ∧
    ((o.holds.any fun p => p.1 == holderFor a) = true → edgeHeld s0 a = false →
      let r := replSettle s0
      exec (.rel h d so) s = .next (retire (serveSync (r.setBody k.base (.sync { o with holds := o.holds.filter fun p => p.1 != holderFor a })) k.base) a
        (wrStatus r x d stOK))))

/-- TRAP and BKPT (R133, R372): the thread stands where it was and the fault has the trap's class and subclass, with the trap's value in its address field. Taking a fault (R373-R376), where the Context has a live fault endpoint with room and nobody waiting there, and no thread watches memory: the record joins the group's pending records with the Context's next FID, the group is held, no thread of it changes its place, and the message waits in the Endpoint. What rests on a choice of the model: log entry 24. -/
def Obligations.FaultsAreRecordedAndHeld : Prop :=
  (∀ (s : State) (c : Cur) (h : Hdr) (a : Actor) (v : Reg) (imm : BitVec 32), Solo s h a → s.cur = some c →
    let m := laneMask [a.cx.lane]
    let takes (i : Instr) (sub : Nat) (value : Word) : Prop :=
      exec i s = .next (raise s c.gid c.clan m m c.pc c.raw false false { cls := 3, sub := sub, addr := value.setWidth 64 })
    takes (.trapB h v) 2 (rd32 s a.cx v) ∧ takes (.trapI h imm) 2 imm ∧ takes (.bkpt h) 3 0) ∧
  (∀ (s : State) (gid clan : Nat) (im fm : BitVec 32) (pc : DWord) (insn : BitVec 128) (noins late : Bool) (f : FaultInfo)
    (g : Group) (k : ContextObj) (e : Endpoint),
    s.grp? gid = some g → s.ctx? g.ctx = some k → liveEp s k.faultEp = true → s.ep? k.faultEp.base = some e →
    e.receivers = [] → e.subs = [] → e.ring = none → e.msgs.length < e.depth → s.monitors = [] →
    let t := raise s gid clan im fm pc insn noins late f
    (∃ r, (t.grp gid).faults = g.faults ++ [r] ∧ r.fid = k.nextFid ∧ r.info = f ∧ r.clan = clan ∧ r.imask = im ∧ r.fmask = fm ∧
      r.pc = pc ∧ r.insn = insn ∧ r.noins = noins ∧ r.deferred = late ∧ r.time = s.time ∧ r.answer = none) ∧
    groupRuns t gid = false ∧
    (∀ u, (t.thr gid u).pcc = (s.thr gid u).pcc ∧ (t.thr gid u).v = (s.thr gid u).v ∧ (t.thr gid u).c = (s.thr gid u).c ∧ (t.thr gid u).p = (s.thr gid u).p) ∧
    (t.ctx? g.ctx).map ContextObj.nextFid = some (k.nextFid + 1) ∧
    (∃ m, (t.ep? k.faultEp.base).map Endpoint.msgs = some (e.msgs ++ [m]) ∧ m.words.length = 8 ∧ m.reply = none ∧ m.badge = k.faultEp.badge))

/-- Entry to the emulation handler (R53, R57, R388-R390), by a word of an unassigned slot whose disposition is to be emulated: the thread's program-counter capability, its c30, its address, the instance's threads, the word and the reason are kept in the return record of the new depth; c30 is the thread's scratch capability, and the thread stands at the handler. Without a handler, or where the disposition refuses, it is an illegal-instruction fault. Return from the emulation handler (R397): EMRET takes back the program-counter capability and c30 of the innermost record, at the address after the emulated instruction, at the instruction itself, or at a given capability; the depth falls by one, and the other threads of the instance lose the thread from their masks. What rests on a choice of the model: log entry 30. -/
def Obligations.EmulationHandlerEntryAndReturn : Prop :=
  (∀ (s : State) (c : Cur) (h : Hdr) (raw : BitVec 128) (k : ContextObj), Issues s c → c.gathered = false →
    s.ctx? (s.grp c.gid).ctx = some k →
    let op := (Raw.ofWord raw.toNat).op
    let on := c.lanes.filter fun l => (s.thr c.gid (c.clan * 32 + l)).guard h
    (odtEntry s c.gid op ≤ 1 → k.handler.tag = true → (∀ l ∈ c.lanes, (s.thr c.gid (c.clan * 32 + l)).edepth ≤ 1) →
      gathersOp op (Raw.ofWord raw.toNat).mod = false →
      Does (.unassignedOpcode h raw) s c h fun x t =>
        let r : RetRec := { pcc := t.pcc, c30 := SMap.get Cap.null 30 t.c, epc := BitVec.ofNat 64 t.pcc.addr, emask := laneMask on,
                            w4 := BitVec.ofNat 32 (c.raw.toNat % 2 ^ 20 + 1 * 2 ^ 20), raw := c.raw, slot := slotValue s c.gid c.raw }
        { t.leave with
          edepth := t.edepth + 1, rr1 := if t.edepth = 0 then r else t.rr1, rr2 := if t.edepth = 0 then t.rr2 else r
          c := SMap.put Cap.null 30 (scratchCap (s.grp c.gid) (t.edepth + 1) x.tid) t.c, pcc := k.handler }) ∧
    (2 ≤ odtEntry s c.gid op ∨ k.handler.tag = false → on ≠ [] →
      exec (.unassignedOpcode h raw) s = .next (raise s c.gid c.clan (laneMask c.lanes) (laneMask on) c.pc c.raw false false { cls := 3, sub := 1 }))) ∧
  (∀ (s : State) (h : Hdr) (a : Actor) (m : EmMode), Solo s h a → Present s a.cx → a.cx.lane < 32 →
    let x := a.cx
    let q := s.thr x.gid x.tid
    let r := if q.edepth = 2 then q.rr2 else q.rr1
    q.edepth = 1 ∨ q.edepth = 2 →
    ∃ t, exec (.emret h m) s = .next t ∧
      t.thr x.gid x.tid = { q.leave with
        pcc := match m with
          | .adv => r.pcc.withAddr (r.epc + if r.w4.toNat % 4 = 0 then 8 else 16).toNat
          | .retry => r.pcc
          | .to b => rdCap s x b
        c := SMap.put Cap.null 30 r.c30 q.c, edepth := q.edepth - 1 } ∧
      (∀ u, u < 32 → u ≠ x.lane →
        let o := s.thr x.gid (x.cno * 32 + u)
        t.thr x.gid (x.cno * 32 + u) =
          if q.edepth = 1 then (if 1 ≤ o.edepth then { o with rr1 := { o.rr1 with emask := o.rr1.emask &&& ~~~laneMask [x.lane] } } else o)
          else (if o.edepth = 2 then { o with rr2 := { o.rr2 with emask := o.rr2.emask &&& ~~~laneMask [x.lane] } } else o)) ∧
      { t with groups := s.groups } = s)

/-! Class 3. -/

/-- The checks of an access in their order (R7): tag, seal, permissions, bounds, alignment; the first that fails is the fault's subclass, and its address field is the access's address. A load that fails its checks faults, and the thread stands where it was with nothing read or written (R7, R8, R375). A tagged granule is stored through STORECAP, one that is not global also through STORELOCAL, and these are checked with the others, before any translation (R32, R38, R146). -/
def Obligations.AccessChecksAndFailures : Prop :=
  (∀ (c : Cap) (a n align : Nat) (perms : List Nat),
    let f (k : Nat) : Option FaultInfo := some { cls := 1, sub := k, addr := BitVec.ofNat 64 a, cap := c }
    let has := ∀ p ∈ perms, c.perm.getLsbD p = true
    let inside := c.base ≤ a ∧ a + n ≤ c.top
    (c.tag = false → capCheckAlign c a n align perms = f 1) ∧
    (c.tag = true → c.otype ≠ 0 → capCheckAlign c a n align perms = f 2) ∧
    (c.tag = true → c.otype = 0 → ¬ has → capCheckAlign c a n align perms = f 3) ∧
    (c.tag = true → c.otype = 0 → has → ¬ inside → capCheckAlign c a n align perms = f 4) ∧
    (c.tag = true → c.otype = 0 → has → inside → a % align ≠ 0 → capCheckAlign c a n align perms = f 5) ∧
    (c.tag = true → c.otype = 0 → has → inside → a % align = 0 → capCheckAlign c a n align perms = none)) ∧
  (∀ (s : State) (c : Cur) (h : Hdr) (a : Actor) (m : MemOp) (rot : Fin 8) (d : Reg) (f : FaultInfo), h.u = false → Solo s h a → s.cur = some c →
    let lm := laneMask [a.cx.lane]
    let fails (i : Instr) : Prop := exec i s = .next (raise s c.gid c.clan lm lm c.pc c.raw false false f)
    (ldWay s a.cx m 0 = .bad f → fails (.ldM h m d)) ∧ (ldWay s a.cx m rot.val = .bad f → fails (.ldN h m rot d)) ∧
    (ldcWay s a.cx m = .bad f → fails (.ldc h m d)) ∧
    (stWay s a.cx m 0 = .bad f → fails (.stM h m d)) ∧ (stWay s a.cx m rot.val = .bad f → fails (.stN h m rot d)) ∧
    (stcWay s a.cx m d = .bad f → fails (.stc h m d)) ∧
    (∀ aop comb hold ra ar b, atomWay s a.cx m = .bad f → fails (.atom h m aop comb hold ra ar d b)) ∧
    (let v := rdCap s a.cx d
     let k := useCap s a.cx m.cap
     let perms := [permStore] ++ (if v.tag then [permStoreCap] ++ (if v.g then [] else [permStoreLocal]) else [])
     k.x = false → capCheckAlign k (memAddr s a.cx m) 16 16 perms = some f → fails (.stc h m d)))

/-- Loads (R46, R141, R142, R145, R228): where the checks pass and the place is plain memory, a window or a scratchpad, the bytes there come back little-endian, zero- or sign-extended to the register (`loadWrites`), at once or within the lookahead window; LDC brings the granule with its tag, cleared without LOADCAP. The scope of an ordered access is no wider than the reach of its place (R242). -/
def Obligations.LoadsReadTheirPlaces : Prop :=
  ∀ (s s0 s1 : State) (h : Hdr) (a : Actor) (m : MemOp) (rot : Fin 8) (d : Reg) (l : Loc), Performs s h s0 a →
    let x := a.cx
    let n := AType.bytes m.ty
    orderBefore s0 a (if m.ord == .sc then .sc else .plain) (l.scope s0 m.scope) = (s1, false) → l.io = false →
    (ldWay s0 x m 0 = .here l → eccLoc s0 l n = false → eccLoc s1 l n = false →
      exec (.ldM h m d) s = .next (land s1 a h (loadWrites s0 x m.ty d (readAt s1 x l n)))) ∧
    (ldWay s0 x m rot.val = .here l → eccLoc s0 l n = false → eccLoc s1 l n = false →
      exec (.ldN h m rot d) s = .next (land s1 a h (loadWrites s0 x m.ty d (readAt s1 x l n)))) ∧
    (ldcWay s0 x m = .here l → eccLoc s0 l 16 = false → eccLoc s1 l 16 = false →
      exec (.ldc h m d) s = .next (land s1 a h (wrCap s1 x d (loadedCap (useCap s0 x m.cap) (readCapAt s1 x l)))))

/-- Stores (R46, R141, R142, R146, R228): where the checks pass, the register's low bytes are written at the place, and STC writes the granule with its tag; a release waits before the write, as its scope asks. The frame of a store: a plain ST whose place is an address of physical memory leaves every byte outside the bytes it stores as it was, read through a page of the same key or, in a granule it does not touch, of any key (R455), and in memory of the types that take a store at once those bytes are the register's; one to a window or a scratchpad leaves all of memory as it was. -/
def Obligations.StoresWriteOnlyTheirPlaces : Prop :=
  (∀ (s s0 s1 : State) (h : Hdr) (a : Actor) (m : MemOp) (rot : Fin 8) (d : Reg) (l : Loc), Performs s h s0 a →
    let x := a.cx
    let after (t : State) := exec (.stc h m d) s = .next t
    let sc := l.scope s0 m.scope
    orderBefore s0 a m.ord sc = (s1, false) →
    (stWay s0 x m 0 = .here l →
      exec (.stM h m d) s = .next (advanceActor (orderAfter (writeLoc s1 a.writers l (storeBytes s0 x m.ty d) []) a m.ord sc) a)) ∧
    (stWay s0 x m rot.val = .here l →
      exec (.stN h m rot d) s = .next (advanceActor (orderAfter (writeLoc s1 a.writers l (storeBytes s0 x m.ty d) []) a m.ord sc) a)) ∧
    (stcWay s0 x m d = .here l →
      after (advanceActor (orderAfter (writeCapAt s1 a.writers l (sieve s1 (worldOfCx s1 x) (rdCap s0 x d))) a m.ord sc) a))) ∧
  (∀ (s s0 : State) (h : Hdr) (a : Actor) (m : MemOp) (d : Reg) (l : Loc), Performs s h s0 a → Memory.wf s = true → m.ord = .plain →
    let x := a.cx
    let n := AType.bytes m.ty
    stWay s0 x m 0 = .here l →
    ∃ t, exec (.stM h m d) s = .next t ∧
      (∀ pa mt k, l = .mem pa mt k → ∀ b, b < pa ∨ pa + n ≤ b → byteVia t k b = byteVia s k b) ∧
      (∀ pa mt k, l = .mem pa mt k → ∀ b q, b / 16 ∉ granules pa n → byteVia t q b = byteVia s q b ∧ byteAt t b = byteAt s b) ∧
      (∀ pa mt k, l = .mem pa mt k → mt = 0 ∨ mt = 3 → ∀ j, j < n → byteVia t k (pa + j) = (storeBytes s0 x m.ty d).getD j 0) ∧
      ((∀ pa mt k, l ≠ .mem pa mt k) → t.mem = s.mem ∧ t.tags = s.tags ∧ t.cipher = s.cipher))

/-- Hints and cache maintenance (R147-R149): no value that a program can see changes. A hint through a capability that cannot serve it is dropped and counted; RESID.keep of an absent file page asks for it; CFLUSH checks its address as a load would, through an exported capability at the package of origin, after the buffered stores to its line (R440); and the thread goes on. PWAIT (R276): a thread whose range is in a scratchpad waits while the presence bit of a line of it is clear, lowest line first, and goes on when none is; a range elsewhere holds nobody. -/
def Obligations.HintsAndPresenceWaits : Prop :=
  (∀ (s s0 : State) (h : Hdr) (a : Actor) (m : HintOp) (ph : PrefHint) (rh : ResidHint) (fo : FlushOp) (l : Loc), Performs s h s0 a →
    let x := a.cx
    (hintDropped s0 x m = true →
      exec (.pref h ph m) s = .next (advanceActor (countDrop s0 (ctxOf s0 x)) a) ∧
      exec (.resid h rh m) s = .next (advanceActor (countDrop s0 (ctxOf s0 x)) a)) ∧
    (hintDropped s0 x m = false →
      exec (.pref h ph m) s = .next (advanceActor s0 a) ∧
      (rh ≠ .keep ∨ (∀ f p, locate s0 x .rd (hintAddr s0 x m) 1 ≠ .absent f p) → exec (.resid h rh m) s = .next (advanceActor s0 a)) ∧
      (∀ f p, locate s0 x .rd (hintAddr s0 x m) 1 = .absent f p → exec (.resid h .keep m) s = .next (advanceActor (demandPage s0 f p) a))) ∧
    (wayOf s0 x (useCap s0 x m.cap) (hintAddr s0 x m) 1 1 [permLoad] .rd true = .here l → exec (.cflush h fo m) s = .next (advanceActor s0 a)) ∧
    (wayOf s0 x (useCap s0 x m.cap) (hintAddr s0 x m) 1 1 [permLoad] .rd true = .away →
      let k := useCap s0 x m.cap
      let s1 := wcFlushLines s0 x.gid k (xOff k (hintAddr s0 x m)) 1
      ∃ t r, exec (.cflush h fo m) s = .next t ∧ Map.get? s1.nextId t.remotes = some r ∧ r.op = .load 1 ∧ r.entry = k.xEntry ∧ r.off = xOff k (hintAddr s0 x m) ∧
        t.mem = s0.mem ∧ t.nextId = s1.nextId + 1)) ∧
  (∀ (s : State) (h : Hdr) (a : Actor) (m : HintOp) (len : Reg) (l1 : Loc), Solo s h a →
    let x := a.cx
    let b := hintAddr s x m
    let n := pwaitLen s x len
    let side (q : Nat) : Way := wayOf s x (useCap s x m.cap) (q % 2 ^ 64) 1 1 [permLoad] .rd false
    let inPad := windowOf b = some 1 ∨ windowOf b = some 2
    (∀ f, side b ≠ .bad f) → (∀ f, side (b + n - 1) ≠ .bad f) →
    (inPad → darkRange s x b n = none → exec (.pwait h m len) s = .next (advanceActor s a)) ∧
    (∀ g ln, inPad → darkRange s x b n = some (g, ln) → exec (.pwait h m len) s = .next (park s x (.line g ln))) ∧
    (¬ inPad → side b = .here l1 → exec (.pwait h m len) s = .next (advanceActor s a)))

/-- What an atomic leaves at its location (R265): the function of the old value and the operand, on the access's bits; the float forms round the sum once, or give the smaller or the larger number (R73, R74). ATOM, ATOMX and RED complete: in every state and for every operand that meet the conditions named, `exec` answers a next state. Atomics performed at the core (R264-R266): one read-modify-write at the place, whose old value ATOM and ATOMX bring back; ATOMX stores only when the old value is its comparand; RED brings nothing back; .acqrel has no fence after it. Far atomics (R266-R269): one of plain order sends one request with the location, operation and operand, and the thread goes on, with the old value to come for ATOM and ATOMX. What rests on a choice of the model: log entries 11, 25 and 26. -/
def Obligations.AtomicsReadModifyWrite : Prop :=
  (∀ (n v x : Nat), n = 32 ∨ n = 64 → v < 2 ^ n → x < 2 ^ n →
    newVal .add n v x = (v + x) % 2 ^ n ∧
    (∀ j, (newVal .and n v x).testBit j = (v.testBit j && x.testBit j)) ∧
    (∀ j, (newVal .or n v x).testBit j = (v.testBit j || x.testBit j)) ∧
    (∀ j, (newVal .xor n v x).testBit j = (v.testBit j ^^ x.testBit j)) ∧
    toSigned n (newVal .smin n v x) = min (toSigned n v) (toSigned n x) ∧
    toSigned n (newVal .smax n v x) = max (toSigned n v) (toSigned n x) ∧
    newVal .umin n v x = min v x ∧ newVal .umax n v x = max v x ∧ newVal .swapOp n v x = x ∧
    newVal .inc n v x = (if x ≤ v then 0 else v + 1) ∧ newVal .dec n v x = (if v = 0 ∨ x < v then x else v - 1) ∧
    (∀ aop, aop ≠ .fadd → aop ≠ .fmin → aop ≠ .fmax → newVal aop n v x < 2 ^ n) ∧
    (n = 32 →
      let V (y : Nat) : Val := decodeF .fp32 false y
      let R (y : Val) : Nat := encodeF .fp32 .rn false false y
      newVal .fadd n v x = R (Val.add .rn (V v) (V x)) ∧ newVal .fmin n v x = R (Val.minNum (V v) (V x)) ∧
      newVal .fmax n v x = R (Val.maxNum (V v) (V x)))) ∧
  (∀ (s s0 s1 : State) (h : Hdr) (a : Actor) (m : MemOp) (aop : AOp) (comb hold ra ar : Bool) (d b nv : Reg) (l : Loc), Performs s h s0 a →
    let x := a.cx
    let n := AType.bytes m.ty
    let wide := n == 8
    let sc := l.scope s0 m.scope
    m.far = false → m.ty48 = true → atomWay s0 x m = .here l → orderBefore s0 a m.ord sc = (s1, false) → eccLoc s0 l n = false → eccLoc s1 l n = false →
    (∀ pa k, l = .mem pa 1 k → replHeld s1 pa = false) →
    let r := performAtom s1 a.writers l aop none n (rdW s0 x wide b)
    let q := performAtom s1 a.writers l .swapOp (some (rdW s0 x wide b)) n (rdW s0 x wide nv)
    let ends (t : State) (ar : Bool) : State := orderAfter (catchUp t x.gid l) a (if ar then .release else m.ord) sc
    exec (.atom h m aop comb hold ra ar d b) s = .next (land (ends r.2 ar) a h (wrW s0 x wide d r.1)) ∧
    exec (.atomx h m ar d b nv) s = .next (land (ends q.2 ar) a h (wrW s0 x wide d q.1)) ∧
    exec (.red h m aop comb hold ra b) s = .next (advanceActor (ends r.2 false) a) ∧
    (∀ pa key, l = .mem pa 0 key → Memory.wf s1 = true → s1.monitors = [] →
      let num (t : State) : Nat := ofBytes (readVia t key pa n)
      r.1 = num s1 ∧ num r.2 = newVal aop (8 * n) r.1 (rdW s0 x wide b) % 2 ^ (8 * n) ∧
      q.1 = num s1 ∧ num q.2 = (if q.1 = rdW s0 x wide b then rdW s0 x wide nv else q.1) ∧
      (∀ k, k < pa ∨ pa + n ≤ k → byteVia r.2 key k = byteVia s1 key k ∧ byteVia q.2 key k = byteVia s1 key k))) ∧
  (∀ (s : State) (h : Hdr) (a : Actor) (m : MemOp) (aop : AOp) (comb hold ra ar : Bool) (d b nv : Reg) (pa mt : Nat) (key : MemKey), h.u = false → Solo s h a →
    m.far = true → m.ord = .plain → atomWay s a.cx m = .here (.mem pa mt key) → mt ≠ 1 → (∀ c, s.cur = some c → ∀ f ∈ s.fars, f.1 < c.no) →
    let n := AType.bytes m.ty
    let v (r : Reg) : Nat := rdW s a.cx (n == 8) r
    let gone := (s.thr a.cx.gid a.cx.tid).advance (footOf s)
    let asks (i : Instr) (op : AOp) (cmp : Option Nat) (operand : Nat) (late : List Pend) : Prop :=
      ∃ t q, exec i s = .next t ∧ Map.get? s.nextId t.fars = some q ∧
        q.pa = pa ∧ q.key = key ∧ q.aop = op ∧ q.cmp = cmp ∧ q.size = n ∧ q.operand = operand ∧ q.old = none ∧ q.dest = .here ∧
        t.mem = s.mem ∧ t.nextId = s.nextId + 1 ∧
        (Present s a.cx → t.thr a.cx.gid a.cx.tid = { gone with pend := gone.pend ++ late })
    let late : List Pend := [⟨.far s.nextId, [], h.look.val, pcOf s, rawOf s, gone.issue⟩]
    asks (.atom h m aop comb hold ra ar d b) aop none (v b) late ∧
    asks (.atomx h m ar d b nv) .swapOp (some (v b)) (v nv) late ∧
    asks (.red h m aop comb hold ra b) aop none (v b) [])

/-! Class 4: capabilities. -/

/-- Capability derivation (R151, R153-R156, R158): the result in its capability register, its tag kept only where the bits make a capability (R26) and no closed range takes it (R407); and the inspections and tests (R152, R157). -/
def Obligations.CapabilityInstructions : Prop :=
  ∀ (s : State) (c : Cur) (h : Hdr) (n d q a r : Reg) (ex : Bool) (imm : BitVec 32) (lmm : BitVec 64) (pd : Pred) (f : CField) (cd : CCond),
    Issues s c →
    let Q (x : Cx) : Cap := rdCap s x q
    let R (x : Cx) : Cap := rdCap s x r
    let cap (i : Instr) (g : Cx → Cap) : Prop := Yields i s c h fun x => wrCap s x n (g x)
    let A (x : Cx) : Nat := (rd64 s x a).toNat
    let I : Nat := (imm.signExtend 64).toNat
    cap (.csetaB h n q a) (fun x => (Q x).withAddr (A x)) ∧
    cap (.csetaI h n q imm) (fun x => (Q x).withAddr I) ∧
    cap (.csetaL h n q lmm) (fun x => (Q x).withAddr lmm.toNat) ∧
    cap (.cincB h n q a) (fun x => (Q x).withAddr ((Q x).addr + A x)) ∧
    cap (.cincI h n q imm) (fun x => (Q x).withAddr ((Q x).addr + I)) ∧
    cap (.cincL h n q lmm) (fun x => (Q x).withAddr ((Q x).addr + lmm.toNat)) ∧
    cap (.cbndB h ex n q a) (fun x => (Q x).setBounds ex (A x)) ∧
    cap (.cbndI h ex n q imm) (fun x => (Q x).setBounds ex imm.toNat) ∧
    cap (.cbndL h ex n q lmm) (fun x => (Q x).setBounds ex lmm.toNat) ∧
    cap (.candpB h n q a) (fun x => (Q x).andPerm (rd32 s x a)) ∧
    cap (.candpI h n q imm) (fun x => (Q x).andPerm imm) ∧
    cap (.cseal h n q r) (fun x => (Q x).sealWith (R x)) ∧
    cap (.cunseal h n q r) (fun x => (Q x).unsealWith (R x)) ∧
    cap (.cmov h n q) Q ∧
    cap (.cclr h n q) (fun x => { Q x with tag := false }) ∧
    (Yields (.cget h f d q) s c h fun x => wrW s x (CField.wide f) d (cgetVal f (Q x))) ∧
    Yields (.ctest h cd pd q r) s c h (fun x => [.p pd (match cd with
      | .tag => (Q x).tag
      | .seal => (Q x).tag && (Q x).otype != 0
      | .inb => (Q x).tag && (Q x).otype == 0 && decide ((Q x).base ≤ (Q x).addr) && decide ((Q x).addr < (Q x).top)
      | .sub => (Q x).tag && (R x).tag && decide ((Q x).base ≤ (R x).base) && decide ((R x).top ≤ (Q x).top) && ((R x).perm &&& ~~~(Q x).perm) == 0
      | .x => (Q x).tag && (Q x).x)]) ∧
    Yields (.ceq h pd q r) s c h (fun x => [.p pd (decide (Q x = R x))])

/-- No derivation gains authority (R26, R33, R153-R156, R158): whatever comes out tagged came from a tagged capability, with bounds within its bounds and no permission that it lacked; a sealed capability is changed by no derivation but its unsealing. -/
def Obligations.DerivationsNeverGainAuthority : Prop :=
  ∀ (c s : Cap) (a n : Nat) (ex : Bool) (m : Word), c.fit = true →
    let within (d : Cap) : Prop := d.tag = true → c.tag = true ∧ c.base ≤ d.base ∧ d.top ≤ c.top ∧ d.perm &&& ~~~c.perm = 0
    within (c.withAddr a).norm ∧ within (c.setBounds ex n).norm ∧ within (c.andPerm m).norm ∧ within (c.sealWith s).norm ∧ within (c.unsealWith s).norm ∧
    within c.norm ∧
    (c.otype ≠ 0 → (c.withAddr a).tag = false ∧ (c.setBounds ex n).tag = false ∧ (c.andPerm m).tag = false ∧ (c.sealWith s).tag = false) ∧
    ((c.sealWith s).tag = true → s.tag = true ∧ s.has permSeal = true ∧ (c.sealWith s).otype = s.addr) ∧
    ((c.unsealWith s).tag = true → s.tag = true ∧ s.has permUnseal = true ∧ c.otype = s.addr ∧ (c.unsealWith s).otype = 0)

/-- EXPORT (R434, R438, R439): making an export of a capability that may leave takes the lowest free entry and answers the capability that names it, sealed as exported, with the entry's check and the permissions that a mask leaves; one that may not gives a null capability and false. Dropping ends the entry of an export of this package and world. Requests of other packages (R435, R436): an entry that is not there or whose check differs is refused as a tag fault, one that lacks the permission as a permission fault, and the check of the source capability by its own class; a load brings the bytes, a store writes them, at package scope, each answered with its identifier, a store when it is performed; one that needs a page not in memory waits for it, and those of its class and source wait behind it (R432); what goes through an entry of a protected world must have come sealed (R462): any other packet, and one that fails authentication, is dropped and reported; an answer to a sealed request is sealed under the next IV of its plane, and without a pair key none leaves. An entry that is dropped is invalid at once, and the drop completes when what had passed its check is performed (R439). What rests on a choice of the model: log entries 8 and 49. -/
def Obligations.ExportsNameAndServe : Prop :=
  (∀ (s s0 : State) (h : Hdr) (a : Actor) (ps : Pred) (d x : Reg) (mask : Option Reg) (e : ExportEntry), Performs s h s0 a →
    let c := sieve s0 (worldOfCx s0 a.cx) (rdCap s0 a.cx x)
    let k := rdCap s0 a.cx x
    let perm := match mask with | some r => c.perm &&& (rd32 s0 a.cx r).extractLsb' 0 16 | none => c.perm
    let i := freeExport s0.exports s0.exports.length 0
    let chk := (Config.trngBits s0.fresh).toNat % 2 ^ 20
    let may := c.tag = true ∧ c.x = false ∧ c.has permRemote = true ∧ (c.otype = 0 ∨ (c.otype = 1 ∧ c.has permInvoke = true)) ∧
      meetsWindow c = false ∧ s0.exports.length < 1048576 ∧ s0.trngOk = true
    (may →
      let s1 := { s0 with fresh := s0.fresh + 1, exports := Map.set i { src := c, perm := perm, chk := BitVec.ofNat 20 chk, world := worldOfCx s0 a.cx, ctx := ctxOf s0 a.cx, aspace := aspaceOf s0 (ctxOf s0 a.cx) } s0.exports }
      exec (.exportMake h ps d x mask) s = .next (retire s1 a (wrCap s1 a.cx d (c.exported perm chk s0.pkg.toNat i) ++ [.p ps true])) ∧
      Map.get? i s0.exports = none) ∧
    (¬ may → exec (.exportMake h ps d x mask) s = .next (retire s0 a (wrCap s0 a.cx d Cap.null ++ [.p ps false]))) ∧
    (k.tag = true → k.x = true → k.xPkg = s0.pkg.toNat → Map.get? k.xEntry s0.exports = some e → e.chk.toNat = k.xChk → e.world = worldOfCx s0 a.cx →
      e.dropper = none →
      (exportOpen s0 k.xEntry = false →
        exec (.exportDrop h ps d x mask) s = .next (retire { s0 with exports := Map.del k.xEntry s0.exports } a [.p ps true])) ∧
      (exportOpen s0 k.xEntry = true → exec (.exportDrop h ps d x mask) s = .next
        (parkActor { s0 with exports := Map.set k.xEntry { e with dropper := some a.who } s0.exports } a .fence)))) ∧
  (∀ (s : State) (r : RemoteReq),
    let answers (t : State) (b : RemoteAns) : Prop :=
      exec (.remoteRequestArrive r) s = .next (sendPacket t r.sealed r.src.toNat (.remoteAns r.src.toNat r.id b))
    (unsealedFor s r = true → exec (.remoteRequestArrive r) s = .next (almanac s (r.src.toNat % 18 / 3) 0 1 6 [])) ∧
    (unsealedFor s r = false → s.inbound.any (fun q => sameClass q.req r) = true →
      exec (.remoteRequestArrive r) s = .next { s with inbound := s.inbound ++ [⟨r, none, none⟩] }) ∧
    (unsealedFor s r = false → s.inbound.any (fun q => sameClass q.req r) = false →
      (Map.get? r.entry s.exports = none → answers s (.refuse 1 1)) ∧
      (∀ e, Map.get? r.entry s.exports = some e →
        let src := sieve s e.world e.src
        let a := (src.addr + r.off.toNat) % 2 ^ 64
        let al (n : Nat) : Nat := if r.engine then 1 else Nat.gcd n 16
        let good := e.chk = r.chk ∧ e.dropper = none
        (¬ good → answers s (.refuse 1 1)) ∧
        (good → ∀ n, r.op = .load n →
          (e.perm.getLsbD permLoad = false → answers s (.refuse 1 3)) ∧
          (e.perm.getLsbD permLoad = true →
            (∀ f, capCheckAlign src a n (al n) [permLoad] = some f → answers s (.refuse f.cls f.sub)) ∧
            (∀ ps, capCheckAlign src a n (al n) [permLoad] = none → pieces (exportPlace s e .rd) (n / 2 ^ 17 + 2) a n = .ok ps →
              (eccPieces s ps = false → answers (readRange s fabricCx ps).2 (.data (readRange s fabricCx ps).1)) ∧
              (eccPieces s ps = true → answers s (.refuse 9 1))) ∧
            (∀ f p, capCheckAlign src a n (al n) [permLoad] = none → pieces (exportPlace s e .rd) (n / 2 ^ 17 + 2) a n = .error (.absent f p) →
              exec (.remoteRequestArrive r) s = .next (demandPage { s with inbound := s.inbound ++ [⟨r, some { e with src := src }, some (f, p)⟩] } f p)))) ∧
        (good → ∀ bs ps, r.op = .store bs → e.perm.getLsbD permStore = true → capCheckAlign src a bs.length (al bs.length) [permStore] = none →
          pieces (exportPlace s e .wr) (bs.length / 2 ^ 17 + 2) a bs.length = .ok ps →
          let w := storeCx s.nextId
          let s1 := replSettle (writePieces { s with nextId := s.nextId + 1 } w.writer ps bs)
          let away := replAway s1 0 w.tid || replOwes s1 0 w.tid
          (away = false → answers s1 (.data [])) ∧
          (away = true → exec (.remoteRequestArrive r) s =
            .next (sendAway { s1 with acks := s1.acks ++ [⟨r.src.toNat, r.id, w.tid, r.entry, e.world⟩] }))) ∧
        (good → ∀ ws cs nb t, r.op = .send ws cs nb → e.perm.getLsbD permInvoke = true → src.tag = true → e.src.otype = 1 →
          (s.ep? e.src.base).isSome → s.worldOf e.src.base = e.world → s.dead e.src.base = false →
          let m : Msg := { words := ws, badge := e.src.badge, reply := none, caps := cs.map fun c => { (⟨c.1, c.2⟩ : Cap) with tag := c.2 && (⟨c.1, c.2⟩ : Cap).x } }
          (offer s e.src.base m = some t → answers t (.status 0)) ∧
          (offer s e.src.base m = none → nb = true → answers s (.status 1)) ∧
          (offer s e.src.base m = none → nb = false → exec (.remoteRequestArrive r) s =
            .next (s.modEp e.src.base fun q => { q with senders := q.senders ++ [.remote r.src.toNat r.id r.entry e.world m] })))))) ∧
  (∀ (s t : State) (port : Fin 18) (p : Payload) (r : RemoteReq) (b : Bool), SMap.get false (4 + port.val) s.portDown = false →
    exec (.fabricPacketReceive port true false p) s = .next (almanac s (port.val / 3) 0 1 6 []) ∧
    (r.sealed = false → unsealedFor s r = true →
      exec (.fabricPacketReceive port false b (.request r)) s = .next (answerAcks (almanac s (port.val / 3) 0 1 6 []))) ∧
    (r.sealed = false → unsealedFor s r = false → exec (.remoteRequestArrive r) s = .next t →
      exec (.fabricPacketReceive port false b (.request r)) s = .next (answerAcks t)) ∧
    (Map.get? r.src.toNat s.pairs = none → exec (.fabricPacketReceive port true true (.request r)) s = .next (almanac s (port.val / 3) 0 1 6 []))) ∧
  (∀ (s : State) (pkg : Nat) (o : Out),
    sendPacket s false pkg o = { s with out := s.out ++ [o] } ∧
    (Map.get? pkg s.pairs = none → sendPacket s true pkg o = s) ∧
    (∀ k, Map.get? pkg s.pairs = some k → (sendPacket s true pkg o).out = s.out ++ [o] ∧
      (Map.get? pkg (sendPacket s true pkg o).pairs).map (fun q => (q.key, SMap.get 0 (pkg % 18) q.sent)) = some (k.key, SMap.get 0 (pkg % 18) k.sent + 1)))

/-! Class 4: queues. -/

/-- Queues (R92, R249, R315-R320, R403): a push happens before the pop, so that the pusher's replicated writes are performed first (`r`). Through a binding of the right role and width, a push enters at the tail when there is room and nobody waits before it, and a pop takes the head, at once or, on an empty Queue, when an entry comes; the threads of an issue push one batch and pop in lane order, and a formed set pushes or pops one entry for all of its members; REVOKE pushes its capability into a GLEANER Queue and brings back the entry's position; QBIND binds a queue register to a live Queue, and .unb unbinds it. What rests on a choice of the model: log entry 37. -/
def Obligations.QueuesPassEntries : Prop :=
  (∀ (s : State) (h : Hdr) (a : Actor) (q : Fin 16) (t : MovW) (d v : Reg) (nbp : Pred) (qh : Nat) (o : QueueObj), h.u = false → Solo s h a →
    let x := a.cx
    let bound (role : QRole) (kind : Option Nat) (w : Nat) : Prop := checkBinding s x q.val role kind w = .ok qh
    let free (n : Nat) : Prop := o.waiters = [] ∧ n + o.reserved + o.es.length ≤ o.depth
    let r := replSettle s
    s.queue? qh = some o →
    (bound .push none (MovW.bits t) → free 1 → edgeHeld s a = false →
      let s1 := appendEntries r qh [pushValue r x t v]
      exec (.movPush h t q v false nbp) s = .next (serveQueue (advanceActor s1 a) qh) ∧
      (s1.queue? qh).map (fun k => k.es.length) = some (o.es.length + 1) ∧
      exec (.movPush h t q v true nbp) s = .next (serveQueue (retire s1 a [.p nbp true]) qh)) ∧
    (bound .push (some 5) 128 → free 1 → edgeHeld s a = false →
      let s1 := appendEntries r qh [mkEntry (rdCap s x v).bits (rdCap s x v).tag (ctxOf s x) []]
      exec (.revoke h d v q) s = .next (serveQueue (completeWith s1 (batchWho [a]) (fun y => wr32 s1 y d (BitVec.ofNat 32 o.pushed)) (footOf s)) qh)) ∧
    (∀ e rest, bound .pop none (MovW.bits t) → o.es = e :: rest → o.waiters = [] →
      let s1 := s.modQueue qh fun k => { k with es := rest, popped := k.popped + 1 }
      exec (.movPop h t d q true nbp) s = .next (wakeAll (serveQueue
        (completeWith s1 (batchWho [a]) (fun y => popWrites s1 y t d e ++ [.p nbp true]) (footOf s)) qh) (· == .room qh)) ∧
      (let s2 := (park s x (.queue qh)).modQueue qh fun k => { k with es := rest, popped := k.popped + 1 }
       exec (.movPop h t d q false nbp) s = .next (wakeAll (completeWith s2 (batchWho [a]) (fun y => popWrites s2 y t d e) (footOf s)) (· == .room qh)))) ∧
    (bound .pop none (MovW.bits t) → o.es = [] → exec (.movPop h t d q true nbp) s =
      .next (wakeAll (serveQueue (retire (s.modQueue qh id) a [.p nbp false]) qh) (· == .room qh))) ∧
    (bound .pop none (MovW.bits t) → o.es = [] → o.waiters = [] →
      exec (.movPop h t d q false nbp) s = .next ((park s x (.queue qh)).modQueue qh fun k =>
        { k with waiters := [.pop (batchWho [a]) t d (footOf s)] })) ∧
    (∀ role c, c = rdCap s x v → namesLive s c [11] (worldOfCx s x) → c.base = qh → kindAllows o.kind role = true →
      ((s.clan x.gid x.cno).q.filter fun b => !b.2.stage).length < bindLimit (s.grp x.gid) →
      let b : Binding := { q := qh, role := role, seq := 0, uid := s.nextId, made := o.made, stage := false, cap := sieve s (worldOfCx s x) c }
      let s1 := { s with nextId := s.nextId + 1 }.modClan x.gid x.cno fun k => { k with q := Map.set q.val b k.q }
      exec (.qbind h role d q v) s = .next (retire s1 a (wrStatus s1 x d stOK))) ∧
    (let s1 := s.modClan x.gid x.cno fun k => { k with q := Map.del q.val k.q }
     exec (.qbindUnb h d q) s = .next (retire s1 a (wrStatus s1 x d stOK)))) ∧
  (∀ (s : State) (c : Cur) (h : Hdr) (q : Fin 16) (t : MovW) (d v : Reg) (nbp : Pred) (qh : Nat) (o : QueueObj), h.u = false → s.cur = some c →
    let on := c.lanes.filter fun l => (s.thr c.gid (c.clan * 32 + l)).guard h
    let past := (c.lanes.filter fun l => !(s.thr c.gid (c.clan * 32 + l)).guard h).foldl (fun s l => advance s ⟨c.gid, c.clan, l⟩ c.foot) s
    let who (ls : List Nat) : Who := ⟨c.gid, c.clan, ls, false⟩
    let bound (role : QRole) : Prop := ∀ l ∈ on, checkBinding s ⟨c.gid, c.clan, l⟩ q.val role none (MovW.bits t) = .ok qh
    on ≠ [] → s.queue? qh = some o → o.waiters = [] →
    (bound .push → on.length + o.reserved + o.es.length ≤ o.depth →
      (∀ l ∈ on, edgeHeld past ⟨⟨c.gid, c.clan, l⟩, [l], false, none⟩ = false) →
      let r := replSettle past
      let s1 := appendEntries r qh (on.map fun l => pushValue r ⟨c.gid, c.clan, l⟩ t v)
      exec (.movPush h t q v false nbp) s = .next (serveQueue (completeWith s1 (who on) (fun _ => []) c.foot) qh)) ∧
    (bound .pop →
      let n := min on.length o.es.length
      let s1 := past.modQueue qh fun k => { k with es := k.es.drop n, popped := k.popped + n }
      let s2 := ((on.take n).zip o.es).foldl (fun st p => completeWith st (who [p.1]) (fun y => popWrites st y t d p.2 ++ [.p nbp true]) c.foot) s1
      exec (.movPop h t d q true nbp) s = .next (wakeAll (serveQueue (completeWith s2 (who (on.drop n)) (fun _ => [.p nbp false]) c.foot) qh) (· == .room qh)))) ∧
  (∀ (s s0 : State) (h : Hdr) (a : Actor) (q : Fin 16) (t : MovW) (d v : Reg) (nbp : Pred) (qh : Nat) (o : QueueObj), h.u = true → Formed s s0 a →
    let bound (role : QRole) : Prop := checkBinding s0 a.cx q.val role none (MovW.bits t) = .ok qh
    s0.queue? qh = some o → o.waiters = [] →
    (bound .push → 1 + o.reserved + o.es.length ≤ o.depth →
      let r := replSettle s0
      exec (.movPush h t q v false nbp) s =
        .next (serveQueue (completeWith (appendEntries r qh [pushValue r a.cx t v]) a.who (fun _ => []) (footOf s)) qh)) ∧
    (∀ e rest, bound .pop → o.es = e :: rest →
      let s1 := s0.modQueue qh fun k => { k with es := rest, popped := k.popped + 1 }
      exec (.movPop h t d q true nbp) s =
        .next (wakeAll (serveQueue (completeWith s1 a.who (fun y => popWrites s1 y t d e ++ [.p nbp true]) (footOf s)) qh) (· == .room qh))))

/-! Class 4: messages. -/

/-- Messages (R249, R356, R357, R359, R362, R363): what is sent happens before its receipt, so that the sender's replicated writes are performed first (`t`). Through a live Endpoint of its world with room and nobody waiting, a SEND's message is queued and its status is OK; a RECV takes the earliest message, whose words, capabilities, badge and reply it delivers; with none to take it waits, unless NB answers at once; an ECALL's message carries a Reply and its thread waits for the answer; an EREPLY answers the call that its Reply names. What a delivery writes (R359): as many words and capabilities as both sides have, zeros for the rest that the receiver asked for, the Reply, the INFO word with the counts, the truncation, the reply and the badge, and status OK. Notifications (R364): SIGNAL sets bits, which the earliest waiter takes whole; WAITN takes the word and clears it, or waits for one that is not zero, or with NB brings back zero. What rests on a choice of the model: log entries 10 and 36. -/
def Obligations.MessagesAndNotifications : Prop :=
  (∀ (s s0 : State) (h : Hdr) (a : Actor) (m : MsgOps) (nbp : Pred) (info rpl : Reg) (rnw : Fin 9) (rnc : Fin 3) (e : Endpoint) (r : ReplyObj), Performs s h s0 a →
    let x := a.cx
    let t := replSettle s0
    let c := rdCap s0 x m.obj
    let op (nw nc : Nat) (rp : Reg) (nb : Option Pred) : RecvOp :=
      { who := a.who, d := m.d, words := m.words, nw := nw, caps := m.caps, nc := nc, info := info, rpl := rp
        loadcap := c.has permLoadCap, nb := nb, foot := footOf s0, ctx := ctxOf s0 x }
    let quiet := e.receivers = [] ∧ e.subs = [] ∧ e.ring = none
    c.x = false → sieved s0 (worldOfCx s0 x) c = false →
    (msgRefusal t x c 1 permInvoke true = none → t.ep? c.base = some e → quiet → e.msgs.length < e.depth → edgeHeld s0 a = false →
      (∀ nb, let s1 := t.modEp c.base fun e => { e with msgs := e.msgs ++ [msgOf s0 x c m none] }
        exec (.send h m nb nbp) s = .next (retire s1 a (wrStatus t x m.d stOK ++ if nb then [.p nbp true] else []))) ∧
      exec (.ecall h m info rnw rnc) s = .next (
        (parkAll { t with replies := Map.set (replyHeader t x) { op := op rnw.val rnc.val .vz none, armed := true, taken := none, svc := none } t.replies } a
          (.reply (replyHeader t x))).modEp c.base fun e => { e with msgs := e.msgs ++ [msgOf s0 x c m (some (replyHeader t x))] })) ∧
    (msgRefusal s0 x c 1 permLoad false = none → s0.ep? c.base = some e →
      (∀ g ms, e.msgs = g :: ms → e.senders = [] →
        exec (.recv h m false nbp info rpl) s = .next (deliver (s0.modEp c.base fun e => { e with msgs := ms }) (op m.nw.val m.nc.val rpl none) g)) ∧
      (e.msgs = [] → e.senders = [] →
        exec (.recv h m false nbp info rpl) s = .next ((parkAll s0 a (.recv c.base)).modEp c.base fun e =>
          { e with receivers := e.receivers ++ [op m.nw.val m.nc.val rpl none] }) ∧
        exec (.recv h m true nbp info rpl) s = .next (retire s0 a (wrStatus s0 x m.d stFULL ++ [.p nbp false])))) ∧
    (c.tag = true → c.otype = 12 → c.has permInvoke = true → Map.get? c.base t.replies = some r → edgeHeld s0 a = false →
      let s1 := answerReply t c.base { words := rdWords s0 x m.words m.nw.val, badge := c.badge, reply := none, caps := sentCaps t (t.worldOf r.op.ctx) c (rdCaps s0 x m.caps m.nc.val) }
      exec (.ereply h m) s = .next (retire s1 a (wrStatus t x m.d stOK)))) ∧
  (∀ (s : State) (x : Cx) (r : RecvOp) (m : Msg),
    let full := decide (r.nw < m.words.length) || decide (r.nc < m.caps.length)
    deliverWrites s r m x =
      ((List.range r.nw).flatMap fun i => wr32 s x (Reg.plus r.words i) (m.words.getD i 0)) ++
      ((List.range r.nc).flatMap fun i => wrCap s x (Reg.plus r.caps i) { m.caps.getD i Cap.null with tag := (m.caps.getD i Cap.null).tag && r.loadcap }) ++
      wrCap s x r.rpl (match m.reply with | some h => replyCap h | none => Cap.null) ++
      wr32 s x r.info (infoWord (min m.words.length r.nw) (min m.caps.length r.nc) full m.reply.isSome m.badge) ++
      wr32 s x r.d 0 ++ (match r.nb with | some p => [.p p true] | none => []) ∧
    (m.badge < 2 ^ 13 → r.nw ≤ 8 → r.nc ≤ 2 →
      let w := infoWord (min m.words.length r.nw) (min m.caps.length r.nc) full m.reply.isSome m.badge
      w.extractLsb' 0 13 = BitVec.ofNat 13 m.badge ∧ w.getLsbD 13 = m.reply.isSome ∧ w.getLsbD 14 = full ∧
        (w.extractLsb' 16 4).toNat = min m.words.length r.nw ∧ (w.extractLsb' 20 12).toNat = min m.caps.length r.nc)) ∧
  (∀ (s s0 : State) (h : Hdr) (a : Actor) (d n b : Reg) (imm : BitVec 32) (ob : Obj) (k : Notification), Performs s h s0 a →
    let x := a.cx
    let c := rdCap s0 x n
    s0.obj? c.base = some ob → ob.body = .notification k →
    (let t := replSettle s0
     msgRefusal t x c 2 permInvoke false = none → k.waiters = [] → edgeHeld s0 a = false →
      let s1 (bits : DWord) := t.setBody c.base (.notification { k with word := k.word ||| bits })
      exec (.signalB h d n b) s = .next (retire (s1 (rd64 s0 x b)) a (wrStatus t x d stOK)) ∧
      exec (.signalI h d n imm) s = .next (retire (s1 (imm.setWidth 64)) a (wrStatus t x d stOK))) ∧
    (∀ who wd dd foot rest bits, k.waiters = (who, dd, wd, foot) :: rest → k.word ||| bits ≠ 0 →
      let s1 := s0.setBody c.base (.notification { k with word := 0, waiters := rest })
      signal s0 c.base bits = completeWith s1 who (fun y => wr64 s1 y wd (k.word ||| bits) ++ wrStatus s1 y dd stOK) foot) ∧
    (msgRefusal s0 x c 2 permLoad false = none →
      (k.word ≠ 0 → ∀ nb, exec (.waitn h nb d n b) s =
        .next (retire (s0.setBody c.base (.notification { k with word := 0 })) a (wr64 s0 x b k.word ++ wrStatus s0 x d stOK))) ∧
      (k.word = 0 → exec (.waitn h true d n b) s = .next (retire s0 a (wr64 s0 x b 0 ++ wrStatus s0 x d stOK))) ∧
      (k.word = 0 → exec (.waitn h false d n b) s = .next ((parkAll s0 a (.notif c.base)).setBody c.base
        (.notification { k with waiters := k.waiters ++ [(a.who, d, b, footOf s0)] })))))

/-! Class 4: objects. -/

/-- The gate of OBJ (R159, R345, R346): which capability passes, in the order of the checks; and for every row, a refusal writes its status, changes nothing else, and the thread goes on. .retype of an Untyped to every type (R347, R348, R457): the object takes its bytes at the Untyped's watermark, a Frame's and an AddressSpace's root zeroed, has the Untyped's world and its type's initial contents, and the answer is its capability with every permission of an object; an Untyped without room is FULL, and the first Context of a protected world takes a memory key, or is refused without one. What rests on a choice of the model: log entries 33 and 34. -/
def Obligations.ObjectGateAndRetype : Prop :=
  ((∀ (s : State) (x : Cx) (op : SubOp) (c cx : Cap) (ob : Obj),
    let names := c.tag = true ∧ c.otype ≠ 0 ∧ c.otype < 16 ∧ c.has permInvoke = true
    let allowed := (op.needsSysreg = false ∨ c.has permSysreg = true) ∧ (op = .bind → c.otype = 1 → cx.otype = 11 → c.has permLoad = true)
    (¬ names → gate s x op c cx = .error stBADCAP) ∧
    (names → op.applies c.otype = false → gate s x op c cx = .error stBADOP) ∧
    (names → op.applies c.otype = true → ¬ allowed → gate s x op c cx = .error stBADCAP) ∧
    (names → op.applies c.otype = true → allowed → c.otype ≠ 12 → c.otype ≠ 13 →
      (s.obj? c.base = none → gate s x op c cx = .error stDEAD) ∧
      (s.obj? c.base = some ob → ob.world ≠ worldOfCx s x → gate s x op c cx = .error stWORLD) ∧
      (s.obj? c.base = some ob → ob.world = worldOfCx s x → ob.torn = true → op ≠ .status → gate s x op c cx = .error stDEAD) ∧
      (s.obj? c.base = some ob → ob.world = worldOfCx s x → (ob.torn = false ∨ op = .status) → gate s x op c cx = .ok ob))) ∧
  (∀ (s s0 : State) (h : Hdr) (a : Actor) (o : ObjOps) (e : Nat), Performs s h s0 a →
    let rows : List (SubOp × (Hdr → ObjOps → Instr)) := [
      (.retype, .objRetype), (.config, .objConfigUntypedReset), (.config, .objConfigEndpointMint), (.config, .objConfigSenderMask),
      (.config, .objConfigNotificationMint), (.config, .objConfigSchedcontext), (.config, .objConfigOdt), (.config, .objConfigHandler),
      (.config, .objConfigFaultEndpoint), (.config, .objConfigServiceEndpoint), (.config, .objConfigSaveArea), (.config, .objConfigAddressSpace),
      (.config, .objConfigFormatSlot), (.config, .objConfigWcAge), (.config, .objConfigWatchdog), (.config, .objConfigKeyslot),
      (.config, .objConfigLog), (.config, .objConfigSealAuthority), (.config, .objConfigQueuePair), (.config, .objConfigQueueFile),
      (.config, .objConfigCollGroup), (.config, .objConfigCollPairKey), (.config, .objConfigFilemapSource), (.map, .objMap), (.unmap, .objUnmap),
      (.bind, .objBind), (.suspend, .objSuspend), (.resume, .objResume), (.teardown, .objTeardown), (.status, .objStatus), (.freeze, .objFreeze),
      (.attest, .objAttest), (.faultact, .faultactResume), (.faultact, .faultactSkip), (.faultact, .faultactRetry), (.faultact, .faultactKill),
      (.faultact, .faultactTeardown), (.faultact, .faultactSave)]
    ∀ r ∈ rows, passes s0 a.cx r.1 o = .error e → exec (r.2 h o) s = .next (retire s0 a (wrStatus s0 a.cx o.d e)))) ∧
  (∀ (s s0 : State) (h : Hdr) (a : Actor) (o : ObjOps) (ob : Obj) (u : UntypedObj) (n al at_ : Nat) (s1 : State), Performs s h s0 a →
    let x := a.cx
    let q := objCall s0 x o ob
    let t := q.arg 0
    passes s0 x .retype o = .ok ob → s0.obj? q.h = some ob → ob.body = .untyped u → resetting s0 q.h = false →
    retypeWords t ≤ q.narg → 1 ≤ q.narg → retypeSize u t q = some (n, al) →
    (allocFrom s0 q.h n al = none → exec (.objRetype h o) s = .next (objDone s0 a o [] none stFULL)) ∧
    (∀ e, allocFrom s0 q.h n al = some (at_, s1) → t = 6 → memoryKey s1 ob.world = .error e → exec (.objRetype h o) s = .next (objDone s0 a o [] none e)) ∧
    (allocFrom s0 q.h n al = some (at_, s1) →
      (∀ r, (if t = 6 then memoryKey s1 ob.world = .ok r else r = s1) →
        let s2 := { r with nextId := r.nextId + 1 }
        let hd := if t = 7 ∨ t = 8 then headerBase + 64 * r.nextId else if t = 4 then at_ + 8192 else at_
        let s3 := if t = 4 then zeroPhys s2 at_ 8192 else if t = 7 ∧ u.kind ≠ 2 then zeroPhys s2 at_ n else s2
        exec (.objRetype h o) s = .next (objDone
          { s3 with
              objs := Map.set hd { world := ob.world, torn := false, parent := some q.h, src := q.h, body := newBody s2 u ob.world t at_ q } s3.objs
              nextCtx := s3.nextCtx + (if t = 6 then 1 else 0) }
          a o [] (some (Cap.object t hd 0 objPerm true)) stOK)) ∧
      u.base + u.mark ≤ at_ ∧ at_ + n ≤ u.base + 2 ^ u.log2 ∧
      (t = 4 → newBody s1 u ob.world t at_ q = .aspace { root := at_, free := [], files := [] }) ∧
      (t = 6 → ∃ k, newBody s1 u ob.world t at_ q = .context k ∧ k.id = s1.nextCtx ∧ k.odt = List.replicate 1024 0 ∧ k.handler = Cap.null ∧
        k.faultEp = Cap.null ∧ k.svcEp = Cap.null ∧ k.save = Cap.null ∧ k.aspace = none ∧ k.slots = List.replicate 8 0 ∧ k.wcAge = 1000 ∧ k.watchdog = 1000 ∧
        k.hintDrops = 0 ∧ k.suspended = false ∧ k.chain = 0 ∧ k.count = 0 ∧ k.log = Cap.null ∧ k.nextFid = 1) ∧
      (t = 7 → newBody s1 u ob.world t at_ q =
        .frame { pa := at_, log2 := 17 + 10 * q.arg 1, kind := u.kind, frozen := false, repl := none, zkey := pageKey s1 ob.world 0 at_ }) ∧
      (t = 8 → newBody s1 u ob.world t at_ q = .untyped { base := at_, log2 := q.arg 1, kind := u.kind, mark := 0 }) ∧
      (s1.obj? q.h).map Obj.body = some (.untyped { u with mark := at_ + n - u.base })))

/-- .config of a Context (R350, R380, R381, R389, R391, R400, R440, R456, R465), each selector with its operands in range: the field it names takes the given capability or number and nothing else of the Context changes; the disposition table applies at once when no core runs the Context or has a change of it to apply; a sealing authority is answered; a new KeySlot object holds a key that the device draws. .config of the other objects (R205, R314, R336, R348, R350, R356, R442, R459): minting a badged Endpoint or Notification capability, a sender mask, a SchedContext, the reset of an Untyped whose objects are all torn down, which completes at the sweep's end, a Queue's completion Queue, FileMap, collective group and pair keys, a FileMap's frame source. What rests on a choice of the model: log entries 33 and 34. -/
def Obligations.ObjectsAreConfigured : Prop :=
  (∀ (s s0 : State) (h : Hdr) (a : Actor) (o : ObjOps) (ob : Obj) (k : ContextObj) (i : Nat), Performs s h s0 a →
    let x := a.cx
    let q := objCall s0 x o ob
    let w := q.arg
    let n := q.narg
    let sets (i : Instr) (f : ContextObj → ContextObj) : Prop := exec i s = .next (objDone (s0.modCtx q.h f) a o [] none stOK)
    passes s0 x .config o = .ok ob → ob.body = .context k → 0 < n →
    (w 0 = 0 → 3 ≤ n → w 1 % 16 = 0 → w 1 < 1024 → coresOf s0 q.h = [] → (∀ l ∈ s0.odtLag, l.1 ≠ q.h) →
      sets (.objConfigOdt h o) fun c => { c with odt := k.odt.take (w 1) ++ (List.range 16).map (fun j => BitVec.ofNat 2 (w 2 / 4 ^ j)) ++ k.odt.drop (w 1 + 16) }) ∧
    (w 0 = 1 → sets (.objConfigHandler h o) fun c => { c with handler := q.cx }) ∧
    (w 0 = 2 → namesLive s0 q.cx [1] ob.world → sets (.objConfigFaultEndpoint h o) fun c => { c with faultEp := q.cx }) ∧
    (w 0 = 3 → namesLive s0 q.cx [1] ob.world → sets (.objConfigServiceEndpoint h o) fun c => { c with svcEp := q.cx }) ∧
    (w 0 = 4 → saveAreaOk q.cx = true → sets (.objConfigSaveArea h o) fun c => { c with save := q.cx }) ∧
    (w 0 = 5 → namesLive s0 q.cx [4] ob.world → sets (.objConfigAddressSpace h o) fun c => { c with aspace := some q.cx.base }) ∧
    (w 0 = 6 → 4 ≤ n → w 1 ≤ 7 → q.arg64 2 < 2 ^ 21 → sets (.objConfigFormatSlot h o) fun c => { c with slots := c.slots.set (w 1) (BitVec.ofNat 64 (q.arg64 2)) }) ∧
    (w 0 = 7 → 2 ≤ n → 250 ≤ w 1 → w 1 ≤ 16000 → sets (.objConfigWcAge h o) fun c => { c with wcAge := w 1 }) ∧
    (w 0 = 8 → 2 ≤ n → w 1 ≤ 60000 → sets (.objConfigWatchdog h o) fun c => { c with watchdog := w 1 }) ∧
    (w 0 = 9 → n = 4 → w 1 = 0 → takeKeySlot s0 false = some i → s0.trngOk = true →
      let hd := headerBase + 64 * s0.nextId
      let nonce := BitVec.ofNat 64 (q.arg64 2)
      exec (.objConfigKeyslot h o) s = .next (objDone
        { s0 with fresh := s0.fresh + 1, nextId := s0.nextId + 1
                  keys := Map.set i { world := ob.world, role := 1, nonce := nonce, key := Config.trngBits s0.fresh } s0.keys
                  objs := Map.set hd { world := ob.world, torn := false, parent := none, src := 0, body := .keyslot { index := i, nonce := nonce } } s0.objs }
        a o [] (some (Cap.object 9 hd 0 0x0900 true)) stOK)) ∧
    (w 0 = 10 → logOk q.cx = true → sets (.objConfigLog h o) fun c => { c with log := q.cx }) ∧
    (w 0 = 11 → 3 ≤ n → 16 ≤ w 1 → w 1 ≤ 4095 → 1 ≤ w 2 → w 2 ≤ 4080 → w 1 + w 2 ≤ 4096 →
      exec (.objConfigSealAuthority h o) s = .next (objDone s0 a o [] (some (Cap.make (w 1) (w 2) 0x00C0 true (w 1))) stOK))) ∧
  (∀ (s s0 : State) (h : Hdr) (a : Actor) (o : ObjOps) (ob : Obj), Performs s h s0 a →
    let x := a.cx
    let q := objCall s0 x o ob
    let w := q.arg
    let n := q.narg
    let ends (i : Instr) (t : State) (cap : Option Cap) : Prop := exec i s = .next (objDone t a o [] cap stOK)
    let minted : Cap := Cap.object q.c.otype q.h (w 1) (q.c.perm &&& BitVec.ofNat 16 (w 2)) (q.c.g && (w 2).testBit 16)
    passes s0 x .config o = .ok ob → 0 < n →
    (∀ e, ob.body = .endpoint e → w 0 = 0 → 3 ≤ n → w 1 < 2 ^ 13 → w 2 < 2 ^ 17 → q.c.badge = 0 → ends (.objConfigEndpointMint h o) s0 (some minted)) ∧
    (∀ e, ob.body = .notification e → w 0 = 0 → 3 ≤ n → w 1 < 2 ^ 13 → w 2 < 2 ^ 17 → q.c.badge = 0 → ends (.objConfigNotificationMint h o) s0 (some minted)) ∧
    (∀ e, ob.body = .endpoint e → w 0 = 1 → 2 ≤ n → w 1 < 2 ^ 16 →
      ends (.objConfigSenderMask h o) (s0.modEp q.h fun e => { e with senderMask := BitVec.ofNat 16 (w 1) }) none) ∧
    (∀ e, ob.body = .sched e → n = 7 → w 0 = 0 → w 1 ≤ 15 →
      ends (.objConfigSchedcontext h o) (State.modSched
        { s0 with units := s0.units.map fun (u : Nat × UnitRec) => (u.1, if u.2.sched = q.h ∧ !u.2.saved then { u.2 with prio := max u.2.prio (w 1) } else u.2) } q.h fun c => { c with
        prio := w 1, budget := w 2, period := w 3, left := w 2, periodStart := s0.time, owed := 0, touched := []
        affin := BitVec.ofNat 96 (w 4 + w 5 * 2 ^ 32 + w 6 * 2 ^ 64) }) none) ∧
    (∀ u, ob.body = .untyped u → w 0 = 0 → resetting s0 q.h = false → (∀ d ∈ allUnder s0 q.h, s0.dead d = true) →
      let r : Closed := { base := u.base, top := u.base + 2 ^ u.log2, world := ob.world, comp := none, queue := 0, pos := 0, sweep := s0.sweepNo + 1, freeze := false, op := some s0.nextId }
      exec (.objConfigUntypedReset h o) s = .next
        (objWaits { s0 with nextId := s0.nextId + 1, closed := s0.closed ++ [r] } a o s0.nextId (.reset q.h) (footOf s0))) ∧
    (∀ k p, ob.body = .queue k → w 0 = 0 → k.kind ∈ [2, 3, 5] → k.pushed = 0 → namesLive s0 q.cx [11] ob.world → s0.queue? q.cx.base = some p → p.kind = 1 →
      ends (.objConfigQueuePair h o) (s0.modQueue q.h fun c => { c with pair := some q.cx.base }) none) ∧
    (∀ k, ob.body = .queue k → w 0 = 1 → k.kind = 3 → k.pushed = 0 → namesLive s0 q.cx [10] ob.world →
      ends (.objConfigQueueFile h o) (s0.modQueue q.h fun c => { c with file := some q.cx.base }) none) ∧
    (∀ k, ob.body = .queue k → w 0 = 2 → k.kind = 6 → 4 ≤ n → w 1 < 2 ^ 24 → 1 ≤ w 3 → w 3 ≤ 4096 → w 2 < w 3 →
      ends (.objConfigCollGroup h o) (s0.modQueue q.h fun c => { c with coll := some { id := w 1, rank := w 2, size := w 3, keys := (c.coll.map CollGroup.keys).getD [] } }) none) ∧
    (∀ k g, ob.body = .queue k → w 0 = 3 → k.kind = 6 → k.coll = some g → 2 ≤ n → w 1 < g.size → w 1 ≠ g.rank → namesLive s0 q.cx [9] ob.world →
      ends (.objConfigCollPairKey h o) (s0.modQueue q.h fun c => { c with coll := some { g with keys := Map.set (w 1) q.cx.base g.keys } }) none) ∧
    (∀ f u ou, ob.body = .filemap f → w 0 = 0 → namesLive s0 q.cx [8] ob.world → s0.obj? q.cx.base = some ou → ou.body = .untyped u → u.kind = 1 →
      ends (.objConfigFilemapSource h o) (s0.modFm q.h fun f => { f with src := some q.cx.base }) none))

/-- .map, .unmap and .bind (R237, R240, R340, R351, R352, R361, R415, R430): a Frame is mapped at an aligned address by a leaf at the level of its size, read-only once frozen, and the answer is a capability for exactly that range; a FileMap page is mapped absent; unmapping clears the leaf; either waits until every access through the leaf that it replaces has been performed (R240), here by the far atomics, REPL writes and parked WAITCs of the page being settled first (`s2`), or by waiting for a device or another package (`late`); Endpoints, IRQ objects and Grants are linked to what they serve; a Frame is bound to a group and its home rank, of which the other members hear, unless the group has a Frame of another size (BADOP). What rests on a choice of the model: log entries 33 and 34. -/
def Obligations.MappingsAndBindings : Prop :=
  ∀ (s s0 s1 : State) (h : Hdr) (a : Actor) (o : ObjOps) (ob of_ : Obj) (sp : AspaceObj), Performs s h s0 a →
    let x := a.cx
    let q := objCall s0 x o ob
    let w := q.arg
    let n := q.narg
    let va := q.arg64 0
    let m := w 2
    let bit (i : Nat) : Bool := m.testBit i
    let mt := m / 32 % 8
    let key := m / 256 % 64
    let keyOk := key = 0 ∨ ∃ k, Map.get? key s0.keys = some k ∧ k.world = ob.world ∧ k.role ≠ 0
    let ends (i : Instr) (t : State) (cap : Option Cap) : Prop := exec i s = .next (objDone t a o [] cap stOK)
    let late := remapWaits s0 q.h va
    let s2 := remapped s0 q.h va
    let waits (i : Instr) : Prop := ∃ l, leafAt? s0 q.h va = some l ∧
      exec i s = .next (parkActor (sendAway (settleWrites s0 l.e.addr (pageBytes l.level))) a .fence)
    (passes s0 x .map o = .ok ob → ob.body = .aspace sp → 3 ≤ n → m % 4 = 0 → m < 2 ^ 17 → va < 2 ^ 57 → keyOk →
      (∀ f, mt ∈ [0, 1, 4, 5] → namesLive s0 q.cx [7] ob.world → s0.obj? q.cx.base = some of_ → of_.body = .frame f → (f.kind = 2 ↔ 4 ≤ mt) →
        (f.kind = 3 → mt = 0) → va % 2 ^ 17 = 0 → va % 2 ^ f.log2 = 0 →
        (late = true → waits (.objMap h o)) ∧ (late = false →
        placeLeaf s2 q.h sp.root ((f.log2 - 7) / 10) va
          (Pte.mkLeaf f.pa ob.world (if f.frozen then 2 else mt) key (bit 2) (bit 3 && !f.frozen) (bit 4) false) = .ok s1 →
        ends (.objMap h o) s1 (some (Cap.make va (2 ^ f.log2) (mapPerm (bit 2) (bit 3 && !f.frozen) (bit 4) (bit 14) (bit 15) (bit 16)) true va)))) ∧
      (∀ f, mt = 3 → 4 ≤ n → va % 2 ^ 17 = 0 → namesLive s0 q.cx [10] ob.world → s0.filemap? q.cx.base = some f → w 3 < f.pages → late = false →
        placeLeaf s2 q.h sp.root 1 va (Pte.mkLeaf 0 ob.world 3 key (bit 2) (bit 3) (bit 4) true) = .ok s1 →
        ends (.objMap h o) (s1.modObj q.h fun b =>
          match b.body with
          | .aspace e => { b with body := .aspace { e with files := e.files ++ [(va, q.cx.base, w 3)] } }
          | _ => b) (some Cap.null))) ∧
    (∀ l, passes s0 x .unmap o = .ok ob → 2 ≤ n → va < 2 ^ 57 → leafAt? s0 q.h va = some l →
      (late = true → waits (.objUnmap h o)) ∧
      (late = false → ends (.objUnmap h o) (wakeFiles (dropFiles (writePte s2 l.at_ 0) q.h va (pageBytes l.level))) none)) ∧
    (passes s0 x .bind o = .ok ob →
      (∀ e k, ob.body = .endpoint e → namesLive s0 q.cx [11] ob.world → s0.queue? q.cx.base = some k → k.kind = 7 → k.width = 128 →
        ends (.objBind h o) ((s0.modEp q.h fun e => { e with ring := some q.cx.base, ringLoadcap := q.c.has permLoadCap }).modQueue q.cx.base
          fun k => { k with ringOf := some q.h }) none) ∧
      (∀ e, ob.body = .endpoint e → namesLive s0 q.cx [6] ob.world → ends (.objBind h o) (s0.modEp q.h fun e => { e with owner := some q.cx.base }) none) ∧
      (∀ p v l, ob.body = .irq p v l → 2 ≤ n → w 1 ≤ 63 → namesLive s0 q.cx [2] ob.world →
        ends (.objBind h o) (s0.setBody q.h (.irq p v (some (q.cx.base, w 1)))) none) ∧
      (∀ g f, ob.body = .grant g → namesLive s0 q.cx [7] ob.world → s0.obj? q.cx.base = some of_ → of_.body = .frame f →
        ∃ b, b % 2 ^ f.log2 = 0 ∧ (∀ r ∈ windowsOf s0 g.port q.h, r.2 ≤ b ∨ b + 2 ^ f.log2 ≤ r.1) ∧
          ends (.objBind h o) ({ s0 with fresh := s0.fresh + 1 }.setBody q.h (.grant { g with frame := some q.cx.base, bus := b, size := 2 ^ f.log2 })) none) ∧
      (∀ f k g, ob.body = .frame f → 2 ≤ n → namesLive s0 q.cx [11] ob.world → s0.queue? q.cx.base = some k → k.coll = some g →
        let here : Prop := ∃ e ∈ s0.objs, ∃ f' c r k' g', e.1 ≠ q.h ∧ e.2.torn = false ∧ e.2.body = .frame f' ∧ f'.repl = some (c, r) ∧
          s0.queue? c = some k' ∧ k'.coll = some g' ∧ g'.id = g.id ∧ f'.log2 ≠ f.log2
        let elsewhere : Prop := ∃ b ∈ s0.bound, b.1 = g.id ∧ b.2.2 ≠ f.log2
        (here ∨ elsewhere ∨ g.size ≤ w 1 → exec (.objBind h o) s = .next (objDone s0 a o [] none stBADOP)) ∧
        (¬ here → ¬ elsewhere → w 1 < g.size →
          let s1 := s0.setBody q.h (.frame { f with repl := some (q.cx.base, w 1) })
          ends (.objBind h o) { s1 with out := s1.out ++ [.replBound g.id g.rank f.log2] } none)))

/-- The life of objects (R353-R355, R415, R466): suspending sets the flag and resuming clears it; tearing down marks the object and ends what depends on it, type by type, and of an Export waits for the requests that have passed its check; .status reads its words and changes nothing; a freeze makes every leaf of the Frame read-only and waits for the sweep; an attestation that cannot reach its buffer has no effect. Answers to fault records (R377, R378): of a pending record of the Context, RESUME moves its threads to the given address, SKIP zeroes the destinations and passes the instruction, RETRY leaves them, and each removes the record; KILL ends the group, TEARDOWN the Context, SAVE saves the unit; an answer to a record of a saved group is kept with the record and takes effect at the restore. A FID that names no pending record is DEAD. What rests on a choice of the model: log entries 33 and 34. -/
def Obligations.ObjectsLiveEndAndAnswer : Prop :=
  (∀ (s s0 : State) (h : Hdr) (a : Actor) (o : ObjOps) (ob : Obj), Performs s h s0 a →
    let x := a.cx
    let q := objCall s0 x o ob
    let mine := (s0.grp x.gid).unit
    let ends (i : Instr) (t : State) (st : Nat) : Prop := exec i s = .next (objDone t a o [] none st)
    (passes s0 x .suspend o = .ok ob →
      (∀ k, ob.body = .context k → k.suspended = false →
        ends (.objSuspend h o) (saveOthers (s0.modCtx q.h fun c => { c with suspended := true }) mine fun g => g.ctx == q.h) stOK) ∧
      (∀ k, ob.body = .sched k → k.suspended = false →
        ends (.objSuspend h o) (saveOthers (s0.modSched q.h fun c => { c with suspended := true }) mine fun g => g.launch.sched == q.h) stOK)) ∧
    (passes s0 x .resume o = .ok ob →
      (∀ k, ob.body = .context k → k.suspended = true → ends (.objResume h o) (releaseHeld (s0.modCtx q.h fun c => { c with suspended := false })) stOK) ∧
      (∀ k, ob.body = .sched k → k.suspended = true → ends (.objResume h o) (s0.modSched q.h fun c => { c with suspended := false }) stOK)) ∧
    (passes s0 x .teardown o = .ok ob → q.c.otype = 13 →
      (exportOpen s0 q.c.xEntry = false → ends (.objTeardown h o) { s0 with exports := Map.del q.c.xEntry s0.exports } stOK) ∧
      (exportOpen s0 q.c.xEntry = true → exec (.objTeardown h o) s = .next (parkActor
        { s0 with exports := Map.modify q.c.xEntry (fun e => { e with dropper := some ⟨x.gid, x.cno, [x.lane], false⟩ }) s0.exports } a .fence))) ∧
    (passes s0 x .teardown o = .ok ob → q.c.otype ≠ 13 → s0.obj? q.h = some ob → ob.torn = false →
      let marked := s0.modObj q.h fun b => { b with torn := true }
      ((∃ e, ob.body = .aspace e) ∨ (∃ p v l, ob.body = .irq p v l) ∨ (∃ u, ob.body = .untyped u) ∨ (∃ f, ob.body = .filemap f) → ends (.objTeardown h o) marked stOK) ∧
      (∀ e, ob.body = .notification e → e.waiters = [] → ∃ t, ends (.objTeardown h o) t stOK ∧ t.dead q.h = true) ∧
      (∀ k, ob.body = .keyslot k → keyNamed s0 k.index q.h = true → ends (.objTeardown h o) s0 stBADOP) ∧
      (∀ k, ob.body = .keyslot k → keyNamed s0 k.index q.h = false →
        ends (.objTeardown h o) { marked with keys := Map.del k.index s0.keys } stOK) ∧
      (∀ k, ob.body = .context k → ends (.objTeardown h o) (tearContext s0 q.h) stOK) ∧
      (∀ k, ob.body = .queue k → ends (.objTeardown h o) (tearQueue s0 q.h) stOK) ∧
      (∀ e, ob.body = .endpoint e → ends (.objTeardown h o) (endEndpoint s0 q.h) stOK ∧
        let emptied := s0.modObj q.h fun b => { b with torn := true, body := .endpoint { e with msgs := [], receivers := [], senders := [], subs := [] } }
        (e.msgs = [] → e.receivers = [] → e.senders = [] → endEndpoint s0 q.h = emptied) ∧
        (∀ r : RecvOp, e.msgs = [] → e.receivers = [r] → e.senders = [] → (∃ g, s0.grp? r.who.gid = some g ∧ g.stat ≠ .saved) →
          endEndpoint s0 q.h = completeWith emptied r.who (fun y => wrStatus emptied y r.d stDEAD) r.foot) ∧
        (∀ who d b foot m, e.msgs = [] → e.receivers = [] → e.senders = [.thread who d b foot false m] →
          endEndpoint s0 q.h = completeWith emptied who (fun y => wrStatus emptied y d stDEAD) foot) ∧
        (∀ m : Msg, ∀ r, e.msgs = [m] → m.reply = some r → e.receivers = [] → e.senders = [] → endEndpoint s0 q.h = failReply emptied r)) ∧
      (∀ k, ob.body = .sched k → ends (.objTeardown h o) (discardLaunches (killWhere marked fun g => g.launch.sched == q.h) fun l => l.sched == q.h) stOK) ∧
      (∀ f, ob.body = .frame f →
        ends (.objTeardown h o) (s0.modObj q.h fun b => { b with torn := true, body := .frame { f with frozen := false, repl := none } }) stOK) ∧
      (∀ k, ob.body = .sync k → ends (.objTeardown h o)
        (k.waiters.foldl (fun st r => completeWith st r.who (fun y => wrStatus st y r.d stDEAD) r.foot)
          (s0.modObj q.h fun b => { b with torn := true, body := .sync { k with holds := [], waiters := [] } })) stOK) ∧
      (∀ g, ob.body = .grant g →
        ends (.objTeardown h o) (s0.modObj q.h fun b => { b with torn := true, body := .grant { g with frame := none } }) stOK)) ∧
    (passes s0 x .status o = .ok ob →
      exec (.objStatus h o) s = .next (objDone s0 a o ((List.range q.narg).map fun i => BitVec.ofNat 32 ((statusWords s0 q).getD i 0)) none stOK) ∧
      (∀ k, ob.body = .queue k → q.c.otype ≠ 12 → statusWords s0 q = [k.kind, k.width, k.depth, k.es.length]) ∧
      (∀ e, ob.body = .endpoint e → q.c.otype ≠ 12 → statusWords s0 q = [e.depth, e.msgs.length, e.receivers.length, e.senders.length])) ∧
    (passes s0 x .freeze o = .ok ob →
      ∀ f, ob.body = .frame f →
      (f.frozen = true → ends (.objFreeze h o) s0 stBADOP) ∧
      (f.frozen = false → f.kind ≠ 2 → grantWrites s0 q.h = false → q.narg = 2 → namesLive s0 q.cx [6] ob.world →
        let s1 := settleWrites s0 f.pa (2 ^ f.log2)
        let ls := leavesOf s1 f.pa (2 ^ f.log2)
        let s2 := ls.foldl (fun st l => writePte st l.2.at_ (Pte.mkLeaf l.2.e.addr l.2.e.world 2 l.2.e.key l.2.e.r false l.2.e.x false)) s1
        let s3 := s2.setBody q.h (.frame { f with frozen := true })
        let range (b t : Nat) : Closed := { base := b, top := t, world := ob.world, comp := none, queue := 0, pos := 0, sweep := s3.sweepNo + 1, freeze := true, op := some s3.nextId }
        ls ≠ [] → exec (.objFreeze h o) s = .next (objWaits
          { s3 with nextId := s3.nextId + 1, closed := s3.closed ++ ls.map fun l => range l.2.va (l.2.va + pageBytes l.2.level) }
          a o s3.nextId (.freeze q.h q.cx.base o.args a.uni) (footOf s0)))) ∧
    (passes s0 x .attest o = .ok ob → q.narg = 0 → ∀ f, rangeWay s0 x q.cx q.cx.addr 4992 16 [permLoad, permStore, permLoadCap] .rmw = .bad f →
      ends (.objAttest h o) s0 (rangeStatus f)) ∧
    (passes s0 x .attest o = .ok ob → q.narg = 0 → ∀ t st, attest s0 x q.h q.cx = .done st t → ends (.objAttest h o) t st)) ∧
  (∀ (s s0 : State) (h : Hdr) (a : Actor) (o : ObjOps) (ob : Obj) (gid : Nat) (r : FaultRec), Performs s h s0 a →
    let x := a.cx
    let q := objCall s0 x o ob
    let w := q.arg
    let fid := w 1 + w 2 * 2 ^ 32
    let pc := BitVec.ofNat 64 (w 3 + w 4 * 2 ^ 32)
    let ends (i : Instr) (t : State) (st : Nat) : Prop := exec i s = .next (objDone t a o [] none st)
    passes s0 x .faultact o = .ok ob → fid ≠ 0 →
    (pendingRecord s0 q.h fid = none → w 0 = 1 → q.narg = 3 → ends (.faultactSkip h o) s0 stDEAD) ∧
    (pendingRecord s0 q.h fid = some (gid, r) → r.noins = false → r.deferred = false → (s0.grp gid).stat ≠ .saved →
      (w 0 = 0 → q.narg = 5 → ends (.faultactResume h o) (writeRecord (applyAnswer s0 gid r 0 pc) gid) stOK) ∧
      (w 0 = 1 → q.narg = 3 → ends (.faultactSkip h o) (writeRecord (applyAnswer s0 gid r 1 pc) gid) stOK) ∧
      (w 0 = 2 → q.narg = 3 → ends (.faultactRetry h o) (writeRecord (applyAnswer s0 gid r 2 pc) gid) stOK)) ∧
    (pendingRecord s0 q.h fid = some (gid, r) → (s0.grp gid).stat ≠ .saved →
      (w 0 = 3 → q.narg = 3 → ends (.faultactKill h o) (killGroup (dropHeld s0 fun p => p.who.gid == gid) gid) stOK) ∧
      (w 0 = 4 → q.narg = 3 → ends (.faultactTeardown h o) (teardown s0 q.h).2 stOK)) ∧
    (pendingRecord s0 q.h fid = some (gid, r) → (s0.grp gid).stat = .saved →
      let kept (act : Nat) : State := writeRecord (s0.modGrp gid fun g => { g with faults := g.faults.map fun p => if p.fid = fid then { p with answer := some (act, pc) } else p }) gid
      (w 0 = 0 → q.narg = 5 → r.noins = false → ends (.faultactResume h o) (kept 0) stOK) ∧
      (w 0 = 1 → q.narg = 3 → r.noins = false → ends (.faultactSkip h o) (kept 1) stOK) ∧
      (w 0 = 2 → q.narg = 3 → r.noins = false → r.deferred = false → ends (.faultactRetry h o) (kept 2) stOK) ∧
      (w 0 = 3 → q.narg = 3 → ends (.faultactKill h o) (kept 3) stOK) ∧
      (w 0 = 4 → q.narg = 3 → ends (.faultactTeardown h o) (kept 4) stOK)) ∧
    (∀ (t : State) (g : Nat) (p : FaultRec) (act : Nat) (at_ : DWord), (t.grp? g).isSome = true → (t.grp g).faults = [p] → p.answer = some (act, at_) →
      (act ≤ 2 → applyAnswers t g = applyAnswer t g p act at_) ∧
      (act = 3 → applyAnswers t g = killGroup (dropHeld t fun p => p.who.gid == g) g) ∧
      (act = 4 → applyAnswers t g = (teardown t (t.grp g).ctx).2)) ∧
    (pendingRecord s0 q.h fid = some (gid, r) →
      (w 0 = 5 → q.narg = 3 → (∀ k, s0.cur = some k → (s0.grp k.gid).unit ≠ (s0.grp gid).unit) →
        ends (.faultactSave h o) (saveUnit s0 (s0.grp gid).unit) stOK)) ∧
    (∀ (t : State) (g : Nat) (p : FaultRec) (l : Nat), p.fmask = laneMask [l] → l < 32 → p.deferred = false → p.parked = false →
      Present t ⟨g, p.clan, l⟩ → (t.thr g (p.clan * 32 + l)).live = true →
      let th := t.thr g (p.clan * 32 + l)
      (applyAnswer t g p 0 pc).thr g (p.clan * 32 + l) = { th.stand with released := false, pcc := th.pcc.withAddr pc.toNat } ∧
      ((applyAnswer t g p 1 pc).thr g (p.clan * 32 + l)).pcc = th.pcc.withAddr (th.pcc.addr + footOfLen (bitsAt p.insn.toNat 0 2)) ∧
      (applyAnswer t g p 1 pc).thr g (p.clan * 32 + l) =
        (advance (applyWrites t ⟨g, p.clan, l⟩ (zeroDests t ⟨g, p.clan, l⟩ p.insn p.slotv)) ⟨g, p.clan, l⟩ (footOfLen (bitsAt p.insn.toNat 0 2))).thr g (p.clan * 32 + l) ∧
      (applyAnswer t g p 2 pc).thr g (p.clan * 32 + l) = th ∧
      (∀ act, ((applyAnswer t g p act pc).grp g).faults = (t.grp g).faults.filter fun f => f.fid != p.fid)) ∧
    (∀ (t : State) (y : Cx) (raw : BitVec 128) (slot : DWord) (i : Instr),
      let f := Raw.ofWord raw.toNat
      (opForm? f.op = none → zeroDests t y raw slot = []) ∧
      ((opForm? f.op).isSome = true → described f = some i → zeroDests t y raw slot =
        ((regDests raw slot i).filter fun u => u.reason (bitsAt f.mod 13 1 == 1) (t.thr y.gid y.tid).edepth (declared t y) == 0).flatMap (zeroDest t y) ++
          (predDests f).map fun p => .p p false)) ∧
    (∀ (t : State) (y : Cx) (u : OpUse), u.count = 1 →
      (∀ n, u.r = .v n → u.wide = false → zeroDest t y u = wr32 t y (.v n) 0) ∧ (∀ n, u.r = .v n → u.wide = true → zeroDest t y u = wr64 t y (.v n) 0) ∧
      (∀ n, u.r = .k n → u.wide = false → zeroDest t y u = wr32 t y (.k n) 0) ∧ (∀ n, u.r = .c n → zeroDest t y u = wrCap t y (.c n) Cap.null) ∧
      (∀ n, u.r = .kc n → zeroDest t y u = wrCap t y (.kc n) Cap.null)))

/-! Class 5: gathering instructions. -/

/-- The exchange instructions of a formed set (R188-R191), every member's operands read before any result is written: SHFL takes the value of the lane its mode names when that lane is of its segment and of the set, else the fallback and false; VOTE's modes over the set's predicates; LRANK and GATHER; MATCH's masks, each with its own bit; RDFIRST the lowest member's value. Every member then stands at the next instruction. -/
def Obligations.SetsExchangeValues : Prop :=
  ∀ (s s0 : State) (h : Hdr) (a : Actor) (w64 neg : Bool) (seg : Fin 6) (pv ps : Pred) (d r b c m : Reg) (k : BitVec 32), Gathers false s s0 a →
    let gives (i : Instr) (f : Cx → List RegWrite) : Prop := exec i s = .next (completeWith s0 a.who f (footOf s0))
    let W : Nat := 32 / 2 ^ seg.val
    let n (x : Cx) : Nat := (rd32 s0 x b).toNat
    let takes (x : Cx) (j : Nat) (inside : Bool) : List RegWrite :=
      if inside && a.mem.contains j then wrW s0 x w64 d (rdW s0 { x with lane := j } w64 r) ++ [.p pv true] else wrW s0 x w64 d (rdW s0 x w64 c) ++ [.p pv false]
    let V (x : Cx) (u : Nat) : Bool := (s0.thr x.gid (x.cno * 32 + u)).pred ps != neg
    let mask (f : Nat → Bool) : BitVec 32 := laneMask (a.mem.filter f)
    let both (iB iI : Instr) (f : Cx → List RegWrite) : Prop := gives iB f ∧ gives iI f
    gives (.shfl h .idx w64 seg pv d r b c m) (fun x => takes x (x.lane / W * W + n x % W) true) ∧
    gives (.shfl h .up w64 seg pv d r b c m) (fun x => takes x (x.lane - n x) (decide (n x ≤ x.lane % W))) ∧
    gives (.shfl h .down w64 seg pv d r b c m) (fun x => takes x (x.lane + n x) (decide (x.lane % W + n x < W))) ∧
    gives (.shfl h .xor w64 seg pv d r b c m) (fun x => takes x (x.lane ^^^ (n x % W)) true) ∧
    both (.voteB h .all pv ps neg d m) (.voteI h .all pv ps neg d k) (fun x => [.p pv (a.mem.all (V x))]) ∧
    both (.voteB h .any pv ps neg d m) (.voteI h .any pv ps neg d k) (fun x => [.p pv (a.mem.any (V x))]) ∧
    both (.voteB h .uni pv ps neg d m) (.voteI h .uni pv ps neg d k) (fun x => [.p pv (a.mem.all (V x) || a.mem.all fun u => !V x u)]) ∧
    both (.voteB h .ballot pv ps neg d m) (.voteI h .ballot pv ps neg d k) (fun x => [.p pv (a.mem.any (V x))] ++ wr32 s0 x d (mask (V x))) ∧
    both (.lrankB h .rank d m) (.lrankI h .rank d k) (fun x => wr32 s0 x d (BitVec.ofNat 32 (a.mem.countP (· < x.lane)))) ∧
    both (.lrankB h .count d m) (.lrankI h .count d k) (fun x => wr32 s0 x d (BitVec.ofNat 32 a.mem.length)) ∧
    both (.lrankB h .mask d m) (.lrankI h .mask d k) (fun x => wr32 s0 x d (mask fun _ => true)) ∧
    both (.gatherB h d m) (.gatherI h d k) (fun x => wr32 s0 x d (mask fun _ => true)) ∧
    both (.matchB h w64 d r m) (.matchI h w64 d r k) (fun x => wr32 s0 x d (mask fun u => rdW s0 { x with lane := u } w64 r == rdW s0 x w64 r)) ∧
    both (.rdfirstB h .b32 d r m) (.rdfirstI h .b32 d r k) (fun x => wr32 s0 x d (rd32 s0 a.cx r)) ∧
    both (.rdfirstB h .b64 d r m) (.rdfirstI h .b64 d r k) (fun x => wr64 s0 x d (rd64 s0 a.cx r)) ∧
    both (.rdfirstB h .b128 d r m) (.rdfirstI h .b128 d r k) (fun x => wrCap s0 x d (rdCap s0 a.cx r))

/-- REDUX and SCAN of a formed set (R192, R193): each member gets the combination of every member's value, or of the members at or below, or strictly below, its own lane; integers combine modulo the width, as exact minimum or maximum, or bit by bit; floats as one exact sum rounded once, or as the minimum or maximum of numbers; of no value comes the identity. -/
def Obligations.SetsCombineValues : Prop :=
  (∀ (s s0 : State) (h : Hdr) (a : Actor) (op : RedOp) (t : RType) (ex : Bool) (d r m : Reg) (k : BitVec 32), Gathers false s s0 a →
    let gives (i : Instr) (f : Cx → List RegWrite) : Prop := exec i s = .next (completeWith s0 a.who f (footOf s0))
    let wide : Bool := Sys2Proof.RType.is64 t
    let of (x : Cx) (us : List Nat) : List RegWrite := wrW s0 x wide d (combine op t (us.map fun u => rdW s0 { x with lane := u } wide r))
    gives (.reduxB h op t d r m) (fun x => of x a.mem) ∧ gives (.reduxI h op t d r k) (fun x => of x a.mem) ∧
    gives (.scanB h op t ex d r m) (fun x => of x (a.mem.filter fun u => decide (u < x.lane) || (!ex && u == x.lane))) ∧
    gives (.scanI h op t ex d r k) (fun x => of x (a.mem.filter fun u => decide (u < x.lane) || (!ex && u == x.lane)))) ∧
  (∀ (t : RType) (vs : List Nat), t ≠ .f32 → t ≠ .f64 → (∀ v ∈ vs, v < 2 ^ RType.bits t) →
    let N := RType.bits t
    let key (v : Nat) : Int := match t with | .i32 | .i64 => toSigned N v | _ => v
    combine .add t vs = vs.sum % 2 ^ N ∧
    (∀ i, i < N → (combine .and t vs).testBit i = vs.all (·.testBit i) ∧ (combine .or t vs).testBit i = vs.any (·.testBit i) ∧
      (combine .xor t vs).testBit i = decide ((vs.countP (·.testBit i)) % 2 = 1)) ∧
    (vs ≠ [] → combine .min t vs ∈ vs ∧ combine .max t vs ∈ vs ∧ (∀ v ∈ vs, key (combine .min t vs) ≤ key v ∧ key v ≤ key (combine .max t vs))) ∧
    ((t = .i32 ∨ t = .i64) → combine .min t [] = 2 ^ (N - 1) - 1 ∧ combine .max t [] = 2 ^ (N - 1)) ∧
    ((t ≠ .i32 ∧ t ≠ .i64) → combine .min t [] = 2 ^ N - 1 ∧ combine .max t [] = 0)) ∧
  (∀ vs, combine .add .f32 vs = encodeF .fp32 .rn false false (sumVals .rn (vs.map (decodeF .fp32 false))) ∧
    combine .add .f64 vs = encodeF .fp64 .rn false false (sumVals .rn (vs.map (decodeF .fp64 false)))) ∧
  (∀ (t : RType) (f : Fmt), (t = .f32 ∧ f = .fp32) ∨ (t = .f64 ∧ f = .fp64) →
    (∀ v vs, combine .min t (v :: vs) = encodeF f .rn false false ((vs.map (decodeF f false)).foldl Val.minNum (decodeF f false v)) ∧
      combine .max t (v :: vs) = encodeF f .rn false false ((vs.map (decodeF f false)).foldl Val.maxNum (decodeF f false v))) ∧
    (∀ v vs, (∀ u ∈ v :: vs, decodeF f false u = .nan) → combine .min t (v :: vs) = f.nanBits ∧ combine .max t (v :: vs) = f.nanBits) ∧
    (∀ x : Val, Val.minNum .nan x = x ∧ Val.maxNum .nan x = x ∧ Val.minNum x .nan = x ∧ Val.maxNum x .nan = x)) ∧
  combine .min .f32 [] = 0x7F800000 ∧ combine .max .f32 [] = 0xFF800000 ∧ combine .add .f32 [] = 0 ∧
  combine .min .f64 [] = 0x7FF0000000000000 ∧ combine .max .f64 [] = 0xFFF0000000000000 ∧ combine .add .f64 [] = 0

/-- Barriers (R180, R195, R249): the gathered set, whose earlier REPL writes are performed at package scope first (`r`), arrives with its size at the group's or the hamlet-group's barrier, waiting there under .sync and going on under .arrive; the phase that the count completes flips, empties the count and lets every waiter of it go on; an incomplete one keeps the count. What rests on a choice of the model: log entry 57. -/
def Obligations.BarriersGatherThreads : Prop :=
  (∀ (s s0 : State) (h : Hdr) (a : Actor) (b : Fin 16) (hb : Fin 4) (n m : Reg) (k : BitVec 32), Gathers false s s0 a →
    let x := a.cx
    let nv := (rd32 s0 x n).toNat
    let r := replSettle s0
    let waits (ham : Bool) (b : Nat) : State := a.cxs.foldl (fun s y => park s y (.barrier ham b (footOf r))) r
    exec (.barB h .sync b n m) s = .next (arriveBar (waits false b.val) x.gid b.val a.mem.length nv) ∧
    exec (.barI h .sync b n k) s = .next (arriveBar (waits false b.val) x.gid b.val a.mem.length nv) ∧
    exec (.barB h .arrive b n m) s = .next (arriveBar (advanceActor r a) x.gid b.val a.mem.length nv) ∧
    exec (.barI h .arrive b n k) s = .next (arriveBar (advanceActor r a) x.gid b.val a.mem.length nv) ∧
    exec (.hbarB h .sync hb n m) s = .next (arriveHbar (waits true hb.val) x.gid hb.val a.mem.length nv) ∧
    exec (.hbarI h .sync hb n k) s = .next (arriveHbar (waits true hb.val) x.gid hb.val a.mem.length nv) ∧
    exec (.hbarB h .arrive hb n m) s = .next (arriveHbar (advanceActor r a) x.gid hb.val a.mem.length nv) ∧
    exec (.hbarI h .arrive hb n k) s = .next (arriveHbar (advanceActor r a) x.gid hb.val a.mem.length nv)) ∧
  (∀ (s : State) (g b n nv : Nat), (s.grp? g).isSome →
    let x : Barrier := SMap.get Barrier.zero b (s.grp g).bars
    let y : Barrier := { x with exp := if x.exp = 0 then min nv 65535 else x.exp, count := x.count + n }
    let t := arriveBar s g b n nv
    let done := if y.exp = 0 then liveThreads (s.grp g) ≤ y.count else y.exp ≤ y.count
    (done → SMap.get Barrier.zero b (t.grp g).bars = ⟨0, 0, !x.phase⟩ ∧
      ∀ u q foot, Map.get? u (s.grp g).threads = some q → q.wait = .barrier false b foot → (s.grp g).stat ≠ .saved → t.thr g u = q.advance foot) ∧
    (¬ done → SMap.get Barrier.zero b (t.grp g).bars = y ∧ ∀ u, t.thr g u = s.thr g u) ∧
    (∀ j, j ≠ g → t.grp j = s.grp j) ∧ { t with groups := s.groups } = s) ∧
  (∀ (s : State) (g b n nv : Nat) (u : UnitRec), Map.get? (s.grp g).unit s.units = some u →
    let k := 4 * (s.grp g).stage + b
    let x : Barrier := SMap.get Barrier.zero k u.hbars
    let y : Barrier := { x with exp := if x.exp = 0 then min nv 65535 else x.exp, count := x.count + n }
    let t := arriveHbar s g b n nv
    let done := if y.exp = 0 then liveOfStage s (s.grp g).unit (s.grp g).stage ≤ y.count else y.exp ≤ y.count
    let bars : Option (SMap Barrier) := (Map.get? (s.grp g).unit t.units).map UnitRec.hbars
    (done → bars = some (SMap.put Barrier.zero k ⟨0, 0, !x.phase⟩ (SMap.put Barrier.zero k y u.hbars)) ∧
      ∀ j q i foot, j ∈ u.groups → u.groups.Nodup → (s.grp j).stage = (s.grp g).stage → (s.grp j).stat ≠ .saved →
        Map.get? i (s.grp j).threads = some q → q.wait = .barrier true b foot → t.thr j i = q.advance foot) ∧
    (¬ done → bars = some (SMap.put Barrier.zero k y u.hbars) ∧ t.groups = s.groups))

/-- Launch and queue fence (R183, R197, R198, R249): the performers' earlier REPL writes are performed at package scope (`r`), and the record that lr reaches enters its SchedContext's queue with its argument capability moved by off, for each executing thread or once for a set, and the status is written to every performer; a full queue answers FULL and takes nothing; QFENCE leaves a fence over the queues that its mask names and goes on. Service calls (R138, R199): a formed set whose group has no other call in progress writes the members' request words to its save slot and sends one message to the service Endpoint, whose answer will be its result; without a live service Endpoint every member gets false and 0. What rests on a choice of the model: log entries 38 and 70. -/
def Obligations.LaunchesAndServiceCalls : Prop :=
  (∀ (s s0 : State) (h : Hdr) (a : Actor) (one : Bool) (d lr args off m : Reg) (ps : List (Loc × Nat)),
    (if one then Gathers false s s0 a else Solo s h a ∧ s0 = s ∧ edgeHeld s0 a = false) →
    let x := a.cx
    let r := replSettle s0
    launchWay s0 x lr = .here ps → eccPieces s0 ps = false →
    let rd := granulesOf r x ps ((useCap s0 x lr).has permLoadCap)
    let gs := childRecord rd.1 (if Reg.isVz args then none else some (useCap s0 x args)) (rd64 s0 x off).toNat
    let l := enqueue rd.2 (worldOfCx rd.2 x) gs
    exec (if one then .launchOne h d lr args off m else .launch h d lr args off) s =
      .next (completeWith l.2 a.who (fun y => wr32 l.2 y d (BitVec.ofNat 32 l.1)) (footOf r))) ∧
  (∀ (s : State) (w : Nat) (gs : List Cap) (q : Sched),
    let g (i : Nat) : Cap := (gs.map (sieve s w))[i]?.getD Cap.null
    let l := parseLaunch (gs.map (sieve s w))
    let fit (c : Cap) (t : Nat) : Prop := c.tag = true ∧ c.otype = t ∧ c.has permInvoke = true
    (g 0).tag = true → (g 0).has permExec = true → fit (g 2) 3 → fit (g 3) 6 → s.worldOf l.ctx = w → s.dead l.sched = false → s.dead l.ctx = false →
    s.sched? l.sched = some q →
      (q.queue.length < 256 → enqueue s w gs = (0, s.modSched l.sched fun q => { q with queue := q.queue ++ [l] })) ∧
      (256 ≤ q.queue.length → enqueue s w gs = (1, s))) ∧
  (∀ (s : State) (h : Hdr) (a : Actor) (k : BitVec 16), Solo s h a →
    let marks := (s.clan a.cx.gid a.cx.cno).q.filterMap fun b => if k.getLsbD b.1 then fenceMark s b.2 else none
    exec (.qfence h k) s = .next (advanceActor (if marks.length < 2 then s else { s with qfences := s.qfences ++ [⟨marks⟩] }) a)) ∧
  (∀ (s s0 : State) (h : Hdr) (a : Actor) (sp : Pred) (nw : Fin 9) (d b : Reg), Gathers false s s0 a →
    let x := a.cx
    let r := replSettle s0
    let g := r.grp x.gid
    let ep := ((r.ctx? g.ctx).map ContextObj.svcEp).getD Cap.null
    g.svcBusy = none → g.svcWait = [] →
    (liveEp r ep = false →
      exec (.svc h sp nw d b) s = .next (svcDone (retire r a (wr32 r x d 0 ++ [.p sp false])) x.gid)) ∧
    (liveEp r ep = true →
      let s2 := slotWrite r x.gid 0x400 (svcBytes r a nw.val b)
      exec (.svc h sp nw d b) s = .next (callOn (s2.modGrp x.gid fun g => { g with svcBusy := some (x.cno, laneMask a.mem) }) a ep.base (replyHeader s2 x)
        { op := { who := a.who, d := d, words := .vz, nw := 0, caps := .vz, nc := 0, info := .vz, rpl := .vz, loadcap := false, nb := none, foot := footOf r, ctx := g.ctx }
          armed := true, taken := none, svc := some (sp, d) } d
        (deviceMsg s2 ep (svcWords s2 a nw.val) [Cap.make (g.slot.toNat + 0x400) 1152 3 false (g.slot.toNat + 0x400)] (some (replyHeader s2 x))))))

/-! Class 6: the matrix engine, Carter and the collectives. -/

/-- MMA, MZERO, MCVT, MSCALE, MROW and MSTAT (R290-R294, R300-R304): a set whose operands can be read does the block product in its accumulator and its flags, sets tiles and buffers to zero, converts every element of a tile, scales its columns row by row, reduces each row into registers, reads matrix state; nothing but the group's own matrix state and its threads changes. What rests on a choice of the model: log entries 42 and 43. -/
def Obligations.MatrixArithmetic : Prop :=
  ∀ (s s0 : State) (h : Hdr) (a : Actor) (sl acc ad : Fin 8) (sb : Fin 2) (d n c0 r : Reg) (ini : Bool), Gathers true s s0 a →
    let x := a.cx
    let g0 := s0.grp x.gid
    let num := slotNum s0 x sl
    let cf := accOf s0 x sl
    let does (i : Instr) (f : Group → Group) : Prop := exec i s = .next (advanceActor (s0.modGrp x.gid f) a)
    let cols := (rd32 s0 x c0).toNat
    let stop := min 64 (cols + (if n = .vz then 64 else (rd32 s0 x n).toNat))
    (∀ sr src sc ps, let f := mmaFmt s0 x sl
      (g0.sbuf sb.val).st ≠ 0 → (g0.sbuf sb.val).bf = num / 16 % 16 → (g0.sbuf sb.val).bscale = slotBScale num →
      mmaWay s0 x f src = .here ps → eccPieces s0 ps = false →
      does (.mma h sr sl acc sb src ini sc) (mmaEffect s0 a sr f acc.val sb.val src ini sc ps)) ∧
    (∀ (sr : Semiring) src sc, (g0.sbuf sb.val).st = 0 →
      ∃ c, s.cur = some c ∧ exec (.mma h sr sl acc sb src ini sc) s = .next (raise s0 c.gid c.clan (laneMask a.mem) (laneMask a.mem) c.pc c.raw false false { cls := 3, sub := 5 })) ∧
    (∀ (tiles : BitVec 8) (bufs : BitVec 2), ∃ t, exec (.mzero h tiles bufs) s = .next (advanceActor t a) ∧
      (∀ i, i < 8 → (t.grp x.gid).tile i = if tiles.getLsbD i then Tile.zero else g0.tile i) ∧
      (∀ i, i < 2 → (t.grp x.gid).sbuf i = if bufs.getLsbD i then SBuf.empty else g0.sbuf i) ∧
      { t.grp x.gid with tiles := g0.tiles, sbufs := g0.sbufs } = g0 ∧ (∀ j, j ≠ x.gid → t.grp j = s0.grp j) ∧ { t with groups := s0.groups } = s0) ∧
    (∀ dk, does (.mcvt h sl acc ad dk) fun g =>
      g.setElems (DKind.fmt dk) ad.val ((g.elems cf acc.val).map (convertF cf (DKind.fmt dk) (slotRnd num) false (slotSat num))) (g.tile acc.val).flags) ∧
    does (.mscale h sl acc r n c0) (fun g =>
      let rows := ((chunks 64 64 (g.elems cf acc.val)).zip (unpack (Fmt.bits cf) (regImage s0 a r (64 * Fmt.bits cf / 8)))).map fun p => scaleOne cf cols stop p.1 p.2
      g.setElems cf acc.val (rows.flatMap (·.1)) ((g.tile acc.val).flags ||| flagsOf (rows.map (·.2)))) ∧
    (∀ op, let res := (chunks 64 64 (g0.elems cf acc.val)).zipIdx.map fun q => reduceRow cf op ((g0.tile acc.val).flags.getLsbD q.2) ((q.1.take stop).drop cols)
      exec (.mrow h op sl acc d n c0) s = .next (completeWith s0 a.who (fun y => imageWrites s0 y d (pack (Fmt.bits cf) res)) (footOf s0))) ∧
    exec (.mstat h .flags acc d) s = .next (completeWith s0 a.who (fun y => wr64 s0 y d (g0.tile acc.val).flags) (footOf s0)) ∧
    exec (.mstat h .sb acc d) s = .next (completeWith s0 a.who (fun y => wr32 s0 y d (BitVec.ofNat 32 ((g0.sbuf acc.val).st + 16 * (g0.sbuf acc.val).bf + 256 * (g0.sbuf acc.val).bscale))) (footOf s0)) ∧
    exec (.mstat h .alloc acc d) s = .next (completeWith s0 a.who (fun y => wr32 s0 y d (BitVec.ofNat 32 (g0.launch.nacc + 256 * g0.launch.nsbuf))) (footOf s0))

/-- The update of one accumulator element (R84, R86, R292): an integer accumulator takes the exact sum of products modulo 2^32, or the best of itself and the clamped candidates; .orand gives 0 or 1; a NaN stays; −0 is never written. What MST writes for an element, and what a row of MROW comes to (R299, R302): a flagged row gives the format's NaN, an element of the same format is unchanged, a narrower one is rounded and saturated as the slot says, and an empty range of columns gives the operator's identity. -/
def Obligations.MatrixElementsAndFlags : Prop :=
  (∀ (d : Nat) (as bs : List Val) (cf : Fmt) (sr : Semiring), d < 2 ^ 32 →
    let total : Int := ((as.zip bs).map fun p => (Val.mul p.1 p.2).int).sum
    let offers : List Int := (as.zip bs).map fun p => clampInt (intLo true 32) (intHi true 32) (candidate sr p.1 p.2).int
    let new : Int := toSigned 32 (update sr .int32 d as bs)
    (update .plusTimes .int32 d as bs : Int) = ((d : Int) + total) % 2 ^ 32 ∧
    (update .orAnd .int32 d as bs = 1 ↔ d ≠ 0 ∨ ∃ p ∈ as.zip bs, (Val.mul p.1 p.2).int = 1) ∧
    (update .orAnd .int32 d as bs = 0 ∨ update .orAnd .int32 d as bs = 1) ∧
    (sr ∈ [Semiring.minPlus, .minMax] → new ∈ toSigned 32 d :: offers ∧ ∀ z ∈ toSigned 32 d :: offers, new ≤ z) ∧
    (sr ∈ [Semiring.maxPlus, .maxTimes] → new ∈ toSigned 32 d :: offers ∧ ∀ z ∈ toSigned 32 d :: offers, z ≤ new) ∧
    (∀ e, cf ∈ [Fmt.fp32, Fmt.fp64] → decodeF cf false e = .nan → update sr cf e as bs = cf.nanBits) ∧
    (∀ e, cf ∈ [Fmt.fp32, Fmt.fp64] → as.zip bs ≠ [] → update sr cf e as bs ≠ cf.signBit)) ∧
  (∀ (cf df : Fmt) (rnd : Rnd) (sat : Bool) (op : RowOp) (x : Nat) (els : List Nat),
    drain cf df rnd sat true x = df.nanBits ∧ drain cf cf rnd sat false x = x ∧
    (cf ≠ df → drain cf df rnd sat false x = convertF cf df rnd false sat x) ∧
    reduceRow cf op true els = cf.nanBits ∧
    (cf = .fp32 → reduceRow cf .max false [] = 0xFF800000 ∧ reduceRow cf .min false [] = 0x7F800000 ∧ reduceRow cf .sum false [] = 0) ∧
    (cf = .int32 → reduceRow cf .max false [] = 0x80000000 ∧ reduceRow cf .min false [] = 0x7FFFFFFF ∧
      reduceRow cf .sum false els = combine .add .i32 els ∧ reduceRow cf .max false els = combine .max .i32 els))

/-- Matrix transfers (R289, R295-R299, R305-R307, R435) of a set whose checks pass: MLD fills an accumulator and flags the rows that hold a NaN; MST stores the elements converted, a flagged row's as NaNs; MWLD fills a stationary buffer from registers, scratchpad or memory, decrypted where the load is encrypted; MSAVE stores the matrix image with its capabilities, each granule with its tag at once; MLOAD brings an image back that has zeros where R305 has them, and any other is a matrix-state fault. MWLD, MSAVE and MLOAD go on from the chunk that %pix names: to the end, or, when a save of the unit is due or a fault stops the group, to a chunk that a free number chooses, where %pix holds their number and the PC stays, or to a chunk with an uncorrectable error, where a deferred fault is raised. At another package the ranges are asked for part by part, and stores are combined. What rests on a choice of the model: log entries 27, 29, 42 and 43. -/
def Obligations.MatrixTransfers : Prop :=
  (∀ (s : State) (a : Actor) (p n q : Nat),
    let due := saveDue s a = true ∨ ∃ c, s.cur = some c ∧ c.halt = true
    let keeps (k : Nat) : State := a.cxs.foldl (fun s x => s.modThr x.gid x.tid fun t => { t with pix := BitVec.ofNat 32 k }) s
    (∀ u, Map.get? (s.grp a.cx.gid).unit s.units = some u → saveDue s a = mustSave s (s.grp a.cx.gid).unit u) ∧
    (p < n → due → chunkStop s a p n = (p + Config.pick s.fresh % (n - p + 1), { s with fresh := s.fresh + 1 })) ∧
    (¬ (p < n ∧ due) → chunkStop s a p n = (n, s)) ∧
    (saveDue s a = true → endChunks s a q n true = groupSave (keeps q) (s.grp a.cx.gid).unit) ∧
    (saveDue s a = false → endChunks s a q n true = keeps q) ∧
    (q < n → endChunks s a q n false =
      raise (advanceActor (keeps 0) a) a.cx.gid a.cx.cno (laneMask a.mem) (laneMask a.mem) (pcOf (keeps 0)) (rawOf (keeps 0)) false true { cls := 9, sub := 1 }) ∧
    (n ≤ q → endChunks s a q n false = advanceActor (keeps 0) a)) ∧
  (∀ (s s0 : State) (h : Hdr) (a : Actor) (sl acc : Fin 8) (sb : Fin 2) (l : MLoc) (m : HintOp) (strm : Bool) (ps : List (Loc × Nat)), Gathers true s s0 a →
    let x := a.cx
    let num := slotNum s0 x sl
    let cf := accOf s0 x sl
    let g0 := s0.grp x.gid
    let p := pixOf s0 a
    let gives (i : Instr) (t : State) : Prop := exec i s = .next t
    (∀ (put : List Byte → State → State), put = (fun bs st => advanceActor (st.modGrp x.gid fun g => g.setElems cf acc.val (unpack (Fmt.bits cf) bs) (nanRows cf (unpack (Fmt.bits cf) bs))) a) →
      let way := mlocWay s0 x l (tileRows cf) [permLoad] .rd
      (way = .here ps → eccPieces s0 ps = false → gives (.mld h sl acc l) (put (readRange s0 x ps).1 (readRange s0 x ps).2)) ∧
      (way = .away → gives (.mld h sl acc l) (bring s0 a (mlocAway s0 x l (tileRows cf)).1 (mlocAway s0 x l (tileRows cf)).2 put))) ∧
    (∀ df,
      let way := mlocWay s0 x l (tileRows df) [permStore] .wr
      let bs := pack (Fmt.bits df) (drainTile g0 cf df acc.val (slotRnd num) (slotSat num))
      (way = .here ps → gives (.mst h df sl acc l) (advanceActor (writePieces s0 a.writers ps bs) a)) ∧
      (way = .away → gives (.mst h df sl acc l) (advanceActor (wcRanges s0 a (mlocAway s0 x l (tileRows df)).1 (mlocAway s0 x l (tileRows df)).2 bs) a))) ∧
    (∀ src, let f := mwldFmt s0 x sl
      let n := kOf f.1 * bRow f.1 + bScaleBytes f.1 f.2
      let N := (n + 255) / 256
      mwldCheck sl src s0 a = none →
      (mwldWay s0 x f.1 f.2 src = .here ps → gives (.mwld h sl sb src) (mwldChunks s0 s0 a sl sb src (goodChunks s0 ps p n) fun st => readRange st x ps)) ∧
      (mwldWay s0 x f.1 f.2 src = .away → gives (.mwld h sl sb src) (bring s0 a (mwldAway s0 x f.1 f.2 src).1 (if N ≤ p then [] else (mwldAway s0 x f.1 f.2 src).2)
        fun bs st => mwldChunks s0 st a sl sb src (max p N) fun st => (bs, st))) ∧
      (∀ (st : State) (good : Nat) (read : State → List Byte × State),
        let stop := chunkStop st a p N
        let rd := read stop.2
        let q := min stop.1 good
        let desc := mwldDesc s0 x num src
        let fill (g : Group) : Group :=
          let old := g.sbuf sb.val
          let base := if old.st = 2 ∧ desc.isNone then [] else old.data
          let part := (((bPlaces f.1 f.2).zip (mwldClear rd.2 a f.1 f.2 src rd.1)).take (256 * q)).drop (256 * p)
          g.setSbuf sb.val { st := if desc.isSome then 2 else 1, bf := bitsAt num 4 4, bscale := f.2, data := part.foldl (fun m e => SMap.put 0 e.1 e.2 m) base, enc := desc }
        mwldChunks s0 st a sl sb src good read = endChunks (rd.2.modGrp x.gid fill) a q N (decide (stop.1 < N ∧ stop.1 ≤ good))) ∧
      (∀ (st : State) (bs : List Byte),
        (∀ r, src = .regs r → mwldClear st a f.1 f.2 src bs = regImage st a r n) ∧
        (∀ l, src = .loc l → mwldClear st a f.1 f.2 src bs = bs) ∧
        (∀ cap pitch imm ks k key, src = .enc cap pitch imm ks → mwldKey st x src = some (.ok (k, key)) →
          mwldClear st a f.1 f.2 src bs = (bs.zip ((bRows f.1 f.2 pitch.toNat (matrixAddr st x cap imm)).flatMap fun r => (List.range r.2).map (r.1 + ·))).map fun b =>
            BitVec.ofNat 8 (b.1.toNat ^^^ keyStream key.key k.nonce b.2)))) ∧
    (let N := (imageLen g0 + 255) / 256
      let caps := (imageCaps g0).map fun e => (e.1, sieve s0 (worldOfCx s0 x) e.2)
      let img := caps.foldl (fun bs e => bs.take e.1 ++ bytesOf e.2.bits.toNat 16 ++ bs.drop (e.1 + 16)) (imageBytes g0)
      let stop := chunkStop s0 a p N
      let bs := (img.take (256 * stop.1)).drop (256 * p)
      let tags := if p = 0 then (caps.map fun e => (e.1, e.2.tag)).filter fun t => decide (t.1 < bs.length) else []
      msaveCheck m s0 a = none →
      (imageWay s0 x m permStore .wr = .here ps → gives (.msave h m strm)
        (endChunks (writeTagged stop.2 a.writers (slicePlaces ps (256 * p) bs.length) bs tags) a stop.1 N (decide (stop.1 < N)))) ∧
      (imageWay s0 x m permStore .wr = .away → gives (.msave h m strm)
        (endChunks (wcRanges stop.2 a (useCap s0 x m.cap) [(hintAddr s0 x m + 256 * p, bs.length)] bs) a stop.1 N (decide (stop.1 < N))))) ∧
    (let n := imageLen g0
      let N := (n + 255) / 256
      mloadCheck m s0 a = none →
      (imageWay s0 x m permLoad .rd = .here ps → gives (.mload h m strm) (mloadChunks s0 s0 a (goodChunks s0 ps p n)
        (fun o => match slicePlaces ps o 16 with | (l, _) :: _ => loadedCap (useCap s0 x m.cap) (readCapAt s0 x l) | [] => Cap.null) fun st => readRange st x ps)) ∧
      (imageWay s0 x m permLoad .rd = .away → gives (.mload h m strm) (bring s0 a (useCap s0 x m.cap) (if N ≤ p then [] else [(hintAddr s0 x m, n)])
        fun img st => mloadChunks s0 st a (max p N) (fun o => ⟨BitVec.ofNat 128 (ofBytes ((img.drop o).take 16)), false⟩) fun st => (img, st))) ∧
      (∀ (st : State) (good : Nat) (capIn : Nat → Cap) (read : State → List Byte × State),
        let stop := chunkStop st a p N
        let q := min stop.1 good
        let rd := read stop.2
        let own := imageBytes g0
        let whole := own.take (256 * p) ++ (rd.1.take (256 * q)).drop (256 * p) ++ own.drop (256 * max p q)
        let capAt (o : Nat) : Cap := if p = 0 then capIn o else (((imageCaps g0).find? fun e => e.1 == o).map (·.2)).getD Cap.null
        let is (t : State) : Prop := mloadChunks s0 st a good capIn read = t
        let stopped := decide (stop.1 < N ∧ stop.1 ≤ good)
        let bad := p = 0 ∧ 0 < good ∧ imageOk g0 (rd.1.take (256 * good)) = false
        (bad → is (raise rd.2 x.gid x.cno (laneMask a.mem) (laneMask a.mem) (pcOf rd.2) (rawOf rd.2) false false { cls := 3, sub := 5 })) ∧
        (¬ bad → q ≤ p → is (endChunks rd.2 a q N stopped)) ∧
        (¬ bad → p < q → imageWait s0 x whole capAt g0.launch.nsbuf = none → is (endChunks (imageLoad rd.2 x whole capAt) a q N stopped)) ∧
        (∀ w, ¬ bad → p < q → imageWait s0 x whole capAt g0.launch.nsbuf = some w → is (waitFor rd.2 a w)))))

/-- TCOPY and COLL (R249, R258, R259, R324, R328-R330, R332, R443): with room in the completion Queue and in Carter, and with the performers' earlier writes performed, a copy request of the block's granules is accepted in its engine queue's order, its presence bits are cleared and the TCOPY answers its sequence number, a SCATTER that may reach scratchpads once its index list has been read; with no room the set waits, and keeps the block and the slot that it has read. COLL, once every earlier event is performed at system scope, enters its queue's next round, reserves its completion and answers the round. What rests on a choice of the model: log entries 44 and 45. -/
def Obligations.CopiesAndRoundsAreSubmitted : Prop :=
  (∀ (s s0 : State) (h : Hdr) (a : Actor) (d blk : Reg) (q : Fin 16) (ps : List (Loc × Nat)) (b : Binding), Gathers true s s0 a →
    let x := a.cx
    tcopyCheck blk q s0 a = none → bindingOf s0 x q.val = some b →
    let rd := granulesOf s0 x ps ((useCap s0 x blk).has permLoadCap)
    let fresh := a.block.1 = [] ∧ blkWay s0 x blk = .here ps
    let kept := a.block.1 ≠ []
    let gs := if a.block.1 = [] then rd.1.map (sieve s0 (worldOfCx s0 x)) else a.block.1
    let slots := if a.block.1 = [] then groupSlots s0 x.gid else a.block.2
    let s1 := if a.block.1 = [] then rd.2 else s0
    let c := parseCopy gs
    let room := canReserve s1 b.q = true ∧ carterFull s1 (tcopyReq s1 a b d 0 gs slots).hamlet = false
    fresh ∨ kept → (a.block.1 = [] → c.op = 1 → slotReserved ((slots[c.slot]?).getD 0).toNat = false) →
    (room →
      let s2 := replSettle s1
      let id := s2.nextId
      let r := tcopyReq s1 a b d id gs slots
      let s3 := (reserveEntry { s2 with nextId := id + 1 } b.q).modClan x.gid x.cno fun cl => { cl with q := Map.modify q.val (fun b => { b with seq := b.seq + 1 }) cl.q }
      let r1 := { r with ended := match copyRefused s3 r c (s1.grp x.gid).service with
        | some st => some (st, allOnes64)
        | none => if c.total = 0 then some (0, 0) else none }
      let s4 := { s3 with copies := Map.set id r1 s3.copies }
      let ls := if r1.ended.isSome then [] else linesFrom s4 r1 c 0
      let s5 := ls.foldl (fun s l => darkenLine s l.1 l.2) { s4 with copies := Map.set id { r1 with lines := ls, opening := none, accepted := true } s4.copies }
      let s6 := startCopy s3 id r (s1.grp x.gid).service
      (needsList r1 c = false → exec (.tcopy h d blk q) s = .next (completeWith s5 a.who (fun y => wr32 s5 y d b.seq) (footOf s1))) ∧
      (needsList r1 c = true → exec (.tcopy h d blk q) s = .next
        (if ((Map.get? id s6.copies).bind CopyReq.opening).isSome then parkActor s6 { a with g := none } (.copy id) else s6))) ∧
    (¬ room → exec (.tcopy h d blk q) s = .next (parkActor s1 { a with g := a.g.map fun g => { g with held := (gs, slots) } } (.room b.q)))) ∧
  (∀ (s s0 : State) (h : Hdr) (a : Actor) (d blk : Reg) (q : Fin 16) (b : Binding), Gathers true s s0 a →
    tcopyCheck blk q s0 a = none → bindingOf s0 a.cx q.val = some b → a.block.1 = [] → blkWay s0 a.cx blk = .away →
    exec (.tcopy h d blk q) s = .next (bring s0 a (useCap s0 a.cx blk) [((useCap s0 a.cx blk).addr, 256)] fun bs st =>
      tcopyWith d q b (plainCaps bs) (groupSlots st a.cx.gid) st a)) ∧
  (∀ (s s0 : State) (h : Hdr) (a : Actor) (op : CollOp) (rop : CollRop) (t : CollType) (d src dst : Reg) (q : Fin 16) (root : BitVec 12) (count : BitVec 32) (b : Binding), Gathers true s s0 a →
    let x := a.cx
    collCheck t src dst q count s0 a = none → bindingOf s0 x q.val = some b →
    (∀ s1, canReserve s0 b.q = true → orderBefore s0 a .release .system = (s1, false) →
      let round := ((s1.queue? b.q).map QueueObj.round).getD 0
      let cap (r : Reg) : Option Cap := if r = .vz then none else some (useCap s0 x r)
      let c : CollReq := { queue := b.q, round := round, op := op, rop := rop, ty := t, root := root.toNat, count := count.toNat, src := cap src, dst := cap dst, ctx := ctxOf s1 x, gid := x.gid }
      let s2 := (s1.modQueue b.q fun k => { k with reserved := k.reserved + 1 }).modQueue b.q fun k => { k with round := k.round + 1 }
      exec (.coll h op rop t d src dst q root count) s =
        .next (completeWith { s2 with colls := s2.colls ++ [c] } a.who (fun y => wr32 s2 y d round) (footOf s1))) ∧
    (∀ s1, canReserve s0 b.q = true → orderBefore s0 a .release .system = (s1, true) →
      exec (.coll h op rop t d src dst q root count) s = .next (parkActor s1 a .fence)) ∧
    (canReserve s0 b.q = false → exec (.coll h op rop t d src dst q root count) s = .next (parkActor s0 a (.room b.q))))

/-! Events: threads, the dispatcher, saves. -/

/-- What ends a wait or a delay (R48-R51, R135, R176, R319, R373, R380, R400). Each of the six events completes: exec answers the next state named, under conditions on the state and the operands alone. The writes of a late result that an event names land and the others stay (longLatencyComplete), a uniform register only where no later issue and no higher lane of its own has written it (R177, R178), a capability through the sieve (R407); a failed one becomes one deferred fault of the set that performed its instruction, also while an earlier record holds the group; a nap ends when its time is reached; the largest set of parked threads that wait only on each other is a gather mismatch; a watched thread past its Context's limit is a watchdog fault; a waiting batch enters when it fits whole; a core takes its change of disposition table, and with the last one the OBJ completes. What rests on a choice of the model: log entries 3, 56 and 68. -/
def Obligations.EventsEndWaits : Prop :=
  ∀ (s : State) (gid tid n : Nat) (which : BitVec 16),
    let x : Cx := ⟨gid, tid / 32, tid % 32⟩
    let q := s.thr gid tid
    (∀ p, q.pend[n]? = some p → p.src = .here →
      let pick (b : Bool) : List RegWrite := (p.writes.zipIdx.filter fun w => which.getLsbD (w.2 % 16) == b).map (·.1)
      exec (.longLatencyComplete gid tid n which) s = .next (lateWrites
        (s.modThr gid tid fun t => { t with pend := if pick false = [] then q.pend.eraseIdx n else q.pend.set n { p with writes := pick false } }) x p.issue (pick true))) ∧
    (∀ (t : State) (no : Nat),
      let last (i : Nat) : Nat × Nat := SMap.get (0, 0) i (t.clan gid (tid / 32)).wrote
      let newer (i : Nat) : Prop := no < (last i).1 ∨ (no = (last i).1 ∧ tid % 32 < (last i).2)
      (∀ i v, lateWrite t x no (.w (.v i) v) = applyWrite t x (.w (.v i) v)) ∧ (∀ i b, lateWrite t x no (.p i b) = applyWrite t x (.p i b)) ∧
      (∀ i c, lateWrite t x no (.c (.c i) c) = applyWrite t x (.c (.c i) (sieve t (worldOfCx t x) c))) ∧
      (∀ i v, (newer (2 * i.val) → lateWrite t x no (.w (.k i) v) = t) ∧ (¬ newer (2 * i.val) → lateWrite t x no (.w (.k i) v) = applyWrite t x (.w (.k i) v))) ∧
      (∀ i c, (newer (2 * i.val + 1) → lateWrite t x no (.c (.kc i) c) = t) ∧
        (¬ newer (2 * i.val + 1) → lateWrite t x no (.c (.kc i) c) = applyWrite t x (.c (.kc i) (sieve t (worldOfCx t x) c))))) ∧
    (∀ p f set, q.pend[n]? = some p → p.src = .failed f set → (s.grp gid).stat = .run →
      exec (.longLatencyComplete gid tid n which) s = .next (raise (set.foldl (fun s l => dropFailed p s { x with lane := l }) s)
        gid (tid / 32) (laneMask set) (laneMask set) p.pc p.raw false true f)) ∧
    (∀ till foot, q.wait = .nap till foot →
      (till ≤ s.time → exec (.napExpire gid tid) s = .next (advance s x foot)) ∧ (s.time < till → exec (.napExpire gid tid) s = .next s)) ∧
    (∀ c, let m := stuckSet s gid c
      let alone (k : BitVec 32) : Prop := ∀ l, l < 32 → k.getLsbD l = true → ∃ w, waitsOn s gid c l = some w ∧ w &&& ~~~k = 0
      alone m ∧ (∀ k, alone k → k &&& ~~~m = 0) ∧
      (groupRuns s gid = true → m ≠ 0 → exec (.gatherMismatchDetect gid c) s = .next (raiseParked s gid c m 4)) ∧
      (m = 0 → exec (.gatherMismatchDetect gid c) s = .next s)) ∧
    (groupRuns s gid = true → pastLimit s gid tid = true →
      exec (.watchdogExpire gid tid) s = .next (raiseParked s gid (tid / 32)
        (laneMask ((List.range 32).filter fun l => pastLimit s gid (tid / 32 * 32 + l) && (s.thr gid (tid / 32 * 32 + l)).pcc.addr == q.pcc.addr)) 10)) ∧
    (∀ o w es f r, s.queue? n = some o → o.waiters = [.push w es f r] →
      let s1 := appendEntries (s.modQueue n fun k => { k with waiters := [] }) n es
      (es.length ≤ o.room → exec (.queueBatchEnter n) s = .next (completeWith s1 w (fun y => seqWrites s1 w r o.pushed y) f)) ∧
      (o.room < es.length → exec (.queueBatchEnter n) s = .next s)) ∧
    (∀ ctx core others t c, s.odtChanges = [c] → c.ctx = ctx → c.cores = core :: others → core ∉ others → s.odtLag = [(ctx, core, t)] →
      (others = [] → exec (.odtChangeApply ctx core) s = .next (finishObj { s with odtChanges := [], odtLag := [] } c.op stOK fun _ _ => [])) ∧
      (others ≠ [] → exec (.odtChangeApply ctx core) s = .next { s with odtChanges := [{ c with cores := others }], odtLag := [] }))

/-- The dispatcher (R202, R203, R206-R208, R210, R211, R216, R463): the head launch is refused with the lowest code that fails, or measured and taken; its next unit goes whole to the first hamlet of its search order that holds it, the order of R210 being every hamlet once and beginning at the hashed one; a launch held for its start time runs once it is reached; budget falls by the cores held in each microsecond that passes and is refilled each period; a service core's turn passes to the end of its rotation. Saving and restoring (R212, R213, R384, R386): a unit is saved whole when its Context or SchedContext is suspended, its budget is spent, or a unit of higher priority takes its place; its groups' images are written and it is marked saved; the saved unit at the head of its queue goes back to the first hamlet that holds it, its groups to the cores given; a unit in none of these cases is not saved. For a work of a priority that fits on no hamlet the fewest units of lower priority go, on the first hamlet of its order where it then fits, of the lowest priorities and the latest placed; the others stay. What rests on a choice of the model: log entries 39, 40 and 67. -/
def Obligations.UnitsArePlacedSavedRestored : Prop :=
  ((∀ (s : State) (h : Nat) (q : Sched) (l : Launch) (rest : List Launch) (hd : List Byte), s.sched? h = some q → q.queue = l :: rest →
    q.taken = false → q.suspended = false → q.budgetOk = true → s.dead h = false → programHeader s l = .ok hd →
    (∀ c, launchCode s l (some hd) = some c →
      exec (.launchDequeue h) s = .next (refuseLaunch (popLaunch s h) l.ctx (BitVec.ofNat 64 (l.entries[0]?.getD Cap.null).addr) c) ∧
      launchFails s l (some hd) c = true ∧ ∀ d, 1 ≤ d → d < c → launchFails s l (some hd) d = false) ∧
    (∀ g, launchCode s l (some hd) = none → launchDigest s l = .ok g →
      exec (.launchDequeue h) s = .next ((chainAppend s l.ctx 1 g).modSched h fun q =>
        { q with taken := true, queue := { l with declared := ofBytes ((hd.drop 8).take 2) } :: q.queue.drop 1 }) ∧
      ∀ d, 1 ≤ d → d ≤ 9 → launchFails s l (some hd) d = false)) ∧
  (∀ (s : State) (h : Nat) (q : Sched) (l : Launch) (rest : List Launch) (c : Nat), s.sched? h = some q → q.queue = l :: rest →
    q.taken = false → q.suspended = false → q.budgetOk = true → s.dead h = false → programHeader s l = .bad → launchCode s l none = some c →
    c ≤ 5 ∧ exec (.launchDequeue h) s = .next (refuseLaunch (popLaunch s h) l.ctx (BitVec.ofNat 64 (l.entries[0]?.getD Cap.null).addr) c)) ∧
  (∀ (s : State) (h n hamlet : Nat) (l : Launch) (cores : List Nat) (ps : List (List Nat)), workOf s h = some (.fresh l n) → hamlet < 96 →
    let sh := (Work.fresh l n).shape s
    cores.length = sh.2.2.length → turnOf s h = true →
    (firstFit s (fun _ => false) (.fresh l n) = some hamlet → assignCores s l hamlet (sh.2.2.zip cores) [] = some ps →
      exec (.unitPlace h hamlet cores) s = .next (placeUnit s h l n hamlet false (sh.2.2.zip cores) ps)) ∧
    (firstFit s (fun _ => false) (.fresh l n) ≠ some hamlet → exec (.unitPlace h hamlet cores) s = .next s)) ∧
  (∀ (l : Launch) (hx hy hz : Nat),
    (hamletOrder l (hx, hy, hz)).Perm (List.range 96) ∧ (l.pmode = 1 → hamletOrder l (hx, hy, hz) = List.range 96) ∧
    (l.pmode ≠ 1 → l.shifts = (0, 0, 0) →
      (hamletOrder l (hx, hy, hz)).head? = some (((hx * 40503) ^^^ (hy * 34283) ^^^ (hz * 49843)) % 65536 % 96))) ∧
  (∀ (s : State) (uid : Nat) (u : UnitRec), Map.get? uid s.units = some u →
    (u.launch.start ≤ s.time → ∃ t, exec (.startTimeReached uid) s = .next t ∧
      (∀ g ∈ u.groups, (s.grp? g).isSome → (t.grp g).stat = if (s.grp g).stat = .start then .run else (s.grp g).stat) ∧
      (∀ g, g ∉ u.groups → t.grp g = s.grp g) ∧ (∀ g, { t.grp g with stat := (s.grp g).stat } = s.grp g) ∧ { t with groups := s.groups } = s) ∧
    (s.time < u.launch.start → exec (.startTimeReached uid) s = .next s)) ∧
  (∀ (s : State) (h : Nat) (q : Sched), s.sched? h = some q →
    let len := q.period * 1000
    let start := q.periodStart + (s.time - q.periodStart) / len * len
    let done := 0 < q.period ∧ q.periodStart + len ≤ s.time
    (¬ done → q.budget ≠ 0 → q.period ≠ 0 → exec (.budgetTick h) s = .next (s.modSched h fun k => { k with owed := 0, left := q.left - q.owed })) ∧
    (done → exec (.budgetTick h) s = .next (s.modSched h fun k => k) ∧
      exec (.periodRefill h) s = .next (s.modSched h fun k => { k with left := q.budget, periodStart := start }) ∧ start ≤ s.time ∧ s.time < start + len)) ∧
  (∀ (held : List (Bool × Nat)) (t u : Nat) (q : Sched), t ≤ u → q.period = 0 ∨ u < q.periodStart + q.period * 1000 → q.periodStart ≤ t →
    let n := u / 1000 - t / 1000
    (q.pass held t u).owed = q.owed + (if n = 0 then 0 else (held ++ q.touched).eraseDups.length + (n - 1) * held.length)) ∧
  (∀ (s : State) (core : Nat),
    let ready := s.groups.filter fun g => g.2.service && g.2.core == core && g.2.stat == .run && g.2.faults.isEmpty && g.2.threads.any fun t => t.2.live && t.2.wait == .none
    let prio (g : Nat × Group) : Nat := ((s.sched? g.2.launch.sched).map Sched.prio).getD 0
    let age (g : Nat × Group) : Nat := (s.clan g.1 0).age
    (ready = [] → exec (.serviceCoreRotate core) s = .next s) ∧
    (ready ≠ [] → ∃ g ∈ ready, (∀ k ∈ ready, prio k ≤ prio g) ∧ (∀ k ∈ ready, prio k = prio g → age g ≤ age k) ∧
      exec (.serviceCoreRotate core) s = .next ({ s with nextId := s.nextId + 1 }.modClan g.1 0 fun c => { c with age := s.nextId })))) ∧
  (∀ (s : State) (uid : Nat) (u : UnitRec), Map.get? uid s.units = some u →
    (u.saved = false → unitSaving s u = false →
      (mustSave s uid u = true → exec (.groupSave uid) s = .next (u.groups.foldl beginSave s)) ∧
      (mustSave s uid u = false → exec (.groupSave uid) s = .next s)) ∧
    (mustSave s uid u = true ↔ u.toSave = true ∨ ctxSuspended s u.launch.ctx = true ∨
      (∃ q, s.sched? u.sched = some q ∧ (q.suspended = true ∨ q.budget ≠ 0 ∧ q.period ≠ 0 ∧ q.left = 0)) ∨
      ∃ o ∈ s.objs, ∃ q w, o.2.body = .sched q ∧ workOf s o.1 = some w ∧ uid ∈ preempted s q.prio w) ∧
    (u.saved = false → unitSaving s u = true → ∃ t, exec (.saveSlotWrite uid) s = .next t ∧ t = unitSaved (u.groups.foldl writeSave s) uid ∧
      ∀ v, Map.get? uid t.units = some v → v.saved = true ∧ v.toSave = false) ∧
    (∀ hamlet cores ps, workOf s u.sched = some (.saved uid) → u.groups.any (fun g => (s.grp g).service) = false →
      firstFit s (fun _ => false) (.saved uid) = some hamlet → turnOf s u.sched = true → cores.length = u.groups.length →
      assignCores s u.launch hamlet (((Work.saved uid).shape s).2.2.zip cores) [] = some ps →
      let s1 := (u.groups.zip (cores.zip ps)).foldl (fun st g => restoreGroup st g.1 g.2.1 g.2.2) s
      (unitWait s u = none → exec (.groupRestore uid hamlet cores) s = .next
        ({ s1 with nextId := s1.nextId + 1, units := Map.modify uid (fun u => { u with saved := false, paged := none, hamlet := hamlet, order := s1.nextId, prio := schedPrio s u.sched }) s1.units }.modSched u.sched fun q => { q with served := s1.nextId })) ∧
      (∀ f p, unitWait s u = some (.file f p) → exec (.groupRestore uid hamlet cores) s = .next
        (demandPage { s with units := Map.modify uid (fun u => { u with paged := some (f, p, false) }) s.units } f p)))) ∧
  (∀ (s : State) (p : Nat) (w : Work),
    let going (u : Nat) : Bool := ((Map.get? u s.units).map (unitSaving s)).getD false
    let sh := w.shape s
    let fits (out : List Nat) (h : Nat) : Bool := fitsHamlet s (fun u => going u || out.contains u) sh.1 sh.2.2 h
    let first := (searchOrder s sh.1 sh.2.1).find? fun h => fits (victimsOf s h p) h
    (slotsOk s w = false ∨ (firstFit s going w).isSome = true ∨ first = none → preempted s p w = []) ∧
    (∀ h, slotsOk s w = true → firstFit s going w = none → first = some h →
      (preempted s p w).Sublist (victimsOf s h p) ∧ fits (preempted s p w) h = true ∧
      ∀ vs, vs.Sublist (victimsOf s h p) → vs.length < (preempted s p w).length → fits vs h = false) ∧
    (∀ h v, v ∈ victimsOf s h p → ∃ r, (v, r) ∈ s.units ∧ r.hamlet = h ∧ r.saved = false ∧ unitSaving s r = false ∧ prioOfUnit s r < p) ∧
    (∀ h v r, Map.get? v s.units = some r → r.hamlet = h → r.saved = false → unitSaving s r = false → prioOfUnit s r < p → p ≤ 16 → v ∈ victimsOf s h p) ∧
    (∀ h, (s.units.map (·.1)).Nodup → (victimsOf s h p).Pairwise fun a b => ∀ x y, Map.get? a s.units = some x → Map.get? b s.units = some y →
      prioOfUnit s x < prioOfUnit s y ∨ (prioOfUnit s x = prioOfUnit s y ∧ y.order ≤ x.order)))

/-! Events: the engines. -/

/-- Carter's elements (R258, R260, R323-R331, R333): an entry of a COPYCMD queue whose block can be read, no earlier entry of the queue being open, becomes a request in its queue's order, one that cannot be read ends with CAP, and a fence before it holds it; the next element of a request, with nothing before it, is read, converted, and written with the tags that it keeps, or ends the request with CAP; the end posts the completion once every write is performed at package scope, SEQ, STATUS and ELEM in their places, answers a host's COPY, and arrives at the group's barrier when the block asks for it. What rests on a choice of the model: log entry 44. -/
def Obligations.CarterPerformsRequests : Prop :=
  (∀ (s : State) (qh : Nat) (q : QueueObj) (pair : Nat) (e e' : QEntry) (rest : List QEntry) (gs : List Cap) (s1 s2 : State) (pos : Nat),
    s.queue? qh = some q → q.kind = 2 → q.pair = some pair → q.es = e :: rest → s.dead qh = false → canReserve s pair = true → carterFull s q.hamlet = false →
    (∀ k ∈ s.copies, k.2.key ≠ queueKey qh) →
    (fenceHolds s (queueKey qh) q.popped = true → exec (.carterTakeCopycmd qh) s = .next s) ∧
    (∀ blk, fenceHolds s (queueKey qh) q.popped = false → entryBlock s q.hamlet e = (blk, none, s1) → takeEntry (reserveEntry s1 pair) qh = some (e', pos, s2) →
    let r : CopyReq := { hamlet := q.hamlet, key := queueKey qh, seq := BitVec.ofNat 32 pos, pos := pos, ctx := e'.ctx, who := none, core := none, home := (0, 0, 0), launch := Launch.empty, opening := none, accepted := blk.isNone, paged := none, list := [], slots := e'.slots, blk := gs, comp := pair, next := 0, index := none, data := none, lines := [], ended := none, fromCmd := true, host := e'.host }
    let s3 := { s2 with nextId := s2.nextId + 1 }
    let r1 := { r with ended := match copyRefused s3 r (parseCopy gs) false with
      | some st => some (st, allOnes64)
      | none => if (parseCopy gs).total = 0 then some (0, 0) else none }
    (blk = some gs → exec (.carterTakeCopycmd qh) s = .next (wakeAll (startCopy s3 s2.nextId r false) (· == .room qh)) ∧
      (needsList r1 (parseCopy gs) = false →
        startCopy s3 s2.nextId r false = { s3 with copies := Map.set s2.nextId { r1 with accepted := true } (Map.set s2.nextId r1 s3.copies) })) ∧
    (blk = none → gs = [] → exec (.carterTakeCopycmd qh) s =
      .next (wakeAll { s3 with copies := Map.set s2.nextId { r with ended := some (3, allOnes64) } s3.copies } (· == .room qh))))) ∧
  (∀ (t : State) (id : Nat) (r0 : CopyReq), Map.get? id t.copies = some r0 → r0.ended = none → r0.accepted = true → awaitsRemote t id = false → copyFirst t id r0 = true →
    let r := { r0 with paged := none }
    let s := { t with copies := Map.set id r t.copies }
    let c := parseCopy r.blk
    (∀ st bs, c.op = 3 → (sieve s (s.worldOf r.ctx) c.idx).tag = true → r.list[c.row r.next]? = some (st, bs) → st ≠ 0 →
      exec (.carterElementWrite id) t = .next (endCopy s id st r.next)) ∧
    (let sa := c.sa r.next 0
    let da := c.da r.next 0
    c.indexed = false → c.src.x = false → c.dst.x = false → r.data = none →
    (elemCaps s r c sa da = false → exec (.carterElementWrite id) t = .next (endCopy s id 3 r.next)) ∧
    (elemCaps s r c sa da = true → c.op = 4 → ∀ ps, carterPlace s r .wr da (elemOut r c []).length = .here ps →
      exec (.carterElementWrite id) t = .next (elemDone (carterWrite s id r ps (elemOut r c []) (elemTags s id r c sa da [])) id)) ∧
    (elemCaps s r c sa da = true → c.op ≠ 4 → ∀ ps, carterPlace s r .rd sa (elemSizes r c).1 = .here ps → carterDark s id r ps = false →
      (eccPieces s ps = true → exec (.carterElementWrite id) t = .next (endCopy s id 5 r.next)) ∧
      (eccPieces s ps = false →
        let rd := carterRead s id r ps
        ∀ qs, carterPlace rd.2 r .wr da (elemOut r c rd.1).length = .here qs →
          exec (.carterElementWrite id) t = .next (elemDone (carterWrite rd.2 id r qs (elemOut r c rd.1) (elemTags rd.2 id r c sa da rd.1)) id))))) ∧
  (∀ (s : State) (id : Nat) (r : CopyReq) (st elem : Nat), Map.get? id s.copies = some r → r.ended = some (st, elem) → r.accepted = true → copyFirst s id r = true →
    let away := replAway s 0 (carterCx id r.hamlet).tid
    let c := parseCopy r.blk
    let s1 := hostRespond (postCompletion (replSettle { s with copies := Map.del id s.copies }) r.comp r.seq st elem) r.host 0 []
    let room (w : Wait) : Bool := match w with | .room _ => true | _ => false
    (away = true → exec (.carterCompletion id) s = .next (sendAway s)) ∧
    (away = false → c.arren = false → exec (.carterCompletion id) s = .next (wakeAll (pruneFences s1) room)) ∧
    (∀ g k, away = false → c.arren = true → r.who = some (g, k) → st ≠ 1 → (s1.grp? g).isSome →
      exec (.carterCompletion id) s = .next (wakeAll (pruneFences (redirect s1 g fun s => arriveBar s g c.arrb 1 0)) room))) ∧
  (∀ (c : CopyBlk) (n : Nat), c.op ≠ 2 → c.op ≠ 3 → c.rot = 0 → ∀ k0 k1 a0 a1 b0 b1, c.counts = [k0, k1] → c.sstr = [a0, a1] → c.dstr = [b0, b1] →
    (c.sa n 0 : Int) = ((c.src.addr : Int) + (n % k0 : Nat) * a0 + (n / k0 % k1 : Nat) * a1) % 2 ^ 64 ∧
    (c.da n 0 : Int) = ((c.dst.addr : Int) + (n % k0 : Nat) * b0 + (n / k0 % k1 : Nat) * b1) % 2 ^ 64) ∧
  (∀ (seq : BitVec 32) (st elem : Nat), st < 256 → elem < 2 ^ 64 →
    (completionBits seq st elem).extractLsb' 0 32 = seq ∧ (completionBits seq st elem).extractLsb' 32 8 = BitVec.ofNat 8 st ∧
    (completionBits seq st elem).extractLsb' 40 24 = 0 ∧ (completionBits seq st elem).extractLsb' 64 64 = BitVec.ofNat 64 elem)

/-- The Well (R336-R339): the head entry of a WELLCMD queue that is malformed, or names a page beyond the file, ends at once; FETCH of a page in the cache installs it, WRITEBACK and EVICT of a DIRTY page write it, of a CLEAN one end at once, FLUSH and TRIM go to the drive; a page's bytes come into its frame and every parked access goes on, or, when the drive fails, the page is dropped and every access to it fails; an NVMe error ends a command with IOERR; a command names the page's first LBA and its count of LBAs (R336). What rests on a choice of the model: log entry 46. -/
def Obligations.WellServesPages : Prop :=
  (∀ (s : State) (qh : Nat) (h : WellHead), wellHead s qh = some h →
    let evicting := s.wells.find? fun w => w.2.queue == qh && w.2.op == 2 && !w.2.nvme
    let entry (i : Instr) (op : Nat) (t : State) : Prop := h.bad = false → h.op = op → (op = 3 ∨ h.page < h.file.pages) → exec i s = .next t
    let done : State := wellNow s qh h.pair 0
    let writing : State := wellBegin (setPage s h.fm h.page fun p => { p with state := 3, redirty := false }) qh h (some 1)
    (h.bad = true → evicting = none → ∀ i ∈ [Instr.wellFetch qh, .wellWriteback qh, .wellEvict qh, .wellFlush qh, .wellTrim qh], exec i s = .next (wellNow s qh h.pair 1)) ∧
    (h.bad = false → h.file.pages ≤ h.page →
      (h.op = 0 → exec (.wellFetch qh) s = .next (wellNow s qh h.pair 6)) ∧ (h.op = 1 → exec (.wellWriteback qh) s = .next (wellNow s qh h.pair 6)) ∧
      (h.op = 2 → evicting = none → exec (.wellEvict qh) s = .next (wellNow s qh h.pair 6)) ∧ (h.op = 4 → exec (.wellTrim qh) s = .next (wellNow s qh h.pair 6))) ∧
    (∀ p, Map.get? h.page h.file.cache = some p →
      (p.state ≠ 0 → entry (.wellFetch qh) 0 (wellNow (installPage s h.fm h.page p.frame) qh h.pair 0)) ∧
      (p.state = 0 → entry (.wellFetch qh) 0 (wellBegin s qh h none)) ∧
      (p.state = 2 → entry (.wellWriteback qh) 1 writing) ∧ (p.state ≠ 2 → entry (.wellWriteback qh) 1 done) ∧
      (p.state = 2 → evicting = none → entry (.wellEvict qh) 2 writing) ∧
      (p.state = 1 → pageInUse s h.fm h.page = false → evicting = none → entry (.wellEvict qh) 2 (wellNow (dropPage s h.fm h.page) qh h.pair 0)) ∧
      (p.state ∈ [1, 2] → pageInUse s h.fm h.page = false → entry (.wellTrim qh) 4 (wellBegin (dropPage s h.fm h.page) qh h (some 4)))) ∧
    (Map.get? h.page h.file.cache = none →
      entry (.wellWriteback qh) 1 done ∧ (evicting = none → entry (.wellEvict qh) 2 done) ∧ entry (.wellTrim qh) 4 (wellBegin s qh h (some 4))) ∧
    entry (.wellFlush qh) 3 (wellBegin s qh h (some 3))) ∧
  (∀ (s : State) (fm page : Nat) (p : FilePage) (data : List Byte) (sct sc : BitVec 8), pageOf? s fm page = some p → p.state = 0 →
    (let k := fileKey s fm page p.frame
     let s1 := writeVia (zeroPhys s p.frame (2 ^ 17) k) k p.frame (data.take (2 ^ 17))
     let errs := s1.ecc.filter fun e => !(decide (p.frame ≤ 32 * e.1) && decide (32 * e.1 < p.frame + 2 ^ 17))
     let s2 := { s1 with ecc := errs, nextId := s1.nextId + 1 }
     let s3 := installPage (setPage s2 fm page fun p => { p with state := 1, installed := s1.nextId }) fm page p.frame
     exec (.wellReadComplete fm page (some data) sct sc) s = .next (retryPages (drainInbound ((fetchesOf s3 fm page).foldl (fun st id => endWell st id 0 0) s3)))) ∧
    (let s1 := wakePage (s.modFm fm fun f => { f with cache := Map.del page f.cache, freeFrames := f.freeFrames ++ [p.frame] }) fm page true
     let s2 := failInbound (failBlocks (failLaunches (failRounds (failCopies s1 fm page) fm page) fm page) fm page) fm page
     exec (.wellReadComplete fm page none sct sc) s = .next (retryPages ((fetchesOf s2 fm page).foldl (fun st id => endWellErr st id sct sc) s2)))) ∧
  (∀ (s : State) (id : Nat) (c : WellCmd) (sct sc : BitVec 8), Map.get? id s.wells = some c → c.nvme = true → c.op ∈ [1, 3, 4] →
    let s1 := { s with wells := Map.modify id (fun c => { c with nvme := false }) s.wells }
    let wrote (ok : Bool) : State := if c.op = 1 then setPage s1 c.fm c.page fun p => if p.state = 3 then { p with state := if ok && !p.redirty then 1 else 2, redirty := false } else p else s1
    exec (.wellNvmeComplete id 0 0) s = .next (endWell (wrote true) id 0 0) ∧
    (sct ≠ 0 ∨ sc ≠ 0 → exec (.wellNvmeComplete id sct sc) s = .next (endWellErr (wrote false) id sct sc))) ∧
  (∀ (s : State) (fm page op : Nat) (f : FileMapObj), s.filemap? fm = some f → op ≠ 3 →
    nvmeOf s fm op page = .nvme fm op page (f.lba + page * (131072 / f.lbaSize)) (131072 / f.lbaSize))

/-- Combining (R265, R269-R273): a far request joins the earliest partner of its cistern, waits there, or passes a full one; the end of its hold frees it; the earliest free one is sent; the home performs it once, or, where it is another package's, is asked (R267, R430), and the Bellringer of a bound Frame performs it once each member has bound and refuses it on a frozen one (R415, R429); the reply splits on its way back. Merging two requests leaves at the location, and brings to each, what performing the first and then the second would. What rests on a choice of the model: log entry 47. -/
def Obligations.CisternsCombineRequests : Prop :=
  (∀ (s : State) (id : Nat) (q : FarReq), Map.get? id s.fars = some q →
    let set (f : FarReq → FarReq) : State := { s with fars := Map.modify id f s.fars }
    (∀ c rest, q.route = c :: rest → q.cistern = 0 → q.old = none →
      (64 ≤ cisternUse s c → exec (.cisternArrive id) s = .next (set fun q => { q with route := rest })) ∧
      (cisternUse s c < 64 → ∀ k p, firstWaiting s c (fun p => mayMerge p q) = some (k, p) →
        exec (.cisternArrive id) s = .next { s with fars := Map.set k { mergeReq p q c with free := true } (Map.del id s.fars) }) ∧
      (cisternUse s c < 64 → firstWaiting s c (fun p => mayMerge p q) = none →
        exec (.cisternArrive id) s = .next { s with nextId := s.nextId + 1, fars := Map.modify id (fun q => { q with cistern := c, route := rest, free := !q.hold, arrived := s.nextId }) s.fars })) ∧
    (q.cistern ≠ 0 → exec (.cisternHoldExpire id) s = .next (set fun q => { q with free := true })) ∧
    (q.cistern ≠ 0 → (firstWaiting s q.cistern FarReq.free).map (·.1) = some id → exec (.cisternSend id) s = .next (set fun q => { q with cistern := 0 })) ∧
    (atHome s id q = true → q.sent = false → q.dest ≠ .here → (q.dest = .repl → boundAway s q.pa = true) → exec (.atomicHomePerform id) s = .next (askHome s id q)) ∧
    (atHome s id q = true → q.sent = false → q.dest = .repl → boundAway s q.pa = false →
      let p := performAtom s q.tree.writer (.mem q.pa 1 q.key) q.aop q.cmp q.size q.operand
      (boundWaits s q.pa = true → exec (.atomicHomePerform id) s = .next s) ∧
      (∀ f, boundWaits s q.pa = false → frameAt s q.pa = some f → f.frozen = true → exec (.atomicHomePerform id) s =
        .next (wakeFences (farRefuse { cls := 2, sub := 6 } q.world q.tree { s with fars := Map.del id s.fars }))) ∧
      (boundWaits s q.pa = false → (∀ f, frameAt s q.pa = some f → f.frozen = false) → exec (.atomicHomePerform id) s =
        .next (wakeFences (replSettle { p.2 with fars := Map.modify id (fun q => { q with old := some p.1 }) p.2.fars })))) ∧
    (atHome s id q = true → q.sent = false → q.dest = .here → eccLoc s (.mem q.pa 0 q.key) q.size = false →
      let v := ofBytes (readVia s q.key q.pa q.size)
      let s1 := match atomNew q.aop q.cmp (8 * q.size) v q.operand with
        | some y => checkMonitors (dirtyPage (writeVia s q.key q.pa (bytesOf y q.size)) q.pa)
        | none => s
      exec (.atomicHomePerform id) s = .next (wakeFences { s1 with fars := Map.set id { q with old := some v, cistern := 0, route := [] } s1.fars })) ∧
    (atHome s id q = true → q.sent = false → q.dest = .here → eccLoc s (.mem q.pa 0 q.key) q.size = true →
      exec (.atomicHomePerform id) s = .next (wakeFences (farRefuse { cls := 9, sub := 3 } q.world q.tree { s with fars := Map.del id s.fars }))) ∧
    (∀ v who n d pc raw ea cap, q.old = some v → q.tree = .leaf who n d pc raw ea cap →
      exec (.cisternReplySplit id) s = .next (farReply { s with fars := Map.del id s.fars } who n d q.size v)) ∧
    (∀ v src n e, q.old = some v → q.tree = .foreign src n e →
      (replOwes s 0 fabricCx.tid = true → exec (.cisternReplySplit id) s = .next s) ∧
      (replOwes s 0 fabricCx.tid = false → exec (.cisternReplySplit id) s = .next
        (sendPacket { s with fars := Map.del id s.fars } (protectedWorld s q.world) src (.remoteAns src n (.data (bytesOf v q.size)))))) ∧
    (∀ v p r ap c, q.old = some v → q.tree = .split p r ap c →
      let later : FarReq := { q with tree := r, old := some (laterReply q.aop (8 * q.size) v ap) }
      let left := Map.set (s.nextId + 1) later (Map.set s.nextId { q with tree := p } (Map.del id s.fars))
      exec (.cisternReplySplit id) s = .next { s with nextId := s.nextId + 2, fars := left })) ∧
  (∀ (aop : AOp) (n v p q : Nat), aop ∈ [AOp.add, .and, .or, .xor, .smin, .smax, .umin, .umax, .swapOp] → 1 ≤ n → v < 2 ^ n → p < 2 ^ n → q < 2 ^ n →
    newVal aop n v (mergedOperand aop n p q) = newVal aop n (newVal aop n v p) q ∧ laterReply aop n v p = newVal aop n v p)

/-- Revocation (R402, R404, R405, R408-R413): the Gleaner takes the next entry of the Queue whose turn it is and closes the capability's range in the Queue's world, or completes it with BLOCK or CAP; a sweep covers the requests that joined it; when nothing of its worlds is in flight, every capability register of their threads that reaches into a closed range loses its tag, and so does every such granule of their memory, and the requests complete in order. What rests on a choice of the model: log entries 18 and 48. -/
def Obligations.RevocationSweeps : Prop :=
  (∀ (s : State) (qh pair pos : Nat) (q : QueueObj) (e : QEntry) (s1 : State), gleanNext s = some qh → s.queue? qh = some q → q.pair = some pair →
    takeEntry (reserveEntry s pair) qh = some (e, pos, s1) →
    let c := ({ bits := e.bits, tag := e.tag } : Cap).norm
    let s2 := wakeAll { s1 with gleanerLast := qh } (· == .room qh)
    let seq := BitVec.ofNat 32 pos
    let mayRevoke := c.tag = true ∧ c.sealed = false ∧ c.has permRevoke = true
    let here := c.x = false ∧ windowOf c.base = none
    (mayRevoke → here → exec (.gleanerTakeEntry qh) s = .next { s2 with closed := s2.closed ++ [
      { base := c.base, top := c.top, world := s.worldOf qh, comp := some (pair, seq), queue := qh, pos := pos, sweep := s.sweepNo + 1, freeze := false, op := none }] }) ∧
    (¬ mayRevoke → exec (.gleanerTakeEntry qh) s = .next (pruneFences (postCompletion s2 pair seq 3 0))) ∧
    (mayRevoke → ¬ here → exec (.gleanerTakeEntry qh) s = .next (pruneFences (postCompletion s2 pair seq 1 0)))) ∧
  (∀ s : State, (s.sweeping = false → (∃ r ∈ s.closed, r.sweep = s.sweepNo + 1) → exec .sweepStart s = .next { s with sweeping := true, sweepNo := s.sweepNo + 1 }) ∧
    (s.sweeping = true → exec .sweepStart s = .next s) ∧ (s.sweeping = false → exec .sweepEnd s = .next s)) ∧
  (∀ s : State, s.sweeping = true →
    let s1 := sweepDrain s
    let rs := s1.closed.filter fun r => r.sweep == s.sweepNo
    let only := { s1 with closed := rs }
    let later : List Closed := (sweepAll s1 (sieve only) fun w => rs.any fun r => r.world == w).closed.filter fun r => r.sweep != s.sweepNo
    let t := sweepAll s1 (sieve only) fun w => rs.any fun r => r.world == w
    ((∀ r ∈ rs, inFlight s1 r.world = false) →
      let u := { t with closed := later, sweeping := false }
      exec .sweepEnd s = .next (wakeAll (pruneFences (rs.foldl (sweepPost s.sweepNo) u)) fun w => match w with | .room _ => true | _ => false)) ∧
    ((∃ r ∈ rs, inFlight s1 r.world = true) → exec .sweepEnd s = .next s1) ∧
    (∀ g u n, SMap.wf Cap.null (s1.thr g u).c = true → Present s1 ⟨g, u / 32, u % 32⟩ →
      SMap.get Cap.null n (t.thr g u).c = sieve only (s1.worldOf (s1.grp g).ctx) (SMap.get Cap.null n (s1.thr g u).c)) ∧
    (∀ g w, w ∈ worldsOfPa s1 (allLeaves s1) (16 * g) → (∃ r ∈ rs, r.world = w) →
      (eccHit (16 * g) 16 s1.ecc = true ∨ (sieve only w ⟨BitVec.ofNat 128 (readNum s1 (16 * g) 16), true⟩).tag = false) → Map.get? g t.tags ≠ some true))

/-! Events: the fabric, PCIe and the device as a whole. -/

/-- What comes back and what goes out (R428-R430, R437, R440, R443-R447): an answer's bytes join the pending instruction of each of its threads, no answer within 50 ms is a remote-access fault; a write-combining entry is sent at its age limit; the Bellringer stamps writes in their order, those of a bound Frame once each member has bound, or sends them to the home of the group, each replica applies them in that order, the monitors there being tested after each, and a write that every replica has leaves the log; a round with every member's part writes its result, by the tree of the ports, and posts OK or the status that its members give it, one that a member leaves posts MEMBER, each once the result's writes are performed; an answer of a protected world that comes unsealed is dropped and reported, and a port that is down brings nothing. What rests on a choice of the model: log entries 45 and 49. -/
def Obligations.FabricAnswersAndOrders : Prop :=
  (∀ (s : State) (id : Nat) (r : RemoteOut) (who : Who) (l : Nat) (pc : DWord) (raw : BitVec 128), Map.get? id s.remotes = some r → r.far = none → r.carter = none → r.part = none → r.who = some (who, pc, raw) →
    let s1 := { s with remotes := Map.del id s.remotes }
    (∀ port bs n, r.op = .load n → r.status = none → who.lanes = [l] → (s.grp who.gid).stat ≠ .saved → bs.length = n →
      protectedWorld s r.world = false → SMap.get false (4 + port.val) s.portDown = false →
      let x : Cx := ⟨who.gid, who.clan, l⟩
      l < 32 → exec (.fabricPacketReceive port false false (.answer id (.data bs))) s = .next (answerAcks (wakeFences
        (s1.modThr who.gid x.tid fun t => { t with pend := t.pend.map fun p => if p.src == .remote id then { p with src := .here, writes := loadWrites s1 x r.ty r.d (ofBytes bs) } else p })))) ∧
    (∀ port b a, SMap.get false (4 + port.val) s.portDown = true → exec (.fabricPacketReceive port b b (.answer id a)) s = .next s) ∧
    (∀ port a, protectedWorld s r.world = true → SMap.get false (4 + port.val) s.portDown = false →
      exec (.fabricPacketReceive port false false (.answer id a)) s = .next (almanac s (port.val / 3) 0 1 6 [])) ∧
    (r.born + 50000000 ≤ s.time →
      exec (.remoteResponseTimeout id) s = .next (wakeFences (failPend s1 (.remote id) who pc raw { cls := 2, sub := 3, addr := BitVec.ofNat 64 (r.cap.addr + r.off) }))) ∧
    (s.time < r.born + 50000000 → exec (.remoteResponseTimeout id) s = .next s)) ∧
  (∀ (s : State) (id : Nat) (r : RemoteOut), Map.get? id s.remotes = some r → r.far = none → r.carter = none → r.who = none → r.born + 50000000 ≤ s.time →
    let a := BitVec.ofNat 64 (r.cap.addr + r.off)
    exec (.remoteResponseTimeout id) s = .next (wakeFences (r.issuers.foldl (fun st i => failPend st (.remote id) i.1 i.2.1 i.2.2 { cls := 2, sub := 3, addr := a }) { s with remotes := Map.del id s.remotes }))) ∧
  (∀ (s : State) (core n : Nat) (svc : Bool) (es : List WcEntry) (e : WcEntry),
    let k := if svc then 1536 + core else core
    Map.get? k s.wc = some es → es[n]? = some e →
    (e.born + e.age ≤ s.time → exec (.wcAgeExpire core svc n) s = .next ((es.filter (· == e)).foldl (wcSend k) { s with wc := Map.modify k (fun l => l.filter fun o => o != e) s.wc })) ∧
    (s.time < e.born + e.age → exec (.wcAgeExpire core svc n) s = .next s)) ∧
  (∀ s : State,
    let takes (w : ReplWrite) : Bool := !boundWaits s w.pa && !(w.sent && boundAway s w.pa)
    (s.replNew.find? takes = none → exec .replWriteStamp s = .next s) ∧
    (∀ w, s.replNew.find? takes = some w →
      (boundAway s w.pa = false → exec .replWriteStamp s = .next (drainPosted
        { s with replNew := s.replNew.erase w, replLog := s.replLog ++ [w], owed := s.owed ++ owedFor s w, out := s.out ++ multicast s w })) ∧
      (boundAway s w.pa = true → exec .replWriteStamp s = .next
        { s with replNew := s.replNew.map (fun v => if v == w then { v with sent := true } else v), out := s.out ++ [.replMulticast w.pa w.data w.more] })) ∧
    (∀ pa h g, boundGroup s pa = some (h, g) →
      (boundAway s pa = true ↔ h ≠ g.rank) ∧
      (boundWaits s pa = true ↔ h = g.rank ∧ ∃ r, r < g.size ∧ r ≠ g.rank ∧ ∀ b ∈ s.bound, b.1 = g.id → b.2.1 ≠ r)) ∧
    (∀ pa, boundGroup s pa = none → boundAway s pa = false ∧ boundWaits s pa = false)) ∧
  (∀ (s : State) (die : Fin 7),
    let k := SMap.get 0 die.val s.replDone
    let s1 := { s with replDone := SMap.put 0 die.val (k + 1) s.replDone }
    let s2 := checkMonitors s1
    (k < s.replLog.length → exec (.replReplicaApply die) s = .next (replPrune s2.replLog.length s2)) ∧
    (s.replLog.length ≤ k → exec (.replReplicaApply die) s = .next (replPrune s.replLog.length s)) ∧
    (∀ w rest, s1.replLog = w :: rest → (∃ d, d < 7 ∧ SMap.get 0 d s1.replDone = 0) → replPrune s1.replLog.length s1 = s1)) ∧
  (∀ (s : State) (qh : Nat) (c : CollReq) (others : List (Nat × Contribution)) (o : QueueObj) (g : CollGroup) (src dst : List (Loc × Nat)),
    s.colls.find? (fun c => c.queue == qh) = some c → s.queue? qh = some o → o.coll = some g → s.dead qh = false →
    let theirs := others.filter fun p => p.1 != g.rank
    let come : Prop := ∀ j, j < g.size → j ≠ g.rank → ∃ p ∈ others, p.1 = j
    (∀ n, c.ended = some n → exec (.collRoundComplete qh others) s = .next (postRound s c n)) ∧
    (c.ended = none →
      (∀ f p, memberOf s c g = .wait f p → exec (.collRoundComplete qh others) s = .next (demandPage s f p)) ∧
      ((∀ f p, memberOf s c g ≠ .wait f p) → ¬ come → exec (.collRoundComplete qh others) s = .next s) ∧
      (∀ n, memberOf s c g = .status n → come → exec (.collRoundComplete qh others) s = .next (postRound s c (roundStatus c g.rank (.status n) theirs))) ∧
      (memberOf s c g = .ready src dst → come →
        let k := roundStatus c g.rank (.ready src dst) theirs
        let n := CollType.bytes c.ty
        let rd := readRange s collCx src
        let els (b : List Byte) : List Nat := unpack (8 * n) ((b ++ List.replicate (c.count * n) 0).take (c.count * n))
        let parts := theirs.filterMap fun p => match p.2 with | .data _ l b => some (l, els b) | _ => none
        (k ≠ 0 → exec (.collRoundComplete qh others) s = .next (postRound s c k)) ∧
        (k = 0 → c.op = .allreduce → c.rop ≠ .msum → (∀ p ∈ others, p.1 ≠ g.rank) →
          exec (.collRoundComplete qh others) s = .next (postRound (writePieces rd.2 collCx.writer dst (pack (8 * n)
            ((List.range c.count).map (collElem c.rop c.ty (([(0, g.rank)], unpack (8 * n) rd.1) :: parts))))) c 0)))) ∧
    (s.colls = [c] → c.queue = qh → c.ended = none → ∀ pkg gs, exec (.packageLeavesFabric pkg gs) s = .next (if gs.contains g.id then postRound s c 8 else s))) ∧
  (∀ (s : State) (c : CollReq) (st : Nat),
    let u := replSettle s
    let open_ := replAway u 0 collCx.tid = true ∨ replOwes u 0 collCx.tid = true
    (open_ → postRound s c st = sendAway { u with colls := u.colls.map fun o => if o == c then { c with ended := some st } else o }) ∧
    (¬ open_ → postRound s c st = wakeAll (postCompletion { u with colls := u.colls.erase c } c.queue c.round st (if st = 0 then c.count else 2 ^ 64 - 1)) (· == .room c.queue))) ∧
  (∀ (c : CollReq) (rank j n : Nat) (own : Member) (src dst : List (Loc × Nat)) (h : CollHead) (ps : List (Nat × Nat)) (bs : List Byte),
    let mine : CollHead := ⟨c.op, c.rop, c.ty, c.root, c.count⟩
    (h ≠ mine → roundStatus c rank own [(j, .data h ps bs)] = 1) ∧ roundStatus c rank (.status 1) [(j, .data mine ps bs)] = 1 ∧
    roundStatus c rank (.ready src dst) [(j, .data mine ps bs)] = 0 ∧ roundStatus c rank (.status n) [(j, .data mine ps bs)] = n ∧
    roundStatus c rank (.ready src dst) [(j, .failed mine n)] = n ∧
    (n ≠ 1 → rank < j → roundStatus c rank (.status 3) [(j, .failed mine n)] = if n = 8 then 8 else 3)) ∧
  (∀ (rop : CollRop) (t : CollType) (a b : List Nat) (l i : Nat),
    collTree rop t [(l, i, a)] = a ∧
    collTree rop t [(l, 2 * i, a), (l, 2 * i + 1, b)] = mergeParts rop t a b ∧ collTree rop t [(l, 2 * i + 1, b), (l, 2 * i, a)] = mergeParts rop t a b ∧
    collTree rop t [(2 * l, 0, a), (2 * l + 1, 0, b)] = mergeParts rop t a b ∧
    (∀ d, collTree rop t [(l, 0, a), (l, 2, b), (l, 3, d)] = mergeParts rop t a (mergeParts rop t b d)))

/-- PCIe (R340, R341, R352, R453, R486): an inbound request that a Grant of its port admits reads the Frame behind it, or writes it at package scope in the order of arrival, any other is Unsupported Request and an Almanac record; an interrupt signals the bit bound to its vector, or is discarded and recorded; an IO read that nothing completes brings all ones; a link that goes down stays down. What rests on a choice of the model: log entry 50. -/
def Obligations.PcieReachesFrames : Prop :=
  ∀ (s : State) (port vec acc n : Nat) (addr : DWord) (data : List Byte),
    let w (k : Nat) : Nat := match grantAt s port addr.toNat (min k 1) with | some (h, _) => s.worldOf h | none => 0
    let refused (k : Nat) : State := almanac { s with out := s.out ++ [.pcieUnsupported port addr.toNat] } 6 (w k) 1 3 []
    (admitted s port addr.toNat n false = none → exec (.inboundPcieRead port addr n) s = .next (refused n)) ∧
    let held := postedHeld s port
    (held = true → exec (.inboundPcieWrite port addr data) s = .next { s with posted := s.posted ++ [(port, addr.toNat, data)] }) ∧
    (held = false → admitted s port addr.toNat data.length true = none → exec (.inboundPcieWrite port addr data) s = .next (refused data.length)) ∧
    (∀ f pa, admitted s port addr.toNat n false = some (f, pa) → f.kind ≠ 2 → eccHit pa n s.ecc = false →
      exec (.inboundPcieRead port addr n) s = .next { s with out := s.out ++ [.pcieData port addr.toNat (readVia (replView s 6 0 (portCx port).tid) (keyAt s pa) pa n)] }) ∧
    (∀ f pa, held = false → admitted s port addr.toNat data.length true = some (f, pa) → f.kind ≠ 2 →
      exec (.inboundPcieWrite port addr data) s = .next (replSettle (writeLoc s (portCx port).writer (.mem pa (mtypeAt s pa) (keyAt s pa)) data []))) ∧
    (∀ h g f pa wr, grantAt s port addr.toNat n = some (h, g, f, pa) → admitted s port addr.toNat n wr = some (f, pa) →
      (if wr then g.wr = true ∧ f.frozen = false else g.rd = true) ∧ g.bus ≤ addr.toNat ∧ addr.toNat + n ≤ g.bus + 2 ^ f.log2 ∧ pa = f.pa + (addr.toNat - g.bus) ∧ g.port = port) ∧
    (∀ k o p v h b, s.objs.find? (fun o => match o.2.body with | .irq p v _ => p == port && v == vec && !o.2.torn | _ => false) = some (k, o) →
      (o.body = .irq p v (some (h, b)) → s.dead h = false → exec (.msiXInterrupt port vec) s = .next (signal s h (BitVec.ofNat 64 (2 ^ b)))) ∧
      (o.body = .irq p v none → exec (.msiXInterrupt port vec) s = .next (almanac s 6 o.world 1 4 []))) ∧
    (s.objs.find? (fun o => match o.2.body with | .irq p v _ => p == port && v == vec && !o.2.torn | _ => false) = none →
      exec (.msiXInterrupt port vec) s = .next (almanac s 6 0 1 4 [])) ∧
    (∀ q, Map.get? acc s.ios = some q → exec (.ioCompletionTimeout acc) s = .next (ioDeliver s acc (List.replicate q.n 255))) ∧
    (∃ t, exec (.pcieLinkDown port) s = .next t ∧ SMap.get false port t.linkDown = true ∧ { t with linkDown := s.linkDown } = s)

/-- Telemetry, power, the TRNG and fatal errors (R461, R480, R481, R484, R485): a sample, each millisecond, replaces the readings and says whether the cap is exceeded; the clocks go down one step each 100 µs while it is, and up after 10 ms below; a die at 105 °C goes to step 8; a failing or passing TRNG; an error that freezes the Almanac, among them an uncorrectable one in the object store; a record goes over the one 4,096 before it, and while frozen the Almanac counts what it discards. Cold and warm reset (R12, R454, R482, R483): a cold reset leaves nothing in memory and no object, session, launch or Almanac record but what boot makes; it takes a staged bank once; the TRNG's start-up failures are recorded, and eight in a row end the boot; it measures the Reeve's image and the service firmware, writes and locks the Stile matrix, makes the root Untypeds; one that fails stops before its step and records it; a warm reset keeps memory, the Stile matrix and its lock, time, the Almanac and the boot record with all that its chain has gained, and makes the store anew, if a boot had come past step 3. What rests on a choice of the model: log entries 13, 53, 54 and 55. -/
def Obligations.DeviceWatchesItselfAndResets : Prop :=
  ((∀ (s : State) (watts : Nat) (rails : List (Nat × Nat)) (temps hbm : List Nat) (links : List (Bool × Nat)) (die : Fin 7) (d : Fin 6),
    let p := s.power
    let read {α : Type} (z : α) (n : Nat) (l m : List α) : Prop := m.length = n ∧ ∀ i, i < n → m[i]? = some (l[i]?.getD z)
    ((∀ u, p.last.at_ = some u → u + 1000000 ≤ s.time) → ∃ t, exec (.telemetrySample watts rails temps hbm links) s = .next t ∧
      t.power.last.at_ = some s.time ∧ t.power.last.watts = watts ∧ read 0 7 temps t.power.last.temps ∧ read (0, 0) 6 rails t.power.last.rails ∧
      read 0 12 hbm t.power.last.hbm ∧ read (false, 0) 22 links t.power.last.links ∧
      (∀ i, i < 6 → t.power.last.steps[i]? = some (SMap.get 0 i p.step)) ∧ (∀ i, i < 7 → t.power.last.ecc[i]? = some (SMap.get 0 i p.ecc)) ∧
      (t.power.throttle = true ↔ p.cap < watts) ∧ t.power.cap = p.cap ∧ t.power.step = p.step ∧
      (t.power.belowSince.isSome ↔ 100 * watts ≤ 95 * p.cap) ∧ { t with power := p } = s) ∧
    (∀ u, p.last.at_ = some u → s.time < u + 1000000 → exec (.telemetrySample watts rails temps hbm links) s = .next s) ∧
    (∀ u, p.lastStep = some u → s.time < u + 100000 → exec .throttleStepDown s = .next s) ∧
    (p.throttle = true → (∀ u, p.lastStep = some u → u + 100000 ≤ s.time) → ∃ t, exec .throttleStepDown s = .next t ∧ t.power.lastStep = some s.time ∧
      SMap.get 0 d.val t.power.step = (if 1050 ≤ p.last.temps[d.val]?.getD 0 then SMap.get 0 d.val p.step else min 8 (SMap.get 0 d.val p.step + 1)) ∧ { t with power := p } = s) ∧
    (p.throttle = false → exec .throttleStepDown s = .next s) ∧
    (∀ b, p.belowSince = some b → b + 10000000 ≤ s.time → ∃ t, exec .throttleStepUp s = .next t ∧
      SMap.get 0 d.val t.power.step = (if 1050 ≤ p.last.temps[d.val]?.getD 0 then SMap.get 0 d.val p.step else min 8 (SMap.get 0 d.val p.step - 1)) ∧ { t with power := p } = s) ∧
    (1050 ≤ p.last.temps[die.val]?.getD 0 → ∃ t, exec (.thermalLimit die) s = .next t ∧ (die.val < 6 → SMap.get 0 die.val t.power.step = 8)) ∧
    (p.last.temps[die.val]?.getD 0 < 1050 → exec (.thermalLimit die) s = .next s) ∧
    exec .trngHealthFail s = .next (almanac { s with trngOk := false } 6 0 0 2 []) ∧
    exec .trngStartUpTestsPass s = .next { s with trngOk := true } ∧
    (∃ t, exec (.fatalError (.store d)) s = .next t ∧ t.frozen = true ∧ { t with frozen := s.frozen } = { almanac s d.val 0 0 9 [] with frozen := s.frozen }) ∧
    (∀ pa, let s1 := { s with ecc := SMap.put false (pa / 32) true s.ecc }
      (inStore s pa = true → eccDouble s pa = { almanac s1 (homeDie pa % 6) 0 0 9 [] with frozen := true }) ∧ (inStore s pa = false → eccDouble s pa = s1)) ∧
    (∃ t, exec (.fatalError .reeve) s = .next t ∧ t.frozen = true) ∧
    (∃ t, exec (.fatalError (.ring die)) s = .next t ∧ t.frozen = true ∧ { t with frozen := s.frozen } = { almanac s die.val 0 1 9 [] with frozen := s.frozen })) ∧
  (∀ (s : State) (die world plane type : Nat) (data : List Byte),
    let t := almanac s die world plane type data
    (s.frozen = true → t.almanac = s.almanac ∧ t.almSeq = s.almSeq ∧ t.lost = (if s.lost = 0xFFFFFFFF then s.lost else s.lost + 1)) ∧
    (s.frozen = false → SMap.wf AlmRec.zero s.almanac = true → t.almSeq = s.almSeq + 1 ∧ t.lost = s.lost ∧
      (∀ i, i ≠ s.almSeq % 4096 → SMap.get AlmRec.zero i t.almanac = SMap.get AlmRec.zero i s.almanac) ∧
      let r := SMap.get AlmRec.zero (s.almSeq % 4096) t.almanac
      r.seq = s.almSeq ∧ r.time = s.time ∧ r.die = die ∧ r.world = world ∧ r.plane = plane ∧ r.type = type ∧ (type = 5 → r.data = data.take 40)))) ∧
  (∀ (s : State) (plan : BootPlan),
    let image (bank : Nat) : BitVec 384 := (Map.get? bank s.fw.digests).getD plan.fwDigest
    let kind (t : State) (i : Nat) : Nat × Nat := ((SMap.get AlmRec.zero i t.almanac).die, (SMap.get AlmRec.zero i t.almanac).type)
    (∃ t, exec (.coldReset plan) s = .next t ∧ t.units = [] ∧ t.sessions = [] ∧ t.exports = [] ∧ t.copies = [] ∧ t.fars = [] ∧ t.closed = [] ∧ t.fw.staged = false ∧ t.operators = s.operators ∧
      (plan.image = [] → plan.pages = [] → t.mem = [] ∧ t.tags = [] ∧ t.cipher = []) ∧ (plan.firmware = [] → t.groups = []) ∧
      (s.fw.staged = false → t.fw = s.fw ∧
        (plan.fails = none → plan.trngFails < 8 → t.bootStep = 6 ∧ t.lock = true ∧ t.boundRows = plan.rows ∧ t.prot = plan.prot &&& 0xFFF0 ∧ t.trngOk = true ∧ t.pkg = plan.pkg ∧
          t.almSeq = plan.trngFails ∧ (plan.trngFails = 0 → t.almanac = []) ∧
          t.bootRecord = chainNext (chainNext 0 0 3 plan.reeveDigest) 1 3 (image s.fw.active) ∧ t.bootCount = 2) ∧
        (plan.fails = some 4 → plan.trngFails = 0 → t.bootStep = 3 ∧ t.lock = true ∧ t.objs = [] ∧ t.almSeq = 1 ∧ kind t 0 = (6, 1)) ∧
        (plan.fails = some 2 → plan.trngFails = 0 → t.bootStep = 1 ∧ t.lock = false ∧ t.objs = [] ∧ t.almSeq = 1 ∧ kind t 0 = (6, 1)) ∧
        (8 ≤ plan.trngFails → t.bootStep = 0 ∧ t.trngOk = false ∧ t.lock = false ∧ t.objs = [] ∧ t.almSeq = 9 ∧ (∀ i, i < 8 → kind t i = (6, 2)) ∧ kind t 8 = (6, 1))) ∧
      (s.fw.staged = true → plan.fails = none → plan.trngFails < 8 → t.fw.active = 1 - s.fw.active ∧ t.bootStep = 6) ∧
      (s.fw.staged = true → plan.fails = some 4 → plan.trngFails = 0 → plan.failsOld = none → plan.trngFailsOld < 8 →
        t.fw.active = s.fw.active ∧ t.bootStep = 6 ∧ t.almSeq = 2 + plan.trngFailsOld ∧ kind t 0 = (6, 1) ∧ kind t 1 = (6, 10)) ∧
      (s.fw.staged = true → plan.fails = some 4 → plan.trngFails = 0 → plan.failsOld = some 4 → plan.trngFailsOld = 0 → t.fw.active = s.fw.active ∧ t.bootStep = 3 ∧ t.almSeq = 3)) ∧
    (∃ t, exec (.warmReset plan) s = .next t ∧ (plan.pages = [] → t.mem = s.mem ∧ t.tags = s.tags ∧ t.cipher = s.cipher) ∧ t.boundRows = s.boundRows ∧ t.lock = s.lock ∧ t.time = s.time ∧
      t.bootRecord = (bootChain s).1 ∧ t.bootCount = (bootChain s).2 ∧ t.units = [] ∧ (plan.firmware = [] → t.groups = []) ∧ t.sessions = [] ∧ t.exports = [] ∧ t.keys = [] ∧
      (s.bootStep < 3 → t.bootStep = s.bootStep) ∧
      (3 ≤ s.bootStep → plan.fails ≠ some 4 → plan.trngFails < 8 → t.bootStep = 6 ∧ (plan.trngFails = 0 → t.almanac = s.almanac)) ∧
      (3 ≤ s.bootStep → plan.fails = some 4 ∨ 8 ≤ plan.trngFails → t.bootStep = 3)))

/-! Events: the host and management. -/

/-- Each of these events and commands completes: exec answers the next state named, under conditions on the state and the operands alone. Host sessions (R477, R478): an authenticated certificate of a host world opens one of 256 sessions once boot has ended, nothing else does; each command of a session with no COPY outstanding is answered with its tag and a status: the certificate and the boot record's head, a handle for a new Context, bytes loaded into or read from a Frame that a Context maps, a launch enqueued with its tags from handles, a copy entered in its Queue or FULL, an Endpoint's messages from then on, a receipt, BADOP for a reserved code; a handle that the session does not hold is BADCAP. Management (R479, R481, R482, R484), of an open session that an operator's certificate has authenticated, but that telemetry is read through I3C too: the readings of telemetry as last sampled; the Almanac's 4,096 records, 64 bytes each, and the count of lost ones, which ends the freeze; a power cap from 1,200 to 2,400 W and no other; an image with both signatures and a version not below the counter goes to the inactive bank, any other changes nothing. What rests on a choice of the model: log entries 51 and 52. -/
def Obligations.HostAndManagementAnswer : Prop :=
  ((∀ (s : State) (port : Fin 4) (world : BitVec 4) (auth : Bool),
    (s.bootStep = 6 → SMap.get false port.val s.portDown = false → auth = true → 4 ≤ world.toNat → s.sessions.length < 256 →
      exec (.sessionConnect port world auth) s = .next { s with nextId := s.nextId + 1, sessions := Map.set s.nextId { port := port, world := world.toNat, handles := [] } s.sessions }) ∧
    (s.bootStep ≠ 6 ∨ SMap.get false port.val s.portDown = true ∨ auth = false ∨ world.toNat < 4 ∨ 256 ≤ s.sessions.length → exec (.sessionConnect port world auth) s = .next s)) ∧
  (∀ (s : State) (n : Nat) (tag : DWord) (q : Session), Map.get? n s.sessions = some q → copyPending s n = false → Map.get? n s.attests = none →
    let answers (i : Instr) (t : State) (st : Nat) (data : List Byte) : Prop := exec i s = .next (respond t n tag st data)
    answers (.cert n tag) s 0 (Config.certificate ++ digestBytes (bootChain s).1) ∧
    (∀ code : BitVec 8, 8 ≤ code.toNat → answers (.hostReservedCommand n tag code) s 7 []) ∧
    (rootStore s q.world = none → answers (.context n tag) s 2 []) ∧
    (∀ u o c t, rootStore s q.world = some u → s.obj? u = some o → resetting s u = false →
      let r := retypeFrom s u { x := ⟨0, 0, 0⟩, c := Cap.null, h := u, o := o, narg := 1, w := [6], cx := Cap.null }
      r.cap = some c → t = { r.s with nextId := r.s.nextId + 1, sessions := Map.modify n (fun q => { q with handles := q.handles ++ [(r.s.nextId, c)] }) r.s.sessions } →
      answers (.context n tag) t 0 (bytesOf r.s.nextId 8)) ∧
    (∀ ctx fr off data len,
      (∀ e, hostFrame s q ctx fr off data.length true = .error e → answers (.load n tag ctx fr off data) s e []) ∧
      (∀ pa mt k, hostFrame s q ctx fr off data.length true = .ok (pa, mt, k) → answers (.load n tag ctx fr off data) (replSettle (writeLoc s reeveCx.writer (.mem pa mt k) data [])) 0 []) ∧
      (∀ e, hostFrame s q ctx fr off len false = .error e → answers (.read n tag ctx fr off len) s e []) ∧
      (∀ pa mt k, hostFrame s q ctx fr off len false = .ok (pa, mt, k) → mt < 4 → eccHit pa len s.ecc = false →
        answers (.read n tag ctx fr off len) s 0 (readVia (replView s 6 0 reeveCx.tid) k pa len))) ∧
    (∀ bytes hs, ((∃ h ∈ hs, q.cap? h.2 = none) → answers (.hostLaunch n tag bytes hs) s 3 []) ∧
      ((∀ h ∈ hs, (q.cap? h.2).isSome) → (∃ h ∈ hs, foreign s q h.2 = true) → answers (.hostLaunch n tag bytes hs) s 4 []) ∧
      ((∀ h ∈ hs, (q.cap? h.2).isSome) → (∀ h ∈ hs, foreign s q h.2 = false) →
        let gs : List Cap := (List.range 16).map fun i =>
          match hs.find? (fun h => h.1 == i) with
          | some h => (q.cap? h.2).getD Cap.null
          | none => ⟨BitVec.ofNat 128 (ofBytes ((bytes.drop (16 * i)).take 16)), false⟩
        answers (.hostLaunch n tag bytes hs) (enqueue s q.world gs).2 (enqueue s q.world gs).1 [])) ∧
    (∀ qn ctx bn qh c b o, named s q qn 11 [permInvoke] = .ok qh → named s q ctx 6 [permInvoke] = .ok c → q.cap? bn = some b → s.queue? qh = some o →
      (o.kind ≠ 2 → answers (.copy n tag qn ctx bn) s 7 []) ∧
      (o.kind = 2 → canPush s qh 1 = false → answers (.copy n tag qn ctx bn) s 1 []) ∧
      (o.kind = 2 → canPush s qh 1 = true → exec (.copy n tag qn ctx bn) s = .next (pushEntries s qh
        [{ bits := b.bits, tag := b.tag, ctx := c, slots := ((s.ctx? c).map ContextObj.slots).getD [], host := some (n, tag) }]))) ∧
    (∀ ep, (∀ e, named s q ep 1 [permLoad] = .error e → answers (.subscribe n tag ep) s e []) ∧
      (∀ h e k, named s q ep 1 [permLoad] = .ok h → q.cap? ep = some k → s.ep? h = some e → e.msgs = [] → e.senders = [] →
        exec (.subscribe n tag ep) s = .next ((respond s n tag 0 []).modEp h fun e => { e with subs := e.subs ++ [(n, tag, k.has permLoadCap)] }))) ∧
    (∀ ctx buf, (∀ e, named s q ctx 6 [permInvoke] = .error e → answers (.attest n tag ctx buf) s e []) ∧
      (∀ c, named s q ctx 6 [permInvoke] = .ok c → q.cap? buf = none → answers (.attest n tag ctx buf) s 3 []) ∧
      (∀ c b f p, named s q ctx 6 [permInvoke] = .ok c → q.cap? buf = some b →
        attest { s with nextId := s.nextId + 1, groups := Map.set s.nextId { Group.empty with ctx := c, service := true } s.groups } ⟨s.nextId, 0, 0⟩ c b = .wait (.file f p) →
        exec (.attest n tag ctx buf) s = .next (demandPage { s with attests := Map.set n (tag, ctx, buf) s.attests } f p)) ∧
      (∀ c b s3, named s q ctx 6 [permInvoke] = .ok c → q.cap? buf = some b →
        attest { s with nextId := s.nextId + 1, groups := Map.set s.nextId { Group.empty with ctx := c, service := true } s.groups } ⟨s.nextId, 0, 0⟩ c b = .done 0 s3 →
        ∀ ps, rangeOf s3 ⟨s.nextId, 0, 0⟩ .rd b.addr 4992 = .ok ps →
          answers (.attest n tag ctx buf) { s3 with groups := Map.del s.nextId s3.groups } 0 (readPieces s3 ⟨s.nextId, 0, 0⟩ ps)))) ∧
  (∀ (s : State) (q : Session) (h : DWord) (t : Nat) (ps : List Nat) (c : Cap) (o : Obj),
    (q.cap? h = none → named s q h t ps = .error 3) ∧
    (q.cap? h = some c → c.tag = true → (∀ p ∈ ps, c.has p = true) → c.otype = t → s.obj? c.base = some o →
      (o.world ≠ q.world → named s q h t ps = .error 4) ∧ (o.world = q.world → o.torn = true → named s q h t ps = .error 2) ∧
      (o.world = q.world → o.torn = false → named s q h t ps = .ok c.base)))) ∧
  (∀ (s : State) (i3c : Bool) (watts ver : Nat) (digest : BitVec 384),
    let open_ := 0 < s.operators
    (i3c = true ∨ open_ → exec (.mgmtReadTelemetry i3c) s = .next { s with out := s.out ++ [.mgmt (telemetryBytes s.power.last)] }) ∧
    (open_ → exec .mgmtReadAlmanac s = .next
      { s with out := s.out ++ [.mgmt (((List.range 4096).flatMap fun i => almBytes (SMap.get AlmRec.zero i s.almanac)) ++ bytesOf s.lost.toNat 4)], frozen := false }) ∧
    (∀ r : AlmRec, (almBytes r).length = 64) ∧
    (open_ → 1200 ≤ watts → watts ≤ 2400 → ∃ t, exec (.mgmtSetPowerCap watts) s = .next t ∧ t.power.cap = watts ∧ (t.power.throttle = true ↔ watts < s.power.last.watts) ∧
      (t.power.belowSince.isSome ↔ 100 * s.power.last.watts ≤ 95 * watts) ∧ t.power.last = s.power.last ∧ { t with power := s.power } = s) ∧
    (watts < 1200 ∨ 2400 < watts → exec (.mgmtSetPowerCap watts) s = .next s) ∧
    (open_ → s.fw.active ≤ 1 → s.fw.rollback ≤ ver → ∃ t, exec (.mgmtStageFirmware ver digest true) s = .next t ∧ t.fw.staged = true ∧ t.fw.active = s.fw.active ∧
      Map.get? (1 - s.fw.active) t.fw.digests = some digest ∧ Map.get? s.fw.active t.fw.digests = Map.get? s.fw.active s.fw.digests ∧
      (if s.fw.active = 0 then t.fw.versions.2 = ver ∧ t.fw.versions.1 = s.fw.versions.1 else t.fw.versions.1 = ver ∧ t.fw.versions.2 = s.fw.versions.2) ∧ { t with fw := s.fw } = s) ∧
    exec (.mgmtStageFirmware ver digest false) s = .next s ∧
    (ver < s.fw.rollback → exec (.mgmtStageFirmware ver digest true) s = .next s) ∧
    (¬ open_ → exec (.mgmtReadTelemetry false) s = .next s ∧ exec .mgmtReadAlmanac s = .next s ∧ exec (.mgmtSetPowerCap watts) s = .next s ∧
      exec (.mgmtStageFirmware ver digest true) s = .next s))
end

