-- ==== Sys2Proof/Laws/Maps.lean ====
section
/-! SUPPORT. What lookup, setting, deleting and changing do to a map, at the key and elsewhere, and that they keep the canonical form. -/

namespace Sys2Proof.Machine

variable {α : Type}

/-- Keys strictly rising, all from `lo` on. -/
def Map.rising (lo : Nat) : List (Nat × α) → Prop
  | [] => True
  | (a, _) :: m => lo ≤ a ∧ Map.rising (a + 1) m

theorem Map.rising_mono {lo hi : Nat} (h : lo ≤ hi) : {m : List (Nat × α)} → Map.rising hi m → Map.rising lo m
  | [], _ => trivial
  | _ :: _, r => ⟨h.trans r.1, r.2⟩

theorem Map.get?_below {lo k : Nat} (h : k < lo) : {m : List (Nat × α)} → Map.rising lo m → Map.get? k m = none
  | [], _ => rfl
  | (a, v) :: m, r => by
    have h1 : a ≠ k := by have := r.1; omega
    simp only [Map.get?, h1, if_false]
    exact Map.get?_below (by have := r.1; omega) r.2

theorem Map.rising_set {lo k : Nat} (v : α) (h : lo ≤ k) : {m : List (Nat × α)} → Map.rising lo m → Map.rising lo (Map.set k v m)
  | [], _ => ⟨h, trivial⟩
  | (a, w) :: m, r => by
    simp only [Map.set]
    split
    · exact ⟨h, by omega, r.2⟩
    · split
      · rename_i _ e; subst e; exact ⟨h, r.2⟩
      · exact ⟨r.1, Map.rising_set v (by omega) r.2⟩

theorem Map.rising_del {lo k : Nat} : {m : List (Nat × α)} → Map.rising lo m → Map.rising lo (Map.del k m)
  | [], _ => trivial
  | (a, w) :: m, r => by
    simp only [Map.del]
    split
    · exact Map.rising_mono (by have := r.1; omega) (Map.rising_del r.2)
    · exact ⟨r.1, Map.rising_del r.2⟩

theorem Map.get?_set_self (k : Nat) (v : α) : (m : List (Nat × α)) → Map.get? k (Map.set k v m) = some v
  | [] => by simp [Map.set, Map.get?]
  | (a, w) :: m => by
    simp only [Map.set]
    split
    · simp [Map.get?]
    · split
      · simp [Map.get?]
      · rename_i h; simp [Map.get?, h, Map.get?_set_self k v m]

theorem Map.get?_set_other {k j : Nat} (v : α) (h : j ≠ k) : (m : List (Nat × α)) → Map.get? j (Map.set k v m) = Map.get? j m
  | [] => by simp [Map.set, Map.get?, h.symm]
  | (a, w) :: m => by
    simp only [Map.set]
    split
    · simp [Map.get?, h.symm]
    · split
      · rename_i e; subst e; simp [Map.get?, h.symm]
      · simp only [Map.get?, Map.get?_set_other v h m]

theorem Map.get?_del_self (k : Nat) : (m : List (Nat × α)) → Map.get? k (Map.del k m) = none
  | [] => rfl
  | (a, w) :: m => by
    simp only [Map.del]
    split
    · exact Map.get?_del_self k m
    · rename_i h; simp [Map.get?, h, Map.get?_del_self k m]

theorem Map.get?_del_other {k j : Nat} (h : j ≠ k) : (m : List (Nat × α)) → Map.get? j (Map.del k m) = Map.get? j m
  | [] => rfl
  | (a, w) :: m => by
    simp only [Map.del]
    split
    · rename_i e; subst e; simp [Map.get?, h.symm, Map.get?_del_other h m]
    · simp only [Map.get?, Map.get?_del_other h m]

theorem Map.get?_modify_self (k : Nat) (f : α → α) : (m : List (Nat × α)) → Map.get? k (Map.modify k f m) = (Map.get? k m).map f
  | [] => rfl
  | (a, w) :: m => by
    simp only [Map.modify]
    split
    · rename_i e; subst e; simp [Map.get?]
    · rename_i h; simp [Map.get?, h, Map.get?_modify_self k f m]

theorem Map.get?_modify_other {k j : Nat} (f : α → α) (h : j ≠ k) : (m : List (Nat × α)) → Map.get? j (Map.modify k f m) = Map.get? j m
  | [] => rfl
  | (a, w) :: m => by
    simp only [Map.modify]
    split
    · rename_i e; subst e; simp [Map.get?, h.symm]
    · simp only [Map.get?, Map.get?_modify_other f h m]

theorem Map.modify_modify (k : Nat) (f g : α → α) : (m : List (Nat × α)) → Map.modify k f (Map.modify k g m) = Map.modify k (fun x => f (g x)) m
  | [] => rfl
  | (a, w) :: m => by
    by_cases h : a = k
    · simp [Map.modify, h]
    · simp [Map.modify, h, Map.modify_modify k f g m]

theorem Map.modify_id (k : Nat) : (m : List (Nat × α)) → Map.modify k (fun x => x) m = m
  | [] => rfl
  | (a, w) :: m => by simp [Map.modify, Map.modify_id k m]

theorem Map.modify_comm {k j : Nat} (f g : α → α) (h : k ≠ j) : (m : List (Nat × α)) → Map.modify k f (Map.modify j g m) = Map.modify j g (Map.modify k f m)
  | [] => rfl
  | (a, w) :: m => by
    by_cases h1 : a = k
    · have h2 : ¬a = j := fun e => h (h1.symm.trans e)
      simp [Map.modify, h1, h]
    · by_cases h2 : a = j
      · simp [Map.modify, h2, h.symm]
      · simp [Map.modify, h1, h2, Map.modify_comm f g h m]

/-! Canonical maps. -/

variable [DecidableEq α]

/-- Rising keys and no listed default: `SMap.wf` as a recursion on one element. -/
def SMap.canon (d : α) (lo : Nat) : SMap α → Prop
  | [] => True
  | (a, v) :: m => lo ≤ a ∧ v ≠ d ∧ SMap.canon d (a + 1) m

theorem SMap.wf_cons {d : α} : {m : SMap α} → (a : Nat) → (v : α) → (SMap.wf d ((a, v) :: m) = true ↔ v ≠ d ∧ SMap.canon d (a + 1) m)
  | [], a, v => by simp [SMap.wf, SMap.canon]
  | (b, w) :: m, a, v => by
    simp only [SMap.wf, Bool.and_eq_true, decide_eq_true_eq, SMap.wf_cons (m := m) b w, SMap.canon, Nat.succ_le_iff]
    tauto

theorem SMap.wf_iff {d : α} : {m : SMap α} → (SMap.wf d m = true ↔ SMap.canon d 0 m)
  | [] => by simp [SMap.wf, SMap.canon]
  | (a, v) :: m => by simp [SMap.wf_cons, SMap.canon]

omit [DecidableEq α] in
theorem SMap.canon_mono {d : α} {lo hi : Nat} (h : lo ≤ hi) : {m : SMap α} → SMap.canon d hi m → SMap.canon d lo m
  | [], _ => trivial
  | _ :: _, r => ⟨h.trans r.1, r.2⟩

omit [DecidableEq α] in
theorem SMap.canon_set {d : α} {lo k : Nat} {v : α} (h : lo ≤ k) (hv : v ≠ d) : {m : SMap α} → SMap.canon d lo m → SMap.canon d lo (Map.set k v m)
  | [], _ => ⟨h, hv, trivial⟩
  | (a, w) :: m, r => by
    simp only [Map.set]
    split
    · exact ⟨h, hv, by omega, r.2⟩
    · split
      · rename_i _ e; subst e; exact ⟨h, hv, r.2.2⟩
      · exact ⟨r.1, r.2.1, SMap.canon_set (by omega) hv r.2.2⟩

theorem SMap.canon_del {d : α} {lo k : Nat} : {m : SMap α} → SMap.canon d lo m → SMap.canon d lo (Map.del k m)
  | [], _ => trivial
  | (a, w) :: m, r => by
    simp only [Map.del]
    split
    · exact SMap.canon_mono (by have := r.1; omega) (SMap.canon_del r.2.2)
    · exact ⟨r.1, r.2.1, SMap.canon_del r.2.2⟩

/-- Deleting keeps the canonical form. -/
theorem SMap.wf_del {d : α} {k : Nat} {m : SMap α} (h : SMap.wf d m = true) : SMap.wf d (Map.del k m) = true :=
  SMap.wf_iff.2 (SMap.canon_del (SMap.wf_iff.1 h))

/-- Writing a value keeps the canonical form. -/
theorem SMap.wf_put {d : α} {k : Nat} {v : α} {m : SMap α} (h : SMap.wf d m = true) : SMap.wf d (SMap.put d k v m) = true := by
  unfold SMap.put
  split
  · exact SMap.wf_del h
  · exact SMap.wf_iff.2 (SMap.canon_set (Nat.zero_le k) ‹_› (SMap.wf_iff.1 h))

/-- Writing a run of values keeps the canonical form. -/
theorem SMap.wf_putRange {d : α} (vs : List α) : {k : Nat} → {m : SMap α} → SMap.wf d m = true → SMap.wf d (SMap.putRange d k vs m) = true := by
  induction vs with
  | nil => intro _ _ h; exact h
  | cons v vs ih => intro _ _ h; exact ih (SMap.wf_put h)

/-- A value reads back where it was written. -/
@[simp] theorem SMap.get_put_self (d : α) (k : Nat) (v : α) (m : SMap α) : SMap.get d k (SMap.put d k v m) = v := by
  unfold SMap.put SMap.get
  split
  · simp [Map.get?_del_self, *]
  · simp [Map.get?_set_self]

/-- A write leaves every other key alone. -/
theorem SMap.get_put_other (d : α) {k j : Nat} (v : α) (m : SMap α) (h : j ≠ k) : SMap.get d j (SMap.put d k v m) = SMap.get d j m := by
  unfold SMap.put SMap.get
  split
  · rw [Map.get?_del_other h]
  · rw [Map.get?_set_other v h]

theorem SMap.get_putRange_outside (d : α) (vs : List α) : (k : Nat) → (m : SMap α) → (j : Nat) → (j < k ∨ k + vs.length ≤ j) →
    SMap.get d j (SMap.putRange d k vs m) = SMap.get d j m := by
  induction vs with
  | nil => intros; rfl
  | cons v vs ih =>
    intro k m j h
    simp only [List.length_cons] at h
    rw [SMap.putRange, ih (k + 1) _ j (by omega), SMap.get_put_other d v m (by omega)]

theorem SMap.range_putRange_before (d : α) (vs : List α) (n : Nat) : (j : Nat) → (k : Nat) → (m : SMap α) → j + n ≤ k →
    SMap.range d (SMap.putRange d k vs m) j n = SMap.range d m j n := by
  induction n with
  | zero => intros; rfl
  | succ n ih =>
    intro j k m h
    simp only [SMap.range]
    rw [SMap.get_putRange_outside d vs k m j (by omega), ih (j + 1) k m (by omega)]

theorem SMap.range_putRange_after (d : α) (vs : List α) (n : Nat) : (j : Nat) → (k : Nat) → (m : SMap α) → k + vs.length ≤ j →
    SMap.range d (SMap.putRange d k vs m) j n = SMap.range d m j n := by
  induction n with
  | zero => intros; rfl
  | succ n ih =>
    intro j k m h
    simp only [SMap.range]
    rw [SMap.get_putRange_outside d vs k m j (by omega), ih (j + 1) k m (by omega)]

/-- A run of values reads back where it was written. -/
theorem SMap.range_putRange (d : α) (vs : List α) : (k : Nat) → (m : SMap α) → SMap.range d (SMap.putRange d k vs m) k vs.length = vs := by
  induction vs with
  | nil => intros; rfl
  | cons v vs ih =>
    intro k m
    simp only [SMap.putRange, List.length_cons, SMap.range]
    rw [ih (k + 1), SMap.get_putRange_outside d vs (k + 1) _ k (by omega), SMap.get_put_self]

end Sys2Proof.Machine
end

