-- ==== Sys2Proof/Laws/State.lean ====
section
/-! SUPPORT. One lemma per field per update of the state, true by rfl, and what is read of a group, a clan, a thread or an object after an update. -/

namespace Sys2Proof.Machine

/-! `modGrp` leaves every field but groups alone. -/

@[simp] theorem State.modGrp_agenda (s : State) (g : Nat) (f : Group → Group) : (s.modGrp g f).agenda = s.agenda := rfl
@[simp] theorem State.modGrp_cur (s : State) (g : Nat) (f : Group → Group) : (s.modGrp g f).cur = s.cur := rfl
@[simp] theorem State.modGrp_fresh (s : State) (g : Nat) (f : Group → Group) : (s.modGrp g f).fresh = s.fresh := rfl
@[simp] theorem State.modGrp_turn (s : State) (g : Nat) (f : Group → Group) : (s.modGrp g f).turn = s.turn := rfl
@[simp] theorem State.modGrp_nextId (s : State) (g : Nat) (f : Group → Group) : (s.modGrp g f).nextId = s.nextId := rfl
@[simp] theorem State.modGrp_time (s : State) (g : Nat) (f : Group → Group) : (s.modGrp g f).time = s.time := rfl
@[simp] theorem State.modGrp_clk (s : State) (g : Nat) (f : Group → Group) : (s.modGrp g f).clk = s.clk := rfl
@[simp] theorem State.modGrp_mem (s : State) (g : Nat) (f : Group → Group) : (s.modGrp g f).mem = s.mem := rfl
@[simp] theorem State.modGrp_tags (s : State) (g : Nat) (f : Group → Group) : (s.modGrp g f).tags = s.tags := rfl
@[simp] theorem State.modGrp_ecc (s : State) (g : Nat) (f : Group → Group) : (s.modGrp g f).ecc = s.ecc := rfl
@[simp] theorem State.modGrp_cipher (s : State) (g : Nat) (f : Group → Group) : (s.modGrp g f).cipher = s.cipher := rfl
@[simp] theorem State.modGrp_units (s : State) (g : Nat) (f : Group → Group) : (s.modGrp g f).units = s.units := rfl
@[simp] theorem State.modGrp_objs (s : State) (g : Nat) (f : Group → Group) : (s.modGrp g f).objs = s.objs := rfl
@[simp] theorem State.modGrp_replies (s : State) (g : Nat) (f : Group → Group) : (s.modGrp g f).replies = s.replies := rfl
@[simp] theorem State.modGrp_replyBase (s : State) (g : Nat) (f : Group → Group) : (s.modGrp g f).replyBase = s.replyBase := rfl
@[simp] theorem State.modGrp_nextCtx (s : State) (g : Nat) (f : Group → Group) : (s.modGrp g f).nextCtx = s.nextCtx := rfl
@[simp] theorem State.modGrp_boundRows (s : State) (g : Nat) (f : Group → Group) : (s.modGrp g f).boundRows = s.boundRows := rfl
@[simp] theorem State.modGrp_prot (s : State) (g : Nat) (f : Group → Group) : (s.modGrp g f).prot = s.prot := rfl
@[simp] theorem State.modGrp_lock (s : State) (g : Nat) (f : Group → Group) : (s.modGrp g f).lock = s.lock := rfl
@[simp] theorem State.modGrp_keys (s : State) (g : Nat) (f : Group → Group) : (s.modGrp g f).keys = s.keys := rfl
@[simp] theorem State.modGrp_trngOk (s : State) (g : Nat) (f : Group → Group) : (s.modGrp g f).trngOk = s.trngOk := rfl
@[simp] theorem State.modGrp_fars (s : State) (g : Nat) (f : Group → Group) : (s.modGrp g f).fars = s.fars := rfl
@[simp] theorem State.modGrp_copies (s : State) (g : Nat) (f : Group → Group) : (s.modGrp g f).copies = s.copies := rfl
@[simp] theorem State.modGrp_wells (s : State) (g : Nat) (f : Group → Group) : (s.modGrp g f).wells = s.wells := rfl
@[simp] theorem State.modGrp_closed (s : State) (g : Nat) (f : Group → Group) : (s.modGrp g f).closed = s.closed := rfl
@[simp] theorem State.modGrp_sweepNo (s : State) (g : Nat) (f : Group → Group) : (s.modGrp g f).sweepNo = s.sweepNo := rfl
@[simp] theorem State.modGrp_sweeping (s : State) (g : Nat) (f : Group → Group) : (s.modGrp g f).sweeping = s.sweeping := rfl
@[simp] theorem State.modGrp_gleanerLast (s : State) (g : Nat) (f : Group → Group) : (s.modGrp g f).gleanerLast = s.gleanerLast := rfl
@[simp] theorem State.modGrp_pendObjs (s : State) (g : Nat) (f : Group → Group) : (s.modGrp g f).pendObjs = s.pendObjs := rfl
@[simp] theorem State.modGrp_odtChanges (s : State) (g : Nat) (f : Group → Group) : (s.modGrp g f).odtChanges = s.odtChanges := rfl
@[simp] theorem State.modGrp_odtLag (s : State) (g : Nat) (f : Group → Group) : (s.modGrp g f).odtLag = s.odtLag := rfl
@[simp] theorem State.modGrp_exports (s : State) (g : Nat) (f : Group → Group) : (s.modGrp g f).exports = s.exports := rfl
@[simp] theorem State.modGrp_remotes (s : State) (g : Nat) (f : Group → Group) : (s.modGrp g f).remotes = s.remotes := rfl
@[simp] theorem State.modGrp_wc (s : State) (g : Nat) (f : Group → Group) : (s.modGrp g f).wc = s.wc := rfl
@[simp] theorem State.modGrp_replNew (s : State) (g : Nat) (f : Group → Group) : (s.modGrp g f).replNew = s.replNew := rfl
@[simp] theorem State.modGrp_replLog (s : State) (g : Nat) (f : Group → Group) : (s.modGrp g f).replLog = s.replLog := rfl
@[simp] theorem State.modGrp_replDone (s : State) (g : Nat) (f : Group → Group) : (s.modGrp g f).replDone = s.replDone := rfl
@[simp] theorem State.modGrp_colls (s : State) (g : Nat) (f : Group → Group) : (s.modGrp g f).colls = s.colls := rfl
@[simp] theorem State.modGrp_qfences (s : State) (g : Nat) (f : Group → Group) : (s.modGrp g f).qfences = s.qfences := rfl
@[simp] theorem State.modGrp_monitors (s : State) (g : Nat) (f : Group → Group) : (s.modGrp g f).monitors = s.monitors := rfl
@[simp] theorem State.modGrp_held (s : State) (g : Nat) (f : Group → Group) : (s.modGrp g f).held = s.held := rfl
@[simp] theorem State.modGrp_ios (s : State) (g : Nat) (f : Group → Group) : (s.modGrp g f).ios = s.ios := rfl
@[simp] theorem State.modGrp_bars (s : State) (g : Nat) (f : Group → Group) : (s.modGrp g f).bars = s.bars := rfl
@[simp] theorem State.modGrp_linkDown (s : State) (g : Nat) (f : Group → Group) : (s.modGrp g f).linkDown = s.linkDown := rfl
@[simp] theorem State.modGrp_pkg (s : State) (g : Nat) (f : Group → Group) : (s.modGrp g f).pkg = s.pkg := rfl
@[simp] theorem State.modGrp_sessions (s : State) (g : Nat) (f : Group → Group) : (s.modGrp g f).sessions = s.sessions := rfl
@[simp] theorem State.modGrp_responses (s : State) (g : Nat) (f : Group → Group) : (s.modGrp g f).responses = s.responses := rfl
@[simp] theorem State.modGrp_out (s : State) (g : Nat) (f : Group → Group) : (s.modGrp g f).out = s.out := rfl
@[simp] theorem State.modGrp_almanac (s : State) (g : Nat) (f : Group → Group) : (s.modGrp g f).almanac = s.almanac := rfl
@[simp] theorem State.modGrp_almSeq (s : State) (g : Nat) (f : Group → Group) : (s.modGrp g f).almSeq = s.almSeq := rfl
@[simp] theorem State.modGrp_frozen (s : State) (g : Nat) (f : Group → Group) : (s.modGrp g f).frozen = s.frozen := rfl
@[simp] theorem State.modGrp_lost (s : State) (g : Nat) (f : Group → Group) : (s.modGrp g f).lost = s.lost := rfl
@[simp] theorem State.modGrp_power (s : State) (g : Nat) (f : Group → Group) : (s.modGrp g f).power = s.power := rfl
@[simp] theorem State.modGrp_fw (s : State) (g : Nat) (f : Group → Group) : (s.modGrp g f).fw = s.fw := rfl
@[simp] theorem State.modGrp_bootStep (s : State) (g : Nat) (f : Group → Group) : (s.modGrp g f).bootStep = s.bootStep := rfl
@[simp] theorem State.modGrp_bootRecord (s : State) (g : Nat) (f : Group → Group) : (s.modGrp g f).bootRecord = s.bootRecord := rfl
@[simp] theorem State.modGrp_bootCount (s : State) (g : Nat) (f : Group → Group) : (s.modGrp g f).bootCount = s.bootCount := rfl
@[simp] theorem State.modGrp_cellarMiB (s : State) (g : Nat) (f : Group → Group) : (s.modGrp g f).cellarMiB = s.cellarMiB := rfl
@[simp] theorem State.modGrp_ended (s : State) (g : Nat) (f : Group → Group) : (s.modGrp g f).ended = s.ended := rfl
@[simp] theorem State.modGrp_inbound (s : State) (g : Nat) (f : Group → Group) : (s.modGrp g f).inbound = s.inbound := rfl
@[simp] theorem State.modGrp_acks (s : State) (g : Nat) (f : Group → Group) : (s.modGrp g f).acks = s.acks := rfl
@[simp] theorem State.modGrp_turns (s : State) (g : Nat) (f : Group → Group) : (s.modGrp g f).turns = s.turns := rfl
@[simp] theorem State.modGrp_early (s : State) (g : Nat) (f : Group → Group) : (s.modGrp g f).early = s.early := rfl
@[simp] theorem State.modGrp_bound (s : State) (g : Nat) (f : Group → Group) : (s.modGrp g f).bound = s.bound := rfl
@[simp] theorem State.modGrp_owed (s : State) (g : Nat) (f : Group → Group) : (s.modGrp g f).owed = s.owed := rfl
@[simp] theorem State.modGrp_posted (s : State) (g : Nat) (f : Group → Group) : (s.modGrp g f).posted = s.posted := rfl
@[simp] theorem State.modGrp_portDown (s : State) (g : Nat) (f : Group → Group) : (s.modGrp g f).portDown = s.portDown := rfl
@[simp] theorem State.modGrp_pairs (s : State) (g : Nat) (f : Group → Group) : (s.modGrp g f).pairs = s.pairs := rfl
@[simp] theorem State.modGrp_attests (s : State) (g : Nat) (f : Group → Group) : (s.modGrp g f).attests = s.attests := rfl
@[simp] theorem State.modGrp_operators (s : State) (g : Nat) (f : Group → Group) : (s.modGrp g f).operators = s.operators := rfl

/-! `modClan` leaves every field but groups alone. -/

@[simp] theorem State.modClan_agenda (s : State) (g c : Nat) (f : Clan → Clan) : (s.modClan g c f).agenda = s.agenda := rfl
@[simp] theorem State.modClan_cur (s : State) (g c : Nat) (f : Clan → Clan) : (s.modClan g c f).cur = s.cur := rfl
@[simp] theorem State.modClan_fresh (s : State) (g c : Nat) (f : Clan → Clan) : (s.modClan g c f).fresh = s.fresh := rfl
@[simp] theorem State.modClan_turn (s : State) (g c : Nat) (f : Clan → Clan) : (s.modClan g c f).turn = s.turn := rfl
@[simp] theorem State.modClan_nextId (s : State) (g c : Nat) (f : Clan → Clan) : (s.modClan g c f).nextId = s.nextId := rfl
@[simp] theorem State.modClan_time (s : State) (g c : Nat) (f : Clan → Clan) : (s.modClan g c f).time = s.time := rfl
@[simp] theorem State.modClan_clk (s : State) (g c : Nat) (f : Clan → Clan) : (s.modClan g c f).clk = s.clk := rfl
@[simp] theorem State.modClan_mem (s : State) (g c : Nat) (f : Clan → Clan) : (s.modClan g c f).mem = s.mem := rfl
@[simp] theorem State.modClan_tags (s : State) (g c : Nat) (f : Clan → Clan) : (s.modClan g c f).tags = s.tags := rfl
@[simp] theorem State.modClan_ecc (s : State) (g c : Nat) (f : Clan → Clan) : (s.modClan g c f).ecc = s.ecc := rfl
@[simp] theorem State.modClan_cipher (s : State) (g c : Nat) (f : Clan → Clan) : (s.modClan g c f).cipher = s.cipher := rfl
@[simp] theorem State.modClan_units (s : State) (g c : Nat) (f : Clan → Clan) : (s.modClan g c f).units = s.units := rfl
@[simp] theorem State.modClan_objs (s : State) (g c : Nat) (f : Clan → Clan) : (s.modClan g c f).objs = s.objs := rfl
@[simp] theorem State.modClan_replies (s : State) (g c : Nat) (f : Clan → Clan) : (s.modClan g c f).replies = s.replies := rfl
@[simp] theorem State.modClan_replyBase (s : State) (g c : Nat) (f : Clan → Clan) : (s.modClan g c f).replyBase = s.replyBase := rfl
@[simp] theorem State.modClan_nextCtx (s : State) (g c : Nat) (f : Clan → Clan) : (s.modClan g c f).nextCtx = s.nextCtx := rfl
@[simp] theorem State.modClan_boundRows (s : State) (g c : Nat) (f : Clan → Clan) : (s.modClan g c f).boundRows = s.boundRows := rfl
@[simp] theorem State.modClan_prot (s : State) (g c : Nat) (f : Clan → Clan) : (s.modClan g c f).prot = s.prot := rfl
@[simp] theorem State.modClan_lock (s : State) (g c : Nat) (f : Clan → Clan) : (s.modClan g c f).lock = s.lock := rfl
@[simp] theorem State.modClan_keys (s : State) (g c : Nat) (f : Clan → Clan) : (s.modClan g c f).keys = s.keys := rfl
@[simp] theorem State.modClan_trngOk (s : State) (g c : Nat) (f : Clan → Clan) : (s.modClan g c f).trngOk = s.trngOk := rfl
@[simp] theorem State.modClan_fars (s : State) (g c : Nat) (f : Clan → Clan) : (s.modClan g c f).fars = s.fars := rfl
@[simp] theorem State.modClan_copies (s : State) (g c : Nat) (f : Clan → Clan) : (s.modClan g c f).copies = s.copies := rfl
@[simp] theorem State.modClan_wells (s : State) (g c : Nat) (f : Clan → Clan) : (s.modClan g c f).wells = s.wells := rfl
@[simp] theorem State.modClan_closed (s : State) (g c : Nat) (f : Clan → Clan) : (s.modClan g c f).closed = s.closed := rfl
@[simp] theorem State.modClan_sweepNo (s : State) (g c : Nat) (f : Clan → Clan) : (s.modClan g c f).sweepNo = s.sweepNo := rfl
@[simp] theorem State.modClan_sweeping (s : State) (g c : Nat) (f : Clan → Clan) : (s.modClan g c f).sweeping = s.sweeping := rfl
@[simp] theorem State.modClan_gleanerLast (s : State) (g c : Nat) (f : Clan → Clan) : (s.modClan g c f).gleanerLast = s.gleanerLast := rfl
@[simp] theorem State.modClan_pendObjs (s : State) (g c : Nat) (f : Clan → Clan) : (s.modClan g c f).pendObjs = s.pendObjs := rfl
@[simp] theorem State.modClan_odtChanges (s : State) (g c : Nat) (f : Clan → Clan) : (s.modClan g c f).odtChanges = s.odtChanges := rfl
@[simp] theorem State.modClan_odtLag (s : State) (g c : Nat) (f : Clan → Clan) : (s.modClan g c f).odtLag = s.odtLag := rfl
@[simp] theorem State.modClan_exports (s : State) (g c : Nat) (f : Clan → Clan) : (s.modClan g c f).exports = s.exports := rfl
@[simp] theorem State.modClan_remotes (s : State) (g c : Nat) (f : Clan → Clan) : (s.modClan g c f).remotes = s.remotes := rfl
@[simp] theorem State.modClan_wc (s : State) (g c : Nat) (f : Clan → Clan) : (s.modClan g c f).wc = s.wc := rfl
@[simp] theorem State.modClan_replNew (s : State) (g c : Nat) (f : Clan → Clan) : (s.modClan g c f).replNew = s.replNew := rfl
@[simp] theorem State.modClan_replLog (s : State) (g c : Nat) (f : Clan → Clan) : (s.modClan g c f).replLog = s.replLog := rfl
@[simp] theorem State.modClan_replDone (s : State) (g c : Nat) (f : Clan → Clan) : (s.modClan g c f).replDone = s.replDone := rfl
@[simp] theorem State.modClan_colls (s : State) (g c : Nat) (f : Clan → Clan) : (s.modClan g c f).colls = s.colls := rfl
@[simp] theorem State.modClan_qfences (s : State) (g c : Nat) (f : Clan → Clan) : (s.modClan g c f).qfences = s.qfences := rfl
@[simp] theorem State.modClan_monitors (s : State) (g c : Nat) (f : Clan → Clan) : (s.modClan g c f).monitors = s.monitors := rfl
@[simp] theorem State.modClan_held (s : State) (g c : Nat) (f : Clan → Clan) : (s.modClan g c f).held = s.held := rfl
@[simp] theorem State.modClan_ios (s : State) (g c : Nat) (f : Clan → Clan) : (s.modClan g c f).ios = s.ios := rfl
@[simp] theorem State.modClan_bars (s : State) (g c : Nat) (f : Clan → Clan) : (s.modClan g c f).bars = s.bars := rfl
@[simp] theorem State.modClan_linkDown (s : State) (g c : Nat) (f : Clan → Clan) : (s.modClan g c f).linkDown = s.linkDown := rfl
@[simp] theorem State.modClan_pkg (s : State) (g c : Nat) (f : Clan → Clan) : (s.modClan g c f).pkg = s.pkg := rfl
@[simp] theorem State.modClan_sessions (s : State) (g c : Nat) (f : Clan → Clan) : (s.modClan g c f).sessions = s.sessions := rfl
@[simp] theorem State.modClan_responses (s : State) (g c : Nat) (f : Clan → Clan) : (s.modClan g c f).responses = s.responses := rfl
@[simp] theorem State.modClan_out (s : State) (g c : Nat) (f : Clan → Clan) : (s.modClan g c f).out = s.out := rfl
@[simp] theorem State.modClan_almanac (s : State) (g c : Nat) (f : Clan → Clan) : (s.modClan g c f).almanac = s.almanac := rfl
@[simp] theorem State.modClan_almSeq (s : State) (g c : Nat) (f : Clan → Clan) : (s.modClan g c f).almSeq = s.almSeq := rfl
@[simp] theorem State.modClan_frozen (s : State) (g c : Nat) (f : Clan → Clan) : (s.modClan g c f).frozen = s.frozen := rfl
@[simp] theorem State.modClan_lost (s : State) (g c : Nat) (f : Clan → Clan) : (s.modClan g c f).lost = s.lost := rfl
@[simp] theorem State.modClan_power (s : State) (g c : Nat) (f : Clan → Clan) : (s.modClan g c f).power = s.power := rfl
@[simp] theorem State.modClan_fw (s : State) (g c : Nat) (f : Clan → Clan) : (s.modClan g c f).fw = s.fw := rfl
@[simp] theorem State.modClan_bootStep (s : State) (g c : Nat) (f : Clan → Clan) : (s.modClan g c f).bootStep = s.bootStep := rfl
@[simp] theorem State.modClan_bootRecord (s : State) (g c : Nat) (f : Clan → Clan) : (s.modClan g c f).bootRecord = s.bootRecord := rfl
@[simp] theorem State.modClan_bootCount (s : State) (g c : Nat) (f : Clan → Clan) : (s.modClan g c f).bootCount = s.bootCount := rfl
@[simp] theorem State.modClan_cellarMiB (s : State) (g c : Nat) (f : Clan → Clan) : (s.modClan g c f).cellarMiB = s.cellarMiB := rfl
@[simp] theorem State.modClan_ended (s : State) (g c : Nat) (f : Clan → Clan) : (s.modClan g c f).ended = s.ended := rfl
@[simp] theorem State.modClan_inbound (s : State) (g c : Nat) (f : Clan → Clan) : (s.modClan g c f).inbound = s.inbound := rfl
@[simp] theorem State.modClan_acks (s : State) (g c : Nat) (f : Clan → Clan) : (s.modClan g c f).acks = s.acks := rfl
@[simp] theorem State.modClan_turns (s : State) (g c : Nat) (f : Clan → Clan) : (s.modClan g c f).turns = s.turns := rfl
@[simp] theorem State.modClan_early (s : State) (g c : Nat) (f : Clan → Clan) : (s.modClan g c f).early = s.early := rfl
@[simp] theorem State.modClan_bound (s : State) (g c : Nat) (f : Clan → Clan) : (s.modClan g c f).bound = s.bound := rfl
@[simp] theorem State.modClan_owed (s : State) (g c : Nat) (f : Clan → Clan) : (s.modClan g c f).owed = s.owed := rfl
@[simp] theorem State.modClan_posted (s : State) (g c : Nat) (f : Clan → Clan) : (s.modClan g c f).posted = s.posted := rfl
@[simp] theorem State.modClan_portDown (s : State) (g c : Nat) (f : Clan → Clan) : (s.modClan g c f).portDown = s.portDown := rfl
@[simp] theorem State.modClan_pairs (s : State) (g c : Nat) (f : Clan → Clan) : (s.modClan g c f).pairs = s.pairs := rfl
@[simp] theorem State.modClan_attests (s : State) (g c : Nat) (f : Clan → Clan) : (s.modClan g c f).attests = s.attests := rfl
@[simp] theorem State.modClan_operators (s : State) (g c : Nat) (f : Clan → Clan) : (s.modClan g c f).operators = s.operators := rfl

/-! `modThr` leaves every field but groups alone. -/

@[simp] theorem State.modThr_agenda (s : State) (g t : Nat) (f : Thread → Thread) : (s.modThr g t f).agenda = s.agenda := rfl
@[simp] theorem State.modThr_cur (s : State) (g t : Nat) (f : Thread → Thread) : (s.modThr g t f).cur = s.cur := rfl
@[simp] theorem State.modThr_fresh (s : State) (g t : Nat) (f : Thread → Thread) : (s.modThr g t f).fresh = s.fresh := rfl
@[simp] theorem State.modThr_turn (s : State) (g t : Nat) (f : Thread → Thread) : (s.modThr g t f).turn = s.turn := rfl
@[simp] theorem State.modThr_nextId (s : State) (g t : Nat) (f : Thread → Thread) : (s.modThr g t f).nextId = s.nextId := rfl
@[simp] theorem State.modThr_time (s : State) (g t : Nat) (f : Thread → Thread) : (s.modThr g t f).time = s.time := rfl
@[simp] theorem State.modThr_clk (s : State) (g t : Nat) (f : Thread → Thread) : (s.modThr g t f).clk = s.clk := rfl
@[simp] theorem State.modThr_mem (s : State) (g t : Nat) (f : Thread → Thread) : (s.modThr g t f).mem = s.mem := rfl
@[simp] theorem State.modThr_tags (s : State) (g t : Nat) (f : Thread → Thread) : (s.modThr g t f).tags = s.tags := rfl
@[simp] theorem State.modThr_ecc (s : State) (g t : Nat) (f : Thread → Thread) : (s.modThr g t f).ecc = s.ecc := rfl
@[simp] theorem State.modThr_cipher (s : State) (g t : Nat) (f : Thread → Thread) : (s.modThr g t f).cipher = s.cipher := rfl
@[simp] theorem State.modThr_units (s : State) (g t : Nat) (f : Thread → Thread) : (s.modThr g t f).units = s.units := rfl
@[simp] theorem State.modThr_objs (s : State) (g t : Nat) (f : Thread → Thread) : (s.modThr g t f).objs = s.objs := rfl
@[simp] theorem State.modThr_replies (s : State) (g t : Nat) (f : Thread → Thread) : (s.modThr g t f).replies = s.replies := rfl
@[simp] theorem State.modThr_replyBase (s : State) (g t : Nat) (f : Thread → Thread) : (s.modThr g t f).replyBase = s.replyBase := rfl
@[simp] theorem State.modThr_nextCtx (s : State) (g t : Nat) (f : Thread → Thread) : (s.modThr g t f).nextCtx = s.nextCtx := rfl
@[simp] theorem State.modThr_boundRows (s : State) (g t : Nat) (f : Thread → Thread) : (s.modThr g t f).boundRows = s.boundRows := rfl
@[simp] theorem State.modThr_prot (s : State) (g t : Nat) (f : Thread → Thread) : (s.modThr g t f).prot = s.prot := rfl
@[simp] theorem State.modThr_lock (s : State) (g t : Nat) (f : Thread → Thread) : (s.modThr g t f).lock = s.lock := rfl
@[simp] theorem State.modThr_keys (s : State) (g t : Nat) (f : Thread → Thread) : (s.modThr g t f).keys = s.keys := rfl
@[simp] theorem State.modThr_trngOk (s : State) (g t : Nat) (f : Thread → Thread) : (s.modThr g t f).trngOk = s.trngOk := rfl
@[simp] theorem State.modThr_fars (s : State) (g t : Nat) (f : Thread → Thread) : (s.modThr g t f).fars = s.fars := rfl
@[simp] theorem State.modThr_copies (s : State) (g t : Nat) (f : Thread → Thread) : (s.modThr g t f).copies = s.copies := rfl
@[simp] theorem State.modThr_wells (s : State) (g t : Nat) (f : Thread → Thread) : (s.modThr g t f).wells = s.wells := rfl
@[simp] theorem State.modThr_closed (s : State) (g t : Nat) (f : Thread → Thread) : (s.modThr g t f).closed = s.closed := rfl
@[simp] theorem State.modThr_sweepNo (s : State) (g t : Nat) (f : Thread → Thread) : (s.modThr g t f).sweepNo = s.sweepNo := rfl
@[simp] theorem State.modThr_sweeping (s : State) (g t : Nat) (f : Thread → Thread) : (s.modThr g t f).sweeping = s.sweeping := rfl
@[simp] theorem State.modThr_gleanerLast (s : State) (g t : Nat) (f : Thread → Thread) : (s.modThr g t f).gleanerLast = s.gleanerLast := rfl
@[simp] theorem State.modThr_pendObjs (s : State) (g t : Nat) (f : Thread → Thread) : (s.modThr g t f).pendObjs = s.pendObjs := rfl
@[simp] theorem State.modThr_odtChanges (s : State) (g t : Nat) (f : Thread → Thread) : (s.modThr g t f).odtChanges = s.odtChanges := rfl
@[simp] theorem State.modThr_odtLag (s : State) (g t : Nat) (f : Thread → Thread) : (s.modThr g t f).odtLag = s.odtLag := rfl
@[simp] theorem State.modThr_exports (s : State) (g t : Nat) (f : Thread → Thread) : (s.modThr g t f).exports = s.exports := rfl
@[simp] theorem State.modThr_remotes (s : State) (g t : Nat) (f : Thread → Thread) : (s.modThr g t f).remotes = s.remotes := rfl
@[simp] theorem State.modThr_wc (s : State) (g t : Nat) (f : Thread → Thread) : (s.modThr g t f).wc = s.wc := rfl
@[simp] theorem State.modThr_replNew (s : State) (g t : Nat) (f : Thread → Thread) : (s.modThr g t f).replNew = s.replNew := rfl
@[simp] theorem State.modThr_replLog (s : State) (g t : Nat) (f : Thread → Thread) : (s.modThr g t f).replLog = s.replLog := rfl
@[simp] theorem State.modThr_replDone (s : State) (g t : Nat) (f : Thread → Thread) : (s.modThr g t f).replDone = s.replDone := rfl
@[simp] theorem State.modThr_colls (s : State) (g t : Nat) (f : Thread → Thread) : (s.modThr g t f).colls = s.colls := rfl
@[simp] theorem State.modThr_qfences (s : State) (g t : Nat) (f : Thread → Thread) : (s.modThr g t f).qfences = s.qfences := rfl
@[simp] theorem State.modThr_monitors (s : State) (g t : Nat) (f : Thread → Thread) : (s.modThr g t f).monitors = s.monitors := rfl
@[simp] theorem State.modThr_held (s : State) (g t : Nat) (f : Thread → Thread) : (s.modThr g t f).held = s.held := rfl
@[simp] theorem State.modThr_ios (s : State) (g t : Nat) (f : Thread → Thread) : (s.modThr g t f).ios = s.ios := rfl
@[simp] theorem State.modThr_bars (s : State) (g t : Nat) (f : Thread → Thread) : (s.modThr g t f).bars = s.bars := rfl
@[simp] theorem State.modThr_linkDown (s : State) (g t : Nat) (f : Thread → Thread) : (s.modThr g t f).linkDown = s.linkDown := rfl
@[simp] theorem State.modThr_pkg (s : State) (g t : Nat) (f : Thread → Thread) : (s.modThr g t f).pkg = s.pkg := rfl
@[simp] theorem State.modThr_sessions (s : State) (g t : Nat) (f : Thread → Thread) : (s.modThr g t f).sessions = s.sessions := rfl
@[simp] theorem State.modThr_responses (s : State) (g t : Nat) (f : Thread → Thread) : (s.modThr g t f).responses = s.responses := rfl
@[simp] theorem State.modThr_out (s : State) (g t : Nat) (f : Thread → Thread) : (s.modThr g t f).out = s.out := rfl
@[simp] theorem State.modThr_almanac (s : State) (g t : Nat) (f : Thread → Thread) : (s.modThr g t f).almanac = s.almanac := rfl
@[simp] theorem State.modThr_almSeq (s : State) (g t : Nat) (f : Thread → Thread) : (s.modThr g t f).almSeq = s.almSeq := rfl
@[simp] theorem State.modThr_frozen (s : State) (g t : Nat) (f : Thread → Thread) : (s.modThr g t f).frozen = s.frozen := rfl
@[simp] theorem State.modThr_lost (s : State) (g t : Nat) (f : Thread → Thread) : (s.modThr g t f).lost = s.lost := rfl
@[simp] theorem State.modThr_power (s : State) (g t : Nat) (f : Thread → Thread) : (s.modThr g t f).power = s.power := rfl
@[simp] theorem State.modThr_fw (s : State) (g t : Nat) (f : Thread → Thread) : (s.modThr g t f).fw = s.fw := rfl
@[simp] theorem State.modThr_bootStep (s : State) (g t : Nat) (f : Thread → Thread) : (s.modThr g t f).bootStep = s.bootStep := rfl
@[simp] theorem State.modThr_bootRecord (s : State) (g t : Nat) (f : Thread → Thread) : (s.modThr g t f).bootRecord = s.bootRecord := rfl
@[simp] theorem State.modThr_bootCount (s : State) (g t : Nat) (f : Thread → Thread) : (s.modThr g t f).bootCount = s.bootCount := rfl
@[simp] theorem State.modThr_cellarMiB (s : State) (g t : Nat) (f : Thread → Thread) : (s.modThr g t f).cellarMiB = s.cellarMiB := rfl
@[simp] theorem State.modThr_ended (s : State) (g t : Nat) (f : Thread → Thread) : (s.modThr g t f).ended = s.ended := rfl
@[simp] theorem State.modThr_inbound (s : State) (g t : Nat) (f : Thread → Thread) : (s.modThr g t f).inbound = s.inbound := rfl
@[simp] theorem State.modThr_acks (s : State) (g t : Nat) (f : Thread → Thread) : (s.modThr g t f).acks = s.acks := rfl
@[simp] theorem State.modThr_turns (s : State) (g t : Nat) (f : Thread → Thread) : (s.modThr g t f).turns = s.turns := rfl
@[simp] theorem State.modThr_early (s : State) (g t : Nat) (f : Thread → Thread) : (s.modThr g t f).early = s.early := rfl
@[simp] theorem State.modThr_bound (s : State) (g t : Nat) (f : Thread → Thread) : (s.modThr g t f).bound = s.bound := rfl
@[simp] theorem State.modThr_owed (s : State) (g t : Nat) (f : Thread → Thread) : (s.modThr g t f).owed = s.owed := rfl
@[simp] theorem State.modThr_posted (s : State) (g t : Nat) (f : Thread → Thread) : (s.modThr g t f).posted = s.posted := rfl
@[simp] theorem State.modThr_portDown (s : State) (g t : Nat) (f : Thread → Thread) : (s.modThr g t f).portDown = s.portDown := rfl
@[simp] theorem State.modThr_pairs (s : State) (g t : Nat) (f : Thread → Thread) : (s.modThr g t f).pairs = s.pairs := rfl
@[simp] theorem State.modThr_attests (s : State) (g t : Nat) (f : Thread → Thread) : (s.modThr g t f).attests = s.attests := rfl
@[simp] theorem State.modThr_operators (s : State) (g t : Nat) (f : Thread → Thread) : (s.modThr g t f).operators = s.operators := rfl

/-! `modObj` leaves every field but objs alone. -/

@[simp] theorem State.modObj_agenda (s : State) (h : Nat) (f : Obj → Obj) : (s.modObj h f).agenda = s.agenda := rfl
@[simp] theorem State.modObj_cur (s : State) (h : Nat) (f : Obj → Obj) : (s.modObj h f).cur = s.cur := rfl
@[simp] theorem State.modObj_fresh (s : State) (h : Nat) (f : Obj → Obj) : (s.modObj h f).fresh = s.fresh := rfl
@[simp] theorem State.modObj_turn (s : State) (h : Nat) (f : Obj → Obj) : (s.modObj h f).turn = s.turn := rfl
@[simp] theorem State.modObj_nextId (s : State) (h : Nat) (f : Obj → Obj) : (s.modObj h f).nextId = s.nextId := rfl
@[simp] theorem State.modObj_time (s : State) (h : Nat) (f : Obj → Obj) : (s.modObj h f).time = s.time := rfl
@[simp] theorem State.modObj_clk (s : State) (h : Nat) (f : Obj → Obj) : (s.modObj h f).clk = s.clk := rfl
@[simp] theorem State.modObj_mem (s : State) (h : Nat) (f : Obj → Obj) : (s.modObj h f).mem = s.mem := rfl
@[simp] theorem State.modObj_tags (s : State) (h : Nat) (f : Obj → Obj) : (s.modObj h f).tags = s.tags := rfl
@[simp] theorem State.modObj_ecc (s : State) (h : Nat) (f : Obj → Obj) : (s.modObj h f).ecc = s.ecc := rfl
@[simp] theorem State.modObj_cipher (s : State) (h : Nat) (f : Obj → Obj) : (s.modObj h f).cipher = s.cipher := rfl
@[simp] theorem State.modObj_groups (s : State) (h : Nat) (f : Obj → Obj) : (s.modObj h f).groups = s.groups := rfl
@[simp] theorem State.modObj_units (s : State) (h : Nat) (f : Obj → Obj) : (s.modObj h f).units = s.units := rfl
@[simp] theorem State.modObj_replies (s : State) (h : Nat) (f : Obj → Obj) : (s.modObj h f).replies = s.replies := rfl
@[simp] theorem State.modObj_replyBase (s : State) (h : Nat) (f : Obj → Obj) : (s.modObj h f).replyBase = s.replyBase := rfl
@[simp] theorem State.modObj_nextCtx (s : State) (h : Nat) (f : Obj → Obj) : (s.modObj h f).nextCtx = s.nextCtx := rfl
@[simp] theorem State.modObj_boundRows (s : State) (h : Nat) (f : Obj → Obj) : (s.modObj h f).boundRows = s.boundRows := rfl
@[simp] theorem State.modObj_prot (s : State) (h : Nat) (f : Obj → Obj) : (s.modObj h f).prot = s.prot := rfl
@[simp] theorem State.modObj_lock (s : State) (h : Nat) (f : Obj → Obj) : (s.modObj h f).lock = s.lock := rfl
@[simp] theorem State.modObj_keys (s : State) (h : Nat) (f : Obj → Obj) : (s.modObj h f).keys = s.keys := rfl
@[simp] theorem State.modObj_trngOk (s : State) (h : Nat) (f : Obj → Obj) : (s.modObj h f).trngOk = s.trngOk := rfl
@[simp] theorem State.modObj_fars (s : State) (h : Nat) (f : Obj → Obj) : (s.modObj h f).fars = s.fars := rfl
@[simp] theorem State.modObj_copies (s : State) (h : Nat) (f : Obj → Obj) : (s.modObj h f).copies = s.copies := rfl
@[simp] theorem State.modObj_wells (s : State) (h : Nat) (f : Obj → Obj) : (s.modObj h f).wells = s.wells := rfl
@[simp] theorem State.modObj_closed (s : State) (h : Nat) (f : Obj → Obj) : (s.modObj h f).closed = s.closed := rfl
@[simp] theorem State.modObj_sweepNo (s : State) (h : Nat) (f : Obj → Obj) : (s.modObj h f).sweepNo = s.sweepNo := rfl
@[simp] theorem State.modObj_sweeping (s : State) (h : Nat) (f : Obj → Obj) : (s.modObj h f).sweeping = s.sweeping := rfl
@[simp] theorem State.modObj_gleanerLast (s : State) (h : Nat) (f : Obj → Obj) : (s.modObj h f).gleanerLast = s.gleanerLast := rfl
@[simp] theorem State.modObj_pendObjs (s : State) (h : Nat) (f : Obj → Obj) : (s.modObj h f).pendObjs = s.pendObjs := rfl
@[simp] theorem State.modObj_odtChanges (s : State) (h : Nat) (f : Obj → Obj) : (s.modObj h f).odtChanges = s.odtChanges := rfl
@[simp] theorem State.modObj_odtLag (s : State) (h : Nat) (f : Obj → Obj) : (s.modObj h f).odtLag = s.odtLag := rfl
@[simp] theorem State.modObj_exports (s : State) (h : Nat) (f : Obj → Obj) : (s.modObj h f).exports = s.exports := rfl
@[simp] theorem State.modObj_remotes (s : State) (h : Nat) (f : Obj → Obj) : (s.modObj h f).remotes = s.remotes := rfl
@[simp] theorem State.modObj_wc (s : State) (h : Nat) (f : Obj → Obj) : (s.modObj h f).wc = s.wc := rfl
@[simp] theorem State.modObj_replNew (s : State) (h : Nat) (f : Obj → Obj) : (s.modObj h f).replNew = s.replNew := rfl
@[simp] theorem State.modObj_replLog (s : State) (h : Nat) (f : Obj → Obj) : (s.modObj h f).replLog = s.replLog := rfl
@[simp] theorem State.modObj_replDone (s : State) (h : Nat) (f : Obj → Obj) : (s.modObj h f).replDone = s.replDone := rfl
@[simp] theorem State.modObj_colls (s : State) (h : Nat) (f : Obj → Obj) : (s.modObj h f).colls = s.colls := rfl
@[simp] theorem State.modObj_qfences (s : State) (h : Nat) (f : Obj → Obj) : (s.modObj h f).qfences = s.qfences := rfl
@[simp] theorem State.modObj_monitors (s : State) (h : Nat) (f : Obj → Obj) : (s.modObj h f).monitors = s.monitors := rfl
@[simp] theorem State.modObj_held (s : State) (h : Nat) (f : Obj → Obj) : (s.modObj h f).held = s.held := rfl
@[simp] theorem State.modObj_ios (s : State) (h : Nat) (f : Obj → Obj) : (s.modObj h f).ios = s.ios := rfl
@[simp] theorem State.modObj_bars (s : State) (h : Nat) (f : Obj → Obj) : (s.modObj h f).bars = s.bars := rfl
@[simp] theorem State.modObj_linkDown (s : State) (h : Nat) (f : Obj → Obj) : (s.modObj h f).linkDown = s.linkDown := rfl
@[simp] theorem State.modObj_pkg (s : State) (h : Nat) (f : Obj → Obj) : (s.modObj h f).pkg = s.pkg := rfl
@[simp] theorem State.modObj_sessions (s : State) (h : Nat) (f : Obj → Obj) : (s.modObj h f).sessions = s.sessions := rfl
@[simp] theorem State.modObj_responses (s : State) (h : Nat) (f : Obj → Obj) : (s.modObj h f).responses = s.responses := rfl
@[simp] theorem State.modObj_out (s : State) (h : Nat) (f : Obj → Obj) : (s.modObj h f).out = s.out := rfl
@[simp] theorem State.modObj_almanac (s : State) (h : Nat) (f : Obj → Obj) : (s.modObj h f).almanac = s.almanac := rfl
@[simp] theorem State.modObj_almSeq (s : State) (h : Nat) (f : Obj → Obj) : (s.modObj h f).almSeq = s.almSeq := rfl
@[simp] theorem State.modObj_frozen (s : State) (h : Nat) (f : Obj → Obj) : (s.modObj h f).frozen = s.frozen := rfl
@[simp] theorem State.modObj_lost (s : State) (h : Nat) (f : Obj → Obj) : (s.modObj h f).lost = s.lost := rfl
@[simp] theorem State.modObj_power (s : State) (h : Nat) (f : Obj → Obj) : (s.modObj h f).power = s.power := rfl
@[simp] theorem State.modObj_fw (s : State) (h : Nat) (f : Obj → Obj) : (s.modObj h f).fw = s.fw := rfl
@[simp] theorem State.modObj_bootStep (s : State) (h : Nat) (f : Obj → Obj) : (s.modObj h f).bootStep = s.bootStep := rfl
@[simp] theorem State.modObj_bootRecord (s : State) (h : Nat) (f : Obj → Obj) : (s.modObj h f).bootRecord = s.bootRecord := rfl
@[simp] theorem State.modObj_bootCount (s : State) (h : Nat) (f : Obj → Obj) : (s.modObj h f).bootCount = s.bootCount := rfl
@[simp] theorem State.modObj_cellarMiB (s : State) (h : Nat) (f : Obj → Obj) : (s.modObj h f).cellarMiB = s.cellarMiB := rfl
@[simp] theorem State.modObj_ended (s : State) (h : Nat) (f : Obj → Obj) : (s.modObj h f).ended = s.ended := rfl
@[simp] theorem State.modObj_inbound (s : State) (h : Nat) (f : Obj → Obj) : (s.modObj h f).inbound = s.inbound := rfl
@[simp] theorem State.modObj_acks (s : State) (h : Nat) (f : Obj → Obj) : (s.modObj h f).acks = s.acks := rfl
@[simp] theorem State.modObj_turns (s : State) (h : Nat) (f : Obj → Obj) : (s.modObj h f).turns = s.turns := rfl
@[simp] theorem State.modObj_early (s : State) (h : Nat) (f : Obj → Obj) : (s.modObj h f).early = s.early := rfl
@[simp] theorem State.modObj_bound (s : State) (h : Nat) (f : Obj → Obj) : (s.modObj h f).bound = s.bound := rfl
@[simp] theorem State.modObj_owed (s : State) (h : Nat) (f : Obj → Obj) : (s.modObj h f).owed = s.owed := rfl
@[simp] theorem State.modObj_posted (s : State) (h : Nat) (f : Obj → Obj) : (s.modObj h f).posted = s.posted := rfl
@[simp] theorem State.modObj_portDown (s : State) (h : Nat) (f : Obj → Obj) : (s.modObj h f).portDown = s.portDown := rfl
@[simp] theorem State.modObj_pairs (s : State) (h : Nat) (f : Obj → Obj) : (s.modObj h f).pairs = s.pairs := rfl
@[simp] theorem State.modObj_attests (s : State) (h : Nat) (f : Obj → Obj) : (s.modObj h f).attests = s.attests := rfl
@[simp] theorem State.modObj_operators (s : State) (h : Nat) (f : Obj → Obj) : (s.modObj h f).operators = s.operators := rfl

/-! `setBody` leaves every field but objs alone. -/

@[simp] theorem State.setBody_agenda (s : State) (h : Nat) (b : Body) : (s.setBody h b).agenda = s.agenda := rfl
@[simp] theorem State.setBody_cur (s : State) (h : Nat) (b : Body) : (s.setBody h b).cur = s.cur := rfl
@[simp] theorem State.setBody_fresh (s : State) (h : Nat) (b : Body) : (s.setBody h b).fresh = s.fresh := rfl
@[simp] theorem State.setBody_turn (s : State) (h : Nat) (b : Body) : (s.setBody h b).turn = s.turn := rfl
@[simp] theorem State.setBody_nextId (s : State) (h : Nat) (b : Body) : (s.setBody h b).nextId = s.nextId := rfl
@[simp] theorem State.setBody_time (s : State) (h : Nat) (b : Body) : (s.setBody h b).time = s.time := rfl
@[simp] theorem State.setBody_clk (s : State) (h : Nat) (b : Body) : (s.setBody h b).clk = s.clk := rfl
@[simp] theorem State.setBody_mem (s : State) (h : Nat) (b : Body) : (s.setBody h b).mem = s.mem := rfl
@[simp] theorem State.setBody_tags (s : State) (h : Nat) (b : Body) : (s.setBody h b).tags = s.tags := rfl
@[simp] theorem State.setBody_ecc (s : State) (h : Nat) (b : Body) : (s.setBody h b).ecc = s.ecc := rfl
@[simp] theorem State.setBody_cipher (s : State) (h : Nat) (b : Body) : (s.setBody h b).cipher = s.cipher := rfl
@[simp] theorem State.setBody_groups (s : State) (h : Nat) (b : Body) : (s.setBody h b).groups = s.groups := rfl
@[simp] theorem State.setBody_units (s : State) (h : Nat) (b : Body) : (s.setBody h b).units = s.units := rfl
@[simp] theorem State.setBody_replies (s : State) (h : Nat) (b : Body) : (s.setBody h b).replies = s.replies := rfl
@[simp] theorem State.setBody_replyBase (s : State) (h : Nat) (b : Body) : (s.setBody h b).replyBase = s.replyBase := rfl
@[simp] theorem State.setBody_nextCtx (s : State) (h : Nat) (b : Body) : (s.setBody h b).nextCtx = s.nextCtx := rfl
@[simp] theorem State.setBody_boundRows (s : State) (h : Nat) (b : Body) : (s.setBody h b).boundRows = s.boundRows := rfl
@[simp] theorem State.setBody_prot (s : State) (h : Nat) (b : Body) : (s.setBody h b).prot = s.prot := rfl
@[simp] theorem State.setBody_lock (s : State) (h : Nat) (b : Body) : (s.setBody h b).lock = s.lock := rfl
@[simp] theorem State.setBody_keys (s : State) (h : Nat) (b : Body) : (s.setBody h b).keys = s.keys := rfl
@[simp] theorem State.setBody_trngOk (s : State) (h : Nat) (b : Body) : (s.setBody h b).trngOk = s.trngOk := rfl
@[simp] theorem State.setBody_fars (s : State) (h : Nat) (b : Body) : (s.setBody h b).fars = s.fars := rfl
@[simp] theorem State.setBody_copies (s : State) (h : Nat) (b : Body) : (s.setBody h b).copies = s.copies := rfl
@[simp] theorem State.setBody_wells (s : State) (h : Nat) (b : Body) : (s.setBody h b).wells = s.wells := rfl
@[simp] theorem State.setBody_closed (s : State) (h : Nat) (b : Body) : (s.setBody h b).closed = s.closed := rfl
@[simp] theorem State.setBody_sweepNo (s : State) (h : Nat) (b : Body) : (s.setBody h b).sweepNo = s.sweepNo := rfl
@[simp] theorem State.setBody_sweeping (s : State) (h : Nat) (b : Body) : (s.setBody h b).sweeping = s.sweeping := rfl
@[simp] theorem State.setBody_gleanerLast (s : State) (h : Nat) (b : Body) : (s.setBody h b).gleanerLast = s.gleanerLast := rfl
@[simp] theorem State.setBody_pendObjs (s : State) (h : Nat) (b : Body) : (s.setBody h b).pendObjs = s.pendObjs := rfl
@[simp] theorem State.setBody_odtChanges (s : State) (h : Nat) (b : Body) : (s.setBody h b).odtChanges = s.odtChanges := rfl
@[simp] theorem State.setBody_odtLag (s : State) (h : Nat) (b : Body) : (s.setBody h b).odtLag = s.odtLag := rfl
@[simp] theorem State.setBody_exports (s : State) (h : Nat) (b : Body) : (s.setBody h b).exports = s.exports := rfl
@[simp] theorem State.setBody_remotes (s : State) (h : Nat) (b : Body) : (s.setBody h b).remotes = s.remotes := rfl
@[simp] theorem State.setBody_wc (s : State) (h : Nat) (b : Body) : (s.setBody h b).wc = s.wc := rfl
@[simp] theorem State.setBody_replNew (s : State) (h : Nat) (b : Body) : (s.setBody h b).replNew = s.replNew := rfl
@[simp] theorem State.setBody_replLog (s : State) (h : Nat) (b : Body) : (s.setBody h b).replLog = s.replLog := rfl
@[simp] theorem State.setBody_replDone (s : State) (h : Nat) (b : Body) : (s.setBody h b).replDone = s.replDone := rfl
@[simp] theorem State.setBody_colls (s : State) (h : Nat) (b : Body) : (s.setBody h b).colls = s.colls := rfl
@[simp] theorem State.setBody_qfences (s : State) (h : Nat) (b : Body) : (s.setBody h b).qfences = s.qfences := rfl
@[simp] theorem State.setBody_monitors (s : State) (h : Nat) (b : Body) : (s.setBody h b).monitors = s.monitors := rfl
@[simp] theorem State.setBody_held (s : State) (h : Nat) (b : Body) : (s.setBody h b).held = s.held := rfl
@[simp] theorem State.setBody_ios (s : State) (h : Nat) (b : Body) : (s.setBody h b).ios = s.ios := rfl
@[simp] theorem State.setBody_bars (s : State) (h : Nat) (b : Body) : (s.setBody h b).bars = s.bars := rfl
@[simp] theorem State.setBody_linkDown (s : State) (h : Nat) (b : Body) : (s.setBody h b).linkDown = s.linkDown := rfl
@[simp] theorem State.setBody_pkg (s : State) (h : Nat) (b : Body) : (s.setBody h b).pkg = s.pkg := rfl
@[simp] theorem State.setBody_sessions (s : State) (h : Nat) (b : Body) : (s.setBody h b).sessions = s.sessions := rfl
@[simp] theorem State.setBody_responses (s : State) (h : Nat) (b : Body) : (s.setBody h b).responses = s.responses := rfl
@[simp] theorem State.setBody_out (s : State) (h : Nat) (b : Body) : (s.setBody h b).out = s.out := rfl
@[simp] theorem State.setBody_almanac (s : State) (h : Nat) (b : Body) : (s.setBody h b).almanac = s.almanac := rfl
@[simp] theorem State.setBody_almSeq (s : State) (h : Nat) (b : Body) : (s.setBody h b).almSeq = s.almSeq := rfl
@[simp] theorem State.setBody_frozen (s : State) (h : Nat) (b : Body) : (s.setBody h b).frozen = s.frozen := rfl
@[simp] theorem State.setBody_lost (s : State) (h : Nat) (b : Body) : (s.setBody h b).lost = s.lost := rfl
@[simp] theorem State.setBody_power (s : State) (h : Nat) (b : Body) : (s.setBody h b).power = s.power := rfl
@[simp] theorem State.setBody_fw (s : State) (h : Nat) (b : Body) : (s.setBody h b).fw = s.fw := rfl
@[simp] theorem State.setBody_bootStep (s : State) (h : Nat) (b : Body) : (s.setBody h b).bootStep = s.bootStep := rfl
@[simp] theorem State.setBody_bootRecord (s : State) (h : Nat) (b : Body) : (s.setBody h b).bootRecord = s.bootRecord := rfl
@[simp] theorem State.setBody_bootCount (s : State) (h : Nat) (b : Body) : (s.setBody h b).bootCount = s.bootCount := rfl
@[simp] theorem State.setBody_cellarMiB (s : State) (h : Nat) (b : Body) : (s.setBody h b).cellarMiB = s.cellarMiB := rfl
@[simp] theorem State.setBody_ended (s : State) (h : Nat) (b : Body) : (s.setBody h b).ended = s.ended := rfl
@[simp] theorem State.setBody_inbound (s : State) (h : Nat) (b : Body) : (s.setBody h b).inbound = s.inbound := rfl
@[simp] theorem State.setBody_acks (s : State) (h : Nat) (b : Body) : (s.setBody h b).acks = s.acks := rfl
@[simp] theorem State.setBody_turns (s : State) (h : Nat) (b : Body) : (s.setBody h b).turns = s.turns := rfl
@[simp] theorem State.setBody_early (s : State) (h : Nat) (b : Body) : (s.setBody h b).early = s.early := rfl
@[simp] theorem State.setBody_bound (s : State) (h : Nat) (b : Body) : (s.setBody h b).bound = s.bound := rfl
@[simp] theorem State.setBody_owed (s : State) (h : Nat) (b : Body) : (s.setBody h b).owed = s.owed := rfl
@[simp] theorem State.setBody_posted (s : State) (h : Nat) (b : Body) : (s.setBody h b).posted = s.posted := rfl
@[simp] theorem State.setBody_portDown (s : State) (h : Nat) (b : Body) : (s.setBody h b).portDown = s.portDown := rfl
@[simp] theorem State.setBody_pairs (s : State) (h : Nat) (b : Body) : (s.setBody h b).pairs = s.pairs := rfl
@[simp] theorem State.setBody_attests (s : State) (h : Nat) (b : Body) : (s.setBody h b).attests = s.attests := rfl
@[simp] theorem State.setBody_operators (s : State) (h : Nat) (b : Body) : (s.setBody h b).operators = s.operators := rfl

/-! A physical write changes memory, tags and ECC marks alone. -/

@[simp] theorem writePhys_agenda (s : State) (a : Nat) (bs : List Byte) : (writePhys s a bs).agenda = s.agenda := rfl
@[simp] theorem writePhys_cur (s : State) (a : Nat) (bs : List Byte) : (writePhys s a bs).cur = s.cur := rfl
@[simp] theorem writePhys_fresh (s : State) (a : Nat) (bs : List Byte) : (writePhys s a bs).fresh = s.fresh := rfl
@[simp] theorem writePhys_turn (s : State) (a : Nat) (bs : List Byte) : (writePhys s a bs).turn = s.turn := rfl
@[simp] theorem writePhys_nextId (s : State) (a : Nat) (bs : List Byte) : (writePhys s a bs).nextId = s.nextId := rfl
@[simp] theorem writePhys_time (s : State) (a : Nat) (bs : List Byte) : (writePhys s a bs).time = s.time := rfl
@[simp] theorem writePhys_clk (s : State) (a : Nat) (bs : List Byte) : (writePhys s a bs).clk = s.clk := rfl
@[simp] theorem writePhys_groups (s : State) (a : Nat) (bs : List Byte) : (writePhys s a bs).groups = s.groups := rfl
@[simp] theorem writePhys_units (s : State) (a : Nat) (bs : List Byte) : (writePhys s a bs).units = s.units := rfl
@[simp] theorem writePhys_objs (s : State) (a : Nat) (bs : List Byte) : (writePhys s a bs).objs = s.objs := rfl
@[simp] theorem writePhys_replies (s : State) (a : Nat) (bs : List Byte) : (writePhys s a bs).replies = s.replies := rfl
@[simp] theorem writePhys_replyBase (s : State) (a : Nat) (bs : List Byte) : (writePhys s a bs).replyBase = s.replyBase := rfl
@[simp] theorem writePhys_nextCtx (s : State) (a : Nat) (bs : List Byte) : (writePhys s a bs).nextCtx = s.nextCtx := rfl
@[simp] theorem writePhys_boundRows (s : State) (a : Nat) (bs : List Byte) : (writePhys s a bs).boundRows = s.boundRows := rfl
@[simp] theorem writePhys_prot (s : State) (a : Nat) (bs : List Byte) : (writePhys s a bs).prot = s.prot := rfl
@[simp] theorem writePhys_lock (s : State) (a : Nat) (bs : List Byte) : (writePhys s a bs).lock = s.lock := rfl
@[simp] theorem writePhys_keys (s : State) (a : Nat) (bs : List Byte) : (writePhys s a bs).keys = s.keys := rfl
@[simp] theorem writePhys_trngOk (s : State) (a : Nat) (bs : List Byte) : (writePhys s a bs).trngOk = s.trngOk := rfl
@[simp] theorem writePhys_fars (s : State) (a : Nat) (bs : List Byte) : (writePhys s a bs).fars = s.fars := rfl
@[simp] theorem writePhys_copies (s : State) (a : Nat) (bs : List Byte) : (writePhys s a bs).copies = s.copies := rfl
@[simp] theorem writePhys_wells (s : State) (a : Nat) (bs : List Byte) : (writePhys s a bs).wells = s.wells := rfl
@[simp] theorem writePhys_closed (s : State) (a : Nat) (bs : List Byte) : (writePhys s a bs).closed = s.closed := rfl
@[simp] theorem writePhys_sweepNo (s : State) (a : Nat) (bs : List Byte) : (writePhys s a bs).sweepNo = s.sweepNo := rfl
@[simp] theorem writePhys_sweeping (s : State) (a : Nat) (bs : List Byte) : (writePhys s a bs).sweeping = s.sweeping := rfl
@[simp] theorem writePhys_gleanerLast (s : State) (a : Nat) (bs : List Byte) : (writePhys s a bs).gleanerLast = s.gleanerLast := rfl
@[simp] theorem writePhys_pendObjs (s : State) (a : Nat) (bs : List Byte) : (writePhys s a bs).pendObjs = s.pendObjs := rfl
@[simp] theorem writePhys_odtChanges (s : State) (a : Nat) (bs : List Byte) : (writePhys s a bs).odtChanges = s.odtChanges := rfl
@[simp] theorem writePhys_odtLag (s : State) (a : Nat) (bs : List Byte) : (writePhys s a bs).odtLag = s.odtLag := rfl
@[simp] theorem writePhys_exports (s : State) (a : Nat) (bs : List Byte) : (writePhys s a bs).exports = s.exports := rfl
@[simp] theorem writePhys_remotes (s : State) (a : Nat) (bs : List Byte) : (writePhys s a bs).remotes = s.remotes := rfl
@[simp] theorem writePhys_wc (s : State) (a : Nat) (bs : List Byte) : (writePhys s a bs).wc = s.wc := rfl
@[simp] theorem writePhys_replNew (s : State) (a : Nat) (bs : List Byte) : (writePhys s a bs).replNew = s.replNew := rfl
@[simp] theorem writePhys_replLog (s : State) (a : Nat) (bs : List Byte) : (writePhys s a bs).replLog = s.replLog := rfl
@[simp] theorem writePhys_replDone (s : State) (a : Nat) (bs : List Byte) : (writePhys s a bs).replDone = s.replDone := rfl
@[simp] theorem writePhys_colls (s : State) (a : Nat) (bs : List Byte) : (writePhys s a bs).colls = s.colls := rfl
@[simp] theorem writePhys_qfences (s : State) (a : Nat) (bs : List Byte) : (writePhys s a bs).qfences = s.qfences := rfl
@[simp] theorem writePhys_monitors (s : State) (a : Nat) (bs : List Byte) : (writePhys s a bs).monitors = s.monitors := rfl
@[simp] theorem writePhys_held (s : State) (a : Nat) (bs : List Byte) : (writePhys s a bs).held = s.held := rfl
@[simp] theorem writePhys_ios (s : State) (a : Nat) (bs : List Byte) : (writePhys s a bs).ios = s.ios := rfl
@[simp] theorem writePhys_bars (s : State) (a : Nat) (bs : List Byte) : (writePhys s a bs).bars = s.bars := rfl
@[simp] theorem writePhys_linkDown (s : State) (a : Nat) (bs : List Byte) : (writePhys s a bs).linkDown = s.linkDown := rfl
@[simp] theorem writePhys_pkg (s : State) (a : Nat) (bs : List Byte) : (writePhys s a bs).pkg = s.pkg := rfl
@[simp] theorem writePhys_sessions (s : State) (a : Nat) (bs : List Byte) : (writePhys s a bs).sessions = s.sessions := rfl
@[simp] theorem writePhys_responses (s : State) (a : Nat) (bs : List Byte) : (writePhys s a bs).responses = s.responses := rfl
@[simp] theorem writePhys_out (s : State) (a : Nat) (bs : List Byte) : (writePhys s a bs).out = s.out := rfl
@[simp] theorem writePhys_almanac (s : State) (a : Nat) (bs : List Byte) : (writePhys s a bs).almanac = s.almanac := rfl
@[simp] theorem writePhys_almSeq (s : State) (a : Nat) (bs : List Byte) : (writePhys s a bs).almSeq = s.almSeq := rfl
@[simp] theorem writePhys_frozen (s : State) (a : Nat) (bs : List Byte) : (writePhys s a bs).frozen = s.frozen := rfl
@[simp] theorem writePhys_lost (s : State) (a : Nat) (bs : List Byte) : (writePhys s a bs).lost = s.lost := rfl
@[simp] theorem writePhys_power (s : State) (a : Nat) (bs : List Byte) : (writePhys s a bs).power = s.power := rfl
@[simp] theorem writePhys_fw (s : State) (a : Nat) (bs : List Byte) : (writePhys s a bs).fw = s.fw := rfl
@[simp] theorem writePhys_bootStep (s : State) (a : Nat) (bs : List Byte) : (writePhys s a bs).bootStep = s.bootStep := rfl
@[simp] theorem writePhys_bootRecord (s : State) (a : Nat) (bs : List Byte) : (writePhys s a bs).bootRecord = s.bootRecord := rfl
@[simp] theorem writePhys_bootCount (s : State) (a : Nat) (bs : List Byte) : (writePhys s a bs).bootCount = s.bootCount := rfl
@[simp] theorem writePhys_cellarMiB (s : State) (a : Nat) (bs : List Byte) : (writePhys s a bs).cellarMiB = s.cellarMiB := rfl
@[simp] theorem writePhys_cipher (s : State) (a : Nat) (bs : List Byte) : (writePhys s a bs).cipher = s.cipher := rfl
@[simp] theorem writePhys_ended (s : State) (a : Nat) (bs : List Byte) : (writePhys s a bs).ended = s.ended := rfl
@[simp] theorem writePhys_inbound (s : State) (a : Nat) (bs : List Byte) : (writePhys s a bs).inbound = s.inbound := rfl
@[simp] theorem writePhys_acks (s : State) (a : Nat) (bs : List Byte) : (writePhys s a bs).acks = s.acks := rfl
@[simp] theorem writePhys_turns (s : State) (a : Nat) (bs : List Byte) : (writePhys s a bs).turns = s.turns := rfl
@[simp] theorem writePhys_early (s : State) (a : Nat) (bs : List Byte) : (writePhys s a bs).early = s.early := rfl
@[simp] theorem writePhys_bound (s : State) (a : Nat) (bs : List Byte) : (writePhys s a bs).bound = s.bound := rfl
@[simp] theorem writePhys_owed (s : State) (a : Nat) (bs : List Byte) : (writePhys s a bs).owed = s.owed := rfl
@[simp] theorem writePhys_posted (s : State) (a : Nat) (bs : List Byte) : (writePhys s a bs).posted = s.posted := rfl
@[simp] theorem writePhys_portDown (s : State) (a : Nat) (bs : List Byte) : (writePhys s a bs).portDown = s.portDown := rfl
@[simp] theorem writePhys_pairs (s : State) (a : Nat) (bs : List Byte) : (writePhys s a bs).pairs = s.pairs := rfl
@[simp] theorem writePhys_attests (s : State) (a : Nat) (bs : List Byte) : (writePhys s a bs).attests = s.attests := rfl
@[simp] theorem writePhys_operators (s : State) (a : Nat) (bs : List Byte) : (writePhys s a bs).operators = s.operators := rfl

/-! The parts of a thread after it leaves an instruction. -/

@[simp] theorem Thread.leave_v (t : Thread) : t.leave.v = t.v := rfl
@[simp] theorem Thread.advance_v (n : Nat) (t : Thread) : (t.advance n).v = t.v := rfl
@[simp] theorem Thread.leave_c (t : Thread) : t.leave.c = t.c := rfl
@[simp] theorem Thread.advance_c (n : Nat) (t : Thread) : (t.advance n).c = t.c := rfl
@[simp] theorem Thread.leave_p (t : Thread) : t.leave.p = t.p := rfl
@[simp] theorem Thread.advance_p (n : Nat) (t : Thread) : (t.advance n).p = t.p := rfl
@[simp] theorem Thread.leave_pcc (t : Thread) : t.leave.pcc = t.pcc := rfl
@[simp] theorem Thread.leave_meet (t : Thread) : t.leave.meet = t.meet := rfl
@[simp] theorem Thread.advance_meet (n : Nat) (t : Thread) : (t.advance n).meet = t.meet := rfl
@[simp] theorem Thread.leave_pix (t : Thread) : t.leave.pix = t.pix := rfl
@[simp] theorem Thread.advance_pix (n : Nat) (t : Thread) : (t.advance n).pix = t.pix := rfl
@[simp] theorem Thread.leave_edepth (t : Thread) : t.leave.edepth = t.edepth := rfl
@[simp] theorem Thread.advance_edepth (n : Nat) (t : Thread) : (t.advance n).edepth = t.edepth := rfl
@[simp] theorem Thread.leave_rr1 (t : Thread) : t.leave.rr1 = t.rr1 := rfl
@[simp] theorem Thread.advance_rr1 (n : Nat) (t : Thread) : (t.advance n).rr1 = t.rr1 := rfl
@[simp] theorem Thread.leave_rr2 (t : Thread) : t.leave.rr2 = t.rr2 := rfl
@[simp] theorem Thread.advance_rr2 (n : Nat) (t : Thread) : (t.advance n).rr2 = t.rr2 := rfl
@[simp] theorem Thread.leave_live (t : Thread) : t.leave.live = t.live := rfl
@[simp] theorem Thread.advance_live (n : Nat) (t : Thread) : (t.advance n).live = t.live := rfl
@[simp] theorem Thread.leave_slice (t : Thread) : t.leave.slice = t.slice := rfl
@[simp] theorem Thread.advance_slice (n : Nat) (t : Thread) : (t.advance n).slice = t.slice := rfl
@[simp] theorem Thread.leave_sliceTags (t : Thread) : t.leave.sliceTags = t.sliceTags := rfl
@[simp] theorem Thread.advance_sliceTags (n : Nat) (t : Thread) : (t.advance n).sliceTags = t.sliceTags := rfl
@[simp] theorem Thread.leave_sliceEcc (t : Thread) : t.leave.sliceEcc = t.sliceEcc := rfl
@[simp] theorem Thread.advance_sliceEcc (n : Nat) (t : Thread) : (t.advance n).sliceEcc = t.sliceEcc := rfl
@[simp] theorem Thread.leave_wait (t : Thread) : t.leave.wait = .none := rfl
@[simp] theorem Thread.advance_wait (n : Nat) (t : Thread) : (t.advance n).wait = .none := rfl
@[simp] theorem Thread.advance_pcc (n : Nat) (t : Thread) : (t.advance n).pcc = t.pcc.withAddr (t.pcc.addr + n) := rfl

/-! What is read after an update. -/

theorem State.grp?_modGrp_self (s : State) (g : Nat) (f : Group → Group) : (s.modGrp g f).grp? g = (s.grp? g).map f :=
  Map.get?_modify_self g f s.groups

theorem State.grp?_modGrp_other (s : State) {g j : Nat} (f : Group → Group) (h : j ≠ g) : (s.modGrp g f).grp? j = s.grp? j :=
  Map.get?_modify_other f h s.groups

theorem State.grp_modGrp_other (s : State) {g j : Nat} (f : Group → Group) (h : j ≠ g) : (s.modGrp g f).grp j = s.grp j := by
  simp only [State.grp, State.grp?_modGrp_other s f h]

theorem State.grp_modGrp_self {s : State} {g : Nat} (f : Group → Group) (h : (s.grp? g).isSome) : (s.modGrp g f).grp g = f (s.grp g) := by
  obtain ⟨q, hq⟩ := Option.isSome_iff_exists.1 h
  simp [State.grp, State.grp?_modGrp_self, hq]

/-- A change of a group that keeps what a reader takes of it is not seen by that reader. -/
theorem State.grp_modGrp_keep {β : Type} (r : Group → β) (s : State) (g j : Nat) (f : Group → Group) (h : ∀ q, r (f q) = r q) :
    r ((s.modGrp g f).grp j) = r (s.grp j) := by
  by_cases e : j = g
  · subst e
    simp only [State.grp, State.grp?_modGrp_self]
    cases s.grp? j <;> simp [h]
  · rw [State.grp_modGrp_other s f e]

theorem State.grp?_isSome_modGrp (s : State) (g j : Nat) (f : Group → Group) : ((s.modGrp g f).grp? j).isSome = (s.grp? j).isSome := by
  by_cases e : j = g
  · subst e; rw [State.grp?_modGrp_self]; cases s.grp? j <;> rfl
  · rw [State.grp?_modGrp_other s f e]

/-- A group whose thread is listed exists. -/
theorem State.grp?_of_thread {s : State} {g t : Nat} (h : (Map.get? t (s.grp g).threads).isSome) : (s.grp? g).isSome := by
  cases e : s.grp? g with
  | some q => rfl
  | none => simp [State.grp, e, Group.empty, Map.get?] at h

theorem State.thr_modThr_self {s : State} {g t : Nat} (f : Thread → Thread) (h : (Map.get? t (s.grp g).threads).isSome) :
    (s.modThr g t f).thr g t = f (s.thr g t) := by
  have hg := State.grp?_of_thread h
  obtain ⟨q, hq⟩ := Option.isSome_iff_exists.1 h
  simp only [State.thr, State.modThr, State.grp_modGrp_self _ hg, Map.get?_modify_self, hq, Option.map_some, Option.getD_some]

theorem State.thr_modThr_other (s : State) {g t j u : Nat} (f : Thread → Thread) (h : j ≠ g ∨ u ≠ t) :
    (s.modThr g t f).thr j u = s.thr j u := by
  by_cases e : j = g
  · subst e
    have hu : u ≠ t := by tauto
    simp only [State.thr, State.modThr, State.grp]
    rw [State.grp?_modGrp_self]
    cases s.grp? j with
    | none => rfl
    | some q => simp [Map.get?_modify_other f hu]
  · simp only [State.thr, State.modThr, State.grp_modGrp_other s _ e]

theorem State.thr_modClan (s : State) (g c j u : Nat) (f : Clan → Clan) : (s.modClan g c f).thr j u = s.thr j u :=
  congrArg (fun m => (Map.get? u m).getD Thread.empty) (State.grp_modGrp_keep Group.threads s g j _ fun _ => rfl)

theorem State.clan_modThr (s : State) (g t j c : Nat) (f : Thread → Thread) : (s.modThr g t f).clan j c = s.clan j c :=
  congrArg (fun m => (Map.get? c m).getD Clan.empty) (State.grp_modGrp_keep Group.clans s g j _ fun _ => rfl)

theorem State.listed_modThr (s : State) (g t j u : Nat) (f : Thread → Thread) :
    (Map.get? u ((s.modThr g t f).grp j).threads).isSome = (Map.get? u (s.grp j).threads).isSome := by
  by_cases e : j = g
  · subst e
    simp only [State.modThr, State.grp]
    rw [State.grp?_modGrp_self]
    cases s.grp? j with
    | none => rfl
    | some q =>
      by_cases hu : u = t
      · subst hu; simp [Map.get?_modify_self]
      · simp [Map.get?_modify_other f hu]
  · simp only [State.modThr, State.grp_modGrp_other s _ e]

/-- Everything of a group but its threads is as before a change of a thread. -/
theorem State.grp_modThr_keep {β : Type} (r : Group → β) (s : State) (g t j : Nat) (f : Thread → Thread)
    (h : ∀ (q : Group) (m : List (Nat × Thread)), r { q with threads := m } = r q) : r ((s.modThr g t f).grp j) = r (s.grp j) :=
  State.grp_modGrp_keep r s g j _ fun q => h q _

theorem State.obj?_modObj_self (s : State) (h : Nat) (f : Obj → Obj) : (s.modObj h f).obj? h = (s.obj? h).map f :=
  Map.get?_modify_self h f s.objs

theorem State.obj?_modObj_other (s : State) {h j : Nat} (f : Obj → Obj) (e : j ≠ h) : (s.modObj h f).obj? j = s.obj? j :=
  Map.get?_modify_other f e s.objs

end Sys2Proof.Machine
end

