-- ==== Sys2Proof/Laws/Memory.lean ====
section
/-! SUPPORT. Memory: every operation that writes it keeps the canonical form; what a write does to the bytes and tags it covers and to all others; the operations on threads and objects leave it as it is. -/

namespace Sys2Proof.Machine

/-! The canonical form of a map. -/

theorem SMap.canon_filter {α : Type} {d : α} (f : Nat × α → Bool) : {m : SMap α} → {lo : Nat} → SMap.canon d lo m → SMap.canon d lo (m.filter f)
  | [], _, _ => trivial
  | (a, v) :: m, lo, h => by
    obtain ⟨h1, h2, h3⟩ := h
    rw [List.filter_cons]
    split
    · exact ⟨h1, h2, SMap.canon_filter f h3⟩
    · exact SMap.canon_mono (by omega) (SMap.canon_filter f h3)

theorem SMap.wf_filter {α : Type} [DecidableEq α] {d : α} (f : Nat × α → Bool) {m : SMap α} (h : SMap.wf d m = true) : SMap.wf d (m.filter f) = true :=
  SMap.wf_iff.mpr (SMap.canon_filter f (SMap.wf_iff.mp h))

theorem SMap.wf_dels {d : Bool} : (ks : List Nat) → {m : SMap Bool} → SMap.wf d m = true → SMap.wf d (ks.foldl (fun m g => Map.del g m) m) = true
  | [], _, h => h
  | k :: ks, _, h => SMap.wf_dels ks (SMap.wf_del (k := k) h)

theorem SMap.get_dels {d : Bool} (j : Nat) : (ks : List Nat) → (m : SMap Bool) →
    SMap.get d j (ks.foldl (fun m g => Map.del g m) m) = if j ∈ ks then d else SMap.get d j m
  | [], _ => by simp
  | k :: ks, m => by
    rw [List.foldl_cons, SMap.get_dels j ks]
    by_cases h : j ∈ ks
    · simp [h]
    · by_cases e : j = k
      · subst e; simp [h, SMap.get, Map.get?_del_self]
      · simp [h, e, SMap.get, Map.get?_del_other e]

theorem clearTags_wf {a n : Nat} {m : SMap Bool} (h : SMap.wf false m = true) : SMap.wf false (clearTags a n m) = true := SMap.wf_dels _ h
theorem repairEcc_wf {a n : Nat} {m : SMap Bool} (h : SMap.wf false m = true) : SMap.wf false (repairEcc a n m) = true := SMap.wf_dels _ h

/-! Memory that an operation leaves as it is. -/

/-- Physical memory with its tags and marks is the same. -/
structure SameMem (s t : State) : Prop where
  mem : t.mem = s.mem
  tags : t.tags = s.tags
  ecc : t.ecc = s.ecc

theorem SameMem.refl (s : State) : SameMem s s := ⟨rfl, rfl, rfl⟩
theorem SameMem.trans {s t u : State} (a : SameMem s t) (b : SameMem t u) : SameMem s u :=
  ⟨b.mem.trans a.mem, b.tags.trans a.tags, b.ecc.trans a.ecc⟩
theorem SameMem.wf {s t : State} (h : SameMem s t) (hs : Memory.wf s = true) : Memory.wf t = true := by
  unfold Memory.wf; rw [h.mem, h.tags, h.ecc]; exact hs
theorem SameMem.byteAt {s t : State} (h : SameMem s t) (a : Nat) : byteAt t a = byteAt s a := by unfold Machine.byteAt; rw [h.mem]
theorem SameMem.foldl {α : Type} (f : State → α → State) (hf : ∀ s x, SameMem s (f s x)) : (l : List α) → (s : State) → SameMem s (l.foldl f s)
  | [], s => .refl s
  | x :: l, s => (hf s x).trans (SameMem.foldl f hf l (f s x))

theorem sameMem_modGrp (s : State) (g : Nat) (f : Group → Group) : SameMem s (s.modGrp g f) := ⟨rfl, rfl, rfl⟩
theorem sameMem_modThr (s : State) (g t : Nat) (f : Thread → Thread) : SameMem s (s.modThr g t f) := ⟨rfl, rfl, rfl⟩
theorem sameMem_modClan (s : State) (g c : Nat) (f : Clan → Clan) : SameMem s (s.modClan g c f) := ⟨rfl, rfl, rfl⟩
theorem sameMem_modObj (s : State) (h : Nat) (f : Obj → Obj) : SameMem s (s.modObj h f) := ⟨rfl, rfl, rfl⟩
theorem sameMem_setBody (s : State) (h : Nat) (b : Body) : SameMem s (s.setBody h b) := ⟨rfl, rfl, rfl⟩

theorem sameMem_applyWrite (s : State) (x : Cx) (w : RegWrite) : SameMem s (applyWrite s x w) := by
  cases w with
  | w r a => cases r <;> exact ⟨rfl, rfl, rfl⟩
  | c r a => cases r <;> exact ⟨rfl, rfl, rfl⟩
  | p i b =>
    simp only [applyWrite]
    split
    · exact .refl s
    · exact sameMem_modThr s _ _ _

theorem sameMem_applyWrites (s : State) (x : Cx) (ws : List RegWrite) : SameMem s (applyWrites s x ws) :=
  SameMem.foldl _ (fun s w => sameMem_applyWrite s x w) ws s

theorem sameMem_advance (s : State) (x : Cx) (n : Nat) : SameMem s (advance s x n) := sameMem_modThr s _ _ _

theorem sameMem_lateWrite (s : State) (x : Cx) (no : Nat) (w : RegWrite) : SameMem s (lateWrite s x no w) := by
  unfold lateWrite
  dsimp only
  split <;> split
  all_goals first
    | exact .refl s
    | exact sameMem_applyWrite s x _

theorem sameMem_lateWrites (s : State) (x : Cx) (no : Nat) (ws : List RegWrite) : SameMem s (lateWrites s x no ws) :=
  SameMem.foldl _ (fun s w => sameMem_lateWrite s x no w) ws s

theorem sameMem_completeWith (s : State) (w : Who) (ws : Cx → List RegWrite) (n : Nat) : SameMem s (completeWith s w ws n) :=
  SameMem.foldl _ (fun s x => (sameMem_lateWrites s x _ _).trans (sameMem_advance _ x n)) _ s

theorem sameMem_checkMonitors (s : State) : SameMem s (checkMonitors s) := by
  refine SameMem.foldl _ (fun st m => ?_) s.monitors s
  dsimp only
  split
  · have e := sameMem_completeWith { st with monitors := st.monitors.filter fun o => o != m } m.who
      (fun x => wrW { st with monitors := st.monitors.filter fun o => o != m } x (m.n == 8) m.d (m.test s).1) m.foot
    exact ⟨e.mem, e.tags, e.ecc⟩
  · exact .refl st

theorem sameMem_dirtyPage (s : State) (pa : Nat) : SameMem s (dirtyPage s pa) := ⟨rfl, rfl, rfl⟩

theorem sameMem_ioWrite (s : State) (pa : Nat) (bs : List Byte) : SameMem s (ioWrite s pa bs) := by
  unfold ioWrite; split
  · exact ⟨rfl, rfl, rfl⟩
  · exact .refl s

/-! Writes of physical memory. -/

theorem Memory.wf_iff {s : State} : Memory.wf s = true ↔ SMap.wf 0 s.mem = true ∧ SMap.wf false s.tags = true ∧ SMap.wf false s.ecc = true := by
  simp [Memory.wf, and_assoc]

theorem writePhys_wf {s : State} (pa : Nat) (bs : List Byte) (h : Memory.wf s = true) : Memory.wf (writePhys s pa bs) = true := by
  obtain ⟨h1, h2, h3⟩ := Memory.wf_iff.mp h
  exact Memory.wf_iff.mpr ⟨SMap.wf_putRange bs h1, clearTags_wf h2, repairEcc_wf h3⟩

theorem putTag_wf {s : State} (g : Nat) (t : Bool) (h : Memory.wf s = true) : Memory.wf { s with tags := SMap.put false g t s.tags } = true := by
  obtain ⟨h1, h2, h3⟩ := Memory.wf_iff.mp h
  exact Memory.wf_iff.mpr ⟨h1, SMap.wf_put h2, h3⟩

theorem writePhysCap_wf {s : State} (pa : Nat) (c : Cap) (h : Memory.wf s = true) : Memory.wf (writePhysCap s pa c) = true :=
  putTag_wf _ _ (writePhys_wf pa _ h)

theorem wf_foldl {α : Type} (f : State → α → State) (hf : ∀ s x, Memory.wf s = true → Memory.wf (f s x) = true) :
    (l : List α) → {s : State} → Memory.wf s = true → Memory.wf (l.foldl f s) = true
  | [], _, h => h
  | x :: l, s, h => wf_foldl f hf l (hf s x h)

/-- A granule put under another key keeps the canonical form. -/
theorem rekeyGranule_wf {s : State} (k : MemKey) (g : Nat) (h : Memory.wf s = true) : Memory.wf (rekeyGranule s k g) = true := by
  unfold rekeyGranule; split
  · exact h
  · obtain ⟨h1, h2, h3⟩ := Memory.wf_iff.mp h
    exact Memory.wf_iff.mpr ⟨SMap.wf_putRange _ h1, h2, h3⟩

theorem rekey_wf {s : State} (pa n : Nat) (k : MemKey) (h : Memory.wf s = true) : Memory.wf (rekey s pa n k) = true := by
  unfold rekey; split
  · exact h
  · exact wf_foldl _ (fun _ g hs => rekeyGranule_wf k g hs) _ h

theorem writeVia_wf {s : State} (k : MemKey) (pa : Nat) (bs : List Byte) (h : Memory.wf s = true) : Memory.wf (writeVia s k pa bs) = true :=
  writePhys_wf _ _ (rekey_wf _ _ _ h)

theorem putTags_wf (a : Nat) : (ts : List (Nat × Bool)) → {m : SMap Bool} → SMap.wf false m = true → SMap.wf false (putTags a ts m) = true
  | [], _, h => h
  | _ :: ts, _, h => putTags_wf a ts (SMap.wf_put h)

/-- A write of bytes with the tags of some granules. -/
theorem writeTags_wf {s : State} (f : SMap Bool → SMap Bool) (hf : ∀ m, SMap.wf false m = true → SMap.wf false (f m) = true)
    (h : Memory.wf s = true) : Memory.wf { s with tags := f s.tags } = true := by
  obtain ⟨h1, h2, h3⟩ := Memory.wf_iff.mp h
  exact Memory.wf_iff.mpr ⟨h1, hf _ h2, h3⟩

theorem applyRepl_wf {s : State} (w : ReplWrite) (h : Memory.wf s = true) : Memory.wf (applyRepl s w) = true :=
  writeTags_wf _ (fun _ => putTags_wf _ _) (wf_foldl _ (fun _ p hs => writeVia_wf _ p.1 p.2 hs) _ (writeVia_wf _ _ _ h))

/-- Stamping writes, and applying them on a die, leaves memory as it is: the replicas are views of it. -/
theorem sameMem_stampAll (s : State) : SameMem s (stampAll s) :=
  SameMem.foldl stampWrite (fun _ _ => ⟨rfl, rfl, rfl⟩) _ s
theorem sameMem_replNext (s : State) (die : Nat) : SameMem s (replNext s die) := by
  unfold replNext; dsimp only; split
  · have e := sameMem_checkMonitors { s with replDone := SMap.put 0 die (SMap.get 0 die s.replDone + 1) s.replDone }
    exact ⟨e.mem, e.tags, e.ecc⟩
  · exact .refl s
theorem sameMem_replCatch (s : State) (die : Nat) : SameMem s (replCatch s die) := SameMem.foldl _ (fun s _ => sameMem_replNext s die) _ s
theorem sameMem_replSettleDie (s : State) (die : Nat) : SameMem s (replSettleDie s die) := by
  unfold replSettleDie; split
  · exact .refl s
  · exact (sameMem_stampAll s).trans (sameMem_replCatch _ die)
theorem sameMem_sendAway (s : State) : SameMem s (sendAway s) := ⟨rfl, rfl, rfl⟩
theorem sameMem_joined (s : State) (a : Actor) : SameMem s (joined s a) :=
  (SameMem.foldl _ (fun s x => sameMem_modThr s x.gid x.tid _) a.cxs s).trans (sameMem_replSettleDie _ _)

theorem replHome_wf {s : State} (h : Memory.wf s = true) : Memory.wf (replHome s) = true := wf_foldl _ (fun _ w => applyRepl_wf w) _ h

theorem replSettle_wf {s : State} (h : Memory.wf s = true) : Memory.wf (replSettle s) = true := by
  unfold replSettle; dsimp only; split
  · exact h
  · have m := (((sameMem_stampAll s).trans (sameMem_sendAway _)).trans (SameMem.foldl _ sameMem_replCatch (List.range 7) _))
    generalize (List.range 7).foldl replCatch (sendAway (stampAll s)) = r at m ⊢
    have e := replHome_wf (m.wf h)
    exact SameMem.wf (s := replHome r) ⟨rfl, rfl, rfl⟩ e

theorem zeroPhys_wf {s : State} (pa n : Nat) (k : MemKey) (h : Memory.wf s = true) : Memory.wf (zeroPhys s pa n k) = true := by
  obtain ⟨h1, h2, h3⟩ := Memory.wf_iff.mp h
  exact Memory.wf_iff.mpr ⟨SMap.wf_filter _ h1, SMap.wf_filter _ h2, SMap.wf_filter _ h3⟩

/-- A write at any place, before the monitors see it: a lane slice, a scratchpad, memory of every type. -/
theorem putLoc_wf {s : State} (who : Nat × List Nat) (l : Loc) (bs : List Byte) (tags : List (Nat × Bool)) (h : Memory.wf s = true) :
    Memory.wf (putLoc s who l bs tags) = true := by
  cases l with
  | lane g t o => exact SameMem.wf (sameMem_modThr ..) h
  | pad g o => exact SameMem.wf (sameMem_modGrp ..) h
  | mem pa mt k =>
    have key : Memory.wf { writeVia s k pa bs with tags := putTags pa tags (clearTags pa bs.length (writeVia s k pa bs).tags) } = true :=
      writeTags_wf (s := writeVia s k pa bs) (fun m => putTags pa tags (clearTags pa bs.length m))
        (fun _ hm => putTags_wf _ _ (clearTags_wf hm)) (writeVia_wf k pa bs h)
    unfold putLoc
    dsimp only
    split
    · exact (sameMem_ioWrite ..).wf h
    · split
      · exact SameMem.wf ⟨rfl, rfl, rfl⟩ h
      · split
        · exact (sameMem_dirtyPage ..).wf key
        · exact key

theorem zeroSlot_wf {s : State} (gid lo hi : Nat) (h : Memory.wf s = true) : Memory.wf (zeroSlot s gid lo hi) = true := by
  refine wf_foldl _ (fun s i hs => ?_) _ h
  dsimp only
  split
  · split
    · split
      · exact putLoc_wf _ _ _ _ hs
      · exact zeroPhys_wf _ _ _ hs
    · exact hs
  · exact hs

theorem writeLoc_wf {s : State} (who : Nat × List Nat) (l : Loc) (bs : List Byte) (tags : List (Nat × Bool)) (h : Memory.wf s = true) :
    Memory.wf (writeLoc s who l bs tags) = true :=
  (sameMem_checkMonitors _).wf (putLoc_wf _ _ _ _ h)

/-- One write at several places. -/
theorem writeSeveral_wf {s : State} (who : Nat × List Nat) (ps : List (Loc × List Byte)) (h : Memory.wf s = true) :
    Memory.wf (writeSeveral s who ps) = true := by
  unfold writeSeveral
  split
  · exact h
  · exact SameMem.wf ⟨rfl, rfl, rfl⟩ h
  · exact (sameMem_checkMonitors _).wf (wf_foldl _ (fun _ p hs => putLoc_wf _ p.1 p.2 [] hs) _ h)

theorem writeAt_wf {s : State} (who : Nat × List Nat) (l : Loc) (n v : Nat) (h : Memory.wf s = true) : Memory.wf (writeAt s who l n v) = true :=
  writeLoc_wf _ _ _ _ h
theorem writeCapAt_wf {s : State} (who : Nat × List Nat) (l : Loc) (c : Cap) (h : Memory.wf s = true) : Memory.wf (writeCapAt s who l c) = true :=
  writeLoc_wf _ _ _ _ h
/-- A range written with tags. -/
theorem writeTagged_wf {s : State} (who : Nat × List Nat) (ps : List (Loc × Nat)) (bs : List Byte) (ts : List (Nat × Bool)) (h : Memory.wf s = true) :
    Memory.wf (writeTagged s who ps bs ts) = true := by
  have key : ∀ (qs : List (Loc × Nat)) (acc : State × Nat), Memory.wf acc.1 = true →
      Memory.wf (qs.foldl (fun (acc : State × Nat) p =>
        (writeLoc acc.1 who p.1 ((bs.drop acc.2).take p.2) ((ts.filter fun t => decide (acc.2 ≤ t.1) && decide (t.1 < acc.2 + p.2)).map fun t => (t.1 - acc.2, t.2)),
          acc.2 + p.2)) acc).1 = true := by
    intro qs
    induction qs with
    | nil => exact fun _ h => h
    | cons q qs ih => exact fun acc h => ih _ (writeLoc_wf _ _ _ _ h)
  exact key _ _ h

/-- The sweep only clears tags. -/
theorem sweepAll_wf {s : State} (f : Nat → Cap → Cap) (swept : Nat → Bool) (h : Memory.wf s = true) : Memory.wf (sweepAll s f swept) = true := by
  obtain ⟨h1, h2, h3⟩ := Memory.wf_iff.mp h
  exact Memory.wf_iff.mpr ⟨h1, SMap.wf_filter _ h2, h3⟩

/-! What a write leaves. -/

theorem byteAt_writePhys_outside (s : State) (pa : Nat) (bs : List Byte) (a : Nat) (h : a < pa ∨ pa + bs.length ≤ a) :
    byteAt (writePhys s pa bs) a = byteAt s a := SMap.get_putRange_outside 0 bs pa s.mem a h

theorem readPhys_writePhys (s : State) (pa : Nat) (bs : List Byte) : readPhys (writePhys s pa bs) pa bs.length = bs :=
  SMap.range_putRange 0 bs pa s.mem

theorem mem_granules (a n g : Nat) : g ∈ granules a n ↔ ∃ j, j < n ∧ (a + j) / 16 = g := by
  unfold granules
  split
  · rename_i h; subst h; simp
  · simp only [List.mem_map, List.mem_range]
    constructor
    · rintro ⟨i, hi, rfl⟩
      by_cases h0 : i = 0
      · exact ⟨0, by omega, by omega⟩
      · exact ⟨(a / 16 + i) * 16 - a, by omega, by omega⟩
    · rintro ⟨j, hj, rfl⟩
      exact ⟨(a + j) / 16 - a / 16, by omega, by omega⟩

theorem get_clearTags (a n g : Nat) (m : SMap Bool) : SMap.get false g (clearTags a n m) = if g ∈ granules a n then false else SMap.get false g m :=
  SMap.get_dels g _ m

/-- Data bytes written to a granule clear its tag and no other (R34). -/
theorem physTag_writePhys (s : State) (pa : Nat) (bs : List Byte) (b : Nat) :
    physTag (writePhys s pa bs) b = if b / 16 ∈ granules pa bs.length then false else physTag s b := get_clearTags pa bs.length (b / 16) s.tags

theorem physTag_writePhysCap (s : State) (pa : Nat) (c : Cap) : physTag (writePhysCap s pa c) pa = c.tag := SMap.get_put_self ..

end Sys2Proof.Machine
end

