-- ==== Sys2Proof/Laws/Cipher.lean ====
section
/-! SUPPORT. Inline encryption of HBM: what a read through a page of a key brings, and what a write through one leaves. -/

namespace Sys2Proof.Machine

theorem Map.mem_of_get? {α : Type} {k : Nat} {v : α} : {m : List (Nat × α)} → Map.get? k m = some v → (k, v) ∈ m
  | [], h => by simp [Map.get?] at h
  | (a, b) :: m, h => by
    unfold Map.get? at h
    split at h
    · rename_i e; subst e; cases h; exact List.mem_cons_self
    · exact List.mem_cons_of_mem _ (Map.mem_of_get? h)

theorem SMap.range_eq_map {α : Type} (d : α) (m : SMap α) (n : Nat) : (k : Nat) → SMap.range d m k n = (List.range n).map fun i => SMap.get d (k + i) m := by
  induction n with
  | zero => intros; rfl
  | succ n ih =>
    intro k
    rw [SMap.range, ih (k + 1), List.range_succ_eq_map, List.map_cons, List.map_map]
    refine congrArg₂ _ rfl (List.map_congr_left fun i _ => ?_)
    show _ = SMap.get d (k + (i + 1)) m
    rw [show k + 1 + i = k + (i + 1) by omega]

/-- Every byte of a plain range is under no key. -/
theorem cipherOf_plain {s : State} {pa n a : Nat} (h : plainRange s pa n = true) (h1 : pa ≤ a) (h2 : a < pa + n) : cipherOf s (a / 16) = none := by
  unfold plainRange at h
  rw [Bool.and_eq_true, List.all_eq_true, List.all_eq_true] at h
  obtain ⟨hf, hc⟩ := h
  unfold cipherOf
  cases e : Map.get? (a / 16) s.cipher with
  | some l =>
    have := hc _ (Map.mem_of_get? e)
    simp only [Bool.or_eq_true, beq_iff_eq, decide_eq_true_eq] at this
    simp only [Option.getD_some]
    rcases this with (h | h) | h
    · exact h
    · omega
    · omega
  | none =>
    simp only [Option.getD_none]
    unfold frameKey
    cases e' : s.objs.findSome? _ with
    | none => rfl
    | some l =>
      obtain ⟨o, ho, hl⟩ := List.exists_of_findSome?_eq_some e'
      have := hf o ho
      simp only [Option.getD_some]
      revert hl this
      split
      · rename_i f _
        split
        · intro hl this
          simp only [Bool.or_eq_true, beq_iff_eq, decide_eq_true_eq] at this
          cases hl
          rcases this with (h | h) | h
          · exact h
          · omega
          · omega
        · intro hl; cases hl
      · intro hl; cases hl

/-- A read through a page of a key, byte by byte. -/
theorem readVia_eq (s : State) (k : MemKey) (pa n : Nat) : readVia s k pa n = (List.range n).map fun i => byteVia s k (pa + i) := by
  unfold readVia
  split
  · rename_i h
    rw [Bool.and_eq_true, beq_iff_eq] at h
    obtain ⟨rfl, h⟩ := h
    rw [readPhys, SMap.range_eq_map]
    refine List.map_congr_left fun i hi => ?_
    rw [byteVia, if_pos (cipherOf_plain h (by omega) (by have := List.mem_range.mp hi; omega))]
  · rfl

theorem length_readVia (s : State) (k : MemKey) (pa n : Nat) : (readVia s k pa n).length = n := by simp [readVia_eq]

/-! One granule. -/

theorem cipherOf_rekeyGranule (s : State) (k : MemKey) (g j : Nat) : cipherOf (rekeyGranule s k g) j = if j = g then k else cipherOf s j := by
  unfold rekeyGranule
  split
  · rename_i h; split
    · rename_i e; rw [e, h]
    · rfl
  · unfold cipherOf
    split
    · rename_i e; rw [e, Map.get?_set_self]; rfl
    · rename_i e; rw [Map.get?_set_other k e]; rfl

theorem get_putRange_granule (m : SMap Byte) (g a : Nat) (f : Nat → Byte) :
    SMap.get 0 a (SMap.putRange 0 (16 * g) ((List.range 16).map f) m) = if a / 16 = g then f (a % 16) else SMap.get 0 a m := by
  split
  · rename_i h
    have hr := SMap.range_putRange 0 ((List.range 16).map f) (16 * g) m
    rw [SMap.range_eq_map] at hr
    have := congrArg (fun l => l[a % 16]?) hr
    simp only [List.length_map, List.length_range, List.getElem?_map, List.getElem?_range (show a % 16 < 16 by omega), Option.map_some, Option.some.injEq] at this
    rwa [show 16 * g + a % 16 = a by omega] at this
  · rename_i h
    exact SMap.get_putRange_outside 0 _ _ _ _ (by simp only [List.length_map, List.length_range]; omega)

/-- What a page of the key reads stays, and what any other reads stays in every other granule. -/
theorem byteVia_rekeyGranule (s : State) (k l : MemKey) (g a : Nat) (h : l = k ∨ a / 16 ≠ g) : byteVia (rekeyGranule s k g) l a = byteVia s l a := by
  by_cases e : a / 16 = g
  · obtain rfl : l = k := by tauto
    have hk := cipherOf_rekeyGranule s l g (a / 16)
    rw [if_pos e] at hk
    rw [byteVia, if_pos hk]
    unfold rekeyGranule
    split
    · rename_i h; rw [byteVia, e, if_pos h]
    · dsimp only
      rw [get_putRange_granule, if_pos e, show 16 * g + a % 16 = a by omega]
  · have hk := cipherOf_rekeyGranule s k g (a / 16)
    rw [if_neg e] at hk
    have hm (b : Nat) (hb : b / 16 ≠ g) : SMap.get 0 b (rekeyGranule s k g).mem = SMap.get 0 b s.mem := by
      unfold rekeyGranule; split
      · rfl
      · dsimp only; rw [get_putRange_granule, if_neg hb]
    have hn : readNum (rekeyGranule s k g) (a / 16 * 16) 16 = readNum s (a / 16 * 16) 16 := by
      unfold readNum readPhys
      rw [SMap.range_eq_map, SMap.range_eq_map]
      refine congrArg _ (List.map_congr_left fun i hi => hm _ ?_)
      have := List.mem_range.mp hi; omega
    unfold byteVia
    rw [hk, hm _ e, hn]

/-! A range of granules, and a write. -/

theorem cipherOf_foldl_rekey (k : MemKey) (gs : List Nat) : (s : State) → (j : Nat) →
    cipherOf (gs.foldl (fun st g => rekeyGranule st k g) s) j = if j ∈ gs then k else cipherOf s j := by
  induction gs with
  | nil => intros; simp
  | cons g gs ih =>
    intro s j
    rw [List.foldl_cons, ih, cipherOf_rekeyGranule]
    by_cases h : j ∈ gs <;> by_cases e : j = g <;> simp [h, e]

theorem byteVia_foldl_rekey (k l : MemKey) (a : Nat) (gs : List Nat) : (s : State) → (l = k ∨ a / 16 ∉ gs) →
    byteVia (gs.foldl (fun st g => rekeyGranule st k g) s) l a = byteVia s l a := by
  induction gs with
  | nil => intros; rfl
  | cons g gs ih =>
    intro s h
    simp only [List.mem_cons, not_or] at h
    rw [List.foldl_cons, ih _ (by tauto), byteVia_rekeyGranule _ _ _ _ _ (by tauto)]

/-- After a range has been put under a key, its granules are under that key. -/
theorem cipherOf_rekey (s : State) (pa n : Nat) (k : MemKey) (j : Nat) : cipherOf (rekey s pa n k) j = if j ∈ granules pa n then k else cipherOf s j := by
  unfold rekey
  split
  · rename_i h
    rw [Bool.and_eq_true, beq_iff_eq] at h
    obtain ⟨rfl, h⟩ := h
    split
    · rename_i hj
      obtain ⟨i, hi, rfl⟩ := (mem_granules _ _ _).mp hj
      exact cipherOf_plain h (by omega) (by omega)
    · rfl
  · exact cipherOf_foldl_rekey ..

theorem byteVia_rekey (s : State) (pa n : Nat) (k l : MemKey) (a : Nat) (h : l = k ∨ a / 16 ∉ granules pa n) : byteVia (rekey s pa n k) l a = byteVia s l a := by
  unfold rekey
  split
  · rfl
  · exact byteVia_foldl_rekey k l a _ s h

theorem byteVia_congr {s t : State} {k : MemKey} {a : Nat} (hc : cipherOf t (a / 16) = cipherOf s (a / 16))
    (hm : ∀ b, b / 16 = a / 16 → (b = a ∨ cipherOf s (a / 16) ≠ k) → SMap.get 0 b t.mem = SMap.get 0 b s.mem) : byteVia t k a = byteVia s k a := by
  unfold byteVia
  rw [hc]
  split
  · exact hm a rfl (.inl rfl)
  · rename_i h
    have hn : readNum t (a / 16 * 16) 16 = readNum s (a / 16 * 16) 16 := by
      unfold readNum readPhys
      rw [SMap.range_eq_map, SMap.range_eq_map]
      refine congrArg _ (List.map_congr_left fun i hi => hm _ ?_ (.inr h))
      have := List.mem_range.mp hi; omega
    rw [hn]

/-- A write through a page of a key leaves every other byte as a page of that key reads it, and every granule it does not touch as any page reads it (R455). -/
theorem byteVia_writeVia_outside (s : State) (k l : MemKey) (pa : Nat) (bs : List Byte) (a : Nat)
    (h : (l = k ∧ (a < pa ∨ pa + bs.length ≤ a)) ∨ a / 16 ∉ granules pa bs.length) : byteVia (writeVia s k pa bs) l a = byteVia s l a := by
  rw [← byteVia_rekey s pa bs.length k l a (by tauto)]
  refine byteVia_congr rfl fun b hb hk => SMap.get_putRange_outside 0 bs pa _ b ?_
  rcases h with ⟨rfl, h⟩ | h
  · rcases hk with rfl | hk
    · exact h
    · rw [cipherOf_rekey] at hk
      split at hk
      · exact absurd rfl hk
      · rename_i hg
        by_contra hc
        exact hg ((mem_granules _ _ _).mpr ⟨b - pa, by omega, by rw [← hb]; congr 1; omega⟩)
  · by_contra hc
    exact h ((mem_granules _ _ _).mpr ⟨b - pa, by omega, by rw [← hb]; congr 1; omega⟩)

/-- Bytes written through a page of a key are what a page of that key reads. -/
theorem readVia_writeVia (s : State) (k : MemKey) (pa : Nat) (bs : List Byte) : readVia (writeVia s k pa bs) k pa bs.length = bs := by
  have hp := readPhys_writePhys (rekey s pa bs.length k) pa bs
  rw [readPhys, SMap.range_eq_map] at hp
  rw [readVia_eq]
  refine Eq.trans (List.map_congr_left fun i hi => ?_) hp
  rw [byteVia, if_pos]
  · rfl
  · show cipherOf (rekey s pa bs.length k) ((pa + i) / 16) = k
    rw [cipherOf_rekey, if_pos ((mem_granules _ _ _).mpr ⟨i, List.mem_range.mp hi, rfl⟩)]

/-- Where no byte of a range is under a key, a write without one is a plain write. -/
theorem writeVia_plain {s : State} {pa : Nat} {bs : List Byte} (h : plainRange s pa bs.length = true) : writeVia s none pa bs = writePhys s pa bs := by
  unfold writeVia rekey
  rw [if_pos (by simp [h])]

theorem readVia_plain {s : State} {pa n : Nat} (h : plainRange s pa n = true) : readVia s none pa n = readPhys s pa n := by
  unfold readVia
  rw [if_pos (by simp [h])]

end Sys2Proof.Machine
end

