-- ==== Sys2Proof/Laws/Decode.lean ====
section
/-! SUPPORT. What the decoder and the encoder do to fields: codes of registers and modifiers come back, fields of a raw word read as they were written, the arithmetic of fields. -/

namespace Sys2Proof
theorem bits_self {x : Nat} (n : Nat) (h : x < 2 ^ n) : bitsAt x 0 n = x := by
  simp only [bitsAt, pow_zero, Nat.div_one]; exact Nat.mod_eq_of_lt h
theorem div_top {x y A B : Nat} (hy : y < A) (hx : x < B) : (x * A + y) / A % B = x := by
  have hA : 0 < A := by omega
  rw [Nat.add_comm, Nat.add_mul_div_right _ _ hA, Nat.div_eq_of_lt hy, Nat.zero_add, Nat.mod_eq_of_lt hx]
theorem div_low {x y A B C : Nat} (hB : 0 < B) (h : B * C ∣ A) : (x * A + y) / B % C = y / B % C := by
  obtain ⟨k, rfl⟩ := h
  have : x * (B * C * k) + y = y + (C * k * x) * B := by ring
  rw [this, Nat.add_mul_div_right _ _ hB, Nat.mul_assoc, Nat.add_mul_mod_self_left]
theorem mod_low {x y A C : Nat} (h : C ∣ A) : (x * A + y) % C = y % C := by
  obtain ⟨k, rfl⟩ := h
  rw [show x * (C * k) + y = y + C * (k * x) by ring, Nat.add_mul_mod_self_left]
theorem boolNat_lt (b : Bool) : boolNat b < 2 := by cases b <;> decide
@[simp] theorem boolNat_eq (b : Bool) : (boolNat b == 1) = b := by cases b <;> rfl
theorem Reg.code_lt (r : Reg) : r.code < 1024 := by cases r <;> simp only [Reg.code] <;> omega
@[simp] theorem Reg.ofCode_code (r : Reg) : Reg.ofCode r.code = r := by
  cases r with
  | vz => rfl
  | v n | k n | q n | w n | c n | kc n | rsv n =>
    have := n.isLt
    simp only [Reg.code]
    unfold Reg.ofCode
    repeat' split
    all_goals first
      | omega
      | exact congrArg _ (Fin.ext (by simp only [Nat.add_sub_cancel_left]))
theorem MovW.code_lt (t : MovW) : t.code < 16 := by cases t <;> decide
@[simp] theorem MovW.ofCode_code (t : MovW) : MovW.ofCode t.code = some t := by cases t <;> rfl
theorem IType.code_lt (t : IType) : t.code < 16 := by cases t <;> decide
@[simp] theorem IType.ofCode_code (t : IType) : IType.ofCode t.code = some t := by cases t <;> rfl
theorem FType.code_lt (t : FType) : t.code < 16 := by cases t <;> decide
@[simp] theorem FType.ofCode_code (t : FType) : FType.ofCode t.code = some t := by cases t <;> rfl
theorem Rnd.code_lt (t : Rnd) : t.code < 4 := by cases t <;> decide
@[simp] theorem Rnd.ofCode_code (t : Rnd) : Rnd.ofCode t.code = some t := by cases t <;> rfl
theorem Fmt.code_lt (t : Fmt) : t.code < 16 := by cases t <;> decide
@[simp] theorem Fmt.ofCode_code (t : Fmt) : Fmt.ofCode t.code = some t := by cases t <;> rfl
theorem MulMode.code_lt (t : MulMode) : t.code < 4 := by cases t <;> decide
@[simp] theorem MulMode.ofCode_code (t : MulMode) : MulMode.ofCode t.code = some t := by cases t <;> rfl
theorem Cond.code_lt (t : Cond) : t.code < 8 := by cases t <;> decide
@[simp] theorem Cond.ofCode_code (t : Cond) : Cond.ofCode t.code = some t := by cases t <;> rfl
theorem FCond.code_lt (t : FCond) : t.code < 8 := by cases t <;> decide
@[simp] theorem FCond.ofCode_code (t : FCond) : FCond.ofCode t.code = some t := by cases t <;> rfl
theorem MOrd.code_lt (t : MOrd) : t.code < 4 := by cases t <;> decide
@[simp] theorem MOrd.ofCode_code (t : MOrd) : MOrd.ofCode t.code = some t := by cases t <;> rfl
theorem Scope.code_lt (t : Scope) : t.code < 8 := by cases t <;> decide
@[simp] theorem Scope.ofCode_code (t : Scope) : Scope.ofCode t.code = some t := by cases t <;> rfl
theorem AType.code_lt (t : AType) : t.code < 16 := by cases t <;> decide
@[simp] theorem AType.ofCode_code (t : AType) : AType.ofCode t.code = some t := by cases t <;> rfl
theorem AOp.code_lt (t : AOp) : t.code < 16 := by cases t <;> decide
@[simp] theorem AOp.ofCode_code (t : AOp) : AOp.ofCode t.code = some t := by cases t <;> rfl
theorem PrefHint.code_lt (t : PrefHint) : t.code < 4 := by cases t <;> decide
@[simp] theorem PrefHint.ofCode_code (t : PrefHint) : PrefHint.ofCode t.code = some t := by cases t <;> rfl
theorem ResidHint.code_lt (t : ResidHint) : t.code < 4 := by cases t <;> decide
@[simp] theorem ResidHint.ofCode_code (t : ResidHint) : ResidHint.ofCode t.code = some t := by cases t <;> rfl
theorem CField.code_lt (t : CField) : t.code < 16 := by cases t <;> decide
@[simp] theorem CField.ofCode_code (t : CField) : CField.ofCode t.code = some t := by cases t <;> rfl
theorem CCond.code_lt (t : CCond) : t.code < 8 := by cases t <;> decide
@[simp] theorem CCond.ofCode_code (t : CCond) : CCond.ofCode t.code = some t := by cases t <;> rfl
theorem ShflMode.code_lt (t : ShflMode) : t.code < 4 := by cases t <;> decide
@[simp] theorem ShflMode.ofCode_code (t : ShflMode) : ShflMode.ofCode t.code = some t := by cases t <;> rfl
theorem VoteMode.code_lt (t : VoteMode) : t.code < 4 := by cases t <;> decide
@[simp] theorem VoteMode.ofCode_code (t : VoteMode) : VoteMode.ofCode t.code = some t := by cases t <;> rfl
theorem RdWidth.code_lt (t : RdWidth) : t.code < 4 := by cases t <;> decide
@[simp] theorem RdWidth.ofCode_code (t : RdWidth) : RdWidth.ofCode t.code = some t := by cases t <;> rfl
theorem RankSel.code_lt (t : RankSel) : t.code < 4 := by cases t <;> decide
@[simp] theorem RankSel.ofCode_code (t : RankSel) : RankSel.ofCode t.code = some t := by cases t <;> rfl
theorem RedOp.code_lt (t : RedOp) : t.code < 8 := by cases t <;> decide
@[simp] theorem RedOp.ofCode_code (t : RedOp) : RedOp.ofCode t.code = some t := by cases t <;> rfl
theorem RType.code_lt (t : RType) : t.code < 16 := by cases t <;> decide
@[simp] theorem RType.ofCode_code (t : RType) : RType.ofCode t.code = some t := by cases t <;> rfl
theorem BarMode.code_lt (t : BarMode) : t.code < 4 := by cases t <;> decide
@[simp] theorem BarMode.ofCode_code (t : BarMode) : BarMode.ofCode t.code = some t := by cases t <;> rfl
theorem Semiring.code_lt (t : Semiring) : t.code < 8 := by cases t <;> decide
@[simp] theorem Semiring.ofCode_code (t : Semiring) : Semiring.ofCode t.code = some t := by cases t <;> rfl
theorem RowOp.code_lt (t : RowOp) : t.code < 4 := by cases t <;> decide
@[simp] theorem RowOp.ofCode_code (t : RowOp) : RowOp.ofCode t.code = some t := by cases t <;> rfl
theorem MStatSel.code_lt (t : MStatSel) : t.code < 8 := by cases t <;> decide
@[simp] theorem MStatSel.ofCode_code (t : MStatSel) : MStatSel.ofCode t.code = some t := by cases t <;> rfl
theorem DKind.code_lt (t : DKind) : t.code < 4 := by cases t <;> decide
@[simp] theorem DKind.ofCode_code (t : DKind) : DKind.ofCode t.code = some t := by cases t <;> rfl
theorem CollOp.code_lt (t : CollOp) : t.code < 8 := by cases t <;> decide
@[simp] theorem CollOp.ofCode_code (t : CollOp) : CollOp.ofCode t.code = some t := by cases t <;> rfl
theorem CollRop.code_lt (t : CollRop) : t.code < 16 := by cases t <;> decide
@[simp] theorem CollRop.ofCode_code (t : CollRop) : CollRop.ofCode t.code = some t := by cases t <;> rfl
theorem CollType.code_lt (t : CollType) : t.code < 8 := by cases t <;> decide
@[simp] theorem CollType.ofCode_code (t : CollType) : CollType.ofCode t.code = some t := by cases t <;> rfl
theorem FlushOp.code_lt (t : FlushOp) : t.code < 4 := by cases t <;> decide
@[simp] theorem FlushOp.ofCode_code (t : FlushOp) : FlushOp.ofCode t.code = some t := by cases t <;> rfl
theorem QRole.code_lt (t : QRole) : t.code < 4 := by cases t <;> decide
@[simp] theorem QRole.ofCode_code (t : QRole) : QRole.ofCode t.code = some t := by cases t <;> rfl

@[simp] theorem mkRaw_hdr (op len : Nat) (h : Hdr) (d a b m ext : Nat) (hm : m < 8192) : (mkRaw op len h d a b m ext).hdr = h := by
  obtain ⟨g, n, k, u⟩ := h
  have e : bitsAt (boolNat u * 8192 + m) 13 1 = boolNat u := by
    have := boolNat_lt u
    unfold bitsAt; omega
  simp only [mkRaw, Raw.hdr, e, boolNat_eq]
  congr 1
  · exact Fin.ext (Nat.mod_eq_of_lt g.isLt)
  · exact Fin.ext (Nat.mod_eq_of_lt k.isLt)
@[simp] theorem mkRaw_m (op len : Nat) (h : Hdr) (d a b m ext lo n : Nat) (hl : lo + n ≤ 13) : (mkRaw op len h d a b m ext).m lo n = m / 2 ^ lo % 2 ^ n := by
  simp only [mkRaw, Raw.m, bitsAt]
  exact div_low (Nat.two_pow_pos lo) (by
    rw [← Nat.pow_add]
    exact (Nat.pow_dvd_pow 2 hl).trans (by decide))

section
variable (op len : Nat) (h : Hdr) (d a b m ext : Nat) (x y z : Reg)
@[simp] theorem mkRaw_op : (mkRaw op len h d a b m ext).op = op := rfl
@[simp] theorem mkRaw_len : (mkRaw op len h d a b m ext).len = len := rfl
@[simp] theorem mkRaw_ext : (mkRaw op len h d a b m ext).ext = ext := rfl
@[simp] theorem mkRaw_dst : (mkRaw op len h d a b m ext).dst = d := rfl
@[simp] theorem mkRaw_srca : (mkRaw op len h d a b m ext).srca = a := rfl
@[simp] theorem mkRaw_srcb : (mkRaw op len h d a b m ext).srcb = b := rfl
@[simp] theorem mkRaw_d : (mkRaw op len h x.code a b m ext).d = x := Reg.ofCode_code x
@[simp] theorem mkRaw_a : (mkRaw op len h d x.code b m ext).a = x := Reg.ofCode_code x
@[simp] theorem mkRaw_b : (mkRaw op len h d a x.code m ext).b = x := Reg.ofCode_code x
@[simp] theorem mkRaw_c (k : Nat) : (mkRaw op len h d a b m (extC x.code k)).c = x := by
  have := x.code_lt
  have e : bitsAt (extC x.code k) 0 10 = x.code := by unfold bitsAt extC; omega
  show Reg.ofCode (bitsAt (extC x.code k) 0 10) = x
  rw [e, Reg.ofCode_code]
@[simp] theorem mkRaw_mod2 (k : Nat) (hk : k < 2 ^ 22) : (mkRaw op len h d a b m (extC x.code k)).mod2 = k := by
  have := x.code_lt
  show bitsAt (extC x.code k) 10 22 = k
  unfold bitsAt extC; omega
@[simp] theorem mkRaw_imm32 (i : BitVec 32) : (mkRaw op len h d a b m i.toNat).imm32 = i := by simp [mkRaw, Raw.imm32]
@[simp] theorem mkRaw_imm64 (i : BitVec 64) : (mkRaw op len h d a b m i.toNat).imm64 = i := by simp [mkRaw, Raw.imm64]
end

section
variable (op len : Nat) (h : Hdr) (d a b m ext : Nat)
@[simp] theorem mkRaw_mb (lo : Nat) (hl : lo + 1 ≤ 13) : (mkRaw op len h d a b m ext).mb lo = (m / 2 ^ lo % 2 == 1) := by
  have := mkRaw_m op len h d a b m ext lo 1 hl
  simp only [Raw.m, pow_one] at this
  simp only [Raw.mb, this]
@[simp] theorem mkRaw_mp (lo : Nat) (hl : lo + 3 ≤ 13) : (mkRaw op len h d a b m ext).mp lo = Fin.ofNat 8 (m / 2 ^ lo % 2 ^ 3) := by
  have := mkRaw_m op len h d a b m ext lo 3 hl
  simp only [Raw.m] at this
  simp only [Raw.mp, this]
end
@[simp] theorem qOf_q (q : Fin 16) : qOf (0x340 + q.val) = some q := by
  have := q.isLt
  unfold qOf
  rw [if_pos (by omega)]
  exact congrArg some (Fin.ext (by simp only [Fin.ofNat, Nat.add_sub_cancel_left]; omega))
@[simp] theorem ofNat_val {n : Nat} [NeZero n] (x : Fin n) : Fin.ofNat n x.val = x := Fin.ext (Nat.mod_eq_of_lt x.isLt)
@[simp] theorem mkRaw_imm32N (op len : Nat) (h : Hdr) (d a b m : Nat) (i : BitVec 32) (c e k : Nat) : (mkRaw op len h d a b m (extN i c e k)).imm32 = i := by
  have : extN i c e k = i.toNat + 2 ^ 32 * (c + e * 2 ^ 10 + k * 2 ^ 20) := by unfold extN; omega
  have hi := i.isLt
  apply BitVec.eq_of_toNat_eq
  simp only [Raw.imm32, mkRaw_ext, BitVec.toNat_ofNat]
  rw [this, Nat.add_mul_mod_self_left, Nat.mod_eq_of_lt hi]
@[simp] theorem mkRaw_nc (op len : Nat) (h : Hdr) (d a b m : Nat) (i : BitVec 32) (c : Reg) (e k : Nat) : (mkRaw op len h d a b m (extN i c.code e k)).nc = c := by
  have := i.isLt
  have := c.code_lt
  have q : bitsAt (extN i c.code e k) 32 10 = c.code := by unfold bitsAt extN; omega
  show Reg.ofCode (bitsAt (extN i c.code e k) 32 10) = c
  rw [q, Reg.ofCode_code]
@[simp] theorem mkRaw_nd (op len : Nat) (h : Hdr) (d a b m : Nat) (i : BitVec 32) (c e : Reg) (k : Nat) : (mkRaw op len h d a b m (extN i c.code e.code k)).nd = e := by
  have := i.isLt
  have := c.code_lt
  have := e.code_lt
  have q : bitsAt (extN i c.code e.code k) 42 10 = e.code := by unfold bitsAt extN; omega
  show Reg.ofCode (bitsAt (extN i c.code e.code k) 42 10) = e
  rw [q, Reg.ofCode_code]
@[simp] theorem mkRaw_mod3 (op len : Nat) (h : Hdr) (d a b m : Nat) (i : BitVec 32) (c e k : Nat) (hc : c < 1024) (he : e < 1024) (hk : k < 4096) :
    (mkRaw op len h d a b m (extN i c e k)).mod3 = k := by
  have := i.isLt
  show bitsAt (extN i c e k) 52 12 = k
  unfold bitsAt extN; omega
@[simp] theorem IType.code_b32 : IType.b32.code = 2 := rfl
@[simp] theorem IType.code_i32 : IType.i32.code = 6 := rfl
theorem add_low {K y B C : Nat} (hB : 0 < B) (h : B * C ∣ K) : (K + y) / B % C = y / B % C := by
  obtain ⟨k, rfl⟩ := h
  have : B * C * k + y = y + (C * k) * B := by ring
  rw [this, Nat.add_mul_div_right _ _ hB, Nat.add_mul_mod_self_left]
theorem add_modlow {K y C : Nat} (h : C ∣ K) : (K + y) % C = y % C := by
  obtain ⟨k, rfl⟩ := h
  rw [Nat.add_comm, Nat.add_mul_mod_self_left]
theorem qOf_code_ne (r : Reg) (h : ∀ n, r ≠ .q n) : qOf r.code = none := by
  cases r with
  | q n => exact absurd rfl (h n)
  | vz => rfl
  | v n | k n | w n | c n | kc n | rsv n =>
    have := n.isLt
    exact if_neg (by simp only [Reg.code]; omega)
theorem minReason_zero {a b : Nat} (h : minReason a b = 0) : a = 0 ∧ b = 0 := by
  unfold minReason at h
  split at h
  · exact ⟨by assumption, h⟩
  · split at h
    · exact absurd h (by assumption)
    · omega
theorem wf_use {i : Instr} {h : Hdr} (hh : i.hdr? = some h) (hw : i.WellFormed = true) (o : OpUse) (ho : o ∈ i.operands) : o.reason h.u 1 768 = 0 := by
  simp only [Instr.WellFormed, Instr.staticReason, hh, decide_eq_true_eq] at hw
  have h1 := (minReason_zero hw).1
  unfold Instr.operandReason at h1
  revert ho h1
  generalize i.operands = l
  induction l with
  | nil => exact fun ho => nomatch ho
  | cons x xs ih =>
    intro ho h1
    have := minReason_zero h1
    rcases List.mem_cons.mp ho with e | e
    · rw [e]; exact this.1
    · exact ih e this.2
theorem div_self' {x y A : Nat} (hy : y < A) : (x * A + y) / A = x := by
  have hA : 0 < A := by omega
  rw [Nat.add_comm, Nat.add_mul_div_right _ _ hA, Nat.div_eq_of_lt hy, Nat.zero_add]
theorem mul_low {x A B C : Nat} (hB : 0 < B) (h : B * C ∣ A) : x * A / B % C = 0 := by
  obtain ⟨k, rfl⟩ := h
  have : x * (B * C * k) = (C * k * x) * B := by ring
  rw [this, Nat.mul_div_cancel _ hB, Nat.mul_assoc, Nat.mul_mod_right]
end Sys2Proof
end

