-- ==== Sys2Proof/Laws/Issue.lean ====
section
/-! SUPPORT. What the shared operations of one issue do: writes of a thread's own registers, going on to the next instruction, an issue of several threads that computes results, and the execution of one performer. -/

namespace Sys2Proof.Machine

theorem State.modThr_modThr (s : State) (g t : Nat) (f k : Thread → Thread) :
    (s.modThr g t k).modThr g t f = s.modThr g t fun x => f (k x) := by
  simp only [State.modThr, State.modGrp, Map.modify_modify]

theorem State.modThr_id (s : State) (g t : Nat) : (s.modThr g t fun x => x) = s := by
  simp [State.modThr, State.modGrp, Map.modify_id]

theorem applyWrite_own (s : State) (x : Cx) (w : RegWrite) (h : w.isOwn = true) :
    applyWrite s x w = s.modThr x.gid x.tid w.onThread := by
  cases w with
  | w r a => cases r <;> first | rfl | simp [RegWrite.isOwn] at h
  | c r a => cases r <;> first | rfl | simp [RegWrite.isOwn] at h
  | p i b =>
    by_cases e : i.val = 7
    · have e2 : (RegWrite.p i b).onThread = fun t => t := by funext t; simp [RegWrite.onThread, e]
      rw [e2, State.modThr_id]
      simp [applyWrite, e]
    · have e2 : (RegWrite.p i b).onThread = fun t => { t with p := if b then t.p ||| (1#7 <<< i.val) else t.p &&& ~~~(1#7 <<< i.val) } := by
        funext t; simp [RegWrite.onThread, e]
      rw [e2]
      simp [applyWrite, e]

/-- Own writes of a thread, as one change of the thread. -/
theorem applyWrites_own (s : State) (x : Cx) : (ws : List RegWrite) → ws.all RegWrite.isOwn = true →
    applyWrites s x ws = s.modThr x.gid x.tid (putAll ws)
  | [], _ => by simp only [applyWrites, List.foldl_nil]; exact (State.modThr_id s x.gid x.tid).symm
  | w :: ws, h => by
    simp only [List.all_cons, Bool.and_eq_true] at h
    have e : applyWrites s x (w :: ws) = applyWrites (applyWrite s x w) x ws := rfl
    rw [e, applyWrite_own s x w h.1, applyWrites_own _ x ws h.2, State.modThr_modThr]
    rfl

/-! Several threads of one clan, each changed once. -/

/-- Every lane of a list changes its thread. -/
def eachThr (g b : Nat) (F : Nat → Thread → Thread) (ls : List Nat) (s : State) : State :=
  ls.foldl (fun s l => s.modThr g (b + l) (F l)) s

theorem eachThr_rest (g b : Nat) (F : Nat → Thread → Thread) : (ls : List Nat) → (s : State) → { eachThr g b F ls s with groups := s.groups } = s
  | [], _ => rfl
  | l :: ls, s => by
    have h := eachThr_rest g b F ls (s.modThr g (b + l) (F l))
    have e : eachThr g b F (l :: ls) s = eachThr g b F ls (s.modThr g (b + l) (F l)) := rfl
    rw [e]
    have h2 := congrArg (fun q : State => { q with groups := s.groups }) h
    exact h2

theorem eachThr_grp (g b : Nat) (F : Nat → Thread → Thread) (j : Nat) : (ls : List Nat) → (s : State) →
    { (eachThr g b F ls s).grp j with threads := (s.grp j).threads } = s.grp j
  | [], _ => rfl
  | l :: ls, s => by
    have e : eachThr g b F (l :: ls) s = eachThr g b F ls (s.modThr g (b + l) (F l)) := rfl
    have h := eachThr_grp g b F j ls (s.modThr g (b + l) (F l))
    rw [e]
    have h2 := congrArg (fun q : Group => { q with threads := (s.grp j).threads }) h
    refine Eq.trans h2 ?_
    have h3 := State.grp_modThr_keep (fun q => { q with threads := (s.grp j).threads }) s g (b + l) j (F l) (fun _ _ => rfl)
    exact h3

theorem eachThr_other (g b : Nat) (F : Nat → Thread → Thread) (j u : Nat) : (ls : List Nat) → (s : State) → (j ≠ g ∨ ∀ l ∈ ls, u ≠ b + l) →
    (eachThr g b F ls s).thr j u = s.thr j u
  | [], _, _ => rfl
  | l :: ls, s, h => by
    have e : eachThr g b F (l :: ls) s = eachThr g b F ls (s.modThr g (b + l) (F l)) := rfl
    rw [e, eachThr_other g b F j u ls _ (h.imp id fun h' k hk => h' k (List.mem_cons_of_mem _ hk)),
      State.thr_modThr_other s (F l) (h.imp id fun h' => h' l (List.mem_cons_self ..))]

theorem eachThr_self (g b : Nat) (F : Nat → Thread → Thread) (k : Nat) : (ls : List Nat) → (s : State) → ls.Nodup → k ∈ ls →
    (Map.get? (b + k) (s.grp g).threads).isSome → (eachThr g b F ls s).thr g (b + k) = F k (s.thr g (b + k))
  | [], _, _, h, _ => by simp at h
  | l :: ls, s, hn, hk, hp => by
    have e : eachThr g b F (l :: ls) s = eachThr g b F ls (s.modThr g (b + l) (F l)) := rfl
    rw [e]
    have hn' := List.nodup_cons.1 hn
    rcases List.mem_cons.1 hk with rfl | hk'
    · rw [eachThr_other g b F g (b + k) ls _ (Or.inr fun m hm => by rintro h; exact hn'.1 ((Nat.add_left_cancel h) ▸ hm)),
        State.thr_modThr_self _ hp]
    · have hne : k ≠ l := fun h => hn'.1 (h ▸ hk')
      rw [eachThr_self g b F k ls _ hn'.2 hk' (by rw [State.listed_modThr]; exact hp),
        State.thr_modThr_other s (F l) (Or.inr (by omega))]

theorem eachThr_listed (g b : Nat) (F : Nat → Thread → Thread) (j u : Nat) : (ls : List Nat) → (s : State) →
    (Map.get? u ((eachThr g b F ls s).grp j).threads).isSome = (Map.get? u (s.grp j).threads).isSome
  | [], _ => rfl
  | l :: ls, s => by
    have e : eachThr g b F (l :: ls) s = eachThr g b F ls (s.modThr g (b + l) (F l)) := rfl
    rw [e, eachThr_listed g b F j u ls, State.listed_modThr]

theorem eachThr_cur (g b : Nat) (F : Nat → Thread → Thread) : (ls : List Nat) → (s : State) → (eachThr g b F ls s).cur = s.cur
  | [], _ => rfl
  | l :: ls, s => by
    have e : eachThr g b F (l :: ls) s = eachThr g b F ls (s.modThr g (b + l) (F l)) := rfl
    rw [e, eachThr_cur g b F ls, State.modThr_cur]

/-! An issue that computes. -/

/-- Own results of one thread, and on. -/
theorem retire_own (s : State) (c : Cur) (hc : s.cur = some c) (g b l : Nat) (u : Bool) (ws : List RegWrite) (hw : ws.all RegWrite.isOwn = true) :
    retire s ⟨⟨g, b, l⟩, [l], u, none⟩ ws = s.modThr g (b * 32 + l) fun t => (putAll ws t).advance c.foot := by
  simp only [retire, advanceActor, applyActor, Actor.cxs, List.map_cons, List.map_nil, List.foldl_cons, List.foldl_nil,
    applyWrites_own _ _ ws hw, footOf, State.modThr_cur, hc, Option.map_some, Option.getD_some, advance, State.modThr_modThr, Cx.tid]

theorem noFault (s : State) (as : List Actor) : firstFault (noCheck s) as = none := by
  have h : as.findSome? (noCheck s) = none := by
    induction as with
    | nil => rfl
    | cons a as ih => simp [List.findSome?, noCheck]
  simp [firstFault, h]

/-- An issue whose threads each change by themselves (R6, R8, R19). -/
theorem perThread_eachThr {s : State} {c : Cur} {h : Hdr} (hc : s.cur = some c) (F : Cx → Thread → Thread) (eff : State → State → Actor → State)
    (he : ∀ st l, l ∈ c.lanes → st.cur = some c → eff s st ⟨⟨c.gid, c.clan, l⟩, [l], false, none⟩ = st.modThr c.gid (c.clan * 32 + l) (F ⟨c.gid, c.clan, l⟩)) :
    perThread h s noCheck eff =
      eachThr c.gid (c.clan * 32) (fun l => F ⟨c.gid, c.clan, l⟩)
        (c.lanes.filter fun l => (s.thr c.gid (c.clan * 32 + l)).guard h)
        (eachThr c.gid (c.clan * 32) (fun _ t => t.advance c.foot)
          (c.lanes.filter fun l => !(s.thr c.gid (c.clan * 32 + l)).guard h) s) := by
  simp only [perThread, hc, noFault]
  have e1 : ∀ ls (s : State), ls.foldl (fun s l => advance s ⟨c.gid, c.clan, l⟩ c.foot) s = eachThr c.gid (c.clan * 32) (fun _ t => t.advance c.foot) ls s :=
    fun _ _ => rfl
  rw [e1]
  have hcur := eachThr_cur c.gid (c.clan * 32) (fun _ t => t.advance c.foot) (c.lanes.filter fun l => !(s.thr c.gid (c.clan * 32 + l)).guard h) s
  generalize eachThr c.gid (c.clan * 32) (fun _ t => t.advance c.foot) (c.lanes.filter fun l => !(s.thr c.gid (c.clan * 32 + l)).guard h) s = s1 at hcur ⊢
  rw [hc] at hcur
  have hin : ∀ l ∈ (c.lanes.filter fun l => (s.thr c.gid (c.clan * 32 + l)).guard h), l ∈ c.lanes := fun l hl => List.mem_of_mem_filter hl
  generalize (c.lanes.filter fun l => (s.thr c.gid (c.clan * 32 + l)).guard h) = ls at hin
  induction ls generalizing s1 with
  | nil => rfl
  | cons l ls ih =>
    simp only [List.map_cons, List.foldl_cons]
    rw [he s1 l (hin l (List.mem_cons_self ..)) hcur, ih _ (by rw [State.modThr_cur]; exact hcur) fun k hk => hin k (List.mem_cons_of_mem _ hk)]
    rfl

/-- What an issue whose threads each change by themselves leaves behind, in every thread and everywhere else. -/
theorem perThread_each {s : State} {c : Cur} {h : Hdr} (hi : Issues s c) (F : Cx → Thread → Thread) (eff : State → State → Actor → State)
    (he : ∀ st l, l ∈ c.lanes → st.cur = some c → eff s st ⟨⟨c.gid, c.clan, l⟩, [l], false, none⟩ = st.modThr c.gid (c.clan * 32 + l) (F ⟨c.gid, c.clan, l⟩)) :
    EachThread s (perThread h s noCheck eff) c h F := by
  rw [perThread_eachThr hi.1 F eff he]
  obtain ⟨hc, hn, hp⟩ := hi
  refine ⟨?_, ?_, ?_, ?_⟩
  · intro l hl
    by_cases hg : (s.thr c.gid (c.clan * 32 + l)).guard h
    · have hoff : ∀ m ∈ c.lanes.filter (fun l => !(s.thr c.gid (c.clan * 32 + l)).guard h), c.clan * 32 + l ≠ c.clan * 32 + m := by
        intro m hm e
        have e' : l = m := by omega
        subst e'
        simp [hg] at hm
      rw [eachThr_self _ _ _ l _ _ (hn.filter _) (by simp [hl, hg]) (by rw [eachThr_listed]; exact hp l hl),
        eachThr_other _ _ _ _ _ _ _ (Or.inr hoff)]
      simp [hg]
    · have hon : ∀ m ∈ c.lanes.filter (fun l => (s.thr c.gid (c.clan * 32 + l)).guard h), c.clan * 32 + l ≠ c.clan * 32 + m := by
        intro m hm e
        have e' : l = m := by omega
        subst e'
        simp [hg] at hm
      rw [eachThr_other _ _ _ _ _ _ _ (Or.inr hon), eachThr_self _ _ _ l _ _ (hn.filter _) (by simp [hl, hg]) (hp l hl)]
      simp [hg]
  · intro g u hgu
    have hsub : ∀ p : Nat → Bool, g ≠ c.gid ∨ ∀ l ∈ c.lanes.filter p, u ≠ c.clan * 32 + l := fun p =>
      hgu.imp id fun h' l hl => h' l (List.mem_of_mem_filter hl)
    rw [eachThr_other _ _ _ _ _ _ _ (hsub _), eachThr_other _ _ _ _ _ _ _ (hsub _)]
  · intro g
    exact (congrArg (fun q : Group => { q with threads := (s.grp g).threads }) (eachThr_grp _ _ _ g _ _)).trans (eachThr_grp _ _ _ g _ s)
  · exact (congrArg (fun q : State => { q with groups := s.groups }) (eachThr_rest _ _ _ _ _)).trans (eachThr_rest _ _ _ _ s)

/-! One performer. -/

/-- An issue of one thread, or of a formed set, whose check passes has its effect once. -/
theorem issue_performs {s s0 : State} {h : Hdr} {a : Actor} (hp : Performs s h s0 a)
    (check : State → Actor → Option FaultInfo) (eff : State → State → Actor → State) (hc : check s0 a = none) :
    issue h s check eff = eff s0 s0 a := by
  rcases hp with ⟨hu, ⟨c, e1, e2, e3, e4⟩, rfl⟩ | ⟨hu, c, g, e1, e2, e3, e4, e5, e6, e7⟩
  · simp only [issue, hu, Bool.false_eq_true, if_false, perThread, e1, e2]
    have hx : a.cx = ⟨c.gid, c.clan, a.cx.lane⟩ := congrArg Actor.cx e3
    have ht : a.cx.tid = c.clan * 32 + a.cx.lane := by rw [hx]; rfl
    have hg : a.cx.gid = c.gid := by rw [hx]
    rw [hg, ht] at e4
    have hf : firstFault (check s0) [⟨⟨c.gid, c.clan, a.cx.lane⟩, [a.cx.lane], false, none⟩] = none := by
      rw [← e3]; simp [firstFault, hc]
    simp only [List.filter_cons, e4, if_true, List.filter_nil, List.map_cons, List.map_nil, hf, Bool.not_true, Bool.false_eq_true,
      if_false, List.foldl_nil, List.foldl_cons]
    rw [← e3]
  · simp only [issue, hu, if_true, gathering, e1, e2, e3, Option.getD_some, runSet, Bool.false_and]
    rw [← e4, ← e5, e6, e7, hc]
    simp

/-- A formed set of a gathering instruction acts once when its check passes. -/
theorem gathering_formed {s s0 : State} {full : Bool} {a : Actor} (hp : Gathers full s s0 a) (h : Hdr) (mask : State → Cx → BitVec 32)
    (check : State → Actor → Option FaultInfo) (eff : State → State → Actor → State) (hc : check s0 a = none) :
    gathering h s mask full check eff = eff s0 s0 a := by
  obtain ⟨⟨c, g, e1, e2, e3, e4, e5, e6, e7⟩, hfull⟩ := hp
  simp only [gathering, e1, e2, if_true, e3, Option.getD_some, runSet]
  rw [← e4, ← e5, e6, e7, hc]
  rcases hfull with rfl | ⟨c', g', h1, h2, h3⟩
  · simp
  · rw [e1] at h1
    obtain rfl := Option.some.inj h1
    rw [e4] at h2
    have hg : g' = g := (Option.some.inj (congrArg Actor.g h2)).symm
    subst hg
    simp [h3]

/-- An issue of one thread whose check passes has its effect for it. -/
theorem perThread_solo {s : State} {h : Hdr} {a : Actor} (hp : Solo s h a)
    (check : State → Actor → Option FaultInfo) (eff : State → State → Actor → State) (hc : check s a = none) :
    perThread h s check eff = eff s s a := by
  have := issue_performs (h := { h with u := false }) (s0 := s) (Or.inl ⟨rfl, hp, rfl⟩) check eff hc
  exact this

end Sys2Proof.Machine
end

