-- ==== Sys2Proof/Laws/PerInstr.lean ====
section
/-! SUPPORT. Per instruction: the raw word that the encoder gives a well-formed instruction is read back as that instruction. -/

set_option linter.unusedSimpArgs false
set_option linter.unusedVariables false
set_option Elab.async false

namespace Sys2Proof.Laws

/-- The fields of the encoder's word are read back as the instruction they were written from. -/
def Fields.Statement (i : Instr) : Prop := i.WellFormed = true → Machine.assigned i = true → ∀ r, toRaw i = some r → parse r = some (Machine.rowOfWord i)

theorem Fields.nop (h : Hdr) : Fields.Statement (.nop h) := by
  intro hw _ r hr
  obtain rfl := (Option.some.inj hr).symm
  simp (disch := omega) [parse, parse0, Machine.rowOfWord, modT, modF, Raw.bil, Raw.bi, Raw.memOp, Raw.hintOp, Raw.objOps, Raw.msgOps, Raw.mloc, MemOp.mod, objRaw, msgRaw, Nat.mod_eq_of_lt, Nat.add_assoc, div_top, div_low, mod_low, div_self', mul_low, bitsAt]
theorem Fields.mov (h : Hdr) (t : MovW) (d a : Reg) : Fields.Statement (.mov h t d a) := by
  intro hw _ r hr
  obtain rfl := (Option.some.inj hr).symm
  have := t.code_lt
  have hd : qOf d.code = none := qOf_code_ne d fun n e => by
    have := wf_use rfl hw (.dest h d (t == .b64)) (List.mem_cons_self ..)
    subst e; cases e2 : h.u <;> simp [OpUse.reason, OpUse.dest, e2] at this
  have ha : qOf a.code = none := qOf_code_ne a fun n e => by
    have := wf_use rfl hw (.src a (t == .b64)) (List.mem_cons_of_mem _ (List.mem_cons_self ..))
    subst e; simp [OpUse.reason, OpUse.src] at this
  simp (disch := omega) [parse, parse0, Machine.rowOfWord, modT, modF, Raw.bil, Raw.bi, Raw.memOp, Raw.hintOp, Raw.objOps, Raw.msgOps, Raw.mloc, MemOp.mod, objRaw, msgRaw, Nat.mod_eq_of_lt, Nat.add_assoc, div_top, div_low, mod_low, div_self', mul_low, bitsAt, hd, ha]
theorem Fields.movPush (h : Hdr) (t : MovW) (q : Fin 16) (a : Reg) (nb : Bool) (nbp : Pred) : Fields.Statement (.movPush h t q a nb nbp) := by
  intro hw _ r hr
  obtain rfl := (Option.some.inj hr).symm
  have := t.code_lt
  have := q.isLt
  have := a.code_lt
  have := boolNat_lt nb
  have := nbp.isLt
  simp (disch := omega) [parse, parse0, Machine.rowOfWord, modT, modF, Raw.bil, Raw.bi, Raw.memOp, Raw.hintOp, Raw.objOps, Raw.msgOps, Raw.mloc, MemOp.mod, objRaw, msgRaw, Nat.mod_eq_of_lt, Nat.add_assoc, div_top, div_low, mod_low, div_self', mul_low, bitsAt]
theorem Fields.movPop (h : Hdr) (t : MovW) (d : Reg) (q : Fin 16) (nb : Bool) (nbp : Pred) : Fields.Statement (.movPop h t d q nb nbp) := by
  intro hw _ r hr
  obtain rfl := (Option.some.inj hr).symm
  have := t.code_lt
  have := boolNat_lt nb
  have := nbp.isLt
  have hd : qOf d.code = none := qOf_code_ne d fun n e => by
    have := wf_use rfl hw (movSide h t d true) (List.mem_cons_self ..)
    subst e; cases t <;> cases e2 : h.u <;> simp [movSide, OpUse.reason, OpUse.dest, e2] at this
  simp (disch := omega) [parse, parse0, Machine.rowOfWord, modT, modF, Raw.bil, Raw.bi, Raw.memOp, Raw.hintOp, Raw.objOps, Raw.msgOps, Raw.mloc, MemOp.mod, objRaw, msgRaw, Nat.mod_eq_of_lt, Nat.add_assoc, div_top, div_low, mod_low, div_self', mul_low, bitsAt, hd]
theorem Fields.moviI (h : Hdr) (t : IType) (d : Reg) (imm : BitVec 32) : Fields.Statement (.moviI h t d imm) := by
  intro hw _ r hr
  obtain rfl := (Option.some.inj hr).symm
  have := t.code_lt
  have := d.code_lt
  have := imm.isLt
  simp (disch := omega) [parse, parse0, Machine.rowOfWord, modT, modF, Raw.bil, Raw.bi, Raw.memOp, Raw.hintOp, Raw.objOps, Raw.msgOps, Raw.mloc, MemOp.mod, objRaw, msgRaw, Nat.mod_eq_of_lt, Nat.add_assoc, div_top, div_low, mod_low, div_self', mul_low, bitsAt]
theorem Fields.moviL (h : Hdr) (t : IType) (d : Reg) (imm : BitVec 64) : Fields.Statement (.moviL h t d imm) := by
  intro hw _ r hr
  obtain rfl := (Option.some.inj hr).symm
  have := t.code_lt
  have := d.code_lt
  have := imm.isLt
  simp (disch := omega) [parse, parse0, Machine.rowOfWord, modT, modF, Raw.bil, Raw.bi, Raw.memOp, Raw.hintOp, Raw.objOps, Raw.msgOps, Raw.mloc, MemOp.mod, objRaw, msgRaw, Nat.mod_eq_of_lt, Nat.add_assoc, div_top, div_low, mod_low, div_self', mul_low, bitsAt]
theorem Fields.selB (h : Hdr) (t : IType) (d a b : Reg) (ps : Pred) (pneg : Bool) : Fields.Statement (.selB h t d a b ps pneg) := by
  intro hw _ r hr
  obtain rfl := (Option.some.inj hr).symm
  have := t.code_lt
  have := d.code_lt
  have := a.code_lt
  have := b.code_lt
  have := ps.isLt
  have := boolNat_lt pneg
  simp (disch := omega) [parse, parse0, Machine.rowOfWord, modT, modF, Raw.bil, Raw.bi, Raw.memOp, Raw.hintOp, Raw.objOps, Raw.msgOps, Raw.mloc, MemOp.mod, objRaw, msgRaw, Nat.mod_eq_of_lt, Nat.add_assoc, div_top, div_low, mod_low, div_self', mul_low, bitsAt]
theorem Fields.selI (h : Hdr) (t : IType) (d a : Reg) (imm : BitVec 32) (ps : Pred) (pneg : Bool) : Fields.Statement (.selI h t d a imm ps pneg) := by
  intro hw _ r hr
  obtain rfl := (Option.some.inj hr).symm
  have := t.code_lt
  have := d.code_lt
  have := a.code_lt
  have := imm.isLt
  have := ps.isLt
  have := boolNat_lt pneg
  simp (disch := omega) [parse, parse0, Machine.rowOfWord, modT, modF, Raw.bil, Raw.bi, Raw.memOp, Raw.hintOp, Raw.objOps, Raw.msgOps, Raw.mloc, MemOp.mod, objRaw, msgRaw, Nat.mod_eq_of_lt, Nat.add_assoc, div_top, div_low, mod_low, div_self', mul_low, bitsAt]
theorem Fields.iaddB (h : Hdr) (t : IType) (d a b : Reg) : Fields.Statement (.iaddB h t d a b) := by
  intro hw _ r hr
  obtain rfl := (Option.some.inj hr).symm
  have := t.code_lt
  have := d.code_lt
  have := a.code_lt
  have := b.code_lt
  simp (disch := omega) [parse, parse0, Machine.rowOfWord, modT, modF, Raw.bil, Raw.bi, Raw.memOp, Raw.hintOp, Raw.objOps, Raw.msgOps, Raw.mloc, MemOp.mod, objRaw, msgRaw, Nat.mod_eq_of_lt, Nat.add_assoc, div_top, div_low, mod_low, div_self', mul_low, bitsAt]
theorem Fields.iaddI (h : Hdr) (t : IType) (d a : Reg) (imm : BitVec 32) : Fields.Statement (.iaddI h t d a imm) := by
  intro hw _ r hr
  obtain rfl := (Option.some.inj hr).symm
  have := t.code_lt
  have := d.code_lt
  have := a.code_lt
  have := imm.isLt
  simp (disch := omega) [parse, parse0, Machine.rowOfWord, modT, modF, Raw.bil, Raw.bi, Raw.memOp, Raw.hintOp, Raw.objOps, Raw.msgOps, Raw.mloc, MemOp.mod, objRaw, msgRaw, Nat.mod_eq_of_lt, Nat.add_assoc, div_top, div_low, mod_low, div_self', mul_low, bitsAt]
theorem Fields.iaddL (h : Hdr) (t : IType) (d a : Reg) (imm : BitVec 64) : Fields.Statement (.iaddL h t d a imm) := by
  intro hw _ r hr
  obtain rfl := (Option.some.inj hr).symm
  have := t.code_lt
  have := d.code_lt
  have := a.code_lt
  have := imm.isLt
  simp (disch := omega) [parse, parse0, Machine.rowOfWord, modT, modF, Raw.bil, Raw.bi, Raw.memOp, Raw.hintOp, Raw.objOps, Raw.msgOps, Raw.mloc, MemOp.mod, objRaw, msgRaw, Nat.mod_eq_of_lt, Nat.add_assoc, div_top, div_low, mod_low, div_self', mul_low, bitsAt]
theorem Fields.isubB (h : Hdr) (t : IType) (d a b : Reg) : Fields.Statement (.isubB h t d a b) := by
  intro hw _ r hr
  obtain rfl := (Option.some.inj hr).symm
  have := t.code_lt
  have := d.code_lt
  have := a.code_lt
  have := b.code_lt
  simp (disch := omega) [parse, parse0, Machine.rowOfWord, modT, modF, Raw.bil, Raw.bi, Raw.memOp, Raw.hintOp, Raw.objOps, Raw.msgOps, Raw.mloc, MemOp.mod, objRaw, msgRaw, Nat.mod_eq_of_lt, Nat.add_assoc, div_top, div_low, mod_low, div_self', mul_low, bitsAt]
theorem Fields.isubI (h : Hdr) (t : IType) (d a : Reg) (imm : BitVec 32) : Fields.Statement (.isubI h t d a imm) := by
  intro hw _ r hr
  obtain rfl := (Option.some.inj hr).symm
  have := t.code_lt
  have := d.code_lt
  have := a.code_lt
  have := imm.isLt
  simp (disch := omega) [parse, parse0, Machine.rowOfWord, modT, modF, Raw.bil, Raw.bi, Raw.memOp, Raw.hintOp, Raw.objOps, Raw.msgOps, Raw.mloc, MemOp.mod, objRaw, msgRaw, Nat.mod_eq_of_lt, Nat.add_assoc, div_top, div_low, mod_low, div_self', mul_low, bitsAt]
theorem Fields.isubL (h : Hdr) (t : IType) (d a : Reg) (imm : BitVec 64) : Fields.Statement (.isubL h t d a imm) := by
  intro hw _ r hr
  obtain rfl := (Option.some.inj hr).symm
  have := t.code_lt
  have := d.code_lt
  have := a.code_lt
  have := imm.isLt
  simp (disch := omega) [parse, parse0, Machine.rowOfWord, modT, modF, Raw.bil, Raw.bi, Raw.memOp, Raw.hintOp, Raw.objOps, Raw.msgOps, Raw.mloc, MemOp.mod, objRaw, msgRaw, Nat.mod_eq_of_lt, Nat.add_assoc, div_top, div_low, mod_low, div_self', mul_low, bitsAt]
theorem Fields.iaddcB (h : Hdr) (t : IType) (d a b : Reg) (cinp : Pred) (cinen : Bool) (coutp : Pred) : Fields.Statement (.iaddcB h t d a b cinp cinen coutp) := by
  intro hw _ r hr
  obtain rfl := (Option.some.inj hr).symm
  have := t.code_lt
  have := d.code_lt
  have := a.code_lt
  have := b.code_lt
  have := cinp.isLt
  have := boolNat_lt cinen
  have := coutp.isLt
  simp (disch := omega) [parse, parse0, Machine.rowOfWord, modT, modF, Raw.bil, Raw.bi, Raw.memOp, Raw.hintOp, Raw.objOps, Raw.msgOps, Raw.mloc, MemOp.mod, objRaw, msgRaw, Nat.mod_eq_of_lt, Nat.add_assoc, div_top, div_low, mod_low, div_self', mul_low, bitsAt]
theorem Fields.iaddcI (h : Hdr) (t : IType) (d a : Reg) (imm : BitVec 32) (cinp : Pred) (cinen : Bool) (coutp : Pred) : Fields.Statement (.iaddcI h t d a imm cinp cinen coutp) := by
  intro hw _ r hr
  obtain rfl := (Option.some.inj hr).symm
  have := t.code_lt
  have := d.code_lt
  have := a.code_lt
  have := imm.isLt
  have := cinp.isLt
  have := boolNat_lt cinen
  have := coutp.isLt
  simp (disch := omega) [parse, parse0, Machine.rowOfWord, modT, modF, Raw.bil, Raw.bi, Raw.memOp, Raw.hintOp, Raw.objOps, Raw.msgOps, Raw.mloc, MemOp.mod, objRaw, msgRaw, Nat.mod_eq_of_lt, Nat.add_assoc, div_top, div_low, mod_low, div_self', mul_low, bitsAt]
theorem Fields.imulB (h : Hdr) (t : IType) (m : MulMode) (d a b : Reg) : Fields.Statement (.imulB h t m d a b) := by
  intro hw _ r hr
  obtain rfl := (Option.some.inj hr).symm
  have := t.code_lt
  have := m.code_lt
  have := d.code_lt
  have := a.code_lt
  have := b.code_lt
  simp (disch := omega) [parse, parse0, Machine.rowOfWord, modT, modF, Raw.bil, Raw.bi, Raw.memOp, Raw.hintOp, Raw.objOps, Raw.msgOps, Raw.mloc, MemOp.mod, objRaw, msgRaw, Nat.mod_eq_of_lt, Nat.add_assoc, div_top, div_low, mod_low, div_self', mul_low, bitsAt]
theorem Fields.imulI (h : Hdr) (t : IType) (m : MulMode) (d a : Reg) (imm : BitVec 32) : Fields.Statement (.imulI h t m d a imm) := by
  intro hw _ r hr
  obtain rfl := (Option.some.inj hr).symm
  have := t.code_lt
  have := m.code_lt
  have := d.code_lt
  have := a.code_lt
  have := imm.isLt
  simp (disch := omega) [parse, parse0, Machine.rowOfWord, modT, modF, Raw.bil, Raw.bi, Raw.memOp, Raw.hintOp, Raw.objOps, Raw.msgOps, Raw.mloc, MemOp.mod, objRaw, msgRaw, Nat.mod_eq_of_lt, Nat.add_assoc, div_top, div_low, mod_low, div_self', mul_low, bitsAt]
theorem Fields.imulL (h : Hdr) (t : IType) (m : MulMode) (d a : Reg) (imm : BitVec 64) : Fields.Statement (.imulL h t m d a imm) := by
  intro hw _ r hr
  obtain rfl := (Option.some.inj hr).symm
  have := t.code_lt
  have := m.code_lt
  have := d.code_lt
  have := a.code_lt
  have := imm.isLt
  simp (disch := omega) [parse, parse0, Machine.rowOfWord, modT, modF, Raw.bil, Raw.bi, Raw.memOp, Raw.hintOp, Raw.objOps, Raw.msgOps, Raw.mloc, MemOp.mod, objRaw, msgRaw, Nat.mod_eq_of_lt, Nat.add_assoc, div_top, div_low, mod_low, div_self', mul_low, bitsAt]
theorem Fields.imad (h : Hdr) (t : IType) (m : MulMode) (d a b c : Reg) : Fields.Statement (.imad h t m d a b c) := by
  intro hw _ r hr
  obtain rfl := (Option.some.inj hr).symm
  have := t.code_lt
  have := m.code_lt
  have := d.code_lt
  have := a.code_lt
  have := b.code_lt
  have := c.code_lt
  simp (disch := omega) [parse, parse0, Machine.rowOfWord, modT, modF, Raw.bil, Raw.bi, Raw.memOp, Raw.hintOp, Raw.objOps, Raw.msgOps, Raw.mloc, MemOp.mod, objRaw, msgRaw, Nat.mod_eq_of_lt, Nat.add_assoc, div_top, div_low, mod_low, div_self', mul_low, bitsAt]
theorem Fields.idivB (h : Hdr) (t : IType) (d a b : Reg) : Fields.Statement (.idivB h t d a b) := by
  intro hw _ r hr
  obtain rfl := (Option.some.inj hr).symm
  have := t.code_lt
  have := d.code_lt
  have := a.code_lt
  have := b.code_lt
  simp (disch := omega) [parse, parse0, Machine.rowOfWord, modT, modF, Raw.bil, Raw.bi, Raw.memOp, Raw.hintOp, Raw.objOps, Raw.msgOps, Raw.mloc, MemOp.mod, objRaw, msgRaw, Nat.mod_eq_of_lt, Nat.add_assoc, div_top, div_low, mod_low, div_self', mul_low, bitsAt]
theorem Fields.idivI (h : Hdr) (t : IType) (d a : Reg) (imm : BitVec 32) : Fields.Statement (.idivI h t d a imm) := by
  intro hw _ r hr
  obtain rfl := (Option.some.inj hr).symm
  have := t.code_lt
  have := d.code_lt
  have := a.code_lt
  have := imm.isLt
  simp (disch := omega) [parse, parse0, Machine.rowOfWord, modT, modF, Raw.bil, Raw.bi, Raw.memOp, Raw.hintOp, Raw.objOps, Raw.msgOps, Raw.mloc, MemOp.mod, objRaw, msgRaw, Nat.mod_eq_of_lt, Nat.add_assoc, div_top, div_low, mod_low, div_self', mul_low, bitsAt]
theorem Fields.iremB (h : Hdr) (t : IType) (d a b : Reg) : Fields.Statement (.iremB h t d a b) := by
  intro hw _ r hr
  obtain rfl := (Option.some.inj hr).symm
  have := t.code_lt
  have := d.code_lt
  have := a.code_lt
  have := b.code_lt
  simp (disch := omega) [parse, parse0, Machine.rowOfWord, modT, modF, Raw.bil, Raw.bi, Raw.memOp, Raw.hintOp, Raw.objOps, Raw.msgOps, Raw.mloc, MemOp.mod, objRaw, msgRaw, Nat.mod_eq_of_lt, Nat.add_assoc, div_top, div_low, mod_low, div_self', mul_low, bitsAt]
theorem Fields.iremI (h : Hdr) (t : IType) (d a : Reg) (imm : BitVec 32) : Fields.Statement (.iremI h t d a imm) := by
  intro hw _ r hr
  obtain rfl := (Option.some.inj hr).symm
  have := t.code_lt
  have := d.code_lt
  have := a.code_lt
  have := imm.isLt
  simp (disch := omega) [parse, parse0, Machine.rowOfWord, modT, modF, Raw.bil, Raw.bi, Raw.memOp, Raw.hintOp, Raw.objOps, Raw.msgOps, Raw.mloc, MemOp.mod, objRaw, msgRaw, Nat.mod_eq_of_lt, Nat.add_assoc, div_top, div_low, mod_low, div_self', mul_low, bitsAt]
theorem Fields.iminB (h : Hdr) (t : IType) (d a b : Reg) : Fields.Statement (.iminB h t d a b) := by
  intro hw _ r hr
  obtain rfl := (Option.some.inj hr).symm
  have := t.code_lt
  have := d.code_lt
  have := a.code_lt
  have := b.code_lt
  simp (disch := omega) [parse, parse0, Machine.rowOfWord, modT, modF, Raw.bil, Raw.bi, Raw.memOp, Raw.hintOp, Raw.objOps, Raw.msgOps, Raw.mloc, MemOp.mod, objRaw, msgRaw, Nat.mod_eq_of_lt, Nat.add_assoc, div_top, div_low, mod_low, div_self', mul_low, bitsAt]
theorem Fields.iminI (h : Hdr) (t : IType) (d a : Reg) (imm : BitVec 32) : Fields.Statement (.iminI h t d a imm) := by
  intro hw _ r hr
  obtain rfl := (Option.some.inj hr).symm
  have := t.code_lt
  have := d.code_lt
  have := a.code_lt
  have := imm.isLt
  simp (disch := omega) [parse, parse0, Machine.rowOfWord, modT, modF, Raw.bil, Raw.bi, Raw.memOp, Raw.hintOp, Raw.objOps, Raw.msgOps, Raw.mloc, MemOp.mod, objRaw, msgRaw, Nat.mod_eq_of_lt, Nat.add_assoc, div_top, div_low, mod_low, div_self', mul_low, bitsAt]
theorem Fields.imaxB (h : Hdr) (t : IType) (d a b : Reg) : Fields.Statement (.imaxB h t d a b) := by
  intro hw _ r hr
  obtain rfl := (Option.some.inj hr).symm
  have := t.code_lt
  have := d.code_lt
  have := a.code_lt
  have := b.code_lt
  simp (disch := omega) [parse, parse0, Machine.rowOfWord, modT, modF, Raw.bil, Raw.bi, Raw.memOp, Raw.hintOp, Raw.objOps, Raw.msgOps, Raw.mloc, MemOp.mod, objRaw, msgRaw, Nat.mod_eq_of_lt, Nat.add_assoc, div_top, div_low, mod_low, div_self', mul_low, bitsAt]
theorem Fields.imaxI (h : Hdr) (t : IType) (d a : Reg) (imm : BitVec 32) : Fields.Statement (.imaxI h t d a imm) := by
  intro hw _ r hr
  obtain rfl := (Option.some.inj hr).symm
  have := t.code_lt
  have := d.code_lt
  have := a.code_lt
  have := imm.isLt
  simp (disch := omega) [parse, parse0, Machine.rowOfWord, modT, modF, Raw.bil, Raw.bi, Raw.memOp, Raw.hintOp, Raw.objOps, Raw.msgOps, Raw.mloc, MemOp.mod, objRaw, msgRaw, Nat.mod_eq_of_lt, Nat.add_assoc, div_top, div_low, mod_low, div_self', mul_low, bitsAt]
theorem Fields.iabs (h : Hdr) (t : IType) (d a : Reg) : Fields.Statement (.iabs h t d a) := by
  intro hw _ r hr
  obtain rfl := (Option.some.inj hr).symm
  have := t.code_lt
  have := d.code_lt
  have := a.code_lt
  simp (disch := omega) [parse, parse0, Machine.rowOfWord, modT, modF, Raw.bil, Raw.bi, Raw.memOp, Raw.hintOp, Raw.objOps, Raw.msgOps, Raw.mloc, MemOp.mod, objRaw, msgRaw, Nat.mod_eq_of_lt, Nat.add_assoc, div_top, div_low, mod_low, div_self', mul_low, bitsAt]
theorem Fields.ineg (h : Hdr) (t : IType) (d a : Reg) : Fields.Statement (.ineg h t d a) := by
  intro hw _ r hr
  obtain rfl := (Option.some.inj hr).symm
  have := t.code_lt
  have := d.code_lt
  have := a.code_lt
  simp (disch := omega) [parse, parse0, Machine.rowOfWord, modT, modF, Raw.bil, Raw.bi, Raw.memOp, Raw.hintOp, Raw.objOps, Raw.msgOps, Raw.mloc, MemOp.mod, objRaw, msgRaw, Nat.mod_eq_of_lt, Nat.add_assoc, div_top, div_low, mod_low, div_self', mul_low, bitsAt]
theorem Fields.isad (h : Hdr) (t : IType) (d a b c : Reg) : Fields.Statement (.isad h t d a b c) := by
  intro hw _ r hr
  obtain rfl := (Option.some.inj hr).symm
  have := t.code_lt
  have := d.code_lt
  have := a.code_lt
  have := b.code_lt
  have := c.code_lt
  simp (disch := omega) [parse, parse0, Machine.rowOfWord, modT, modF, Raw.bil, Raw.bi, Raw.memOp, Raw.hintOp, Raw.objOps, Raw.msgOps, Raw.mloc, MemOp.mod, objRaw, msgRaw, Nat.mod_eq_of_lt, Nat.add_assoc, div_top, div_low, mod_low, div_self', mul_low, bitsAt]
theorem Fields.idot4 (h : Hdr) (asgn bsgn : Bool) (d a b c : Reg) : Fields.Statement (.idot4 h asgn bsgn d a b c) := by
  intro hw _ r hr
  obtain rfl := (Option.some.inj hr).symm
  have := boolNat_lt asgn
  have := boolNat_lt bsgn
  simp (disch := omega) [parse, parse0, Machine.rowOfWord, modT, modF, Raw.bil, Raw.bi, Raw.memOp, Raw.hintOp, Raw.objOps, Raw.msgOps, Raw.mloc, MemOp.mod, objRaw, msgRaw, Nat.mod_eq_of_lt, Nat.add_assoc, div_top, div_low, mod_low, div_self', mul_low, bitsAt, add_low, add_modlow]
theorem Fields.icmpB (h : Hdr) (t : IType) (cond : Cond) (pd pc : Pred) (a b : Reg) : Fields.Statement (.icmpB h t cond pd pc a b) := by
  intro hw _ r hr
  obtain rfl := (Option.some.inj hr).symm
  have := t.code_lt
  have := cond.code_lt
  have := pd.isLt
  have := pc.isLt
  have := a.code_lt
  have := b.code_lt
  simp (disch := omega) [parse, parse0, Machine.rowOfWord, modT, modF, Raw.bil, Raw.bi, Raw.memOp, Raw.hintOp, Raw.objOps, Raw.msgOps, Raw.mloc, MemOp.mod, objRaw, msgRaw, Nat.mod_eq_of_lt, Nat.add_assoc, div_top, div_low, mod_low, div_self', mul_low, bitsAt]
theorem Fields.icmpI (h : Hdr) (t : IType) (cond : Cond) (pd pc : Pred) (a : Reg) (imm : BitVec 32) : Fields.Statement (.icmpI h t cond pd pc a imm) := by
  intro hw _ r hr
  obtain rfl := (Option.some.inj hr).symm
  have := t.code_lt
  have := cond.code_lt
  have := pd.isLt
  have := pc.isLt
  have := a.code_lt
  have := imm.isLt
  simp (disch := omega) [parse, parse0, Machine.rowOfWord, modT, modF, Raw.bil, Raw.bi, Raw.memOp, Raw.hintOp, Raw.objOps, Raw.msgOps, Raw.mloc, MemOp.mod, objRaw, msgRaw, Nat.mod_eq_of_lt, Nat.add_assoc, div_top, div_low, mod_low, div_self', mul_low, bitsAt]
theorem Fields.icmpL (h : Hdr) (t : IType) (cond : Cond) (pd pc : Pred) (a : Reg) (imm : BitVec 64) : Fields.Statement (.icmpL h t cond pd pc a imm) := by
  intro hw _ r hr
  obtain rfl := (Option.some.inj hr).symm
  have := t.code_lt
  have := cond.code_lt
  have := pd.isLt
  have := pc.isLt
  have := a.code_lt
  have := imm.isLt
  simp (disch := omega) [parse, parse0, Machine.rowOfWord, modT, modF, Raw.bil, Raw.bi, Raw.memOp, Raw.hintOp, Raw.objOps, Raw.msgOps, Raw.mloc, MemOp.mod, objRaw, msgRaw, Nat.mod_eq_of_lt, Nat.add_assoc, div_top, div_low, mod_low, div_self', mul_low, bitsAt]
theorem Fields.andB (h : Hdr) (t : IType) (d a b : Reg) : Fields.Statement (.andB h t d a b) := by
  intro hw _ r hr
  obtain rfl := (Option.some.inj hr).symm
  have := t.code_lt
  have := d.code_lt
  have := a.code_lt
  have := b.code_lt
  simp (disch := omega) [parse, parse0, Machine.rowOfWord, modT, modF, Raw.bil, Raw.bi, Raw.memOp, Raw.hintOp, Raw.objOps, Raw.msgOps, Raw.mloc, MemOp.mod, objRaw, msgRaw, Nat.mod_eq_of_lt, Nat.add_assoc, div_top, div_low, mod_low, div_self', mul_low, bitsAt]
theorem Fields.andI (h : Hdr) (t : IType) (d a : Reg) (imm : BitVec 32) : Fields.Statement (.andI h t d a imm) := by
  intro hw _ r hr
  obtain rfl := (Option.some.inj hr).symm
  have := t.code_lt
  have := d.code_lt
  have := a.code_lt
  have := imm.isLt
  simp (disch := omega) [parse, parse0, Machine.rowOfWord, modT, modF, Raw.bil, Raw.bi, Raw.memOp, Raw.hintOp, Raw.objOps, Raw.msgOps, Raw.mloc, MemOp.mod, objRaw, msgRaw, Nat.mod_eq_of_lt, Nat.add_assoc, div_top, div_low, mod_low, div_self', mul_low, bitsAt]
theorem Fields.andL (h : Hdr) (t : IType) (d a : Reg) (imm : BitVec 64) : Fields.Statement (.andL h t d a imm) := by
  intro hw _ r hr
  obtain rfl := (Option.some.inj hr).symm
  have := t.code_lt
  have := d.code_lt
  have := a.code_lt
  have := imm.isLt
  simp (disch := omega) [parse, parse0, Machine.rowOfWord, modT, modF, Raw.bil, Raw.bi, Raw.memOp, Raw.hintOp, Raw.objOps, Raw.msgOps, Raw.mloc, MemOp.mod, objRaw, msgRaw, Nat.mod_eq_of_lt, Nat.add_assoc, div_top, div_low, mod_low, div_self', mul_low, bitsAt]
theorem Fields.orB (h : Hdr) (t : IType) (d a b : Reg) : Fields.Statement (.orB h t d a b) := by
  intro hw _ r hr
  obtain rfl := (Option.some.inj hr).symm
  have := t.code_lt
  have := d.code_lt
  have := a.code_lt
  have := b.code_lt
  simp (disch := omega) [parse, parse0, Machine.rowOfWord, modT, modF, Raw.bil, Raw.bi, Raw.memOp, Raw.hintOp, Raw.objOps, Raw.msgOps, Raw.mloc, MemOp.mod, objRaw, msgRaw, Nat.mod_eq_of_lt, Nat.add_assoc, div_top, div_low, mod_low, div_self', mul_low, bitsAt]
theorem Fields.orI (h : Hdr) (t : IType) (d a : Reg) (imm : BitVec 32) : Fields.Statement (.orI h t d a imm) := by
  intro hw _ r hr
  obtain rfl := (Option.some.inj hr).symm
  have := t.code_lt
  have := d.code_lt
  have := a.code_lt
  have := imm.isLt
  simp (disch := omega) [parse, parse0, Machine.rowOfWord, modT, modF, Raw.bil, Raw.bi, Raw.memOp, Raw.hintOp, Raw.objOps, Raw.msgOps, Raw.mloc, MemOp.mod, objRaw, msgRaw, Nat.mod_eq_of_lt, Nat.add_assoc, div_top, div_low, mod_low, div_self', mul_low, bitsAt]
theorem Fields.orL (h : Hdr) (t : IType) (d a : Reg) (imm : BitVec 64) : Fields.Statement (.orL h t d a imm) := by
  intro hw _ r hr
  obtain rfl := (Option.some.inj hr).symm
  have := t.code_lt
  have := d.code_lt
  have := a.code_lt
  have := imm.isLt
  simp (disch := omega) [parse, parse0, Machine.rowOfWord, modT, modF, Raw.bil, Raw.bi, Raw.memOp, Raw.hintOp, Raw.objOps, Raw.msgOps, Raw.mloc, MemOp.mod, objRaw, msgRaw, Nat.mod_eq_of_lt, Nat.add_assoc, div_top, div_low, mod_low, div_self', mul_low, bitsAt]
theorem Fields.xorB (h : Hdr) (t : IType) (d a b : Reg) : Fields.Statement (.xorB h t d a b) := by
  intro hw _ r hr
  obtain rfl := (Option.some.inj hr).symm
  have := t.code_lt
  have := d.code_lt
  have := a.code_lt
  have := b.code_lt
  simp (disch := omega) [parse, parse0, Machine.rowOfWord, modT, modF, Raw.bil, Raw.bi, Raw.memOp, Raw.hintOp, Raw.objOps, Raw.msgOps, Raw.mloc, MemOp.mod, objRaw, msgRaw, Nat.mod_eq_of_lt, Nat.add_assoc, div_top, div_low, mod_low, div_self', mul_low, bitsAt]
theorem Fields.xorI (h : Hdr) (t : IType) (d a : Reg) (imm : BitVec 32) : Fields.Statement (.xorI h t d a imm) := by
  intro hw _ r hr
  obtain rfl := (Option.some.inj hr).symm
  have := t.code_lt
  have := d.code_lt
  have := a.code_lt
  have := imm.isLt
  simp (disch := omega) [parse, parse0, Machine.rowOfWord, modT, modF, Raw.bil, Raw.bi, Raw.memOp, Raw.hintOp, Raw.objOps, Raw.msgOps, Raw.mloc, MemOp.mod, objRaw, msgRaw, Nat.mod_eq_of_lt, Nat.add_assoc, div_top, div_low, mod_low, div_self', mul_low, bitsAt]
theorem Fields.xorL (h : Hdr) (t : IType) (d a : Reg) (imm : BitVec 64) : Fields.Statement (.xorL h t d a imm) := by
  intro hw _ r hr
  obtain rfl := (Option.some.inj hr).symm
  have := t.code_lt
  have := d.code_lt
  have := a.code_lt
  have := imm.isLt
  simp (disch := omega) [parse, parse0, Machine.rowOfWord, modT, modF, Raw.bil, Raw.bi, Raw.memOp, Raw.hintOp, Raw.objOps, Raw.msgOps, Raw.mloc, MemOp.mod, objRaw, msgRaw, Nat.mod_eq_of_lt, Nat.add_assoc, div_top, div_low, mod_low, div_self', mul_low, bitsAt]
theorem Fields.not (h : Hdr) (t : IType) (d a : Reg) : Fields.Statement (.not h t d a) := by
  intro hw _ r hr
  obtain rfl := (Option.some.inj hr).symm
  have := t.code_lt
  have := d.code_lt
  have := a.code_lt
  simp (disch := omega) [parse, parse0, Machine.rowOfWord, modT, modF, Raw.bil, Raw.bi, Raw.memOp, Raw.hintOp, Raw.objOps, Raw.msgOps, Raw.mloc, MemOp.mod, objRaw, msgRaw, Nat.mod_eq_of_lt, Nat.add_assoc, div_top, div_low, mod_low, div_self', mul_low, bitsAt]
theorem Fields.lut3 (h : Hdr) (t : IType) (tt : BitVec 8) (d a b c : Reg) : Fields.Statement (.lut3 h t tt d a b c) := by
  intro hw _ r hr
  obtain rfl := (Option.some.inj hr).symm
  have := t.code_lt
  have := tt.isLt
  have := d.code_lt
  have := a.code_lt
  have := b.code_lt
  have := c.code_lt
  simp (disch := omega) [parse, parse0, Machine.rowOfWord, modT, modF, Raw.bil, Raw.bi, Raw.memOp, Raw.hintOp, Raw.objOps, Raw.msgOps, Raw.mloc, MemOp.mod, objRaw, msgRaw, Nat.mod_eq_of_lt, Nat.add_assoc, div_top, div_low, mod_low, div_self', mul_low, bitsAt]
theorem Fields.shlB (h : Hdr) (t : IType) (wrap : Bool) (d a s : Reg) : Fields.Statement (.shlB h t wrap d a s) := by
  intro hw _ r hr
  obtain rfl := (Option.some.inj hr).symm
  have := t.code_lt
  have := boolNat_lt wrap
  have := d.code_lt
  have := a.code_lt
  have := s.code_lt
  simp (disch := omega) [parse, parse0, Machine.rowOfWord, modT, modF, Raw.bil, Raw.bi, Raw.memOp, Raw.hintOp, Raw.objOps, Raw.msgOps, Raw.mloc, MemOp.mod, objRaw, msgRaw, Nat.mod_eq_of_lt, Nat.add_assoc, div_top, div_low, mod_low, div_self', mul_low, bitsAt]
theorem Fields.shlI (h : Hdr) (t : IType) (wrap : Bool) (d a : Reg) (imm : BitVec 32) : Fields.Statement (.shlI h t wrap d a imm) := by
  intro hw _ r hr
  obtain rfl := (Option.some.inj hr).symm
  have := t.code_lt
  have := boolNat_lt wrap
  have := d.code_lt
  have := a.code_lt
  have := imm.isLt
  simp (disch := omega) [parse, parse0, Machine.rowOfWord, modT, modF, Raw.bil, Raw.bi, Raw.memOp, Raw.hintOp, Raw.objOps, Raw.msgOps, Raw.mloc, MemOp.mod, objRaw, msgRaw, Nat.mod_eq_of_lt, Nat.add_assoc, div_top, div_low, mod_low, div_self', mul_low, bitsAt]
theorem Fields.shrB (h : Hdr) (t : IType) (wrap : Bool) (d a s : Reg) : Fields.Statement (.shrB h t wrap d a s) := by
  intro hw _ r hr
  obtain rfl := (Option.some.inj hr).symm
  have := t.code_lt
  have := boolNat_lt wrap
  have := d.code_lt
  have := a.code_lt
  have := s.code_lt
  simp (disch := omega) [parse, parse0, Machine.rowOfWord, modT, modF, Raw.bil, Raw.bi, Raw.memOp, Raw.hintOp, Raw.objOps, Raw.msgOps, Raw.mloc, MemOp.mod, objRaw, msgRaw, Nat.mod_eq_of_lt, Nat.add_assoc, div_top, div_low, mod_low, div_self', mul_low, bitsAt]
theorem Fields.shrI (h : Hdr) (t : IType) (wrap : Bool) (d a : Reg) (imm : BitVec 32) : Fields.Statement (.shrI h t wrap d a imm) := by
  intro hw _ r hr
  obtain rfl := (Option.some.inj hr).symm
  have := t.code_lt
  have := boolNat_lt wrap
  have := d.code_lt
  have := a.code_lt
  have := imm.isLt
  simp (disch := omega) [parse, parse0, Machine.rowOfWord, modT, modF, Raw.bil, Raw.bi, Raw.memOp, Raw.hintOp, Raw.objOps, Raw.msgOps, Raw.mloc, MemOp.mod, objRaw, msgRaw, Nat.mod_eq_of_lt, Nat.add_assoc, div_top, div_low, mod_low, div_self', mul_low, bitsAt]
theorem Fields.sarB (h : Hdr) (t : IType) (wrap : Bool) (d a s : Reg) : Fields.Statement (.sarB h t wrap d a s) := by
  intro hw _ r hr
  obtain rfl := (Option.some.inj hr).symm
  have := t.code_lt
  have := boolNat_lt wrap
  have := d.code_lt
  have := a.code_lt
  have := s.code_lt
  simp (disch := omega) [parse, parse0, Machine.rowOfWord, modT, modF, Raw.bil, Raw.bi, Raw.memOp, Raw.hintOp, Raw.objOps, Raw.msgOps, Raw.mloc, MemOp.mod, objRaw, msgRaw, Nat.mod_eq_of_lt, Nat.add_assoc, div_top, div_low, mod_low, div_self', mul_low, bitsAt]
theorem Fields.sarI (h : Hdr) (t : IType) (wrap : Bool) (d a : Reg) (imm : BitVec 32) : Fields.Statement (.sarI h t wrap d a imm) := by
  intro hw _ r hr
  obtain rfl := (Option.some.inj hr).symm
  have := t.code_lt
  have := boolNat_lt wrap
  have := d.code_lt
  have := a.code_lt
  have := imm.isLt
  simp (disch := omega) [parse, parse0, Machine.rowOfWord, modT, modF, Raw.bil, Raw.bi, Raw.memOp, Raw.hintOp, Raw.objOps, Raw.msgOps, Raw.mloc, MemOp.mod, objRaw, msgRaw, Nat.mod_eq_of_lt, Nat.add_assoc, div_top, div_low, mod_low, div_self', mul_low, bitsAt]
theorem Fields.fshl (h : Hdr) (t : IType) (d a b s : Reg) : Fields.Statement (.fshl h t d a b s) := by
  intro hw _ r hr
  obtain rfl := (Option.some.inj hr).symm
  have := t.code_lt
  have := d.code_lt
  have := a.code_lt
  have := b.code_lt
  have := s.code_lt
  simp (disch := omega) [parse, parse0, Machine.rowOfWord, modT, modF, Raw.bil, Raw.bi, Raw.memOp, Raw.hintOp, Raw.objOps, Raw.msgOps, Raw.mloc, MemOp.mod, objRaw, msgRaw, Nat.mod_eq_of_lt, Nat.add_assoc, div_top, div_low, mod_low, div_self', mul_low, bitsAt]
theorem Fields.fshr (h : Hdr) (t : IType) (d a b s : Reg) : Fields.Statement (.fshr h t d a b s) := by
  intro hw _ r hr
  obtain rfl := (Option.some.inj hr).symm
  have := t.code_lt
  have := d.code_lt
  have := a.code_lt
  have := b.code_lt
  have := s.code_lt
  simp (disch := omega) [parse, parse0, Machine.rowOfWord, modT, modF, Raw.bil, Raw.bi, Raw.memOp, Raw.hintOp, Raw.objOps, Raw.msgOps, Raw.mloc, MemOp.mod, objRaw, msgRaw, Nat.mod_eq_of_lt, Nat.add_assoc, div_top, div_low, mod_low, div_self', mul_low, bitsAt]
theorem Fields.popc (h : Hdr) (t : IType) (d a : Reg) : Fields.Statement (.popc h t d a) := by
  intro hw _ r hr
  obtain rfl := (Option.some.inj hr).symm
  have := t.code_lt
  have := d.code_lt
  have := a.code_lt
  simp (disch := omega) [parse, parse0, Machine.rowOfWord, modT, modF, Raw.bil, Raw.bi, Raw.memOp, Raw.hintOp, Raw.objOps, Raw.msgOps, Raw.mloc, MemOp.mod, objRaw, msgRaw, Nat.mod_eq_of_lt, Nat.add_assoc, div_top, div_low, mod_low, div_self', mul_low, bitsAt]
theorem Fields.clz (h : Hdr) (t : IType) (d a : Reg) : Fields.Statement (.clz h t d a) := by
  intro hw _ r hr
  obtain rfl := (Option.some.inj hr).symm
  have := t.code_lt
  have := d.code_lt
  have := a.code_lt
  simp (disch := omega) [parse, parse0, Machine.rowOfWord, modT, modF, Raw.bil, Raw.bi, Raw.memOp, Raw.hintOp, Raw.objOps, Raw.msgOps, Raw.mloc, MemOp.mod, objRaw, msgRaw, Nat.mod_eq_of_lt, Nat.add_assoc, div_top, div_low, mod_low, div_self', mul_low, bitsAt]
theorem Fields.ctz (h : Hdr) (t : IType) (d a : Reg) : Fields.Statement (.ctz h t d a) := by
  intro hw _ r hr
  obtain rfl := (Option.some.inj hr).symm
  have := t.code_lt
  have := d.code_lt
  have := a.code_lt
  simp (disch := omega) [parse, parse0, Machine.rowOfWord, modT, modF, Raw.bil, Raw.bi, Raw.memOp, Raw.hintOp, Raw.objOps, Raw.msgOps, Raw.mloc, MemOp.mod, objRaw, msgRaw, Nat.mod_eq_of_lt, Nat.add_assoc, div_top, div_low, mod_low, div_self', mul_low, bitsAt]
theorem Fields.brev (h : Hdr) (t : IType) (d a : Reg) : Fields.Statement (.brev h t d a) := by
  intro hw _ r hr
  obtain rfl := (Option.some.inj hr).symm
  have := t.code_lt
  have := d.code_lt
  have := a.code_lt
  simp (disch := omega) [parse, parse0, Machine.rowOfWord, modT, modF, Raw.bil, Raw.bi, Raw.memOp, Raw.hintOp, Raw.objOps, Raw.msgOps, Raw.mloc, MemOp.mod, objRaw, msgRaw, Nat.mod_eq_of_lt, Nat.add_assoc, div_top, div_low, mod_low, div_self', mul_low, bitsAt]
theorem Fields.bfx (h : Hdr) (t : IType) (d a pos len : Reg) : Fields.Statement (.bfx h t d a pos len) := by
  intro hw _ r hr
  obtain rfl := (Option.some.inj hr).symm
  have := t.code_lt
  have := d.code_lt
  have := a.code_lt
  have := pos.code_lt
  have := len.code_lt
  simp (disch := omega) [parse, parse0, Machine.rowOfWord, modT, modF, Raw.bil, Raw.bi, Raw.memOp, Raw.hintOp, Raw.objOps, Raw.msgOps, Raw.mloc, MemOp.mod, objRaw, msgRaw, Nat.mod_eq_of_lt, Nat.add_assoc, div_top, div_low, mod_low, div_self', mul_low, bitsAt]
theorem Fields.bfi (h : Hdr) (t : IType) (d a b ctl : Reg) : Fields.Statement (.bfi h t d a b ctl) := by
  intro hw _ r hr
  obtain rfl := (Option.some.inj hr).symm
  have := t.code_lt
  have := d.code_lt
  have := a.code_lt
  have := b.code_lt
  have := ctl.code_lt
  simp (disch := omega) [parse, parse0, Machine.rowOfWord, modT, modF, Raw.bil, Raw.bi, Raw.memOp, Raw.hintOp, Raw.objOps, Raw.msgOps, Raw.mloc, MemOp.mod, objRaw, msgRaw, Nat.mod_eq_of_lt, Nat.add_assoc, div_top, div_low, mod_low, div_self', mul_low, bitsAt]
theorem Fields.bpermB (h : Hdr) (d a sel : Reg) : Fields.Statement (.bpermB h d a sel) := by
  intro hw _ r hr
  obtain rfl := (Option.some.inj hr).symm
  have := d.code_lt
  have := a.code_lt
  have := sel.code_lt
  simp (disch := omega) [parse, parse0, Machine.rowOfWord, modT, modF, Raw.bil, Raw.bi, Raw.memOp, Raw.hintOp, Raw.objOps, Raw.msgOps, Raw.mloc, MemOp.mod, objRaw, msgRaw, Nat.mod_eq_of_lt, Nat.add_assoc, div_top, div_low, mod_low, div_self', mul_low, bitsAt]
theorem Fields.bpermI (h : Hdr) (d a : Reg) (imm : BitVec 32) : Fields.Statement (.bpermI h d a imm) := by
  intro hw _ r hr
  obtain rfl := (Option.some.inj hr).symm
  have := d.code_lt
  have := a.code_lt
  have := imm.isLt
  simp (disch := omega) [parse, parse0, Machine.rowOfWord, modT, modF, Raw.bil, Raw.bi, Raw.memOp, Raw.hintOp, Raw.objOps, Raw.msgOps, Raw.mloc, MemOp.mod, objRaw, msgRaw, Nat.mod_eq_of_lt, Nat.add_assoc, div_top, div_low, mod_low, div_self', mul_low, bitsAt]
theorem Fields.plut (h : Hdr) (pd pa pb pc : Pred) (tt : BitVec 8) : Fields.Statement (.plut h pd pa pb pc tt) := by
  intro hw _ r hr
  obtain rfl := (Option.some.inj hr).symm
  have := pd.isLt
  have := pa.isLt
  have := pb.isLt
  have := pc.isLt
  have := tt.isLt
  simp (disch := omega) [parse, parse0, Machine.rowOfWord, modT, modF, Raw.bil, Raw.bi, Raw.memOp, Raw.hintOp, Raw.objOps, Raw.msgOps, Raw.mloc, MemOp.mod, objRaw, msgRaw, Nat.mod_eq_of_lt, Nat.add_assoc, div_top, div_low, mod_low, div_self', mul_low, bitsAt]
theorem Fields.p2v (h : Hdr) (d : Reg) : Fields.Statement (.p2v h d) := by
  intro hw _ r hr
  obtain rfl := (Option.some.inj hr).symm
  have := d.code_lt
  simp (disch := omega) [parse, parse0, Machine.rowOfWord, modT, modF, Raw.bil, Raw.bi, Raw.memOp, Raw.hintOp, Raw.objOps, Raw.msgOps, Raw.mloc, MemOp.mod, objRaw, msgRaw, Nat.mod_eq_of_lt, Nat.add_assoc, div_top, div_low, mod_low, div_self', mul_low, bitsAt]
theorem Fields.v2p (h : Hdr) (a : Reg) (mask : BitVec 7) : Fields.Statement (.v2p h a mask) := by
  intro hw _ r hr
  obtain rfl := (Option.some.inj hr).symm
  have := a.code_lt
  have := mask.isLt
  simp (disch := omega) [parse, parse0, Machine.rowOfWord, modT, modF, Raw.bil, Raw.bi, Raw.memOp, Raw.hintOp, Raw.objOps, Raw.msgOps, Raw.mloc, MemOp.mod, objRaw, msgRaw, Nat.mod_eq_of_lt, Nat.add_assoc, div_top, div_low, mod_low, div_self', mul_low, bitsAt]
theorem Fields.faddB (h : Hdr) (t : FType) (r : Rnd) (ftz : Bool) (d a b : Reg) : Fields.Statement (.faddB h t r ftz d a b) := by
  intro hw _ r hr
  obtain rfl := (Option.some.inj hr).symm
  have := t.code_lt
  have := r.code_lt
  have := boolNat_lt ftz
  have := d.code_lt
  have := a.code_lt
  have := b.code_lt
  simp (disch := omega) [parse, parse1, Machine.rowOfWord, modT, modF, Raw.bil, Raw.bi, Raw.memOp, Raw.hintOp, Raw.objOps, Raw.msgOps, Raw.mloc, MemOp.mod, objRaw, msgRaw, Nat.mod_eq_of_lt, Nat.add_assoc, div_top, div_low, mod_low, div_self', mul_low, bitsAt]
theorem Fields.faddI (h : Hdr) (t : FType) (r : Rnd) (ftz : Bool) (d a : Reg) (imm : BitVec 32) : Fields.Statement (.faddI h t r ftz d a imm) := by
  intro hw _ r hr
  obtain rfl := (Option.some.inj hr).symm
  have := t.code_lt
  have := r.code_lt
  have := boolNat_lt ftz
  have := d.code_lt
  have := a.code_lt
  have := imm.isLt
  simp (disch := omega) [parse, parse1, Machine.rowOfWord, modT, modF, Raw.bil, Raw.bi, Raw.memOp, Raw.hintOp, Raw.objOps, Raw.msgOps, Raw.mloc, MemOp.mod, objRaw, msgRaw, Nat.mod_eq_of_lt, Nat.add_assoc, div_top, div_low, mod_low, div_self', mul_low, bitsAt]
theorem Fields.faddL (h : Hdr) (t : FType) (r : Rnd) (ftz : Bool) (d a : Reg) (imm : BitVec 64) : Fields.Statement (.faddL h t r ftz d a imm) := by
  intro hw _ r hr
  obtain rfl := (Option.some.inj hr).symm
  have := t.code_lt
  have := r.code_lt
  have := boolNat_lt ftz
  have := d.code_lt
  have := a.code_lt
  have := imm.isLt
  simp (disch := omega) [parse, parse1, Machine.rowOfWord, modT, modF, Raw.bil, Raw.bi, Raw.memOp, Raw.hintOp, Raw.objOps, Raw.msgOps, Raw.mloc, MemOp.mod, objRaw, msgRaw, Nat.mod_eq_of_lt, Nat.add_assoc, div_top, div_low, mod_low, div_self', mul_low, bitsAt]
theorem Fields.fsubB (h : Hdr) (t : FType) (r : Rnd) (ftz : Bool) (d a b : Reg) : Fields.Statement (.fsubB h t r ftz d a b) := by
  intro hw _ r hr
  obtain rfl := (Option.some.inj hr).symm
  have := t.code_lt
  have := r.code_lt
  have := boolNat_lt ftz
  have := d.code_lt
  have := a.code_lt
  have := b.code_lt
  simp (disch := omega) [parse, parse1, Machine.rowOfWord, modT, modF, Raw.bil, Raw.bi, Raw.memOp, Raw.hintOp, Raw.objOps, Raw.msgOps, Raw.mloc, MemOp.mod, objRaw, msgRaw, Nat.mod_eq_of_lt, Nat.add_assoc, div_top, div_low, mod_low, div_self', mul_low, bitsAt]
theorem Fields.fsubI (h : Hdr) (t : FType) (r : Rnd) (ftz : Bool) (d a : Reg) (imm : BitVec 32) : Fields.Statement (.fsubI h t r ftz d a imm) := by
  intro hw _ r hr
  obtain rfl := (Option.some.inj hr).symm
  have := t.code_lt
  have := r.code_lt
  have := boolNat_lt ftz
  have := d.code_lt
  have := a.code_lt
  have := imm.isLt
  simp (disch := omega) [parse, parse1, Machine.rowOfWord, modT, modF, Raw.bil, Raw.bi, Raw.memOp, Raw.hintOp, Raw.objOps, Raw.msgOps, Raw.mloc, MemOp.mod, objRaw, msgRaw, Nat.mod_eq_of_lt, Nat.add_assoc, div_top, div_low, mod_low, div_self', mul_low, bitsAt]
theorem Fields.fsubL (h : Hdr) (t : FType) (r : Rnd) (ftz : Bool) (d a : Reg) (imm : BitVec 64) : Fields.Statement (.fsubL h t r ftz d a imm) := by
  intro hw _ r hr
  obtain rfl := (Option.some.inj hr).symm
  have := t.code_lt
  have := r.code_lt
  have := boolNat_lt ftz
  have := d.code_lt
  have := a.code_lt
  have := imm.isLt
  simp (disch := omega) [parse, parse1, Machine.rowOfWord, modT, modF, Raw.bil, Raw.bi, Raw.memOp, Raw.hintOp, Raw.objOps, Raw.msgOps, Raw.mloc, MemOp.mod, objRaw, msgRaw, Nat.mod_eq_of_lt, Nat.add_assoc, div_top, div_low, mod_low, div_self', mul_low, bitsAt]
theorem Fields.fmulB (h : Hdr) (t : FType) (r : Rnd) (ftz : Bool) (d a b : Reg) : Fields.Statement (.fmulB h t r ftz d a b) := by
  intro hw _ r hr
  obtain rfl := (Option.some.inj hr).symm
  have := t.code_lt
  have := r.code_lt
  have := boolNat_lt ftz
  have := d.code_lt
  have := a.code_lt
  have := b.code_lt
  simp (disch := omega) [parse, parse1, Machine.rowOfWord, modT, modF, Raw.bil, Raw.bi, Raw.memOp, Raw.hintOp, Raw.objOps, Raw.msgOps, Raw.mloc, MemOp.mod, objRaw, msgRaw, Nat.mod_eq_of_lt, Nat.add_assoc, div_top, div_low, mod_low, div_self', mul_low, bitsAt]
theorem Fields.fmulI (h : Hdr) (t : FType) (r : Rnd) (ftz : Bool) (d a : Reg) (imm : BitVec 32) : Fields.Statement (.fmulI h t r ftz d a imm) := by
  intro hw _ r hr
  obtain rfl := (Option.some.inj hr).symm
  have := t.code_lt
  have := r.code_lt
  have := boolNat_lt ftz
  have := d.code_lt
  have := a.code_lt
  have := imm.isLt
  simp (disch := omega) [parse, parse1, Machine.rowOfWord, modT, modF, Raw.bil, Raw.bi, Raw.memOp, Raw.hintOp, Raw.objOps, Raw.msgOps, Raw.mloc, MemOp.mod, objRaw, msgRaw, Nat.mod_eq_of_lt, Nat.add_assoc, div_top, div_low, mod_low, div_self', mul_low, bitsAt]
theorem Fields.fmulL (h : Hdr) (t : FType) (r : Rnd) (ftz : Bool) (d a : Reg) (imm : BitVec 64) : Fields.Statement (.fmulL h t r ftz d a imm) := by
  intro hw _ r hr
  obtain rfl := (Option.some.inj hr).symm
  have := t.code_lt
  have := r.code_lt
  have := boolNat_lt ftz
  have := d.code_lt
  have := a.code_lt
  have := imm.isLt
  simp (disch := omega) [parse, parse1, Machine.rowOfWord, modT, modF, Raw.bil, Raw.bi, Raw.memOp, Raw.hintOp, Raw.objOps, Raw.msgOps, Raw.mloc, MemOp.mod, objRaw, msgRaw, Nat.mod_eq_of_lt, Nat.add_assoc, div_top, div_low, mod_low, div_self', mul_low, bitsAt]
theorem Fields.ffma (h : Hdr) (t : FType) (r : Rnd) (ftz : Bool) (d a b c : Reg) : Fields.Statement (.ffma h t r ftz d a b c) := by
  intro hw _ r hr
  obtain rfl := (Option.some.inj hr).symm
  have := t.code_lt
  have := r.code_lt
  have := boolNat_lt ftz
  have := d.code_lt
  have := a.code_lt
  have := b.code_lt
  have := c.code_lt
  simp (disch := omega) [parse, parse1, Machine.rowOfWord, modT, modF, Raw.bil, Raw.bi, Raw.memOp, Raw.hintOp, Raw.objOps, Raw.msgOps, Raw.mloc, MemOp.mod, objRaw, msgRaw, Nat.mod_eq_of_lt, Nat.add_assoc, div_top, div_low, mod_low, div_self', mul_low, bitsAt]
theorem Fields.fminB (h : Hdr) (t : FType) (ftz : Bool) (d a b : Reg) : Fields.Statement (.fminB h t ftz d a b) := by
  intro hw _ r hr
  obtain rfl := (Option.some.inj hr).symm
  have := t.code_lt
  have := boolNat_lt ftz
  have := d.code_lt
  have := a.code_lt
  have := b.code_lt
  simp (disch := omega) [parse, parse1, Machine.rowOfWord, modT, modF, Raw.bil, Raw.bi, Raw.memOp, Raw.hintOp, Raw.objOps, Raw.msgOps, Raw.mloc, MemOp.mod, objRaw, msgRaw, Nat.mod_eq_of_lt, Nat.add_assoc, div_top, div_low, mod_low, div_self', mul_low, bitsAt]
theorem Fields.fminI (h : Hdr) (t : FType) (ftz : Bool) (d a : Reg) (imm : BitVec 32) : Fields.Statement (.fminI h t ftz d a imm) := by
  intro hw _ r hr
  obtain rfl := (Option.some.inj hr).symm
  have := t.code_lt
  have := boolNat_lt ftz
  have := d.code_lt
  have := a.code_lt
  have := imm.isLt
  simp (disch := omega) [parse, parse1, Machine.rowOfWord, modT, modF, Raw.bil, Raw.bi, Raw.memOp, Raw.hintOp, Raw.objOps, Raw.msgOps, Raw.mloc, MemOp.mod, objRaw, msgRaw, Nat.mod_eq_of_lt, Nat.add_assoc, div_top, div_low, mod_low, div_self', mul_low, bitsAt]
theorem Fields.fmaxB (h : Hdr) (t : FType) (ftz : Bool) (d a b : Reg) : Fields.Statement (.fmaxB h t ftz d a b) := by
  intro hw _ r hr
  obtain rfl := (Option.some.inj hr).symm
  have := t.code_lt
  have := boolNat_lt ftz
  have := d.code_lt
  have := a.code_lt
  have := b.code_lt
  simp (disch := omega) [parse, parse1, Machine.rowOfWord, modT, modF, Raw.bil, Raw.bi, Raw.memOp, Raw.hintOp, Raw.objOps, Raw.msgOps, Raw.mloc, MemOp.mod, objRaw, msgRaw, Nat.mod_eq_of_lt, Nat.add_assoc, div_top, div_low, mod_low, div_self', mul_low, bitsAt]
theorem Fields.fmaxI (h : Hdr) (t : FType) (ftz : Bool) (d a : Reg) (imm : BitVec 32) : Fields.Statement (.fmaxI h t ftz d a imm) := by
  intro hw _ r hr
  obtain rfl := (Option.some.inj hr).symm
  have := t.code_lt
  have := boolNat_lt ftz
  have := d.code_lt
  have := a.code_lt
  have := imm.isLt
  simp (disch := omega) [parse, parse1, Machine.rowOfWord, modT, modF, Raw.bil, Raw.bi, Raw.memOp, Raw.hintOp, Raw.objOps, Raw.msgOps, Raw.mloc, MemOp.mod, objRaw, msgRaw, Nat.mod_eq_of_lt, Nat.add_assoc, div_top, div_low, mod_low, div_self', mul_low, bitsAt]
theorem Fields.fcmpB (h : Hdr) (t : FType) (cond : FCond) (pd pc : Pred) (a b : Reg) : Fields.Statement (.fcmpB h t cond pd pc a b) := by
  intro hw _ r hr
  obtain rfl := (Option.some.inj hr).symm
  have := t.code_lt
  have := cond.code_lt
  have := pd.isLt
  have := pc.isLt
  have := a.code_lt
  have := b.code_lt
  simp (disch := omega) [parse, parse1, Machine.rowOfWord, modT, modF, Raw.bil, Raw.bi, Raw.memOp, Raw.hintOp, Raw.objOps, Raw.msgOps, Raw.mloc, MemOp.mod, objRaw, msgRaw, Nat.mod_eq_of_lt, Nat.add_assoc, div_top, div_low, mod_low, div_self', mul_low, bitsAt]
theorem Fields.fcmpI (h : Hdr) (t : FType) (cond : FCond) (pd pc : Pred) (a : Reg) (imm : BitVec 32) : Fields.Statement (.fcmpI h t cond pd pc a imm) := by
  intro hw _ r hr
  obtain rfl := (Option.some.inj hr).symm
  have := t.code_lt
  have := cond.code_lt
  have := pd.isLt
  have := pc.isLt
  have := a.code_lt
  have := imm.isLt
  simp (disch := omega) [parse, parse1, Machine.rowOfWord, modT, modF, Raw.bil, Raw.bi, Raw.memOp, Raw.hintOp, Raw.objOps, Raw.msgOps, Raw.mloc, MemOp.mod, objRaw, msgRaw, Nat.mod_eq_of_lt, Nat.add_assoc, div_top, div_low, mod_low, div_self', mul_low, bitsAt]
theorem Fields.fdivB (h : Hdr) (t : FType) (r : Rnd) (ftz : Bool) (d a b : Reg) : Fields.Statement (.fdivB h t r ftz d a b) := by
  intro hw _ r hr
  obtain rfl := (Option.some.inj hr).symm
  have := t.code_lt
  have := r.code_lt
  have := boolNat_lt ftz
  have := d.code_lt
  have := a.code_lt
  have := b.code_lt
  simp (disch := omega) [parse, parse1, Machine.rowOfWord, modT, modF, Raw.bil, Raw.bi, Raw.memOp, Raw.hintOp, Raw.objOps, Raw.msgOps, Raw.mloc, MemOp.mod, objRaw, msgRaw, Nat.mod_eq_of_lt, Nat.add_assoc, div_top, div_low, mod_low, div_self', mul_low, bitsAt]
theorem Fields.fdivI (h : Hdr) (t : FType) (r : Rnd) (ftz : Bool) (d a : Reg) (imm : BitVec 32) : Fields.Statement (.fdivI h t r ftz d a imm) := by
  intro hw _ r hr
  obtain rfl := (Option.some.inj hr).symm
  have := t.code_lt
  have := r.code_lt
  have := boolNat_lt ftz
  have := d.code_lt
  have := a.code_lt
  have := imm.isLt
  simp (disch := omega) [parse, parse1, Machine.rowOfWord, modT, modF, Raw.bil, Raw.bi, Raw.memOp, Raw.hintOp, Raw.objOps, Raw.msgOps, Raw.mloc, MemOp.mod, objRaw, msgRaw, Nat.mod_eq_of_lt, Nat.add_assoc, div_top, div_low, mod_low, div_self', mul_low, bitsAt]
theorem Fields.fsqrt (h : Hdr) (t : FType) (r : Rnd) (ftz : Bool) (d a : Reg) : Fields.Statement (.fsqrt h t r ftz d a) := by
  intro hw _ r hr
  obtain rfl := (Option.some.inj hr).symm
  have := t.code_lt
  have := r.code_lt
  have := boolNat_lt ftz
  have := d.code_lt
  have := a.code_lt
  simp (disch := omega) [parse, parse1, Machine.rowOfWord, modT, modF, Raw.bil, Raw.bi, Raw.memOp, Raw.hintOp, Raw.objOps, Raw.msgOps, Raw.mloc, MemOp.mod, objRaw, msgRaw, Nat.mod_eq_of_lt, Nat.add_assoc, div_top, div_low, mod_low, div_self', mul_low, bitsAt]
theorem Fields.frcp (h : Hdr) (t : FType) (r : Rnd) (ftz cr : Bool) (d a : Reg) : Fields.Statement (.frcp h t r ftz cr d a) := by
  intro hw _ r hr
  obtain rfl := (Option.some.inj hr).symm
  have := t.code_lt
  have := r.code_lt
  have := boolNat_lt ftz
  have := boolNat_lt cr
  have := d.code_lt
  have := a.code_lt
  simp (disch := omega) [parse, parse1, Machine.rowOfWord, modT, modF, Raw.bil, Raw.bi, Raw.memOp, Raw.hintOp, Raw.objOps, Raw.msgOps, Raw.mloc, MemOp.mod, objRaw, msgRaw, Nat.mod_eq_of_lt, Nat.add_assoc, div_top, div_low, mod_low, div_self', mul_low, bitsAt]
theorem Fields.frsq (h : Hdr) (t : FType) (ftz : Bool) (d a : Reg) : Fields.Statement (.frsq h t ftz d a) := by
  intro hw _ r hr
  obtain rfl := (Option.some.inj hr).symm
  have := t.code_lt
  have := boolNat_lt ftz
  have := d.code_lt
  have := a.code_lt
  simp (disch := omega) [parse, parse1, Machine.rowOfWord, modT, modF, Raw.bil, Raw.bi, Raw.memOp, Raw.hintOp, Raw.objOps, Raw.msgOps, Raw.mloc, MemOp.mod, objRaw, msgRaw, Nat.mod_eq_of_lt, Nat.add_assoc, div_top, div_low, mod_low, div_self', mul_low, bitsAt]
theorem Fields.fex2 (h : Hdr) (t : FType) (ftz : Bool) (d a : Reg) : Fields.Statement (.fex2 h t ftz d a) := by
  intro hw _ r hr
  obtain rfl := (Option.some.inj hr).symm
  have := t.code_lt
  have := boolNat_lt ftz
  have := d.code_lt
  have := a.code_lt
  simp (disch := omega) [parse, parse1, Machine.rowOfWord, modT, modF, Raw.bil, Raw.bi, Raw.memOp, Raw.hintOp, Raw.objOps, Raw.msgOps, Raw.mloc, MemOp.mod, objRaw, msgRaw, Nat.mod_eq_of_lt, Nat.add_assoc, div_top, div_low, mod_low, div_self', mul_low, bitsAt]
theorem Fields.flg2 (h : Hdr) (t : FType) (ftz : Bool) (d a : Reg) : Fields.Statement (.flg2 h t ftz d a) := by
  intro hw _ r hr
  obtain rfl := (Option.some.inj hr).symm
  have := t.code_lt
  have := boolNat_lt ftz
  have := d.code_lt
  have := a.code_lt
  simp (disch := omega) [parse, parse1, Machine.rowOfWord, modT, modF, Raw.bil, Raw.bi, Raw.memOp, Raw.hintOp, Raw.objOps, Raw.msgOps, Raw.mloc, MemOp.mod, objRaw, msgRaw, Nat.mod_eq_of_lt, Nat.add_assoc, div_top, div_low, mod_low, div_self', mul_low, bitsAt]
theorem Fields.fsin (h : Hdr) (t : FType) (ftz : Bool) (d a : Reg) : Fields.Statement (.fsin h t ftz d a) := by
  intro hw _ r hr
  obtain rfl := (Option.some.inj hr).symm
  have := t.code_lt
  have := boolNat_lt ftz
  have := d.code_lt
  have := a.code_lt
  simp (disch := omega) [parse, parse1, Machine.rowOfWord, modT, modF, Raw.bil, Raw.bi, Raw.memOp, Raw.hintOp, Raw.objOps, Raw.msgOps, Raw.mloc, MemOp.mod, objRaw, msgRaw, Nat.mod_eq_of_lt, Nat.add_assoc, div_top, div_low, mod_low, div_self', mul_low, bitsAt]
theorem Fields.fcos (h : Hdr) (t : FType) (ftz : Bool) (d a : Reg) : Fields.Statement (.fcos h t ftz d a) := by
  intro hw _ r hr
  obtain rfl := (Option.some.inj hr).symm
  have := t.code_lt
  have := boolNat_lt ftz
  have := d.code_lt
  have := a.code_lt
  simp (disch := omega) [parse, parse1, Machine.rowOfWord, modT, modF, Raw.bil, Raw.bi, Raw.memOp, Raw.hintOp, Raw.objOps, Raw.msgOps, Raw.mloc, MemOp.mod, objRaw, msgRaw, Nat.mod_eq_of_lt, Nat.add_assoc, div_top, div_low, mod_low, div_self', mul_low, bitsAt]
theorem Fields.frnd (h : Hdr) (t : FType) (r : Rnd) (ftz : Bool) (d a : Reg) : Fields.Statement (.frnd h t r ftz d a) := by
  intro hw _ r hr
  obtain rfl := (Option.some.inj hr).symm
  have := t.code_lt
  have := r.code_lt
  have := boolNat_lt ftz
  have := d.code_lt
  have := a.code_lt
  simp (disch := omega) [parse, parse1, Machine.rowOfWord, modT, modF, Raw.bil, Raw.bi, Raw.memOp, Raw.hintOp, Raw.objOps, Raw.msgOps, Raw.mloc, MemOp.mod, objRaw, msgRaw, Nat.mod_eq_of_lt, Nat.add_assoc, div_top, div_low, mod_low, div_self', mul_low, bitsAt]
theorem Fields.fcvt (h : Hdr) (sf df : Fmt) (r : Rnd) (ftz sat : Bool) (d a : Reg) : Fields.Statement (.fcvt h sf df r ftz sat d a) := by
  intro hw _ r hr
  obtain rfl := (Option.some.inj hr).symm
  have := sf.code_lt
  have := df.code_lt
  have := r.code_lt
  have := boolNat_lt ftz
  have := boolNat_lt sat
  have := d.code_lt
  have := a.code_lt
  simp (disch := omega) [parse, parse1, Machine.rowOfWord, modT, modF, Raw.bil, Raw.bi, Raw.memOp, Raw.hintOp, Raw.objOps, Raw.msgOps, Raw.mloc, MemOp.mod, objRaw, msgRaw, Nat.mod_eq_of_lt, Nat.add_assoc, div_top, div_low, mod_low, div_self', mul_low, bitsAt]
theorem Fields.icvt (h : Hdr) (it : IType) (df : Fmt) (r : Rnd) (d a : Reg) : Fields.Statement (.icvt h it df r d a) := by
  intro hw _ r hr
  obtain rfl := (Option.some.inj hr).symm
  have := it.code_lt
  have := df.code_lt
  have := r.code_lt
  have := d.code_lt
  have := a.code_lt
  simp (disch := omega) [parse, parse1, Machine.rowOfWord, modT, modF, Raw.bil, Raw.bi, Raw.memOp, Raw.hintOp, Raw.objOps, Raw.msgOps, Raw.mloc, MemOp.mod, objRaw, msgRaw, Nat.mod_eq_of_lt, Nat.add_assoc, div_top, div_low, mod_low, div_self', mul_low, bitsAt]
theorem Fields.fcvi (h : Hdr) (it : IType) (sf : Fmt) (r : Rnd) (ftz : Bool) (d a : Reg) : Fields.Statement (.fcvi h it sf r ftz d a) := by
  intro hw _ r hr
  obtain rfl := (Option.some.inj hr).symm
  have := it.code_lt
  have := sf.code_lt
  have := r.code_lt
  have := boolNat_lt ftz
  have := d.code_lt
  have := a.code_lt
  simp (disch := omega) [parse, parse1, Machine.rowOfWord, modT, modF, Raw.bil, Raw.bi, Raw.memOp, Raw.hintOp, Raw.objOps, Raw.msgOps, Raw.mloc, MemOp.mod, objRaw, msgRaw, Nat.mod_eq_of_lt, Nat.add_assoc, div_top, div_low, mod_low, div_self', mul_low, bitsAt]
theorem Fields.fclass (h : Hdr) (t : FType) (ftz : Bool) (d a : Reg) : Fields.Statement (.fclass h t ftz d a) := by
  intro hw _ r hr
  obtain rfl := (Option.some.inj hr).symm
  have := t.code_lt
  have := boolNat_lt ftz
  have := d.code_lt
  have := a.code_lt
  simp (disch := omega) [parse, parse1, Machine.rowOfWord, modT, modF, Raw.bil, Raw.bi, Raw.memOp, Raw.hintOp, Raw.objOps, Raw.msgOps, Raw.mloc, MemOp.mod, objRaw, msgRaw, Nat.mod_eq_of_lt, Nat.add_assoc, div_top, div_low, mod_low, div_self', mul_low, bitsAt]
theorem Fields.fscaleB (h : Hdr) (t : FType) (r : Rnd) (ftz : Bool) (d a b : Reg) : Fields.Statement (.fscaleB h t r ftz d a b) := by
  intro hw _ r hr
  obtain rfl := (Option.some.inj hr).symm
  have := t.code_lt
  have := r.code_lt
  have := boolNat_lt ftz
  have := d.code_lt
  have := a.code_lt
  have := b.code_lt
  simp (disch := omega) [parse, parse1, Machine.rowOfWord, modT, modF, Raw.bil, Raw.bi, Raw.memOp, Raw.hintOp, Raw.objOps, Raw.msgOps, Raw.mloc, MemOp.mod, objRaw, msgRaw, Nat.mod_eq_of_lt, Nat.add_assoc, div_top, div_low, mod_low, div_self', mul_low, bitsAt]
theorem Fields.fscaleI (h : Hdr) (t : FType) (r : Rnd) (ftz : Bool) (d a : Reg) (imm : BitVec 32) : Fields.Statement (.fscaleI h t r ftz d a imm) := by
  intro hw _ r hr
  obtain rfl := (Option.some.inj hr).symm
  have := t.code_lt
  have := r.code_lt
  have := boolNat_lt ftz
  have := d.code_lt
  have := a.code_lt
  have := imm.isLt
  simp (disch := omega) [parse, parse1, Machine.rowOfWord, modT, modF, Raw.bil, Raw.bi, Raw.memOp, Raw.hintOp, Raw.objOps, Raw.msgOps, Raw.mloc, MemOp.mod, objRaw, msgRaw, Nat.mod_eq_of_lt, Nat.add_assoc, div_top, div_low, mod_low, div_self', mul_low, bitsAt]
theorem Fields.fdot2 (h : Hdr) (t : FType) (r : Rnd) (ftz : Bool) (d a b c : Reg) : Fields.Statement (.fdot2 h t r ftz d a b c) := by
  intro hw _ r hr
  obtain rfl := (Option.some.inj hr).symm
  have := t.code_lt
  have := r.code_lt
  have := boolNat_lt ftz
  have := d.code_lt
  have := a.code_lt
  have := b.code_lt
  have := c.code_lt
  simp (disch := omega) [parse, parse1, Machine.rowOfWord, modT, modF, Raw.bil, Raw.bi, Raw.memOp, Raw.hintOp, Raw.objOps, Raw.msgOps, Raw.mloc, MemOp.mod, objRaw, msgRaw, Nat.mod_eq_of_lt, Nat.add_assoc, div_top, div_low, mod_low, div_self', mul_low, bitsAt]
theorem Fields.bra (h : Hdr) (imm : BitVec 32) : Fields.Statement (.bra h imm) := by
  intro hw _ r hr
  obtain rfl := (Option.some.inj hr).symm
  have := imm.isLt
  simp (disch := omega) [parse, parse2, Machine.rowOfWord, modT, modF, Raw.bil, Raw.bi, Raw.memOp, Raw.hintOp, Raw.objOps, Raw.msgOps, Raw.mloc, MemOp.mod, objRaw, msgRaw, Nat.mod_eq_of_lt, Nat.add_assoc, div_top, div_low, mod_low, div_self', mul_low, bitsAt]
theorem Fields.brx (h : Hdr) (a : Reg) : Fields.Statement (.brx h a) := by
  intro hw _ r hr
  obtain rfl := (Option.some.inj hr).symm
  have := a.code_lt
  simp (disch := omega) [parse, parse2, Machine.rowOfWord, modT, modF, Raw.bil, Raw.bi, Raw.memOp, Raw.hintOp, Raw.objOps, Raw.msgOps, Raw.mloc, MemOp.mod, objRaw, msgRaw, Nat.mod_eq_of_lt, Nat.add_assoc, div_top, div_low, mod_low, div_self', mul_low, bitsAt]
theorem Fields.call (h : Hdr) (l : Reg) (imm : BitVec 32) : Fields.Statement (.call h l imm) := by
  intro hw _ r hr
  obtain rfl := (Option.some.inj hr).symm
  have := l.code_lt
  have := imm.isLt
  simp (disch := omega) [parse, parse2, Machine.rowOfWord, modT, modF, Raw.bil, Raw.bi, Raw.memOp, Raw.hintOp, Raw.objOps, Raw.msgOps, Raw.mloc, MemOp.mod, objRaw, msgRaw, Nat.mod_eq_of_lt, Nat.add_assoc, div_top, div_low, mod_low, div_self', mul_low, bitsAt]
theorem Fields.callx (h : Hdr) (l a : Reg) : Fields.Statement (.callx h l a) := by
  intro hw _ r hr
  obtain rfl := (Option.some.inj hr).symm
  have := l.code_lt
  have := a.code_lt
  simp (disch := omega) [parse, parse2, Machine.rowOfWord, modT, modF, Raw.bil, Raw.bi, Raw.memOp, Raw.hintOp, Raw.objOps, Raw.msgOps, Raw.mloc, MemOp.mod, objRaw, msgRaw, Nat.mod_eq_of_lt, Nat.add_assoc, div_top, div_low, mod_low, div_self', mul_low, bitsAt]
theorem Fields.ret (h : Hdr) (a : Reg) : Fields.Statement (.ret h a) := by
  intro hw _ r hr
  obtain rfl := (Option.some.inj hr).symm
  have := a.code_lt
  simp (disch := omega) [parse, parse2, Machine.rowOfWord, modT, modF, Raw.bil, Raw.bi, Raw.memOp, Raw.hintOp, Raw.objOps, Raw.msgOps, Raw.mloc, MemOp.mod, objRaw, msgRaw, Nat.mod_eq_of_lt, Nat.add_assoc, div_top, div_low, mod_low, div_self', mul_low, bitsAt]
theorem Fields.meet (h : Hdr) (clr : Bool) (imm : BitVec 32) : Fields.Statement (.meet h clr imm) := by
  intro hw _ r hr
  obtain rfl := (Option.some.inj hr).symm
  have := boolNat_lt clr
  have := imm.isLt
  simp (disch := omega) [parse, parse2, Machine.rowOfWord, modT, modF, Raw.bil, Raw.bi, Raw.memOp, Raw.hintOp, Raw.objOps, Raw.msgOps, Raw.mloc, MemOp.mod, objRaw, msgRaw, Nat.mod_eq_of_lt, Nat.add_assoc, div_top, div_low, mod_low, div_self', mul_low, bitsAt]
theorem Fields.exit (h : Hdr) : Fields.Statement (.exit h) := by
  intro hw _ r hr
  obtain rfl := (Option.some.inj hr).symm
  simp (disch := omega) [parse, parse2, Machine.rowOfWord, modT, modF, Raw.bil, Raw.bi, Raw.memOp, Raw.hintOp, Raw.objOps, Raw.msgOps, Raw.mloc, MemOp.mod, objRaw, msgRaw, Nat.mod_eq_of_lt, Nat.add_assoc, div_top, div_low, mod_low, div_self', mul_low, bitsAt]
theorem Fields.trapB (h : Hdr) (a : Reg) : Fields.Statement (.trapB h a) := by
  intro hw _ r hr
  obtain rfl := (Option.some.inj hr).symm
  have := a.code_lt
  simp (disch := omega) [parse, parse2, Machine.rowOfWord, modT, modF, Raw.bil, Raw.bi, Raw.memOp, Raw.hintOp, Raw.objOps, Raw.msgOps, Raw.mloc, MemOp.mod, objRaw, msgRaw, Nat.mod_eq_of_lt, Nat.add_assoc, div_top, div_low, mod_low, div_self', mul_low, bitsAt]
theorem Fields.trapI (h : Hdr) (imm : BitVec 32) : Fields.Statement (.trapI h imm) := by
  intro hw _ r hr
  obtain rfl := (Option.some.inj hr).symm
  have := imm.isLt
  simp (disch := omega) [parse, parse2, Machine.rowOfWord, modT, modF, Raw.bil, Raw.bi, Raw.memOp, Raw.hintOp, Raw.objOps, Raw.msgOps, Raw.mloc, MemOp.mod, objRaw, msgRaw, Nat.mod_eq_of_lt, Nat.add_assoc, div_top, div_low, mod_low, div_self', mul_low, bitsAt]
theorem Fields.bkpt (h : Hdr) : Fields.Statement (.bkpt h) := by
  intro hw _ r hr
  obtain rfl := (Option.some.inj hr).symm
  simp (disch := omega) [parse, parse2, Machine.rowOfWord, modT, modF, Raw.bil, Raw.bi, Raw.memOp, Raw.hintOp, Raw.objOps, Raw.msgOps, Raw.mloc, MemOp.mod, objRaw, msgRaw, Nat.mod_eq_of_lt, Nat.add_assoc, div_top, div_low, mod_low, div_self', mul_low, bitsAt]
theorem Fields.yield (h : Hdr) : Fields.Statement (.yield h) := by
  intro hw _ r hr
  obtain rfl := (Option.some.inj hr).symm
  simp (disch := omega) [parse, parse2, Machine.rowOfWord, modT, modF, Raw.bil, Raw.bi, Raw.memOp, Raw.hintOp, Raw.objOps, Raw.msgOps, Raw.mloc, MemOp.mod, objRaw, msgRaw, Nat.mod_eq_of_lt, Nat.add_assoc, div_top, div_low, mod_low, div_self', mul_low, bitsAt]
theorem Fields.svc (h : Hdr) (sp : Pred) (nw : Fin 9) (d a : Reg) : Fields.Statement (.svc h sp nw d a) := by
  intro hw _ r hr
  obtain rfl := (Option.some.inj hr).symm
  have := sp.isLt
  have := nw.isLt
  simp (disch := omega) [parse, parse2, Machine.rowOfWord, modT, modF, Raw.bil, Raw.bi, Raw.memOp, Raw.hintOp, Raw.objOps, Raw.msgOps, Raw.mloc, MemOp.mod, objRaw, msgRaw, Nat.mod_eq_of_lt, Nat.add_assoc, div_top, div_low, mod_low, div_self', mul_low, bitsAt]
  omega
theorem Fields.getsr (h : Hdr) (sel : BitVec 8) (d : Reg) : Fields.Statement (.getsr h sel d) := by
  intro hw _ r hr
  obtain rfl := (Option.some.inj hr).symm
  have := sel.isLt
  have := d.code_lt
  simp (disch := omega) [parse, parse2, Machine.rowOfWord, modT, modF, Raw.bil, Raw.bi, Raw.memOp, Raw.hintOp, Raw.objOps, Raw.msgOps, Raw.mloc, MemOp.mod, objRaw, msgRaw, Nat.mod_eq_of_lt, Nat.add_assoc, div_top, div_low, mod_low, div_self', mul_low, bitsAt]
theorem Fields.setsr (h : Hdr) (sel : BitVec 8) (a : Reg) : Fields.Statement (.setsr h sel a) := by
  intro hw _ r hr
  obtain rfl := (Option.some.inj hr).symm
  have := sel.isLt
  have := a.code_lt
  simp (disch := omega) [parse, parse2, Machine.rowOfWord, modT, modF, Raw.bil, Raw.bi, Raw.memOp, Raw.hintOp, Raw.objOps, Raw.msgOps, Raw.mloc, MemOp.mod, objRaw, msgRaw, Nat.mod_eq_of_lt, Nat.add_assoc, div_top, div_low, mod_low, div_self', mul_low, bitsAt]
theorem Fields.emret (h : Hdr) (m : EmMode) : Fields.Statement (.emret h m) := by
  intro hw _ r hr
  cases m <;> (obtain rfl := (Option.some.inj hr).symm; simp [parse, parse2, Machine.rowOfWord, bitsAt])
theorem Fields.fence (h : Hdr) (ord : MOrd) (scope : Scope) : Fields.Statement (.fence h ord scope) := by
  intro hw _ r hr
  obtain rfl := (Option.some.inj hr).symm
  have := ord.code_lt
  have := scope.code_lt
  simp (disch := omega) [parse, parse2, Machine.rowOfWord, modT, modF, Raw.bil, Raw.bi, Raw.memOp, Raw.hintOp, Raw.objOps, Raw.msgOps, Raw.mloc, MemOp.mod, objRaw, msgRaw, Nat.mod_eq_of_lt, Nat.add_assoc, div_top, div_low, mod_low, div_self', mul_low, bitsAt]
theorem Fields.napB (h : Hdr) (a : Reg) : Fields.Statement (.napB h a) := by
  intro hw _ r hr
  obtain rfl := (Option.some.inj hr).symm
  have := a.code_lt
  simp (disch := omega) [parse, parse2, Machine.rowOfWord, modT, modF, Raw.bil, Raw.bi, Raw.memOp, Raw.hintOp, Raw.objOps, Raw.msgOps, Raw.mloc, MemOp.mod, objRaw, msgRaw, Nat.mod_eq_of_lt, Nat.add_assoc, div_top, div_low, mod_low, div_self', mul_low, bitsAt]
theorem Fields.napI (h : Hdr) (imm : BitVec 32) : Fields.Statement (.napI h imm) := by
  intro hw _ r hr
  obtain rfl := (Option.some.inj hr).symm
  have := imm.isLt
  simp (disch := omega) [parse, parse2, Machine.rowOfWord, modT, modF, Raw.bil, Raw.bi, Raw.memOp, Raw.hintOp, Raw.objOps, Raw.msgOps, Raw.mloc, MemOp.mod, objRaw, msgRaw, Nat.mod_eq_of_lt, Nat.add_assoc, div_top, div_low, mod_low, div_self', mul_low, bitsAt]
theorem Fields.ldM (h : Hdr) (m : MemOp) (d : Reg) : Fields.Statement (.ldM h m d) := by
  intro hw _ r hr
  obtain rfl := (Option.some.inj hr).symm
  have := m.ty.code_lt
  have := m.ord.code_lt
  have := m.scope.code_lt
  have := m.scale.isLt
  have := boolNat_lt m.far
  have := boolNat_lt m.strm
  have := m.imm.isLt
  have := d.code_lt
  simp (disch := omega) [parse, parse3, Machine.rowOfWord, modT, modF, Raw.bil, Raw.bi, Raw.memOp, Raw.hintOp, Raw.objOps, Raw.msgOps, Raw.mloc, MemOp.mod, objRaw, msgRaw, Nat.mod_eq_of_lt, Nat.add_assoc, div_top, div_low, mod_low, div_self', mul_low, bitsAt, vzc]
theorem Fields.ldN (h : Hdr) (m : MemOp) (rot : Fin 8) (d : Reg) : Fields.Statement (.ldN h m rot d) := by
  intro hw _ r hr
  obtain rfl := (Option.some.inj hr).symm
  have := m.ty.code_lt
  have := m.ord.code_lt
  have := m.scope.code_lt
  have := m.scale.isLt
  have := boolNat_lt m.far
  have := boolNat_lt m.strm
  have := m.imm.isLt
  have := rot.isLt
  have := d.code_lt
  simp (disch := omega) [parse, parse3, Machine.rowOfWord, modT, modF, Raw.bil, Raw.bi, Raw.memOp, Raw.hintOp, Raw.objOps, Raw.msgOps, Raw.mloc, MemOp.mod, objRaw, msgRaw, Nat.mod_eq_of_lt, Nat.add_assoc, div_top, div_low, mod_low, div_self', mul_low, bitsAt, vzc]
theorem Fields.stM (h : Hdr) (m : MemOp) (d : Reg) : Fields.Statement (.stM h m d) := by
  intro hw _ r hr
  obtain rfl := (Option.some.inj hr).symm
  have := m.ty.code_lt
  have := m.ord.code_lt
  have := m.scope.code_lt
  have := m.scale.isLt
  have := boolNat_lt m.far
  have := boolNat_lt m.strm
  have := m.imm.isLt
  have := d.code_lt
  simp (disch := omega) [parse, parse3, Machine.rowOfWord, modT, modF, Raw.bil, Raw.bi, Raw.memOp, Raw.hintOp, Raw.objOps, Raw.msgOps, Raw.mloc, MemOp.mod, objRaw, msgRaw, Nat.mod_eq_of_lt, Nat.add_assoc, div_top, div_low, mod_low, div_self', mul_low, bitsAt, vzc]
theorem Fields.stN (h : Hdr) (m : MemOp) (rot : Fin 8) (d : Reg) : Fields.Statement (.stN h m rot d) := by
  intro hw _ r hr
  obtain rfl := (Option.some.inj hr).symm
  have := m.ty.code_lt
  have := m.ord.code_lt
  have := m.scope.code_lt
  have := m.scale.isLt
  have := boolNat_lt m.far
  have := boolNat_lt m.strm
  have := m.imm.isLt
  have := rot.isLt
  have := d.code_lt
  simp (disch := omega) [parse, parse3, Machine.rowOfWord, modT, modF, Raw.bil, Raw.bi, Raw.memOp, Raw.hintOp, Raw.objOps, Raw.msgOps, Raw.mloc, MemOp.mod, objRaw, msgRaw, Nat.mod_eq_of_lt, Nat.add_assoc, div_top, div_low, mod_low, div_self', mul_low, bitsAt, vzc]
theorem Fields.ldc (h : Hdr) (m : MemOp) (d : Reg) : Fields.Statement (.ldc h m d) := by
  intro hw _ r hr
  obtain rfl := (Option.some.inj hr).symm
  have := m.ty.code_lt
  have := m.ord.code_lt
  have := m.scope.code_lt
  have := m.scale.isLt
  have := boolNat_lt m.far
  have := boolNat_lt m.strm
  have := m.imm.isLt
  have := d.code_lt
  simp (disch := omega) [parse, parse3, Machine.rowOfWord, modT, modF, Raw.bil, Raw.bi, Raw.memOp, Raw.hintOp, Raw.objOps, Raw.msgOps, Raw.mloc, MemOp.mod, objRaw, msgRaw, Nat.mod_eq_of_lt, Nat.add_assoc, div_top, div_low, mod_low, div_self', mul_low, bitsAt, vzc]
theorem Fields.stc (h : Hdr) (m : MemOp) (d : Reg) : Fields.Statement (.stc h m d) := by
  intro hw _ r hr
  obtain rfl := (Option.some.inj hr).symm
  have := m.ty.code_lt
  have := m.ord.code_lt
  have := m.scope.code_lt
  have := m.scale.isLt
  have := boolNat_lt m.far
  have := boolNat_lt m.strm
  have := m.imm.isLt
  have := d.code_lt
  simp (disch := omega) [parse, parse3, Machine.rowOfWord, modT, modF, Raw.bil, Raw.bi, Raw.memOp, Raw.hintOp, Raw.objOps, Raw.msgOps, Raw.mloc, MemOp.mod, objRaw, msgRaw, Nat.mod_eq_of_lt, Nat.add_assoc, div_top, div_low, mod_low, div_self', mul_low, bitsAt, vzc]
theorem Fields.pref (h : Hdr) (hint : PrefHint) (m : HintOp) : Fields.Statement (.pref h hint m) := by
  intro hw _ r hr
  obtain rfl := (Option.some.inj hr).symm
  have := hint.code_lt
  have := m.scale.isLt
  have := m.imm.isLt
  simp (disch := omega) [parse, parse3, Machine.rowOfWord, modT, modF, Raw.bil, Raw.bi, Raw.memOp, Raw.hintOp, Raw.objOps, Raw.msgOps, Raw.mloc, MemOp.mod, objRaw, msgRaw, Nat.mod_eq_of_lt, Nat.add_assoc, div_top, div_low, mod_low, div_self', mul_low, bitsAt]
theorem Fields.resid (h : Hdr) (hint : ResidHint) (m : HintOp) : Fields.Statement (.resid h hint m) := by
  intro hw _ r hr
  obtain rfl := (Option.some.inj hr).symm
  have := hint.code_lt
  have := m.scale.isLt
  have := m.imm.isLt
  simp (disch := omega) [parse, parse3, Machine.rowOfWord, modT, modF, Raw.bil, Raw.bi, Raw.memOp, Raw.hintOp, Raw.objOps, Raw.msgOps, Raw.mloc, MemOp.mod, objRaw, msgRaw, Nat.mod_eq_of_lt, Nat.add_assoc, div_top, div_low, mod_low, div_self', mul_low, bitsAt]
theorem Fields.cflush (h : Hdr) (op : FlushOp) (m : HintOp) : Fields.Statement (.cflush h op m) := by
  intro hw _ r hr
  obtain rfl := (Option.some.inj hr).symm
  have := op.code_lt
  have := m.scale.isLt
  have := m.imm.isLt
  simp (disch := omega) [parse, parse3, Machine.rowOfWord, modT, modF, Raw.bil, Raw.bi, Raw.memOp, Raw.hintOp, Raw.objOps, Raw.msgOps, Raw.mloc, MemOp.mod, objRaw, msgRaw, Nat.mod_eq_of_lt, Nat.add_assoc, div_top, div_low, mod_low, div_self', mul_low, bitsAt]
theorem Fields.atom (h : Hdr) (m : MemOp) (aop : AOp) (comb hold reassoc ar : Bool) (d a : Reg) : Fields.Statement (.atom h m aop comb hold reassoc ar d a) := by
  intro hw _ r hr
  obtain rfl := (Option.some.inj hr).symm
  have := m.ty.code_lt
  have := m.ord.code_lt
  have := m.scope.code_lt
  have := m.scale.isLt
  have := boolNat_lt m.far
  have := boolNat_lt m.strm
  have := m.imm.isLt
  have := aop.code_lt
  have := boolNat_lt comb
  have := boolNat_lt hold
  have := boolNat_lt reassoc
  have := boolNat_lt ar
  have := d.code_lt
  have := a.code_lt
  simp (disch := omega) [parse, parse3, Machine.rowOfWord, modT, modF, Raw.bil, Raw.bi, Raw.memOp, Raw.hintOp, Raw.objOps, Raw.msgOps, Raw.mloc, MemOp.mod, objRaw, msgRaw, Nat.mod_eq_of_lt, Nat.add_assoc, div_top, div_low, mod_low, div_self', mul_low, bitsAt, vzc]
theorem Fields.atomx (h : Hdr) (m : MemOp) (ar : Bool) (d cmp nv : Reg) : Fields.Statement (.atomx h m ar d cmp nv) := by
  intro hw _ r hr
  obtain rfl := (Option.some.inj hr).symm
  have := m.ty.code_lt
  have := m.ord.code_lt
  have := m.scope.code_lt
  have := m.scale.isLt
  have := boolNat_lt m.far
  have := boolNat_lt m.strm
  have := m.imm.isLt
  have := boolNat_lt ar
  have := d.code_lt
  have := cmp.code_lt
  have := nv.code_lt
  simp (disch := omega) [parse, parse3, Machine.rowOfWord, modT, modF, Raw.bil, Raw.bi, Raw.memOp, Raw.hintOp, Raw.objOps, Raw.msgOps, Raw.mloc, MemOp.mod, objRaw, msgRaw, Nat.mod_eq_of_lt, Nat.add_assoc, div_top, div_low, mod_low, div_self', mul_low, bitsAt, vzc]
theorem Fields.red (h : Hdr) (m : MemOp) (aop : AOp) (comb hold reassoc : Bool) (a : Reg) : Fields.Statement (.red h m aop comb hold reassoc a) := by
  intro hw _ r hr
  obtain rfl := (Option.some.inj hr).symm
  have := m.ty.code_lt
  have := m.ord.code_lt
  have := m.scope.code_lt
  have := m.scale.isLt
  have := boolNat_lt m.far
  have := boolNat_lt m.strm
  have := m.imm.isLt
  have := aop.code_lt
  have := boolNat_lt comb
  have := boolNat_lt hold
  have := boolNat_lt reassoc
  have := a.code_lt
  simp (disch := omega) [parse, parse3, Machine.rowOfWord, modT, modF, Raw.bil, Raw.bi, Raw.memOp, Raw.hintOp, Raw.objOps, Raw.msgOps, Raw.mloc, MemOp.mod, objRaw, msgRaw, Nat.mod_eq_of_lt, Nat.add_assoc, div_top, div_low, mod_low, div_self', mul_low, bitsAt, vzc]
theorem Fields.waitc (h : Hdr) (m : MemOp) (cmp : Cond) (sgn : Bool) (d c : Reg) : Fields.Statement (.waitc h m cmp sgn d c) := by
  intro hw _ r hr
  obtain rfl := (Option.some.inj hr).symm
  have := m.ty.code_lt
  have := m.ord.code_lt
  have := m.scope.code_lt
  have := m.scale.isLt
  have := boolNat_lt m.far
  have := boolNat_lt m.strm
  have := m.imm.isLt
  have := cmp.code_lt
  have := boolNat_lt sgn
  have := d.code_lt
  have := c.code_lt
  simp (disch := omega) [parse, parse3, Machine.rowOfWord, modT, modF, Raw.bil, Raw.bi, Raw.memOp, Raw.hintOp, Raw.objOps, Raw.msgOps, Raw.mloc, MemOp.mod, objRaw, msgRaw, Nat.mod_eq_of_lt, Nat.add_assoc, div_top, div_low, mod_low, div_self', mul_low, bitsAt, vzc]
theorem Fields.pwait (h : Hdr) (m : HintOp) (len : Reg) : Fields.Statement (.pwait h m len) := by
  intro hw _ r hr
  obtain rfl := (Option.some.inj hr).symm
  have := m.scale.isLt
  have := m.imm.isLt
  have := len.code_lt
  simp (disch := omega) [parse, parse3, Machine.rowOfWord, modT, modF, Raw.bil, Raw.bi, Raw.memOp, Raw.hintOp, Raw.objOps, Raw.msgOps, Raw.mloc, MemOp.mod, objRaw, msgRaw, Nat.mod_eq_of_lt, Nat.add_assoc, div_top, div_low, mod_low, div_self', mul_low, bitsAt]
theorem Fields.bind (h : Hdr) (d so : Reg) (slot : Fin 16) (r : Reg) : Fields.Statement (.bind h d so slot r) := by
  intro hw _ r hr
  obtain rfl := (Option.some.inj hr).symm
  have := d.code_lt
  have := so.code_lt
  have := slot.isLt
  have := r.code_lt
  simp (disch := omega) [parse, parse3, Machine.rowOfWord, modT, modF, Raw.bil, Raw.bi, Raw.memOp, Raw.hintOp, Raw.objOps, Raw.msgOps, Raw.mloc, MemOp.mod, objRaw, msgRaw, Nat.mod_eq_of_lt, Nat.add_assoc, div_top, div_low, mod_low, div_self', mul_low, bitsAt]
theorem Fields.bindUn (h : Hdr) (d so : Reg) (slot : Fin 16) : Fields.Statement (.bindUn h d so slot) := by
  intro hw _ r hr
  obtain rfl := (Option.some.inj hr).symm
  have := d.code_lt
  have := so.code_lt
  have := slot.isLt
  simp (disch := omega) [parse, parse3, Machine.rowOfWord, modT, modF, Raw.bil, Raw.bi, Raw.memOp, Raw.hintOp, Raw.objOps, Raw.msgOps, Raw.mloc, MemOp.mod, objRaw, msgRaw, Nat.mod_eq_of_lt, Nat.add_assoc, div_top, div_low, mod_low, div_self', mul_low, bitsAt]
theorem Fields.acq (h : Hdr) (ex : Bool) (d so : Reg) : Fields.Statement (.acq h ex d so) := by
  intro hw _ r hr
  obtain rfl := (Option.some.inj hr).symm
  have := boolNat_lt ex
  have := d.code_lt
  have := so.code_lt
  simp (disch := omega) [parse, parse3, Machine.rowOfWord, modT, modF, Raw.bil, Raw.bi, Raw.memOp, Raw.hintOp, Raw.objOps, Raw.msgOps, Raw.mloc, MemOp.mod, objRaw, msgRaw, Nat.mod_eq_of_lt, Nat.add_assoc, div_top, div_low, mod_low, div_self', mul_low, bitsAt]
theorem Fields.rel (h : Hdr) (d so : Reg) : Fields.Statement (.rel h d so) := by
  intro hw _ r hr
  obtain rfl := (Option.some.inj hr).symm
  have := d.code_lt
  have := so.code_lt
  simp (disch := omega) [parse, parse3, Machine.rowOfWord, modT, modF, Raw.bil, Raw.bi, Raw.memOp, Raw.hintOp, Raw.objOps, Raw.msgOps, Raw.mloc, MemOp.mod, objRaw, msgRaw, Nat.mod_eq_of_lt, Nat.add_assoc, div_top, div_low, mod_low, div_self', mul_low, bitsAt]
theorem Fields.cget (h : Hdr) (f : CField) (d c : Reg) : Fields.Statement (.cget h f d c) := by
  intro hw _ r hr
  obtain rfl := (Option.some.inj hr).symm
  have := f.code_lt
  have := d.code_lt
  have := c.code_lt
  simp (disch := omega) [parse, parse4, Machine.rowOfWord, modT, modF, Raw.bil, Raw.bi, Raw.memOp, Raw.hintOp, Raw.objOps, Raw.msgOps, Raw.mloc, MemOp.mod, objRaw, msgRaw, Nat.mod_eq_of_lt, Nat.add_assoc, div_top, div_low, mod_low, div_self', mul_low, bitsAt]
theorem Fields.csetaB (h : Hdr) (d c a : Reg) : Fields.Statement (.csetaB h d c a) := by
  intro hw _ r hr
  obtain rfl := (Option.some.inj hr).symm
  have := d.code_lt
  have := c.code_lt
  have := a.code_lt
  simp (disch := omega) [parse, parse4, Machine.rowOfWord, modT, modF, Raw.bil, Raw.bi, Raw.memOp, Raw.hintOp, Raw.objOps, Raw.msgOps, Raw.mloc, MemOp.mod, objRaw, msgRaw, Nat.mod_eq_of_lt, Nat.add_assoc, div_top, div_low, mod_low, div_self', mul_low, bitsAt]
theorem Fields.csetaI (h : Hdr) (d c : Reg) (imm : BitVec 32) : Fields.Statement (.csetaI h d c imm) := by
  intro hw _ r hr
  obtain rfl := (Option.some.inj hr).symm
  have := d.code_lt
  have := c.code_lt
  have := imm.isLt
  simp (disch := omega) [parse, parse4, Machine.rowOfWord, modT, modF, Raw.bil, Raw.bi, Raw.memOp, Raw.hintOp, Raw.objOps, Raw.msgOps, Raw.mloc, MemOp.mod, objRaw, msgRaw, Nat.mod_eq_of_lt, Nat.add_assoc, div_top, div_low, mod_low, div_self', mul_low, bitsAt]
theorem Fields.csetaL (h : Hdr) (d c : Reg) (imm : BitVec 64) : Fields.Statement (.csetaL h d c imm) := by
  intro hw _ r hr
  obtain rfl := (Option.some.inj hr).symm
  have := d.code_lt
  have := c.code_lt
  have := imm.isLt
  simp (disch := omega) [parse, parse4, Machine.rowOfWord, modT, modF, Raw.bil, Raw.bi, Raw.memOp, Raw.hintOp, Raw.objOps, Raw.msgOps, Raw.mloc, MemOp.mod, objRaw, msgRaw, Nat.mod_eq_of_lt, Nat.add_assoc, div_top, div_low, mod_low, div_self', mul_low, bitsAt]
theorem Fields.cincB (h : Hdr) (d c a : Reg) : Fields.Statement (.cincB h d c a) := by
  intro hw _ r hr
  obtain rfl := (Option.some.inj hr).symm
  have := d.code_lt
  have := c.code_lt
  have := a.code_lt
  simp (disch := omega) [parse, parse4, Machine.rowOfWord, modT, modF, Raw.bil, Raw.bi, Raw.memOp, Raw.hintOp, Raw.objOps, Raw.msgOps, Raw.mloc, MemOp.mod, objRaw, msgRaw, Nat.mod_eq_of_lt, Nat.add_assoc, div_top, div_low, mod_low, div_self', mul_low, bitsAt]
theorem Fields.cincI (h : Hdr) (d c : Reg) (imm : BitVec 32) : Fields.Statement (.cincI h d c imm) := by
  intro hw _ r hr
  obtain rfl := (Option.some.inj hr).symm
  have := d.code_lt
  have := c.code_lt
  have := imm.isLt
  simp (disch := omega) [parse, parse4, Machine.rowOfWord, modT, modF, Raw.bil, Raw.bi, Raw.memOp, Raw.hintOp, Raw.objOps, Raw.msgOps, Raw.mloc, MemOp.mod, objRaw, msgRaw, Nat.mod_eq_of_lt, Nat.add_assoc, div_top, div_low, mod_low, div_self', mul_low, bitsAt]
theorem Fields.cincL (h : Hdr) (d c : Reg) (imm : BitVec 64) : Fields.Statement (.cincL h d c imm) := by
  intro hw _ r hr
  obtain rfl := (Option.some.inj hr).symm
  have := d.code_lt
  have := c.code_lt
  have := imm.isLt
  simp (disch := omega) [parse, parse4, Machine.rowOfWord, modT, modF, Raw.bil, Raw.bi, Raw.memOp, Raw.hintOp, Raw.objOps, Raw.msgOps, Raw.mloc, MemOp.mod, objRaw, msgRaw, Nat.mod_eq_of_lt, Nat.add_assoc, div_top, div_low, mod_low, div_self', mul_low, bitsAt]
theorem Fields.cbndB (h : Hdr) (exact : Bool) (d c len : Reg) : Fields.Statement (.cbndB h exact d c len) := by
  intro hw _ r hr
  obtain rfl := (Option.some.inj hr).symm
  have := boolNat_lt exact
  have := d.code_lt
  have := c.code_lt
  have := len.code_lt
  simp (disch := omega) [parse, parse4, Machine.rowOfWord, modT, modF, Raw.bil, Raw.bi, Raw.memOp, Raw.hintOp, Raw.objOps, Raw.msgOps, Raw.mloc, MemOp.mod, objRaw, msgRaw, Nat.mod_eq_of_lt, Nat.add_assoc, div_top, div_low, mod_low, div_self', mul_low, bitsAt]
theorem Fields.cbndI (h : Hdr) (exact : Bool) (d c : Reg) (imm : BitVec 32) : Fields.Statement (.cbndI h exact d c imm) := by
  intro hw _ r hr
  obtain rfl := (Option.some.inj hr).symm
  have := boolNat_lt exact
  have := d.code_lt
  have := c.code_lt
  have := imm.isLt
  simp (disch := omega) [parse, parse4, Machine.rowOfWord, modT, modF, Raw.bil, Raw.bi, Raw.memOp, Raw.hintOp, Raw.objOps, Raw.msgOps, Raw.mloc, MemOp.mod, objRaw, msgRaw, Nat.mod_eq_of_lt, Nat.add_assoc, div_top, div_low, mod_low, div_self', mul_low, bitsAt]
theorem Fields.cbndL (h : Hdr) (exact : Bool) (d c : Reg) (imm : BitVec 64) : Fields.Statement (.cbndL h exact d c imm) := by
  intro hw _ r hr
  obtain rfl := (Option.some.inj hr).symm
  have := boolNat_lt exact
  have := d.code_lt
  have := c.code_lt
  have := imm.isLt
  simp (disch := omega) [parse, parse4, Machine.rowOfWord, modT, modF, Raw.bil, Raw.bi, Raw.memOp, Raw.hintOp, Raw.objOps, Raw.msgOps, Raw.mloc, MemOp.mod, objRaw, msgRaw, Nat.mod_eq_of_lt, Nat.add_assoc, div_top, div_low, mod_low, div_self', mul_low, bitsAt]
theorem Fields.candpB (h : Hdr) (d c m : Reg) : Fields.Statement (.candpB h d c m) := by
  intro hw _ r hr
  obtain rfl := (Option.some.inj hr).symm
  have := d.code_lt
  have := c.code_lt
  have := m.code_lt
  simp (disch := omega) [parse, parse4, Machine.rowOfWord, modT, modF, Raw.bil, Raw.bi, Raw.memOp, Raw.hintOp, Raw.objOps, Raw.msgOps, Raw.mloc, MemOp.mod, objRaw, msgRaw, Nat.mod_eq_of_lt, Nat.add_assoc, div_top, div_low, mod_low, div_self', mul_low, bitsAt]
theorem Fields.candpI (h : Hdr) (d c : Reg) (imm : BitVec 32) : Fields.Statement (.candpI h d c imm) := by
  intro hw _ r hr
  obtain rfl := (Option.some.inj hr).symm
  have := d.code_lt
  have := c.code_lt
  have := imm.isLt
  simp (disch := omega) [parse, parse4, Machine.rowOfWord, modT, modF, Raw.bil, Raw.bi, Raw.memOp, Raw.hintOp, Raw.objOps, Raw.msgOps, Raw.mloc, MemOp.mod, objRaw, msgRaw, Nat.mod_eq_of_lt, Nat.add_assoc, div_top, div_low, mod_low, div_self', mul_low, bitsAt]
theorem Fields.cseal (h : Hdr) (d c s : Reg) : Fields.Statement (.cseal h d c s) := by
  intro hw _ r hr
  obtain rfl := (Option.some.inj hr).symm
  have := d.code_lt
  have := c.code_lt
  have := s.code_lt
  simp (disch := omega) [parse, parse4, Machine.rowOfWord, modT, modF, Raw.bil, Raw.bi, Raw.memOp, Raw.hintOp, Raw.objOps, Raw.msgOps, Raw.mloc, MemOp.mod, objRaw, msgRaw, Nat.mod_eq_of_lt, Nat.add_assoc, div_top, div_low, mod_low, div_self', mul_low, bitsAt]
theorem Fields.cunseal (h : Hdr) (d c s : Reg) : Fields.Statement (.cunseal h d c s) := by
  intro hw _ r hr
  obtain rfl := (Option.some.inj hr).symm
  have := d.code_lt
  have := c.code_lt
  have := s.code_lt
  simp (disch := omega) [parse, parse4, Machine.rowOfWord, modT, modF, Raw.bil, Raw.bi, Raw.memOp, Raw.hintOp, Raw.objOps, Raw.msgOps, Raw.mloc, MemOp.mod, objRaw, msgRaw, Nat.mod_eq_of_lt, Nat.add_assoc, div_top, div_low, mod_low, div_self', mul_low, bitsAt]
theorem Fields.ctest (h : Hdr) (cond : CCond) (pd : Pred) (c c2 : Reg) : Fields.Statement (.ctest h cond pd c c2) := by
  intro hw _ r hr
  obtain rfl := (Option.some.inj hr).symm
  have := cond.code_lt
  have := pd.isLt
  have := c.code_lt
  have := c2.code_lt
  simp (disch := omega) [parse, parse4, Machine.rowOfWord, modT, modF, Raw.bil, Raw.bi, Raw.memOp, Raw.hintOp, Raw.objOps, Raw.msgOps, Raw.mloc, MemOp.mod, objRaw, msgRaw, Nat.mod_eq_of_lt, Nat.add_assoc, div_top, div_low, mod_low, div_self', mul_low, bitsAt]
theorem Fields.cmov (h : Hdr) (d c : Reg) : Fields.Statement (.cmov h d c) := by
  intro hw _ r hr
  obtain rfl := (Option.some.inj hr).symm
  have := d.code_lt
  have := c.code_lt
  simp (disch := omega) [parse, parse4, Machine.rowOfWord, modT, modF, Raw.bil, Raw.bi, Raw.memOp, Raw.hintOp, Raw.objOps, Raw.msgOps, Raw.mloc, MemOp.mod, objRaw, msgRaw, Nat.mod_eq_of_lt, Nat.add_assoc, div_top, div_low, mod_low, div_self', mul_low, bitsAt]
theorem Fields.cclr (h : Hdr) (d c : Reg) : Fields.Statement (.cclr h d c) := by
  intro hw _ r hr
  obtain rfl := (Option.some.inj hr).symm
  have := d.code_lt
  have := c.code_lt
  simp (disch := omega) [parse, parse4, Machine.rowOfWord, modT, modF, Raw.bil, Raw.bi, Raw.memOp, Raw.hintOp, Raw.objOps, Raw.msgOps, Raw.mloc, MemOp.mod, objRaw, msgRaw, Nat.mod_eq_of_lt, Nat.add_assoc, div_top, div_low, mod_low, div_self', mul_low, bitsAt]
theorem Fields.ceq (h : Hdr) (pd : Pred) (c c2 : Reg) : Fields.Statement (.ceq h pd c c2) := by
  intro hw _ r hr
  obtain rfl := (Option.some.inj hr).symm
  have := pd.isLt
  have := c.code_lt
  have := c2.code_lt
  simp (disch := omega) [parse, parse4, Machine.rowOfWord, modT, modF, Raw.bil, Raw.bi, Raw.memOp, Raw.hintOp, Raw.objOps, Raw.msgOps, Raw.mloc, MemOp.mod, objRaw, msgRaw, Nat.mod_eq_of_lt, Nat.add_assoc, div_top, div_low, mod_low, div_self', mul_low, bitsAt]
theorem Fields.objRetype (h : Hdr) (o : ObjOps) : Fields.Statement (.objRetype h o) := by
  intro hw _ r hr
  obtain rfl := (Option.some.inj hr).symm
  have := o.narg.isLt
  have hn : o.narg.val ≤ 8 := by omega
  simp (disch := omega) [parse, parse4, Machine.rowOfWord, modT, modF, Raw.bil, Raw.bi, Raw.memOp, Raw.hintOp, Raw.objOps, Raw.msgOps, Raw.mloc, MemOp.mod, objRaw, msgRaw, Nat.mod_eq_of_lt, Nat.add_assoc, div_top, div_low, mod_low, div_self', mul_low, bitsAt, parseObj, hn]
theorem Fields.objConfigUntypedReset (h : Hdr) (o : ObjOps) : Fields.Statement (.objConfigUntypedReset h o) := by
  intro hw _ r hr
  obtain rfl := (Option.some.inj hr).symm
  have := o.narg.isLt
  have hn : o.narg.val ≤ 8 := by omega
  simp (disch := omega) [parse, parse0, parse1, parse2, parse3, parse4, parse5, parse6, Machine.rowOfWord, modT, modF, Raw.bil, Raw.bi, Raw.memOp, Raw.hintOp, Raw.objOps, Raw.msgOps, Raw.mloc, MemOp.mod, objRaw, msgRaw, Nat.mod_eq_of_lt, Nat.add_assoc, div_top, div_low, mod_low, div_self', mul_low, bitsAt, parseObj, hn]
theorem Fields.objConfigEndpointMint (h : Hdr) (o : ObjOps) : Fields.Statement (.objConfigEndpointMint h o) := by
  intro hw _ r hr
  obtain rfl := (Option.some.inj hr).symm
  have := o.narg.isLt
  have hn : o.narg.val ≤ 8 := by omega
  simp (disch := omega) [parse, parse0, parse1, parse2, parse3, parse4, parse5, parse6, Machine.rowOfWord, modT, modF, Raw.bil, Raw.bi, Raw.memOp, Raw.hintOp, Raw.objOps, Raw.msgOps, Raw.mloc, MemOp.mod, objRaw, msgRaw, Nat.mod_eq_of_lt, Nat.add_assoc, div_top, div_low, mod_low, div_self', mul_low, bitsAt, parseObj, hn]
theorem Fields.objConfigSenderMask (h : Hdr) (o : ObjOps) : Fields.Statement (.objConfigSenderMask h o) := by
  intro hw _ r hr
  obtain rfl := (Option.some.inj hr).symm
  have := o.narg.isLt
  have hn : o.narg.val ≤ 8 := by omega
  simp (disch := omega) [parse, parse0, parse1, parse2, parse3, parse4, parse5, parse6, Machine.rowOfWord, modT, modF, Raw.bil, Raw.bi, Raw.memOp, Raw.hintOp, Raw.objOps, Raw.msgOps, Raw.mloc, MemOp.mod, objRaw, msgRaw, Nat.mod_eq_of_lt, Nat.add_assoc, div_top, div_low, mod_low, div_self', mul_low, bitsAt, parseObj, hn]
theorem Fields.objConfigNotificationMint (h : Hdr) (o : ObjOps) : Fields.Statement (.objConfigNotificationMint h o) := by
  intro hw _ r hr
  obtain rfl := (Option.some.inj hr).symm
  have := o.narg.isLt
  have hn : o.narg.val ≤ 8 := by omega
  simp (disch := omega) [parse, parse0, parse1, parse2, parse3, parse4, parse5, parse6, Machine.rowOfWord, modT, modF, Raw.bil, Raw.bi, Raw.memOp, Raw.hintOp, Raw.objOps, Raw.msgOps, Raw.mloc, MemOp.mod, objRaw, msgRaw, Nat.mod_eq_of_lt, Nat.add_assoc, div_top, div_low, mod_low, div_self', mul_low, bitsAt, parseObj, hn]
theorem Fields.objConfigSchedcontext (h : Hdr) (o : ObjOps) : Fields.Statement (.objConfigSchedcontext h o) := by
  intro hw _ r hr
  obtain rfl := (Option.some.inj hr).symm
  have := o.narg.isLt
  have hn : o.narg.val ≤ 8 := by omega
  simp (disch := omega) [parse, parse0, parse1, parse2, parse3, parse4, parse5, parse6, Machine.rowOfWord, modT, modF, Raw.bil, Raw.bi, Raw.memOp, Raw.hintOp, Raw.objOps, Raw.msgOps, Raw.mloc, MemOp.mod, objRaw, msgRaw, Nat.mod_eq_of_lt, Nat.add_assoc, div_top, div_low, mod_low, div_self', mul_low, bitsAt, parseObj, hn]
theorem Fields.objConfigOdt (h : Hdr) (o : ObjOps) : Fields.Statement (.objConfigOdt h o) := by
  intro hw _ r hr
  obtain rfl := (Option.some.inj hr).symm
  have := o.narg.isLt
  have hn : o.narg.val ≤ 8 := by omega
  simp (disch := omega) [parse, parse0, parse1, parse2, parse3, parse4, parse5, parse6, Machine.rowOfWord, modT, modF, Raw.bil, Raw.bi, Raw.memOp, Raw.hintOp, Raw.objOps, Raw.msgOps, Raw.mloc, MemOp.mod, objRaw, msgRaw, Nat.mod_eq_of_lt, Nat.add_assoc, div_top, div_low, mod_low, div_self', mul_low, bitsAt, parseObj, hn]
theorem Fields.objConfigHandler (h : Hdr) (o : ObjOps) : Fields.Statement (.objConfigHandler h o) := by
  intro hw _ r hr
  obtain rfl := (Option.some.inj hr).symm
  have := o.narg.isLt
  have hn : o.narg.val ≤ 8 := by omega
  simp (disch := omega) [parse, parse0, parse1, parse2, parse3, parse4, parse5, parse6, Machine.rowOfWord, modT, modF, Raw.bil, Raw.bi, Raw.memOp, Raw.hintOp, Raw.objOps, Raw.msgOps, Raw.mloc, MemOp.mod, objRaw, msgRaw, Nat.mod_eq_of_lt, Nat.add_assoc, div_top, div_low, mod_low, div_self', mul_low, bitsAt, parseObj, hn]
theorem Fields.objConfigFaultEndpoint (h : Hdr) (o : ObjOps) : Fields.Statement (.objConfigFaultEndpoint h o) := by
  intro hw _ r hr
  obtain rfl := (Option.some.inj hr).symm
  have := o.narg.isLt
  have hn : o.narg.val ≤ 8 := by omega
  simp (disch := omega) [parse, parse0, parse1, parse2, parse3, parse4, parse5, parse6, Machine.rowOfWord, modT, modF, Raw.bil, Raw.bi, Raw.memOp, Raw.hintOp, Raw.objOps, Raw.msgOps, Raw.mloc, MemOp.mod, objRaw, msgRaw, Nat.mod_eq_of_lt, Nat.add_assoc, div_top, div_low, mod_low, div_self', mul_low, bitsAt, parseObj, hn]
theorem Fields.objConfigServiceEndpoint (h : Hdr) (o : ObjOps) : Fields.Statement (.objConfigServiceEndpoint h o) := by
  intro hw _ r hr
  obtain rfl := (Option.some.inj hr).symm
  have := o.narg.isLt
  have hn : o.narg.val ≤ 8 := by omega
  simp (disch := omega) [parse, parse0, parse1, parse2, parse3, parse4, parse5, parse6, Machine.rowOfWord, modT, modF, Raw.bil, Raw.bi, Raw.memOp, Raw.hintOp, Raw.objOps, Raw.msgOps, Raw.mloc, MemOp.mod, objRaw, msgRaw, Nat.mod_eq_of_lt, Nat.add_assoc, div_top, div_low, mod_low, div_self', mul_low, bitsAt, parseObj, hn]
theorem Fields.objConfigSaveArea (h : Hdr) (o : ObjOps) : Fields.Statement (.objConfigSaveArea h o) := by
  intro hw _ r hr
  obtain rfl := (Option.some.inj hr).symm
  have := o.narg.isLt
  have hn : o.narg.val ≤ 8 := by omega
  simp (disch := omega) [parse, parse0, parse1, parse2, parse3, parse4, parse5, parse6, Machine.rowOfWord, modT, modF, Raw.bil, Raw.bi, Raw.memOp, Raw.hintOp, Raw.objOps, Raw.msgOps, Raw.mloc, MemOp.mod, objRaw, msgRaw, Nat.mod_eq_of_lt, Nat.add_assoc, div_top, div_low, mod_low, div_self', mul_low, bitsAt, parseObj, hn]
theorem Fields.objConfigAddressSpace (h : Hdr) (o : ObjOps) : Fields.Statement (.objConfigAddressSpace h o) := by
  intro hw _ r hr
  obtain rfl := (Option.some.inj hr).symm
  have := o.narg.isLt
  have hn : o.narg.val ≤ 8 := by omega
  simp (disch := omega) [parse, parse0, parse1, parse2, parse3, parse4, parse5, parse6, Machine.rowOfWord, modT, modF, Raw.bil, Raw.bi, Raw.memOp, Raw.hintOp, Raw.objOps, Raw.msgOps, Raw.mloc, MemOp.mod, objRaw, msgRaw, Nat.mod_eq_of_lt, Nat.add_assoc, div_top, div_low, mod_low, div_self', mul_low, bitsAt, parseObj, hn]
theorem Fields.objConfigFormatSlot (h : Hdr) (o : ObjOps) : Fields.Statement (.objConfigFormatSlot h o) := by
  intro hw _ r hr
  obtain rfl := (Option.some.inj hr).symm
  have := o.narg.isLt
  have hn : o.narg.val ≤ 8 := by omega
  simp (disch := omega) [parse, parse0, parse1, parse2, parse3, parse4, parse5, parse6, Machine.rowOfWord, modT, modF, Raw.bil, Raw.bi, Raw.memOp, Raw.hintOp, Raw.objOps, Raw.msgOps, Raw.mloc, MemOp.mod, objRaw, msgRaw, Nat.mod_eq_of_lt, Nat.add_assoc, div_top, div_low, mod_low, div_self', mul_low, bitsAt, parseObj, hn]
theorem Fields.objConfigWcAge (h : Hdr) (o : ObjOps) : Fields.Statement (.objConfigWcAge h o) := by
  intro hw _ r hr
  obtain rfl := (Option.some.inj hr).symm
  have := o.narg.isLt
  have hn : o.narg.val ≤ 8 := by omega
  simp (disch := omega) [parse, parse0, parse1, parse2, parse3, parse4, parse5, parse6, Machine.rowOfWord, modT, modF, Raw.bil, Raw.bi, Raw.memOp, Raw.hintOp, Raw.objOps, Raw.msgOps, Raw.mloc, MemOp.mod, objRaw, msgRaw, Nat.mod_eq_of_lt, Nat.add_assoc, div_top, div_low, mod_low, div_self', mul_low, bitsAt, parseObj, hn]
theorem Fields.objConfigWatchdog (h : Hdr) (o : ObjOps) : Fields.Statement (.objConfigWatchdog h o) := by
  intro hw _ r hr
  obtain rfl := (Option.some.inj hr).symm
  have := o.narg.isLt
  have hn : o.narg.val ≤ 8 := by omega
  simp (disch := omega) [parse, parse0, parse1, parse2, parse3, parse4, parse5, parse6, Machine.rowOfWord, modT, modF, Raw.bil, Raw.bi, Raw.memOp, Raw.hintOp, Raw.objOps, Raw.msgOps, Raw.mloc, MemOp.mod, objRaw, msgRaw, Nat.mod_eq_of_lt, Nat.add_assoc, div_top, div_low, mod_low, div_self', mul_low, bitsAt, parseObj, hn]
theorem Fields.objConfigKeyslot (h : Hdr) (o : ObjOps) : Fields.Statement (.objConfigKeyslot h o) := by
  intro hw _ r hr
  obtain rfl := (Option.some.inj hr).symm
  have := o.narg.isLt
  have hn : o.narg.val ≤ 8 := by omega
  simp (disch := omega) [parse, parse0, parse1, parse2, parse3, parse4, parse5, parse6, Machine.rowOfWord, modT, modF, Raw.bil, Raw.bi, Raw.memOp, Raw.hintOp, Raw.objOps, Raw.msgOps, Raw.mloc, MemOp.mod, objRaw, msgRaw, Nat.mod_eq_of_lt, Nat.add_assoc, div_top, div_low, mod_low, div_self', mul_low, bitsAt, parseObj, hn]
theorem Fields.objConfigLog (h : Hdr) (o : ObjOps) : Fields.Statement (.objConfigLog h o) := by
  intro hw _ r hr
  obtain rfl := (Option.some.inj hr).symm
  have := o.narg.isLt
  have hn : o.narg.val ≤ 8 := by omega
  simp (disch := omega) [parse, parse0, parse1, parse2, parse3, parse4, parse5, parse6, Machine.rowOfWord, modT, modF, Raw.bil, Raw.bi, Raw.memOp, Raw.hintOp, Raw.objOps, Raw.msgOps, Raw.mloc, MemOp.mod, objRaw, msgRaw, Nat.mod_eq_of_lt, Nat.add_assoc, div_top, div_low, mod_low, div_self', mul_low, bitsAt, parseObj, hn]
theorem Fields.objConfigSealAuthority (h : Hdr) (o : ObjOps) : Fields.Statement (.objConfigSealAuthority h o) := by
  intro hw _ r hr
  obtain rfl := (Option.some.inj hr).symm
  have := o.narg.isLt
  have hn : o.narg.val ≤ 8 := by omega
  simp (disch := omega) [parse, parse0, parse1, parse2, parse3, parse4, parse5, parse6, Machine.rowOfWord, modT, modF, Raw.bil, Raw.bi, Raw.memOp, Raw.hintOp, Raw.objOps, Raw.msgOps, Raw.mloc, MemOp.mod, objRaw, msgRaw, Nat.mod_eq_of_lt, Nat.add_assoc, div_top, div_low, mod_low, div_self', mul_low, bitsAt, parseObj, hn]
theorem Fields.objConfigQueuePair (h : Hdr) (o : ObjOps) : Fields.Statement (.objConfigQueuePair h o) := by
  intro hw _ r hr
  obtain rfl := (Option.some.inj hr).symm
  have := o.narg.isLt
  have hn : o.narg.val ≤ 8 := by omega
  simp (disch := omega) [parse, parse0, parse1, parse2, parse3, parse4, parse5, parse6, Machine.rowOfWord, modT, modF, Raw.bil, Raw.bi, Raw.memOp, Raw.hintOp, Raw.objOps, Raw.msgOps, Raw.mloc, MemOp.mod, objRaw, msgRaw, Nat.mod_eq_of_lt, Nat.add_assoc, div_top, div_low, mod_low, div_self', mul_low, bitsAt, parseObj, hn]
theorem Fields.objConfigQueueFile (h : Hdr) (o : ObjOps) : Fields.Statement (.objConfigQueueFile h o) := by
  intro hw _ r hr
  obtain rfl := (Option.some.inj hr).symm
  have := o.narg.isLt
  have hn : o.narg.val ≤ 8 := by omega
  simp (disch := omega) [parse, parse0, parse1, parse2, parse3, parse4, parse5, parse6, Machine.rowOfWord, modT, modF, Raw.bil, Raw.bi, Raw.memOp, Raw.hintOp, Raw.objOps, Raw.msgOps, Raw.mloc, MemOp.mod, objRaw, msgRaw, Nat.mod_eq_of_lt, Nat.add_assoc, div_top, div_low, mod_low, div_self', mul_low, bitsAt, parseObj, hn]
theorem Fields.objConfigCollGroup (h : Hdr) (o : ObjOps) : Fields.Statement (.objConfigCollGroup h o) := by
  intro hw _ r hr
  obtain rfl := (Option.some.inj hr).symm
  have := o.narg.isLt
  have hn : o.narg.val ≤ 8 := by omega
  simp (disch := omega) [parse, parse0, parse1, parse2, parse3, parse4, parse5, parse6, Machine.rowOfWord, modT, modF, Raw.bil, Raw.bi, Raw.memOp, Raw.hintOp, Raw.objOps, Raw.msgOps, Raw.mloc, MemOp.mod, objRaw, msgRaw, Nat.mod_eq_of_lt, Nat.add_assoc, div_top, div_low, mod_low, div_self', mul_low, bitsAt, parseObj, hn]
theorem Fields.objConfigCollPairKey (h : Hdr) (o : ObjOps) : Fields.Statement (.objConfigCollPairKey h o) := by
  intro hw _ r hr
  obtain rfl := (Option.some.inj hr).symm
  have := o.narg.isLt
  have hn : o.narg.val ≤ 8 := by omega
  simp (disch := omega) [parse, parse4, Machine.rowOfWord, modT, modF, Raw.bil, Raw.bi, Raw.memOp, Raw.hintOp, Raw.objOps, Raw.msgOps, Raw.mloc, MemOp.mod, objRaw, msgRaw, Nat.mod_eq_of_lt, Nat.add_assoc, div_top, div_low, mod_low, div_self', mul_low, bitsAt, parseObj, hn]
theorem Fields.objConfigFilemapSource (h : Hdr) (o : ObjOps) : Fields.Statement (.objConfigFilemapSource h o) := by
  intro hw _ r hr
  obtain rfl := (Option.some.inj hr).symm
  have := o.narg.isLt
  have hn : o.narg.val ≤ 8 := by omega
  simp (disch := omega) [parse, parse0, parse1, parse2, parse3, parse4, parse5, parse6, Machine.rowOfWord, modT, modF, Raw.bil, Raw.bi, Raw.memOp, Raw.hintOp, Raw.objOps, Raw.msgOps, Raw.mloc, MemOp.mod, objRaw, msgRaw, Nat.mod_eq_of_lt, Nat.add_assoc, div_top, div_low, mod_low, div_self', mul_low, bitsAt, parseObj, hn]
theorem Fields.objMap (h : Hdr) (o : ObjOps) : Fields.Statement (.objMap h o) := by
  intro hw _ r hr
  obtain rfl := (Option.some.inj hr).symm
  have := o.narg.isLt
  have hn : o.narg.val ≤ 8 := by omega
  simp (disch := omega) [parse, parse4, Machine.rowOfWord, modT, modF, Raw.bil, Raw.bi, Raw.memOp, Raw.hintOp, Raw.objOps, Raw.msgOps, Raw.mloc, MemOp.mod, objRaw, msgRaw, Nat.mod_eq_of_lt, Nat.add_assoc, div_top, div_low, mod_low, div_self', mul_low, bitsAt, parseObj, hn]
theorem Fields.objUnmap (h : Hdr) (o : ObjOps) : Fields.Statement (.objUnmap h o) := by
  intro hw _ r hr
  obtain rfl := (Option.some.inj hr).symm
  have := o.narg.isLt
  have hn : o.narg.val ≤ 8 := by omega
  simp (disch := omega) [parse, parse4, Machine.rowOfWord, modT, modF, Raw.bil, Raw.bi, Raw.memOp, Raw.hintOp, Raw.objOps, Raw.msgOps, Raw.mloc, MemOp.mod, objRaw, msgRaw, Nat.mod_eq_of_lt, Nat.add_assoc, div_top, div_low, mod_low, div_self', mul_low, bitsAt, parseObj, hn]
theorem Fields.objBind (h : Hdr) (o : ObjOps) : Fields.Statement (.objBind h o) := by
  intro hw _ r hr
  obtain rfl := (Option.some.inj hr).symm
  have := o.narg.isLt
  have hn : o.narg.val ≤ 8 := by omega
  simp (disch := omega) [parse, parse4, Machine.rowOfWord, modT, modF, Raw.bil, Raw.bi, Raw.memOp, Raw.hintOp, Raw.objOps, Raw.msgOps, Raw.mloc, MemOp.mod, objRaw, msgRaw, Nat.mod_eq_of_lt, Nat.add_assoc, div_top, div_low, mod_low, div_self', mul_low, bitsAt, parseObj, hn]
theorem Fields.objSuspend (h : Hdr) (o : ObjOps) : Fields.Statement (.objSuspend h o) := by
  intro hw _ r hr
  obtain rfl := (Option.some.inj hr).symm
  have := o.narg.isLt
  have hn : o.narg.val ≤ 8 := by omega
  simp (disch := omega) [parse, parse4, Machine.rowOfWord, modT, modF, Raw.bil, Raw.bi, Raw.memOp, Raw.hintOp, Raw.objOps, Raw.msgOps, Raw.mloc, MemOp.mod, objRaw, msgRaw, Nat.mod_eq_of_lt, Nat.add_assoc, div_top, div_low, mod_low, div_self', mul_low, bitsAt, parseObj, hn]
theorem Fields.objResume (h : Hdr) (o : ObjOps) : Fields.Statement (.objResume h o) := by
  intro hw _ r hr
  obtain rfl := (Option.some.inj hr).symm
  have := o.narg.isLt
  have hn : o.narg.val ≤ 8 := by omega
  simp (disch := omega) [parse, parse4, Machine.rowOfWord, modT, modF, Raw.bil, Raw.bi, Raw.memOp, Raw.hintOp, Raw.objOps, Raw.msgOps, Raw.mloc, MemOp.mod, objRaw, msgRaw, Nat.mod_eq_of_lt, Nat.add_assoc, div_top, div_low, mod_low, div_self', mul_low, bitsAt, parseObj, hn]
theorem Fields.objTeardown (h : Hdr) (o : ObjOps) : Fields.Statement (.objTeardown h o) := by
  intro hw _ r hr
  obtain rfl := (Option.some.inj hr).symm
  have := o.narg.isLt
  have hn : o.narg.val ≤ 8 := by omega
  simp (disch := omega) [parse, parse4, Machine.rowOfWord, modT, modF, Raw.bil, Raw.bi, Raw.memOp, Raw.hintOp, Raw.objOps, Raw.msgOps, Raw.mloc, MemOp.mod, objRaw, msgRaw, Nat.mod_eq_of_lt, Nat.add_assoc, div_top, div_low, mod_low, div_self', mul_low, bitsAt, parseObj, hn]
theorem Fields.objStatus (h : Hdr) (o : ObjOps) : Fields.Statement (.objStatus h o) := by
  intro hw _ r hr
  obtain rfl := (Option.some.inj hr).symm
  have := o.narg.isLt
  have hn : o.narg.val ≤ 8 := by omega
  simp (disch := omega) [parse, parse4, Machine.rowOfWord, modT, modF, Raw.bil, Raw.bi, Raw.memOp, Raw.hintOp, Raw.objOps, Raw.msgOps, Raw.mloc, MemOp.mod, objRaw, msgRaw, Nat.mod_eq_of_lt, Nat.add_assoc, div_top, div_low, mod_low, div_self', mul_low, bitsAt, parseObj, hn]
theorem Fields.objFreeze (h : Hdr) (o : ObjOps) : Fields.Statement (.objFreeze h o) := by
  intro hw _ r hr
  obtain rfl := (Option.some.inj hr).symm
  have := o.narg.isLt
  have hn : o.narg.val ≤ 8 := by omega
  simp (disch := omega) [parse, parse4, Machine.rowOfWord, modT, modF, Raw.bil, Raw.bi, Raw.memOp, Raw.hintOp, Raw.objOps, Raw.msgOps, Raw.mloc, MemOp.mod, objRaw, msgRaw, Nat.mod_eq_of_lt, Nat.add_assoc, div_top, div_low, mod_low, div_self', mul_low, bitsAt, parseObj, hn]
theorem Fields.objAttest (h : Hdr) (o : ObjOps) : Fields.Statement (.objAttest h o) := by
  intro hw _ r hr
  obtain rfl := (Option.some.inj hr).symm
  have := o.narg.isLt
  have hn : o.narg.val ≤ 8 := by omega
  simp (disch := omega) [parse, parse4, Machine.rowOfWord, modT, modF, Raw.bil, Raw.bi, Raw.memOp, Raw.hintOp, Raw.objOps, Raw.msgOps, Raw.mloc, MemOp.mod, objRaw, msgRaw, Nat.mod_eq_of_lt, Nat.add_assoc, div_top, div_low, mod_low, div_self', mul_low, bitsAt, parseObj, hn]
theorem Fields.faultactResume (h : Hdr) (o : ObjOps) : Fields.Statement (.faultactResume h o) := by
  intro hw _ r hr
  obtain rfl := (Option.some.inj hr).symm
  have := o.narg.isLt
  have hn : o.narg.val ≤ 8 := by omega
  simp (disch := omega) [parse, parse0, parse1, parse2, parse3, parse4, parse5, parse6, Machine.rowOfWord, modT, modF, Raw.bil, Raw.bi, Raw.memOp, Raw.hintOp, Raw.objOps, Raw.msgOps, Raw.mloc, MemOp.mod, objRaw, msgRaw, Nat.mod_eq_of_lt, Nat.add_assoc, div_top, div_low, mod_low, div_self', mul_low, bitsAt, parseObj, hn]
theorem Fields.faultactSkip (h : Hdr) (o : ObjOps) : Fields.Statement (.faultactSkip h o) := by
  intro hw _ r hr
  obtain rfl := (Option.some.inj hr).symm
  have := o.narg.isLt
  have hn : o.narg.val ≤ 8 := by omega
  simp (disch := omega) [parse, parse0, parse1, parse2, parse3, parse4, parse5, parse6, Machine.rowOfWord, modT, modF, Raw.bil, Raw.bi, Raw.memOp, Raw.hintOp, Raw.objOps, Raw.msgOps, Raw.mloc, MemOp.mod, objRaw, msgRaw, Nat.mod_eq_of_lt, Nat.add_assoc, div_top, div_low, mod_low, div_self', mul_low, bitsAt, parseObj, hn]
theorem Fields.faultactRetry (h : Hdr) (o : ObjOps) : Fields.Statement (.faultactRetry h o) := by
  intro hw _ r hr
  obtain rfl := (Option.some.inj hr).symm
  have := o.narg.isLt
  have hn : o.narg.val ≤ 8 := by omega
  simp (disch := omega) [parse, parse0, parse1, parse2, parse3, parse4, parse5, parse6, Machine.rowOfWord, modT, modF, Raw.bil, Raw.bi, Raw.memOp, Raw.hintOp, Raw.objOps, Raw.msgOps, Raw.mloc, MemOp.mod, objRaw, msgRaw, Nat.mod_eq_of_lt, Nat.add_assoc, div_top, div_low, mod_low, div_self', mul_low, bitsAt, parseObj, hn]
theorem Fields.faultactKill (h : Hdr) (o : ObjOps) : Fields.Statement (.faultactKill h o) := by
  intro hw _ r hr
  obtain rfl := (Option.some.inj hr).symm
  have := o.narg.isLt
  have hn : o.narg.val ≤ 8 := by omega
  simp (disch := omega) [parse, parse0, parse1, parse2, parse3, parse4, parse5, parse6, Machine.rowOfWord, modT, modF, Raw.bil, Raw.bi, Raw.memOp, Raw.hintOp, Raw.objOps, Raw.msgOps, Raw.mloc, MemOp.mod, objRaw, msgRaw, Nat.mod_eq_of_lt, Nat.add_assoc, div_top, div_low, mod_low, div_self', mul_low, bitsAt, parseObj, hn]
theorem Fields.faultactTeardown (h : Hdr) (o : ObjOps) : Fields.Statement (.faultactTeardown h o) := by
  intro hw _ r hr
  obtain rfl := (Option.some.inj hr).symm
  have := o.narg.isLt
  have hn : o.narg.val ≤ 8 := by omega
  simp (disch := omega) [parse, parse0, parse1, parse2, parse3, parse4, parse5, parse6, Machine.rowOfWord, modT, modF, Raw.bil, Raw.bi, Raw.memOp, Raw.hintOp, Raw.objOps, Raw.msgOps, Raw.mloc, MemOp.mod, objRaw, msgRaw, Nat.mod_eq_of_lt, Nat.add_assoc, div_top, div_low, mod_low, div_self', mul_low, bitsAt, parseObj, hn]
theorem Fields.faultactSave (h : Hdr) (o : ObjOps) : Fields.Statement (.faultactSave h o) := by
  intro hw _ r hr
  obtain rfl := (Option.some.inj hr).symm
  have := o.narg.isLt
  have hn : o.narg.val ≤ 8 := by omega
  simp (disch := omega) [parse, parse4, Machine.rowOfWord, modT, modF, Raw.bil, Raw.bi, Raw.memOp, Raw.hintOp, Raw.objOps, Raw.msgOps, Raw.mloc, MemOp.mod, objRaw, msgRaw, Nat.mod_eq_of_lt, Nat.add_assoc, div_top, div_low, mod_low, div_self', mul_low, bitsAt, parseObj, hn]
theorem Fields.send (h : Hdr) (m : MsgOps) (nb : Bool) (nbp : Pred) : Fields.Statement (.send h m nb nbp) := by
  intro hw _ r hr
  obtain rfl := (Option.some.inj hr).symm
  have := m.nw.isLt
  have := m.nc.isLt
  have hn : m.nw.val ≤ 8 ∧ m.nc.val ≤ 2 := by omega
  have := boolNat_lt nb
  have := nbp.isLt
  simp (disch := omega) [parse, parse4, Machine.rowOfWord, modT, modF, Raw.bil, Raw.bi, Raw.memOp, Raw.hintOp, Raw.objOps, Raw.msgOps, Raw.mloc, MemOp.mod, objRaw, msgRaw, Nat.mod_eq_of_lt, Nat.add_assoc, div_top, div_low, mod_low, div_self', mul_low, bitsAt, hn]
theorem Fields.recv (h : Hdr) (m : MsgOps) (nb : Bool) (nbp : Pred) (info rpl : Reg) : Fields.Statement (.recv h m nb nbp info rpl) := by
  intro hw _ r hr
  obtain rfl := (Option.some.inj hr).symm
  have := m.nw.isLt
  have := m.nc.isLt
  have hn : m.nw.val ≤ 8 ∧ m.nc.val ≤ 2 := by omega
  have := boolNat_lt nb
  have := nbp.isLt
  have := info.code_lt
  have := rpl.code_lt
  have e : (info.code + rpl.code * 1024) / 1024 = rpl.code := by omega
  have e2 : (info.code + rpl.code * 1024) % 1024 = info.code := by omega
  simp (disch := omega) [parse, parse4, Machine.rowOfWord, modT, modF, Raw.bil, Raw.bi, Raw.memOp, Raw.hintOp, Raw.objOps, Raw.msgOps, Raw.mloc, MemOp.mod, objRaw, msgRaw, Nat.mod_eq_of_lt, Nat.add_assoc, div_top, div_low, mod_low, div_self', mul_low, bitsAt, hn, e, e2]
theorem Fields.ecall (h : Hdr) (m : MsgOps) (info : Reg) (rnw : Fin 9) (rnc : Fin 3) : Fields.Statement (.ecall h m info rnw rnc) := by
  intro hw _ r hr
  obtain rfl := (Option.some.inj hr).symm
  have := m.nw.isLt
  have := m.nc.isLt
  have hn : m.nw.val ≤ 8 ∧ m.nc.val ≤ 2 := by omega
  have := info.code_lt
  have := rnw.isLt
  have := rnc.isLt
  have e : (info.code + (rnw.val * 1024 + rnc.val * 16384)) % 1024 = info.code := by omega
  have e2 : (info.code + (rnw.val * 1024 + rnc.val * 16384)) / 1024 % 16 = rnw.val := by omega
  have e3 : (info.code + (rnw.val * 1024 + rnc.val * 16384)) / 16384 = rnc.val := by omega
  have hr2 : rnw.val ≤ 8 ∧ rnc.val ≤ 2 := by omega
  simp (disch := omega) [parse, parse4, Machine.rowOfWord, modT, modF, Raw.bil, Raw.bi, Raw.memOp, Raw.hintOp, Raw.objOps, Raw.msgOps, Raw.mloc, MemOp.mod, objRaw, msgRaw, Nat.mod_eq_of_lt, Nat.add_assoc, div_top, div_low, mod_low, div_self', mul_low, bitsAt, hn, e, e2, e3, hr2]
theorem Fields.ereply (h : Hdr) (m : MsgOps) : Fields.Statement (.ereply h m) := by
  intro hw _ r hr
  obtain rfl := (Option.some.inj hr).symm
  have := m.nw.isLt
  have := m.nc.isLt
  have hn : m.nw.val ≤ 8 ∧ m.nc.val ≤ 2 := by omega
  simp (disch := omega) [parse, parse4, Machine.rowOfWord, modT, modF, Raw.bil, Raw.bi, Raw.memOp, Raw.hintOp, Raw.objOps, Raw.msgOps, Raw.mloc, MemOp.mod, objRaw, msgRaw, Nat.mod_eq_of_lt, Nat.add_assoc, div_top, div_low, mod_low, div_self', mul_low, bitsAt, hn]
theorem Fields.signalB (h : Hdr) (d ntf bits : Reg) : Fields.Statement (.signalB h d ntf bits) := by
  intro hw _ r hr
  obtain rfl := (Option.some.inj hr).symm
  have := d.code_lt
  have := ntf.code_lt
  have := bits.code_lt
  simp (disch := omega) [parse, parse4, Machine.rowOfWord, modT, modF, Raw.bil, Raw.bi, Raw.memOp, Raw.hintOp, Raw.objOps, Raw.msgOps, Raw.mloc, MemOp.mod, objRaw, msgRaw, Nat.mod_eq_of_lt, Nat.add_assoc, div_top, div_low, mod_low, div_self', mul_low, bitsAt]
theorem Fields.signalI (h : Hdr) (d ntf : Reg) (imm : BitVec 32) : Fields.Statement (.signalI h d ntf imm) := by
  intro hw _ r hr
  obtain rfl := (Option.some.inj hr).symm
  have := d.code_lt
  have := ntf.code_lt
  have := imm.isLt
  simp (disch := omega) [parse, parse4, Machine.rowOfWord, modT, modF, Raw.bil, Raw.bi, Raw.memOp, Raw.hintOp, Raw.objOps, Raw.msgOps, Raw.mloc, MemOp.mod, objRaw, msgRaw, Nat.mod_eq_of_lt, Nat.add_assoc, div_top, div_low, mod_low, div_self', mul_low, bitsAt]
theorem Fields.waitn (h : Hdr) (nb : Bool) (d ntf wd : Reg) : Fields.Statement (.waitn h nb d ntf wd) := by
  intro hw _ r hr
  obtain rfl := (Option.some.inj hr).symm
  have := boolNat_lt nb
  have := wd.code_lt
  simp (disch := omega) [parse, parse4, Machine.rowOfWord, modT, modF, Raw.bil, Raw.bi, Raw.memOp, Raw.hintOp, Raw.objOps, Raw.msgOps, Raw.mloc, MemOp.mod, objRaw, msgRaw, Nat.mod_eq_of_lt, Nat.add_assoc, div_top, div_low, mod_low, div_self', mul_low, bitsAt]
  omega
theorem Fields.revoke (h : Hdr) (d r : Reg) (q : Fin 16) : Fields.Statement (.revoke h d r q) := by
  intro hw _ r hr
  obtain rfl := (Option.some.inj hr).symm
  have := d.code_lt
  have := r.code_lt
  have := q.isLt
  simp (disch := omega) [parse, parse4, Machine.rowOfWord, modT, modF, Raw.bil, Raw.bi, Raw.memOp, Raw.hintOp, Raw.objOps, Raw.msgOps, Raw.mloc, MemOp.mod, objRaw, msgRaw, Nat.mod_eq_of_lt, Nat.add_assoc, div_top, div_low, mod_low, div_self', mul_low, bitsAt]
theorem Fields.exportMake (h : Hdr) (ps : Pred) (d x : Reg) (mask : Option Reg) : Fields.Statement (.exportMake h ps d x mask) := by
  intro hw _ r hr
  obtain rfl := (Option.some.inj hr).symm
  have := ps.isLt
  cases mask
  all_goals simp (disch := omega) [parse, parse4, Machine.rowOfWord, modT, modF, Raw.bil, Raw.bi, Raw.memOp, Raw.hintOp, Raw.objOps, Raw.msgOps, Raw.mloc, MemOp.mod, objRaw, msgRaw, Nat.mod_eq_of_lt, Nat.add_assoc, div_top, div_low, mod_low, div_self', mul_low, bitsAt, boolNat, add_low, add_modlow]
  all_goals omega
theorem Fields.exportDrop (h : Hdr) (ps : Pred) (d x : Reg) (mask : Option Reg) : Fields.Statement (.exportDrop h ps d x mask) := by
  intro hw _ r hr
  obtain rfl := (Option.some.inj hr).symm
  have := ps.isLt
  cases mask
  all_goals simp (disch := omega) [parse, parse4, Machine.rowOfWord, modT, modF, Raw.bil, Raw.bi, Raw.memOp, Raw.hintOp, Raw.objOps, Raw.msgOps, Raw.mloc, MemOp.mod, objRaw, msgRaw, Nat.mod_eq_of_lt, Nat.add_assoc, div_top, div_low, mod_low, div_self', mul_low, bitsAt, boolNat, add_low, add_modlow]
  all_goals omega
theorem Fields.qbind (h : Hdr) (role : QRole) (d : Reg) (q : Fin 16) (cq : Reg) : Fields.Statement (.qbind h role d q cq) := by
  intro hw _ r hr
  obtain rfl := (Option.some.inj hr).symm
  cases role
  all_goals simp (disch := omega) [parse, parse4, Machine.rowOfWord, modT, modF, Raw.bil, Raw.bi, Raw.memOp, Raw.hintOp, Raw.objOps, Raw.msgOps, Raw.mloc, MemOp.mod, objRaw, msgRaw, Nat.mod_eq_of_lt, Nat.add_assoc, div_top, div_low, mod_low, div_self', mul_low, bitsAt, QRole.code]
theorem Fields.qbindUnb (h : Hdr) (d : Reg) (q : Fin 16) : Fields.Statement (.qbindUnb h d q) := by
  intro hw _ r hr
  obtain rfl := (Option.some.inj hr).symm
  have := d.code_lt
  have := q.isLt
  simp (disch := omega) [parse, parse4, Machine.rowOfWord, modT, modF, Raw.bil, Raw.bi, Raw.memOp, Raw.hintOp, Raw.objOps, Raw.msgOps, Raw.mloc, MemOp.mod, objRaw, msgRaw, Nat.mod_eq_of_lt, Nat.add_assoc, div_top, div_low, mod_low, div_self', mul_low, bitsAt]
theorem Fields.shfl (h : Hdr) (mode : ShflMode) (w64 : Bool) (seg : Fin 6) (pv : Pred) (d a b c m : Reg) : Fields.Statement (.shfl h mode w64 seg pv d a b c m) := by
  intro hw _ r hr
  obtain rfl := (Option.some.inj hr).symm
  have := mode.code_lt
  have := boolNat_lt w64
  have := seg.isLt
  have := pv.isLt
  have := m.code_lt
  have := c.code_lt
  simp (disch := omega) [parse, parse5, Machine.rowOfWord, modT, modF, Raw.bil, Raw.bi, Raw.memOp, Raw.hintOp, Raw.objOps, Raw.msgOps, Raw.mloc, MemOp.mod, objRaw, msgRaw, Nat.mod_eq_of_lt, Nat.add_assoc, div_top, div_low, mod_low, div_self', mul_low, bitsAt]
  omega
theorem Fields.voteB (h : Hdr) (mode : VoteMode) (pd ps : Pred) (pneg : Bool) (d m : Reg) : Fields.Statement (.voteB h mode pd ps pneg d m) := by
  intro hw _ r hr
  obtain rfl := (Option.some.inj hr).symm
  have := mode.code_lt
  have := pd.isLt
  have := ps.isLt
  have := boolNat_lt pneg
  have := d.code_lt
  have := m.code_lt
  simp (disch := omega) [parse, parse5, Machine.rowOfWord, modT, modF, Raw.bil, Raw.bi, Raw.memOp, Raw.hintOp, Raw.objOps, Raw.msgOps, Raw.mloc, MemOp.mod, objRaw, msgRaw, Nat.mod_eq_of_lt, Nat.add_assoc, div_top, div_low, mod_low, div_self', mul_low, bitsAt]
theorem Fields.voteI (h : Hdr) (mode : VoteMode) (pd ps : Pred) (pneg : Bool) (d : Reg) (mask : BitVec 32) : Fields.Statement (.voteI h mode pd ps pneg d mask) := by
  intro hw _ r hr
  obtain rfl := (Option.some.inj hr).symm
  have := mode.code_lt
  have := pd.isLt
  have := ps.isLt
  have := boolNat_lt pneg
  have := d.code_lt
  have := mask.isLt
  simp (disch := omega) [parse, parse5, Machine.rowOfWord, modT, modF, Raw.bil, Raw.bi, Raw.memOp, Raw.hintOp, Raw.objOps, Raw.msgOps, Raw.mloc, MemOp.mod, objRaw, msgRaw, Nat.mod_eq_of_lt, Nat.add_assoc, div_top, div_low, mod_low, div_self', mul_low, bitsAt]
theorem Fields.rdfirstB (h : Hdr) (w : RdWidth) (d a m : Reg) : Fields.Statement (.rdfirstB h w d a m) := by
  intro hw _ r hr
  obtain rfl := (Option.some.inj hr).symm
  have := w.code_lt
  have := d.code_lt
  have := a.code_lt
  have := m.code_lt
  simp (disch := omega) [parse, parse5, Machine.rowOfWord, modT, modF, Raw.bil, Raw.bi, Raw.memOp, Raw.hintOp, Raw.objOps, Raw.msgOps, Raw.mloc, MemOp.mod, objRaw, msgRaw, Nat.mod_eq_of_lt, Nat.add_assoc, div_top, div_low, mod_low, div_self', mul_low, bitsAt]
theorem Fields.rdfirstI (h : Hdr) (w : RdWidth) (d a : Reg) (mask : BitVec 32) : Fields.Statement (.rdfirstI h w d a mask) := by
  intro hw _ r hr
  obtain rfl := (Option.some.inj hr).symm
  have := w.code_lt
  have := d.code_lt
  have := a.code_lt
  have := mask.isLt
  simp (disch := omega) [parse, parse5, Machine.rowOfWord, modT, modF, Raw.bil, Raw.bi, Raw.memOp, Raw.hintOp, Raw.objOps, Raw.msgOps, Raw.mloc, MemOp.mod, objRaw, msgRaw, Nat.mod_eq_of_lt, Nat.add_assoc, div_top, div_low, mod_low, div_self', mul_low, bitsAt]
theorem Fields.lrankB (h : Hdr) (sel : RankSel) (d m : Reg) : Fields.Statement (.lrankB h sel d m) := by
  intro hw _ r hr
  obtain rfl := (Option.some.inj hr).symm
  have := sel.code_lt
  have := d.code_lt
  have := m.code_lt
  simp (disch := omega) [parse, parse5, Machine.rowOfWord, modT, modF, Raw.bil, Raw.bi, Raw.memOp, Raw.hintOp, Raw.objOps, Raw.msgOps, Raw.mloc, MemOp.mod, objRaw, msgRaw, Nat.mod_eq_of_lt, Nat.add_assoc, div_top, div_low, mod_low, div_self', mul_low, bitsAt]
theorem Fields.lrankI (h : Hdr) (sel : RankSel) (d : Reg) (mask : BitVec 32) : Fields.Statement (.lrankI h sel d mask) := by
  intro hw _ r hr
  obtain rfl := (Option.some.inj hr).symm
  have := sel.code_lt
  have := d.code_lt
  have := mask.isLt
  simp (disch := omega) [parse, parse5, Machine.rowOfWord, modT, modF, Raw.bil, Raw.bi, Raw.memOp, Raw.hintOp, Raw.objOps, Raw.msgOps, Raw.mloc, MemOp.mod, objRaw, msgRaw, Nat.mod_eq_of_lt, Nat.add_assoc, div_top, div_low, mod_low, div_self', mul_low, bitsAt]
theorem Fields.matchB (h : Hdr) (w64 : Bool) (d a m : Reg) : Fields.Statement (.matchB h w64 d a m) := by
  intro hw _ r hr
  obtain rfl := (Option.some.inj hr).symm
  have := boolNat_lt w64
  have := d.code_lt
  have := a.code_lt
  have := m.code_lt
  simp (disch := omega) [parse, parse5, Machine.rowOfWord, modT, modF, Raw.bil, Raw.bi, Raw.memOp, Raw.hintOp, Raw.objOps, Raw.msgOps, Raw.mloc, MemOp.mod, objRaw, msgRaw, Nat.mod_eq_of_lt, Nat.add_assoc, div_top, div_low, mod_low, div_self', mul_low, bitsAt]
theorem Fields.matchI (h : Hdr) (w64 : Bool) (d a : Reg) (mask : BitVec 32) : Fields.Statement (.matchI h w64 d a mask) := by
  intro hw _ r hr
  obtain rfl := (Option.some.inj hr).symm
  have := boolNat_lt w64
  have := d.code_lt
  have := a.code_lt
  have := mask.isLt
  simp (disch := omega) [parse, parse5, Machine.rowOfWord, modT, modF, Raw.bil, Raw.bi, Raw.memOp, Raw.hintOp, Raw.objOps, Raw.msgOps, Raw.mloc, MemOp.mod, objRaw, msgRaw, Nat.mod_eq_of_lt, Nat.add_assoc, div_top, div_low, mod_low, div_self', mul_low, bitsAt]
theorem Fields.reduxB (h : Hdr) (op : RedOp) (t : RType) (d a m : Reg) : Fields.Statement (.reduxB h op t d a m) := by
  intro hw _ r hr
  obtain rfl := (Option.some.inj hr).symm
  have := op.code_lt
  have := t.code_lt
  have := d.code_lt
  have := a.code_lt
  have := m.code_lt
  simp (disch := omega) [parse, parse5, Machine.rowOfWord, modT, modF, Raw.bil, Raw.bi, Raw.memOp, Raw.hintOp, Raw.objOps, Raw.msgOps, Raw.mloc, MemOp.mod, objRaw, msgRaw, Nat.mod_eq_of_lt, Nat.add_assoc, div_top, div_low, mod_low, div_self', mul_low, bitsAt]
theorem Fields.reduxI (h : Hdr) (op : RedOp) (t : RType) (d a : Reg) (mask : BitVec 32) : Fields.Statement (.reduxI h op t d a mask) := by
  intro hw _ r hr
  obtain rfl := (Option.some.inj hr).symm
  have := op.code_lt
  have := t.code_lt
  have := d.code_lt
  have := a.code_lt
  have := mask.isLt
  simp (disch := omega) [parse, parse5, Machine.rowOfWord, modT, modF, Raw.bil, Raw.bi, Raw.memOp, Raw.hintOp, Raw.objOps, Raw.msgOps, Raw.mloc, MemOp.mod, objRaw, msgRaw, Nat.mod_eq_of_lt, Nat.add_assoc, div_top, div_low, mod_low, div_self', mul_low, bitsAt]
theorem Fields.scanB (h : Hdr) (op : RedOp) (t : RType) (excl : Bool) (d a m : Reg) : Fields.Statement (.scanB h op t excl d a m) := by
  intro hw _ r hr
  obtain rfl := (Option.some.inj hr).symm
  have := op.code_lt
  have := t.code_lt
  have := boolNat_lt excl
  have := d.code_lt
  have := a.code_lt
  have := m.code_lt
  simp (disch := omega) [parse, parse5, Machine.rowOfWord, modT, modF, Raw.bil, Raw.bi, Raw.memOp, Raw.hintOp, Raw.objOps, Raw.msgOps, Raw.mloc, MemOp.mod, objRaw, msgRaw, Nat.mod_eq_of_lt, Nat.add_assoc, div_top, div_low, mod_low, div_self', mul_low, bitsAt]
theorem Fields.scanI (h : Hdr) (op : RedOp) (t : RType) (excl : Bool) (d a : Reg) (mask : BitVec 32) : Fields.Statement (.scanI h op t excl d a mask) := by
  intro hw _ r hr
  obtain rfl := (Option.some.inj hr).symm
  have := op.code_lt
  have := t.code_lt
  have := boolNat_lt excl
  have := d.code_lt
  have := a.code_lt
  have := mask.isLt
  simp (disch := omega) [parse, parse5, Machine.rowOfWord, modT, modF, Raw.bil, Raw.bi, Raw.memOp, Raw.hintOp, Raw.objOps, Raw.msgOps, Raw.mloc, MemOp.mod, objRaw, msgRaw, Nat.mod_eq_of_lt, Nat.add_assoc, div_top, div_low, mod_low, div_self', mul_low, bitsAt]
theorem Fields.gatherB (h : Hdr) (d m : Reg) : Fields.Statement (.gatherB h d m) := by
  intro hw _ r hr
  obtain rfl := (Option.some.inj hr).symm
  have := d.code_lt
  have := m.code_lt
  simp (disch := omega) [parse, parse5, Machine.rowOfWord, modT, modF, Raw.bil, Raw.bi, Raw.memOp, Raw.hintOp, Raw.objOps, Raw.msgOps, Raw.mloc, MemOp.mod, objRaw, msgRaw, Nat.mod_eq_of_lt, Nat.add_assoc, div_top, div_low, mod_low, div_self', mul_low, bitsAt]
theorem Fields.gatherI (h : Hdr) (d : Reg) (mask : BitVec 32) : Fields.Statement (.gatherI h d mask) := by
  intro hw _ r hr
  obtain rfl := (Option.some.inj hr).symm
  have := d.code_lt
  have := mask.isLt
  simp (disch := omega) [parse, parse5, Machine.rowOfWord, modT, modF, Raw.bil, Raw.bi, Raw.memOp, Raw.hintOp, Raw.objOps, Raw.msgOps, Raw.mloc, MemOp.mod, objRaw, msgRaw, Nat.mod_eq_of_lt, Nat.add_assoc, div_top, div_low, mod_low, div_self', mul_low, bitsAt]
theorem Fields.barB (h : Hdr) (mode : BarMode) (bid : Fin 16) (n m : Reg) : Fields.Statement (.barB h mode bid n m) := by
  intro hw _ r hr
  obtain rfl := (Option.some.inj hr).symm
  have := mode.code_lt
  have := bid.isLt
  have := n.code_lt
  have := m.code_lt
  simp (disch := omega) [parse, parse5, Machine.rowOfWord, modT, modF, Raw.bil, Raw.bi, Raw.memOp, Raw.hintOp, Raw.objOps, Raw.msgOps, Raw.mloc, MemOp.mod, objRaw, msgRaw, Nat.mod_eq_of_lt, Nat.add_assoc, div_top, div_low, mod_low, div_self', mul_low, bitsAt]
theorem Fields.barI (h : Hdr) (mode : BarMode) (bid : Fin 16) (n : Reg) (mask : BitVec 32) : Fields.Statement (.barI h mode bid n mask) := by
  intro hw _ r hr
  obtain rfl := (Option.some.inj hr).symm
  have := mode.code_lt
  have := bid.isLt
  have := n.code_lt
  have := mask.isLt
  simp (disch := omega) [parse, parse5, Machine.rowOfWord, modT, modF, Raw.bil, Raw.bi, Raw.memOp, Raw.hintOp, Raw.objOps, Raw.msgOps, Raw.mloc, MemOp.mod, objRaw, msgRaw, Nat.mod_eq_of_lt, Nat.add_assoc, div_top, div_low, mod_low, div_self', mul_low, bitsAt]
theorem Fields.hbarB (h : Hdr) (mode : BarMode) (bid : Fin 4) (n m : Reg) : Fields.Statement (.hbarB h mode bid n m) := by
  intro hw _ r hr
  obtain rfl := (Option.some.inj hr).symm
  have := mode.code_lt
  have := bid.isLt
  have := n.code_lt
  have := m.code_lt
  simp (disch := omega) [parse, parse5, Machine.rowOfWord, modT, modF, Raw.bil, Raw.bi, Raw.memOp, Raw.hintOp, Raw.objOps, Raw.msgOps, Raw.mloc, MemOp.mod, objRaw, msgRaw, Nat.mod_eq_of_lt, Nat.add_assoc, div_top, div_low, mod_low, div_self', mul_low, bitsAt]
theorem Fields.hbarI (h : Hdr) (mode : BarMode) (bid : Fin 4) (n : Reg) (mask : BitVec 32) : Fields.Statement (.hbarI h mode bid n mask) := by
  intro hw _ r hr
  obtain rfl := (Option.some.inj hr).symm
  have := mode.code_lt
  have := bid.isLt
  have := n.code_lt
  have := mask.isLt
  simp (disch := omega) [parse, parse5, Machine.rowOfWord, modT, modF, Raw.bil, Raw.bi, Raw.memOp, Raw.hintOp, Raw.objOps, Raw.msgOps, Raw.mloc, MemOp.mod, objRaw, msgRaw, Nat.mod_eq_of_lt, Nat.add_assoc, div_top, div_low, mod_low, div_self', mul_low, bitsAt]
theorem Fields.launch (h : Hdr) (s lr args off : Reg) : Fields.Statement (.launch h s lr args off) := by
  intro hw _ r hr
  obtain rfl := (Option.some.inj hr).symm
  have := s.code_lt
  have := lr.code_lt
  have := args.code_lt
  have := off.code_lt
  simp (disch := omega) [parse, parse5, Machine.rowOfWord, modT, modF, Raw.bil, Raw.bi, Raw.memOp, Raw.hintOp, Raw.objOps, Raw.msgOps, Raw.mloc, MemOp.mod, objRaw, msgRaw, Nat.mod_eq_of_lt, Nat.add_assoc, div_top, div_low, mod_low, div_self', mul_low, bitsAt]
theorem Fields.launchOne (h : Hdr) (s lr args off m : Reg) : Fields.Statement (.launchOne h s lr args off m) := by
  intro hw _ r hr
  obtain rfl := (Option.some.inj hr).symm
  have := s.code_lt
  have := lr.code_lt
  have := args.code_lt
  have := off.code_lt
  have := m.code_lt
  simp (disch := omega) [parse, parse5, Machine.rowOfWord, modT, modF, Raw.bil, Raw.bi, Raw.memOp, Raw.hintOp, Raw.objOps, Raw.msgOps, Raw.mloc, MemOp.mod, objRaw, msgRaw, Nat.mod_eq_of_lt, Nat.add_assoc, div_top, div_low, mod_low, div_self', mul_low, bitsAt]
theorem Fields.qfence (h : Hdr) (mask : BitVec 16) : Fields.Statement (.qfence h mask) := by
  intro hw _ r hr
  obtain rfl := (Option.some.inj hr).symm
  have := mask.isLt
  simp (disch := omega) [parse, parse5, Machine.rowOfWord, modT, modF, Raw.bil, Raw.bi, Raw.memOp, Raw.hintOp, Raw.objOps, Raw.msgOps, Raw.mloc, MemOp.mod, objRaw, msgRaw, Nat.mod_eq_of_lt, Nat.add_assoc, div_top, div_low, mod_low, div_self', mul_low, bitsAt]
theorem Fields.mma (h : Hdr) (sr : Semiring) (slot : Fin 8) (acc : Fin 8) (sb : Fin 2) (src : ASrc) (init : Bool) (sc : Reg) : Fields.Statement (.mma h sr slot acc sb src init sc) := by
  intro hw _ r hr
  have := sr.code_lt
  have := slot.isLt
  have := acc.isLt
  have := sb.isLt
  have := boolNat_lt init
  have f0 : boolNat init / 2 = 0 := by omega
  have f2 : (4 + boolNat init) / 2 = 2 := by omega
  have f3 : (4 + boolNat init) % 2 = boolNat init := by omega
  cases src with
  | regs a =>
    obtain rfl := (Option.some.inj hr).symm
    simp (disch := omega) [parse, parse6, Machine.rowOfWord, modT, modF, Raw.bil, Raw.bi, Raw.memOp, Raw.hintOp, Raw.objOps, Raw.msgOps, Raw.mloc, MemOp.mod, objRaw, msgRaw, Nat.mod_eq_of_lt, Nat.add_assoc, div_top, div_low, mod_low, div_self', mul_low, bitsAt, MLoc.kind, MLoc.enc, f0]
  | scratch d t =>
    obtain rfl := (Option.some.inj hr).symm
    have := t.isLt
    simp (disch := omega) [parse, parse6, Machine.rowOfWord, modT, modF, Raw.bil, Raw.bi, Raw.memOp, Raw.hintOp, Raw.objOps, Raw.msgOps, Raw.mloc, MemOp.mod, objRaw, msgRaw, Nat.mod_eq_of_lt, Nat.add_assoc, div_top, div_low, mod_low, div_self', mul_low, bitsAt, MLoc.kind, MLoc.enc, f0]
  | acc t c =>
    obtain rfl := (Option.some.inj hr).symm
    have := t.isLt
    have := c.isLt
    have e1 : (t.val * 64 + c.val * 512) / 64 % 8 = t.val := by omega
    have e2 : (t.val * 64 + c.val * 512) / 512 = c.val := by omega
    simp (disch := omega) [parse, parse6, Machine.rowOfWord, modT, modF, Raw.bil, Raw.bi, Raw.memOp, Raw.hintOp, Raw.objOps, Raw.msgOps, Raw.mloc, MemOp.mod, objRaw, msgRaw, Nat.mod_eq_of_lt, Nat.add_assoc, div_top, div_low, mod_low, div_self', mul_low, bitsAt, MLoc.kind, MLoc.enc, e1, e2, f2, f3]
theorem Fields.mwld (h : Hdr) (slot : Fin 8) (sb : Fin 2) (src : WSrc) : Fields.Statement (.mwld h slot sb src) := by
  intro hw _ r hr
  have := slot.isLt
  have := sb.isLt
  have k1 : sb.val * 8 % 2 = 0 := by omega
  have k2 : (sb.val * 8 / 2 + 1) % 4 = 1 := by omega
  cases src with
  | regs a =>
    obtain rfl := (Option.some.inj hr).symm
    simp (disch := omega) [parse, parse6, Machine.rowOfWord, modT, modF, Raw.bil, Raw.bi, Raw.memOp, Raw.hintOp, Raw.objOps, Raw.msgOps, Raw.mloc, MemOp.mod, objRaw, msgRaw, Nat.mod_eq_of_lt, Nat.add_assoc, div_top, div_low, mod_low, div_self', mul_low, bitsAt, MLoc.kind, MLoc.enc, k1, k2]
  | loc l =>
    cases l with
    | scratch d t =>
      obtain rfl := (Option.some.inj hr).symm
      have := t.isLt
      simp (disch := omega) [parse, parse6, Machine.rowOfWord, modT, modF, Raw.bil, Raw.bi, Raw.memOp, Raw.hintOp, Raw.objOps, Raw.msgOps, Raw.mloc, MemOp.mod, objRaw, msgRaw, Nat.mod_eq_of_lt, Nat.add_assoc, div_top, div_low, mod_low, div_self', mul_low, bitsAt, MLoc.kind, MLoc.enc, k1, k2]
    | mem c p i =>
      obtain rfl := (Option.some.inj hr).symm
      have := i.isLt
      have := p.isLt
      have e1 : (i.toNat + p.toNat * 4294967296) / 4294967296 = p.toNat := by omega
      have e2 : (i.toNat + p.toNat * 4294967296) % 4294967296 = i.toNat := by omega
      simp (disch := omega) [parse, parse6, Machine.rowOfWord, modT, modF, Raw.bil, Raw.bi, Raw.memOp, Raw.hintOp, Raw.objOps, Raw.msgOps, Raw.mloc, MemOp.mod, objRaw, msgRaw, Nat.mod_eq_of_lt, Nat.add_assoc, div_top, div_low, mod_low, div_self', mul_low, bitsAt, MLoc.kind, MLoc.enc, e1, e2]
  | enc c p i ks =>
    obtain rfl := (Option.some.inj hr).symm
    have := i.isLt
    have := p.isLt
    have e1 : (i.toNat + p.toNat * 4294967296) / 4294967296 = p.toNat := by omega
    have e2 : (i.toNat + p.toNat * 4294967296) % 4294967296 = i.toNat := by omega
    simp (disch := omega) [parse, parse6, Machine.rowOfWord, modT, modF, Raw.bil, Raw.bi, Raw.memOp, Raw.hintOp, Raw.objOps, Raw.msgOps, Raw.mloc, MemOp.mod, objRaw, msgRaw, Nat.mod_eq_of_lt, Nat.add_assoc, div_top, div_low, mod_low, div_self', mul_low, bitsAt, MLoc.kind, MLoc.enc, e1, e2]
theorem Fields.mld (h : Hdr) (slot : Fin 8) (acc : Fin 8) (loc : MLoc) : Fields.Statement (.mld h slot acc loc) := by
  intro hw _ r hr
  have := slot.isLt
  have := acc.isLt
  cases loc with
  | scratch d t =>
    obtain rfl := (Option.some.inj hr).symm
    have := t.isLt
    have g : (acc.val * 16 / 2 + 1) % 4 = 1 := by omega
    simp (disch := omega) [parse, parse6, Machine.rowOfWord, modT, modF, Raw.bil, Raw.bi, Raw.memOp, Raw.hintOp, Raw.objOps, Raw.msgOps, Raw.mloc, MemOp.mod, objRaw, msgRaw, Nat.mod_eq_of_lt, Nat.add_assoc, div_top, div_low, mod_low, div_self', mul_low, bitsAt, MLoc.kind, MLoc.enc, g]
  | mem c p i =>
    obtain rfl := (Option.some.inj hr).symm
    have := i.isLt
    have := p.isLt
    have e1 : (i.toNat + p.toNat * 4294967296) / 4294967296 = p.toNat := by omega
    have e2 : (i.toNat + p.toNat * 4294967296) % 4294967296 = i.toNat := by omega
    simp (disch := omega) [parse, parse6, Machine.rowOfWord, modT, modF, Raw.bil, Raw.bi, Raw.memOp, Raw.hintOp, Raw.objOps, Raw.msgOps, Raw.mloc, MemOp.mod, objRaw, msgRaw, Nat.mod_eq_of_lt, Nat.add_assoc, div_top, div_low, mod_low, div_self', mul_low, bitsAt, MLoc.kind, MLoc.enc, e1, e2]
theorem Fields.mst (h : Hdr) (df : Fmt) (slot : Fin 8) (acc : Fin 8) (loc : MLoc) : Fields.Statement (.mst h df slot acc loc) := by
  intro hw _ r hr
  have := df.code_lt
  have := slot.isLt
  have := acc.isLt
  cases loc with
  | scratch d t =>
    obtain rfl := (Option.some.inj hr).symm
    have := t.isLt
    have g : (acc.val * 16 / 2 + 1) % 4 = 1 := by omega
    have e1 : (t.val * 4503599627370496 + df.code * 288230376151711744) / 4503599627370496 % 64 = t.val := by omega
    have e3 : (t.val * 4503599627370496 + df.code * 288230376151711744) / 288230376151711744 = df.code := by omega
    simp (disch := omega) [parse, parse6, Machine.rowOfWord, modT, modF, Raw.bil, Raw.bi, Raw.memOp, Raw.hintOp, Raw.objOps, Raw.msgOps, Raw.mloc, MemOp.mod, objRaw, msgRaw, Nat.mod_eq_of_lt, Nat.add_assoc, div_top, div_low, mod_low, div_self', mul_low, bitsAt, MLoc.kind, MLoc.enc, e1, e3, g]
  | mem c p i =>
    obtain rfl := (Option.some.inj hr).symm
    have := i.isLt
    have := p.isLt
    have e1 : (i.toNat + (p.toNat * 4294967296 + df.code * 288230376151711744)) / 4294967296 % 1048576 = p.toNat := by omega
    have e2 : (i.toNat + (p.toNat * 4294967296 + df.code * 288230376151711744)) % 4294967296 = i.toNat := by omega
    have e3 : (i.toNat + (p.toNat * 4294967296 + df.code * 288230376151711744)) / 288230376151711744 = df.code := by omega
    simp (disch := omega) [parse, parse6, Machine.rowOfWord, modT, modF, Raw.bil, Raw.bi, Raw.memOp, Raw.hintOp, Raw.objOps, Raw.msgOps, Raw.mloc, MemOp.mod, objRaw, msgRaw, Nat.mod_eq_of_lt, Nat.add_assoc, div_top, div_low, mod_low, div_self', mul_low, bitsAt, MLoc.kind, MLoc.enc, e1, e2, e3]
theorem Fields.mzero (h : Hdr) (tiles : BitVec 8) (bufs : BitVec 2) : Fields.Statement (.mzero h tiles bufs) := by
  intro hw _ r hr
  obtain rfl := (Option.some.inj hr).symm
  have := tiles.isLt
  have := bufs.isLt
  simp (disch := omega) [parse, parse6, Machine.rowOfWord, modT, modF, Raw.bil, Raw.bi, Raw.memOp, Raw.hintOp, Raw.objOps, Raw.msgOps, Raw.mloc, MemOp.mod, objRaw, msgRaw, Nat.mod_eq_of_lt, Nat.add_assoc, div_top, div_low, mod_low, div_self', mul_low, bitsAt]
theorem Fields.mrow (h : Hdr) (op : RowOp) (slot : Fin 8) (acc : Fin 8) (d n c0 : Reg) : Fields.Statement (.mrow h op slot acc d n c0) := by
  intro hw _ r hr
  obtain rfl := (Option.some.inj hr).symm
  have := op.code_lt
  have := slot.isLt
  have := acc.isLt
  have := d.code_lt
  have := n.code_lt
  have := c0.code_lt
  simp (disch := omega) [parse, parse6, Machine.rowOfWord, modT, modF, Raw.bil, Raw.bi, Raw.memOp, Raw.hintOp, Raw.objOps, Raw.msgOps, Raw.mloc, MemOp.mod, objRaw, msgRaw, Nat.mod_eq_of_lt, Nat.add_assoc, div_top, div_low, mod_low, div_self', mul_low, bitsAt]
theorem Fields.mscale (h : Hdr) (slot : Fin 8) (acc : Fin 8) (s n c0 : Reg) : Fields.Statement (.mscale h slot acc s n c0) := by
  intro hw _ r hr
  obtain rfl := (Option.some.inj hr).symm
  have := slot.isLt
  have := acc.isLt
  have := s.code_lt
  have := n.code_lt
  have := c0.code_lt
  simp (disch := omega) [parse, parse6, Machine.rowOfWord, modT, modF, Raw.bil, Raw.bi, Raw.memOp, Raw.hintOp, Raw.objOps, Raw.msgOps, Raw.mloc, MemOp.mod, objRaw, msgRaw, Nat.mod_eq_of_lt, Nat.add_assoc, div_top, div_low, mod_low, div_self', mul_low, bitsAt]
theorem Fields.msave (h : Hdr) (m : HintOp) (strm : Bool) : Fields.Statement (.msave h m strm) := by
  intro hw _ r hr
  obtain rfl := (Option.some.inj hr).symm
  have := m.scale.isLt
  have := boolNat_lt strm
  simp (disch := omega) [parse, parse6, Machine.rowOfWord, modT, modF, Raw.bil, Raw.bi, Raw.memOp, Raw.hintOp, Raw.objOps, Raw.msgOps, Raw.mloc, MemOp.mod, objRaw, msgRaw, Nat.mod_eq_of_lt, Nat.add_assoc, div_top, div_low, mod_low, div_self', mul_low, bitsAt, add_low, add_modlow]
theorem Fields.mload (h : Hdr) (m : HintOp) (strm : Bool) : Fields.Statement (.mload h m strm) := by
  intro hw _ r hr
  obtain rfl := (Option.some.inj hr).symm
  have := m.scale.isLt
  have := boolNat_lt strm
  simp (disch := omega) [parse, parse6, Machine.rowOfWord, modT, modF, Raw.bil, Raw.bi, Raw.memOp, Raw.hintOp, Raw.objOps, Raw.msgOps, Raw.mloc, MemOp.mod, objRaw, msgRaw, Nat.mod_eq_of_lt, Nat.add_assoc, div_top, div_low, mod_low, div_self', mul_low, bitsAt, add_low, add_modlow]
theorem Fields.mstat (h : Hdr) (sel : MStatSel) (idx : Fin 8) (d : Reg) : Fields.Statement (.mstat h sel idx d) := by
  intro hw _ r hr
  obtain rfl := (Option.some.inj hr).symm
  have := sel.code_lt
  have := idx.isLt
  have := d.code_lt
  simp (disch := omega) [parse, parse6, Machine.rowOfWord, modT, modF, Raw.bil, Raw.bi, Raw.memOp, Raw.hintOp, Raw.objOps, Raw.msgOps, Raw.mloc, MemOp.mod, objRaw, msgRaw, Nat.mod_eq_of_lt, Nat.add_assoc, div_top, div_low, mod_low, div_self', mul_low, bitsAt]
theorem Fields.mcvt (h : Hdr) (slot : Fin 8) (accs accd : Fin 8) (dk : DKind) : Fields.Statement (.mcvt h slot accs accd dk) := by
  intro hw _ r hr
  obtain rfl := (Option.some.inj hr).symm
  have := slot.isLt
  have := accs.isLt
  have := accd.isLt
  have := dk.code_lt
  simp (disch := omega) [parse, parse6, Machine.rowOfWord, modT, modF, Raw.bil, Raw.bi, Raw.memOp, Raw.hintOp, Raw.objOps, Raw.msgOps, Raw.mloc, MemOp.mod, objRaw, msgRaw, Nat.mod_eq_of_lt, Nat.add_assoc, div_top, div_low, mod_low, div_self', mul_low, bitsAt]
theorem Fields.tcopy (h : Hdr) (d blk : Reg) (q : Fin 16) : Fields.Statement (.tcopy h d blk q) := by
  intro hw _ r hr
  obtain rfl := (Option.some.inj hr).symm
  have := d.code_lt
  have := blk.code_lt
  have := q.isLt
  simp (disch := omega) [parse, parse6, Machine.rowOfWord, modT, modF, Raw.bil, Raw.bi, Raw.memOp, Raw.hintOp, Raw.objOps, Raw.msgOps, Raw.mloc, MemOp.mod, objRaw, msgRaw, Nat.mod_eq_of_lt, Nat.add_assoc, div_top, div_low, mod_low, div_self', mul_low, bitsAt]
theorem Fields.coll (h : Hdr) (op : CollOp) (rop : CollRop) (t : CollType) (d src dst : Reg) (q : Fin 16) (root : BitVec 12) (count : BitVec 32) : Fields.Statement (.coll h op rop t d src dst q root count) := by
  intro hw _ r hr
  obtain rfl := (Option.some.inj hr).symm
  have := op.code_lt
  have := rop.code_lt
  have := t.code_lt
  have := q.isLt
  have := root.isLt
  have := count.isLt
  have e1 : (832 + (q.val + (root.toNat * 65536 + count.toNat * 4294967296))) % 1024 = 832 + q.val := by omega
  have e2 : (832 + (q.val + (root.toNat * 65536 + count.toNat * 4294967296))) / 65536 % 4096 = root.toNat := by omega
  have e3 : (832 + (q.val + (root.toNat * 65536 + count.toNat * 4294967296))) / 4294967296 = count.toNat := by omega
  simp (disch := omega) [parse, parse6, Machine.rowOfWord, modT, modF, Raw.bil, Raw.bi, Raw.memOp, Raw.hintOp, Raw.objOps, Raw.msgOps, Raw.mloc, MemOp.mod, objRaw, msgRaw, Nat.mod_eq_of_lt, Nat.add_assoc, div_top, div_low, mod_low, div_self', mul_low, bitsAt, e1, e2, e3]
theorem Fields.unassignedOpcode (h : Hdr) (raw : BitVec 128) : Fields.Statement (.unassignedOpcode h raw) := by
  intro _ h2
  exact absurd h2 (by simp [Machine.assigned, Instr.isUnassigned])
theorem Fields.longLatencyComplete (gid tid pend : Nat) (which : BitVec 16) : Fields.Statement (.longLatencyComplete gid tid pend which) := by exact fun _ _ r hr => nomatch hr
theorem Fields.napExpire (gid tid : Nat) : Fields.Statement (.napExpire gid tid) := by exact fun _ _ r hr => nomatch hr
theorem Fields.gatherMismatchDetect (gid clan : Nat) : Fields.Statement (.gatherMismatchDetect gid clan) := by exact fun _ _ r hr => nomatch hr
theorem Fields.watchdogExpire (gid tid : Nat) : Fields.Statement (.watchdogExpire gid tid) := by exact fun _ _ r hr => nomatch hr
theorem Fields.launchDequeue (sched : Nat) : Fields.Statement (.launchDequeue sched) := by exact fun _ _ r hr => nomatch hr
theorem Fields.unitPlace (sched hamlet : Nat) (cores : List Nat) : Fields.Statement (.unitPlace sched hamlet cores) := by exact fun _ _ r hr => nomatch hr
theorem Fields.startTimeReached (uid : Nat) : Fields.Statement (.startTimeReached uid) := by exact fun _ _ r hr => nomatch hr
theorem Fields.budgetTick (sched : Nat) : Fields.Statement (.budgetTick sched) := by exact fun _ _ r hr => nomatch hr
theorem Fields.periodRefill (sched : Nat) : Fields.Statement (.periodRefill sched) := by exact fun _ _ r hr => nomatch hr
theorem Fields.serviceCoreRotate (core : Nat) : Fields.Statement (.serviceCoreRotate core) := by exact fun _ _ r hr => nomatch hr
theorem Fields.odtChangeApply (ctx core : Nat) : Fields.Statement (.odtChangeApply ctx core) := by exact fun _ _ r hr => nomatch hr
theorem Fields.groupSave (uid : Nat) : Fields.Statement (.groupSave uid) := by exact fun _ _ r hr => nomatch hr
theorem Fields.saveSlotWrite (uid : Nat) : Fields.Statement (.saveSlotWrite uid) := by exact fun _ _ r hr => nomatch hr
theorem Fields.groupRestore (uid hamlet : Nat) (cores : List Nat) : Fields.Statement (.groupRestore uid hamlet cores) := by exact fun _ _ r hr => nomatch hr
theorem Fields.queueBatchEnter (queue : Nat) : Fields.Statement (.queueBatchEnter queue) := by exact fun _ _ r hr => nomatch hr
theorem Fields.carterTakeCopycmd (queue : Nat) : Fields.Statement (.carterTakeCopycmd queue) := by exact fun _ _ r hr => nomatch hr
theorem Fields.carterElementWrite (req : Nat) : Fields.Statement (.carterElementWrite req) := by exact fun _ _ r hr => nomatch hr
theorem Fields.carterCompletion (req : Nat) : Fields.Statement (.carterCompletion req) := by exact fun _ _ r hr => nomatch hr
theorem Fields.wellReadComplete (filemap page : Nat) (data : Option (List Byte)) (sct sc : BitVec 8) : Fields.Statement (.wellReadComplete filemap page data sct sc) := by exact fun _ _ r hr => nomatch hr
theorem Fields.wellFetch (queue : Nat) : Fields.Statement (.wellFetch queue) := by exact fun _ _ r hr => nomatch hr
theorem Fields.wellWriteback (queue : Nat) : Fields.Statement (.wellWriteback queue) := by exact fun _ _ r hr => nomatch hr
theorem Fields.wellEvict (queue : Nat) : Fields.Statement (.wellEvict queue) := by exact fun _ _ r hr => nomatch hr
theorem Fields.wellFlush (queue : Nat) : Fields.Statement (.wellFlush queue) := by exact fun _ _ r hr => nomatch hr
theorem Fields.wellTrim (queue : Nat) : Fields.Statement (.wellTrim queue) := by exact fun _ _ r hr => nomatch hr
theorem Fields.wellNvmeComplete (cmd : Nat) (sct sc : BitVec 8) : Fields.Statement (.wellNvmeComplete cmd sct sc) := by exact fun _ _ r hr => nomatch hr
theorem Fields.cisternArrive (req : Nat) : Fields.Statement (.cisternArrive req) := by exact fun _ _ r hr => nomatch hr
theorem Fields.cisternHoldExpire (req : Nat) : Fields.Statement (.cisternHoldExpire req) := by exact fun _ _ r hr => nomatch hr
theorem Fields.cisternSend (req : Nat) : Fields.Statement (.cisternSend req) := by exact fun _ _ r hr => nomatch hr
theorem Fields.atomicHomePerform (req : Nat) : Fields.Statement (.atomicHomePerform req) := by exact fun _ _ r hr => nomatch hr
theorem Fields.cisternReplySplit (req : Nat) : Fields.Statement (.cisternReplySplit req) := by exact fun _ _ r hr => nomatch hr
theorem Fields.gleanerTakeEntry (queue : Nat) : Fields.Statement (.gleanerTakeEntry queue) := by exact fun _ _ r hr => nomatch hr
theorem Fields.sweepStart  : Fields.Statement (.sweepStart ) := by exact fun _ _ r hr => nomatch hr
theorem Fields.sweepEnd  : Fields.Statement (.sweepEnd ) := by exact fun _ _ r hr => nomatch hr
theorem Fields.remoteRequestArrive (r : RemoteReq) : Fields.Statement (.remoteRequestArrive r) := by exact fun _ _ r hr => nomatch hr
theorem Fields.remoteResponseTimeout (req : Nat) : Fields.Statement (.remoteResponseTimeout req) := by exact fun _ _ r hr => nomatch hr
theorem Fields.wcAgeExpire (core : Nat) (svc : Bool) (entry : Nat) : Fields.Statement (.wcAgeExpire core svc entry) := by exact fun _ _ r hr => nomatch hr
theorem Fields.replWriteStamp  : Fields.Statement (.replWriteStamp ) := by exact fun _ _ r hr => nomatch hr
theorem Fields.replReplicaApply (die : Fin 7) : Fields.Statement (.replReplicaApply die) := by exact fun _ _ r hr => nomatch hr
theorem Fields.collRoundComplete (queue : Nat) (others : List (Nat × Contribution)) : Fields.Statement (.collRoundComplete queue others) := by exact fun _ _ r hr => nomatch hr
theorem Fields.inboundPcieRead (port : Nat) (addr : DWord) (len : Nat) : Fields.Statement (.inboundPcieRead port addr len) := by exact fun _ _ r hr => nomatch hr
theorem Fields.inboundPcieWrite (port : Nat) (addr : DWord) (data : List Byte) : Fields.Statement (.inboundPcieWrite port addr data) := by exact fun _ _ r hr => nomatch hr
theorem Fields.msiXInterrupt (port vector : Nat) : Fields.Statement (.msiXInterrupt port vector) := by exact fun _ _ r hr => nomatch hr
theorem Fields.ioCompletionTimeout (acc : Nat) : Fields.Statement (.ioCompletionTimeout acc) := by exact fun _ _ r hr => nomatch hr
theorem Fields.fabricPacketReceive (port : Fin 18) (prot authentic : Bool) (p : Payload) : Fields.Statement (.fabricPacketReceive port prot authentic p) := by exact fun _ _ r hr => nomatch hr
theorem Fields.telemetrySample (power : Nat) (rails : List (Nat × Nat)) (temps hbm : List Nat) (links : List (Bool × Nat)) : Fields.Statement (.telemetrySample power rails temps hbm links) := by exact fun _ _ r hr => nomatch hr
theorem Fields.throttleStepDown  : Fields.Statement (.throttleStepDown ) := by exact fun _ _ r hr => nomatch hr
theorem Fields.throttleStepUp  : Fields.Statement (.throttleStepUp ) := by exact fun _ _ r hr => nomatch hr
theorem Fields.thermalLimit (die : Fin 7) : Fields.Statement (.thermalLimit die) := by exact fun _ _ r hr => nomatch hr
theorem Fields.trngHealthFail  : Fields.Statement (.trngHealthFail ) := by exact fun _ _ r hr => nomatch hr
theorem Fields.fatalError (src : FatalSource) : Fields.Statement (.fatalError src) := by exact fun _ _ r hr => nomatch hr
theorem Fields.coldReset (plan : BootPlan) : Fields.Statement (.coldReset plan) := by exact fun _ _ r hr => nomatch hr
theorem Fields.warmReset (plan : BootPlan) : Fields.Statement (.warmReset plan) := by exact fun _ _ r hr => nomatch hr
theorem Fields.sessionConnect (port : Fin 4) (world : BitVec 4) (authentic : Bool) : Fields.Statement (.sessionConnect port world authentic) := by exact fun _ _ r hr => nomatch hr
theorem Fields.cert (sess : Nat) (tag : DWord) : Fields.Statement (.cert sess tag) := by exact fun _ _ r hr => nomatch hr
theorem Fields.context (sess : Nat) (tag : DWord) : Fields.Statement (.context sess tag) := by exact fun _ _ r hr => nomatch hr
theorem Fields.load (sess : Nat) (tag : DWord) (ctx frame : DWord) (off : Nat) (data : List Byte) : Fields.Statement (.load sess tag ctx frame off data) := by exact fun _ _ r hr => nomatch hr
theorem Fields.hostLaunch (sess : Nat) (tag : DWord) (bytes : List Byte) (handles : List (Nat × DWord)) : Fields.Statement (.hostLaunch sess tag bytes handles) := by exact fun _ _ r hr => nomatch hr
theorem Fields.copy (sess : Nat) (tag : DWord) (queue ctx block : DWord) : Fields.Statement (.copy sess tag queue ctx block) := by exact fun _ _ r hr => nomatch hr
theorem Fields.read (sess : Nat) (tag : DWord) (ctx frame : DWord) (off len : Nat) : Fields.Statement (.read sess tag ctx frame off len) := by exact fun _ _ r hr => nomatch hr
theorem Fields.subscribe (sess : Nat) (tag : DWord) (ep : DWord) : Fields.Statement (.subscribe sess tag ep) := by exact fun _ _ r hr => nomatch hr
theorem Fields.attest (sess : Nat) (tag : DWord) (ctx buf : DWord) : Fields.Statement (.attest sess tag ctx buf) := by exact fun _ _ r hr => nomatch hr
theorem Fields.hostReservedCommand (sess : Nat) (tag : DWord) (code : BitVec 8) : Fields.Statement (.hostReservedCommand sess tag code) := by exact fun _ _ r hr => nomatch hr
theorem Fields.mgmtReadTelemetry (i3c : Bool) : Fields.Statement (.mgmtReadTelemetry i3c) := by exact fun _ _ r hr => nomatch hr
theorem Fields.mgmtReadAlmanac  : Fields.Statement (.mgmtReadAlmanac ) := by exact fun _ _ r hr => nomatch hr
theorem Fields.mgmtSetPowerCap (watts : Nat) : Fields.Statement (.mgmtSetPowerCap watts) := by exact fun _ _ r hr => nomatch hr
theorem Fields.mgmtStageFirmware (version : Nat) (digest : BitVec 384) (sigOk : Bool) : Fields.Statement (.mgmtStageFirmware version digest sigOk) := by exact fun _ _ r hr => nomatch hr
theorem Fields.trngStartUpTestsPass  : Fields.Statement (.trngStartUpTestsPass ) := by exact fun _ _ r hr => nomatch hr
theorem Fields.packageLeavesFabric (pkg : BitVec 12) (groups : List Nat) : Fields.Statement (.packageLeavesFabric pkg groups) := by exact fun _ _ r hr => nomatch hr
theorem Fields.pcieLinkDown (port : Nat) : Fields.Statement (.pcieLinkDown port) := by exact fun _ _ r hr => nomatch hr
end Sys2Proof.Laws
end

