-- ==== Sys2Proof/Laws/Reads.lean ====
section
/-! SUPPORT. Operands and results of a formed set: what the set reads when it acts is what its threads held before it formed, unless a REPL write lands between, and an instruction that computes results completes with them. -/

namespace Sys2Proof.Machine

/-- A group without its threads and clans. -/
def Group.bare (g : Group) : Group := { g with threads := [], clans := [] }

/-- Two states give every operand the same value. -/
structure Sees (s t : State) : Prop where
  thr : ∀ g u, ∃ w n b, t.thr g u = { s.thr g u with wait := w, issue := n, going := b }
  clan : ∀ g c, ∃ l, t.clan g c = { s.clan g c with gathers := l }
  grp : ∀ g, (t.grp g).bare = (s.grp g).bare
  rest : { t with groups := s.groups } = s

theorem Sees.refl (s : State) : Sees s s := ⟨fun _ _ => ⟨_, _, _, rfl⟩, fun _ _ => ⟨_, rfl⟩, fun _ => rfl, rfl⟩

theorem Sees.trans {s t u : State} (a : Sees s t) (b : Sees t u) : Sees s u where
  thr g n := by
    obtain ⟨_, _, _, e⟩ := a.thr g n
    obtain ⟨w', n', b', e'⟩ := b.thr g n
    exact ⟨w', n', b', by rw [e', e]⟩
  clan g c := by
    obtain ⟨w, e⟩ := a.clan g c
    obtain ⟨w', e'⟩ := b.clan g c
    exact ⟨w', by rw [e', e]⟩
  grp g := (b.grp g).trans (a.grp g)
  rest := by
    have h := congrArg (fun q : State => { q with groups := s.groups }) b.rest
    exact h.trans a.rest

theorem Map.get?_none_of_isSome_eq {α : Type} {m m' : List (Nat × α)} {k : Nat} (h : (Map.get? k m').isSome = (Map.get? k m).isSome)
    (e : Map.get? k m = none) : Map.get? k m' = none := by
  rw [e] at h
  simpa using h

theorem Sees.wait (s : State) (g t : Nat) (w : Wait) (n : Thread → Nat) (b : Bool) :
    Sees s (s.modThr g t fun q => { q with wait := w, issue := n q, going := b }) where
  thr j u := by
    by_cases e : j = g ∧ u = t
    · obtain ⟨rfl, rfl⟩ := e
      cases h : Map.get? u (s.grp j).threads with
      | some q => exact ⟨w, _, b, State.thr_modThr_self _ (by rw [h]; rfl)⟩
      | none =>
        have hn := Map.get?_none_of_isSome_eq (State.listed_modThr s j u j u fun q => { q with wait := w, issue := n q, going := b }) h
        exact ⟨(s.thr j u).wait, (s.thr j u).issue, (s.thr j u).going, by simp only [State.thr, h, hn]⟩
    · exact ⟨(s.thr j u).wait, (s.thr j u).issue, (s.thr j u).going, State.thr_modThr_other s _ (by tauto)⟩
  clan j c := ⟨(s.clan j c).gathers, State.clan_modThr s g t j c _⟩
  grp j := State.grp_modThr_keep Group.bare s g t j _ fun _ _ => rfl
  rest := rfl

theorem Sees.gathers (s : State) (g c : Nat) (f : List Gather → List Gather) : Sees s (s.modClan g c fun q => { q with gathers := f q.gathers }) where
  thr j u := ⟨(s.thr j u).wait, (s.thr j u).issue, (s.thr j u).going, State.thr_modClan s g c j u _⟩
  clan j d := by
    by_cases e : j = g
    · subst e
      simp only [State.clan, State.modClan, State.grp]
      rw [State.grp?_modGrp_self]
      cases s.grp? j with
      | none => exact ⟨_, rfl⟩
      | some q =>
        simp only [Option.map_some, Option.getD_some]
        by_cases hd : d = c
        · subst hd
          rw [Map.get?_modify_self]
          cases Map.get? d q.clans with
          | none => exact ⟨_, rfl⟩
          | some k => exact ⟨_, rfl⟩
        · rw [Map.get?_modify_other _ hd]
          exact ⟨_, rfl⟩
    · exact ⟨(s.clan j d).gathers, by simp only [State.clan, State.modClan, State.grp_modGrp_other s _ e]⟩
  grp j := State.grp_modGrp_keep Group.bare s g j
    (fun q => { q with clans := Map.modify c (fun k => { k with gathers := f k.gathers }) q.clans }) fun _ => rfl
  rest := rfl

/-- A formed set acts on what its threads held, when no REPL write is under way. -/
theorem Formed.sees {s s0 : State} {a : Actor} (h : Formed s s0 a) (hq : replQuiet s = true) : Sees s s0 := by
  obtain ⟨c, g, _, _, _, _, rfl, _⟩ := h
  have key : ∀ (n : Thread → Nat) (xs : List Cx) (t : State),
      Sees t (xs.foldl (fun s x => s.modThr x.gid x.tid fun t => { t with wait := .none, issue := n t, going := true }) t) := by
    intro n xs
    induction xs with
    | nil => exact Sees.refl
    | cons x xs ih => exact fun t => (Sees.wait t x.gid x.tid .none n true).trans (ih _)
  unfold joined replSettleDie
  dsimp only
  generalize ((s.modClan c.gid c.clan fun cl => { cl with gathers := cl.gathers.erase g }).cur.map Cur.no).getD 0 = no
  have h1 := (Sees.gathers s c.gid c.clan fun l => l.erase g).trans (key (fun t => if a.begun then t.issue else no) a.cxs _)
  generalize a.cxs.foldl _ _ = t at h1 ⊢
  have e := congrArg replQuiet h1.rest
  have h2 : replQuiet t = true := (show replQuiet t = replQuiet s from e).trans hq
  rw [if_pos h2]
  exact h1

/-! An issue that computes results. -/

/-- An issue of threads that act each for itself, when it computes results. -/
theorem compute_perThread {s : State} {h : Hdr} (hu : h.u = false) (f : State → Cx → List RegWrite) :
    compute h s f = perThread h s noCheck fun s0 st a => retire st a (f s0 a.cx) := by
  simp only [compute, issue, hu, Bool.false_eq_true, if_false]

/-- It writes them in lane order. -/
theorem compute_inLaneOrder {s : State} {c : Cur} {h : Hdr} (hi : Issues s c) (hu : h.u = false) (f : State → Cx → List RegWrite) :
    compute h s f = inLaneOrder s c h (f s) := by
  rw [compute_perThread hu]
  simp only [perThread, hi.1, noFault, List.foldl_map, inLaneOrder]

/-- What it leaves behind when the results are the threads' own. -/
theorem compute_each {s : State} {c : Cur} {h : Hdr} (hi : Issues s c) (hu : h.u = false) (f : State → Cx → List RegWrite)
    (hf : ∀ l ∈ c.lanes, (f s ⟨c.gid, c.clan, l⟩).all RegWrite.isOwn = true) : EachLane s (compute h s f) c h (f s) := by
  rw [compute_perThread hu]
  exact perThread_each hi _ _ fun st l hl hst => retire_own st c hst _ _ _ _ _ (hf l hl)

/-- An instruction whose meaning computes results completes with them, with U = 0 and with U = 1. -/
theorem yields_of_compute {i : Instr} {s : State} {c : Cur} {h : Hdr} (hi : Issues s c) (f : State → Cx → List RegWrite)
    (he : ∀ r, exec i r = .next (compute h r f)) : Yields i s c h (f s) := by
  refine ⟨fun hu => ⟨by rw [he, compute_inLaneOrder hi hu], fun ho => compute_inLaneOrder hi hu f ▸ compute_each hi hu f ho⟩, fun hu r a hfo => ?_⟩
  rw [he]
  have := issue_performs (s := r) (s0 := s) (h := h) (a := a) (Or.inr ⟨hu, hfo⟩) noCheck (fun s0 st a => retire st a (f s0 a.cx)) rfl
  simp only [compute, this]

/-- A long-latency instruction without lookahead completes in the same way. -/
theorem yields_of_computeLong {i : Instr} {s : State} {c : Cur} {h : Hdr} (hi : Issues s c) (f : State → Cx → List RegWrite) (hl : h.look = 0)
    (he : ∀ r, exec i r = .next (computeLong h r f)) : Yields i s c h (f s) := by
  refine yields_of_compute hi f fun r => (he r).trans ?_
  simp only [computeLong, compute, land, hl, Fin.val_zero, true_or, if_true]

end Sys2Proof.Machine
end

