-- ==== Sys2Proof/Laws/Step.lean ====
section
/-! SUPPORT. One issue without pending results: no result is due, no earlier access holds a thread back, and a legal instruction that its thread may perform is performed by `exec`. -/

namespace Sys2Proof.Machine

theorem fate_native (s : State) (c : Cur) (m : Nat) (ms : List Nat) (i : Instr) (hc : c.gathered = false)
    (hms : c.lanes.filter (fun u => (s.thr c.gid (c.clan * 32 + u)).guard (Raw.ofWord c.raw.toNat).hdr) = m :: ms)
    (hd : decodeWord c.raw.toNat = .ok i) (ha : i.isUnassigned = false)
    (ho : odtEntry s c.gid (Raw.ofWord c.raw.toNat).op = 0 ∨
      ((Raw.ofWord c.raw.toNat).op = 0x10D ∧ (s.thr c.gid (c.clan * 32 + m)).edepth ≠ 0))
    (hcx : contextReason s ⟨c.gid, c.clan, m⟩ i (Raw.ofWord c.raw.toNat).op (Raw.ofWord c.raw.toNat).hdr.u = 0) :
    fateOf s c = .native (refine s ⟨c.gid, c.clan, m⟩ i) := by
  have hl : fateLane s c (Raw.ofWord c.raw.toNat) = some m := by simp [fateLane, hc, hms]
  have hz : (if (Raw.ofWord c.raw.toNat).op = 0x10D ∧ 1 ≤ (s.thr c.gid (c.clan * 32 + m)).edepth then 0
      else odtEntry s c.gid (Raw.ofWord c.raw.toNat).op) = 0 := by
    split
    · rfl
    · rename_i h
      exact ho.elim id fun h' => absurd ⟨h'.1, Nat.one_le_iff_ne_zero.2 h'.2⟩ h
  unfold fateOf
  simp [hl, hd, ha, hcx, Cx.tid]
  exact hz

theorem Map.modify_same {α : Type} (k : Nat) (f : α → α) : (m : List (Nat × α)) → (∀ v, Map.get? k m = some v → f v = v) → Map.modify k f m = m
  | [], _ => rfl
  | (a, w) :: m, h => by
    by_cases e : a = k
    · have := h w (by simp [Map.get?, e])
      simp [Map.modify, e, this]
    · have := Map.modify_same k f m fun v hv => h v (by simpa [Map.get?, e] using hv)
      simp [Map.modify, e, this]

theorem State.modThr_same (s : State) (g u : Nat) (f : Thread → Thread) (h : f (s.thr g u) = s.thr g u) : s.modThr g u f = s := by
  have e : Map.modify g (fun q : Group => { q with threads := Map.modify u f q.threads }) s.groups = s.groups := by
    refine Map.modify_same g _ s.groups fun v hv => ?_
    have e2 : Map.modify u f v.threads = v.threads := Map.modify_same u f _ fun t ht => by
      have : s.thr g u = t := by simp [State.thr, State.grp, State.grp?, hv, ht]
      rw [← this]; exact h
    rw [e2]
  simp only [State.modThr, State.modGrp, e]

theorem landDue_nil (s : State) (x : Cx) (b : Bool) (h : (s.thr x.gid x.tid).pend = []) : landDue s x b = s := by
  simp only [landDue, h, List.filter_nil, List.foldl_nil]
  apply State.modThr_same
  rw [show ((s.thr x.gid x.tid).pend.filter fun p => !(due b p && p.src == PendSrc.here)) = (s.thr x.gid x.tid).pend by simp [h]]

theorem landAll_nil (s1 : State) (gid c : Nat) (b : Bool) : ∀ ls : List Nat, (∀ u ∈ ls, (s1.thr gid (c * 32 + u)).pend = []) → ls.foldl (fun s l => landDue s ⟨gid, c, l⟩ b) s1 = s1 := by
  intro ls
  induction ls with
  | nil => intro _; rfl
  | cons a as ih =>
    intro h
    have e := landDue_nil s1 ⟨gid, c, a⟩ b (h a (List.mem_cons_self ..))
    rw [List.foldl_cons, e]
    exact ih fun u hu => h u (List.mem_cons_of_mem _ hu)

/-- A thread with no unanswered remote request has none of any kind. -/
theorem remoteOf_false {s : State} {x : Cx} (h : remotePending s x = false) (f : RemoteOut → Bool) : remoteOf s x f = false := by
  simp only [remotePending, remoteOf, List.any_eq_false] at h ⊢
  intro r hr
  have h1 := h r hr
  split at h1 <;> simp_all

theorem issueLanes_native (s1 : State) (gid c l foot : Nat) (on : List Nat) (raw : BitVec 128) (i : Instr)
    (hp : ∀ u ∈ l :: on, (s1.thr gid (c * 32 + u)).pend = [] ∧ farPending s1 ⟨gid, c, u⟩ = false ∧ remotePending s1 ⟨gid, c, u⟩ = false)
    (hf : fetch s1 ⟨gid, c, l⟩ = .ok raw foot) (no : Nat) (cur : Cur)
    (hcur : cur = ⟨gid, c, l :: on, BitVec.ofNat 64 (s1.thr gid (c * 32 + l)).pcc.addr, raw, foot, false, no, false⟩)
    (hfate : fateOf (enterIssue (s1.modClan gid c fun k => { k with lead := l }) no gid c (l :: on)) cur = .native i) :
    issueLanes s1 no false gid c (l :: on) false =
      finish (exec i { enterIssue (s1.modClan gid c (fun k => { k with lead := l })) no gid c (l :: on) with cur := some cur }) gid c := by
  have hlate : ∀ b, (l :: on).filterMap (fun l => (lateFault s1 ⟨gid, c, l⟩ b).map fun p => (l, p)) = [] := by
    intro b; rw [List.filterMap_eq_nil_iff]; intro u hu
    have := (hp u hu).1
    simp only [lateFault, Cx.tid] at *; simp [this]
  have hgo : ∀ b, (l :: on).filter (fun l => !stillDue s1 ⟨gid, c, l⟩ b) = l :: on := by
    intro b; rw [List.filter_eq_self]; intro u hu
    have := (hp u hu).1
    simp only [stillDue, Cx.tid] at *; simp [this]
  have hland : ∀ b, (l :: on).foldl (fun s l => landDue s ⟨gid, c, l⟩ b) s1 = s1 := fun b => landAll_nil s1 gid c b _ fun u hu => (hp u hu).1
  have hheld : heldByFar (s1.modClan gid c fun k => { k with lead := l }) cur = [] := by
    unfold heldByFar
    subst hcur
    split
    · split
      · rw [List.filter_eq_nil_iff]; intro u hu
        have : farPending (s1.modClan gid c fun k => { k with lead := l }) ⟨gid, c, u⟩ = farPending s1 ⟨gid, c, u⟩ := rfl
        have hr : ∀ f, remoteOf (s1.modClan gid c fun k => { k with lead := l }) ⟨gid, c, u⟩ f = false :=
          fun f => remoteOf_false (s := s1) (hp u hu).2.2 f
        simp only [this, (hp u hu).2.1]; simp [remoteAcquire, remoteReading, hr]
      · rfl
    · rfl
  have hcur2 : ({ cur with lanes := l :: on } : Cur) = cur := by subst hcur; rfl
  subst hcur
  unfold issueLanes
  simp only [hf, hlate, hgo, hland, Cx.tid] at *
  simp only [hheld, List.foldl_nil, List.contains_nil, Bool.not_false, List.filter_true, Bool.false_eq_true, if_false]
  unfold runIssue
  simp only [hfate]

end Sys2Proof.Machine
end

