-- ==== Sys2Proof/Tests/Slice0.lean ====
section
/-! SUPPORT. Tests and witnesses: words written out from the encodings of spec/ and what they decode to, ill-formed instructions that WellFormed refuses, one step on small states with the results that the spec's rules and worked examples give, and, for every statement with hypotheses, states and operands that meet them. -/

open Sys2Proof Sys2Proof.Machine

set_option maxRecDepth 20000
set_option exponentiation.threshold 400

namespace Sys2Proof.Tests

abbrev p : Hdr := ⟨7, false, 0, false⟩
abbrev pu : Hdr := ⟨7, false, 0, true⟩
def mo (t : AType) (o : MOrd) (sc : Scope) (far : Bool) : MemOp := ⟨.c 1, .vz, 0, t, 0, o, sc, far, false⟩
def nopWord : Nat := 0x0003_FFFF_FFF0_001C

/-- A booted machine with one group of one thread in the middle of an issue. -/
def cur1 : Cur := ⟨0, 0, [0], 0x100000, 0, 8, false, 0, false⟩
def one : State := { State.reset.withFetchWord 64 nopWord with agenda := [], cur := some cur1 }
/-- Its thread, as the performer. -/
def solo : Actor := ⟨⟨0, 0, 0⟩, [0], false, none⟩
/-- Lane 0. -/
def x0 : Cx := ⟨0, 0, 0⟩
def setV (s : State) (t : Nat) (l : List (Nat × Word)) : State := s.modThr 0 t fun q => { q with v := SMap.ofList 0 (l.foldl (fun m e => m.set e.1 e.2) (List.replicate 32 0)) }
def setC (s : State) (l : List (Nat × Cap)) : State := s.modThr 0 0 fun q => { q with c := l.foldl (fun m e => SMap.put Cap.null e.1 e.2 m) q.c }
/-- The same machine with n threads, lanes 0 to n - 1, all issuing. -/
def team (n : Nat) : State :=
  { (one.modGrp 0 fun g => { g with nthreads := n, threads := (List.range n).map fun i => (i, one.thr 0 0) }) with
    cur := some { cur1 with lanes := List.range n } }

def after (o : Host.Outcome State Fault Refusal) : State := match o with | .next s => s | _ => State.reset
/-- Registers of lane t afterwards. -/
def v32 (o : Host.Outcome State Fault Refusal) (t n : Nat) : Nat := (SMap.get 0 n ((after o).thr 0 t).v).toNat
def v64 (o : Host.Outcome State Fault Refusal) (t n : Nat) : Nat := v32 o t n + 2 ^ 32 * v32 o t (n + 1)
def pr (o : Host.Outcome State Fault Refusal) (t : Nat) (i : Pred) : Bool := ((after o).thr 0 t).pred i
def cp (o : Host.Outcome State Fault Refusal) (n : Nat) : Cap := SMap.get Cap.null n ((after o).thr 0 0).c
def ob (b : Body) : Obj := { world := 4, torn := false, parent := none, src := 0, body := b }
def q6 (n : Nat) : QueueObj := { (default : QueueObj) with kind := 6, width := 128, depth := 32, reserved := n, coll := some ⟨1, 0, 2, []⟩ }
def rw1 : ReplWrite := { pa := 0x110000, data := [1], tags := [], gid := 0, tids := [0] }
/-- A write's page belongs to a bound Frame whose home is another package. -/
def awayOf (s : State) : State := { s with replNew := [rw1], pkg := 1, objs := Map.set 0x60000 (ob (.frame { pa := 0x100000, log2 := 17, kind := 0, frozen := false, repl := some (0x52000, 1) })) (Map.set 0x52000 (ob (.queue (q6 0))) s.objs) }
def away : State := awayOf one
def isOk {α : Type} (r : Except Nat α) : Bool := match r with | .ok _ => true | .error _ => false

/-! Words written out from the field positions of spec/03 and of each instruction. -/

/-- MOV.b64 v2, k4. -/
theorem test_decode_mov_k : decodeTableWord 64 0x1803FFC10020005C = some (.mov p .b64 (.v 2) (.k 4)) := by decide
/-- MOV.b128.nb q3, c5 with p2: DST q3, NB and NBP in OPX. -/
theorem test_decode_movPush : decodeTableWord 64 0x6503FFD97430005C = some (.movPush p .b128 3 (.c 5) true 2) := by decide
/-- SHL.wrap.b32 v1, v2, 5. -/
theorem test_decode_shlI : decodeTableWord 96 0x51007FF008010059D = some (.shlI p .b32 true (.v 1) (.v 2) 5) := by decide
/-- ICMP.lt.i32 p1, p2, v3, v4. -/
theorem test_decode_icmpB : decodeTableWord 64 0x31480400FFF0041C = some (.icmpB p .i32 .lt 1 2 (.v 3) (.v 4)) := by decide
/-- BFX.n32 v1, v2, v3, v4. -/
theorem test_decode_bfx : decodeTableWord 96 0x450000300801007DD = some (.bfx p .n32 (.v 1) (.v 2) (.v 3) (.v 4)) := by decide
/-- PLUT p1, p2, p3, p4, 0x96: TT in the SRCA field. -/
theorem test_decode_plut : decodeTableWord 64 0x14E3FF25BFF0089C = some (.plut p 1 2 3 4 0x96) := by decide
/-- MOVI.b64 v8, 0x100000000. -/
theorem test_decode_moviL : decodeTableWord 128 0x1000000001803FFFFC080009E = some (.moviL p .b64 (.v 8) 0x100000000) := by decide
/-- FADD.rz.ftz.f16 v1, v2, 1.0. -/
theorem test_decode_faddI : decodeTableWord 96 0x3C001B03FF008010201D = some (.faddI p .f16 .rz true (.v 1) (.v 2) 0x3C00) := by decide
/-- FCVT.rn.sat.e4m3.f32 v1, v2: SF 1, DF 4. -/
theorem test_decode_fcvt : decodeTableWord 64 0x84BFF008010241C = some (.fcvt p .fp32 .e4m3 .rn false true (.v 1) (.v 2)) := by decide
/-- FDIV.ru.f64 v2, v4, v6 with LOOK 5. -/
theorem test_decode_fdivLook : decodeTableWord 64 0x6000601002521DC = some (.fdivB ⟨7, false, 5, false⟩ .f64 .ru false (.v 2) (.v 4) (.v 6)) := by decide
/-- BRA +64 if not p2. -/
theorem test_decode_bra : decodeTableWord 96 0x400003FFFFFFF04029 = some (.bra ⟨2, true, 0, false⟩ 64) := by decide
/-- TRAP 7. -/
theorem test_decode_trapI : decodeTableWord 96 0x70003FFFFFFF041DD = some (.trapI p 7) := by decide
/-- GETSR v4, %time. -/
theorem test_decode_getsr : decodeTableWord 64 0x57FFFFC04042DC = some (.getsr p 0x15 (.v 4)) := by decide
/-- FENCE.release.package. -/
theorem test_decode_fence : decodeTableWord 64 0x143FFFFFFF0439C = some (.fence p .release .package) := by decide
/-- ST.b32.release.die [c2 + v7*4 + 16], v4. -/
theorem test_decode_stM : decodeTableWord 96 0x10253007D88040605D = some (.stM p ⟨.c 2, .v 7, 16, .b32, 2, .release, .die, false, false⟩ (.v 4)) := by decide
/-- LD.i8 v1, [kc1 - 1]. -/
theorem test_decode_ldNegImm : decodeTableWord 96 0xFFFFFFFF0803FFE04010601D = some (.ldM p ⟨.kc 1, .vz, 0xFFFFFFFF, .i8, 0, .plain, .clan, false, false⟩ (.v 1)) := by decide
/-- CSETA.u kc2, kc1, k4. -/
theorem test_decode_csetaB : decodeTableWord 64 0x800304E07820805C = some (.csetaB ⟨7, false, 0, true⟩ (.kc 2) (.kc 1) (.k 4)) := by decide
/-- CBND.exact c3, c2, 64. -/
theorem test_decode_cbndI : decodeTableWord 96 0x400007FFD8B63080DD = some (.cbndI p true (.c 3) (.c 2) 64) := by decide
/-- CTEST.sub p3, c1, c2. -/
theorem test_decode_ctest : decodeTableWord 64 0x360362D87FF081DC = some (.ctest p .sub 3 (.c 1) (.c 2)) := by decide
/-- RECV.w8.c2 v3, c5, v8, c6, info=k3, rpl=c7. -/
theorem test_decode_recv : decodeTableWord 96 0x367C0F66440008D94030835D = some (.recv p ⟨.v 3, .c 5, .v 8, 8, .c 6, 2⟩ false 0 (.k 3) (.c 7)) := by decide
/-- QBIND.pop v1, q2, c3. -/
theorem test_decode_qbind : decodeTableWord 64 0x742D8C010851C = some (.qbind p .pop (.v 1) 2 (.c 3)) := by decide
/-- SHFL.down.w16 p1, v2, v3, v4, v5. -/
theorem test_decode_shfl : decodeTableWord 96 0xFFC0542400400C020A01D = some (.shfl p .down false 1 1 (.v 2) (.v 3) (.v 4) (.v 5) .vz) := by decide
/-- VOTE.ballot p1, k2, !p3, mask 0xFFFF. -/
theorem test_decode_voteI : decodeTableWord 96 0xFFFF65C3FFFFF020A05D = some (.voteI p .ballot 1 3 true (.k 2) 0xFFFF) := by decide
/-- BAR.arrive 9, k1, m=k2. -/
theorem test_decode_barB : decodeTableWord 64 0x202702C07FF0A21C = some (.barB p .arrive 9 (.k 1) (.k 2)) := by decide
/-- MZERO acc0, acc3, sb1. -/
theorem test_decode_mzero : decodeTableWord 64 0x827FFFFFFF0C11C = some (.mzero p 9 2) := by decide
/-- MSTAT.alloc k3. -/
theorem test_decode_mstat : decodeTableWord 64 0x2003FFFFF030C25C = some (.mstat p .alloc 0 (.k 3)) := by decide
/-- an unassigned opcode of class 3 with any fields. -/
theorem test_decode_unassigned : decodeTableWord 64 0x48C0300801063DC = some (.unassignedOpcode p 0x48C0300801063DC) := by decide

/-- R91-R102. -/
theorem test_decode_words_integer : ([
    (64, 0x1003FF020090005C, .mov p .b32 (.v 9) (.v 8)),
    (64, 0x1803FFD1C040005C, .movPop p .b64 (.v 4) 7 false 0),
    (96, 0xFFFFFFFE3003FFFFC050009D, .moviI p .i32 (.v 5) 0xFFFFFFFE),
    (64, 0x14800300801000DC, .selB p .b32 (.v 1) (.v 2) (.v 3) 4 true),
    (96, 0x94D03FF00801000DD, .selI p .n16 (.v 1) (.v 2) 9 5 false),
    (64, 0x300006014040011C, .iaddB p .i32 (.v 4) (.v 5) (.v 6)),
    (96, 0x74003FF014040011D, .iaddI p .n8 (.v 4) (.v 5) 7),
    (128, 0x100000000003803FF018040011E, .iaddL p .i64 (.v 4) (.v 6) 0x10000000000),
    (64, 0x300006014040015C, .isubB p .i32 (.v 4) (.v 5) (.v 6)),
    (96, 0x74003FF014040015D, .isubI p .n8 (.v 4) (.v 5) 7),
    (128, 0x100000000003803FF018040015E, .isubL p .i64 (.v 4) (.v 6) 0x10000000000),
    (64, 0x13A006014040019C, .iaddcB p .b32 (.v 4) (.v 5) (.v 6) 3 true 2),
    (96, 0x85013FF014040019D, .iaddcI p .n32 (.v 4) (.v 5) 8 0 false 1),
    (64, 0x30040601404001DC, .imulB p .i32 .hi (.v 4) (.v 5) (.v 6)),
    (96, 0x3500BFF01404001DD, .imulI p .n32 .wide (.v 4) (.v 5) 3),
    (128, 0x31803FF01804001DE, .imulL p .b64 .lo (.v 4) (.v 6) 3),
    (96, 0x8300807018040021D, .imad p .i32 .wide (.v 4) (.v 6) (.v 7) (.v 8)),
    (64, 0x300008018040025C, .idivB p .i32 (.v 4) (.v 6) (.v 8)),
    (96, 0x53003FF018040025D, .idivI p .i32 (.v 4) (.v 6) 5),
    (64, 0x500008018040029C, .iremB p .n32 (.v 4) (.v 6) (.v 8)),
    (96, 0x55003FF018040029D, .iremI p .n32 (.v 4) (.v 6) 5),
    (64, 0x28000801804002DC, .iminB p .i16 (.v 4) (.v 6) (.v 8)),
    (96, 0x52803FF01804002DD, .iminI p .i16 (.v 4) (.v 6) 5),
    (64, 0x580008018040031C, .imaxB p .n64 (.v 4) (.v 6) (.v 8)),
    (96, 0x55803FF018040031D, .imaxI p .n64 (.v 4) (.v 6) 5),
    (64, 0x2003FF008010035C, .iabs p .i8 (.v 1) (.v 2)),
    (64, 0x3803FF010020039C, .ineg p .i64 (.v 2) (.v 4)),
    (96, 0x450000300801003DD, .isad p .n32 (.v 1) (.v 2) (.v 3) (.v 4)),
    (96, 0x4300803008010095D, .idot4 p true false (.v 1) (.v 2) (.v 3) (.v 4)),
    (96, 0xC841BFFF00FFF0041D, .icmpI p .n8 .ge 1 7 (.v 3) 200),
    (128, 0x80000000000000001A73FF013FF0041E, .icmpL p .b64 .le 2 4 (.v 4) 0x8000000000000000)] : List (Nat × Nat × Instr)).all (fun t => decodeTableWord t.1 t.2.1 == some t.2.2) = true := by decide

/-- R103-R113. -/
theorem test_decode_words_logic : ([
    (64, 0x80006014040045C, .andB p .b16 (.v 4) (.v 5) (.v 6)),
    (96, 0xF1003FF014040045D, .andI p .b32 (.v 4) (.v 5) 15),
    (128, 0xF1803FF018040045E, .andL p .b64 (.v 4) (.v 6) 15),
    (64, 0x80006014040049C, .orB p .b16 (.v 4) (.v 5) (.v 6)),
    (96, 0xF1003FF014040049D, .orI p .b32 (.v 4) (.v 5) 15),
    (128, 0xF1803FF018040049E, .orL p .b64 (.v 4) (.v 6) 15),
    (64, 0x8000601404004DC, .xorB p .b16 (.v 4) (.v 5) (.v 6)),
    (96, 0xF1003FF01404004DD, .xorI p .b32 (.v 4) (.v 5) 15),
    (128, 0xF1803FF01804004DE, .xorL p .b64 (.v 4) (.v 6) 15),
    (64, 0x3FF014040051C, .not p .b8 (.v 4) (.v 5)),
    (64, 0x100407018040059C, .shlB p .b32 true (.v 4) (.v 6) (.v 7)),
    (64, 0x58040701804005DC, .shrB p .n64 true (.v 4) (.v 6) (.v 7)),
    (96, 0x35803FF01804005DD, .shrI p .n64 false (.v 4) (.v 6) 3),
    (64, 0x380407018040061C, .sarB p .i64 true (.v 4) (.v 6) (.v 7)),
    (96, 0x33803FF018040061D, .sarI p .i64 false (.v 4) (.v 6) 3),
    (96, 0x4100003008010065D, .fshl p .b32 (.v 1) (.v 2) (.v 3) (.v 4)),
    (96, 0x4100003008010069D, .fshr p .b32 (.v 1) (.v 2) (.v 3) (.v 4)),
    (64, 0x1003FF00801006DC, .popc p .b32 (.v 1) (.v 2)),
    (64, 0x1003FF008010071C, .clz p .b32 (.v 1) (.v 2)),
    (64, 0x1003FF008010075C, .ctz p .b32 (.v 1) (.v 2)),
    (64, 0x1003FF008010079C, .brev p .b32 (.v 1) (.v 2)),
    (96, 0x4100003008010081D, .bfi p .b32 (.v 1) (.v 2) (.v 3) (.v 4)),
    (64, 0x100004008010085C, .bpermB p (.v 1) (.v 2) (.v 4)),
    (96, 0x32101003FF008010085D, .bpermI p (.v 1) (.v 2) 0x3210),
    (64, 0x8003FFFFF03008DC, .p2v pu (.k 3)),
    (64, 0x157FF00FFF0091C, .v2p p (.v 3) 0x55)] : List (Nat × Nat × Instr)).all (fun t => decodeTableWord t.1 t.2.1 == some t.2.2) = true := by decide

/-- R114-R125. -/
theorem test_decode_words_float : ([
    (64, 0x140003008010201C, .faddB p .bf16 .rd false (.v 1) (.v 2) (.v 3)),
    (128, 0x3FF00000000000000603FF010020201E, .faddL p .f64 .ru false (.v 2) (.v 4) 0x3FF0000000000000),
    (64, 0x140003008010205C, .fsubB p .bf16 .rd false (.v 1) (.v 2) (.v 3)),
    (96, 0x3F8000000B03FF008010205D, .fsubI p .f32 .rz true (.v 1) (.v 2) 0x3F800000),
    (128, 0x3FF00000000000000603FF010020205E, .fsubL p .f64 .ru false (.v 2) (.v 4) 0x3FF0000000000000),
    (64, 0x140003008010209C, .fmulB p .bf16 .rd false (.v 1) (.v 2) (.v 3)),
    (96, 0x3F8000000B03FF008010209D, .fmulI p .f32 .rz true (.v 1) (.v 2) 0x3F800000),
    (128, 0x3FF00000000000000603FF010020209E, .fmulL p .f64 .ru false (.v 2) (.v 4) 0x3FF0000000000000),
    (96, 0x42A000300801020DD, .ffma p .f16x2 .rz false (.v 1) (.v 2) (.v 3) (.v 4)),
    (64, 0x210003008010211C, .fminB p .bf16x2 true (.v 1) (.v 2) (.v 3)),
    (96, 0x70803FF008010211D, .fminI p .f32 false (.v 1) (.v 2) 7),
    (64, 0x210003008010215C, .fmaxB p .bf16x2 true (.v 1) (.v 2) (.v 3)),
    (96, 0x70803FF008010215D, .fmaxI p .f32 false (.v 1) (.v 2) 7),
    (64, 0x9C80400FFF0219C, .fcmpB p .f32 .num 1 2 (.v 3) (.v 4)),
    (96, 0x119FFFF00FFF0219D, .fcmpI p .f16 .nan 1 7 (.v 3) 1),
    (96, 0x400000000D03FF01003F21DD, .fdivI ⟨7, false, 15, false⟩ .f32 .rd true (.v 3) (.v 4) 0x40000000),
    (64, 0x203FF010020221C, .fsqrt p .f64 .rz false (.v 2) (.v 4)),
    (64, 0xE07FF010020225C, .frcp p .f32 .ru false true (.v 2) (.v 4)),
    (64, 0x903FF010020229C, .frsq p .f32 true (.v 2) (.v 4)),
    (64, 0x1903FF00801022DC, .fex2 p .f16 true (.v 1) (.v 2)),
    (64, 0x1903FF008010231C, .flg2 p .f16 true (.v 1) (.v 2)),
    (64, 0x1903FF008010235C, .fsin p .f16 true (.v 1) (.v 2)),
    (64, 0x1903FF008010239C, .fcos p .f16 true (.v 1) (.v 2)),
    (64, 0x2C03FF00801023DC, .frnd p .f16x2 .rd false (.v 1) (.v 2)),
    (64, 0x3C33FF008010245C, .icvt p .i64 .fp16 .rd (.v 1) (.v 2)),
    (64, 0x4393FF008010249C, .fcvi p .n8 .pp8 .rz true (.v 1) (.v 2)),
    (64, 0x103FF00801024DC, .fclass p .f64 true (.v 1) (.v 2)),
    (64, 0x20005010020251C, .fscaleB p .f64 .rz false (.v 2) (.v 4) (.v 5)),
    (96, 0xFFFFFFFD0A03FF010020251D, .fscaleI p .f32 .rz false (.v 2) (.v 4) 0xFFFFFFFD),
    (96, 0x42F0003008010255D, .fdot2 p .f16x2 .ru true (.v 1) (.v 2) (.v 3) (.v 4))] : List (Nat × Nat × Instr)).all (fun t => decodeTableWord t.1 t.2.1 == some t.2.2) = true := by decide

/-- R127-R139, R397. -/
theorem test_decode_words_control : ([
    (64, 0x3FF00BFF0405C, .brx p (.v 2)),
    (64, 0x3FFE0B7F040DC, .callx p (.c 31) (.kc 2)),
    (64, 0x3FFDFBFF0411C, .ret p (.c 30)),
    (96, 0x400003FFFFFFF0415D, .meet p false 0x40),
    (96, 0x7FFFFFFF0415D, .meet p true 0),
    (64, 0x3FFFFFFF04184, .exit ⟨1, false, 0, false⟩),
    (64, 0x3FFC27FF041DC, .trapB p (.k 9)),
    (64, 0x3FFFFFFF0421C, .bkpt p),
    (64, 0x3FFFFFFF0425C, .yield p),
    (64, 0xE3FF008010429C, .svc p 3 8 (.v 1) (.v 2)),
    (64, 0x6BFFC07FF0431C, .setsr p 0x1A (.k 1)),
    (64, 0xBFFD93FF0435C, .emret p (.to (.c 4))),
    (64, 0x3FF00FFF043DC, .napB p (.v 3)),
    (96, 0x3E80003FFFFFFF043DD, .napI p 1000)] : List (Nat × Nat × Instr)).all (fun t => decodeTableWord t.1 t.2.1 == some t.2.2) = true := by decide

/-- R141-R149, R264-R277. -/
theorem test_decode_words_memory : ([
    (128, 0xA00FFFFF000000082ED702E0C040601E, .ldN p ⟨.kc 3, .k 2, 8, .b64, 3, .acquire, .system, false, true⟩ 5 (.v 4)),
    (128, 0xE00FFFFF000000081003FFD8C040605E, .stN p ⟨.c 3, .vz, 8, .n16, 0, .plain, .clan, false, false⟩ 7 (.v 4)),
    (96, 0x1031C3FFD8F640609D, .ldc p ⟨.c 3, .vz, 16, .b128, 0, .sc, .package, false, false⟩ (.c 4)),
    (96, 0x103113FFD8F84060DD, .stc p ⟨.c 3, .vz, 16, .b128, 0, .release, .group, false, false⟩ (.kc 4)),
    (96, 0x4120002D8FFF0611D, .pref p .l2x ⟨.c 3, .v 2, 4, 1⟩),
    (96, 0x40C0002D8FFF0615D, .resid p .evict ⟨.c 3, .v 2, 4, 2⟩),
    (96, 0x40E0002D8FFF0635D, .cflush p .inv ⟨.c 3, .v 2, 4, 3⟩),
    (128, 0xA10FFC050000000021A3FFD8C040619E, .atom p ⟨.c 3, .vz, 0, .b32, 0, .sc, .hamlet, false, false⟩ .dec false false false true (.v 4) (.v 5)),
    (128, 0xBA0FFC0500000000200BFFD8FFF0619E, .atom p ⟨.c 3, .vz, 0, .b32, 0, .plain, .clan, true, false⟩ .fadd true false true false .vz (.v 5)),
    (128, 0x20060000001028B3FFD8C04061DE, .atomx p ⟨.c 3, .vz, 16, .b64, 0, .acquire, .die, false, false⟩ false (.v 4) (.v 6) (.v 8)),
    (128, 0x5C0FFC0600000000215BFFD8FFF0621E, .red p ⟨.c 3, .vz, 0, .b32, 0, .release, .system, true, false⟩ .smax true true false (.v 6)),
    (128, 0x700FFF060000000020C3FFD8C070625E, .waitc p ⟨.c 3, .vz, 0, .b32, 0, .acquire, .package, false, false⟩ .le true (.v 7) (.k 6)),
    (96, 0xFFFFFFF0040002D8F010639D, .pwait p ⟨.c 3, .v 2, 0xFFFFFFF0, 2⟩ (.k 1)),
    (64, 0x7B63D88010629C, .bind p (.v 1) (.c 2) 15 (.c 3)),
    (64, 0x4FFFD88010629C, .bindUn p (.v 1) (.c 2) 9),
    (64, 0x7FFD8801062DC, .acq p true (.v 1) (.c 2)),
    (64, 0x3FFD88010631C, .rel p (.v 1) (.c 2))] : List (Nat × Nat × Instr)).all (fun t => decodeTableWord t.1 t.2.1 == some t.2.2) = true := by decide

/-- R152-R158, R362, R364, R438, R317. -/
theorem test_decode_words_capabilities : ([
    (64, 0x7FFD8C020801C, .cget p .base (.v 2) (.c 3)),
    (64, 0x13FFD8C020801C, .cget p .perm (.v 2) (.c 3)),
    (64, 0x2BFFD8C020801C, .cget p .top (.v 2) (.c 3)),
    (96, 0x400003FFD8B610805D, .csetaI p (.c 1) (.c 2) 64),
    (128, 0x2000000000003FFD8B610805E, .csetaL p (.c 1) (.c 2) 0x200000000),
    (64, 0x4D8B610809C, .cincB p (.c 1) (.c 2) (.v 4)),
    (96, 0x400003FFD8B610809D, .cincI p (.c 1) (.c 2) 64),
    (128, 0x2000000000003FFD8B610809E, .cincL p (.c 1) (.c 2) 0x200000000),
    (64, 0x404D8B61080DC, .cbndB p true (.c 1) (.c 2) (.v 4)),
    (128, 0x2000000000007FFD8B61080DE, .cbndL p true (.c 1) (.c 2) 0x200000000),
    (64, 0x3D8B610811C, .candpB p (.c 1) (.c 2) (.v 3)),
    (96, 0x1FFFF0003FFD8B610811D, .candpI p (.c 1) (.c 2) 0x1FFFF),
    (64, 0x383D8B610815C, .cseal p (.c 1) (.c 2) (.kc 3)),
    (64, 0x383D8B610819C, .cunseal p (.c 1) (.c 2) (.kc 3)),
    (64, 0x3FFE0B610821C, .cmov p (.c 1) (.kc 2)),
    (64, 0x3FFE0B610825C, .cclr p (.c 1) (.kc 2)),
    (64, 0x600362D87FF0829C, .ceq p 6 (.c 1) (.c 2)),
    (96, 0xFFFFF418008D94030831D, .send p ⟨.v 3, .c 5, .v 8, 8, .vz, 0⟩ true 4),
    (96, 0x3FFFFF660343FFD94030835D, .recv p ⟨.v 3, .c 5, .vz, 0, .c 6, 1⟩ true 2 .vz .vz),
    (96, 0x1405366100008D94030839D, .ecall p ⟨.v 3, .c 5, .v 8, 2, .c 6, 0⟩ (.v 20) 4 1),
    (96, 0xFFF660C0008D9403083DD, .ereply p ⟨.v 3, .c 5, .v 8, 1, .c 6, 2⟩),
    (64, 0x8D94030841C, .signalB p (.v 3) (.c 5) (.v 8)),
    (96, 0x800000000003FFD94030841D, .signalI p (.v 3) (.c 5) 0x80000000),
    (64, 0x2023FFD94030845C, .waitn p true (.v 3) (.c 5) (.v 8)),
    (64, 0xB401D9763084DC, .exportDrop p 3 (.c 3) (.c 5) (some (.v 1))),
    (64, 0xB4FFFC030851C, .qbindUnb p (.v 3) 15)] : List (Nat × Nat × Instr)).all (fun t => decodeTableWord t.1 t.2.1 == some t.2.2) = true := by decide

/-- R159. -/
theorem test_decode_words_objects : ([
    (96, 0x2383000008D8801082DD, .objRetype p ⟨.v 1, .c 2, .v 8, 8, .kc 3⟩),
    (96, 0x1F83040008D8801082DD, .objConfigUntypedReset p ⟨.v 1, .c 2, .v 8, 7, .kc 3⟩),
    (96, 0x1B83080008D8801082DD, .objMap p ⟨.v 1, .c 2, .v 8, 6, .kc 3⟩),
    (96, 0x23830C0008D8801082DD, .objUnmap p ⟨.v 1, .c 2, .v 8, 8, .kc 3⟩),
    (96, 0x1F83100008D8801082DD, .objBind p ⟨.v 1, .c 2, .v 8, 7, .kc 3⟩),
    (96, 0x1B83140008D8801082DD, .objSuspend p ⟨.v 1, .c 2, .v 8, 6, .kc 3⟩),
    (96, 0x2383180008D8801082DD, .objResume p ⟨.v 1, .c 2, .v 8, 8, .kc 3⟩),
    (96, 0x1F831C0008D8801082DD, .objTeardown p ⟨.v 1, .c 2, .v 8, 7, .kc 3⟩),
    (96, 0x1B83200008D8801082DD, .objStatus p ⟨.v 1, .c 2, .v 8, 6, .kc 3⟩),
    (96, 0x2383240008D8801082DD, .objFreeze p ⟨.v 1, .c 2, .v 8, 8, .kc 3⟩),
    (96, 0x1F83280008D8801082DD, .objAttest p ⟨.v 1, .c 2, .v 8, 7, .kc 3⟩),
    (96, 0x1B832C0008D8801082DD, .faultactResume p ⟨.v 1, .c 2, .v 8, 6, .kc 3⟩),
    (96, 0x3FF2003FFD8801082DD, .objStatus p ⟨.v 1, .c 2, .vz, 0, .vz⟩)] : List (Nat × Nat × Instr)).all (fun t => decodeTableWord t.1 t.2.1 == some t.2.2) = true := by decide

/-- R187-R198. -/
theorem test_decode_words_gathering : ([
    (96, 0xC14063A8003010020A01D, .shfl p .up true 5 2 (.v 2) (.v 4) (.v 3) (.v 6) (.k 5)),
    (64, 0x458305FFFFF0A05C, .voteB p .uni 1 3 false .vz (.k 5)),
    (64, 0x4003FFD8F820A09C, .rdfirstB p .b128 (.kc 2) (.c 3) .vz),
    (96, 0x62003FF013020A09D, .rdfirstI p .b64 (.k 2) (.v 4) 6),
    (64, 0x200305FFF020A0DC, .lrankB p .count (.k 2) (.k 5)),
    (96, 0x64003FFFFF020A0DD, .lrankI p .mask (.k 2) 6),
    (64, 0x400305010020A11C, .matchB p true (.v 2) (.v 4) (.k 5)),
    (96, 0x60003FF010020A11D, .matchI p false (.v 2) (.v 4) 6),
    (96, 0x65703FF013020A15D, .reduxI p .xor .b64 (.k 2) (.v 4) 6),
    (64, 0x138305010020A19C, .scanB p .min .n64 true (.v 2) (.v 4) (.k 5)),
    (96, 0x60003FF00C020A19D, .scanI p .add .i32 false (.v 2) (.v 3) 6),
    (64, 0x305FFF020A1DC, .gatherB p (.k 2) (.k 5)),
    (96, 0x60003FFFFF020A1DD, .gatherI p (.k 2) 6),
    (96, 0x6003FFFC07FF0A21D, .barI p .sync 15 (.k 1) 6),
    (64, 0x200FFFFFFFF0A25C, .hbarB p .arrive 3 .vz .vz),
    (96, 0x6000BFFC07FF0A25D, .hbarI p .sync 2 (.k 1) 6),
    (96, 0xFFC04000383D88010A29D, .launch p (.v 1) (.c 2) (.kc 3) (.v 4)),
    (96, 0xC1B040007FFD88010A29D, .launchOne p (.v 1) (.c 2) .vz (.k 4) (.k 6)),
    (96, 0x80010003FFFFFFF0A2DD, .qfence p 0x8001)] : List (Nat × Nat × Instr)).all (fun t => decodeTableWord t.1 t.2.1 == some t.2.2) = true := by decide

/-- R290-R306. -/
theorem test_decode_words_matrix : ([
    (128, 0x3F1EAC09C13FF0C01E, .mma p .minPlus 7 2 1 (.scratch (.k 4) 63) true (.v 9)),
    (128, 0x5383FF083FF0C01E, .mma p .minMax 1 6 0 (.regs (.v 32)) false .vz),
    (128, 0x823FF0A3FF0C05E, .mwld p 4 1 (.regs (.v 40))),
    (128, 0x20000000000000082BFFC1BFF0C05E, .mwld p 4 1 (.loc (.scratch (.k 6) 2))),
    (128, 0x200000001000813FFE0FFF0C05E, .mwld p 4 0 (.loc (.mem (.kc 3) 512 256))),
    (128, 0x20000000100081787E0FFF0C05E, .mwld p 4 0 (.enc (.kc 3) 512 256 (.kc 7))),
    (128, 0xFFFFFFF00753FFE0FFF0C09E, .mld p 3 5 (.mem (.kc 3) 0 0xFFFFFFF0)),
    (128, 0x2090000000000000074BFFC23FF0C0DE, .mst p .int4 3 5 (.scratch (.k 8) 9)),
    (96, 0x302075301FFC080C15D, .mrow p .sum 3 5 (.v 8) (.k 1) (.k 2)),
    (96, 0x3FF074301023FF0C19D, .mscale p 3 5 (.v 8) (.k 1) .vz),
    (96, 0x20340701E0FFF0C1DD, .msave p ⟨.kc 3, .k 1, 32, 2⟩ true),
    (96, 0x203003FFE0FFF0C21D, .mload p ⟨.kc 3, .vz, 32, 0⟩ false),
    (64, 0x1203FFFFF030C25C, .mstat p .sb 1 (.k 3)),
    (64, 0x19A3FFFFFFF0C29C, .mcvt p 1 4 6 .f64),
    (128, 0x100000000050346002385FFFFF0C31E, .coll p .mcast .sum .i64 .vz .vz (.kc 5) 6 5 0x1000000)] : List (Nat × Nat × Instr)).all (fun t => decodeTableWord t.1 t.2.1 == some t.2.2) = true := by decide

/-! What WellFormed refuses. -/

/-! Ill-formed terms, one for each check or more. -/

/-- Registers: a reserved code; a v range past 768; a uniform destination with U = 0; odd pairs; ranges out of line or out of their file; kinds that the description does not allow; w registers as an index or under U = 1. -/
theorem test_illformed_registers : ([
    .iaddB p .i32 (.rsv 0) (.v 1) (.v 2), .objStatus p ⟨.v 0, .c 1, .v 761, 8, .vz⟩, .iaddB p .i32 (.k 1) (.v 1) (.v 2),
    .cmov p (.kc 1) (.c 2), .iaddB p .i64 (.v 1) (.v 2) (.v 4), .iaddB p .i64 (.v 2) (.v 4) (.k 5), .iaddB p .i64 (.v 2) (.v 4) (.w 3),
    .ldM p ⟨.c 1, .vz, 0, .b128, 0, .plain, .clan, false, false⟩ (.v 2), .movPush p .b128 0 (.v 6) false 0,
    .send p ⟨.v 0, .c 1, .k 60, 8, .vz, 0⟩ false 0, .send p ⟨.v 0, .c 1, .vz, 0, .c 31, 2⟩ false 0, .send p ⟨.v 0, .c 1, .vz, 0, .kc 15, 2⟩ false 0,
    .send p ⟨.v 0, .c 1, .v 8, 0, .vz, 0⟩ false 0, .iaddB p .i32 (.v 0) (.c 1) (.v 2), .cmov p (.c 1) (.v 2), .iaddB p .i32 (.v 0) (.q 1) (.v 2),
    .objStatus p ⟨.vz, .c 1, .vz, 0, .vz⟩, .tcopy p (.k 0) (.c 3) 2, .mld p 0 0 (.scratch (.k 5) 0), .mld p 0 0 (.mem (.c 1) 0 0),
    .mwld p 0 0 (.enc (.kc 1) 0 0 (.c 2)), .mma p .plusTimes 0 0 0 (.regs (.k 2)) false .vz,
    .ldM p ⟨.c 1, .w 0, 0, .b32, 0, .plain, .clan, false, false⟩ (.v 2), .ldM p ⟨.w 1, .vz, 0, .b32, 0, .plain, .clan, false, false⟩ (.v 2)] : List Instr).all
    (fun i => !i.WellFormed) = true := by decide

/-- U = 1: a thread's register as a source or destination, a thread's capability, an opcode on which it is not permitted. -/
theorem test_illformed_uniform : ([
    .iaddB pu .i32 (.k 1) (.v 1) (.k 2), .iaddB pu .i32 (.v 1) (.k 1) (.k 2), .cmov pu (.kc 1) (.c 2), .cmov pu (.c 1) (.kc 2),
    .iaddB pu .i32 (.k 1) (.w 12) (.k 2), .bra pu 0, .exit pu, .pwait pu ⟨.kc 1, .vz, 0, 0⟩ .vz, .barB pu .sync 0 .vz .vz, .mzero pu 0 0, .tcopy pu (.k 8) (.kc 3) 2,
    .launch pu (.k 1) (.kc 1) .vz .vz, .svc pu 0 1 (.k 1) (.k 2)] : List Instr).all (fun i => !i.WellFormed) = true ∧
    (Instr.iaddB pu .i32 (.k 1) (.k 2) (.k 3)).WellFormed = true := by decide

/-- Selectors of GETSR and SETSR that name no register. -/
theorem test_illformed_selectors : ([.getsr p 0x1C (.v 0), .setsr p 0x1B (.v 0), .setsr p 0x19 (.v 0)] : List Instr).all (fun i => !i.WellFormed) = true ∧
    (Instr.getsr p 0x1B (.v 0)).WellFormed = true := by decide

/-- Types that an instruction of class 0 does not accept. -/
theorem test_illformed_integer_types : ([
    .mov p .b128 (.v 0) (.v 4), .iaddcB p .i16 (.v 0) (.v 1) (.v 2) 0 false 7, .imulB p .i64 .wide (.v 0) (.v 2) (.v 4), .imad p .n16 .wide (.v 0) (.v 1) (.v 2) (.v 4),
    .idivB p .b32 (.v 0) (.v 1) (.v 2), .iremI p .i16 (.v 0) (.v 1) 3, .isad p .b64 (.v 0) (.v 2) (.v 4) (.v 6), .bfx p .n8 (.v 0) (.v 1) (.v 2) (.v 3),
    .iminB p .b32 (.v 0) (.v 1) (.v 2), .imaxI p .b8 (.v 0) (.v 1) 3, .iabs p .n32 (.v 0) (.v 1), .ineg p .b32 (.v 0) (.v 1), .sarB p .n32 false (.v 0) (.v 1) (.v 2),
    .andB p .i32 (.v 0) (.v 1) (.v 2), .orL p .n64 (.v 0) (.v 2) 1, .xorI p .i8 (.v 0) (.v 1) 1, .not p .n32 (.v 0) (.v 1), .lut3 p .b16 0 (.v 0) (.v 1) (.v 2) (.v 3),
    .fshl p .i32 (.v 0) (.v 1) (.v 2) (.v 3), .popc p .n32 (.v 0) (.v 1), .brev p .b8 (.v 0) (.v 1), .bfi p .i32 (.v 0) (.v 1) (.v 2) (.v 3),
    .shrB p .i32 false (.v 0) (.v 1) (.v 2)] : List Instr).all (fun i => !i.WellFormed) = true := by decide

/-- Types, modes, formats and immediates that an instruction of class 1 does not accept. -/
theorem test_illformed_float : ([
    .faddI p .f16 .rn false (.v 0) (.v 1) 0x10000, .fminI p .bf16 false (.v 0) (.v 1) 0x10000, .fmulL p .f16 .rn false (.v 0) (.v 1) 0, .fsubL p .f32 .rn false (.v 0) (.v 1) 0x100000000,
    .fcmpB p .f16x2 .eq 0 1 (.v 0) (.v 1), .fcmpI p .bf16 .eq 0 1 (.v 0) 0x10000, .fclass p .bf16x2 false (.v 0) (.v 1), .fscaleB p .f16x2 .rn false (.v 0) (.v 1) (.v 2),
    .fdivB p .bf16 .rn false (.v 0) (.v 1) (.v 2), .fsqrt p .f16x2 .rn false (.v 0) (.v 1), .fdivI p .f16 .rn false (.v 0) (.v 1) 0x10000,
    .frcp p .f32 .rz false false (.v 0) (.v 1), .frcp p .bf16 .rn false true (.v 0) (.v 1), .frsq p .f16 false (.v 0) (.v 1), .fex2 p .f64 false (.v 0) (.v 2), .fcos p .bf16 false (.v 0) (.v 1),
    .fcvt p .int8 .fp32 .rn false false (.v 0) (.v 1), .fcvt p .fp32 .pp8 .rn false false (.v 0) (.v 1), .icvt p .b32 .fp32 .rn (.v 0) (.v 1), .icvt p .i32 .pp8 .rn (.v 0) (.v 1),
    .fcvi p .b32 .fp32 .rn false (.v 0) (.v 1), .fcvi p .i32 .int8 .rn false (.v 0) (.v 1), .fdot2 p .f32 .rn false (.v 0) (.v 1) (.v 2) (.v 3)] : List Instr).all
    (fun i => !i.WellFormed) = true := by decide

/-- Class 2: targets off 8 bytes, MEET.clr with an offset, SVC without words, FENCE without an ordering. -/
theorem test_illformed_control : ([.bra p 4, .call p (.c 1) 12, .meet p true 8, .svc p 0 0 (.v 0) (.v 1), .fence p .plain .clan] : List Instr).all (fun i => !i.WellFormed) = true := by decide

/-- Class 3: orderings, scopes, types, far and combining modifiers out of place. -/
theorem test_illformed_memory : ([
    .ldM p (mo .b32 .release .clan false) (.v 0), .ldM p (mo .b32 .plain .group false) (.v 0), .ldN p (mo .b32 .plain .clan true) 0 (.v 0),
    .stM p (mo .b32 .acquire .clan false) (.v 0), .stM p (mo .i8 .plain .clan false) (.v 0), .stN p (mo .i16 .plain .clan false) 0 (.v 0),
    .ldc p (mo .b64 .plain .clan false) (.c 0), .stc p (mo .b32 .plain .clan false) (.c 0), .ldc p (mo .b128 .release .clan false) (.c 0),
    .atom p (mo .n8 .plain .clan false) .add false false false false (.v 0) (.v 1), .atom p (mo .b32 .plain .die false) .add false false false false (.v 0) (.v 1),
    .atom p (mo .b64 .plain .clan false) .fadd false false false false (.v 0) (.v 2), .atom p (mo .b32 .plain .clan false) .add true false false false (.v 0) (.v 1),
    .atom p (mo .b32 .plain .clan true) .add false true false false (.v 0) (.v 1), .atom p (mo .b32 .plain .clan true) .add true false true false (.v 0) (.v 1),
    .atom p (mo .b32 .plain .clan true) .inc true false false false (.v 0) (.v 1), .atom p (mo .b32 .plain .clan true) .fadd true false false false (.v 0) (.v 1),
    .atom p (mo .b32 .acquire .clan false) .add false false false true (.v 0) (.v 1), .atomx p (mo .b128 .plain .clan false) false (.v 0) (.v 4) (.v 8),
    .atomx p (mo .b32 .release .clan false) true (.v 0) (.v 1) (.v 2), .red p (mo .b32 .acquire .clan false) .add false false false (.v 1),
    .waitc p (mo .b32 .plain .clan true) .eq false (.v 0) (.v 1), .waitc p (mo .b32 .release .clan false) .eq false (.v 0) (.v 1), .waitc p (mo .n16 .plain .clan false) .eq false (.v 0) (.v 1)] : List Instr).all
    (fun i => !i.WellFormed) = true := by decide

/-- Classes 5 and 6: operators and types that do not go together, formats that MST cannot write, counts and operators of COLL. -/
theorem test_illformed_sets : ([
    .reduxB p .add .b32 (.k 0) (.v 1) .vz, .scanB p .and .i32 false (.v 0) (.v 1) .vz, .reduxI p .xor .f32 (.k 0) (.v 1) 1,
    .mst p .pp8 0 0 (.mem (.kc 1) 0 0), .mst p .b1 0 0 (.mem (.kc 1) 0 0), .coll p .reduce .sum .i32 (.k 8) (.kc 4) (.kc 5) 6 0 0,
    .coll p .reduce .sum .i32 (.k 8) (.kc 4) (.kc 5) 6 0 0x1000001, .coll p .mcast .min .i32 (.k 8) (.kc 4) (.kc 5) 6 0 1,
    .coll p .reduce .lsem .i32 (.k 8) (.kc 4) (.kc 5) 6 0 18, .coll p .reduce .lsem .f32 (.k 8) (.kc 4) (.kc 5) 6 0 2, .coll p .reduce .lsem .f32 (.k 8) (.kc 4) (.kc 5) 6 0 259,
    .coll p .reduce .msum .f32 (.k 8) (.kc 4) (.kc 5) 6 0 4] : List Instr).all (fun i => !i.WellFormed) = true ∧
    (Instr.coll p .allreduce .lsem .f32 (.k 8) (.kc 4) (.kc 5) 6 0 18).WellFormed = true := by decide

/-- An event is no encoding. -/
theorem test_illformed_event : (Instr.sweepStart).WellFormed = false := by decide

/-! One step on a small state; expected values are the manual's examples and tables. -/

/-- R96: the 128-bit addition. -/
def addends : State := setV one 0 [(4, 0xFFFFFFFF), (5, 0xFFFFFFFF), (6, 1), (12, 1)]
theorem test_iaddc_low : v64 (exec (.iaddcB p .b64 (.v 8) (.v 4) (.v 12) 0 false 1) addends) 0 8 = 0 ∧
    pr (exec (.iaddcB p .b64 (.v 8) (.v 4) (.v 12) 0 false 1) addends) 0 1 = true := by decide
theorem test_iaddc_high : v64 (exec (.iaddcB p .b64 (.v 10) (.v 6) (.v 14) 1 true 7) (addends.modThr 0 0 fun t => { t with p := 2 })) 0 10 = 2 := by decide
/-- R106: rotation by 1, and by 33. -/
theorem test_fshl : v32 (exec (.fshl p .b32 (.v 3) (.v 1) (.v 1) (.v 2)) (setV one 0 [(1, 0x80000001), (2, 1)])) 0 3 = 3 := by decide
theorem test_fshr : v32 (exec (.fshr p .b32 (.v 4) (.v 1) (.v 1) (.v 2)) (setV one 0 [(1, 0x80000001), (2, 33)])) 0 4 = 0xC0000000 := by decide
/-- R113: p0 and p3 true. -/
theorem test_p2v : v32 (exec (.p2v p (.v 1)) (one.modThr 0 0 fun t => { t with p := 9 })) 0 1 = 0x89 := by decide
theorem test_v2p : ((after (exec (.v2p p (.v 1) 0x0F) (setV (one.modThr 0 0 fun t => { t with p := 0x70 }) 0 [(1, 0x89)]))).thr 0 0).p = 0x79 := by decide
/-- R78, R98: division by zero and of the most negative value. -/
theorem test_idiv_zero : v32 (exec (.idivB p .i32 (.v 1) (.v 2) (.v 3)) (setV one 0 [(2, 5)])) 0 1 = 0xFFFFFFFF := by decide
theorem test_idiv_most_negative : v32 (exec (.idivB p .i32 (.v 1) (.v 2) (.v 3)) (setV one 0 [(2, 0x80000000), (3, 0xFFFFFFFF)])) 0 1 = 0x80000000 := by decide
/-- R70: an 8-bit signed result is sign-extended in its register. -/
theorem test_iadd_i8 : v32 (exec (.iaddB p .i8 (.v 1) (.v 2) (.v 3)) (setV one 0 [(2, 0x7F), (3, 1)])) 0 1 = 0xFFFFFF80 := by decide
/-- R105: the amount n without WRAP, and with it. -/
theorem test_shl_full : v32 (exec (.shlI p .b32 false (.v 1) (.v 2) 32) (setV one 0 [(2, 5)])) 0 1 = 0 := by decide
theorem test_shl_wrap : v32 (exec (.shlI p .b32 true (.v 1) (.v 2) 33) (setV one 0 [(2, 5)])) 0 1 = 10 := by decide
/-- R126: -0 is not below +0, a NaN is below nothing. -/
theorem test_fcmp_zeros : pr (exec (.fcmpB p .f32 .lt 1 2 (.v 4) (.v 5)) (setV one 0 [(4, 0x80000000)])) 0 1 = false ∧
    pr (exec (.fcmpB p .f32 .lt 1 2 (.v 4) (.v 5)) (setV one 0 [(4, 0x80000000)])) 0 2 = true := by decide
theorem test_fcmp_nan : pr (exec (.fcmpB p .f32 .lt 1 2 (.v 4) (.v 5)) (setV one 0 [(4, 0x7FC00000), (5, 0x40000000)])) 0 2 = true := by decide
/-- R125: one rounding keeps 2^-24. -/
theorem test_fdot2 : v32 (exec (.fdot2 p .bf16x2 .rn false (.v 4) (.v 1) (.v 2) (.v 3)) (setV one 0 [(1, 0x33804380), (2, 0x3F804380), (3, 0xC7800000)])) 0 4 = 0x33800000 := by decide
theorem test_fdot2_exact : v32 (exec (.fdot2 p .bf16x2 .rz false (.v 4) (.v 1) (.v 2) (.v 3)) (setV one 0 [(1, 0x3F804380), (2, 0x3F804380), (3, 0xC7800000)])) 0 4 = 0x3F800000 := by decide
/-- R77: 464.0 ties to 448; 470.0 overflows to NaN, or saturates. -/
theorem test_fcvt_tie : v32 (exec (.fcvt p .fp32 .e4m3 .rn false false (.v 1) (.v 2)) (setV one 0 [(2, 0x43E80000)])) 0 1 = 0x7E := by decide
theorem test_fcvt_overflow : v32 (exec (.fcvt p .fp32 .e4m3 .rn false false (.v 1) (.v 2)) (setV one 0 [(2, 0x43EB0000)])) 0 1 = 0x7F ∧
    v32 (exec (.fcvt p .fp32 .e4m3 .rn false true (.v 1) (.v 2)) (setV one 0 [(2, 0x43EB0000)])) 0 1 = 0x7E := by decide
/-- R68: PP8 bytes as FP32. -/
theorem test_pp8 : v32 (exec (.fcvt p .pp8 .fp32 .rn false false (.v 1) (.v 2)) (setV one 0 [(2, 0x2E)])) 0 1 = 0x3E700000 ∧
    v32 (exec (.fcvt p .pp8 .fp32 .rn false false (.v 1) (.v 2)) (setV one 0 [(2, 0x8F)])) 0 1 = 0xBF800000 := by decide
/-- R49: a FDIV under lookahead writes nothing yet. -/
theorem test_fdiv_pending : ((after (exec (.fdivB ⟨7, false, 2, false⟩ .f32 .rn false (.v 1) (.v 2) (.v 3)) (setV one 0 [(2, 0x3F800000), (3, 0x40000000)]))).thr 0 0).pend.map Pend.writes = [[.w (.v 1) 0x3F000000]] := by decide +kernel

/-- R129: CALL over its 16 bytes. -/
theorem test_call : ((after (exec (.call p (.c 30) 0x80) { one with cur := some { cur1 with foot := 16 } })).thr 0 0).pcc.addr = 0x100080 := by decide
theorem test_call_link : (cp (exec (.call p (.c 30) 0x80) { one with cur := some { cur1 with foot := 16 } }) 30).addr = 0x100010 := by decide
/-- R133: no fault endpoint, so the group is killed and its unit ends. -/
theorem test_trap_kills : (after (exec (.trapI p 7) one)).grp? 0 = none ∨ ((after (exec (.trapI p 7) one)).thr 0 0).live = false := by decide
/-- R22: %regs and %world are of the launch and the Context. -/
theorem test_getsr_tid : v32 (exec (.getsr p 0x03 (.v 1)) (team 2)) 1 1 = 1 := by decide
/-- R137: outside the handler SETSR is an illegal encoding; a step refuses it. -/
theorem test_illegal_step : ((after (step (State.reset.withFetchWord 64 0x006B_FFFF_FFF0_431C))).grp? 0).isNone ∨
    ((after (step (State.reset.withFetchWord 64 0x006B_FFFF_FFF0_431C))).thr 0 0).live = false := by decide

/-- R141, R34: a 2-byte store to 0x110006 and the load of the word there. -/
def bufCap : Cap := Cap.make 0x110000 0x1000 0x123F true 0x110000
def mop (t : AType) (imm : BitVec 32) : MemOp := ⟨.c 2, .vz, imm, t, 0, .plain, .clan, false, false⟩
def buf : State := setC (setV one 0 [(1, 0x1234ABCD), (4, 3)]) [(2, bufCap)]
theorem test_store_half : byteAt (after (exec (.stM p (mop .n16 6) (.v 1)) buf)) 0x110006 = 0xCD ∧ byteAt (after (exec (.stM p (mop .n16 6) (.v 1)) buf)) 0x110007 = 0xAB ∧
    byteAt (after (exec (.stM p (mop .n16 6) (.v 1)) buf)) 0x110008 = 0 := by decide
theorem test_load_sign : v32 (exec (.ldM p (mop .i8 7) (.v 3)) (after (exec (.stM p (mop .n16 6) (.v 1)) buf))) 0 3 = 0xFFFFFFAB := by decide
/-- R7: bounds before alignment. -/
theorem test_bounds_first : capCheck bufCap 0x110FFF 4 [permLoad] = some { cls := 1, sub := 4, addr := 0x110FFF, cap := bufCap } := by decide
theorem test_misaligned : capCheck bufCap 0x110002 4 [permLoad] = some { cls := 1, sub := 5, addr := 0x110002, cap := bufCap } := by decide
/-- R34: STC keeps a tag, a byte store over the granule clears it. -/
theorem test_stc_tag : physTag (after (exec (.stc p (mop .b128 16) (.c 2)) buf)) 0x110010 = true := by decide
theorem test_store_clears_tag : physTag (after (exec (.stM p (mop .n8 31) (.v 1)) (after (exec (.stc p (mop .b128 16) (.c 2)) buf)))) 0x110010 = false := by decide
/-- R265: INC wraps at its operand. -/
theorem test_atom_inc : v32 (exec (.atom p (mop .b32 0) .inc false false false false (.v 5) (.v 4)) (writePhys buf 0x110000 [3])) 0 5 = 3 ∧
    byteAt (after (exec (.atom p (mop .b32 0) .inc false false false false (.v 5) (.v 4)) (writePhys buf 0x110000 [3]))) 0x110000 = 0 := by decide
/-- R271: the merged operand of C and D, and what C's record gives D of the old value 100. -/
theorem test_merge : mergedOperand .add 32 4 1 = 5 ∧ laterReply .add 32 100 4 = 104 := by decide

/-- R154: the bounds of the manual's example. -/
def wideCap : Cap := Cap.make 0x20000000 0x100000 0x0003 true 0x20000001
theorem test_cbnd : (wideCap.setBounds false 10000).base = 0x20000000 ∧ (wideCap.setBounds false 10000).top = 0x20002712 ∧ (wideCap.setBounds false 10000).tag = true := by decide
theorem test_cbnd_exact : (wideCap.setBounds true 10000).tag = false := by decide
/-- R29: cursors that leave the representable range lose the tag. -/
def smallCap : Cap := Cap.make 0x20000040 64 0x0003 true 0x20000040
theorem test_cseta_keeps : (smallCap.withAddr 0x20002030).tag = true ∧ (smallCap.withAddr 0x20002030).base = 0x20000040 := by decide
theorem test_cseta_drops : (smallCap.withAddr 0x20002040).tag = false ∧ (smallCap.withAddr 0x2000003F).tag = false := by decide

/-- R190: the clan of eight threads under m=k2. -/
def clan8 : State :=
  (List.range 8).foldl (fun s i => (setV s i [(1, BitVec.ofNat 32 (i + 1))]).modThr 0 i fun t => { t with p := if i % 2 = 1 then 2 else 0 })
    ((team 8).modClan 0 0 fun c => { c with k := [(2, 0xB6), (3, 1)] })
theorem test_redux : v32 (exec (.reduxB p .add .n32 (.v 3) (.v 1) (.k 2)) clan8) 7 3 = 24 ∧ v32 (exec (.reduxB p .add .n32 (.v 3) (.v 1) (.k 2)) clan8) 3 3 = 0 := by decide
theorem test_scan : [1, 2, 4, 5, 7].map (fun l => v32 (exec (.scanB p .add .n32 false (.v 4) (.v 1) (.k 2)) clan8) l 4) = [2, 5, 10, 16, 24] := by decide
theorem test_scan_excl : [1, 2, 4, 5, 7].map (fun l => v32 (exec (.scanB p .add .n32 true (.v 4) (.v 1) (.k 2)) clan8) l 4) = [0, 2, 5, 10, 16] := by decide
theorem test_lrank : [1, 2, 4, 5, 7].map (fun l => v32 (exec (.lrankB p .rank (.v 5) (.k 2)) clan8) l 5) = [0, 1, 2, 3, 4] := by decide
theorem test_shfl_down : [1, 2, 4, 5, 7].map (fun l => v32 (exec (.shfl p .down false 0 2 (.v 6) (.v 1) (.k 3) .vz (.k 2)) clan8) l 6) = [3, 0, 6, 0, 0] := by decide
theorem test_shfl_pred : [1, 2, 4, 5, 7].map (fun l => pr (exec (.shfl p .down false 0 2 (.v 6) (.v 1) (.k 3) .vz (.k 2)) clan8) l 2) = [true, false, true, false, false] := by decide
theorem test_vote_ballot : v32 (exec (.voteB p .ballot 3 1 false (.v 7) (.k 2)) clan8) 4 7 = 0xA2 := by decide
theorem test_rdfirst : v32 (exec (.rdfirstB p .b32 (.v 8) (.v 1) (.k 2)) clan8) 7 8 = 2 := by decide
/-- R195: the last of the live threads completes an implicit barrier. -/
theorem test_bar : ((after (exec (.barB p .sync 0 .vz .vz) (team 2))).thr 0 1).pcc.addr = 0x100008 := by decide

/-- R210: the targets of the hash. -/
theorem test_hash : [(1, 0, 0), (2, 0, 0), (1, 1, 0)].map (fun h => (hamletOrder Launch.empty h).head?) = [some 87, some 14, some 28] := by decide
/-- R362: MZERO leaves a buffer empty. -/
theorem test_mzero : (((after (exec (.mzero p 0 2) (one.modGrp 0 fun g => g.setSbuf 1 ⟨1, 2, 0, [(5, 1)], none⟩))).grp 0).sbuf 1) = SBuf.empty := by decide

/-! Witnesses: for every statement with hypotheses, concrete states and operands that meet them. -/

theorem isSolo {s : State} (h : s.cur = some cur1) : Solo s p solo := ⟨cur1, h, rfl, rfl, rfl⟩
theorem performs {s : State} (h : s.cur = some cur1) : Performs s p s solo := .inl ⟨rfl, isSolo h, rfl⟩

/-- A gathered set of two threads that has formed. -/
def gath : Gather := { pc := 0x100000, mask := 0xFFFFFFFF, waiting := 3, excluded := 0, formed := true }
def cur2 : Cur := { cur1 with lanes := [0, 1], gathered := true }
def formedIn (s : State) : State := { s with cur := some cur2 }.modClan 0 0 fun c => { c with gathers := [gath] }
def pair_ : Actor := setActor cur2 gath
def woken (s : State) : State := joined (s.modClan 0 0 fun c => { c with gathers := c.gathers.erase gath }) pair_
def two : State := formedIn (team 2)
theorem isFormed {s : State} (hc : s.cur = some cur2)
    (hg : (s.clan 0 0).gathers.find? (fun g => g.formed && g.pc == 0x100000 && g.waiting == 3) = some gath) (he : edgeHeld (woken s) pair_ = false := by decide) : Formed s (woken s) pair_ :=
  ⟨cur2, gath, hc, rfl, hg, rfl, rfl, he, rfl⟩

theorem wit_Issues : Issues one cur1 := ⟨rfl, by decide, by unfold Present; decide⟩
theorem wit_Issues_pair : Issues (team 2) { cur1 with lanes := [0, 1] } := ⟨rfl, by decide, by unfold Present; decide⟩
theorem wit_RegistersHoldOperandsAndResults : (0 : Fin 768).val % 2 = 0 ∧ (766 : Fin 768).val % 2 = 0 ∧ (62 : Fin 64).val % 2 = 0 ∧ (Map.get? x0.cno (one.grp x0.gid).clans).isSome := by decide
theorem wit_ResultsStayWithTheirPerformers : Performs one p one solo := performs rfl
theorem wit_ResultsStayWithTheirPerformers_set : Performs two pu (woken two) pair_ := .inr ⟨rfl, isFormed rfl rfl⟩
/-- A set whose clan registers were kept at its formation, one that goes on at once and one that a write of its own, which another package stamps, holds. -/
def gathS : Gather := { gath with src := some ([(2, 9)], []) }
theorem wit_ResultsStayWithTheirPerformers_sources : let s : State := { (team 2) with cur := some cur2 }.modClan 0 0 fun c => { c with gathers := [gathS] }
    pu.u = true ∧ s.cur = some cur2 ∧ cur2.gathered = true ∧ (s.clan 0 0).gathers.find? (fun g => g.formed && g.pc == cur2.pc && g.waiting == laneMask cur2.lanes) = some gathS ∧
      (let s0 := joined (s.modClan 0 0 fun cl => { cl with gathers := cl.gathers.erase gathS }) (setActor cur2 gathS)
       edgeHeld s0 (setActor cur2 gathS) = false ∧ edgeHeld (awayOf s0) (setActor cur2 gathS) = true ∧ gathS.src = some ([(2, 9)], []) ∧ gath.src = none ∧ (Map.get? 0 (s0.grp 0).clans).isSome) := by decide
theorem wit_Yields_set : pu.u = true ∧ Formed two (woken two) pair_ := ⟨rfl, isFormed rfl rfl⟩
theorem wit_Yields_own : p.u = false ∧ ∀ l ∈ cur1.lanes, (wr64 one ⟨0, 0, l⟩ (.v 766) 5).all RegWrite.isOwn = true := by decide
theorem wit_ProductAndNarrowedResults : (IType.n8.signed = false ∨ 32 ≤ IType.n8.bits) ∧ (IType.i32.signed = false ∨ 32 ≤ IType.i32.bits) ∧
    IType.i16.signed = true ∧ IType.i16.bits < 32 := by decide
theorem wit_LogicShiftAndFieldResults : Issues one cur1 ∧ IType.b8.plainBits = true ∧ IType.i8.signed = true ∧ IType.is3264 .b32 = true ∧ IType.is3264 .n64 = true :=
  ⟨wit_Issues, by decide⟩
/-- Values at which the count, the field and the byte clauses meet their ends. -/
theorem wit_LogicShiftAndFieldResults_ends : (0 : Nat) < 32 ∧ ¬ (32 : Nat) < 32 ∧ (0 = 0 ∨ (32 : Nat) ≤ 31) ∧ ¬ (1 = 0 ∨ (32 : Nat) ≤ 31) ∧ (3 : Nat) < 4 := by decide
theorem wit_PredicatesGoToARegister : let w := 0x3FFFFEFF008DC
    w / 2 ^ 6 % 2 ^ 10 = 0x023 ∧ w % 4 = 0 ∧ w / 2 ^ 50 % 2 ^ 9 = 0 ∧ w / 2 ^ 30 % 2 ^ 10 = 0x3FF ∧ w / 2 ^ 40 % 2 ^ 10 = 0x3FF ∧ w / 2 ^ 16 % 2 ^ 4 = 0 ∧
      w / 2 ^ 59 % 2 ^ 5 = 0 ∧ w / 2 ^ 20 % 2 ^ 10 = 0x2FF ∧ 0x2FF < 0x300 ∧ decodeWord w = .ok (.p2v p (.v 767)) := by decide
theorem wit_ARegisterGoesToPredicates : let w := 0x1FFFFBFFFF0091C
    w / 2 ^ 6 % 2 ^ 10 = 0x024 ∧ w % 4 = 0 ∧ w / 2 ^ 20 % 2 ^ 10 = 0x3FF ∧ w / 2 ^ 40 % 2 ^ 10 = 0x3FF ∧ w / 2 ^ 16 % 2 ^ 4 = 0 ∧ w / 2 ^ 57 % 2 ^ 7 = 0 ∧
      w / 2 ^ 30 % 2 ^ 10 = 0x2FF ∧ 0x2FF < 0x300 ∧ decodeWord w = .ok (.v2p p (.v 767) 0x7F) := by decide
theorem wit_LookupTableDecidesEachBit : let w := 0x31258020040A0055D
    w / 2 ^ 6 % 2 ^ 10 = 0x015 ∧ decodeWord w = .ok (.lut3 p .b32 0x96 (.v 10) (.v 1) (.v 2) (.v 3)) ∧ (IType.b64 = .b32 ∨ IType.b64 = .b64) := by decide
/-- The same word's fields, and the one of a .b64 form with registers 4, 6, 8 and 10. -/
theorem wit_LookupTableDecidesEachBit_words :
    (let w := 0x31258020040A0055D
     w % 4 = 1 ∧ w / 2 ^ 16 % 2 ^ 4 = 0 ∧ w / 2 ^ 58 % 2 = 0 ∧ w / 2 ^ 63 % 2 = 0 ∧ w / 2 ^ 74 % 2 ^ 22 = 0 ∧ w / 2 ^ 59 % 2 ^ 4 = 2 ∧ ∀ lo ∈ [20, 30, 40, 64], w / 2 ^ lo % 2 ^ 10 < 0x300) ∧
    (let w := 10 * 2 ^ 64 + 3 * 2 ^ 59 + 0x96 * 2 ^ 50 + 8 * 2 ^ 40 + 6 * 2 ^ 30 + 4 * 2 ^ 20 + 0x015 * 2 ^ 6 + 7 * 2 ^ 2 + 1
     w / 2 ^ 6 % 2 ^ 10 = 0x015 ∧ w % 4 = 1 ∧ w / 2 ^ 16 % 2 ^ 4 = 0 ∧ w / 2 ^ 58 % 2 = 0 ∧ w / 2 ^ 63 % 2 = 0 ∧ w / 2 ^ 74 % 2 ^ 22 = 0 ∧ w / 2 ^ 59 % 2 ^ 4 = 3 ∧
       (∀ lo ∈ [20, 30, 40, 64], w / 2 ^ lo % 2 ^ 10 < 0x300 ∧ w / 2 ^ lo % 2 = 0) ∧ decodeWord w = .ok (.lut3 p .b64 0x96 (.v 4) (.v 6) (.v 8) (.v 10))) := by decide
theorem wit_FloatConversionResults : FType.packed .f16 = false ∧ (Fmt.isFloat .pp8 = true ∨ Fmt.pp8 = .pp8) ∧ (Fmt.isFloat .fp64 = true ∨ Fmt.fp64 = .pp8) ∧ Fmt.isFloat .e5m2 = true := by decide
theorem wit_FloatDivisionAndLookahead : Issues one cur1 ∧ p.look = 0 ∧ FType.packed .bf16 = false := ⟨wit_Issues, by decide⟩
theorem wit_FloatDivisionAndLookahead_late : let h : Hdr := ⟨7, false, 15, false⟩
    Issues one cur1 ∧ h.u = false ∧ cur1.lanes = [0] ∧ (one.thr 0 0).guard h = true ∧ h.look ≠ 0 := ⟨wit_Issues, by decide⟩
theorem wit_FloatDivisionAndLookahead_ulp : (0x3C00 : Nat) < 2 ^ Fmt.fp16.bits ∧ decodeF .fp16 false 0x3C00 = .fin false 1024 (-10) ∧ (1024 : Nat) ≠ 0 ∧
    ∀ g, decodeF .fp16 false (frcpApprox .fp16 false 0x3C00) ≠ .inf g := by
  refine ⟨by decide, by decide, by decide, fun g e => ?_⟩
  have h : frcpApprox .fp16 false 0x3C00 = approxF 0 .fp16 false 1 0x3C00 (Val.div (.fin false 1 0) (.fin false 1024 (-10))) := by
    unfold frcpApprox; rw [show decodeF .fp16 false 0x3C00 = .fin false 1024 (-10) from by decide]; rfl
  rw [h] at e
  simp only [approxF] at e
  split at e
  · rename_i hg
    rw [e, Bool.and_eq_true] at hg
    exact absurd hg.1 (by simp [withinUlp, Val.div])
  · revert e; cases g <;> decide
theorem approxF_notInf {o n x : Nat} {f : Fmt} {e : Val} (h : ∀ g, decodeF f false (encodeF f .rn false false e) ≠ .inf g) : ∀ g, decodeF f false (approxF o f false n x e) ≠ .inf g := by
  intro g
  simp only [approxF]
  split
  · rename_i hg
    intro e'
    rw [e', Bool.and_eq_true] at hg
    cases e <;> exact absurd hg.1 (by simp [withinUlp])
  · exact h g
theorem wit_FloatDivisionAndLookahead_ulp2 : let x := 0x3FC00000
    decodeF .fp32 false x = .fin false 12582912 (-23) ∧
    (∀ g, decodeF .fp32 false (frsqF .fp32 false x) ≠ .inf g) ∧ 
    (∀ g, decodeF .fp32 false (flg2F .fp32 false x) ≠ .inf g) ∧ 
    (∀ g, decodeF .fp32 false (fex2F .fp32 false x) ≠ .inf g) ∧ 
    (∀ c g, decodeF .fp32 false (fsinF .fp32 false c x) ≠ .inf g) := by
  refine ⟨by decide, ?_, ?_, ?_, ?_⟩
  · unfold frsqF; rw [show decodeF .fp32 false 0x3FC00000 = .fin false 12582912 (-23) from by decide]; exact approxF_notInf (fun g => by cases g <;> decide)
  · unfold flg2F; rw [show decodeF .fp32 false 0x3FC00000 = .fin false 12582912 (-23) from by decide]; exact approxF_notInf (fun g => by cases g <;> decide)
  · unfold fex2F; rw [show decodeF .fp32 false 0x3FC00000 = .fin false 12582912 (-23) from by decide]
    simp only []
    rw [if_neg (by decide), if_neg (by decide), if_neg (by decide)]
    exact approxF_notInf (fun g => by cases g <;> decide)
  · intro c; unfold fsinF; rw [show decodeF .fp32 false 0x3FC00000 = .fin false 12582912 (-23) from by decide]; cases c <;> exact approxF_notInf (fun g => by cases g <;> decide)
theorem wit_RoundingIsCorrect : Fmt.isFloat .e4m3 = true ∧ (0x7E : Nat) < 2 ^ Fmt.e4m3.bits ∧ Fmt.isFloat .fp16 = true ∧
    encodeF .fp16 .ru false false (.fin false 1 (-30)) % Fmt.fp16.signBit ≤ Fmt.fp16.maxFin ∧ (0xFBFF : Nat) < 2 ^ Fmt.fp16.bits ∧ 0xFBFF % Fmt.fp16.signBit ≤ Fmt.fp16.maxFin := by decide
theorem wit_EncodedInstructionsDecode : (Instr.nop p).WellFormed = true ∧ assigned (.nop p) = true ∧ (Instr.atom p (mo .b32 .sc .system true) .add true true false true (.v 4) (.v 5)).WellFormed = true := by decide
theorem wit_DecodedWordsEncodeBack : decodeWord nopWord = .ok (.nop p) := by decide
theorem wit_FetchReadsWholeInstructions_words : (3 : Nat) % 4 = 3 ∧ 0 % 4 ≠ 3 ∧ [0x026, 0x07F, 0x096, 0x0FF, 0x110, 0x17F, 0x18F, 0x1FF, 0x215, 0x27F, 0x28C, 0x2FF, 0x30D, 0x3FF].all
    (fun o => (decide (0x026 ≤ o) && decide (o ≤ 0x07F)) || (decide (0x096 ≤ o) && decide (o ≤ 0x0FF)) || (decide (0x110 ≤ o) && decide (o ≤ 0x17F)) ||
      (decide (0x18F ≤ o) && decide (o ≤ 0x1FF)) || (decide (0x215 ≤ o) && decide (o ≤ 0x27F)) || (decide (0x28C ≤ o) && decide (o ≤ 0x2FF)) || decide (0x30D ≤ o)) = true := by decide
theorem wit_FetchReadsWholeInstructions : (fetchPart one x0 (one.thr 0 0).pcc 8).toOption = some nopWord ∧ nopWord % 4 ≠ 3 ∧ (one.thr 0 0).pcc.addr % 32 + footOfLen (nopWord % 4) ≤ 32 := by decide
def wordAt (off w : Nat) : State := (writePhys one (0x100000 + off) (bytesOf w 16)).modThr 0 0 fun t => { t with pcc := t.pcc.withAddr (0x100000 + off) }
theorem wit_FetchReadsWholeInstructions_length : (fetchPart (wordAt 0 0x3FFFFFFF0001F) x0 ((wordAt 0 0x3FFFFFFF0001F).thr 0 0).pcc 8).toOption = some 0x3FFFFFFF0001F ∧ 0x3FFFFFFF0001F % 4 = 3 := by decide
theorem wit_FetchReadsWholeInstructions_cross : (fetchPart (wordAt 24 1) x0 ((wordAt 24 1).thr 0 0).pcc 8).toOption = some 1 ∧ 1 % 4 ≠ 3 ∧
    32 < ((wordAt 24 1).thr 0 0).pcc.addr % 32 + footOfLen (1 % 4) := by decide
/-- The capability ends eight bytes into a twelve-byte instruction. -/
def cutS : State := (writePhys one 0x100000 (bytesOf 1 16)).modThr 0 0 fun t => { t with pcc := (t.pcc.setBounds false 8).withAddr 0x100000 }
theorem wit_FetchReadsWholeInstructions_cut : (fetchPart cutS x0 (cutS.thr 0 0).pcc 8).toOption = some 1 ∧ (cutS.thr 0 0).pcc.addr % 32 + footOfLen (1 % 4) ≤ 32 ∧
    (match fetchPart cutS x0 (cutS.thr 0 0).pcc (lenBits (1 % 4) / 8) with | .error (.fault _ _ _) => true | _ => false) = true := by decide
def started : State := State.reset.withFetchWord 64 nopWord
/-- The state that the first instruction is read in. -/
def rotated : State := rotateClan (countPassed (settleMeet { started with agenda := [] } 0 0) 0 0 [0]) 0 0
theorem wit_StepRunsDecodedInstruction : let s1 := settleMeet { started with agenda := [] } 0 0
    started.agenda = [.issue 0 0 [0]] ∧ groupRuns { started with agenda := [] } 0 = true ∧ mayLead { started with agenda := [] } 0 0 = true ∧ formedSet s1 0 0 [0] = false ∧
      chooseLanes s1 0 0 [0] = [0] ∧ fairPick s1 0 0 [0] = true ∧ (rotated.thr 0 0).pend = [] ∧ farPending rotated x0 = false ∧ remotePending rotated x0 = false ∧
      fetch rotated x0 = .ok (BitVec.ofNat 128 nopWord) 8 ∧ decodeWord nopWord = .ok (.nop p) ∧ assigned (.nop p) = true := by decide
theorem wit_StepRunsDecodedInstruction_fate : let s3 := enterIssue (rotated.modClan 0 0 fun k => { k with lead := 0 }) started.nextId 0 0 [0]
    [0].filter (fun u => (rotated.thr 0 u).guard (Raw.ofWord nopWord).hdr) = [0] ∧ odtEntry s3 0 (Raw.ofWord nopWord).op = 0 ∧
      contextReason s3 x0 (.nop p) (Raw.ofWord nopWord).op (Raw.ofWord nopWord).hdr.u = 0 := by decide
/-- At depth 1 the table's entry of EMRET is not asked for (R397). -/
theorem wit_StepRunsDecodedInstruction_emret : (0x10D = 0x10D ∧ ((rotated.modThr 0 0 fun t => { t with edepth := 1 }).thr 0 0).edepth ≠ 0) := by decide
theorem wit_StepRunsDecodedInstruction_event : ({ started with agenda := [.event .sweepStart] } : State).agenda = [.event .sweepStart] ∧ (Instr.sweepStart).isEvent = true := by decide
theorem wit_MemoryStaysCanonical : Memory.wf started = true ∧ (∃ t, step started = .next t) := ⟨by decide, _, rfl⟩
theorem wit_StoresReadBack : Memory.wf started = true ∧ (0 : Nat) < [1#8].length := by decide
/-- World 4 protected, its memory key in slot 0, a generated key of its own in slot 5. -/
def keyS : State := { State.reset with prot := 0x0010, keys := [(0, { world := 4, role := 0, nonce := 0, key := 7 }), (5, { world := 4, role := 1, nonce := 0, key := 9 })] }
theorem wit_StoresReadBack_keys : (0x110000 : Nat) < hbmSize ∧ hbmSize ≤ cellarBase ∧ protectedWorld keyS 4 = true ∧ protectedWorld keyS 5 = false ∧
    (Map.get? 5 keyS.keys).isSome ∧ (keyS.keys.find? fun q => q.2.role == 0 && q.2.world == 4).isSome ∧
    pageKey keyS 4 0 0x110000 = some 7 ∧ pageKey keyS 4 5 0x110000 = some 9 ∧ pageKey keyS 5 0 0x110000 = none := by decide
/-- R455: a granule written through a page of a key is under that key; a byte of the granule beside it keeps its own. -/
theorem wit_StoresReadBack_granules : let t := writeVia keyS (some 7) 0x110004 [1#8, 2#8]
    cipherOf t (0x110004 / 16) = some 7 ∧ cipherOf t (0x110010 / 16) = none ∧
    0x110010 / 16 ∉ granules 0x110004 2 ∧ 0x110000 / 16 ∈ granules 0x110004 2 ∧ cipherOf keyS (0x110004 / 16) = none := by decide
/-- An object of world 4, named by capability register r. -/
def put (s : State) (r t h : Nat) (b : Body) : State :=
  setC { s with objs := Map.set h { world := 4, torn := false, parent := none, src := 0, body := b } s.objs } [(r, Cap.object t h 0 0x0939 true)]
def far1 (s : State) : State := { s with fars := [(9, { (default : FarReq) with tree := .leaf ⟨0, 0, [0], false⟩ 9 none 0 0 0 Cap.null })] }
def withFar (s : State) : State := (far1 s).modThr 0 0 fun t => { t with pend := [⟨.far 9, [], 0, 0, 0, 0⟩] }

theorem wit_TransfersMeetingsAndExits : Issues one cur1 ∧ (∀ x k, (wrCap one x (.c 30) k).all RegWrite.isOwn = true) ∧ p.u = false ∧
    cur1.lanes.filter (fun l => (one.thr 0 l).guard p) ≠ [] ∧ edgeHeld one solo = false ∧ edgeHeld away solo = true :=
  ⟨wit_Issues, fun x k => by simp [wrCap, resolveCap, RegWrite.isOwn], by decide⟩
theorem wit_SpecialRegisters : Issues one cur1 ∧ Issues (one.modThr 0 0 fun t => { t with edepth := 2 }) cur1 ∧
    (∀ l ∈ cur1.lanes, ((one.modThr 0 0 fun t => { t with edepth := 2 }).thr 0 l).edepth ≠ 0) ∧ (one.grp 0).launch.shape = (1, 1, 1) :=
  ⟨wit_Issues, ⟨rfl, by decide, by unfold Present; decide⟩, by decide⟩
theorem wit_FencesConditionsAndHolds_fence : Solo one p solo ∧ releaseBlocked (releaseAt one x0 .system) x0 .system = false ∧ farPending one x0 = false := ⟨isSolo rfl, by decide⟩
theorem wit_FencesConditionsAndHolds_waits : Solo (withFar one) p solo ∧ releaseBlocked (releaseAt (withFar one) x0 .clan) x0 .clan = true ∧ farPending (withFar one) x0 = true := ⟨isSolo rfl, by decide⟩
def mcap : Cap := Cap.make 0x110000 0x1000 0x323B true 0x110000
def mem1 : State := setC (setV one 0 [(1, 5)]) [(1, mcap), (2, mcap), (3, { mcap with tag := false })]
def mem1m (t : AType) : MemOp := ⟨.c 1, .vz, 0, t, 0, .plain, .clan, false, false⟩
theorem wit_FencesConditionsAndHolds_waitc : Performs mem1 p mem1 solo ∧ waitcWay mem1 x0 (mem1m .b32) = .here (.mem 0x110000 0) ∧
    (orderBefore mem1 solo .plain .clan).2 = false ∧ eccLoc mem1 (.mem 0x110000 0) 4 = false ∧ edgeHeld mem1 solo = false :=
  ⟨performs rfl, by decide⟩
theorem wit_FencesConditionsAndHolds_waitc_ends :
    (Monitor.test mem1 { who := solo.who, loc := .mem 0x110000 0, n := 4, cmp := .eq, sgn := false, c := 0, d := .v 2, foot := 16 }).2 = true ∧
    (Monitor.test mem1 { who := solo.who, loc := .mem 0x110000 0, n := 4, cmp := .eq, sgn := false, c := 1, d := .v 2, foot := 16 }).2 = false := by decide
def syncS (hs : List (Holder × Bool)) : State := setC (put one 1 14 0x55000 (.sync ⟨[], hs, []⟩)) [(2, mcap)]
theorem wit_FencesConditionsAndHolds_acq : Performs (syncS []) p (syncS []) solo ∧ syncRefusal (syncS []) x0 (rdCap (syncS []) x0 (.c 1)) = none ∧
    (syncS []).sync? (rdCap (syncS []) x0 (.c 1)).base = some ⟨[], [], []⟩ ∧ (useCap (syncS []) x0 (.c 2)).tag = true ∧ (useCap (syncS []) x0 (.c 2)).sealed = false ∧
    inWindow (useCap (syncS []) x0 (.c 2)) = false := ⟨performs rfl, by decide⟩
theorem wit_FencesConditionsAndHolds_shared : syncRefusal (syncS [(.thread 0 7, false)]) x0 (rdCap (syncS [(.thread 0 7, false)]) x0 (.c 1)) = none ∧
    ([(Holder.thread 0 7, false)].any fun q => q.1 == holderFor solo) = false ∧ ∀ q ∈ [(Holder.thread 0 7, false)], q.2 = false := by decide
theorem wit_FencesConditionsAndHolds_rel : syncRefusal (syncS [(.thread 0 0, true)]) x0 (rdCap (syncS [(.thread 0 0, true)]) x0 (.c 1)) = none ∧
    ([(Holder.thread 0 0, true)].any fun q => q.1 == holderFor solo) = true ∧ edgeHeld (syncS [(.thread 0 0, true)]) solo = false := by decide
theorem wit_FaultsAreRecordedAndHeld_traps : Solo one p solo ∧ one.cur = some cur1 := ⟨isSolo rfl, rfl⟩
def faultS : State := (put one 1 1 0x50000 (.endpoint { (default : Endpoint) with depth := 1 })).modCtx 0x20000 fun c => { c with faultEp := Cap.object 1 0x50000 7 0x0939 true }
theorem wit_FaultsAreRecordedAndHeld : (faultS.grp? 0).map Group.ctx = some 0x20000 ∧ (faultS.ctx? 0x20000).map (fun k => liveEp faultS k.faultEp) = some true ∧
    (faultS.ctx? 0x20000).bind (fun k => faultS.ep? k.faultEp.base) = some { (default : Endpoint) with depth := 1 } ∧ (default : Endpoint).receivers = [] ∧ (default : Endpoint).subs = [] ∧
    (default : Endpoint).ring = none ∧ (default : Endpoint).msgs.length < 1 ∧ faultS.monitors = [] := by decide
/-- An unassigned word, of opcode 0x18F. -/
def wild : BitVec 128 := 0x48C00300801063DC
def wildS (odt : BitVec 2) (h : Cap) : State := { one.modCtx 0x20000 (fun c => { c with odt := c.odt.set 0x18F odt, handler := h }) with cur := some { cur1 with raw := wild } }
theorem wit_EmulationHandlerEntryAndReturn : let s := wildS 1 (Cap.make 0x100000 0x1000 5 true 0x100800)
    Issues s { cur1 with raw := wild } ∧ cur1.gathered = false ∧ (s.ctx? (s.grp 0).ctx).isSome ∧ odtEntry s 0 (Raw.ofWord wild.toNat).op = 1 ∧
      (s.ctx? 0x20000).map (fun k => k.handler.tag) = some true ∧ (∀ l ∈ cur1.lanes, (s.thr 0 l).edepth ≤ 1) ∧ gathersOp (Raw.ofWord wild.toNat).op (Raw.ofWord wild.toNat).mod = false :=
  ⟨⟨rfl, by decide, by unfold Present; decide⟩, by decide⟩
theorem wit_EmulationHandlerEntryAndReturn_refused : odtEntry (wildS 2 Cap.null) 0 (Raw.ofWord wild.toNat).op = 2 ∧ ((wildS 2 Cap.null).ctx? 0x20000).map (fun k => k.handler.tag) = some false ∧
    cur1.lanes.filter (fun l => ((wildS 2 Cap.null).thr 0 l).guard p) ≠ [] := by decide
def inHandler (n : Nat) : State := one.modThr 0 0 fun t => { t with edepth := n }
theorem wit_EmulationHandlerEntryAndReturn_emret : Solo (inHandler 1) p solo ∧ Solo (inHandler 2) p solo ∧ Present (inHandler 1) solo.cx ∧ solo.cx.lane < 32 ∧
    ((inHandler 1).thr 0 0).edepth = 1 ∧ ((inHandler 2).thr 0 0).edepth = 2 := ⟨isSolo rfl, isSolo rfl, by unfold Present; decide, by decide⟩
/-- One capability for each clause of the checks, an access at the last byte inside and at the first outside. -/
theorem wit_AccessChecksAndFailures : Cap.null.tag = false ∧ (Cap.object 1 0x50000 0 0x0939 true).tag = true ∧ (Cap.object 1 0x50000 0 0x0939 true).otype ≠ 0 ∧
    mcap.tag = true ∧ mcap.otype = 0 ∧ ¬ (∀ q ∈ [permExec], mcap.perm.getLsbD q = true) ∧ (∀ q ∈ [permLoad, permStore], mcap.perm.getLsbD q = true) ∧
    ¬ (mcap.base ≤ 0x110FFF ∧ 0x110FFF + 2 ≤ mcap.top) ∧ (mcap.base ≤ 0x110FFF ∧ 0x110FFF + 1 ≤ mcap.top) ∧ 0x110FFE % 4 ≠ 0 ∧ 0x110FFC % 4 = 0 := by decide
def bad3 (t : AType) : MemOp := { mem1m t with cap := .c 3 }
theorem wit_AccessChecksAndFailures_ways : Solo mem1 p solo ∧ p.u = false ∧ (∃ f, ldWay mem1 x0 (bad3 .b32) 0 = .bad f) ∧ (∃ f, ldWay mem1 x0 (bad3 .b32) 7 = .bad f) ∧ (∃ f, ldcWay mem1 x0 (bad3 .b128) = .bad f) ∧
    (∃ f, stWay mem1 x0 (bad3 .b32) 0 = .bad f) ∧ (∃ f, stWay mem1 x0 (bad3 .b32) 7 = .bad f) ∧ (∃ f, stcWay mem1 x0 (bad3 .b128) (.c 2) = .bad f) ∧ (∃ f, atomWay mem1 x0 (bad3 .b32) = .bad f) :=
  ⟨isSolo rfl, rfl, ⟨_, rfl⟩, ⟨_, rfl⟩, ⟨_, rfl⟩, ⟨_, rfl⟩, ⟨_, rfl⟩, ⟨_, rfl⟩, ⟨_, rfl⟩⟩
/-- A tagged granule that is not global, through a capability without STORECAP: the permission comes first (R38). -/
theorem wit_AccessChecksAndFailures_storecap : let k : Cap := Cap.make 0x110000 0x1000 3 true 0x110000
    let s := setC one [(1, k), (2, mcap)]
    (rdCap s x0 (.c 2)).tag = true ∧ (useCap s x0 (.c 1)).x = false ∧
      (capCheckAlign k (memAddr s x0 (mem1m .b128)) 16 16 ([permStore] ++ ([permStoreCap] ++ (if mcap.g then [] else [permStoreLocal])))).map FaultInfo.sub = some 3 := by decide
theorem wit_LoadsReadTheirPlaces : Performs mem1 p mem1 solo ∧ (orderBefore mem1 solo .plain .clan).2 = false ∧ Loc.io (.mem 0x110000 0) = false ∧
    ldWay mem1 x0 (mem1m .b64) 0 = .here (.mem 0x110000 0) ∧ ldWay mem1 x0 (mem1m .b32) 1 = .here (.mem 0x110000 0) ∧ ldcWay mem1 x0 (mem1m .b128) = .here (.mem 0x110000 0) ∧
    eccLoc mem1 (.mem 0x110000 0) 16 = false := ⟨performs rfl, by decide⟩
theorem wit_StoresWriteOnlyTheirPlaces : Performs mem1 p mem1 solo ∧ Memory.wf mem1 = true ∧ (orderBefore mem1 solo .plain .clan).2 = false ∧ (mem1m .n8).ord = .plain ∧
    stWay mem1 x0 (mem1m .n8) 0 = .here (.mem 0x110000 0) ∧ stWay mem1 x0 (mem1m .b32) 1 = .here (.mem 0x110000 0) ∧ stcWay mem1 x0 (mem1m .b128) (.c 2) = .here (.mem 0x110000 0) := ⟨performs rfl, by decide⟩
def padS : State := setC one [(1, Cap.make 0xFD00000000000000 0x1000 0x323B true 0xFD00000000000000)]
theorem wit_StoresWriteOnlyTheirPlaces_pad : Performs padS p padS solo ∧ stWay padS x0 (mem1m .b32) 0 = .here (.pad 0 0) ∧ ∀ pa mt k, Loc.pad 0 0 ≠ .mem pa mt k :=
  ⟨performs rfl, by decide, fun _ _ _ => nofun⟩
def hop (c : Reg) : HintOp := ⟨c, .vz, 0, 0⟩
theorem wit_HintsAndPresenceWaits : Performs mem1 p mem1 solo ∧ hintDropped mem1 x0 (hop (.c 3)) = true ∧ hintDropped mem1 x0 (hop (.c 1)) = false ∧
    (∀ f q, locate mem1 x0 .rd (hintAddr mem1 x0 (hop (.c 1))) 1 ≠ .absent f q) ∧ wayOf mem1 x0 (useCap mem1 x0 (.c 1)) (hintAddr mem1 x0 (hop (.c 1))) 1 1 [permLoad] .rd true = .here (.mem 0x110000 0) :=
  ⟨performs rfl, by decide, by decide, fun f q => by rw [show locate mem1 x0 .rd (hintAddr mem1 x0 (hop (.c 1))) 1 = .at_ (.mem 0x110000 0) from by decide]; nofun, by decide⟩
/-- The first page of world 4 backed by a file and absent. -/
def fileS : State := ((writePhys mem1 0x34000 (bytesOf (Pte.mkTable 0x36000) 8))).modObj 0x30000 fun o => { o with body := .aspace { root := 0x32000, free := [], files := [(0x100000, 0x5A000, 3)] } }
def fileS2 : State := writePhys (writePhys fileS 0x36000 (bytesOf (Pte.mkTable 0x38000) 8)) 0x38040 (bytesOf (Pte.mkLeaf 0 4 3 0 true true false true) 8)
theorem wit_HintsAndPresenceWaits_absent : hintDropped fileS2 x0 (hop (.c 1)) = false ∧ locate fileS2 x0 .rd (hintAddr fileS2 x0 (hop (.c 1))) 1 = .absent 0x5A000 3 := by decide
def darkS : State := padS.modGrp 0 fun g => { g with absent := [(1, true)] }
theorem wit_HintsAndPresenceWaits_pwait : Solo darkS p solo ∧ windowOf (hintAddr darkS x0 (hop (.c 1))) = some 1 ∧ darkRange padS x0 0xFD00000000000000 65 = none ∧
    darkRange darkS x0 0xFD00000000000000 64 = none ∧ darkRange darkS x0 0xFD00000000000000 65 = some (0, 1) ∧
    wayOf darkS x0 (useCap darkS x0 (.c 1)) 0xFD00000000000000 1 1 [permLoad] .rd false = .here (.pad 0 0) ∧
    windowOf (hintAddr mem1 x0 (hop (.c 1))) = none ∧ wayOf mem1 x0 (useCap mem1 x0 (.c 1)) 0x110000 1 1 [permLoad] .rd false = .here (.mem 0x110000 0) := ⟨isSolo rfl, by decide⟩
theorem wit_AtomicsReadModifyWrite_values : (0xFFFFFFFF : Nat) < 2 ^ 32 ∧ (0 : Nat) < 2 ^ 64 ∧ AOp.inc ≠ .fadd ∧ AOp.inc ≠ .fmin ∧ AOp.inc ≠ .fmax := by decide
theorem wit_AtomicsReadModifyWrite : Performs mem1 p mem1 solo ∧ (mem1m .b64).far = false ∧ (mem1m .b64).ty48 = true ∧ atomWay mem1 x0 (mem1m .b64) = .here (.mem 0x110000 0) ∧
    (orderBefore mem1 solo .plain .clan).2 = false ∧ eccLoc mem1 (.mem 0x110000 0) 8 = false ∧ Memory.wf mem1 = true ∧ mem1.monitors = [] := ⟨performs rfl, by decide⟩
/-- On a replicated Frame that no other package stamps. -/
theorem wit_AtomicsReadModifyWrite_repl : replHeld mem1 0x110000 = false := by decide
theorem wit_AtomicsReadModifyWrite_far : let m : MemOp := { mem1m .b32 with far := true }
    Performs mem1 p mem1 solo ∧ m.far = true ∧ m.ord = .plain ∧ atomWay mem1 x0 m = .here (.mem 0x110000 0) ∧ (0 : Nat) ≠ 1 ∧ (∀ c, mem1.cur = some c → ∀ f ∈ mem1.fars, f.1 < c.no) ∧ p.u = false :=
  ⟨performs rfl, by decide, by decide, by decide, by decide, fun c _ f h => absurd h (by simp [show mem1.fars = [] from rfl]), by decide⟩
theorem wit_CapabilityInstructions : Issues mem1 cur1 := ⟨rfl, by decide, by unfold Present; decide⟩
def sealer : Cap := Cap.make 16 4080 0x00C0 true 4095
theorem wit_DerivationsNeverGainAuthority : mcap.fit = true ∧ (mcap.withAddr 0x110FFF).norm.tag = true ∧ (mcap.setBounds true 0x1000).norm.tag = true ∧ (mcap.andPerm 1).norm.tag = true ∧
    (mcap.sealWith sealer).tag = true ∧ ((mcap.sealWith sealer).unsealWith sealer).tag = true ∧ (mcap.sealWith sealer).otype ≠ 0 := by decide
def xcap : Cap := { mcap with bits := mcap.bits ||| (1#128 <<< (96 + permRemote)) }
def expS : State := setC one [(1, xcap), (2, mcap)]
def entry1 : ExportEntry := { src := xcap, perm := 0x0403, chk := 5, world := 4, ctx := 0x20000, aspace := some 0x30000 }
def expS2 : State := setC { one with exports := [(0, entry1)] } [(1, xcap.exported 0x0403 5 0 0)]
theorem wit_ExportsNameAndServe_make : Performs expS p expS solo ∧ xcap.tag = true ∧ xcap.x = false ∧ xcap.has permRemote = true ∧ xcap.otype = 0 ∧ meetsWindow xcap = false ∧
    expS.exports.length < 1048576 ∧ expS.trngOk = true ∧ sieve expS (worldOfCx expS x0) (rdCap expS x0 (.c 1)) = xcap := ⟨performs rfl, by decide⟩
theorem wit_ExportsNameAndServe_not : (sieve expS (worldOfCx expS x0) (rdCap expS x0 (.c 2))).has permRemote = false := by decide
theorem wit_ExportsNameAndServe_drop : Performs expS2 p expS2 solo ∧ (rdCap expS2 x0 (.c 1)).tag = true ∧ (rdCap expS2 x0 (.c 1)).x = true ∧ (rdCap expS2 x0 (.c 1)).xPkg = expS2.pkg.toNat ∧
    Map.get? (rdCap expS2 x0 (.c 1)).xEntry expS2.exports = some entry1 ∧ entry1.chk.toNat = (rdCap expS2 x0 (.c 1)).xChk ∧ entry1.world = worldOfCx expS2 x0 ∧ entry1.dropper = none ∧
    exportOpen expS2 0 = false ∧ exportOpen { expS2 with acks := [⟨9, 3, 0, 0, 4⟩] } 0 = true := ⟨performs rfl, by decide⟩
theorem wit_HintsAndPresenceWaits_away : let s := setC { one with exports := [(0, entry1)] } [(1, { (xcap.exported 0x0403 5 0 0) with tag := true })]
    Performs s p s solo ∧ wayOf s x0 (useCap s x0 (.c 1)) (hintAddr s x0 (hop (.c 1))) 1 1 [permLoad] .rd true = .away := ⟨performs rfl, by decide⟩
/-- A load of package 9 through entry 0. -/
def rreq (n : Nat) : RemoteReq := { src := 9, id := 3, entry := 0, chk := 5, off := 0, engine := false, sealed := false, op := .load n }
def unmapped : ExportEntry := { entry1 with src := Cap.make 0x110000 0x1000 0x323B true 0x110000, aspace := none }
theorem wit_ExportsNameAndServe_waits : unsealedFor { expS2 with prot := 0x0010 } (rreq 4) = true ∧ unsealedFor expS2 (rreq 4) = false ∧ expS2.inbound.any (fun q => sameClass q.req (rreq 4)) = false ∧
    ({ expS2 with inbound := [⟨rreq 4, none, none⟩] } : State).inbound.any (fun q => sameClass q.req (rreq 4)) = true ∧
    (match pieces (exportPlace fileS2 entry1 .rd) 2 0x110000 4 with | .error (.absent f q) => decide (f = 0x5A000 ∧ q = 3) | _ => false) = true := by decide
theorem wit_ExportsNameAndServe_packet : SMap.get false (4 + 17) expS2.portDown = false ∧ (rreq 4).sealed = false ∧ Map.get? 9 expS2.pairs = none ∧ 
    Map.get? 9 ({ expS2 with pairs := [(9, { (default : PairKey) with key := 1 })] } : State).pairs = some { (default : PairKey) with key := 1 } ∧
    exec (.remoteRequestArrive (rreq 4)) expS2 = .next (remoteArrive expS2 1 (rreq 4)) := ⟨by decide, by decide, by decide, by decide, rfl⟩
/-- A store to a Frame whose home, another package, has yet to stamp it. -/
theorem wit_ExportsNameAndServe_stored : let s1 (s : State) := replSettle (writePieces { s with nextId := s.nextId + 1 } (storeCx s.nextId).writer [(.mem 0x110FFC 0, 4)] [1, 2, 3, 4])
    let away (s : State) : Bool := replAway (s1 s) 0 (storeCx s.nextId).tid || replOwes (s1 s) 0 (storeCx s.nextId).tid
    away expS2 = false ∧ away { awayOf expS2 with replNew := [{ rw1 with tids := [(storeCx expS2.nextId).tid] }] } = true := by decide
theorem wit_ExportsNameAndServe_refused : Map.get? 1 expS2.exports = none ∧ Map.get? 0 expS2.exports = some entry1 ∧ entry1.chk ≠ 6 ∧ { entry1 with perm := 0 }.perm.getLsbD permLoad = false := by decide
theorem wit_ExportsNameAndServe_load : entry1.chk = 5 ∧ entry1.perm.getLsbD permLoad = true ∧ entry1.perm.getLsbD permStore = true ∧
    (capCheckAlign xcap 0x110FFF 4 4 [permLoad]).isSome ∧ capCheckAlign xcap 0x110FFC 4 4 [permLoad] = none ∧ capCheckAlign xcap 0x110FFC 4 4 [permStore] = none ∧
    (pieces (exportPlace expS2 entry1 .rd) 2 0x110FFC 4).toOption = some [(.mem 0x110FFC 0, 4)] ∧ (pieces (exportPlace expS2 entry1 .wr) 2 0x110FFC 4).toOption = some [(.mem 0x110FFC 0, 4)] ∧
    eccPieces expS2 [(.mem 0x110FFC 0, 4)] = false ∧ eccPieces { expS2 with ecc := [(0x110FFC / 32, true)] } [(.mem 0x110FFC 0, 4)] = true := by decide
def epS (d : Nat) : State := put one 1 1 0x50000 (.endpoint { (default : Endpoint) with depth := d })
def entryE : ExportEntry := { entry1 with src := Cap.object 1 0x50000 0 0x0D39 true, perm := 0x0100 }
theorem wit_ExportsNameAndServe_send : entryE.perm.getLsbD permInvoke = true ∧ (sieve (epS 1) 4 entryE.src).tag = true ∧ entryE.src.otype = 1 ∧ ((epS 1).ep? entryE.src.base).isSome ∧
    (epS 1).worldOf entryE.src.base = entryE.world ∧ (epS 1).dead entryE.src.base = false ∧ (offer (epS 1) 0x50000 ⟨[], [], 0, none⟩).isSome ∧ (offer (epS 0) 0x50000 ⟨[], [], 0, none⟩).isNone := by decide

def bound (role : QRole) (k w d : Nat) (es : List QEntry) : State :=
  (put one 1 11 0x52000 (.queue { (default : QueueObj) with kind := k, width := w, depth := d, es := es })).modClan 0 0 fun c => { c with q := [(3, { q := 0x52000, role := role, seq := 0, uid := 1, made := 0, stage := false, cap := Cap.null })] }
def qe : QEntry := ⟨7, false, 0x20000, [], none⟩
theorem wit_QueuesPassEntries_push : p.u = false ∧ Solo (bound .push 0 32 32 []) p solo ∧ ((bound .push 0 32 32 []).queue? 0x52000).isSome ∧
    (checkBinding (bound .push 0 32 32 []) x0 3 .push none (MovW.bits .b32)).toOption = some 0x52000 ∧
    edgeHeld (bound .push 0 32 32 []) solo = false ∧ ((bound .push 0 32 32 (List.replicate 31 qe)).queue? 0x52000).map (fun o => decide (1 + o.reserved + o.es.length ≤ o.depth) && o.waiters.isEmpty) = some true := ⟨rfl, isSolo rfl, by decide⟩
theorem wit_QueuesPassEntries_revoke : (checkBinding (bound .push 5 128 32 []) x0 3 .push (some 5) 128).toOption = some 0x52000 := by decide
theorem wit_QueuesPassEntries_pop : (checkBinding (bound .pop 0 64 32 [qe]) x0 3 .pop none (MovW.bits .b64)).toOption = some 0x52000 ∧
    ((bound .pop 0 64 32 [qe]).queue? 0x52000).map QueueObj.es = some [qe] ∧ ((bound .pop 0 64 32 []).queue? 0x52000).map (fun o => o.es.isEmpty && o.waiters.isEmpty) = some true := by decide
theorem wit_QueuesPassEntries_qbind : (rdCap (bound .pop 1 128 32 []) x0 (.c 1)).tag = true ∧ [11].contains (rdCap (bound .pop 1 128 32 []) x0 (.c 1)).otype = true ∧
    (rdCap (bound .pop 1 128 32 []) x0 (.c 1)).has permInvoke = true ∧ ((bound .pop 1 128 32 []).obj? 0x52000).map (fun o => (o.world, o.torn)) = some (worldOfCx (bound .pop 1 128 32 []) x0, false) ∧
    kindAllows 1 .pop = true ∧ (((bound .pop 1 128 32 []).clan 0 0).q.filter fun b => !b.2.stage).length < bindLimit ((bound .pop 1 128 32 []).grp 0) := by decide

/-- Two threads that push or pop together, of their own and as a formed set. -/
def boundT (s : State) (role : QRole) (k w d : Nat) (es : List QEntry) : State :=
  { s with objs := Map.set 0x52000 (ob (.queue { (default : QueueObj) with kind := k, width := w, depth := d, es := es })) s.objs }.modClan 0 0 fun c => { c with q := [(3, { q := 0x52000, role := role, seq := 0, uid := 1, made := 0, stage := false, cap := Cap.null })] }
theorem wit_QueuesPassEntries_batch : let s := boundT (team 2) .push 0 32 32 (List.replicate 30 qe)
    let on := [0, 1].filter fun l => (s.thr 0 (0 * 32 + l)).guard p
    p.u = false ∧ s.cur = some { cur1 with lanes := [0, 1] } ∧ on = [0, 1] ∧ (s.queue? 0x52000).map (fun o => o.waiters.isEmpty && decide (2 + o.reserved + o.es.length ≤ o.depth)) = some true ∧
      (∀ l ∈ on, (checkBinding s ⟨0, 0, l⟩ 3 .push none (MovW.bits .b32)).toOption = some 0x52000 ∧ edgeHeld s ⟨⟨0, 0, l⟩, [l], false, none⟩ = false) := by decide
/-- Two threads pop one entry: the second finds the Queue empty. -/
theorem wit_QueuesPassEntries_batchPop : let s := boundT (team 2) .pop 0 64 32 [qe]
    (∀ l ∈ [0, 1], (checkBinding s ⟨0, 0, l⟩ 3 .pop none (MovW.bits .b64)).toOption = some 0x52000) ∧ ((s.queue? 0x52000).map fun o => (o.es, o.waiters)) = some ([qe], []) := by decide
theorem wit_QueuesPassEntries_set : let s (r : QRole) := boundT two r 0 32 32 [qe]
    pu.u = true ∧ Formed (s .push) (woken (s .push)) pair_ ∧ Formed (s .pop) (woken (s .pop)) pair_ ∧
      (checkBinding (woken (s .push)) pair_.cx 3 .push none (MovW.bits .b32)).toOption = some 0x52000 ∧ (checkBinding (woken (s .pop)) pair_.cx 3 .pop none (MovW.bits .b32)).toOption = some 0x52000 ∧
      ((woken (s .push)).queue? 0x52000).map (fun o => o.waiters.isEmpty && decide (1 + o.reserved + o.es.length ≤ o.depth)) = some true ∧
      ((woken (s .pop)).queue? 0x52000).map (fun o => (o.es, o.waiters)) = some ([qe], []) :=
  ⟨rfl, isFormed rfl rfl, isFormed rfl rfl, by decide⟩

def epM (ms : List Msg) : State := put one 1 1 0x50000 (.endpoint { (default : Endpoint) with depth := 2, msgs := ms })
def hello : Msg := ⟨[1, 2], [], 0, none⟩
theorem wit_MessagesAndNotifications_send : Performs (epM [hello]) p (epM [hello]) solo ∧ (rdCap (epM [hello]) x0 (.c 1)).x = false ∧ sieved (epM [hello]) (worldOfCx (epM [hello]) x0) (rdCap (epM [hello]) x0 (.c 1)) = false ∧
    msgRefusal (replSettle (epM [hello])) x0 (rdCap (epM [hello]) x0 (.c 1)) 1 permInvoke true = none ∧ edgeHeld (epM [hello]) solo = false ∧
    ((replSettle (epM [hello])).ep? (rdCap (epM [hello]) x0 (.c 1)).base).map (fun e => e.receivers.isEmpty && e.subs.isEmpty && e.ring.isNone && decide (e.msgs.length < e.depth)) = some true := ⟨performs rfl, by decide⟩
theorem wit_MessagesAndNotifications_recv : msgRefusal (epM [hello]) x0 (rdCap (epM [hello]) x0 (.c 1)) 1 permLoad false = none ∧
    ((epM [hello]).ep? 0x50000).map (fun e => (e.msgs, e.senders)) = some ([hello], []) ∧ ((epM []).ep? 0x50000).map (fun e => (e.msgs, e.senders)) = some ([], []) := by decide
def repS : State := setC { one with replies := [(0x2000000000000, { op := { (default : RecvOp) with who := ⟨0, 0, [0], false⟩, ctx := 0x20000 }, armed := true, taken := none, svc := none })] } [(1, replyCap 0x2000000000000)]
theorem wit_MessagesAndNotifications_ereply : (rdCap repS x0 (.c 1)).tag = true ∧ (rdCap repS x0 (.c 1)).otype = 12 ∧ (rdCap repS x0 (.c 1)).has permInvoke = true ∧
    (Map.get? (rdCap repS x0 (.c 1)).base repS.replies).isSome ∧ edgeHeld repS solo = false := by decide
theorem wit_MessagesAndNotifications_info : (8191 : Nat) < 2 ^ 13 ∧ (8 : Nat) ≤ 8 ∧ (2 : Nat) ≤ 2 := by decide
def ntfS (w : DWord) (ws : List (Who × Reg × Reg × Nat)) : State := put one 1 2 0x51000 (.notification ⟨w, ws⟩)
theorem wit_MessagesAndNotifications_signal : Performs (ntfS 4 []) p (ntfS 4 []) solo ∧ ((ntfS 4 []).obj? (rdCap (ntfS 4 []) x0 (.c 1)).base).map Obj.body = some (.notification ⟨4, []⟩) ∧
    msgRefusal (replSettle (ntfS 4 [])) x0 (rdCap (ntfS 4 []) x0 (.c 1)) 2 permInvoke false = none ∧ edgeHeld (ntfS 4 []) solo = false ∧ msgRefusal (ntfS 4 []) x0 (rdCap (ntfS 4 []) x0 (.c 1)) 2 permLoad false = none ∧
    (4 : DWord) ≠ 0 ∧ (0 : DWord) ||| 1 ≠ 0 := ⟨performs rfl, by decide⟩
theorem wit_MessagesAndNotifications_waiter : ((ntfS 0 [(⟨0, 0, [0], false⟩, .v 1, .v 2, 8)]).obj? 0x51000).map Obj.body = some (.notification ⟨0, [(⟨0, 0, [0], false⟩, .v 1, .v 2, 8)]⟩) := by decide

/-- An OBJ through c1, words from v8, capability argument c2. -/
def ops (n : Fin 9) : ObjOps := ⟨.v 0, .c 1, .v 8, n, .c 2⟩
def args (s : State) (ws : List Word) : State := setV s 0 (ws.zipIdx.map fun w => (8 + w.2, w.1))
def objS (t : Nat) (b : Body) (ws : List Word) : State := args (put one 1 t 0x58000 b) ws
def objOk (s : State) (op : SubOp) (b : Body) : Bool := decide (passes s x0 op (ops 0) = .ok (ob b))
def word (s : State) (n : Fin 9) (b : Body) (i : Nat) : Nat := (objCall s x0 (ops n) (ob b)).arg i
def unt (k : Nat) : Body := .untyped { base := 0x400000, log2 := 17, kind := k, mark := 0 }

theorem wit_ObjectGateAndRetype_gate : let c := Cap.object 8 0x58000 0 0x0939 true
    let d := Cap.object 8 0x58000 0 0x0100 true
    (c.tag = true ∧ c.otype ≠ 0 ∧ c.otype < 16 ∧ c.has permInvoke = true) ∧ ¬ (Cap.null.tag = true) ∧ SubOp.applies .map c.otype = false ∧ SubOp.applies .retype c.otype = true ∧
      ¬ (SubOp.needsSysreg .retype = false ∨ d.has permSysreg = true) ∧ d.has permInvoke = true ∧ (SubOp.needsSysreg .status = false) ∧ c.otype ≠ 12 ∧ c.otype ≠ 13 ∧ one.obj? c.base = none ∧
      ((objS 8 (unt 0) []).obj? c.base).map (fun o => (o.world, o.torn)) = some (worldOfCx (objS 8 (unt 0) []) x0, false) ∧ SubOp.retype ≠ .status := by decide
/-- The binding of a ring, through an Endpoint capability without LOAD (R361). -/
theorem wit_ObjectGateAndRetype_ring : let c := Cap.object 1 0x58000 0 0x0900 true
    c.tag = true ∧ c.has permInvoke = true ∧ SubOp.applies .bind c.otype = true ∧ c.otype = 1 ∧ (Cap.object 11 0x60000 0 0x0939 true).otype = 11 ∧ c.has permLoad = false := by decide
theorem wit_ObjectGateAndRetype_worlds : (({ one with objs := [(0x20000, { ob (.context probeContext) with world := 5 })] } : State).obj? 0x20000).map Obj.world ≠ some 4 ∧
    ((one.modObj 0x20000 fun o => { o with torn := true }).obj? 0x20000).map Obj.torn = some true := by decide
theorem wit_ObjectGateAndRetype_refused : Performs one p one solo ∧ passes one x0 .retype (ops 0) = .error 3 := ⟨performs rfl, by decide⟩
theorem wit_ObjectGateAndRetype : let s := objS 8 (unt 0) [2]
    Performs s p s solo ∧ objOk s .retype (unt 0) = true ∧ s.obj? 0x58000 = some (ob (unt 0)) ∧ resetting s 0x58000 = false ∧ word s 1 (unt 0) 0 = 2 ∧ 2 ∈ [1, 2, 3, 5, 10, 11, 14, 15] ∧
      retypeWords 2 ≤ 1 ∧ retypeSize { base := 0x400000, log2 := 17, kind := 0, mark := 0 } 2 (objCall s x0 (ops 1) (ob (unt 0))) = some (64, 64) ∧ (allocFrom s 0x58000 64 64).isSome ∧
      (allocFrom (objS 8 (.untyped { base := 0x400000, log2 := 17, kind := 0, mark := 2 ^ 17 - 63 }) [2]) 0x58000 64 64).isNone := ⟨performs rfl, by decide⟩

/-- To an AddressSpace, a Context of a world with and without its memory key, a Frame and an Untyped. -/
def untW : UntypedObj := { base := 0x400000, log2 := 17, kind := 0, mark := 0 }
def untM : UntypedObj := { base := 0x400000, log2 := 20, kind := 1, mark := 0 }
def retypes (u : UntypedObj) (ws : List Word) (n : Fin 9) (t : Nat) : Bool :=
  let s := objS 8 (.untyped u) ws
  let q := objCall s x0 (ops n) (ob (.untyped u))
  objOk s .retype (.untyped u) && q.arg 0 == t && decide (retypeWords t ≤ q.narg) &&
    match retypeSize u t q with | some (n, al) => (allocFrom s 0x58000 n al).isSome | none => false
theorem wit_ObjectGateAndRetype_types : retypes untW [4] 1 4 = true ∧ retypes untW [6] 1 6 = true ∧ retypes untM [7, 0] 2 7 = true ∧ retypes untM [8, 17] 2 8 = true ∧ untM.kind ≠ 2 := by decide
theorem wit_ObjectGateAndRetype_key : isOk (memoryKey one 4) = true ∧ isOk (memoryKey { one with prot := 0x0010, trngOk := false } 4) = false := by decide
def ctxB : Body := .context { probeContext with aspace := none }
def ctxS (ws : List Word) : State := objS 6 ctxB ws
def cxS (ws : List Word) (t : Nat) (b : Body) : State := setC { ctxS ws with objs := Map.set 0x60000 (ob b) (ctxS ws).objs } [(2, Cap.object t 0x60000 0 0x0939 true)]
theorem wit_ObjectsAreConfigured_odt : let s := ctxS [0, 1008, 0xFFFFFFFF]
    Performs s p s solo ∧ objOk s .config ctxB = true ∧ word s 3 ctxB 0 = 0 ∧ word s 3 ctxB 1 % 16 = 0 ∧ word s 3 ctxB 1 < 1024 ∧ coresOf s 0x58000 = [] ∧ ∀ l ∈ s.odtLag, l.1 ≠ 0x58000 := ⟨performs rfl, by decide⟩
theorem wit_ObjectsAreConfigured_handler : objOk (ctxS [1]) .config ctxB = true ∧ word (ctxS [1]) 1 ctxB 0 = 1 := by decide
def live (s : State) (c : Cap) (ts : List Nat) : Bool := c.tag && ts.contains c.otype && decide (c.otype < 16) && decide (c.otype ≠ 0) && c.has permInvoke &&
  ((s.obj? c.base).map fun o => (o.world, o.torn)) == some (4, false)
theorem wit_namesLive {s : State} {c : Cap} {ts : List Nat} (h : live s c ts = true) : namesLive s c ts 4 := by
  unfold live at h
  simp only [Bool.and_eq_true, decide_eq_true_eq, beq_iff_eq] at h
  obtain ⟨⟨⟨⟨⟨h1, h2⟩, h3⟩, h4⟩, h5⟩, h6⟩ := h
  cases e : s.obj? c.base with
  | none => simp [e] at h6
  | some o => simp [e] at h6; exact ⟨h1, h2, h3, h4, h5, o, e, h6.1, h6.2⟩
theorem wit_ObjectsAreConfigured_endpoints : objOk (cxS [2] 1 (.endpoint default)) .config ctxB = true ∧ word (cxS [2] 1 (.endpoint default)) 1 ctxB 0 = 2 ∧ word (cxS [3] 1 (.endpoint default)) 1 ctxB 0 = 3 ∧
    live (cxS [2] 1 (.endpoint default)) (rdCap (cxS [2] 1 (.endpoint default)) x0 (.c 2)) [1] = true := by decide
theorem wit_ObjectsAreConfigured_saveArea : word (ctxS [4]) 1 ctxB 0 = 4 ∧ saveAreaOk (Cap.make 0x200000 0x200000 0x003B true 0x200000) = true := by decide
theorem wit_ObjectsAreConfigured_aspace : live (cxS [5] 4 (.aspace default)) (rdCap (cxS [5] 4 (.aspace default)) x0 (.c 2)) [4] = true ∧ word (cxS [5] 4 (.aspace default)) 1 ctxB 0 = 5 := by decide
theorem wit_ObjectsAreConfigured_slot : word (ctxS [6, 7, 0x1FFFFF, 0]) 4 ctxB 0 = 6 ∧ word (ctxS [6, 7, 0x1FFFFF, 0]) 4 ctxB 1 ≤ 7 ∧
    (objCall (ctxS [6, 7, 0x1FFFFF, 0]) x0 (ops 4) (ob ctxB)).arg64 2 < 2 ^ 21 := by decide
theorem wit_ObjectsAreConfigured_limits : word (ctxS [7, 250]) 2 ctxB 0 = 7 ∧ 250 ≤ word (ctxS [7, 250]) 2 ctxB 1 ∧ word (ctxS [7, 16000]) 2 ctxB 1 ≤ 16000 ∧ word (ctxS [8, 60000]) 2 ctxB 0 = 8 ∧
    word (ctxS [8, 60000]) 2 ctxB 1 ≤ 60000 := by decide
theorem wit_ObjectsAreConfigured_keyslot : (objCall (ctxS [9, 0, 1, 2]) x0 (ops 4) (ob ctxB)).narg = 4 ∧ word (ctxS [9, 0, 1, 2]) 4 ctxB 0 = 9 ∧ word (ctxS [9, 0, 1, 2]) 4 ctxB 1 = 0 ∧
    (takeKeySlot (ctxS [9, 0, 1, 2]) false).isSome ∧ (ctxS [9, 0, 1, 2]).trngOk = true := by decide
theorem wit_ObjectsAreConfigured_log : word (ctxS [10]) 1 ctxB 0 = 10 ∧ logOk (Cap.make 0x110000 64 0x0002 true 0x110000) = true := by decide
theorem wit_ObjectsAreConfigured_seal : word (ctxS [11, 16, 4080]) 3 ctxB 0 = 11 ∧ 16 ≤ word (ctxS [11, 16, 4080]) 3 ctxB 1 ∧ word (ctxS [11, 16, 4080]) 3 ctxB 2 ≤ 4080 ∧
    word (ctxS [11, 16, 4080]) 3 ctxB 1 + word (ctxS [11, 16, 4080]) 3 ctxB 2 ≤ 4096 ∧ word (ctxS [11, 4095, 1]) 3 ctxB 1 ≤ 4095 ∧ 1 ≤ word (ctxS [11, 4095, 1]) 3 ctxB 2 := by decide
theorem wit_ObjectsAreConfigured_mint : let s (t : Nat) (b : Body) := objS t b [0, 8191, 0x1FFFF]
    objOk (s 1 (.endpoint default)) .config (.endpoint default) = true ∧ objOk (s 2 (.notification default)) .config (.notification default) = true ∧
      word (s 1 (.endpoint default)) 3 (.endpoint default) 1 < 2 ^ 13 ∧ word (s 1 (.endpoint default)) 3 (.endpoint default) 2 < 2 ^ 17 ∧ (rdCap (s 1 (.endpoint default)) x0 (.c 1)).badge = 0 := by decide
theorem wit_ObjectsAreConfigured_mask : word (objS 1 (.endpoint default) [1, 0xFFFF]) 2 (.endpoint default) 0 = 1 ∧ word (objS 1 (.endpoint default) [1, 0xFFFF]) 2 (.endpoint default) 1 < 2 ^ 16 := by decide
theorem wit_ObjectsAreConfigured_sched : objOk (objS 3 (.sched default) [0, 15, 1, 1, 0, 0, 0]) .config (.sched default) = true ∧ word (objS 3 (.sched default) [0, 15, 1, 1, 0, 0, 0]) 7 (.sched default) 1 ≤ 15 ∧
    (objCall (objS 3 (.sched default) [0, 15, 1, 1, 0, 0, 0]) x0 (ops 7) (ob (.sched default))).narg = 7 := by decide
theorem wit_ObjectsAreConfigured_reset : objOk (objS 8 (unt 0) [0]) .config (unt 0) = true ∧ word (objS 8 (unt 0) [0]) 1 (unt 0) 0 = 0 ∧ resetting (objS 8 (unt 0) [0]) 0x58000 = false ∧
    ∀ d ∈ allUnder (objS 8 (unt 0) [0]) 0x58000, (objS 8 (unt 0) [0]).dead d = true := by decide
def qb (k : Nat) : Body := .queue { (default : QueueObj) with kind := k, width := 128, depth := 32 }
def qcx (k : Nat) (ws : List Word) (t : Nat) (b : Body) : State := setC { objS 11 (qb k) ws with objs := Map.set 0x60000 (ob b) (objS 11 (qb k) ws).objs } [(2, Cap.object t 0x60000 0 0x0939 true)]
theorem wit_ObjectsAreConfigured_pair : objOk (qcx 5 [0] 11 (qb 1)) .config (qb 5) = true ∧ word (qcx 5 [0] 11 (qb 1)) 1 (qb 5) 0 = 0 ∧ 5 ∈ [2, 3, 5] ∧
    live (qcx 5 [0] 11 (qb 1)) (rdCap (qcx 5 [0] 11 (qb 1)) x0 (.c 2)) [11] = true ∧ ((qcx 5 [0] 11 (qb 1)).queue? 0x60000).map QueueObj.kind = some 1 := by decide
theorem wit_ObjectsAreConfigured_file : objOk (qcx 3 [1] 10 (.filemap default)) .config (qb 3) = true ∧ word (qcx 3 [1] 10 (.filemap default)) 1 (qb 3) 0 = 1 ∧
    live (qcx 3 [1] 10 (.filemap default)) (rdCap (qcx 3 [1] 10 (.filemap default)) x0 (.c 2)) [10] = true := by decide
theorem wit_ObjectsAreConfigured_group : word (qcx 6 [2, 0xFFFFFF, 4095, 4096] 1 (.endpoint default)) 4 (qb 6) 0 = 2 ∧ word (qcx 6 [2, 0xFFFFFF, 4095, 4096] 1 (.endpoint default)) 4 (qb 6) 1 < 2 ^ 24 ∧
    word (qcx 6 [2, 0xFFFFFF, 4095, 4096] 1 (.endpoint default)) 4 (qb 6) 3 ≤ 4096 ∧ word (qcx 6 [2, 0xFFFFFF, 4095, 4096] 1 (.endpoint default)) 4 (qb 6) 2 < word (qcx 6 [2, 0xFFFFFF, 4095, 4096] 1 (.endpoint default)) 4 (qb 6) 3 := by decide
def qg : Body := .queue { (default : QueueObj) with kind := 6, width := 128, depth := 32, coll := some ⟨1, 0, 2, []⟩ }
def qgS : State := setC { objS 11 qg [3, 1] with objs := Map.set 0x60000 (ob (.keyslot default)) (objS 11 qg [3, 1]).objs } [(2, Cap.object 9 0x60000 0 0x0939 true)]
theorem wit_ObjectsAreConfigured_pairKey : objOk qgS .config qg = true ∧ word qgS 2 qg 0 = 3 ∧ word qgS 2 qg 1 < 2 ∧ word qgS 2 qg 1 ≠ 0 ∧ live qgS (rdCap qgS x0 (.c 2)) [9] = true := by decide
def fmB : Body := .filemap default
def fmS : State := setC { objS 10 fmB [0] with objs := Map.set 0x60000 (ob (unt 1)) (objS 10 fmB [0]).objs } [(2, Cap.object 8 0x60000 0 0x0939 true)]
theorem wit_ObjectsAreConfigured_source : objOk fmS .config fmB = true ∧ word fmS 1 fmB 0 = 0 ∧ live fmS (rdCap fmS x0 (.c 2)) [8] = true ∧ (fmS.obj? 0x60000).map Obj.body = some (unt 1) := by decide
def spB : Body := .aspace { root := 0x32000, free := [0x36000, 0x38000], files := [] }
def sp1 : AspaceObj := { root := 0x32000, free := [0x36000, 0x38000], files := [] }
def spS (ws : List Word) (t : Nat) (b : Body) : State :=
  let s := put one 1 4 0x30000 spB
  setC (args { s with objs := Map.set 0x60000 (ob b) s.objs } ws) [(1, Cap.object 4 0x30000 0 0x0939 true), (2, Cap.object t 0x60000 0 0x0939 true)]
theorem wit_Except {α : Type} {r : Except Nat α} (h : isOk r = true) : ∃ t, r = .ok t := by
  cases r with
  | ok t => exact ⟨t, rfl⟩
  | error _ => cases h
def fr (fz : Bool) (k : Nat) : FrameObj := { pa := 0x600000, log2 := 17, kind := k, frozen := fz, repl := none }
theorem wit_MappingsAndBindings_frame : let s := spS [0, 32, 12] 7 (.frame (fr false 0))
    Performs s p s solo ∧ objOk s .map spB = true ∧ word s 3 spB 2 = 12 ∧ (objCall s x0 (ops 3) (ob spB)).arg64 0 = 2 ^ 37 ∧
      live s (rdCap s x0 (.c 2)) [7] = true ∧ remapWaits s 0x30000 (2 ^ 37) = false ∧
      (∃ t, placeLeaf (remapped s 0x30000 (2 ^ 37)) 0x30000 0x32000 1 (2 ^ 37) (Pte.mkLeaf 0x600000 4 0 0 true true false false) = .ok t) :=
  ⟨performs rfl, by decide, by decide, by decide, by decide, by decide, wit_Except (by decide)⟩
theorem wit_MappingsAndBindings_file : let s := spS [0, 32, 108, 4] 10 (.filemap { (default : FileMapObj) with pages := 5 })
    objOk s .map spB = true ∧ word s 4 spB 2 / 32 % 8 = 3 ∧ word s 4 spB 2 % 4 = 0 ∧ live s (rdCap s x0 (.c 2)) [10] = true ∧ (s.filemap? 0x60000).map FileMapObj.pages = some 5 ∧ word s 4 spB 3 < 5 ∧
      remapWaits s 0x30000 (2 ^ 37) = false ∧
      (∃ t, placeLeaf (remapped s 0x30000 (2 ^ 37)) 0x30000 0x32000 1 (2 ^ 37) (Pte.mkLeaf 0 4 3 0 true true false true) = .ok t) :=
  ⟨by decide, by decide, by decide, by decide, by decide, by decide, by decide, wit_Except (by decide)⟩
theorem wit_MappingsAndBindings_unmap : let s := spS [0, 0] 10 (.filemap default)
    objOk s .unmap spB = true ∧ (leafAt? s 0x30000 0).isSome = true ∧ remapWaits s 0x30000 0 = false := by decide
/-- A device has yet to answer a read through the leaf that is there. -/
theorem wit_MappingsAndBindings_late : let s := spS [0, 0] 10 (.filemap default)
    remapWaits { s with ios := [(9, { (default : IoAcc) with pa := ((leafAt? s 0x30000 0).map fun l => l.e.addr).getD 0 })] } 0x30000 0 = true := by decide
def bindS (t : Nat) (b : Body) (ws : List Word) (t2 : Nat) (b2 : Body) : State :=
  let s := put one 1 t 0x58000 b
  setC (args { s with objs := Map.set 0x60000 (ob b2) s.objs } ws) [(1, Cap.object t 0x58000 0 0x0939 true), (2, Cap.object t2 0x60000 0 0x0939 true)]
theorem wit_MappingsAndBindings_bind : let e : Body := .endpoint default
    let i : Body := .irq 1 2 none
    let g : Body := .grant ⟨1, true, false, none, 0, 0⟩
    (objOk (bindS 1 e [] 11 (qb 7)) .bind e = true ∧ (Cap.object 1 0x58000 0 0x0939 true).has permLoad = true ∧ live (bindS 1 e [] 11 (qb 7)) (rdCap (bindS 1 e [] 11 (qb 7)) x0 (.c 2)) [11] = true ∧
      ((bindS 1 e [] 11 (qb 7)).queue? 0x60000).map (fun k => (k.kind, k.width)) = some (7, 128)) ∧
    live (bindS 1 e [] 6 ctxB) (rdCap (bindS 1 e [] 6 ctxB) x0 (.c 2)) [6] = true ∧
    (objOk (bindS 5 i [0, 63] 2 (.notification default)) .bind i = true ∧ word (bindS 5 i [0, 63] 2 (.notification default)) 2 i 1 ≤ 63 ∧
      live (bindS 5 i [0, 63] 2 (.notification default)) (rdCap (bindS 5 i [0, 63] 2 (.notification default)) x0 (.c 2)) [2] = true) ∧
    (objOk (bindS 15 g [] 7 (.frame (fr false 0))) .bind g = true ∧ live (bindS 15 g [] 7 (.frame (fr false 0))) (rdCap (bindS 15 g [] 7 (.frame (fr false 0))) x0 (.c 2)) [7] = true) := by decide

/-- A Frame bound to group 1 as rank 1, where nobody, this package or another has bound one of another size. -/
def frB : Body := .frame (fr false 0)
def bindF (w : Word) : State := bindS 7 frB [0, w] 11 (.queue (q6 0))
def other : State := { (bindF 1) with objs := Map.set 0x63000 (ob (.frame { fr false 0 with log2 := 27, repl := some (0x60000, 0) })) (bindF 1).objs }
theorem wit_MappingsAndBindings_replicated : objOk (bindF 1) .bind frB = true ∧ word (bindF 1) 2 frB 1 < 2 ∧ 2 ≤ word (bindF 2) 2 frB 1 ∧
    live (bindF 1) (rdCap (bindF 1) x0 (.c 2)) [11] = true ∧ ((bindF 1).queue? 0x60000).map QueueObj.coll = some (some ⟨1, 0, 2, []⟩) ∧ (bindF 1).bound = [] ∧
    (∃ b ∈ ({ bindF 1 with bound := [(1, 3, 27)] } : State).bound, b.1 = 1 ∧ b.2.2 ≠ (fr false 0).log2) := by decide
theorem wit_MappingsAndBindings_otherSize : (0x63000 : Nat) ≠ 0x58000 ∧ (other.obj? 0x63000) = some (ob (.frame { fr false 0 with log2 := 27, repl := some (0x60000, 0) })) ∧
    (other.queue? 0x60000).map QueueObj.coll = some (some ⟨1, 0, 2, []⟩) ∧ ({ fr false 0 with log2 := 27 } : FrameObj).log2 ≠ (fr false 0).log2 := by decide
def lifeOk (t : Nat) (op : SubOp) (b : Body) : Bool := objOk (objS t b []) op b
theorem wit_ObjectsLiveEndAndAnswer : Performs (objS 6 ctxB []) p (objS 6 ctxB []) solo := performs rfl
theorem wit_ObjectsLiveEndAndAnswer_suspend : let k (b : Bool) : Body := .context { probeContext with suspended := b }
    let q (b : Bool) : Body := .sched { (default : Sched) with suspended := b }
    lifeOk 6 .suspend (k false) = true ∧ lifeOk 3 .suspend (q false) = true ∧ lifeOk 6 .resume (k true) = true ∧ lifeOk 3 .resume (q true) = true := by decide
theorem wit_ObjectsLiveEndAndAnswer_teardown : lifeOk 4 .teardown (.aspace default) = true ∧ lifeOk 5 .teardown (.irq 0 0 none) = true ∧ lifeOk 8 .teardown (unt 0) = true ∧ lifeOk 10 .teardown (.filemap default) = true ∧
    lifeOk 2 .teardown (.notification ⟨0, []⟩) = true ∧ lifeOk 9 .teardown (.keyslot ⟨1, 0⟩) = true ∧ keyNamed (objS 9 (.keyslot ⟨1, 0⟩) []) 1 0x58000 = false ∧
    lifeOk 6 .teardown ctxB = true ∧ lifeOk 11 .teardown (qb 0) = true ∧ (objS 6 ctxB []).obj? 0x58000 = some (ob ctxB) := by decide
/-- An export of this package and world. -/
theorem wit_ObjectsLiveEndAndAnswer_export : let s := setC { one with exports := [(0, entry1)] } [(1, { (xcap.exported 0x0939 5 0 0) with tag := true })]
    (rdCap s x0 (.c 1)).otype = 13 ∧ isOk (passes s x0 .teardown (ops 0)) = true ∧ exportOpen s (rdCap s x0 (.c 1)).xEntry = false ∧
      exportOpen { s with acks := [⟨9, 3, 0, 0, 4⟩] } (rdCap s x0 (.c 1)).xEntry = true := by decide
/-- The Endpoint of a receiver, of a sender, of a message that carries a Reply; a SchedContext, a Frame, a SyncObject and a Grant. -/
def rop : RecvOp := { (default : RecvOp) with who := ⟨0, 0, [0], false⟩, ctx := 0x20000 }
theorem wit_ObjectsLiveEndAndAnswer_teardowns : let e (e : Endpoint) : Bool := lifeOk 1 .teardown (.endpoint e)
    e default = true ∧ e { (default : Endpoint) with receivers := [rop] } = true ∧ e { (default : Endpoint) with senders := [.thread ⟨0, 0, [0], false⟩ (.v 1) none 8 false hello] } = true ∧
      e { (default : Endpoint) with msgs := [{ hello with reply := some 0x2000000000000 }] } = true ∧ ((objS 1 (.endpoint default) []).grp? rop.who.gid).map (fun g => g.stat != .saved) = some true ∧
      lifeOk 3 .teardown (.sched default) = true ∧ lifeOk 7 .teardown (.frame (fr true 0)) = true ∧ lifeOk 14 .teardown (.sync ⟨[], [(.thread 0 0, true)], []⟩) = true ∧
      lifeOk 15 .teardown (.grant ⟨1, true, false, none, 0, 0⟩) = true := by decide
theorem wit_ObjectsLiveEndAndAnswer_keyInUse : let s0 := objS 9 (.keyslot ⟨1, 0⟩) []
    let s := writePhys s0 0x34008 (bytesOf (Pte.mkLeaf 0x400000 4 0 1 true true false false) 8)
    objOk s .teardown (.keyslot ⟨1, 0⟩) = true ∧ keyNamed s 1 0x58000 = true := by decide
theorem wit_ObjectsLiveEndAndAnswer_status : lifeOk 11 .status (qb 0) = true ∧ lifeOk 1 .status (.endpoint default) = true ∧ (objCall (objS 11 (qb 0) []) x0 (ops 0) (ob (qb 0))).c.otype ≠ 12 := by decide
def frzS (fz : Bool) : State := writePhys (bindS 7 (.frame (fr fz 0)) [0, 0] 6 ctxB) 0x34008 (bytesOf (Pte.mkLeaf 0x600000 4 0 0 true true false false) 8)
theorem wit_ObjectsLiveEndAndAnswer_freeze : objOk (frzS true) .freeze (.frame (fr true 0)) = true ∧ objOk (frzS false) .freeze (.frame (fr false 0)) = true ∧
    grantWrites (frzS false) 0x58000 = false ∧ live (frzS false) (rdCap (frzS false) x0 (.c 2)) [6] = true ∧ leavesOf (settleWrites (frzS false) 0x600000 (2 ^ 17)) 0x600000 (2 ^ 17) ≠ [] := by decide
def attS : State := setC (put (writePhysCap one 0x110000 (Cap.make 0x112000 64 0x0001 true 0x112000)) 1 6 0x58000 ctxB) [(2, Cap.make 0x110000 8192 0x000B true 0x110000)]
theorem wit_ObjectsLiveEndAndAnswer_attest : objOk attS .attest ctxB = true ∧ (match attest attS x0 0x58000 (rdCap attS x0 (.c 2)) with | .done _ _ => true | _ => false) = true ∧
    (match rangeWay one x0 Cap.null Cap.null.addr 4992 16 [permLoad, permStore, permLoadCap] .rmw with | .bad _ => true | _ => false) = true := by decide
def rec1 : FaultRec := { (default : FaultRec) with fid := 7, fmask := 1, insn := 0x00000000000000000003FFFFFFF0001C }
def recS (ws : List Word) : State :=
  (setC (args one ws) [(1, Cap.object 6 0x20000 0 0x0939 true)]).modGrp 0 fun g => { g with faults := [rec1] }
def factOk (ws : List Word) : Bool := objOk (recS ws) .faultact (.context probeContext)
theorem wit_ObjectsLiveEndAndAnswer_answers : Performs (recS [1, 7, 0]) p (recS [1, 7, 0]) solo ∧ factOk [0, 7, 0, 0x100000, 0] = true ∧ factOk [1, 7, 0] = true ∧
    pendingRecord (recS []) 0x20000 7 = some (0, rec1) ∧ pendingRecord (recS []) 0x20000 8 = none ∧ rec1.noins = false ∧ rec1.deferred = false ∧ rec1.parked = false ∧ ((recS []).grp 0).stat ≠ .saved ∧
    word (recS [5, 7, 0]) 3 (.context probeContext) 0 = 5 ∧ rec1.fmask = laneMask [0] ∧ ((recS []).thr 0 0).live = true := ⟨performs rfl, by decide⟩
/-- The same record while its group is saved, and one that was answered meanwhile. -/
def savedS (ws : List Word) : State := (recS ws).modGrp 0 fun g => { g with stat := .saved }
def savedOk (ws : List Word) : Bool := objOk (savedS ws) .faultact (.context probeContext)
theorem wit_ObjectsLiveEndAndAnswer_saved : savedOk [0, 7, 0, 0x100000, 0] = true ∧ savedOk [1, 7, 0] = true ∧ savedOk [2, 7, 0] = true ∧
    pendingRecord (savedS []) 0x20000 7 = some (0, rec1) ∧ ((savedS []).grp 0).stat = .saved ∧ rec1.deferred = false := by decide
theorem wit_ObjectsLiveEndAndAnswer_savedEnds : savedOk [3, 7, 0] = true ∧ savedOk [4, 7, 0] = true := by decide
theorem wit_ObjectsLiveEndAndAnswer_kept : ∀ act ≤ 4, let t := one.modGrp 0 fun g => { g with faults := [{ rec1 with answer := some (act, 0x100000) }] }
    (t.grp? 0).isSome = true ∧ (t.grp 0).faults = [{ rec1 with answer := some (act, 0x100000) }] := by decide
/-- A word whose opcode has a form, and one of a slot that has none. -/
theorem wit_ObjectsLiveEndAndAnswer_zeros : let y := Raw.ofWord (0x3FFFFEFF008DC : BitVec 128).toNat
    (opForm? y.op).isSome = true ∧ described y = some (.p2v p (.v 767)) ∧ opForm? (Raw.ofWord (0x18F * 2 ^ 6)).op = none ∧
      (regDests 0x3FFFFEFF008DC 0 (.p2v p (.v 767))).map (fun u => (u.r, u.wide, u.count)) = [(.v 767, false, 1)] := ⟨by decide, rfl, by decide, rfl⟩
/-- A thread of another unit, whose record asks for SAVE. -/
def recS2 : State := { (recS [5, 7, 0]) with groups := (recS [5, 7, 0]).groups ++ [(1, { Group.empty with ctx := 0x20000, unit := 1, faults := [{ rec1 with fid := 9 }] })] }
theorem wit_ObjectsLiveEndAndAnswer_save : pendingRecord recS2 0x20000 9 = some (1, { rec1 with fid := 9 }) ∧ (recS2.grp 0).unit ≠ (recS2.grp 1).unit := by decide

theorem gathersOf {s : State} {s0 : State} {a : Actor} (h : Formed s s0 a) : Gathers false s s0 a := ⟨h, .inl rfl⟩
theorem wit_SetsExchangeValues : Gathers false two (woken two) pair_ := gathersOf (isFormed rfl rfl)
theorem wit_SetsCombineValues : Gathers false two (woken two) pair_ ∧ RType.i64 ≠ .f32 ∧ RType.i64 ≠ .f64 ∧ (∀ v ∈ [2 ^ 64 - 1, 0], v < 2 ^ RType.bits .i64) := ⟨gathersOf (isFormed rfl rfl), by decide⟩
theorem wit_SetsCombineValues_nan : ∀ u ∈ [0x7FC00000, 0xFFC00001], decodeF .fp32 false u = .nan := by decide
def barS (n : Nat) : State := two.modGrp 0 fun g => { g with bars := [(15, ⟨n, 3, false⟩)] }
theorem wit_BarriersGatherThreads : Gathers false two (woken two) pair_ ∧ ((barS 0).grp? 0).isSome ∧ ¬ (3 ≤ (SMap.get Barrier.zero 15 ((barS 0).grp 0).bars).count + 2) ∧ 3 ≤ (SMap.get Barrier.zero 15 ((barS 1).grp 0).bars).count + 2 :=
  ⟨gathersOf (isFormed rfl rfl), by decide⟩
def lrS : State := setC one [(1, mcap)]
def lrS2 : State := team 2 |> formedIn |> fun s => setC s [(1, mcap)]
/-- The hamlet barrier of a stage, an arrival that completes it and one that does not. -/
def hbarS (n : Nat) : State := { two with units := two.units.map fun u => (u.1, { u.2 with hbars := [(3, ⟨n, 3, false⟩)] }) }
theorem wit_BarriersGatherThreads_hamlet : let u (n : Nat) := Map.get? ((hbarS n).grp 0).unit (hbarS n).units
    (u 0).isSome ∧ (u 0).map (fun u => u.groups) = some [0] ∧ ((hbarS 0).grp 0).stage = 0 ∧ [0].Nodup ∧ ((hbarS 0).grp 0).stat ≠ .saved ∧
      (u 0).map (fun u => decide (3 ≤ (SMap.get Barrier.zero 3 u.hbars).count + 2)) = some false ∧ (u 1).map (fun u => decide (3 ≤ (SMap.get Barrier.zero 3 u.hbars).count + 2)) = some true := by decide
theorem wit_LaunchesAndServiceCalls_launch : Solo lrS p solo ∧ edgeHeld lrS solo = false ∧ Formed lrS2 (woken lrS2) pair_ ∧ (match launchWay lrS x0 (.c 1) with | .here ps => !eccPieces lrS ps | _ => false) = true := ⟨isSolo rfl, by decide, isFormed rfl rfl, by decide⟩
def lgs (q : Nat) : List Cap := [Cap.make 0x100000 0x20000 0x000D true 0x100000, Cap.null, Cap.object 3 0x40000 0 0x0939 true, Cap.object 6 0x20000 0 0x0939 true] ++ List.replicate 12 Cap.null ++ List.replicate q Cap.null
def fullS (n : Nat) : State := one.modSched 0x40000 fun q => { q with queue := List.replicate n probeLaunch }
theorem wit_LaunchesAndServiceCalls_enqueue : let s := fullS 255
    let gs := (lgs 0).map (sieve s 4)
    (gs[0]?.getD Cap.null).tag = true ∧ (gs[0]?.getD Cap.null).has permExec = true ∧ objCap (gs[2]?.getD Cap.null) 3 = true ∧ objCap (gs[3]?.getD Cap.null) 6 = true ∧
      (parseLaunch gs).sched = 0x40000 ∧ (parseLaunch gs).ctx = 0x20000 ∧ s.worldOf 0x20000 = 4 ∧ s.dead 0x40000 = false ∧ s.dead 0x20000 = false ∧
      (s.sched? 0x40000).map (fun q => decide (q.queue.length < 256)) = some true ∧ ((fullS 256).sched? 0x40000).map (fun q => decide (256 ≤ q.queue.length)) = some true := by decide
def svcS : State := two.modCtx 0x20000 fun c => { c with svcEp := Cap.object 1 0x50000 7 0x0939 true }
def svcS2 : State := { svcS with objs := Map.set 0x50000 (ob (.endpoint { (default : Endpoint) with depth := 1 })) svcS.objs }
theorem wit_LaunchesAndServiceCalls_svc : Gathers false two (woken two) pair_ ∧ Gathers false svcS2 (woken svcS2) pair_ ∧ ((replSettle (woken two)).grp 0).svcBusy = none ∧ ((replSettle (woken svcS2)).grp 0).svcWait = [] ∧
    liveEp (replSettle (woken two)) ((((replSettle (woken two)).ctx? 0x20000).map ContextObj.svcEp).getD Cap.null) = false ∧ liveEp (replSettle (woken svcS2)) ((((replSettle (woken svcS2)).ctx? 0x20000).map ContextObj.svcEp).getD Cap.null) = true :=
  ⟨gathersOf (isFormed rfl rfl), gathersOf (isFormed rfl rfl), by decide⟩

theorem gathersFull {s : State} (hc : s.cur = some cur2) (hg : (s.clan 0 0).gathers.find? (fun g => g.formed && g.pc == 0x100000 && g.waiting == 3) = some gath)
    (hp : partialMask (woken s) cur2 gath = false) (he : edgeHeld (woken s) pair_ = false := by decide) : Gathers true s (woken s) pair_ := ⟨isFormed hc hg he, .inr ⟨cur2, gath, hc, rfl, hp⟩⟩
/-- Slot 0 holds E4M3 by E4M3 into FP32 (codes 4, 4 and 1). -/
def mat : State := setC (two.modGrp 0 fun g => { g with launch := { g.launch with slots := [0x144] }, sbufs := [(0, { SBuf.empty with st := 1, bf := 4 })] })
  [(1, { mcap with bits := (Cap.make 0x110000 0x40000 0x323B true 0x110000).bits })]
theorem wit_MatrixArithmetic : Gathers true mat (woken mat) pair_ := gathersFull rfl rfl (by decide)
theorem wit_MatrixArithmetic_mma : let s := woken mat
    slotNum s x0 0 = 0x144 ∧ (mmaFmt s x0 0).af ≠ (mmaFmt s x0 0).cf ∧ ((s.grp 0).sbuf 0).st ≠ 0 ∧ ((s.grp 0).sbuf 0).bf = 0x144 / 16 % 16 ∧ ((s.grp 0).sbuf 0).bscale = slotBScale 0x144 ∧
      (match mmaWay s x0 (mmaFmt s x0 0) (.regs (.v 0)) with | .here ps => !eccPieces s ps | _ => false) = true ∧ ((s.grp 0).sbuf 1).st = 0 := by decide
theorem wit_MatrixElementsAndFlags : (0xFFFFFFFF : Nat) < 2 ^ 32 ∧ Semiring.minMax ∈ [Semiring.minPlus, .minMax] ∧ Fmt.fp32 ∈ [Fmt.fp32, Fmt.fp64] ∧ decodeF .fp32 false 0x7FC00000 = .nan ∧
    [Val.fin false 1 0].zip [Val.fin true 1 0] ≠ [] ∧ Fmt.int32 ≠ .fp32 := by decide
def here? (w : RWay) : Bool := match w with | .here _ => true | _ => false
theorem wit_Here {w : RWay} (h : here? w = true) : ∃ ps, w = .here ps := by
  cases w with
  | here ps => exact ⟨ps, rfl⟩
  | bad _ | wait _ | away => cases h
def mLoc : MLoc := .mem (.c 1) 0 0
theorem wit_MatrixTransfers : let s := woken mat
    Gathers true mat s pair_ ∧ accOf s x0 0 = .fp32 ∧ (∃ ps, mlocWay s x0 mLoc (tileRows .fp32) [permLoad] .rd = .here ps) ∧ (∃ ps, mlocWay s x0 mLoc (tileRows .e4m3) [permStore] .wr = .here ps) ∧ pixOf s pair_ = 0 :=
  ⟨gathersFull rfl rfl (by decide), by decide, wit_Here (by decide), wit_Here (by decide), by decide⟩
theorem wit_MatrixTransfers_mwld : let s := woken mat
    mwldCheck 0 (.loc mLoc) s pair_ = none ∧ mwldCheck 0 (.regs (.v 0)) s pair_ = none ∧ (∃ ps, mwldWay s x0 (mwldFmt s x0 0).1 (mwldFmt s x0 0).2 (.loc mLoc) = .here ps) ∧
      (∃ ps, mwldWay s x0 (mwldFmt s x0 0).1 (mwldFmt s x0 0).2 (.regs (.v 0)) = .here ps) := ⟨by decide, by decide, wit_Here (by decide), wit_Here (by decide)⟩
/-- An encrypted load through the KeySlot in slot 5. -/
def encS : State := setC { mat with keys := keyS.keys, objs := Map.set 0x60000 (ob (.keyslot ⟨5, 0⟩)) mat.objs } [(2, Cap.object 9 0x60000 0 0x0939 true)]
theorem wit_MatrixTransfers_enc : (mwldKey (woken encS) x0 (.enc (.c 1) 0 0 (.c 2))).map (fun r => match r with | .ok _ => true | .error _ => false) = some true := by decide
/-- A set that no save stops, one whose unit must be saved, and one whose group a fault of the same cycle stops. -/
def savedUnit : State := mat.modCtx 0x20000 fun c => { c with suspended := true }
theorem wit_MatrixTransfers_still : saveDue (woken mat) pair_ = false ∧ saveDue (woken savedUnit) pair_ = true ∧ (Map.get? ((woken savedUnit).grp 0).unit (woken savedUnit).units).isSome ∧
    (∃ c, ({ woken mat with cur := some { cur2 with halt := true } } : State).cur = some c ∧ c.halt = true) ∧ (0 : Nat) < 1 := ⟨by decide, by decide, by decide, ⟨_, rfl, rfl⟩, by decide⟩
def img : State := setC ((writePhys two 0x110001 [1]).modGrp 0 fun g => { g with launch := { g.launch with nacc := 0, nsbuf := 1 } }) [(1, Cap.make 0x110000 0x4000 0x323B true 0x110000)]
def mOp : HintOp := ⟨.c 1, .vz, 0, 0⟩
theorem wit_MatrixTransfers_image : let s := woken img
    Gathers true img s pair_ ∧ msaveCheck mOp s pair_ = none ∧ mloadCheck mOp s pair_ = none ∧ (∃ ps, imageWay s x0 mOp permStore .wr = .here ps) ∧ (∃ ps, imageWay s x0 mOp permLoad .rd = .here ps) ∧ pixOf s pair_ = 0 :=
  ⟨gathersFull rfl rfl (by decide), by decide, by decide, wit_Here (by decide), wit_Here (by decide), by decide⟩
/-- The same operands through a capability of another package. -/
def xCapOf (s : State) : State := setC s [(1, { (({ (rdCap s x0 (.c 1)) with bits := (rdCap s x0 (.c 1)).bits ||| (1#128 <<< (96 + permRemote)) } : Cap).exported 0x323B 5 7 0) with tag := true })]
def away? (w : RWay) : Bool := match w with | .away => true | _ => false
theorem wit_Away {w : RWay} (h : away? w = true) : w = .away := by
  cases w with
  | away => rfl
  | here _ | bad _ | wait _ => cases h
theorem wit_MatrixTransfers_away : let s := woken (xCapOf mat)
    Gathers true (xCapOf mat) s pair_ ∧ mlocWay s x0 mLoc (tileRows .fp32) [permLoad] .rd = .away ∧ mlocWay s x0 mLoc (tileRows .e4m3) [permStore] .wr = .away ∧
      mwldWay s x0 (mwldFmt s x0 0).1 (mwldFmt s x0 0).2 (.loc mLoc) = .away ∧ mwldCheck 0 (.loc mLoc) s pair_ = none :=
  ⟨gathersFull rfl rfl (by decide), wit_Away (by decide), wit_Away (by decide), wit_Away (by decide), by decide⟩
theorem wit_MatrixTransfers_imageAway : let s := woken (xCapOf img)
    Gathers true (xCapOf img) s pair_ ∧ imageWay s x0 mOp permStore .wr = .away ∧ imageWay s x0 mOp permLoad .rd = .away ∧ msaveCheck mOp s pair_ = none ∧ mloadCheck mOp s pair_ = none :=
  ⟨gathersFull rfl rfl (by decide), wit_Away (by decide), wit_Away (by decide), by decide, by decide⟩
def cpS (q : QueueObj) (role : QRole) : State :=
  setC (({ two with objs := Map.set 0x52000 (ob (.queue q)) two.objs }).modClan 0 0 fun c => { c with q := [(15, { q := 0x52000, role := role, seq := 0, uid := 1, made := 0, stage := false, cap := Cap.null })] }) [(1, mcap), (2, mcap)]
def q1 (n : Nat) : QueueObj := { (default : QueueObj) with kind := 1, width := 128, depth := 32, reserved := n }
theorem wit_CopiesAndRoundsAreSubmitted : let s := woken (cpS (q1 31) .pop)
    Gathers true (cpS (q1 31) .pop) s pair_ ∧ tcopyCheck (.c 1) 15 s pair_ = none ∧ (∃ ps, blkWay s x0 (.c 1) = .here ps) ∧ (bindingOf s x0 15).map Binding.q = some 0x52000 ∧
      canReserve s 0x52000 = true ∧ carterFull s 0 = false := ⟨gathersFull rfl rfl (by decide), by decide, wit_Here (by decide), by decide⟩
/-- A block that lies at another package. -/
theorem wit_CopiesAndRoundsAreSubmitted_away : let s := woken (xCapOf (cpS (q1 31) .pop))
    Gathers true (xCapOf (cpS (q1 31) .pop)) s pair_ ∧ tcopyCheck (.c 1) 15 s pair_ = none ∧ (bindingOf s x0 15).map Binding.q = some 0x52000 ∧ pair_.block.1 = [] ∧ blkWay s x0 (.c 1) = .away :=
  ⟨gathersFull rfl rfl (by decide), by decide, by decide, by decide, wit_Away (by decide)⟩
theorem wit_CopiesAndRoundsAreSubmitted_full : let s := woken (cpS (q1 32) .pop)
    tcopyCheck (.c 1) 15 s pair_ = none ∧ canReserve s 0x52000 = false := by decide
theorem wit_CopiesAndRoundsAreSubmitted_coll : let s := woken (cpS (q6 31) .pop)
    Gathers true (cpS (q6 31) .pop) s pair_ ∧ collCheck .f32 (.c 1) (.c 2) 15 4 s pair_ = none ∧ collCheck .f32 .vz .vz 15 4 s pair_ = none ∧ (s.queue? 0x52000).map (fun o => decide (0 < o.room)) = some true ∧ s.dead 0x52000 = false ∧
      ((woken (cpS (q6 32) .pop)).queue? 0x52000).map QueueObj.room = some 0 := ⟨gathersFull rfl rfl (by decide), by decide⟩
/-- A SCATTER of one element into the group's scratchpad by an index list in memory, which the gathered set has read and holds. -/
def scat : List Cap := [mcap, Cap.make 0xFD00000000000000 0x1000 0x323B true 0xFD00000000000000, mcap, { Cap.null with bits := BitVec.ofNat 128 (3 + 4 * 2 ^ 32 + 2 * 2 ^ 48 + 255 * 2 ^ 56 + 2 ^ 64 + 2 ^ 96) }] ++ List.replicate 12 Cap.null
def gathH : Gather := { gath with held := (scat, []) }
def pairH : Actor := setActor cur2 gathH
def heldS : State := (cpS (q1 31) .pop).modClan 0 0 fun c => { c with gathers := [gathH] }
def heldW : State := joined (heldS.modClan 0 0 fun c => { c with gathers := c.gathers.erase gathH }) pairH
theorem wit_CopiesAndRoundsAreSubmitted_kept : Gathers true heldS heldW pairH ∧ pairH.block.1 ≠ [] ∧ pair_.block.1 = [] ∧ tcopyCheck (.c 1) 15 heldW pairH = none ∧
    ((bindingOf heldW x0 15).map fun b => decide (b.q = 0x52000) && carterFull heldW (tcopyReq heldW pairH b (.v 9) 0 scat []).hamlet == false &&
      needsList { tcopyReq heldW pairH b (.v 9) 7 scat [] with ended := match copyRefused heldW (tcopyReq heldW pairH b (.v 9) 7 scat []) (parseCopy scat) false with
        | some st => some (st, allOnes64)
        | none => if (parseCopy scat).total = 0 then some (0, 0) else none } (parseCopy scat)) = some true :=
  ⟨⟨⟨cur2, gathH, rfl, rfl, rfl, rfl, rfl, by decide⟩, .inr ⟨cur2, gathH, rfl, rfl, by decide⟩⟩, by decide, by decide, by decide, by decide⟩
theorem wit_CopiesAndRoundsAreSubmitted_order : let s := woken (cpS (q6 31) .pop)
    (orderBefore s pair_ .release .system).2 = false ∧
    (orderBefore { s with fars := [(9, { (default : FarReq) with tree := .leaf ⟨0, 0, [0], false⟩ 9 none 0 0 0 Cap.null })] } pair_ .release .system).2 = true := by decide
/-- An encrypted buffer whose source page is absent. -/
def encFile : State := { fileS2 with keys := keyS.keys, objs := Map.set 0x60000 (ob (.keyslot ⟨5, 0⟩)) fileS2.objs }
def encImg : List Byte := bytesOf 256 8 ++ [0x42] ++ List.replicate 151 0 ++ bytesOf (64 + 4 * 2 ^ 20) 8
def encCap (o : Nat) : Cap := if o = 0x80 then Cap.make 0x110000 0x8000 0x323B true 0x110000 else Cap.object 9 0x60000 0 0x0939 true
theorem wit_MatrixTransfers_waits : imageWait encFile x0 encImg encCap 1 = some (.file 0x5A000 3) ∧ imageWait encFile x0 encImg encCap 0 = none := by decide
theorem wit_MatrixTransfers_loads : let g := (woken img).grp 0
    imageOk g (bytesOf 256 8) = true ∧ imageOk g (bytesOf 257 8) = false := by decide
def th (s : State) (f : Thread → Thread) : State := s.modThr 0 0 f
def lateS (p : List Pend) : State := th one fun t => { t with pend := p }
theorem wit_EventsEndWaits_late : ((lateS [⟨.here, [.w (.v 1) 5, .p 0 true], 1, 0, 0, 0⟩]).thr 0 0).pend[0]? = some ⟨.here, [.w (.v 1) 5, .p 0 true], 1, 0, 0, 0⟩ ∧
    ((lateS [⟨.failed { cls := 9, sub := 1 } [0], [], 1, 0, 0, 0⟩]).thr 0 0).pend[0]? = some ⟨.failed { cls := 9, sub := 1 } [0], [], 1, 0, 0, 0⟩ ∧ groupRuns one 0 = true ∧ ((lateS []).grp 0).stat = .run := by decide
/-- Lane 0's result of issue 4, after issue 5 has written k1, and of issue 5, after its lane 3 has. -/
theorem wit_EventsEndWaits_newer : let t := one.modClan 0 0 fun c => { c with wrote := [(2, (5, 3))] }
    let last := SMap.get (0, 0) (2 * 1) (t.clan 0 0).wrote
    4 < last.1 ∧ (5 = last.1 ∧ 0 < last.2) ∧ ¬ (6 < last.1 ∨ (6 = last.1 ∧ 0 < last.2)) := by decide
def napS (t : Nat) : State := { th one (fun q => { q with wait := .nap 100 8 }) with time := t }
theorem wit_EventsEndWaits_nap : ((napS 100).thr 0 0).wait = .nap 100 8 ∧ 100 ≤ (napS 100).time ∧ (napS 99).time < 100 := by decide
/-- Lane 0 waits at a gather that lane 1, at another, will never join. -/
def stuckS : State := (team 2).modClan 0 0 fun c => { c with gathers := [{ pc := 0x100000, mask := 3, waiting := 1, excluded := 0, formed := false }, { pc := 0x100010, mask := 3, waiting := 2, excluded := 0, formed := false }] }
theorem wit_EventsEndWaits_mismatch : stuckSet stuckS 0 0 = 3 ∧ groupRuns stuckS 0 = true ∧ stuckSet one 0 0 = 0 := by decide
def lateW : State := { (th one fun t => { t with wait := .gather, parkedAt := some 0 }).modCtx 0x20000 (fun c => { c with watchdog := 1 }) with time := 1000000 }
theorem wit_EventsEndWaits_watchdog : pastLimit lateW 0 0 = true ∧ groupRuns lateW 0 = true ∧ pastLimit { lateW with time := 999999 } 0 0 = false := by decide
def batchS (n : Nat) : State := { one with objs := Map.set 0x52000 (ob (.queue { (default : QueueObj) with kind := 5, width := 128, depth := 32, reserved := n, waiters := [.push ⟨0, 0, [0], false⟩ [qe, qe] 8 none] })) one.objs }
theorem wit_EventsEndWaits_batch : ((batchS 30).queue? 0x52000).map (fun o => (o.waiters.length, decide (2 ≤ o.room))) = some (1, true) ∧ ((batchS 31).queue? 0x52000).map (fun o => decide (o.room < 2)) = some true := by decide
theorem wit_EventsEndWaits_odt : ({ one with odtChanges := [⟨0x20000, 0, [], [3], 7⟩], odtLag := [(0x20000, 3, [])] } : State).odtChanges = [⟨0x20000, 0, [], 3 :: [], 7⟩] ∧ 3 ∉ [4] := by decide

/-- A launch of one thread, whose program is 4 KiB of zeros behind an empty header. -/
def lch : Launch := { probeLaunch with entries := [Cap.make 0x101000 0x1000 0x000D true 0x101080], pmode := 1, regs := 32, start := 5 }
def disp (taken : Bool) (l : Launch) : State :=
  (one.modCtx 0x20000 fun c => { c with save := Cap.make 0x200000 0x400000 0x003B true 0x200000 }).modSched 0x40000 fun q => { q with queue := [l], taken := taken }
def header? (m : Measure) : Option (List Byte) := match m with | .ok b => some b | _ => none
theorem wit_Measure {m : Measure} (h : (header? m).isSome = true) : ∃ b, m = .ok b ∧ header? m = some b := by
  cases m with
  | ok b => exact ⟨b, rfl, rfl⟩
  | bad => cases h
  | absent _ _ => cases h
theorem wit_UnitsArePlacedSavedRestored_dequeue : let s := disp false lch
    ((s.sched? 0x40000).map fun q => (q.queue, q.taken, q.suspended, q.budgetOk)) = some ([lch], false, false, true) ∧ s.dead 0x40000 = false ∧ (∃ b, programHeader s lch = .ok b ∧ header? (programHeader s lch) = some b) ∧
      launchCode s lch (header? (programHeader s lch)) = none ∧ (match launchDigest s lch with | .ok _ => true | _ => false) = true ∧
      launchCode (disp false { lch with grid := (0, 1, 1) }) { lch with grid := (0, 1, 1) } (header? (programHeader s lch)) = some 3 ∧
      launchCode (disp false { lch with scratch := 327744 }) { lch with scratch := 327744 } (header? (programHeader s lch)) = some 4 :=
  ⟨by decide, by decide, wit_Measure (by decide), by decide, by decide, by decide, by decide⟩
theorem wit_UnitsArePlacedSavedRestored_place : let s := disp true lch
    workOf s 0x40000 = some (.fresh lch 0) ∧ ((Work.fresh lch 0).shape s).2.2 = [(0, 0)] ∧ turnOf s 0x40000 = true ∧ firstFit s (fun _ => false) (.fresh lch 0) = some 0 ∧
      (assignCores s lch 0 ([(0, 0)].zip [15]) []).isSome ∧ firstFit s (fun _ => false) (.fresh lch 0) ≠ some 95 := by decide
theorem wit_UnitsArePlacedSavedRestored_order : lch.pmode = 1 ∧ { lch with pmode := 0 }.pmode ≠ 1 ∧ lch.shifts = (0, 0, 0) := by decide
def unitAt (n : Nat) : State := { one with time := n, units := Map.set 0 { probeUnit with launch := lch } one.units }
theorem wit_UnitsArePlacedSavedRestored_start : Map.get? 0 (unitAt 5).units = some { probeUnit with launch := lch } ∧ lch.start ≤ (unitAt 5).time ∧ (unitAt 4).time < lch.start := by decide
def budS (t : Nat) : State := { one.modSched 0x40000 (fun q => { q with budget := 4, period := 2, left := 4 }) with time := t }
theorem wit_UnitsArePlacedSavedRestored_budget : ((budS 1000).sched? 0x40000).map (fun q => decide (¬ (0 < q.period ∧ q.periodStart + q.period * 1000 ≤ 1000)) && decide (q.budget ≠ 0) && decide (q.period ≠ 0)) = some true ∧
    ((budS 2000).sched? 0x40000).map (fun q => decide (0 < q.period) && decide (q.periodStart + q.period * 1000 ≤ 2000)) = some true := by decide
def srvS : State := one.modGrp 0 fun g => { g with service := true }
theorem wit_UnitsArePlacedSavedRestored_pass : let q : Sched := { (default : Sched) with period := 2, periodStart := 0 }
    (500 : Nat) ≤ 1999 ∧ 1999 < q.periodStart + q.period * 1000 ∧ q.periodStart ≤ 500 ∧ 1999 / 1000 - 500 / 1000 ≠ 0 ∧ 999 / 1000 - 500 / 1000 = 0 := by decide
/-- A program whose header cannot be read through its entry capability. -/
theorem wit_UnitsArePlacedSavedRestored_headless : let l := { lch with entries := [Cap.make 0x101000 0x1000 0x000D true 0x101010] }
    (programHeader (disp false l) l = .bad) ∧ (launchCode (disp false l) l none).isSome = true := by decide
theorem wit_UnitsArePlacedSavedRestored_rotate : (srvS.groups.filter fun g => g.2.service && g.2.core == 0 && g.2.stat == .run && g.2.faults.isEmpty && g.2.threads.any fun t => t.2.live && t.2.wait == .none) ≠ [] := by decide
def keepS (f : ContextObj → ContextObj) (q : Sched → Sched) (st : GStat) (u : UnitRec) : State :=
  { ((one.modCtx 0x20000 f).modSched 0x40000 q).modGrp 0 (fun g => { g with stat := st }) with units := Map.set 0 u one.units }
theorem wit_UnitsArePlacedSavedRestored_save : let s := keepS (fun c => { c with suspended := true }) id .run probeUnit
    Map.get? 0 s.units = some probeUnit ∧ probeUnit.saved = false ∧ unitSaving s probeUnit = false ∧ ctxSuspended s 0x20000 = true ∧ mustSave s 0 probeUnit = true ∧ mustSave one 0 probeUnit = false ∧
      ((budS 0).modSched 0x40000 fun q => { q with left := 0 }).sched? 0x40000 ≠ none ∧ unitSaving (keepS id id .saving probeUnit) probeUnit = true := by decide
theorem wit_UnitsArePlacedSavedRestored_restore : let u : UnitRec := { probeUnit with saved := true, launch := { probeLaunch with pmode := 1 } }
    let s := keepS id id .saved u
    workOf s 0x40000 = some (.saved 0) ∧ (u.groups.any fun g => (s.grp g).service) = false ∧ firstFit s (fun _ => false) (.saved 0) = some 0 ∧ turnOf s 0x40000 = true ∧ u.groups.length = 1 ∧
      (assignCores s u.launch 0 (((Work.saved 0).shape s).2.2.zip [15]) []).isSome := by decide
/-- A saved group whose image holds an encrypted buffer with an absent source page. -/
def encU : UnitRec := { probeUnit with saved := true, launch := { probeLaunch with pmode := 1 } }
def encW : State :=
  let s := writePhys encFile 0x36008 (bytesOf (Pte.mkLeaf 0x8000000 4 0 0 true true false false) 8)
  let s := writePhysCap (writePhysCap (writePhys s 0x8192000 encImg) 0x8192080 (encCap 0x80)) 0x8192090 (encCap 0x90)
  { s.modGrp 0 (fun g => { g with stat := .saved, slot := 0x8000000, launch := { g.launch with nacc := 0, nsbuf := 1 } }) with units := Map.set 0 encU s.units }
theorem range_past (m : SMap Byte) (a n : Nat) (h : ∀ e ∈ m, e.1 < a) : SMap.range 0 m a n = List.replicate n 0 := by
  rw [SMap.range_eq_map]
  refine List.ext_getElem (by simp) fun i h1 h2 => ?_
  simp only [List.getElem_map, List.getElem_range, List.getElem_replicate, SMap.get]
  cases e : Map.get? (a + i) m with
  | none => rfl
  | some v => have := h _ (Map.mem_of_get? e); simp only at this; omega
theorem range_split (m : SMap Byte) (n : Nat) : (k a : Nat) → SMap.range 0 m a (k + n) = SMap.range 0 m a k ++ SMap.range 0 m (a + k) n
  | 0, a => by simp [SMap.range]
  | k + 1, a => by rw [show k + 1 + n = (k + n) + 1 from by omega, SMap.range, SMap.range, range_split m n k (a + 1), List.cons_append, show a + 1 + k = a + (k + 1) from by omega]
theorem ok_of {α : Type} {r : Except Hit α} {l : α} (h : r.toOption = some l) : r = .ok l := by
  cases r with
  | ok _ => exact congrArg _ (Option.some.inj h)
  | error _ => cases h
def encHead : List Byte := encImg.take 0x80 ++ bytesOf (encCap 0x80).bits.toNat 16 ++ bytesOf (encCap 0x90).bits.toNat 16 ++ encImg.drop 0xA0 ++ List.replicate 88 0
theorem encHeadRead : SMap.range 0 encW.mem 0x8192000 256 = encHead := by decide +kernel
theorem encRead : slotBytes encW 0 0x192000 8448 = encHead ++ List.replicate 8192 0 := by
  have h : pieces (locateCtx encW (encW.grp 0).ctx .rd) (8448 / 2 ^ 17 + 2) ((encW.grp 0).slot.toNat + 0x192000) 8448 = .ok [(.mem 0x8192000 0 none, 8448)] := ok_of (by decide +kernel)
  rw [slotBytes, devRead, h]
  show readVia encW none 0x8192000 8448 ++ [] = _
  rw [List.append_nil, readVia_plain (by decide +kernel), readPhys, show (8448 : Nat) = 256 + 8192 from rfl, range_split, range_past _ _ 8192 (by decide +kernel), encHeadRead]
theorem encOk : imageOk (encW.grp 0) (encHead ++ List.replicate 8192 0) = true := by decide +kernel
theorem encMatrix : slotMatrix encW 0 = some (encHead ++ List.replicate 8192 0) := by
  simp only [slotMatrix]
  rw [if_neg (by decide), show imageLen (encW.grp 0) = 8448 from by decide, encRead, if_pos encOk]
theorem encWaits : imageWait (encW.modThr 0 0 fun t => { t with paged := none }) ⟨0, 0, 0⟩ (encHead ++ List.replicate 8192 0) (fun o => slotCap encW 0 (0x192000 + o)) 1 = some (.file 0x5A000 3) := by decide +kernel
theorem encWait : restoreWait encW 0 none = some (.file 0x5A000 3) := by
  simp only [restoreWait]
  rw [encMatrix, Option.bind_some, show (encW.grp 0).launch.nsbuf = 1 from by decide +kernel]
  exact encWaits
theorem unitWait_one {s : State} {u : UnitRec} {g : Nat} {w : Wait} (hg : u.groups = [g]) (hm : slotMapped s g = true) (hr : restoreWait s g u.paged = some w) : unitWait s u = some w := by
  simp [unitWait, hg, hm, hr]
theorem wit_UnitsArePlacedSavedRestored_waits : slotMapped encW 0 = true ∧ unitWait encW encU = some (.file 0x5A000 3) ∧ encU.groups = [0] :=
  ⟨by decide, unitWait_one rfl (by decide) encWait, rfl⟩
theorem wit_UnitsArePlacedSavedRestored_waitsFor : workOf encW 0x40000 = some (.saved 0) ∧ (encU.groups.any fun g => (encW.grp g).service) = false ∧ firstFit encW (fun _ => false) (.saved 0) = some 0 ∧
    turnOf encW 0x40000 = true ∧ (assignCores encW encU.launch 0 (((Work.saved 0).shape encW).2.2.zip [15]) []).isSome := by decide +kernel
/-- Sixteen groups that need the scratchpads of hamlet 0 whole, where unit 0 stands. -/
def bigL : Launch := { lch with ngrp := 16, scratch := 262144 }
def fullH : State := (((disp true bigL).modCtx 0x20000 fun c => { c with save := Cap.make 0x200000 0x4000000 0x003B true 0x200000 }).modSched 0x40000 fun q => { q with affin := 1 }).modGrp 0
  fun g => { g with launch := { g.launch with scratch := 262144 } }
theorem wit_UnitsArePlacedSavedRestored_preempts : slotsOk fullH (.fresh bigL 0) = true ∧ firstFit fullH (fun u => ((Map.get? u fullH.units).map (unitSaving fullH)).getD false) (.fresh bigL 0) = none := by decide +kernel
theorem wit_UnitsArePlacedSavedRestored_victims : victimsOf fullH 0 5 = [0] ∧ preempted fullH 5 (.fresh bigL 0) = [0] ∧ preempted fullH 0 (.fresh bigL 0) = [] ∧ (fullH.units.map (·.1)).Nodup := by decide +kernel
theorem wit_UnitsArePlacedSavedRestored_first : let sh := (Work.fresh bigL 0).shape fullH
    ((searchOrder fullH sh.1 sh.2.1).find? fun h => fitsHamlet fullH (fun u => ((Map.get? u fullH.units).map (unitSaving fullH)).getD false || (victimsOf fullH h 5).contains u) sh.1 sh.2.2 h) = some 0 := by decide +kernel
theorem wit_UnitsArePlacedSavedRestored_resident : (Map.get? 0 fullH.units).map (fun r => decide (r.hamlet = 0) && !r.saved && !unitSaving fullH r && decide (prioOfUnit fullH r < 5)) = some true := by decide +kernel
/-- A block of one dimension of two elements of four bytes. -/
def blkOf (op extra : Nat) : List Cap := [mcap, mcap, Cap.null, ⟨BitVec.ofNat 128 (2 ^ 48 + 4 * 2 ^ 32 + op + extra + 2 * 2 ^ 64), false⟩] ++ List.replicate 12 Cap.null
def req (op extra : Nat) : CopyReq := { (default : CopyReq) with key := 0x53000, ctx := 0x20000, comp := 0x52000, slots := List.replicate 8 0, accepted := true, blk := blkOf op extra, who := some (0, 0) }
def carS (r : CopyReq) : State := { one with copies := [(3, r)], objs := Map.set 0x52000 (ob (.queue (q1 1))) one.objs }
def placed (w : CarterWay) : Bool := match w with | .here _ => true | _ => false
theorem wit_CarterPerformsRequests_take : let q : QueueObj := { (default : QueueObj) with kind := 2, pair := some 0x52000, es := [⟨mcap.bits, true, 0x20000, [], none⟩] }
    let s : State := { one with objs := Map.set 0x53000 (ob (.queue q)) (Map.set 0x52000 (ob (.queue (q1 31))) one.objs) }
    s.queue? 0x53000 = some q ∧ s.dead 0x53000 = false ∧ canReserve s 0x52000 = true ∧ carterFull s q.hamlet = false ∧ s.copies = [] ∧
      (match entryBlock s q.hamlet ⟨mcap.bits, true, 0x20000, [], none⟩ with | (some gs, none, s1) => gs.length == 16 && (takeEntry (reserveEntry s1 0x52000) 0x53000).isSome | _ => false) = true := by decide
/-- An entry whose block cannot be read, and one behind a fence that an earlier entry of another queue holds. -/
def takeS (tag : Bool) : State :=
  { one with objs := Map.set 0x53000 (ob (.queue { (default : QueueObj) with kind := 2, pair := some 0x52000, es := [⟨mcap.bits, tag, 0x20000, [], none⟩] })) (Map.set 0x52000 (ob (.queue (q1 31))) one.objs) }
theorem wit_CarterPerformsRequests_unread : (match entryBlock (takeS false) 0 ⟨mcap.bits, false, 0x20000, [], none⟩ with | (none, none, s1) => (takeEntry (reserveEntry s1 0x52000) 0x53000).isSome | _ => false) = true ∧
    fenceHolds (takeS false) (queueKey 0x53000) 0 = false ∧
    fenceHolds { takeS true with qfences := [⟨[(queueKey 0x53000, 0), (7, 1)]⟩], copies := [(3, { (default : CopyReq) with key := 7, pos := 0 })] } (queueKey 0x53000) 0 = true := by decide
/-- A SCATTER whose first row could not be read when it was accepted. -/
theorem wit_CarterPerformsRequests_list : let r := { req 0 0 with blk := scat, list := [(5, [])] }
    (parseCopy r.blk).op = 3 ∧ (sieve (carS r) ((carS r).worldOf r.ctx) (parseCopy r.blk).idx).tag = true ∧ r.list[(parseCopy r.blk).row r.next]? = some (5, []) ∧ (5 : Nat) ≠ 0 ∧ copyFirst (carS r) 3 r = true ∧
      awaitsRemote (carS r) 3 = false := by decide
theorem wit_CarterPerformsRequests_fill : let r := req 4 0
    let s := carS r
    let c := parseCopy r.blk
    Map.get? 3 s.copies = some r ∧ r.ended = none ∧ r.accepted = true ∧ awaitsRemote s 3 = false ∧ copyFirst s 3 r = true ∧ c.indexed = false ∧ c.src.x = false ∧ c.dst.x = false ∧ r.data = none ∧
      c.op = 4 ∧ elemCaps s r c (c.sa 0 0) (c.da 0 0) = true ∧ placed (carterPlace s r .wr (c.da 0 0) (elemOut r c []).length) = true := by decide
theorem wit_CarterPerformsRequests_copy : let r := req 0 0
    let s := carS r
    let c := parseCopy r.blk
    c.op ≠ 4 ∧ elemCaps s r c (c.sa 0 0) (c.da 0 0) = true ∧
      (match carterPlace s r .rd (c.sa 0 0) (elemSizes r c).1 with
        | .here ps => !carterDark s 3 r ps && !eccPieces s ps && eccPieces { s with ecc := [(0x110000 / 32, true)] } ps &&
            placed (carterPlace (carterRead s 3 r ps).2 r .wr (c.da 0 0) (elemOut r c (carterRead s 3 r ps).1).length)
        | _ => false) = true ∧ elemCaps s { r with blk := Cap.null :: r.blk.tail } (parseCopy (Cap.null :: r.blk.tail)) 0 0x110000 = false := by decide
theorem wit_CarterPerformsRequests_end : let r := { req 0 0 with ended := some (0, 2) }
    let b := { req 0 (2 ^ 20) with ended := some (0, 2) }
    Map.get? 3 (carS r).copies = some r ∧ r.accepted = true ∧ copyFirst (carS r) 3 r = true ∧ replAway (carS r) 0 (carterCx 3 r.hamlet).tid = false ∧ (parseCopy r.blk).arren = false ∧ (parseCopy b.blk).arren = true ∧ b.who = some (0, 0) ∧ (0 : Nat) ≠ 1 ∧
      ((hostRespond (postCompletion (replSettle { carS b with copies := Map.del 3 (carS b).copies }) b.comp b.seq 0 2) b.host 0 []).grp? 0).isSome := by decide
/-- The home of a Frame, another package, has yet to stamp a write of the request. -/
theorem wit_CarterPerformsRequests_away : let r := { req 0 0 with ended := some (0, 2) }
    let s : State := { carS r with pkg := 1, replNew := [{ (default : ReplWrite) with pa := 0x110000, gid := 0, tids := [(carterCx 3 r.hamlet).tid] }],
                                    objs := Map.set 0x60000 (ob (.frame { pa := 0x100000, log2 := 17, kind := 0, frozen := false, repl := some (0x52000, 1) })) (Map.set 0x52000 (ob (.queue (q6 0))) one.objs) }
    replAway s 0 (carterCx 3 r.hamlet).tid = true ∧ copyFirst s 3 r = true := by decide
theorem wit_CarterPerformsRequests_steps : let c : CopyBlk := { (default : CopyBlk) with op := 0, rot := 0, counts := [3, 2], sstr := [4, -64], dstr := [1, 8] }
    c.op ≠ 2 ∧ c.op ≠ 3 ∧ c.rot = 0 ∧ c.counts = [3, 2] ∧ (255 : Nat) < 256 ∧ (2 ^ 64 - 1 : Nat) < 2 ^ 64 := by decide

def wellS (bits : Nat) (cache : List (Nat × FilePage)) : State :=
  let q : QueueObj := { (default : QueueObj) with kind := 3, width := 128, depth := 32, pair := some 0x52000, file := some 0x5A000, es := [⟨BitVec.ofNat 128 bits, false, 0x20000, [], none⟩] }
  { one with objs := Map.set 0x5A000 (ob (.filemap { (default : FileMapObj) with pages := 5, cache := cache })) (Map.set 0x54000 (ob (.queue q)) (Map.set 0x52000 (ob (.queue (q1 0))) one.objs)) }
def head4 (bits : Nat) : Option (Nat × Nat × Bool) := (wellHead (wellS bits []) 0x54000).map fun h => (h.op, h.page, h.bad)
theorem wit_WellServesPages_heads : head4 (5 * 2 ^ 64) = some (5, 0, true) ∧ head4 (2 ^ 72) = some (0, 0, true) ∧ head4 4 = some (0, 4, false) ∧ head4 (1 * 2 ^ 64 + 4) = some (1, 4, false) ∧
    head4 (2 * 2 ^ 64 + 5) = some (2, 5, false) ∧ head4 (4 * 2 ^ 64 + 4) = some (4, 4, false) ∧ head4 (3 * 2 ^ 64 + 9) = some (3, 9, false) ∧ (one.wells.find? fun w => w.2.queue == 0x54000 && w.2.op == 2 && !w.2.nvme) = none := by decide
def page (st : Nat) : FilePage := { (default : FilePage) with frame := 0x800000, state := st }
theorem wit_WellServesPages_pages : (List.range 4).all (fun st =>
      (wellHead (wellS 4 [(4, page st)]) 0x54000).map (fun h => (Map.get? h.page h.file.cache, decide (h.page < h.file.pages))) == some (some (page st), true) && !pageInUse (wellS 4 [(4, page st)]) 0x5A000 4) = true ∧
    pageOf? (wellS 4 [(4, page 0)]) 0x5A000 4 = some (page 0) ∧ (page 0).state = 0 := by decide
theorem wit_WellServesPages_nvme : let c : WellCmd := { (default : WellCmd) with op := 1, nvme := true, queue := 0x54000 }
    Map.get? 7 [(7, c)] = some c ∧ c.nvme = true ∧ c.op ∈ [1, 3, 4] ∧ (1 : BitVec 8) ≠ 0 := by decide

theorem wit_WellServesPages_place : ((wellS 4 []).filemap? 0x5A000).map FileMapObj.pages = some 5 ∧ (4 : Nat) ≠ 3 := by decide

def fq (c : Nat) (rt : List Nat) : FarReq :=
  { pa := 0x110000, aop := .add, cmp := none, size := 4, operand := 1, tree := .leaf ⟨0, 0, [0], false⟩ 9 none 0 0 0 Cap.null, comb := true, hold := false, reassoc := false, scope := 3, world := 4, cistern := c, free := true, arrived := 0, route := rt, issue := 0, old := none }
def cisS (l : List (Nat × FarReq)) : State := { one with fars := l }
theorem wit_CisternsCombineRequests_arrive : let q := fq 0 [3, 4]
    Map.get? 2 (cisS [(2, q)]).fars = some q ∧ q.route = 3 :: [4] ∧ q.cistern = 0 ∧ q.old = none ∧ cisternUse (cisS [(2, q)]) 3 < 64 ∧ firstWaiting (cisS [(2, q)]) 3 (fun p => mayMerge p q) = none ∧
      firstWaiting (cisS [(1, fq 3 [4]), (2, q)]) 3 (fun p => mayMerge p q) = some (1, fq 3 [4]) ∧
      64 ≤ cisternUse (cisS ((2, q) :: (List.range 64).map fun i => (i + 3, fq 3 []))) 3 ∧ cisternUse (cisS ((2, q) :: (List.range 63).map fun i => (i + 3, fq 3 []))) 3 < 64 := by decide
theorem wit_CisternsCombineRequests_send : (fq 3 [4]).cistern ≠ 0 ∧ (firstWaiting (cisS [(1, fq 3 [4])]) 3 FarReq.free).map (·.1) = some 1 := by decide
theorem wit_CisternsCombineRequests_home : atHome (cisS [(1, fq 0 [])]) 1 (fq 0 []) = true ∧ eccLoc (cisS [(1, fq 0 [])]) (.mem 0x110000 0) 4 = false ∧
    eccLoc { cisS [(1, fq 0 [])] with ecc := [(0x110000 / 32, true)] } (.mem 0x110000 0) 4 = true := by decide
theorem wit_CisternsCombineRequests_asked : let q := { fq 0 [] with dest := .repl }
    atHome (cisS [(1, q)]) 1 q = true ∧ q.sent = false ∧ q.dest ≠ .here ∧ (fq 0 []).sent = false ∧ (fq 0 []).dest = .here := by decide
/-- At the Bellringer of the group's home: a member that has yet to bind, one that has, a frozen Frame. -/
def homeS (fz : Bool) (b : List (Nat × Nat × Nat)) : State :=
  { one with fars := [(1, { fq 0 [] with dest := .repl })], bound := b, objs := Map.set 0x60000 (ob (.frame { pa := 0x100000, log2 := 17, kind := 0, frozen := fz, repl := some (0x52000, 0) })) (Map.set 0x52000 (ob (.queue (q6 0))) one.objs) }
theorem wit_CisternsCombineRequests_bellringer : let q := { fq 0 [] with dest := .repl }
    atHome (homeS false []) 1 q = true ∧ boundAway (homeS false []) q.pa = false ∧ boundWaits (homeS false []) q.pa = true ∧ boundWaits (homeS false [(1, 1, 17)]) q.pa = false ∧
      (frameAt (homeS true [(1, 1, 17)]) q.pa).map FrameObj.frozen = some true ∧ boundWaits (homeS true [(1, 1, 17)]) q.pa = false ∧ (frameAt (homeS false [(1, 1, 17)]) q.pa).map FrameObj.frozen = some false ∧
      boundAway (awayOf one) q.pa = true := by decide
theorem wit_CisternsCombineRequests_foreign : let q := { fq 0 [] with tree := .foreign 9 3 none, old := some 7 }
    q.old = some 7 ∧ q.tree = .foreign 9 3 none ∧ replOwes one 0 fabricCx.tid = false ∧ replOwes { one with owed := [⟨0, [fabricCx.tid], 0x110000, [1], [1]⟩] } 0 fabricCx.tid = true := by decide
theorem wit_CisternsCombineRequests_reply : { fq 0 [] with old := some 7 }.old = some 7 ∧ { fq 0 [] with tree := .split (.leaf ⟨0, 0, [0], false⟩ 9 none 0 0 0 Cap.null) (.leaf ⟨0, 0, [1], false⟩ 9 none 0 0 0 Cap.null) 1 3 }.tree = .split (.leaf ⟨0, 0, [0], false⟩ 9 none 0 0 0 Cap.null) (.leaf ⟨0, 0, [1], false⟩ 9 none 0 0 0 Cap.null) 1 3 ∧
    AOp.swapOp ∈ [AOp.add, .and, .or, .xor, .smin, .smax, .umin, .umax, .swapOp] ∧ (1 : Nat) ≤ 1 ∧ (1 : Nat) < 2 ^ 1 := by decide

def rcap (x : Bool) : Cap := let c := Cap.make 0x110000 0x1000 0x3FFB true 0x110000; if x then { c with tag := false } else c
def glS (c : Cap) : State :=
  let q : QueueObj := { (default : QueueObj) with kind := 5, width := 128, depth := 32, pair := some 0x52000, es := [⟨c.bits, c.tag, 0x20000, [], none⟩] }
  { one with objs := Map.set 0x53000 (ob (.queue q)) (Map.set 0x52000 (ob (.queue (q1 31))) one.objs) }
theorem wit_RevocationSweeps_take : let s := glS (rcap false)
    let c := (rcap false).norm
    gleanNext s = some 0x53000 ∧ (s.queue? 0x53000).map QueueObj.pair = some (some 0x52000) ∧ (takeEntry (reserveEntry s 0x52000) 0x53000).isSome ∧
      c.tag = true ∧ c.sealed = false ∧ c.has permRevoke = true ∧ c.x = false ∧ windowOf c.base = none ∧
      (rcap true).norm.tag = false ∧ gleanNext (glS (rcap true)) = some 0x53000 ∧
      windowOf (Cap.make 0xFD00000000000000 64 0x2001 true 0xFD00000000000000).base = some 1 ∧ gleanNext (glS (Cap.make 0xFD00000000000000 64 0x2001 true 0xFD00000000000000)) = some 0x53000 := by decide
def rng (n : Nat) : Closed := { base := 0x110000, top := 0x111000, world := 4, comp := none, queue := 0, pos := 0, sweep := n, freeze := false, op := none }
theorem wit_RevocationSweeps_start : let s : State := { one with closed := [rng 1] }
    s.sweeping = false ∧ (∃ r ∈ s.closed, r.sweep = s.sweepNo + 1) ∧ { s with sweeping := true }.sweeping = true := by decide
def swS : State := { mem1 with closed := [rng 1], sweeping := true, sweepNo := 1, tags := [(0x112000 / 16, true)] }
theorem wit_RevocationSweeps_end : let s1 := sweepDrain swS
    let rs := s1.closed.filter fun r => r.sweep == swS.sweepNo
    swS.sweeping = true ∧ (∀ r ∈ rs, inFlight s1 r.world = false) ∧ SMap.wf Cap.null (s1.thr 0 0).c = true ∧ (rdCap s1 x0 (.c 1)).tag = true ∧ (sieve { s1 with closed := rs } 4 mcap).tag = false ∧
      4 ∈ worldsOfPa s1 (allLeaves s1) (16 * (0x112000 / 16)) ∧ (∃ r ∈ rs, r.world = 4) := by decide
theorem wit_RevocationSweeps_flight : let s : State := { swS with ios := [(1, { (default : IoAcc) with who := ⟨0, 0, [0], false⟩ })] }
    inFlight (sweepDrain s) 4 = true ∧ eccHit (16 * 0x11000) 16 [(0x110000 / 32, true)] = true := by decide
def rmt : RemoteOut := { (default : RemoteOut) with op := .load 4, who := some (⟨0, 0, [0], false⟩, 0x100000, 0), d := .v 1, ty := .b32, cap := xcap, born := 0 }
theorem wit_FabricAnswersAndOrders_answer : rmt.carter = none ∧ rmt.far = none ∧ rmt.part = none ∧ rmt.status = none ∧ protectedWorld one rmt.world = false ∧ protectedWorld { one with prot := 0x0010 } { rmt with world := 4 }.world = true ∧
    SMap.get false (4 + 3) one.portDown = false ∧ SMap.get false (4 + 3) ({ one with portDown := [(7, true)] } : State).portDown = true ∧ rmt.op = .load 4 ∧ (⟨0, 0, [0], false⟩ : Who).lanes = [0] ∧ (one.grp 0).stat ≠ .saved ∧ ([1, 2, 3, 4] : List Byte).length = 4 ∧
    rmt.born + 50000000 ≤ ({ one with time := 50000000 } : State).time ∧ ({ one with time := 49999999 } : State).time < rmt.born + 50000000 ∧ Map.get? 7 ({ one with remotes := [(7, rmt)] } : State).remotes = some rmt := by decide
/-- A combined write of two stores that no answer comes to. -/
def rmc : RemoteOut := { rmt with who := none, issuers := [(⟨0, 0, [0], false⟩, 0x100000, 0), (⟨0, 0, [1], false⟩, 0x100008, 0)] }
theorem wit_FabricAnswersAndOrders_combined : Map.get? 7 ({ one with remotes := [(7, rmc)], time := 50000000 } : State).remotes = some rmc ∧ rmc.far = none ∧ rmc.carter = none ∧ rmc.who = none ∧ rmc.born + 50000000 ≤ 50000000 := by decide
def wce : WcEntry := { (default : WcEntry) with cap := xcap, born := 0, age := 100 }
theorem wit_FabricAnswersAndOrders_wc : Map.get? 1536 ({ one with wc := [(1536, [wce])], time := 100 } : State).wc = some [wce] ∧ [wce][0]? = some wce ∧ wce.born + wce.age ≤ 100 ∧ 99 < wce.born + wce.age := by decide
theorem wit_FabricAnswersAndOrders_stamp : let takes (s : State) (w : ReplWrite) : Bool := !boundWaits s w.pa && !(w.sent && boundAway s w.pa)
    let s : State := { one with replNew := [rw1] }
    s.replNew.find? (takes s) = some rw1 ∧ boundAway s rw1.pa = false ∧ away.replNew.find? (takes away) = some rw1 ∧ boundAway away rw1.pa = true ∧ one.replNew.find? (takes one) = none ∧
      boundGroup away 0x110000 = some (1, ⟨1, 0, 2, []⟩) ∧ boundGroup one 0x110000 = none ∧ (homeS false []).bound = [] := by decide
def rep (d : Nat) : State := { one with replLog := [rw1], replDone := [(6, d)] }
theorem wit_FabricAnswersAndOrders_apply : SMap.get 0 6 (rep 0).replDone < (rep 0).replLog.length ∧ (rep 1).replLog.length ≤ SMap.get 0 6 (rep 1).replDone ∧ (rep 0).replLog = rw1 :: [] ∧
    (∃ d, d < 7 ∧ SMap.get 0 d (rep 1).replDone = 0) := ⟨by decide, by decide, rfl, 0, by decide, by decide⟩
def cq : CollReq := { queue := 0x52000, round := 0, op := .allreduce, rop := .sum, ty := .i32, root := 0, count := 2, src := some mcap, dst := some mcap, ctx := 0x20000, gid := 0 }
def colS : State := { one with colls := [cq], objs := Map.set 0x52000 (ob (.queue (q6 1))) one.objs }
/-- What the other member has submitted: the same round, another one, an error. -/
def hd : CollHead := ⟨.allreduce, .sum, .i32, 0, 2⟩
def theirs : List (Nat × Contribution) := [(1, .data hd [(0, 1)] (List.replicate 8 0))]
theorem wit_FabricAnswersAndOrders_round : colS.colls.find? (fun c => c.queue == 0x52000) = some cq ∧ colS.queue? 0x52000 = some (q6 1) ∧ (q6 1).coll = some ⟨1, 0, 2, []⟩ ∧ colS.dead 0x52000 = false ∧
    (match memberOf colS cq ⟨1, 0, 2, []⟩ with | .ready _ _ => true | _ => false) = true ∧ (match memberOf colS { cq with root := 2 } ⟨1, 0, 2, []⟩ with | .status n => n == 1 | _ => false) = true ∧
    cq.ended = none ∧ { cq with ended := some 0 }.ended = some 0 ∧ (∀ j, j < 2 → j ≠ 0 → ∃ p ∈ theirs, p.1 = j) ∧ ¬ (∀ j, j < 2 → j ≠ 0 → ∃ p ∈ ([] : List (Nat × Contribution)), p.1 = j) ∧
    (∀ p ∈ theirs, p.1 ≠ 0) := by
  refine ⟨by decide, by decide, by decide, by decide, by decide, by decide, by decide, by decide, fun j h1 h2 => ⟨_, List.mem_singleton.2 rfl, by omega⟩, fun h => ?_, by decide⟩
  obtain ⟨p, hp, _⟩ := h 1 (by decide) (by decide)
  cases hp
theorem wit_FabricAnswersAndOrders_agree : roundStatus cq 0 (.ready [] []) theirs = 0 ∧ roundStatus cq 0 (.ready [] []) [(1, .failed hd 5)] ≠ 0 ∧ cq.op = .allreduce ∧ cq.rop ≠ .msum ∧
    { hd with count := 3 } ≠ hd ∧ (0 : Nat) < 1 := by decide
theorem wit_FabricAnswersAndOrders_waits : (match memberOf { fileS2 with colls := [cq], objs := Map.set 0x52000 (ob (.queue (q6 1))) fileS2.objs } cq ⟨1, 0, 2, []⟩ with | .wait f q => decide (f = 0x5A000 ∧ q = 3) | _ => false) = true := by decide
/-- The result's writes, which another package has yet to stamp, or has not. -/
theorem wit_FabricAnswersAndOrders_posted : replAway (replSettle { awayOf one with replNew := [{ rw1 with tids := [collCx.tid] }] }) 0 collCx.tid = true ∧
    ¬ (replAway (replSettle colS) 0 collCx.tid = true ∨ replOwes (replSettle colS) 0 collCx.tid = true) := by decide
def grS (rd wr : Bool) : State :=
  { one with objs := Map.set 0x61000 (ob (.grant { port := 2, rd := rd, wr := wr, frame := some 0x60000, bus := 0x20000, size := 2 ^ 17 })) (Map.set 0x60000 (ob (.frame (fr false 0))) one.objs) }
theorem wit_PcieReachesFrames : admitted (grS true true) 2 0x3FFFC 4 false = some (fr false 0, 0x61FFFC) ∧ admitted (grS true true) 2 0x3FFFC 4 true = some (fr false 0, 0x61FFFC) ∧ (fr false 0).kind ≠ 2 ∧
    eccHit 0x61FFFC 4 (grS true true).ecc = false ∧ admitted (grS true true) 2 0x3FFFC 5 false = none ∧ admitted (grS true false) 2 0x3FFFC 4 true = none ∧ admitted (grS true false) 3 0x3FFFC 4 true = none ∧
    (grantAt (grS true true) 2 0x3FFFC 4).map (·.1) = some 0x61000 := by decide
/-- A port whose earlier write waits for the home of its Frame. -/
theorem wit_PcieReachesFrames_order : postedHeld (grS true true) 2 = false ∧ postedHeld { away with replNew := [{ rw1 with tids := [(portCx 2).tid] }] } 2 = true := by decide
def irqS (l : Option (Nat × Nat)) : State := { one with objs := Map.set 0x62000 (ob (.irq 1 2 l)) one.objs }
theorem wit_PcieReachesFrames_irq : (∀ l ∈ [none, some (0x40000, 63)], (irqS l).objs.find? (fun o => match o.2.body with | .irq p v _ => p == 1 && v == 2 && !o.2.torn | _ => false) = some (0x62000, ob (.irq 1 2 l))) ∧
    (irqS (some (0x40000, 63))).dead 0x40000 = false ∧ one.objs.find? (fun o => match o.2.body with | .irq p v _ => p == 1 && v == 2 && !o.2.torn | _ => false) = none ∧
    Map.get? 1 [(1, (default : IoAcc))] = some default := by decide
def pow (f : Power → Power) (t : Nat) : State := { one with power := f one.power, time := t }
def hot (n : Nat) : Power := { one.power with last := { one.power.last with temps := List.replicate 7 n, at_ := some 0 }, lastStep := some 0 }
theorem wit_DeviceWatchesItselfAndResets : (pow (fun q => { q with throttle := true }) 0).power.throttle = true ∧ (∀ u, (pow id 0).power.lastStep = some u → u + 100000 ≤ 0) ∧
    (hot 0).lastStep = some 0 ∧ 0 + 100000 ≤ 100000 ∧ 99999 < 0 + 100000 ∧ (pow id 0).power.throttle = false ∧ (hot 0).last.at_ = some 0 ∧ 0 + 1000000 ≤ 1000000 ∧ 999999 < 0 + 1000000 ∧
    (pow (fun q => { q with belowSince := some 0 }) 10000000).power.belowSince = some 0 ∧ 1050 ≤ (hot 1050).last.temps[0]?.getD 0 ∧ (hot 1049).last.temps[6]?.getD 0 < 1050 ∧
    ({ one with frozen := true } : State).frozen = true ∧ one.frozen = false ∧ SMap.wf AlmRec.zero one.almanac = true := by
  refine ⟨by decide, fun u h => ?_, by decide, by decide, by decide, by decide, by decide, by decide, by decide, by decide, by decide, by decide, by decide, by decide, by decide⟩
  cases h
theorem wit_DeviceWatchesItselfAndResets_store : inStore one 0x6A00000000 = true ∧ inStore one 0x110000 = false := by decide
def planS (f fo : Option Nat) (n no : Nat) : BootPlan := { (default : BootPlan) with fails := f, failsOld := fo, trngFails := n, trngFailsOld := no }
theorem wit_DeviceWatchesItselfAndResets_plans : ({ one with fw := { one.fw with staged := true } } : State).fw.staged = true ∧ one.fw.staged = false ∧ (planS none none 0 0).fails = none ∧ (planS none none 7 0).trngFails < 8 ∧
    8 ≤ (planS none none 8 0).trngFails ∧ (planS (some 4) none 0 7).fails = some 4 ∧ (planS (some 4) none 0 7).trngFailsOld < 8 ∧ (planS (some 4) (some 4) 0 0).failsOld = some 4 ∧ (planS (some 2) none 0 0).fails = some 2 ∧
    (planS none none 0 0).image = [] ∧ (planS none none 0 0).pages = [] ∧ (planS none none 0 0).firmware = [] ∧ ({ one with bootStep := 2 } : State).bootStep < 3 ∧ 3 ≤ ({ one with bootStep := 3 } : State).bootStep := by decide

def hostQ : Session := { port := 0, world := 4, handles := [(1, Cap.object 6 0x20000 0 0x0939 true), (2, Cap.object 7 0x60000 0 0x0939 true), (3, Cap.object 11 0x53000 0 0x0939 true), (4, mcap), (5, Cap.object 1 0x50000 0 0x0939 true), (6, Cap.object 1 0x51000 0 0x0939 true)] }
def hostU : State := { one with bootStep := 6, sessions := [(9, hostQ)], objs := Map.set 0x58000 (ob (.untyped { base := 0x400000, log2 := 20, kind := 0, mark := 0 })) one.objs }
def hostS (n : Nat) : State := { hostU with
  objs := Map.set 0x50000 (ob (.endpoint default)) (Map.set 0x51000 { ob (.endpoint default) with world := 5 } (Map.set 0x53000 (ob (.queue { (default : QueueObj) with kind := 2, width := 128, depth := 32, reserved := n }))
    (Map.set 0x60000 (ob (.frame { pa := 0, log2 := 37, kind := 0, frozen := false, repl := none })) hostU.objs))) }
theorem wit_HostAndManagementAnswer_connect : ({ one with bootStep := 6 } : State).bootStep = 6 ∧ (4 : Nat) ≤ (4 : BitVec 4).toNat ∧ (3 : BitVec 4).toNat < 4 ∧ one.sessions.length < 256 ∧ SMap.get false 3 one.portDown = false ∧ SMap.get false 3 ({ one with portDown := [(3, true)] } : State).portDown = true ∧
    256 ≤ ({ one with sessions := (List.range 256).map fun i => (i, hostQ) } : State).sessions.length := by decide
theorem wit_HostAndManagementAnswer_session : Map.get? 9 (hostS 0).sessions = some hostQ ∧ copyPending (hostS 0) 9 = false ∧ Map.get? 9 (hostS 0).attests = none ∧ 8 ≤ (8 : BitVec 8).toNat ∧ rootStore one 4 = none ∧ rootStore (hostS 0) 4 = some 0x58000 ∧
    resetting (hostS 0) 0x58000 = false ∧
    ((hostS 0).obj? 0x58000).map (fun o => (retypeFrom (hostS 0) 0x58000 { x := ⟨0, 0, 0⟩, c := Cap.null, h := 0x58000, o := o, narg := 1, w := [6], cx := Cap.null }).cap.isSome) = some true := by decide
theorem wit_HostAndManagementAnswer_frames : (hostFrame (hostS 0) hostQ 1 2 0x110000 4 true).toOption = some (0x110000, 0, none) ∧ (hostFrame (hostS 0) hostQ 1 2 0x110000 4 false).toOption = some (0x110000, 0, none) ∧
    eccHit 0x110000 4 (hostS 0).ecc = false ∧ hostFrame (hostS 0) hostQ 1 3 0 4 true = .error 7 ∧ hostFrame (hostS 0) hostQ 7 2 0 4 false = .error 3 := by decide
theorem wit_HostAndManagementAnswer_copy : (named (hostS 0) hostQ 3 11 [permInvoke]).toOption = some 0x53000 ∧ (named (hostS 0) hostQ 1 6 [permInvoke]).toOption = some 0x20000 ∧ hostQ.cap? 4 = some mcap ∧
    canPush (hostS 31) 0x53000 1 = true ∧ canPush (hostS 32) 0x53000 1 = false ∧ ((hostS 0).queue? 0x53000).map QueueObj.kind = some 2 ∧ (∀ h ∈ [(0, 4)], (hostQ.cap? h.2).isSome) ∧ (∃ h ∈ [(0, (99 : DWord))], hostQ.cap? h.2 = none) := by decide
/-- A handle of a SchedContext of another world, and one of the session's own. -/
theorem wit_HostAndManagementAnswer_worlds : foreign { (hostS 0) with objs := Map.set 0x20000 { ob ctxB with world := 5 } (hostS 0).objs } hostQ 1 = true ∧ foreign (hostS 0) hostQ 4 = false ∧ (hostQ.cap? 4).isSome ∧
    (hostQ.cap? 1).map (fun c => c.tag && c.has permInvoke && c.otype == 6) = some true ∧ ((hostS 0).obj? 0x51000).map Obj.world = some 5 ∧ ((hostS 0).obj? 0x20000).map (fun o => (o.world, o.torn)) = some (4, false) := by decide
theorem wit_HostAndManagementAnswer_subscribe : (named (hostS 0) hostQ 5 1 [permLoad]).toOption = some 0x50000 ∧ ((hostS 0).ep? 0x50000).map (fun e => (e.msgs, e.senders)) = some ([], []) ∧ named (hostS 0) hostQ 6 1 [permLoad] = .error 4 ∧
    named (hostS 0) hostQ 9 1 [permLoad] = .error 3 ∧ hostQ.cap? 9 = none := by decide
def hostA : State := { (hostS 0) with sessions := [(9, { hostQ with handles := [(1, Cap.object 6 0x20000 0 0x0939 true), (4, Cap.make 0x110000 8192 0x000B true 0x110000)] })], mem := attS.mem, tags := attS.tags }
def phantom : State := { hostA with nextId := hostA.nextId + 1, groups := Map.set hostA.nextId { Group.empty with ctx := 0x20000, service := true } hostA.groups }
theorem wit_HostAndManagementAnswer_attest : (match attest phantom ⟨hostA.nextId, 0, 0⟩ 0x20000 (Cap.make 0x110000 8192 0x000B true 0x110000) with | .done st _ => decide (st = 0) | _ => false) = true := by decide
/-- A buffer whose page is absent. -/
def absS : State := { fileS2 with sessions := [(9, { hostQ with handles := [(1, Cap.object 6 0x20000 0 0x0939 true), (4, Cap.make 0x110000 8192 0x000B true 0x110000)] })] }
theorem wit_HostAndManagementAnswer_attestWaits :
    (match attest { absS with nextId := absS.nextId + 1, groups := Map.set absS.nextId { Group.empty with ctx := 0x20000, service := true } absS.groups } ⟨absS.nextId, 0, 0⟩ 0x20000 (Cap.make 0x110000 8192 0x000B true 0x110000) with
      | .wait (.file f q) => decide (f = 0x5A000 ∧ q = 3) | _ => false) = true := by decide
theorem wit_HostAndManagementAnswer_mgmt : 0 < ({ one with operators := 1 } : State).operators ∧ ¬ 0 < one.operators ∧ (1200 : Nat) ≤ 1200 ∧ (2400 : Nat) ≤ 2400 ∧ (1199 : Nat) < 1200 ∧ (2400 : Nat) < 2401 ∧ one.fw.active ≤ 1 ∧ one.fw.rollback ≤ 1 ∧
    (0 : Nat) < ({ one with fw := { one.fw with rollback := 1 } } : State).fw.rollback := by decide

end Sys2Proof.Tests
end

section
/-! SUPPORT. Words of class 0: the fields of a word as those of an encoding, and which words the decoder takes (R39-R53, R392). -/

namespace Sys2Proof

/-- The field of a field is a field of the word. -/
theorem bitsAt_bitsAt {lo' n' n : Nat} (w lo : Nat) (h : lo' + n' ≤ n) : bitsAt (bitsAt w lo n) lo' n' = bitsAt w (lo + lo') n' := by
  apply Nat.eq_of_testBit_eq
  intro j
  simp only [bitsAt, Nat.testBit_mod_two_pow, Nat.testBit_div_two_pow, Nat.add_assoc]
  by_cases hj : j < n'
  · have : j + lo' < n := by omega
    simp only [this, decide_true, Bool.true_and, show j + (lo' + lo) = j + (lo + lo') by omega]
  · simp only [hj, decide_false, Bool.false_and]

theorem bitsAt_lt (w lo n : Nat) : bitsAt w lo n < 2 ^ n := Nat.mod_lt _ (Nat.two_pow_pos n)

theorem Reg.ofCode_v {x : Nat} (h : x < 0x300) : Reg.ofCode x = .v ⟨x, h⟩ := dif_pos h

/-- The code of the register that a ten-bit code names is that code (R15): the converse of `Reg.ofCode_code`. -/
theorem Reg.code_ofCode {x : Nat} (h : x < 1024) : (Reg.ofCode x).code = x := by
  unfold Reg.ofCode
  repeat' split
  all_goals simp only [Reg.code] <;> omega

theorem minReason_eq_zero (a b : Nat) : minReason a b = 0 ↔ a = 0 ∧ b = 0 := by
  refine ⟨minReason_zero, ?_⟩
  rintro ⟨rfl, rfl⟩
  rfl

/-! The decoder, on an assigned opcode. -/

theorem decodeCore_eq_ok (r : Raw) (i : Instr) :
    decodeCore r = .ok i ↔ parse r = some i ∧ r.regFields.any reservedCode = false ∧ i.WellFormed = true ∧ toRaw i = some r := by
  unfold decodeCore
  cases hp : parse r with
  | none => simp
  | some j =>
    have hz : ∀ b : Bool, minReason (if b then 4 else 0) (minReason j.staticReason (if toRaw j = some r then 0 else 8)) = 0 ↔
        b = false ∧ j.WellFormed = true ∧ toRaw j = some r := by
      intro b
      simp [minReason_eq_zero, Instr.WellFormed]
    simp only [hz, Option.some.injEq]
    split
    · next h => exact ⟨by rintro ⟨⟩; exact ⟨rfl, h⟩, by rintro ⟨rfl, _⟩; rfl⟩
    · next h => exact ⟨nofun, by rintro ⟨rfl, h'⟩; exact absurd h' h⟩

theorem rescope_of_class0 {r : Raw} (h : r.op < 0x080) : r.rescope = none := by
  have h1 : [0x180, 0x181, 0x182, 0x183, 0x186, 0x187, 0x188, 0x189, 0x10E].contains r.op = false := by
    simp only [List.contains_eq_mem, List.mem_cons, List.not_mem_nil, or_false, decide_eq_false_iff_not]
    omega
  have h2 : r.op ≠ 0x300 := by omega
  simp only [Raw.rescope, h1, h2, Bool.false_eq_true, false_and, if_false]

/-- What the decoder answers with on an assigned opcode of class 0. -/
theorem decodeWord_class0 {w : Nat} (h : (Raw.ofWord w).op < 0x080) (ha : (opForm? (Raw.ofWord w).op).isSome) (i : Instr) :
    decodeWord w = .ok i ↔
      (Raw.ofWord w).len ≠ 3 ∧ hasForm (Raw.ofWord w).op (Raw.ofWord w).len = true ∧ decodeCore (Raw.ofWord w) = .ok i := by
  obtain ⟨f, hf⟩ := Option.isSome_iff_exists.1 ha
  simp only [decodeWord, hf, rescope_of_class0 h]
  split
  · next hl => simp [hl]
  · next hl => cases hh : hasForm (Raw.ofWord w).op (Raw.ofWord w).len <;> simp [hl]

/-! The fields of a word. -/

theorem ofWord_hdr_u (w : Nat) : (Raw.ofWord w).hdr.u = (w / 2 ^ 63 % 2 == 1) := by
  show (bitsAt (bitsAt w 50 14) 13 1 == 1) = _
  rw [bitsAt_bitsAt w 50 (by decide)]
  rfl

theorem boolNat_beq_one {x : Nat} (h : x < 2) : boolNat (x == 1) = x := by
  interval_cases x <;> rfl

/-- A word's fields are those of an encoding under the word's own guard, LOOK and U exactly when the others agree. -/
theorem ofWord_eq_mkRaw (w op len d a b m ext : Nat) (hm : m < 8192) :
    Raw.ofWord w = mkRaw op len (Raw.ofWord w).hdr d a b m ext ↔
      bitsAt w 0 2 = len ∧ bitsAt w 6 10 = op ∧ bitsAt w 20 10 = d ∧ bitsAt w 30 10 = a ∧ bitsAt w 40 10 = b ∧ bitsAt w 50 13 = m ∧
        bitsAt w 64 (lenBits (bitsAt w 0 2) - 64) = ext := by
  have hg : (Fin.ofNat 8 (bitsAt w 2 3)).val = bitsAt w 2 3 := Nat.mod_eq_of_lt (bitsAt_lt w 2 3)
  have hl : (Fin.ofNat 16 (bitsAt w 16 4)).val = bitsAt w 16 4 := Nat.mod_eq_of_lt (bitsAt_lt w 16 4)
  have hn : boolNat (bitsAt w 5 1 == 1) = bitsAt w 5 1 := boolNat_beq_one (bitsAt_lt w 5 1)
  have hu : boolNat (bitsAt (bitsAt w 50 14) 13 1 == 1) = bitsAt (bitsAt w 50 14) 13 1 := boolNat_beq_one (bitsAt_lt _ 13 1)
  have hs : bitsAt w 50 14 = bitsAt (bitsAt w 50 14) 13 1 * 8192 + m ↔ bitsAt w 50 13 = m := by
    unfold bitsAt
    omega
  simp only [mkRaw, Raw.hdr, Raw.ofWord, Raw.mk.injEq, hg, hl, hn, hu, hs, true_and]

/-! Legal encodings. -/

theorem wellFormed_of {i : Instr} {h : Hdr} (hh : i.hdr? = some h) (hu : h.u = false) (ho : ∀ o ∈ i.operands, o.reason h.u 1 768 = 0)
    (hs : i.srOk = true) (hm : i.modOk = true) : i.WellFormed = true := by
  have hr : i.operandReason h.u 1 768 = 0 := by
    unfold Instr.operandReason
    revert ho
    generalize i.operands = l
    induction l with
    | nil => exact fun _ => rfl
    | cons o l ih => exact fun ho => (minReason_eq_zero _ _).2 ⟨ho o (List.mem_cons_self ..), ih fun p hp => ho p (List.mem_cons_of_mem _ hp)⟩
  simp only [Instr.WellFormed, Instr.staticReason, hh, hr, hs, hm]
  simp [hu, minReason_eq_zero]

theorem modOk_of_wellFormed {i : Instr} (hw : i.WellFormed = true) : i.modOk = true := by
  unfold Instr.WellFormed Instr.staticReason at hw
  cases hh : i.hdr? with
  | none => simp [hh] at hw
  | some h =>
    by_contra hm
    simp [hh, minReason_eq_zero, hm] at hw

/-! Register operands that are v registers, with U = 0. -/

theorem OpUse.reason_v {o : OpUse} {n : Fin 768} (hr : o.r = .v n) (hk : o.kinds.contains .v = true) (hc : o.count = 1) (ha : o.align = 1)
    (he : o.wide = true → n.val % 2 = 0) : o.reason false 1 768 = 0 := by
  have hn := n.isLt
  simp only [OpUse.reason, hr, hk, hc, ha]
  cases hw : o.wide with
  | false => simp [Nat.mod_one]
  | true =>
    have := he hw
    have hfit : n.val + 2 ≤ 768 := by omega
    simp [Nat.mod_one, this, hfit]

theorem OpUse.reason_dest_ofCode {h : Hdr} {x : Nat} (hu : h.u = false) (hx : x < 0x300) (wide : Bool) (he : wide = true → x % 2 = 0) :
    (OpUse.dest h (Reg.ofCode x) wide).reason h.u 1 768 = 0 := by
  rw [hu, Reg.ofCode_v hx]
  exact OpUse.reason_v rfl (by simp [OpUse.dest, hu]) rfl rfl he

theorem OpUse.reason_src_ofCode {h : Hdr} {x : Nat} (hu : h.u = false) (hx : x < 0x300) (wide : Bool) (he : wide = true → x % 2 = 0) :
    (OpUse.src (Reg.ofCode x) wide).reason h.u 1 768 = 0 := by
  rw [hu, Reg.ofCode_v hx]
  exact OpUse.reason_v rfl rfl rfl rfl he

theorem reservedCode_v {x : Nat} (h : x < 0x300) : reservedCode x = false := by
  simp only [reservedCode, Bool.and_eq_false_iff, decide_eq_false_iff_not]
  omega

theorem regFields_formB {r : Raw} (h : r.op < 0x080) (hp : r.op ≠ 0x022) (hl : r.len = 0) : r.regFields = [r.dst, r.srcb, r.srca] := by
  simp [Raw.regFields, hl, hp, show r.op ≠ 0x30C by omega]

theorem regFields_lut3 {r : Raw} (h : r.op = 0x015) (hl : r.len = 1) : r.regFields = [r.dst, r.srcb, r.srca, bitsAt r.ext 0 10] := by
  simp [Raw.regFields, h, hl]

/-! Words of class 0. -/

/-- What a word that decodes is: its fields name the instruction, which is legal and gives the fields back. -/
theorem fields_of_decodeWord {w op : Nat} {i : Instr} (ho : bitsAt w 6 10 = op) (h : op < 0x080) (ha : (opForm? op).isSome) (hd : decodeWord w = .ok i) :
    parse (Raw.ofWord w) = some i ∧ i.WellFormed = true ∧ toRaw i = some (Raw.ofWord w) := by
  subst ho
  obtain ⟨_, _, hc⟩ := (decodeWord_class0 h ha i).1 hd
  obtain ⟨hp, _, hw, ht⟩ := (decodeCore_eq_ok _ i).1 hc
  exact ⟨hp, hw, ht⟩

/-- A word decodes to the legal instruction whose encoding has its fields. -/
theorem decodeWord_of_toRaw {w op len : Nat} {i : Instr} (ho : bitsAt w 6 10 = op) (hl : bitsAt w 0 2 = len) (h : op < 0x080)
    (hf : hasForm op len = true) (h3 : len ≠ 3) (hi : Laws.Fields.Statement i) (ha : Machine.assigned i = true) (hrow : Machine.rowOfWord i = i)
    (hw : i.WellFormed = true) (hr : (Raw.ofWord w).regFields.any reservedCode = false) (ht : toRaw i = some (Raw.ofWord w)) : decodeWord w = .ok i := by
  subst ho hl
  have hop : (opForm? (bitsAt w 6 10)).isSome := by
    unfold hasForm at hf
    split at hf
    · next e => rw [e]; rfl
    · exact absurd hf (by decide)
  have hp : parse (Raw.ofWord w) = some i := hrow ▸ hi hw ha _ ht
  exact (decodeWord_class0 h hop i).2 ⟨h3, hf, (decodeCore_eq_ok _ i).2 ⟨hp, hr, hw, ht⟩⟩

end Sys2Proof
end

section
/-! P2V (R112). -/

namespace Sys2Proof.Machine

theorem parse_p2v {r : Raw} (h : r.op = 0x023) : parse r = some (.p2v r.hdr r.d) := by
  simp only [parse, h]
  rfl

/-- R112: what a word of P2V's opcode decodes to. -/
theorem p2v_of_decodeWord {w : Nat} {i : Instr} (hop : bitsAt w 6 10 = 0x023) (hd : decodeWord w = .ok i) :
    ∃ h, i = .p2v h (Reg.ofCode (bitsAt w 20 10)) ∧ bitsAt w 0 2 = 0 ∧ bitsAt w 30 10 = 0x3FF ∧ bitsAt w 40 10 = 0x3FF ∧ bitsAt w 50 13 = 0 := by
  obtain ⟨hp, -, ht⟩ := fields_of_decodeWord hop (by decide) (by decide) hd
  obtain rfl := Option.some.inj ((parse_p2v hop).symm.trans hp)
  obtain ⟨hl, -, -, ha, hb, hm, -⟩ := (ofWord_eq_mkRaw w _ _ _ _ _ _ _ (by decide)).1 (Option.some.inj ht).symm
  exact ⟨_, rfl, hl, ha, hb, hm⟩

/-- R112: the words of P2V with U = 0 and a v register decode. -/
theorem decodeWord_p2v {w : Nat} (hop : bitsAt w 6 10 = 0x023) (hl : bitsAt w 0 2 = 0) (hu : (Raw.ofWord w).hdr.u = false) (ha : bitsAt w 30 10 = 0x3FF)
    (hb : bitsAt w 40 10 = 0x3FF) (hm : bitsAt w 50 13 = 0) (hd : bitsAt w 20 10 < 0x300) :
    decodeWord w = .ok (.p2v (Raw.ofWord w).hdr (Reg.ofCode (bitsAt w 20 10))) := by
  have hw : (Instr.p2v (Raw.ofWord w).hdr (Reg.ofCode (bitsAt w 20 10))).WellFormed = true :=
    wellFormed_of rfl hu (List.forall_mem_singleton.2 (OpUse.reason_dest_ofCode hu hd false (absurd · Bool.false_ne_true))) rfl rfl
  refine decodeWord_of_toRaw hop hl (by decide) (by decide) (by decide) (Laws.Fields.p2v _ _) rfl rfl hw ?_ (congrArg some ?_)
  · have ho : (Raw.ofWord w).op = 0x023 := hop
    rw [regFields_formB (by rw [ho]; decide) (by rw [ho]; decide) hl]
    show ([bitsAt w 20 10, bitsAt w 40 10, bitsAt w 30 10].any reservedCode) = false
    rw [ha, hb, List.any_cons, reservedCode_v hd]
    rfl
  · refine ((ofWord_eq_mkRaw w _ _ _ _ _ _ _ (by decide)).2 ⟨hl, hop, ?_, ha, hb, hm, ?_⟩).symm
    · exact (Reg.code_ofCode (bitsAt_lt w 20 10)).symm
    · rw [hl]; exact Nat.mod_one _

theorem exec_p2v (h : Hdr) (d : Reg) (s : State) :
    exec (.p2v h d) s = .next (compute h s fun s x => wr32 s x d (BitVec.ofNat 32 ((s.thr x.gid x.tid).p.toNat + 128))) := rfl

/-- R112: the bits of p7 ∥ p6 ∥ … ∥ p0, widened with zeros; p7 reads true. -/
theorem getLsbD_predicates (t : Thread) (j : Nat) :
    (BitVec.ofNat 32 (t.p.toNat + 128)).getLsbD j = if j < 8 then t.pred (Fin.ofNat 8 j) else false := by
  have hp := t.p.isLt
  have hs : (t.p.toNat + 128).testBit j = if j < 7 then t.p.getLsbD j else (1 : Nat).testBit (j - 7) := by
    rw [show t.p.toNat + 128 = 2 ^ 7 * 1 + t.p.toNat by omega, Nat.testBit_two_pow_mul_add 1 hp]
    rfl
  have h1 : ∀ k, (1 : Nat).testBit k = decide (k = 0) := fun k => by simpa [eq_comm] using Nat.testBit_two_pow (n := 0) (m := k)
  rw [BitVec.getLsbD_ofNat, hs, h1]
  obtain h7 | h7 | h7 := Nat.lt_trichotomy j 7
  · have : j % 8 = j := Nat.mod_eq_of_lt (by omega)
    simp [Thread.pred, h7, this, show j < 32 by omega, show j < 8 by omega, show j ≠ 7 by omega]
  · subst h7; rfl
  · simp [show ¬ j < 7 by omega, show ¬ j < 8 by omega, show j - 7 ≠ 0 by omega]

/-- Settles O7 (R112): the word by its fields, the result by the bits of p7 ∥ … ∥ p0. -/
theorem predicatesGoToARegister : Obligations.PredicatesGoToARegister := by
  refine ⟨fun w hop => ⟨fun i hd => ?_, fun hl hx ha hb _ hu n hd hn => ?_⟩, fun s c h d hi => ?_⟩
  · obtain ⟨h, rfl, hl, ha, hb, hm⟩ := p2v_of_decodeWord hop hd
    unfold bitsAt at hl hm
    exact ⟨h, rfl, by omega, ha, hb, by omega⟩
  · subst hd
    refine ⟨_, decodeWord_p2v hop ?_ ?_ ha hb ?_ hn⟩
    · unfold bitsAt; omega
    · rw [ofWord_hdr_u, beq_eq_false_iff_ne]; omega
    · unfold bitsAt; omega
  · exact ⟨_, yields_of_compute hi _ (exec_p2v h d), fun x => getLsbD_predicates (s.thr x.gid x.tid)⟩

end Sys2Proof.Machine
end

section
/-! V2P (R113). -/

namespace Sys2Proof.Machine

theorem parse_v2p {r : Raw} (h : r.op = 0x024) : parse r = some (.v2p r.hdr r.a (BitVec.ofNat 7 (r.m 0 7))) := by
  simp only [parse, h]
  rfl

theorem parse_ofWord_v2p {w : Nat} (hop : bitsAt w 6 10 = 0x024) :
    parse (Raw.ofWord w) = some (.v2p (Raw.ofWord w).hdr (Reg.ofCode (bitsAt w 30 10)) (BitVec.ofNat 7 (bitsAt w 50 7))) := by
  rw [parse_v2p hop, show (Raw.ofWord w).m 0 7 = bitsAt w 50 7 from bitsAt_bitsAt w 50 (by decide)]
  rfl

/-- R113: what a word of V2P's opcode decodes to. -/
theorem v2p_of_decodeWord {w : Nat} {i : Instr} (hop : bitsAt w 6 10 = 0x024) (hd : decodeWord w = .ok i) :
    ∃ h, i = .v2p h (Reg.ofCode (bitsAt w 30 10)) (BitVec.ofNat 7 (bitsAt w 50 7)) ∧
      bitsAt w 0 2 = 0 ∧ bitsAt w 20 10 = 0x3FF ∧ bitsAt w 40 10 = 0x3FF ∧ bitsAt w 50 13 < 2 ^ 7 := by
  obtain ⟨hp, -, ht⟩ := fields_of_decodeWord hop (by decide) (by decide) hd
  obtain rfl := Option.some.inj ((parse_ofWord_v2p hop).symm.trans hp)
  have hk := (BitVec.ofNat 7 (bitsAt w 50 7)).isLt
  obtain ⟨hl, -, hdst, -, hb, hm, -⟩ := (ofWord_eq_mkRaw w _ _ _ _ _ _ _ (by omega)).1 (Option.some.inj ht).symm
  exact ⟨_, rfl, hl, hdst, hb, by omega⟩

/-- R113: the words of V2P with U = 0 and a v register decode. -/
theorem decodeWord_v2p {w : Nat} (hop : bitsAt w 6 10 = 0x024) (hl : bitsAt w 0 2 = 0) (hu : (Raw.ofWord w).hdr.u = false) (hd : bitsAt w 20 10 = 0x3FF)
    (hb : bitsAt w 40 10 = 0x3FF) (hm : bitsAt w 50 13 = bitsAt w 50 7) (ha : bitsAt w 30 10 < 0x300) :
    decodeWord w = .ok (.v2p (Raw.ofWord w).hdr (Reg.ofCode (bitsAt w 30 10)) (BitVec.ofNat 7 (bitsAt w 50 7))) := by
  have hw : (Instr.v2p (Raw.ofWord w).hdr (Reg.ofCode (bitsAt w 30 10)) (BitVec.ofNat 7 (bitsAt w 50 7))).WellFormed = true :=
    wellFormed_of rfl hu (List.forall_mem_singleton.2 (OpUse.reason_src_ofCode hu ha false (absurd · Bool.false_ne_true))) rfl rfl
  have hk : (BitVec.ofNat 7 (bitsAt w 50 7)).toNat = bitsAt w 50 7 := Nat.mod_eq_of_lt (bitsAt_lt w 50 7)
  refine decodeWord_of_toRaw hop hl (by decide) (by decide) (by decide) (Laws.Fields.v2p _ _ _) rfl rfl hw ?_ (congrArg some ?_)
  · have ho : (Raw.ofWord w).op = 0x024 := hop
    rw [regFields_formB (by rw [ho]; decide) (by rw [ho]; decide) hl]
    show ([bitsAt w 20 10, bitsAt w 40 10, bitsAt w 30 10].any reservedCode) = false
    rw [hd, hb, List.any_cons, List.any_cons, List.any_cons, reservedCode_v ha]
    rfl
  · refine ((ofWord_eq_mkRaw w _ _ _ _ _ _ _ (by omega)).2 ⟨hl, hop, hd, ?_, hb, hm.trans hk.symm, ?_⟩).symm
    · exact (Reg.code_ofCode (bitsAt_lt w 30 10)).symm
    · rw [hl]; exact Nat.mod_one _

/-- The writes of the first n predicates: those that a mask names take a bit of a value. -/
def maskedPreds (mask a : Nat → Bool) (n : Nat) : List RegWrite :=
  (List.range n).filterMap fun i => if mask i then some (.p (Fin.ofNat 8 i) (a i)) else none

theorem exec_v2p (h : Hdr) (a : Reg) (mask : BitVec 7) (s : State) :
    exec (.v2p h a mask) s = .next (compute h s fun s x => maskedPreds mask.getLsbD (rd32 s x a).getLsbD 7) := rfl

theorem putAll_append (xs ys : List RegWrite) (t : Thread) : putAll (xs ++ ys) t = putAll ys (putAll xs t) := List.foldl_append

/-- A predicate after one is written (R19). -/
theorem pred_onThread_p (k i : Pred) (b : Bool) (t : Thread) (hk : k.val < 7) : ((RegWrite.p k b).onThread t).pred i = if i = k then b else t.pred i := by
  have h7 : k.val ≠ 7 := hk.ne
  have hone : ∀ j, (1#7 <<< k.val).getLsbD j = decide (j = k.val) := by
    intro j
    rw [← BitVec.twoPow_eq, BitVec.getLsbD_twoPow]
    simp [hk, eq_comm]
  have hbit : ∀ j < 7, (if b then t.p ||| (1#7 <<< k.val) else t.p &&& ~~~(1#7 <<< k.val)).getLsbD j = if j = k.val then b else t.p.getLsbD j := by
    intro j hj
    cases b with
    | false =>
      rw [if_neg Bool.false_ne_true, BitVec.getLsbD_and, BitVec.getLsbD_not, hone]
      by_cases e : j = k.val <;> simp [e, hj]
    | true =>
      rw [if_pos rfl, BitVec.getLsbD_or, hone]
      by_cases e : j = k.val <;> simp [e]
  simp only [RegWrite.onThread, h7, if_false, Thread.pred, Fin.ext_iff]
  by_cases hi : i.val = 7
  · simp [hi, h7.symm]
  · simp only [hi, if_false, hbit i.val (by omega)]

/-- R113: the named predicates take their bits, and the others stay. -/
theorem pred_putAll_maskedPreds (mask a : Nat → Bool) (t : Thread) (i : Pred) (n : Nat) (hn : n ≤ 7) :
    (putAll (maskedPreds mask a n) t).pred i = if i.val < n ∧ mask i.val = true then a i.val else t.pred i := by
  induction n with
  | zero => simp [maskedPreds, putAll]
  | succ n ih =>
    have e : maskedPreds mask a (n + 1) = maskedPreds mask a n ++ if mask n then [.p (Fin.ofNat 8 n) (a n)] else [] := by
      cases h : mask n <;> simp [maskedPreds, List.range_succ, h]
    have hv : (Fin.ofNat 8 n).val = n := Nat.mod_eq_of_lt (by omega)
    have hi : i = Fin.ofNat 8 n ↔ i.val = n := by rw [Fin.ext_iff, hv]
    rw [e, putAll_append]
    have hlt : i.val ≠ n → (i.val < n + 1 ↔ i.val < n) := by omega
    cases h : mask n with
    | false =>
      refine (ih (by omega)).trans ?_
      by_cases hin : i.val = n
      · simp [hin, h]
      · simp only [hlt hin]
    | true =>
      refine (pred_onThread_p _ i (a n) _ (by omega)).trans ?_
      rw [ih (by omega), if_congr hi rfl rfl]
      by_cases hin : i.val = n
      · simp [hin, h]
      · simp only [hin, if_false, hlt hin]

/-- Settles O8 (R113): the word by its fields, the predicates by induction on how many have been written. -/
theorem aRegisterGoesToPredicates : Obligations.ARegisterGoesToPredicates := by
  refine ⟨fun w hop => ⟨fun i hd => ?_, fun hl hd hb _ hu n ha hn => ?_⟩, fun s c h a mask hi => ?_⟩
  · obtain ⟨h, rfl, hl, hdst, hb, hm⟩ := v2p_of_decodeWord hop hd
    unfold bitsAt at hl hm
    exact ⟨h, rfl, by omega, hdst, hb, by omega⟩
  · subst ha
    refine ⟨_, decodeWord_v2p hop ?_ ?_ hd hb ?_ hn⟩
    · unfold bitsAt; omega
    · rw [ofWord_hdr_u, beq_eq_false_iff_ne]; omega
    · unfold bitsAt; omega
  · exact ⟨_, yields_of_compute hi _ (exec_v2p h a mask), fun x t i => pred_putAll_maskedPreds _ _ t i 7 (Nat.le_refl 7)⟩

end Sys2Proof.Machine
end

section
/-! LUT3 (R104). -/

namespace Sys2Proof.Machine

theorem parse_lut3 {r : Raw} (h : r.op = 0x015) :
    parse r = (IType.ofCode (r.m 9 4)).bind fun t => some (.lut3 r.hdr t (BitVec.ofNat 8 (r.m 0 8)) r.d r.a r.b r.c) := by
  simp only [parse, h]
  rfl

/-- The instruction LUT3 of a type that a word's fields name. -/
def lut3OfWord (w : Nat) (t : IType) : Instr :=
  .lut3 (Raw.ofWord w).hdr t (BitVec.ofNat 8 (bitsAt w 50 8)) (Reg.ofCode (bitsAt w 20 10)) (Reg.ofCode (bitsAt w 30 10)) (Reg.ofCode (bitsAt w 40 10))
    (Reg.ofCode (bitsAt w 64 10))

theorem ofWord_ext_formC {w : Nat} (hl : bitsAt w 0 2 = 1) : (Raw.ofWord w).ext = bitsAt w 64 32 :=
  congrArg (fun l => bitsAt w 64 (lenBits l - 64)) hl

theorem ofWord_srcc {w : Nat} (hl : bitsAt w 0 2 = 1) : bitsAt (Raw.ofWord w).ext 0 10 = bitsAt w 64 10 := by
  rw [ofWord_ext_formC hl]
  exact bitsAt_bitsAt w 64 (by decide)

theorem parse_ofWord_lut3 {w : Nat} (hop : bitsAt w 6 10 = 0x015) (hl : bitsAt w 0 2 = 1) :
    parse (Raw.ofWord w) = (IType.ofCode (bitsAt w 59 4)).map (lut3OfWord w) := by
  rw [parse_lut3 hop, show (Raw.ofWord w).m 0 8 = bitsAt w 50 8 from bitsAt_bitsAt w 50 (by decide),
    show (Raw.ofWord w).m 9 4 = bitsAt w 59 4 from bitsAt_bitsAt w 50 (by decide), Raw.c, ofWord_srcc hl]
  exact Option.map_eq_bind.symm

/-- LUT3's fields, its type's code and its table in MOD, SRCC and an empty MOD2 above. -/
theorem toRaw_lut3OfWord (w : Nat) (t : IType) : toRaw (lut3OfWord w t) = some (Raw.ofWord w) ↔
    bitsAt w 0 2 = 1 ∧ bitsAt w 6 10 = 0x015 ∧ bitsAt w 50 13 = t.code * 2 ^ 9 + bitsAt w 50 8 ∧ bitsAt w 64 32 = bitsAt w 64 10 := by
  have hc := t.code_lt
  have ht := bitsAt_lt w 50 8
  have hk : (BitVec.ofNat 8 (bitsAt w 50 8)).toNat = bitsAt w 50 8 := Nat.mod_eq_of_lt ht
  have e : toRaw (lut3OfWord w t) = some (mkRaw 0x015 1 (Raw.ofWord w).hdr (bitsAt w 20 10) (bitsAt w 30 10) (bitsAt w 40 10)
      (t.code * 2 ^ 9 + bitsAt w 50 8) (bitsAt w 64 10)) := by
    show some (mkRaw _ _ _ _ _ _ (modT _ _) (extC _ _)) = _
    rw [Reg.code_ofCode (bitsAt_lt w 20 10), Reg.code_ofCode (bitsAt_lt w 30 10), Reg.code_ofCode (bitsAt_lt w 40 10),
      Reg.code_ofCode (bitsAt_lt w 64 10), hk]
    rfl
  rw [e, Option.some.injEq, eq_comm, ofWord_eq_mkRaw w _ _ _ _ _ _ _ (by omega)]
  constructor
  · rintro ⟨hl, ho, -, -, -, hm, hx⟩
    exact ⟨hl, ho, hm, ofWord_ext_formC hl ▸ hx⟩
  · rintro ⟨hl, ho, hm, hx⟩
    exact ⟨hl, ho, rfl, rfl, rfl, hm, (ofWord_ext_formC hl).trans hx⟩

/-- MOD of LUT3: ITYPE above a zero bit above TT. -/
theorem lut3_mod_iff (w : Nat) (t : IType) : bitsAt w 50 13 = t.code * 2 ^ 9 + bitsAt w 50 8 ↔ bitsAt w 59 4 = t.code ∧ bitsAt w 58 1 = 0 := by
  have := t.code_lt
  unfold bitsAt
  omega

/-- R104: what a word of LUT3's opcode decodes to. -/
theorem lut3_of_decodeWord {w : Nat} {i : Instr} (hop : bitsAt w 6 10 = 0x015) (hd : decodeWord w = .ok i) :
    ∃ t, i = lut3OfWord w t ∧ (t = .b32 ∨ t = .b64) ∧ bitsAt w 0 2 = 1 ∧ bitsAt w 59 4 = t.code ∧ bitsAt w 58 1 = 0 ∧
      bitsAt w 64 32 = bitsAt w 64 10 := by
  obtain ⟨hp, hw, ht⟩ := fields_of_decodeWord hop (by decide) (by decide) hd
  have hl : bitsAt w 0 2 = 1 := by
    rw [parse_lut3 hop, Option.bind_eq_some_iff] at hp
    obtain ⟨t, -, hi⟩ := hp
    obtain rfl := Option.some.inj hi
    exact (congrArg Raw.len (Option.some.inj ht)).symm
  rw [parse_ofWord_lut3 hop hl, Option.map_eq_some_iff] at hp
  obtain ⟨t, -, rfl⟩ := hp
  obtain ⟨-, -, hm, hx⟩ := (toRaw_lut3OfWord w t).1 ht
  have hty : (t == .b32 || t == .b64) = true := modOk_of_wellFormed hw
  obtain ⟨hcode, hzero⟩ := (lut3_mod_iff w t).1 hm
  exact ⟨t, rfl, by simpa using hty, hl, hcode, hzero, hx⟩

/-- R104: the words of LUT3 with U = 0 and v registers, pairs of them for .b64, decode. -/
theorem decodeWord_lut3 {w : Nat} {t : IType} (hop : bitsAt w 6 10 = 0x015) (hl : bitsAt w 0 2 = 1) (hu : (Raw.ofWord w).hdr.u = false)
    (ht : t = .b32 ∨ t = .b64) (hcode : bitsAt w 59 4 = t.code) (hzero : bitsAt w 58 1 = 0) (hx : bitsAt w 64 32 = bitsAt w 64 10)
    (hv : ∀ lo ∈ [20, 30, 40, 64], bitsAt w lo 10 < 0x300 ∧ (t.is64 = true → bitsAt w lo 10 % 2 = 0)) : decodeWord w = .ok (lut3OfWord w t) := by
  obtain ⟨hd, hd2⟩ := hv 20 (by decide)
  obtain ⟨ha, ha2⟩ := hv 30 (by decide)
  obtain ⟨hb, hb2⟩ := hv 40 (by decide)
  obtain ⟨hc, hc2⟩ := hv 64 (by decide)
  have hw : (lut3OfWord w t).WellFormed = true := by
    refine wellFormed_of rfl hu ?_ rfl ?_
    · show ∀ o ∈ [OpUse.dest _ _ _, .src _ _, .src _ _, .src _ _], _
      simp only [List.forall_mem_cons]
      exact ⟨OpUse.reason_dest_ofCode hu hd _ hd2, OpUse.reason_src_ofCode hu ha _ ha2, OpUse.reason_src_ofCode hu hb _ hb2,
        OpUse.reason_src_ofCode hu hc _ hc2, List.forall_mem_nil _⟩
    · obtain rfl | rfl := ht <;> rfl
  refine decodeWord_of_toRaw hop hl (by decide) (by decide) (by decide) (Laws.Fields.lut3 _ _ _ _ _ _ _) rfl rfl hw ?_
    ((toRaw_lut3OfWord w t).2 ⟨hl, hop, (lut3_mod_iff w t).2 ⟨hcode, hzero⟩, hx⟩)
  rw [regFields_lut3 hop hl, ofWord_srcc hl]
  show [bitsAt w 20 10, bitsAt w 40 10, bitsAt w 30 10, bitsAt w 64 10].any reservedCode = false
  simp only [List.any_cons, List.any_nil, reservedCode_v, hd, ha, hb, hc, Bool.or_false]

theorem exec_lut3 (h : Hdr) (t : IType) (tt : BitVec 8) (d a b e : Reg) (s : State) :
    exec (.lut3 h t tt d a b e) s =
      .next (compute h s fun s x => wrW s x t.is64 d (lut3 t tt (rdW s x t.is64 a) (rdW s x t.is64 b) (rdW s x t.is64 e))) := rfl

/-- A number of n bits, built bit by bit. -/
def sumBits (f : Nat → Bool) (n : Nat) : Nat := (List.range n).foldr (fun j acc => acc + (f j).toNat * 2 ^ j) 0

theorem foldr_bits_start (f : Nat → Bool) (l : List Nat) (k : Nat) :
    l.foldr (fun j acc => acc + (f j).toNat * 2 ^ j) k = k + l.foldr (fun j acc => acc + (f j).toNat * 2 ^ j) 0 := by
  induction l with
  | nil => rfl
  | cons j l ih => rw [List.foldr_cons, List.foldr_cons, ih, Nat.add_assoc]

theorem sumBits_succ (f : Nat → Bool) (n : Nat) : sumBits f (n + 1) = 2 ^ n * (f n).toNat + sumBits f n := by
  rw [sumBits, List.range_succ, List.foldr_append, foldr_bits_start, List.foldr_cons, List.foldr_nil, Nat.zero_add, Nat.mul_comm, sumBits]

theorem sumBits_lt (f : Nat → Bool) (n : Nat) : sumBits f n < 2 ^ n := by
  induction n with
  | zero => exact Nat.one_pos
  | succ n ih =>
    rw [sumBits_succ, Nat.pow_succ]
    cases f n <;> simp <;> omega

theorem testBit_sumBits (f : Nat → Bool) (n j : Nat) : (sumBits f n).testBit j = (decide (j < n) && f j) := by
  induction n with
  | zero => simp [sumBits]
  | succ n ih =>
    rw [sumBits_succ, Nat.testBit_two_pow_mul_add _ (sumBits_lt f n), ih]
    obtain h | rfl | h := Nat.lt_trichotomy j n
    · simp [h, Nat.lt_succ_of_lt h]
    · cases f j <;> simp
    · have : (f n).toNat.testBit (j - n) = false := Nat.testBit_lt_two_pow (lt_of_le_of_lt (Bool.toNat_le _) (Nat.one_lt_two_pow (by omega)))
      simp [this, show ¬ j < n by omega, show ¬ j < n + 1 by omega]

theorem bitAt_eq_testBit (x i : Nat) : bitAt x i = (x.testBit i).toNat := (Nat.toNat_testBit x i).symm

theorem lut3_eq_sumBits (t : IType) (tt : BitVec 8) (a b c : Nat) :
    lut3 t tt a b c = sumBits (fun j => tt.getLsbD ((a.testBit j).toNat * 4 + (b.testBit j).toNat * 2 + (c.testBit j).toNat)) t.bits := by
  simp only [lut3, sumBits, bitAt_eq_testBit, Nat.mul_comm 4, Nat.mul_comm 2]
  rfl

/-- Settles O9 (R104): the word by its fields, the result as a number summed bit by bit. -/
theorem lookupTableDecidesEachBit : Obligations.LookupTableDecidesEachBit := by
  refine ⟨fun w hop => ⟨fun i hd => ?_, fun t hl _ h58 hu hx ht hv => ?_⟩, fun s c h t tt d a b e hi _ => ?_⟩
  · obtain ⟨t, rfl, ht, hl, hcode, hzero, hx⟩ := lut3_of_decodeWord hop hd
    unfold bitsAt at hl hx
    refine ⟨_, t, rfl, ht, hcode.trans ?_, by omega, hzero, by omega⟩
    obtain rfl | rfl := ht <;> rfl
  · refine ⟨_, decodeWord_lut3 (t := t) hop ?_ ?_ (ht.imp And.left And.left) ?_ h58 ?_ ?_⟩
    · unfold bitsAt; omega
    · rw [ofWord_hdr_u, beq_eq_false_iff_ne]; omega
    · obtain ⟨rfl, hcode⟩ | ⟨rfl, hcode⟩ := ht <;> exact hcode
    · unfold bitsAt; omega
    · intro lo hlo
      obtain ⟨hr, he⟩ := hv lo hlo
      refine ⟨hr, fun h64 => ?_⟩
      obtain ⟨rfl, -⟩ | ⟨rfl, -⟩ := ht
      · exact absurd h64 (by decide)
      · exact (Nat.mod_mod_of_dvd _ (by decide)).trans (he rfl)
  · exact ⟨_, yields_of_compute hi _ (exec_lut3 h t tt d a b e), fun x j => by rw [lut3_eq_sumBits, testBit_sumBits]⟩

end Sys2Proof.Machine
end
